-- ==== Sys2Proof/Word.lean ====
section
/-! DEFINITION. The word types of the Skesia 4820 and the plainest arithmetic on them (R4, R5). -/

namespace Sys2Proof

/-- A 32-bit register word (R132). -/
abbrev Word := BitVec 32

/-- A 64-bit value: a register pair, low word in the even register (R4). -/
abbrev DWord := BitVec 64

/-- One byte of any address space. -/
abbrev Byte := BitVec 8

/-- A 7-bit operand field of an instruction word (R251). -/
abbrev Code := BitVec 7

/-- A pair read as one 64-bit value: the even register holds the low word (R4). -/
def Word.pair (lo hi : Word) : DWord := BitVec.ofNat 64 (hi.toNat * 2 ^ 32 + lo.toNat)

/-- Low word of a pair. -/
def DWord.lo (d : DWord) : Word := BitVec.ofNat 32 d.toNat

/-- High word of a pair. -/
def DWord.hi (d : DWord) : Word := BitVec.ofNat 32 (d.toNat / 2 ^ 32)

theorem DWord.lo_pair (a b : Word) : DWord.lo (Word.pair a b) = a := by
  apply BitVec.eq_of_toNat_eq
  simp only [DWord.lo, Word.pair, BitVec.toNat_ofNat]
  have := a.isLt; have := b.isLt; omega

theorem DWord.hi_pair (a b : Word) : DWord.hi (Word.pair a b) = b := by
  apply BitVec.eq_of_toNat_eq
  simp only [DWord.hi, Word.pair, BitVec.toNat_ofNat]
  have := a.isLt; have := b.isLt; omega

theorem Word.pair_lo_hi (d : DWord) : Word.pair (DWord.lo d) (DWord.hi d) = d := by
  apply BitVec.eq_of_toNat_eq
  simp only [DWord.hi, DWord.lo, Word.pair, BitVec.toNat_ofNat]
  have := d.isLt; omega

end Sys2Proof
end

