-- ==== Sys2Proof/Config.lean ====
section
/-! DEFINITION. What an implementation fixes and the free values: constants with no body, of which no
proof can see the value (log entries 3 and 4). -/

namespace Sys2Proof.Config

/-- R121: which of the old and the new value a read of a register with a pending write receives.
A free choice, applied to the state's counter, the thread and the register code (log entry 4). -/
opaque pendingRead : Nat → Nat → Nat → Bool

/-- R121: which of the two values stands when a register with a pending write was written meanwhile
(log entry 4). -/
opaque pendingStands : Nat → Bool

/-- R108: the cycles of a core that a step takes, by its number. No rule gives the cycles that a program spends (log
entry 20). -/
opaque stepCycles : Nat → Nat → Nat

/-- A value that comes from another device of the pod: the data of a load or atomic that leaves over a
Ryuzin link (log entry 21). -/
opaque remoteWord : Nat → BitVec 32
opaque remoteP : Nat → Bool

/-- R83: the SPDM measurement of an index over the data that it measures, and a signature by the identity of R35 (log
entry 22). -/
opaque measurement : Nat → List Nat → Nat
opaque signature : Nat → Nat

/-- R199 to R204, R388: a value whose format or bound the manual leaves open at one point of an
instruction that goes on; applied to the state's counter (log entry 4). -/
opaque freeWord : Nat → BitVec 32

end Sys2Proof.Config
end

