-- ==== Sys2Proof/Syntax.lean ====
section
/-! DEFINITION. The steps of the Skesia 4820: one constructor for each row of the opcode table. A row with an
encoding carries the fields of its words, as the table and R249 to R258 name them; the literal words of a clause
(R246) are no part of the instruction and stand in the clause. A row that is an event of the part carries what
the event brings from outside. -/

namespace Sys2Proof

/-- The path an agent's accesses belong to (R177). -/
inductive Path where
  | T | P | C | G | K
deriving DecidableEq, Repr

/-- An agent of the memory model (R177). For a thread, `gid` is its home group and `n` its `tix`; for an engine
agent, `gid` is the home group that issued it and `n` the command's own number. -/
structure Agent where
  path : Path
  core : Nat
  gid  : Nat
  n    : Nat
deriving DecidableEq, Repr

/-- The fields of the signed configuration manifest (R34, R38, R236, R239). -/
structure Manifest where
  /-- 1: the signature verifies under the root key or a key that it certifies. -/
  signed    : Bool
  limitW    : Nat
  links     : List Bool
  floor     : Nat
  threshold : Nat
  scanHours : Nat
  /-- the firmware of the power controllers, as the number of its image -/
  firmware  : Nat
deriving DecidableEq, Repr

/-- What one power-on finds (R22, R26 to R35): the outcomes of self-test, training and identity. -/
structure SelfTest where
  /-- the Nerard controller starts from its mask ROM; where it does not, the device does not enumerate -/
  romOk      : Bool
  identityOk : Bool
  manifest   : Manifest
  /-- physical cores, numbered 64 * die + core, whose SRAM column fails beyond repair -/
  badColumns : List Nat
  /-- physical cores whose logic fails -/
  badCores   : List Nat
  badBridges : List Nat
  /-- LP6 channels that fail training -/
  badChans   : List Nat
  /-- the port number each Ryuzin link is found on; none where training failed -/
  linkPorts  : List (Option Nat)
deriving DecidableEq, Repr

/-- The PLDM Type 2 sensors (R83). -/
inductive Sensor where
  | packagePower
  | junction (die : Nat)
  | pwrh (die : Nat)
deriving DecidableEq, Repr

/-- A host access to device memory (R64, R154, R189): through BAR 2, or through CXL with an explicit die and
physical address; or to the BAR 0 registers from `off` on (R66). -/
structure HostAcc where
  reg   : Bool
  cxl   : Bool
  write : Bool
  off   : Nat
  len   : Nat
  data  : List Byte
deriving DecidableEq, Repr

/-- The kind of a request to a slice (R160, R167). -/
inductive ReqKind where
  | load | store | reduce | fetch | engineRead | engineWrite
deriving DecidableEq, Repr

/-- A request that arrives at its owner slice (R151). `port` is the Ryuzin link it arrived on, or none for a
request of this device. -/
structure Req where
  port  : Option Nat
  ctx   : Nat
  agent : Agent
  kind  : ReqKind
  va    : BitVec 64
  len   : Nat
  data  : List Byte
  p     : Bool
  /-- a synchronising operation never raises `CONFLICT` (R183) -/
  sync  : Bool
  /-- the reduction of a `reduce`: format code and control word -/
  red   : Nat × Nat
  /-- what the code words of a read show (R171): 0 nothing, 1 a single data bit, 2 an address disagreement, 3
  uncorrectable data; and the array of the column that holds them -/
  synd  : Nat
  array : Nat
  /-- the answer comes with an uncorrectable flit (R49) -/
  flit  : Bool
deriving DecidableEq, Repr

/-- What the code word of a sector shows at its next read (R171): the sector (key / 32), 1 a single data bit, 2 an
address disagreement or 3 uncorrectable data, and the array of the column that holds it. -/
structure Upset where
  sector : Nat
  synd   : Nat
  array  : Nat
deriving DecidableEq, Repr

/-- An active message that arrives from another device (R50): the logical core it names, the sender's context, its handler
entry, its payload with the P of each word, and its class. -/
structure InMsg where
  core  : Nat
  ctx   : Nat
  entry : Nat
  words : List (Word × Bool)
  reply : Bool
  /-- the Ryuzin link that it arrives on (R45) -/
  link  : Nat
deriving DecidableEq, Repr

/-- How an active message goes on (R50, R51): one arrives from another device, or the head of a core's inbound queue leaves it
for its bin. -/
inductive AmStep where
  | far (m : InMsg)
  | binned (core : Nat)
deriving DecidableEq, Repr

/-- What arrives over the fabric: its number among those expected, and whether it comes with an uncorrectable flit (R49). -/
structure Arrival where
  idx  : Nat
  flit : Bool
deriving DecidableEq, Repr

/-- A voltage step down (R236): the domain, and what code words of its column show from then on (R171). -/
structure Lowering where
  dom  : Nat
  weak : List Upset
deriving DecidableEq, Repr

/-- The steps of the part. -/
inductive Instr where
  /-- `POWER_ON` (R33). A power-on runs the nine stages: self-test, soft repair, core map, bridge, LP6 and Ryuzin training, then releases compute and sets READY, or ends in the safe, talkative state. -/
  | powerOn (r : SelfTest)
  /-- `PCIE_FUNDAMENTAL_RESET` (R36). A PCIe fundamental reset repeats power-on from stage 1. -/
  | pcieFundamentalReset (r : SelfTest)
  /-- `MANAGEMENT_POWER_CYCLE` (R36). A management power cycle repeats power-on from stage 1. -/
  | managementPowerCycle (r : SelfTest)
  /-- `MAP_REBUILD` (R23). Management rebuilds the core map of a drained die, and a spare takes any vacant logical number. -/
  | mapRebuild (die : Nat) (failed : List Nat)
  /-- `LINK_DOWN` (R32). A Ryuzin link that goes down while running has its traffic held by its link engine while the link retrains for up to 1 ms. -/
  | linkDown (link : Nat)
  /-- `LINK_RETRAIN_END` (R32). Retraining ends: on success the held traffic proceeds in order; on failure the plane is removed from the hash once its requests have ended. -/
  | linkRetrainEnd (link : Nat) (ok : Bool)
  /-- `BRIDGE_REPLAY` (R28). A bridge or link that finds a bit error repeats the affected flit from its replay buffer, without reordering traffic. -/
  | bridgeReplay (bridge : Nat)
  /-- `THERMAL_THROTTLE` (R39). A junction reading of 105 degrees C makes the power controller hold its headroom negative until the reading falls below 100 degrees C. -/
  | thermalThrottle (die reading : Nat)
  /-- `THERMAL_FENCE` (R39). At 115 degrees C the Nerard controller fences compute on every die, kills every running context with code KILLED and notifies the host. -/
  | thermalFence (reading : Nat)
  /-- `THERMAL_REENABLE` (R39). Management re-enables a thermally fenced device once the reading has fallen below 100 degrees C. -/
  | thermalReenable (reading : Nat)
  /-- `PWRH_REFRESH` (R98). Every 256 core cycles the die's power controller refreshes HDRM, FIT and THR from the power limit and the sensors. -/
  | pwrhRefresh (die quad : Nat) (hdrm : BitVec 8)
  /-- `UNDERVOLT_STEP` (R236). The power controller lowers an unlocked SRAM voltage domain by 5 mV, never below the floor set in the manifest. -/
  | undervoltStep (x : Lowering)
  /-- `MONITOR_WINDOW_EXPIRY` (R236). An array monitor's 14,000,000-cycle window ends and its count of corrected errors restarts. -/
  | monitorWindowExpiry (dom array : Nat)
  /-- `UNDERVOLT_OVERRIDE` (R237). An array count that exceeds its threshold raises the domain one step, sets its undervolt lock and reports the event. -/
  | undervoltOverride (dom array count : Nat)
  /-- `SCAN_START` (R239). The Nerard controller starts the in-field scan of an idle core that is due, and the core counts as fully occupied. -/
  | scanStart (core : Nat)
  /-- `SCAN_PATTERN_END` (R240). The pattern run ends and its signature is compared; a failing compare removes the core from the map, otherwise the core is cleared and rejoins placement. -/
  | scanPatternEnd (core : Nat) (pass : Bool)
  /-- `SCAN_ABORT` (R241). A staged record of priority 6 or 7 stops the pattern run; the core clears within 2 us and rejoins placement, and its scan remains due. -/
  | scanAbort (core : Nat)
  /-- `PLDM_SENSOR_READ` (R83). The Nerard controller returns a PLDM Type 2 sensor: package power, a die's junction temperature or a die's PWRH. -/
  | pldmSensorRead (q : Sensor) (reading : Nat)
  /-- `PLDM_POWER_LIMIT` (R38). The host sets the package power limit through the PLDM effecter, but not below 800 W. -/
  | pldmPowerLimit (watts : Nat)
  /-- `UNDERVOLT_LOCK_CLEAR` (R237). The PLDM Type 2 effecter of a voltage domain clears that domain's undervolt lock. -/
  | undervoltLockClear (dom : Nat)
  /-- `PLDM_UPDATE` (R83). A PLDM Type 5 update of the manifest or power-controller firmware is accepted, to be applied at the next power-on after the check. -/
  | pldmUpdate (m : Manifest)
  /-- `PLDM_FILE_READ` (R83). The Nerard controller returns the mailbox or the freeze log through a PLDM file read. -/
  | pldmFileRead (file : Nat)
  /-- `GET_MEASUREMENTS` (R83). The Nerard controller returns the signed SPDM measurement of the requested index. -/
  | getMeasurements (index : Nat)
  /-- `CHALLENGE` (R83). The Nerard controller answers an SPDM CHALLENGE signed by the part's identity. -/
  | challenge (nonce : Nat)
  /-- `DOORBELL` (R70). A doorbell write of a new TAIL is checked against HEAD and TAIL; it either sets OVF or updates TAIL so that the queue scheduler reads records. -/
  | doorbell (part q : Nat) (v : Word)
  /-- `QUEUE_TAIL` (R69). A write to a queue's TAIL register acts exactly as the same write to the queue's doorbell. -/
  | queueTail (part q : Nat) (v : Word)
  /-- `QUEUE_ENABLE` (R70). A write of ENABLE starts or stops the reading of records from the queue's ring. -/
  | queueEnable (part q : Nat) (on : Bool)
  /-- `BIND` (R68). A write of BOUND = 1 binds QUADMASK and XLAT, reads the translation descriptor and clears the W buffers, or is refused and sets BINDERR. -/
  | bind (part : Nat)
  /-- `UNBIND` (R68). A write of BOUND = 0 unbinds the partition, but only while DRAINED = 1. -/
  | unbind (part : Nat)
  /-- `DRAIN` (R67). A write of DRAIN sets or clears the admission of new records and the refusal of doorbells for the partition. -/
  | drain (part : Nat) (on : Bool)
  /-- `UNFREEZE` (R81). FCTL action 1 resumes the frozen master of the named freeze-log entry and removes the entry. -/
  | unfreeze (entry : Nat)
  /-- `KILL` (R81). FCTL action 2 kills the entry's context for masters 1 to 3, or fences the Ryuzin link for master 4. -/
  | kill (entry : Nat)
  /-- `SKIP` (R81). FCTL action 3 discards the malformed record held in a frozen host queue's stage and resumes the queue. -/
  | skip (entry : Nat)
  /-- `REGISTER_WRITE` (R66). A host write to a BAR 0 register that has no behaviour of its own stores its RW fields and clears its W1C bits. -/
  | registerWrite (off : Nat) (v : Word)
  /-- `HOST_ACCESS` (R154). A host access through BAR 2 or CXL reaches physical memory directly, or context 0's translated space once partition 0 is bound, as an untracked access. -/
  | hostAccess (x : HostAcc)
  /-- `INVAL` (R163). The INVAL translation command removes one page's cached translation from every slice of the die once earlier walks and accesses have finished. -/
  | inval (part die : Nat)
  /-- `INVALALL` (R163). The INVALALL translation command removes every cached translation of the context on the die. -/
  | invalall (part die : Nat)
  /-- `RESIZE` (R164). The RESIZE translation command starts probing the new ways of a table alongside the old ones. -/
  | resize (part die : Nat)
  /-- `RESIZEEND` (R164). The RESIZEEND translation command stops probing the old table and writes the new BASE and LOG into the descriptor. -/
  | resizeend (part die : Nat)
  /-- `MIGRATE` (R165). The MIGRATE translation command holds a 64 KiB page's requests, copies its sectors to a new frame, rewrites FRAME, invalidates the page and releases the requests. -/
  | migrate (part die : Nat)
  /-- `FAULT_RECORD_MAPPED` (R167). The host writes STATUS 2 to a pending fault record, and the die walks the granule again: it either reopens the granule or sets the record pending again. -/
  | faultRecordMapped (part die rec : Nat)
  /-- `FAULT_RECORD_REFUSED` (R168). The host writes STATUS 3 to a pending fault record, and the held requests of the granule end refused. -/
  | faultRecordRefused (part die rec : Nat)
  /-- `SLICE_REQUEST` (R151). A request arrives at its owner slice, is translated and performed there, or is refused while its granule is closed. -/
  | sliceRequest (r : Req)
  /-- `TABLE_WALK` (R159). A walk after a TLB miss probes the candidate buckets and ends in a translation, a miss or an ACCESS violation. -/
  | tableWalk (part die off : Nat)
  /-- `GRANULE_REOPEN` (R168). A closed granule reopens once every core that it refused has replayed its side-log entries for the granule. -/
  | granuleReopen (part die gran : Nat)
  /-- `SIDE_LOG_REPLAY` (R169). A core's side log replays an entry in order once its granule is mapped, or drops the entry when the write is refused. -/
  | sideLogReplay (core : Nat)
  /-- `RECORD_STAGE` (R85). The queue scheduler reads the record at HEAD into the empty stage, increments HEAD, checks the record and resolves its predecessors. -/
  | recordStage (part q : Nat)
  /-- `DISCARD` (R103). A marked instance that becomes restartable is discarded: its groups stop and free their slots, its landing entries become HELD, and its space may become held. -/
  | discard (gid : Nat)
  /-- `RESTART` (R106). A held instance whose resources have freed restores its saved blocks and restarts each thread that had not tailed at its restart PC. -/
  | restart (idx : Nat)
  /-- `BLOCK_CLAIM` (R105). A first touch that finds no free block lapses the overlapping landing entries of a held space, saves that space's block and hands the block over. -/
  | blockClaim (core space block : Nat)
  /-- `WATCHDOG_EXPIRY` (R110). A queue's watchdog counter reaches its budget and kills the queue's context in the eight-step order. -/
  | watchdogExpiry (part q : Nat)
  /-- `BIN_TIMER_EXPIRY` (R93). A spawn bin's timer reaches BINT and the bin launches its group, which need not be full. -/
  | binTimerExpiry (core bin : Nat)
  /-- `BIN_LAUNCH` (R94). A full or expired bin places its group on the core's lane with the most free room, or keeps its threads until a lane frees. -/
  | binLaunch (core bin : Nat)
  /-- `ACTIVE_MESSAGE_ARRIVAL` (R51). An active message enters the core's inbound queue and, in arrival order, the spawn bin of its handler entry. -/
  | activeMessageArrival (x : AmStep)
  /-- `GROUP_RETIRE` (R107). A retirement-tracker entry frees once its group's stores, copies, side-log entries and commands have all completed. -/
  | groupRetire (core idx : Nat)
  /-- `RESULT_LANDING` (R119). A variable-latency register write lands, and a group parked at a marker or header wait resumes once its last such write has landed. -/
  | resultLanding (gid idx : Nat)
  /-- `HEADER_WAIT` (R120). A group parked at a clause header resumes once the operations of the kinds named by its wait bits have completed. -/
  | headerWait (gid : Nat)
  /-- `LOAD_REPLAY` (R145). When the mapping arrives, the held threads' load is replayed in a sweep of those threads alone. -/
  | loadReplay (gid : Nat)
  /-- `STARVATION_SWITCH` (R97). A ready group that has gone 2,048 lane cycles without issuing makes the lane choose again at the end of the current sweep. -/
  | starvationSwitch (core lix : Nat)
  /-- `TURN_LIMIT` (R126). A path that has issued 256 instructions in its turn ends the turn, and the group's least recent path issues next. -/
  | turnLimit (gid : Nat)
  /-- `CLONE_REPLAY` (R230). The clone-compare unit replays a queued sweep and compares it with the first execution. -/
  | cloneReplay (gid : Nat) (first second : BitVec 16)
  /-- `MATRIX_CHECK` (R234). The redundant check of a matrix operation completes; a failure re-executes the operation or, once a drain has begun, poisons that drain's output. -/
  | matrixCheck (core tile : Nat) (ok : Bool) (written : Nat)
  /-- `COPY_TRANSFER_COMPLETION` (R332). A CPY transfer's destination sector performs, the tag's outstanding count decrements, and any error code is recorded in the tag. -/
  | copyTransferCompletion (core idx : Nat)
  /-- `COMPLETION_WORD_WRITE` (R397). An engine command ends by writing its completion word as a pod-scope release after all its other writes. -/
  | completionWordWrite (core idx : Nat)
  /-- `BATCH_WINDOW_EXPIRY` (R345). A source entry's batch window ends and its merged update of one line is forwarded to each subscriber. -/
  | batchWindowExpiry (core entry line : Nat)
  /-- `UPDATE_ARRIVAL` (R194). A forwarded update reaches the subscriber core and lands as one interval, or is refused when its entry is LAPSED or freed. -/
  | updateArrival (core : Nat) (x : Arrival)
  /-- `CONTRIBUTION_ARRIVAL` (R56). A collective contribution reaches a reduction point, is widened and combined, and travels on as a partial. -/
  | contributionArrival (coll rank other : Nat)
  /-- `COLLECTIVE_BOUND_EXPIRY` (R60). A collective's bound expires before all contributions have arrived, and it completes SHORT without writing its destination. -/
  | collectiveBoundExpiry (coll rank : Nat)
  /-- `COLLECTIVE_DELIVERY` (R341). The result of a collective is delivered; the participant writes its destination, STAT, its completion word and D. -/
  | collectiveDelivery (coll : Nat) (x : Arrival)
  /-- `WAIT_WAKE` (R313). A thread parked on WAIT whose watch has latched an event becomes ready within its wake bound. -/
  | waitWake (gid idx : Nat)
  /-- `WAIT_TIMEOUT` (R313). A WAIT's bound expires and the thread becomes ready with result TIMEOUT. -/
  | waitTimeout (gid idx : Nat)
  /-- `WAITA_WAKE` (R314). A write that changes a WAITA's word makes the thread read the word again and continue with it. -/
  | waitaWake (gid idx : Nat)
  /-- `PWAIT_REREAD` (R325). A write to a phase word makes each parked PWAIT read it again, and the thread continues if PHASE matches. -/
  | pwaitReread (gid idx : Nat)
  /-- `HUDDLE_ROUND_COMPLETE` (R318). A huddle round completes once its outcome is known: its operation issues or LAST becomes MISMATCH, GEN advances and the signers resume. -/
  | huddleRoundComplete (core h : Nat)
  /-- `DCOR_ROUND` (R390). A DCOR round's reads and residuals are done; it settles x, fails and counts a round, or mismatches, and writes each signer's xd. -/
  | dcorRound (core h : Nat)
  /-- `BAR_COMPLETE` (R321). A barrier completes once every participant has arrived, the arrivals' accesses have drained and pending subscription updates have been applied. -/
  | barComplete (gid idx : Nat)
  /-- `PITCHER_START` (R350). The pitcher slot starts the next program from its start queue. -/
  | pitcherStart (core : Nat)
  /-- `PITCHER_END` (R353). A pitcher program ends after its last iteration, on a trap, at QDRN, or when its bindings end, and its interval closes. -/
  | pitcherEnd (core : Nat)
  /-- `IADD` (R267). 32-bit add: wrapping, or saturating signed or unsigned. -/
  | iadd (d : BitVec 7) (a : BitVec 7) (b : BitVec 7) (m : BitVec 3)
  /-- `ISUB` (R267). 32-bit subtract: wrapping, or saturating signed or unsigned. -/
  | isub (d : BitVec 7) (a : BitVec 7) (b : BitVec 7) (m : BitVec 3)
  /-- `IMUL` (R267). Low 32 bits of A times B. -/
  | imul (d : BitVec 7) (a : BitVec 7) (b : BitVec 7)
  /-- `IMULH` (R267). High 32 bits of the 64-bit product, signed or unsigned. -/
  | imulh (d : BitVec 7) (a : BitVec 7) (b : BitVec 7) (m : BitVec 3)
  /-- `IMAD` (R267). Low 32 bits of A times B plus C. -/
  | imad (d : BitVec 7) (a : BitVec 7) (b : BitVec 7) (c : BitVec 7)
  /-- `IDIV` (R269). Integer quotient rounded toward zero; a variable-latency result. -/
  | idiv (d : BitVec 7) (a : BitVec 7) (b : BitVec 7) (m : BitVec 3)
  /-- `IREM` (R269). Integer remainder with the sign of A; a variable-latency result. -/
  | irem (d : BitVec 7) (a : BitVec 7) (b : BitVec 7) (m : BitVec 3)
  /-- `IMIN` (R267). Smaller of A and B, signed or unsigned. -/
  | imin (d : BitVec 7) (a : BitVec 7) (b : BitVec 7) (m : BitVec 3)
  /-- `IMAX` (R267). Larger of A and B, signed or unsigned. -/
  | imax (d : BitVec 7) (a : BitVec 7) (b : BitVec 7) (m : BitVec 3)
  /-- `IABS` (R267). Absolute value, wrapping or saturating. -/
  | iabs (d : BitVec 7) (a : BitVec 7) (m : BitVec 3)
  /-- `INEG` (R267). Negation, wrapping or saturating. -/
  | ineg (d : BitVec 7) (a : BitVec 7) (m : BitVec 3)
  /-- `AND` (R267). Bitwise AND. -/
  | and (d : BitVec 7) (a : BitVec 7) (b : BitVec 7)
  /-- `OR` (R267). Bitwise OR. -/
  | or (d : BitVec 7) (a : BitVec 7) (b : BitVec 7)
  /-- `XOR` (R267). Bitwise XOR. -/
  | xor (d : BitVec 7) (a : BitVec 7) (b : BitVec 7)
  /-- `ANDN` (R267). A AND NOT B. -/
  | andn (d : BitVec 7) (a : BitVec 7) (b : BitVec 7)
  /-- `NOT` (R267). Bitwise NOT of A. -/
  | not (d : BitVec 7) (a : BitVec 7)
  /-- `SHL` (R268). Shift left with zero fill. -/
  | shl (d : BitVec 7) (a : BitVec 7) (b : BitVec 7)
  /-- `SHR` (R268). Logical shift right. -/
  | shr (d : BitVec 7) (a : BitVec 7) (b : BitVec 7)
  /-- `SAR` (R268). Arithmetic shift right. -/
  | sar (d : BitVec 7) (a : BitVec 7) (b : BitVec 7)
  /-- `ROTL` (R268). Rotate left by c mod 32. -/
  | rotl (d : BitVec 7) (a : BitVec 7) (b : BitVec 7)
  /-- `POPC` (R267). Number of 1 bits. -/
  | popc (d : BitVec 7) (a : BitVec 7)
  /-- `CLZ` (R267). Count of leading zeros. -/
  | clz (d : BitVec 7) (a : BitVec 7)
  /-- `BREV` (R267). Bit reversal. -/
  | brev (d : BitVec 7) (a : BitVec 7)
  /-- `BFX` (R268). Bit-field extract, zero- or sign-extended. -/
  | bfx (d : BitVec 7) (a : BitVec 7) (b : BitVec 7) (m : BitVec 3) (c : BitVec 7)
  /-- `BFI` (R268). Bit-field insert into D. -/
  | bfi (d : BitVec 7) (a : BitVec 7) (b : BitVec 7) (c : BitVec 7)
  /-- `SEL` (R267). A where the predicate is 1, else B. -/
  | sel (d : BitVec 7) (a : BitVec 7) (b : BitVec 7) (p : BitVec 3)
  /-- `MOV` (R267). Copy A to D. -/
  | mov (d : BitVec 7) (a : BitVec 7)
  /-- `MOVI` (R271). Write a sign-extended 17-bit immediate. -/
  | movi (d : BitVec 7) (i : BitVec 17)
  /-- `MOVH` (R271). Write a 16-bit immediate into the high half of D. -/
  | movh (d : BitVec 7) (i : BitVec 16)
  /-- `LEA` (R271). D := A + (SignExtend64(B) << s), on 64 bits. -/
  | lea (d : BitVec 7) (a : BitVec 7) (b : BitVec 7) (s : BitVec 3)
  /-- `ICMP` (R256). 32-bit integer compare into a predicate. -/
  | icmp (p : BitVec 7) (a : BitVec 7) (b : BitVec 7) (c : BitVec 3)
  /-- `IADD.D` (R270). 64-bit add. -/
  | iaddD (d : BitVec 7) (a : BitVec 7) (b : BitVec 7)
  /-- `ISUB.D` (R270). 64-bit subtract. -/
  | isubD (d : BitVec 7) (a : BitVec 7) (b : BitVec 7)
  /-- `IMUL.D` (R270). Low 64 bits of the product. -/
  | imulD (d : BitVec 7) (a : BitVec 7) (b : BitVec 7)
  /-- `IMAD.D` (R270). Low 64 bits of A times B plus C. -/
  | imadD (d : BitVec 7) (a : BitVec 7) (b : BitVec 7) (c : BitVec 7)
  /-- `IMIN.D` (R270). 64-bit minimum, signed or unsigned. -/
  | iminD (d : BitVec 7) (a : BitVec 7) (b : BitVec 7) (m : BitVec 3)
  /-- `IMAX.D` (R270). 64-bit maximum, signed or unsigned. -/
  | imaxD (d : BitVec 7) (a : BitVec 7) (b : BitVec 7) (m : BitVec 3)
  /-- `AND.D` (R270). 64-bit AND. -/
  | andD (d : BitVec 7) (a : BitVec 7) (b : BitVec 7)
  /-- `OR.D` (R270). 64-bit OR. -/
  | orD (d : BitVec 7) (a : BitVec 7) (b : BitVec 7)
  /-- `XOR.D` (R270). 64-bit XOR. -/
  | xorD (d : BitVec 7) (a : BitVec 7) (b : BitVec 7)
  /-- `SHL.D` (R270). 64-bit shift left. -/
  | shlD (d : BitVec 7) (a : BitVec 7) (b : BitVec 7)
  /-- `SHR.D` (R270). 64-bit logical shift right. -/
  | shrD (d : BitVec 7) (a : BitVec 7) (b : BitVec 7)
  /-- `SAR.D` (R270). 64-bit arithmetic shift right. -/
  | sarD (d : BitVec 7) (a : BitVec 7) (b : BitVec 7)
  /-- `MOV.D` (R270). 64-bit move. -/
  | movD (d : BitVec 7) (a : BitVec 7)
  /-- `SEL.D` (R270). 64-bit select by a predicate. -/
  | selD (d : BitVec 7) (a : BitVec 7) (b : BitVec 7) (p : BitVec 3)
  /-- `ICMP.D` (R270). 64-bit integer compare into a predicate. -/
  | icmpD (p : BitVec 7) (a : BitVec 7) (b : BitVec 7) (c : BitVec 3)
  /-- `FADD` (R272). FP32 add. -/
  | fadd (d : BitVec 7) (a : BitVec 7) (b : BitVec 7) (m : BitVec 3)
  /-- `FSUB` (R272). FP32 subtract. -/
  | fsub (d : BitVec 7) (a : BitVec 7) (b : BitVec 7) (m : BitVec 3)
  /-- `FMUL` (R272). FP32 multiply. -/
  | fmul (d : BitVec 7) (a : BitVec 7) (b : BitVec 7) (m : BitVec 3)
  /-- `FFMA` (R272). FP32 fused multiply-add. -/
  | ffma (d : BitVec 7) (a : BitVec 7) (b : BitVec 7) (m : BitVec 3) (c : BitVec 7)
  /-- `FMIN` (R273). FP32 minimum that ignores a single NaN. -/
  | fmin (d : BitVec 7) (a : BitVec 7) (b : BitVec 7)
  /-- `FMAX` (R273). FP32 maximum that ignores a single NaN. -/
  | fmax (d : BitVec 7) (a : BitVec 7) (b : BitVec 7)
  /-- `FABS` (R273). Clear the sign bit. -/
  | fabs (d : BitVec 7) (a : BitVec 7)
  /-- `FNEG` (R273). Flip the sign bit. -/
  | fneg (d : BitVec 7) (a : BitVec 7)
  /-- `FCMP` (R256). FP32 compare into a predicate. -/
  | fcmp (p : BitVec 7) (a : BitVec 7) (b : BitVec 7) (c : BitVec 3)
  /-- `FCLASS` (R273). One-hot class mask of A. -/
  | fclass (d : BitVec 7) (a : BitVec 7)
  /-- `FSCALE` (R272). A times 2 to the power B. -/
  | fscale (d : BitVec 7) (a : BitVec 7) (b : BitVec 7) (m : BitVec 3)
  /-- `FCVT` (R274). Conversion selected by the code in B; narrow targets set P. -/
  | fcvt (d : BitVec 7) (a : BitVec 7) (c : BitVec 7) (m : BitVec 3)
  /-- `FRND` (R272). Round to an integral FP32 value. -/
  | frnd (d : BitVec 7) (a : BitVec 7) (m : BitVec 3)
  /-- `FRCP` (R275). Reciprocal; a variable-latency special function. -/
  | frcp (d : BitVec 7) (a : BitVec 7) (m : BitVec 3)
  /-- `FRSQ` (R275). Reciprocal square root. -/
  | frsq (d : BitVec 7) (a : BitVec 7)
  /-- `FSQRT` (R275). Square root. -/
  | fsqrt (d : BitVec 7) (a : BitVec 7) (m : BitVec 3)
  /-- `FEXP2` (R275). 2 to the power A. -/
  | fexp2 (d : BitVec 7) (a : BitVec 7)
  /-- `FLOG2` (R275). Base-2 logarithm. -/
  | flog2 (d : BitVec 7) (a : BitVec 7)
  /-- `FSIN` (R275). Sine of A in radians. -/
  | fsin (d : BitVec 7) (a : BitVec 7)
  /-- `FCOS` (R275). Cosine of A in radians. -/
  | fcos (d : BitVec 7) (a : BitVec 7)
  /-- `DADD` (R276). FP64 add. -/
  | dadd (d : BitVec 7) (a : BitVec 7) (b : BitVec 7) (m : BitVec 3)
  /-- `DSUB` (R276). FP64 subtract. -/
  | dsub (d : BitVec 7) (a : BitVec 7) (b : BitVec 7) (m : BitVec 3)
  /-- `DMUL` (R276). FP64 multiply. -/
  | dmul (d : BitVec 7) (a : BitVec 7) (b : BitVec 7) (m : BitVec 3)
  /-- `DFMA` (R276). FP64 fused multiply-add. -/
  | dfma (d : BitVec 7) (a : BitVec 7) (b : BitVec 7) (m : BitVec 3) (c : BitVec 7)
  /-- `DDIV` (R276). FP64 divide; a variable-latency result. -/
  | ddiv (d : BitVec 7) (a : BitVec 7) (b : BitVec 7) (m : BitVec 3)
  /-- `DSQRT` (R276). FP64 square root; a variable-latency result. -/
  | dsqrt (d : BitVec 7) (a : BitVec 7) (m : BitVec 3)
  /-- `DCMP` (R256). FP64 compare into a predicate. -/
  | dcmp (p : BitVec 7) (a : BitVec 7) (b : BitVec 7) (c : BitVec 3)
  /-- `DCVT` (R276). FP64 conversion selected by the code in B. -/
  | dcvt (d : BitVec 7) (a : BitVec 7) (c : BitVec 7) (m : BitVec 3)
  /-- `HADD2` (R277). Packed FP16 add. -/
  | hadd2 (d : BitVec 7) (a : BitVec 7) (b : BitVec 7) (m : BitVec 3)
  /-- `HMUL2` (R277). Packed FP16 multiply. -/
  | hmul2 (d : BitVec 7) (a : BitVec 7) (b : BitVec 7) (m : BitVec 3)
  /-- `HFMA2` (R277). Packed FP16 fused multiply-add. -/
  | hfma2 (d : BitVec 7) (a : BitVec 7) (b : BitVec 7) (m : BitVec 3) (c : BitVec 7)
  /-- `PAND` (R278). Predicate AND with optional negations. -/
  | pand (d : BitVec 7) (a : BitVec 7) (b : BitVec 7) (n : BitVec 2)
  /-- `POR` (R278). Predicate OR with optional negations. -/
  | por (d : BitVec 7) (a : BitVec 7) (b : BitVec 7) (n : BitVec 2)
  /-- `PXOR` (R278). Predicate XOR with optional negations. -/
  | pxor (d : BitVec 7) (a : BitVec 7) (b : BitVec 7) (n : BitVec 2)
  /-- `PNOT` (R278). Predicate NOT. -/
  | pnot (d : BitVec 7) (a : BitVec 7)
  /-- `PMOV` (R278). Predicate copy. -/
  | pmov (d : BitVec 7) (a : BitVec 7)
  /-- `PSET` (R278). Predicate := A is nonzero. -/
  | pset (d : BitVec 7) (a : BitVec 7)
  /-- `XCHG` (R280). Exchange through the lane buffer: read the entry that the form selects. -/
  | xchg (d : BitVec 7) (a : BitVec 7) (b : BitVec 7) (m : BitVec 3)
  /-- `XBCAST` (R280). Broadcast one thread's entry to the active threads. -/
  | xbcast (d : BitVec 7) (a : BitVec 7) (b : BitVec 7)
  /-- `XSCAN` (R281). Inclusive or exclusive scan over the active entries. -/
  | xscan (d : BitVec 7) (a : BitVec 7) (b : BitVec 7) (m : BitVec 3)
  /-- `XRED` (R281). Reduction over the active entries. -/
  | xred (d : BitVec 7) (a : BitVec 7) (m : BitVec 3)
  /-- `VOTE` (R282). Vote over the active entries: any, all, ballot or count. -/
  | vote (d : BitVec 7) (a : BitVec 7) (m : BitVec 3)
  /-- `BRA` (R283). Relative branch with a reconvergence word; the path splits by guard. -/
  | bra (o : BitVec 24)
  /-- `BRX` (R283). Branch to the address in a register pair. -/
  | brx (a : BitVec 7)
  /-- `CALL` (R284). Relative call that pushes the return address. -/
  | call (o : BitVec 24)
  /-- `CALLX` (R284). Call to the address in a register pair. -/
  | callx (a : BitVec 7)
  /-- `LOOP` (R286). Replay the following instructions count times, stepping their fields. -/
  | loop (cnt : BitVec 7) (len : BitVec 5) (id : BitVec 4) (ia : BitVec 4) (ib : BitVec 4) (ic : BitVec 4) (it : BitVec 2) (io : BitVec 14)
  /-- `SPAWN` (R288). Place a new thread into the spawn bin of its entry. -/
  | spawn (c : BitVec 7) (a : BitVec 7) (b : BitVec 7)
  /-- `LAUNCH` (R289). Submit a launch record to the partition's device pool. -/
  | launch (a : BitVec 7)
  /-- `RGN` (R292). Region entry: record a restart PC and a restart word. -/
  | rgn (a : BitVec 7)
  /-- `DEAD` (R293). Mark the masked x registers dead. -/
  | dead (f : BitVec 7) (m : BitVec 16)
  /-- `LD` (R300). Global load, base form. -/
  | ld (d : BitVec 7) (a : BitVec 7) (f : BitVec 4) (o : BitVec 3) (v : BitVec 3)
  /-- `LDA` (R300). A-space load, base form. -/
  | lda (d : BitVec 7) (a : BitVec 7) (f : BitVec 4) (o : BitVec 3) (v : BitVec 3)
  /-- `LDW` (R300). W-space load, base form. -/
  | ldw (d : BitVec 7) (a : BitVec 7) (f : BitVec 4) (o : BitVec 3) (v : BitVec 3)
  /-- `ST` (R301). Global store, base form. -/
  | st (d : BitVec 7) (a : BitVec 7) (f : BitVec 4) (o : BitVec 3) (v : BitVec 3)
  /-- `STA` (R301). A-space store, base form. -/
  | sta (d : BitVec 7) (a : BitVec 7) (f : BitVec 4) (o : BitVec 3) (v : BitVec 3)
  /-- `STW` (R301). W-space store, base form. -/
  | stw (d : BitVec 7) (a : BitVec 7) (f : BitVec 4) (o : BitVec 3) (v : BitVec 3)
  /-- `ST.P` (R301). Global store with P = 1, base form. -/
  | stP (d : BitVec 7) (a : BitVec 7) (f : BitVec 4) (o : BitVec 3) (v : BitVec 3)
  /-- `STA.P` (R301). A-space store with P = 1, base form. -/
  | staP (d : BitVec 7) (a : BitVec 7) (f : BitVec 4) (o : BitVec 3) (v : BitVec 3)
  /-- `STW.P` (R301). W-space store with P = 1, base form. -/
  | stwP (d : BitVec 7) (a : BitVec 7) (f : BitVec 4) (o : BitVec 3) (v : BitVec 3)
  /-- `ATOM` (R306). Global atomic returning the old value, base form. -/
  | atom (d : BitVec 7) (a : BitVec 7) (f : BitVec 4) (o : BitVec 3) (v : BitVec 3)
  /-- `ATOMA` (R306). A-space atomic returning the old value, base form. -/
  | atoma (d : BitVec 7) (a : BitVec 7) (f : BitVec 4) (o : BitVec 3) (v : BitVec 3)
  /-- `RED` (R304). Global reduction without a result, base form. -/
  | red (d : BitVec 7) (a : BitVec 7) (f : BitVec 4) (o : BitVec 3) (v : BitVec 3)
  /-- `LD` (R300). Global load, offset form. -/
  | ldOff (d : BitVec 7) (a : BitVec 7) (f : BitVec 4) (o : BitVec 3) (v : BitVec 3)
  /-- `LDA` (R300). A-space load, offset form. -/
  | ldaOff (d : BitVec 7) (a : BitVec 7) (f : BitVec 4) (o : BitVec 3) (v : BitVec 3)
  /-- `LDW` (R300). W-space load, offset form. -/
  | ldwOff (d : BitVec 7) (a : BitVec 7) (f : BitVec 4) (o : BitVec 3) (v : BitVec 3)
  /-- `ST` (R301). Global store, offset form. -/
  | stOff (d : BitVec 7) (a : BitVec 7) (f : BitVec 4) (o : BitVec 3) (v : BitVec 3)
  /-- `STA` (R301). A-space store, offset form. -/
  | staOff (d : BitVec 7) (a : BitVec 7) (f : BitVec 4) (o : BitVec 3) (v : BitVec 3)
  /-- `STW` (R301). W-space store, offset form. -/
  | stwOff (d : BitVec 7) (a : BitVec 7) (f : BitVec 4) (o : BitVec 3) (v : BitVec 3)
  /-- `ST.P` (R301). Global store with P = 1, offset form. -/
  | stPOff (d : BitVec 7) (a : BitVec 7) (f : BitVec 4) (o : BitVec 3) (v : BitVec 3)
  /-- `STA.P` (R301). A-space store with P = 1, offset form. -/
  | staPOff (d : BitVec 7) (a : BitVec 7) (f : BitVec 4) (o : BitVec 3) (v : BitVec 3)
  /-- `STW.P` (R301). W-space store with P = 1, offset form. -/
  | stwPOff (d : BitVec 7) (a : BitVec 7) (f : BitVec 4) (o : BitVec 3) (v : BitVec 3)
  /-- `ATOM` (R306). Global atomic, offset form. -/
  | atomOff (d : BitVec 7) (a : BitVec 7) (f : BitVec 4) (o : BitVec 3) (v : BitVec 3)
  /-- `ATOMA` (R306). A-space atomic, offset form. -/
  | atomaOff (d : BitVec 7) (a : BitVec 7) (f : BitVec 4) (o : BitVec 3) (v : BitVec 3)
  /-- `RED` (R304). Global reduction, offset form. -/
  | redOff (d : BitVec 7) (a : BitVec 7) (f : BitVec 4) (o : BitVec 3) (v : BitVec 3)
  /-- `FENCE` (R308). Acquire and release at the operand scope. -/
  | fence (o : BitVec 3) (v : BitVec 3)
  /-- `FENCEX` (R193). Cross-path fence from path a to path b. -/
  | fencex (p : BitVec 7) (q : BitVec 7) (o : BitVec 3) (v : BitVec 3)
  /-- `WATCH` (R309). Arm a watch on the line that holds a word. -/
  | watch (a : BitVec 7) (f : BitVec 4)
  /-- `WAIT` (R311). Park until the thread's watch latches an event or the bound expires. -/
  | wait (d : BitVec 7) (a : BitVec 7)
  /-- `WAITA` (R314). Park until an A-space word differs from D. -/
  | waita (d : BitVec 7) (a : BitVec 7)
  /-- `PRF` (R315). Prefetch a line at its owner slice; affects timing only. -/
  | prf (a : BitVec 7)
  /-- `HARM` (R317). Arm a huddle with a count of signatures. -/
  | harm (a : BitVec 7) (h : BitVec 4)
  /-- `HSIGN` (R318). Sign a huddle once for each active thread and park until the round completes. -/
  | hsign (h : BitVec 4)
  /-- `HPOLL` (R319). Read a snapshot of a huddle's state. -/
  | hpoll (d : BitVec 7) (h : BitVec 4)
  /-- `BAR` (R321). Arrive at the barrier of a scope and park until it completes. -/
  | bar (c : BitVec 1) (n : BitVec 3)
  /-- `PARR` (R324). Arrive on a phase word, flipping PHASE when EXPECT is reached. -/
  | parr (a : BitVec 7)
  /-- `PWAIT` (R325). Park until a phase word's PHASE equals D bit 0. -/
  | pwait (d : BitVec 7) (a : BitVec 7)
  /-- `CPY.GA` (R332). Per-thread copy of one sector from global memory into A under a batch tag. -/
  | cpyGa (d : BitVec 7) (a : BitVec 7) (b : BitVec 7) (t : BitVec 3)
  /-- `CPY.AG` (R332). Per-thread copy of one sector from A to global memory under a batch tag. -/
  | cpyAg (d : BitVec 7) (a : BitVec 7) (b : BitVec 7) (t : BitVec 3)
  /-- `CPYW` (R334). Wait for a tag's transfers issued so far and trap on any recorded error. -/
  | cpyw (t : BitVec 3)
  /-- `CPYT` (R335). Read a tag's error code and outstanding count. -/
  | cpyt (d : BitVec 7) (t : BitVec 3)
  /-- `BCPY` (R336). Bulk copy of rows or of a compressed tensor, as described by a descriptor. -/
  | bcpy (a : BitVec 7) (b : BitVec 7) (c : BitVec 7)
  /-- `COLL` (R339). Issue one participant's share of a collective. -/
  | coll (d : BitVec 7) (a : BitVec 7)
  /-- `SUBS` (R343). Bind a landing entry to a source region on another core. -/
  | subs (n : BitVec 7) (a : BitVec 7)
  /-- `SUBS.SYNC` (R344). Bind a landing entry, or re-bind a LAPSED one, with a full copy of the source region. -/
  | subsSync (n : BitVec 7) (a : BitVec 7)
  /-- `SUBX` (R347). Cancel a subscription and free its landing entry. -/
  | subx (n : BitVec 7) (a : BitVec 7)
  /-- `SUBF` (R348). Flush the pending updates to a landing entry and acquire them. -/
  | subf (d : BitVec 7) (n : BitVec 7)
  /-- `SUBF.SRC` (R348). Flush the source entries' batches and report the refusals since the last SUBF.SRC. -/
  | subfSrc (d : BitVec 7)
  /-- `AMSG` (R349). Send one active message for each active thread. -/
  | amsg (d : BitVec 7) (a : BitVec 7) (b : BitVec 7) (t : BitVec 3) (c : BitVec 7)
  /-- `QPUSH` (R352). Within a pitcher program, append one entry to a bound pitch queue. -/
  | qpush (q : BitVec 7) (a : BitVec 7)
  /-- `PITCH` (R350). Bind pitch queues and enqueue a pitcher micro-program. -/
  | pitch (d : BitVec 7) (a : BitVec 7) (b : BitVec 7) (c : BitVec 7)
  /-- `MCFG` (R374). Select a tile's CHAIN or SOFTMAX epilogue mode. -/
  | mcfg (a : BitVec 7) (tile : BitVec 2) (m : BitVec 4)
  /-- `MZERO` (R373). Zero a tile and clear its POISON, HELD and staged outlier record. -/
  | mzero (tile : BitVec 2)
  /-- `GATH` (R370). Gather 64 A rows into a latch by index registers. -/
  | gath (d : BitVec 7) (a : BitVec 7) (b : BitVec 7) (c : BitVec 7) (lat : BitVec 1) (fa : BitVec 4) (mx : BitVec 1) (m : BitVec 2)
  /-- `MMA` (R371). Sign a huddle whose round issues a matrix multiply-accumulate. -/
  | mma (d : BitVec 7) (a : BitVec 7) (b : BitVec 7) (c : BitVec 7) (h : BitVec 4) (tile : BitVec 2) (lat : BitVec 1) (fa : BitVec 4) (fb : BitVec 4) (mx : BitVec 1) (m : BitVec 2)
  /-- `MMAS.S` (R375). Online-softmax score step signed into a huddle. -/
  | mmasS (d : BitVec 7) (a : BitVec 7) (b : BitVec 7) (c : BitVec 7) (h : BitVec 4) (tile : BitVec 2) (lat : BitVec 1) (fa : BitVec 4) (fb : BitVec 4) (mx : BitVec 1) (lr : BitVec 1)
  /-- `MMAS.V` (R375). Online-softmax value step signed into a huddle. -/
  | mmasV (d : BitVec 7) (a : BitVec 7) (b : BitVec 7) (c : BitVec 7) (h : BitVec 4) (tile : BitVec 2) (fa : BitVec 4) (fb : BitVec 4) (mx : BitVec 1) (lr : BitVec 1)
  /-- `MOL` (R372). Stage an outlier record for a tile's next operation. -/
  | mol (a : BitVec 7) (tile : BitVec 2)
  /-- `MDRN` (R377). Drain a tile through the epilogue chain to memory. -/
  | mdrn (a : BitVec 7) (c : BitVec 7) (tile : BitVec 2) (m : BitVec 4)
  /-- `MSTAT` (R386). Read, and optionally clear, a tile's status and counters. -/
  | mstat (d : BitVec 7) (tile : BitVec 2) (clr : BitVec 1)
  /-- `CVTB` (R387). Encode 32 FP32 values as one MX block in A. -/
  | cvtb (d : BitVec 7) (a : BitVec 7) (c : BitVec 7) (fa : BitVec 4)
  /-- `DCOR.D` (R388). Sign a defect-correction round that computes a compensated FP64 residual. -/
  | dcorD (d : BitVec 7) (a : BitVec 7) (b : BitVec 7) (h : BitVec 4)
  /-- `MFSR` (R294). Read a control register. -/
  | mfsr (d : BitVec 7) (c : BitVec 12)
  /-- `MTSR` (R294). Write a control register. -/
  | mtsr (a : BitVec 7) (c : BitVec 12)
  /-- `TRAP` (R295). Trap with code TRAP to the handler at TRAPVEC. -/
  | trap (n : BitVec 16)
  /-- `SYSC` (R295). Trap with code TRAP to the handler at TRAPVEC + 64. -/
  | sysc (n : BitVec 16)
  /-- `ILLEGAL` (R259). Opcode 0xFF traps ILLEGAL precisely. -/
  | illegal (x : BitVec 24)
  /-- `UNASSIGNED_OPCODE` (R259). An opcode marked as unassigned in the opcode map traps ILLEGAL precisely, as a one-word instruction that uses no literal word. -/
  | unassignedOpcode (w : Word)
  /-- `HARDWARE_END` (R184). The hardware ends an open interval of an agent by itself, for example when its tracking capacity is reached, with the effect of a pod-scope FENCE at that point. -/
  | hardwareEnd (ag : Agent)
  /-- `SOURCE_ENTRY_REQUEST` (R344). A subscription bind, removal or flush request reaches the source core. There it adds the subscriber to a source entry at point S, removes it at point X, or forces out the pending batches. -/
  | sourceEntryRequest (core idx : Nat)
  /-- `PLDM_DISCOVERY` (R83). The Nerard controller answers a PLDM Type 0 discovery request. -/
  | pldmDiscovery
  /-- `SCHEDULER_CYCLE` (R89). In each queue-scheduler cycle the candidates are ordered by effective priority and placed, or request pre-emption and are counted as passed. -/
  | schedulerCycle
  /-- `RET` (R284). Pop the return stack and branch to the popped address. -/
  | ret
  /-- `JOIN` (R285). End the path's turn so that lagging paths can merge. -/
  | join
  /-- `TAIL` (R290). End each active thread; its writes drain under the retirement tracker. -/
  | tail
  /-- `YIELD` (R291). End the path's turn and rank least ready. -/
  | yield
  /-- `NOP` (R291). No operation. -/
  | nop
  /-- `QDRN` (R354). End the group's queue bindings and their program. -/
  | qdrn
  /-- `ERET` (R296). Return from the trap handler to EPC. -/
  | eret
  /-- `CLAUSE_HEADER` (R244). A path reaches a clause header. The header is fetched and decoded, and then one of these follows: its wait bits park the group, a malformed header traps ILLEGAL, or a guard that leaves no thread active skips the clause. -/
  | clauseHeader
deriving DecidableEq, Repr

end Sys2Proof
end

