-- ==== Sys2Proof/Decode.lean ====
section
/-! DEFINITION. Decoding and encoding of instruction words (R246 to R250, R257, R258). Everything here is structural
and total: a word that the formats refuse is refused by name. -/

namespace Sys2Proof

/-- Why a word is no instruction. -/
inductive DecErr where
  /-- the byte list ends inside the instruction -/
  | truncated
  /-- a reserved or unused field is not 0, or a form field holds an unassigned value (R250) -/
  | reservedField (w : Word)
deriving DecidableEq, Repr

/-- The field of `n` bits whose lowest bit is `lo`. -/
def fld (w : Word) (lo n : Nat) : BitVec n := BitVec.ofNat n (w.toNat / 2 ^ lo)

/-- The field of `n` bits at `lo` holds `v`. -/
def fieldIs (w : Word) (lo n v : Nat) : Bool := w.toNat / 2 ^ lo % 2 ^ n == v

/-- The opcode byte, bits [31:24] (R249). -/
def opOf (w : Word) : Nat := w.toNat / 2 ^ 24

/-- The opcodes of the two-word formats Q, X, E2 and L (R249, R258). -/
def twoWordOps : List Nat := [4, 23, 24, 35, 51, 83, 90, 118, 212, 218, 220, 232, 233, 234, 235, 236, 237, 238, 239, 240, 241]

/-- How many words an instruction takes; the opcode alone decides it (R249). -/
def lengthOf (w : Word) : Nat := if twoWordOps.contains (opOf w) then 2 else 1

/-- Row 0x00 of the opcode map (R257). -/
def decodeRow0 (w u : Word) : Nat → Except DecErr Instr
  | 0 => .ok (.iadd (fld w 17 7) (fld w 10 7) (fld w 3 7) (fld w 0 3))
  | 1 => .ok (.isub (fld w 17 7) (fld w 10 7) (fld w 3 7) (fld w 0 3))
  | 2 => if fieldIs w 0 3 0 then .ok (.imul (fld w 17 7) (fld w 10 7) (fld w 3 7)) else .error (.reservedField w)
  | 3 => .ok (.imulh (fld w 17 7) (fld w 10 7) (fld w 3 7) (fld w 0 3))
  | 4 => if fieldIs w 0 3 0 && fieldIs u 0 25 0 then .ok (.imad (fld w 17 7) (fld w 10 7) (fld w 3 7) (fld u 25 7)) else .error (.reservedField w)
  | 5 => .ok (.idiv (fld w 17 7) (fld w 10 7) (fld w 3 7) (fld w 0 3))
  | 6 => .ok (.irem (fld w 17 7) (fld w 10 7) (fld w 3 7) (fld w 0 3))
  | 7 => .ok (.imin (fld w 17 7) (fld w 10 7) (fld w 3 7) (fld w 0 3))
  | 8 => .ok (.imax (fld w 17 7) (fld w 10 7) (fld w 3 7) (fld w 0 3))
  | 9 => if fieldIs w 3 7 0 then .ok (.iabs (fld w 17 7) (fld w 10 7) (fld w 0 3)) else .error (.reservedField w)
  | 10 => if fieldIs w 3 7 0 then .ok (.ineg (fld w 17 7) (fld w 10 7) (fld w 0 3)) else .error (.reservedField w)
  | 11 => if fieldIs w 0 3 0 then .ok (.and (fld w 17 7) (fld w 10 7) (fld w 3 7)) else .error (.reservedField w)
  | 12 => if fieldIs w 0 3 0 then .ok (.or (fld w 17 7) (fld w 10 7) (fld w 3 7)) else .error (.reservedField w)
  | 13 => if fieldIs w 0 3 0 then .ok (.xor (fld w 17 7) (fld w 10 7) (fld w 3 7)) else .error (.reservedField w)
  | 14 => if fieldIs w 0 3 0 then .ok (.andn (fld w 17 7) (fld w 10 7) (fld w 3 7)) else .error (.reservedField w)
  | 15 => if fieldIs w 0 10 0 then .ok (.not (fld w 17 7) (fld w 10 7)) else .error (.reservedField w)
  | _ => .ok (.unassignedOpcode w)

/-- Row 0x10 of the opcode map (R257). -/
def decodeRow1 (w u : Word) : Nat → Except DecErr Instr
  | 0 => if fieldIs w 0 3 0 then .ok (.shl (fld w 17 7) (fld w 10 7) (fld w 3 7)) else .error (.reservedField w)
  | 1 => if fieldIs w 0 3 0 then .ok (.shr (fld w 17 7) (fld w 10 7) (fld w 3 7)) else .error (.reservedField w)
  | 2 => if fieldIs w 0 3 0 then .ok (.sar (fld w 17 7) (fld w 10 7) (fld w 3 7)) else .error (.reservedField w)
  | 3 => if fieldIs w 0 3 0 then .ok (.rotl (fld w 17 7) (fld w 10 7) (fld w 3 7)) else .error (.reservedField w)
  | 4 => if fieldIs w 0 10 0 then .ok (.popc (fld w 17 7) (fld w 10 7)) else .error (.reservedField w)
  | 5 => if fieldIs w 0 10 0 then .ok (.clz (fld w 17 7) (fld w 10 7)) else .error (.reservedField w)
  | 6 => if fieldIs w 0 10 0 then .ok (.brev (fld w 17 7) (fld w 10 7)) else .error (.reservedField w)
  | 7 => if fieldIs u 0 25 0 then .ok (.bfx (fld w 17 7) (fld w 10 7) (fld w 3 7) (fld w 0 3) (fld u 25 7)) else .error (.reservedField w)
  | 8 => if fieldIs w 0 3 0 && fieldIs u 0 25 0 then .ok (.bfi (fld w 17 7) (fld w 10 7) (fld w 3 7) (fld u 25 7)) else .error (.reservedField w)
  | 9 => .ok (.sel (fld w 17 7) (fld w 10 7) (fld w 3 7) (fld w 0 3))
  | 10 => if fieldIs w 0 10 0 then .ok (.mov (fld w 17 7) (fld w 10 7)) else .error (.reservedField w)
  | 11 => .ok (.movi (fld w 17 7) (fld w 0 17))
  | 12 => if fieldIs w 16 1 0 then .ok (.movh (fld w 17 7) (fld w 0 16)) else .error (.reservedField w)
  | 13 => .ok (.lea (fld w 17 7) (fld w 10 7) (fld w 3 7) (fld w 0 3))
  | 14 => .ok (.icmp (fld w 17 7) (fld w 10 7) (fld w 3 7) (fld w 0 3))
  | _ => .ok (.unassignedOpcode w)

/-- Row 0x20 of the opcode map (R257). -/
def decodeRow2 (w u : Word) : Nat → Except DecErr Instr
  | 0 => if fieldIs w 0 3 0 then .ok (.iaddD (fld w 17 7) (fld w 10 7) (fld w 3 7)) else .error (.reservedField w)
  | 1 => if fieldIs w 0 3 0 then .ok (.isubD (fld w 17 7) (fld w 10 7) (fld w 3 7)) else .error (.reservedField w)
  | 2 => if fieldIs w 0 3 0 then .ok (.imulD (fld w 17 7) (fld w 10 7) (fld w 3 7)) else .error (.reservedField w)
  | 3 => if fieldIs w 0 3 0 && fieldIs u 0 25 0 then .ok (.imadD (fld w 17 7) (fld w 10 7) (fld w 3 7) (fld u 25 7)) else .error (.reservedField w)
  | 4 => .ok (.iminD (fld w 17 7) (fld w 10 7) (fld w 3 7) (fld w 0 3))
  | 5 => .ok (.imaxD (fld w 17 7) (fld w 10 7) (fld w 3 7) (fld w 0 3))
  | 6 => if fieldIs w 0 3 0 then .ok (.andD (fld w 17 7) (fld w 10 7) (fld w 3 7)) else .error (.reservedField w)
  | 7 => if fieldIs w 0 3 0 then .ok (.orD (fld w 17 7) (fld w 10 7) (fld w 3 7)) else .error (.reservedField w)
  | 8 => if fieldIs w 0 3 0 then .ok (.xorD (fld w 17 7) (fld w 10 7) (fld w 3 7)) else .error (.reservedField w)
  | 9 => if fieldIs w 0 3 0 then .ok (.shlD (fld w 17 7) (fld w 10 7) (fld w 3 7)) else .error (.reservedField w)
  | 10 => if fieldIs w 0 3 0 then .ok (.shrD (fld w 17 7) (fld w 10 7) (fld w 3 7)) else .error (.reservedField w)
  | 11 => if fieldIs w 0 3 0 then .ok (.sarD (fld w 17 7) (fld w 10 7) (fld w 3 7)) else .error (.reservedField w)
  | 12 => if fieldIs w 0 10 0 then .ok (.movD (fld w 17 7) (fld w 10 7)) else .error (.reservedField w)
  | 13 => .ok (.selD (fld w 17 7) (fld w 10 7) (fld w 3 7) (fld w 0 3))
  | 14 => .ok (.icmpD (fld w 17 7) (fld w 10 7) (fld w 3 7) (fld w 0 3))
  | _ => .ok (.unassignedOpcode w)

/-- Row 0x30 of the opcode map (R257). -/
def decodeRow3 (w u : Word) : Nat → Except DecErr Instr
  | 0 => .ok (.fadd (fld w 17 7) (fld w 10 7) (fld w 3 7) (fld w 0 3))
  | 1 => .ok (.fsub (fld w 17 7) (fld w 10 7) (fld w 3 7) (fld w 0 3))
  | 2 => .ok (.fmul (fld w 17 7) (fld w 10 7) (fld w 3 7) (fld w 0 3))
  | 3 => if fieldIs u 0 25 0 then .ok (.ffma (fld w 17 7) (fld w 10 7) (fld w 3 7) (fld w 0 3) (fld u 25 7)) else .error (.reservedField w)
  | 4 => if fieldIs w 0 3 0 then .ok (.fmin (fld w 17 7) (fld w 10 7) (fld w 3 7)) else .error (.reservedField w)
  | 5 => if fieldIs w 0 3 0 then .ok (.fmax (fld w 17 7) (fld w 10 7) (fld w 3 7)) else .error (.reservedField w)
  | 6 => if fieldIs w 0 10 0 then .ok (.fabs (fld w 17 7) (fld w 10 7)) else .error (.reservedField w)
  | 7 => if fieldIs w 0 10 0 then .ok (.fneg (fld w 17 7) (fld w 10 7)) else .error (.reservedField w)
  | 8 => .ok (.fcmp (fld w 17 7) (fld w 10 7) (fld w 3 7) (fld w 0 3))
  | 9 => if fieldIs w 0 10 0 then .ok (.fclass (fld w 17 7) (fld w 10 7)) else .error (.reservedField w)
  | 10 => .ok (.fscale (fld w 17 7) (fld w 10 7) (fld w 3 7) (fld w 0 3))
  | 11 => .ok (.fcvt (fld w 17 7) (fld w 10 7) (fld w 3 7) (fld w 0 3))
  | 12 => if fieldIs w 3 7 0 then .ok (.frnd (fld w 17 7) (fld w 10 7) (fld w 0 3)) else .error (.reservedField w)
  | _ => .ok (.unassignedOpcode w)

/-- Row 0x40 of the opcode map (R257). -/
def decodeRow4 (w u : Word) : Nat → Except DecErr Instr
  | 0 => if fieldIs w 3 7 0 then .ok (.frcp (fld w 17 7) (fld w 10 7) (fld w 0 3)) else .error (.reservedField w)
  | 1 => if fieldIs w 0 10 0 then .ok (.frsq (fld w 17 7) (fld w 10 7)) else .error (.reservedField w)
  | 2 => if fieldIs w 3 7 0 then .ok (.fsqrt (fld w 17 7) (fld w 10 7) (fld w 0 3)) else .error (.reservedField w)
  | 3 => if fieldIs w 0 10 0 then .ok (.fexp2 (fld w 17 7) (fld w 10 7)) else .error (.reservedField w)
  | 4 => if fieldIs w 0 10 0 then .ok (.flog2 (fld w 17 7) (fld w 10 7)) else .error (.reservedField w)
  | 5 => if fieldIs w 0 10 0 then .ok (.fsin (fld w 17 7) (fld w 10 7)) else .error (.reservedField w)
  | 6 => if fieldIs w 0 10 0 then .ok (.fcos (fld w 17 7) (fld w 10 7)) else .error (.reservedField w)
  | _ => .ok (.unassignedOpcode w)

/-- Row 0x50 of the opcode map (R257). -/
def decodeRow5 (w u : Word) : Nat → Except DecErr Instr
  | 0 => .ok (.dadd (fld w 17 7) (fld w 10 7) (fld w 3 7) (fld w 0 3))
  | 1 => .ok (.dsub (fld w 17 7) (fld w 10 7) (fld w 3 7) (fld w 0 3))
  | 2 => .ok (.dmul (fld w 17 7) (fld w 10 7) (fld w 3 7) (fld w 0 3))
  | 3 => if fieldIs u 0 25 0 then .ok (.dfma (fld w 17 7) (fld w 10 7) (fld w 3 7) (fld w 0 3) (fld u 25 7)) else .error (.reservedField w)
  | 4 => .ok (.ddiv (fld w 17 7) (fld w 10 7) (fld w 3 7) (fld w 0 3))
  | 5 => if fieldIs w 3 7 0 then .ok (.dsqrt (fld w 17 7) (fld w 10 7) (fld w 0 3)) else .error (.reservedField w)
  | 6 => .ok (.dcmp (fld w 17 7) (fld w 10 7) (fld w 3 7) (fld w 0 3))
  | 7 => .ok (.dcvt (fld w 17 7) (fld w 10 7) (fld w 3 7) (fld w 0 3))
  | 8 => .ok (.hadd2 (fld w 17 7) (fld w 10 7) (fld w 3 7) (fld w 0 3))
  | 9 => .ok (.hmul2 (fld w 17 7) (fld w 10 7) (fld w 3 7) (fld w 0 3))
  | 10 => if fieldIs u 0 25 0 then .ok (.hfma2 (fld w 17 7) (fld w 10 7) (fld w 3 7) (fld w 0 3) (fld u 25 7)) else .error (.reservedField w)
  | _ => .ok (.unassignedOpcode w)

/-- Row 0x60 of the opcode map (R257). -/
def decodeRow6 (w u : Word) : Nat → Except DecErr Instr
  | 0 => if fieldIs w 2 1 0 then .ok (.pand (fld w 17 7) (fld w 10 7) (fld w 3 7) (fld w 0 2)) else .error (.reservedField w)
  | 1 => if fieldIs w 2 1 0 then .ok (.por (fld w 17 7) (fld w 10 7) (fld w 3 7) (fld w 0 2)) else .error (.reservedField w)
  | 2 => if fieldIs w 2 1 0 then .ok (.pxor (fld w 17 7) (fld w 10 7) (fld w 3 7) (fld w 0 2)) else .error (.reservedField w)
  | 3 => if fieldIs w 0 10 0 then .ok (.pnot (fld w 17 7) (fld w 10 7)) else .error (.reservedField w)
  | 4 => if fieldIs w 0 10 0 then .ok (.pmov (fld w 17 7) (fld w 10 7)) else .error (.reservedField w)
  | 5 => if fieldIs w 0 10 0 then .ok (.pset (fld w 17 7) (fld w 10 7)) else .error (.reservedField w)
  | 8 => .ok (.xchg (fld w 17 7) (fld w 10 7) (fld w 3 7) (fld w 0 3))
  | 9 => if fieldIs w 0 3 0 then .ok (.xbcast (fld w 17 7) (fld w 10 7) (fld w 3 7)) else .error (.reservedField w)
  | 10 => .ok (.xscan (fld w 17 7) (fld w 10 7) (fld w 3 7) (fld w 0 3))
  | 11 => if fieldIs w 3 7 0 then .ok (.xred (fld w 17 7) (fld w 10 7) (fld w 0 3)) else .error (.reservedField w)
  | 12 => if fieldIs w 3 7 0 then .ok (.vote (fld w 17 7) (fld w 10 7) (fld w 0 3)) else .error (.reservedField w)
  | _ => .ok (.unassignedOpcode w)

/-- Row 0x70 of the opcode map (R257). -/
def decodeRow7 (w u : Word) : Nat → Except DecErr Instr
  | 0 => .ok (.bra (fld w 0 24))
  | 1 => if fieldIs w 0 10 0 && fieldIs w 17 7 0 then .ok (.brx (fld w 10 7)) else .error (.reservedField w)
  | 2 => .ok (.call (fld w 0 24))
  | 3 => if fieldIs w 0 10 0 && fieldIs w 17 7 0 then .ok (.callx (fld w 10 7)) else .error (.reservedField w)
  | 4 => if fieldIs w 0 24 0 then .ok (.ret) else .error (.reservedField w)
  | 5 => if fieldIs w 0 24 0 then .ok (.join) else .error (.reservedField w)
  | 6 => if fieldIs w 0 12 0 then .ok (.loop (fld w 17 7) (fld w 12 5) (fld u 28 4) (fld u 24 4) (fld u 20 4) (fld u 16 4) (fld u 14 2) (fld u 0 14)) else .error (.reservedField w)
  | 8 => if fieldIs w 0 3 0 then .ok (.spawn (fld w 17 7) (fld w 10 7) (fld w 3 7)) else .error (.reservedField w)
  | 9 => if fieldIs w 0 10 0 && fieldIs w 17 7 0 then .ok (.launch (fld w 10 7)) else .error (.reservedField w)
  | 10 => if fieldIs w 0 24 0 then .ok (.tail) else .error (.reservedField w)
  | 11 => if fieldIs w 0 24 0 then .ok (.yield) else .error (.reservedField w)
  | 12 => if fieldIs w 0 24 0 then .ok (.nop) else .error (.reservedField w)
  | 13 => if fieldIs w 0 10 0 && fieldIs w 17 7 0 then .ok (.rgn (fld w 10 7)) else .error (.reservedField w)
  | 14 => if fieldIs w 16 1 0 then .ok (.dead (fld w 17 7) (fld w 0 16)) else .error (.reservedField w)
  | _ => .ok (.unassignedOpcode w)

/-- Row 0x90 of the opcode map (R257). -/
def decodeRow9 (w u : Word) : Nat → Except DecErr Instr
  | 0 => .ok (.ld (fld w 17 7) (fld w 10 7) (fld w 6 4) (fld w 3 3) (fld w 0 3))
  | 1 => .ok (.lda (fld w 17 7) (fld w 10 7) (fld w 6 4) (fld w 3 3) (fld w 0 3))
  | 2 => .ok (.ldw (fld w 17 7) (fld w 10 7) (fld w 6 4) (fld w 3 3) (fld w 0 3))
  | 4 => .ok (.st (fld w 17 7) (fld w 10 7) (fld w 6 4) (fld w 3 3) (fld w 0 3))
  | 5 => .ok (.sta (fld w 17 7) (fld w 10 7) (fld w 6 4) (fld w 3 3) (fld w 0 3))
  | 6 => .ok (.stw (fld w 17 7) (fld w 10 7) (fld w 6 4) (fld w 3 3) (fld w 0 3))
  | 8 => .ok (.stP (fld w 17 7) (fld w 10 7) (fld w 6 4) (fld w 3 3) (fld w 0 3))
  | 9 => .ok (.staP (fld w 17 7) (fld w 10 7) (fld w 6 4) (fld w 3 3) (fld w 0 3))
  | 10 => .ok (.stwP (fld w 17 7) (fld w 10 7) (fld w 6 4) (fld w 3 3) (fld w 0 3))
  | 12 => .ok (.atom (fld w 17 7) (fld w 10 7) (fld w 6 4) (fld w 3 3) (fld w 0 3))
  | 13 => .ok (.atoma (fld w 17 7) (fld w 10 7) (fld w 6 4) (fld w 3 3) (fld w 0 3))
  | 14 => .ok (.red (fld w 17 7) (fld w 10 7) (fld w 6 4) (fld w 3 3) (fld w 0 3))
  | _ => .ok (.unassignedOpcode w)

/-- Row 0xA0 of the opcode map (R257). -/
def decodeRowA (w u : Word) : Nat → Except DecErr Instr
  | 0 => if fieldIs w 6 18 0 then .ok (.fence (fld w 3 3) (fld w 0 3)) else .error (.reservedField w)
  | 1 => if fieldIs w 6 4 0 then .ok (.fencex (fld w 17 7) (fld w 10 7) (fld w 3 3) (fld w 0 3)) else .error (.reservedField w)
  | 2 => if fieldIs w 0 6 0 && fieldIs w 17 7 0 then .ok (.watch (fld w 10 7) (fld w 6 4)) else .error (.reservedField w)
  | 3 => if fieldIs w 0 10 0 then .ok (.wait (fld w 17 7) (fld w 10 7)) else .error (.reservedField w)
  | 4 => if fieldIs w 0 10 256 then .ok (.waita (fld w 17 7) (fld w 10 7)) else .error (.reservedField w)
  | 5 => if fieldIs w 0 10 0 && fieldIs w 17 7 0 then .ok (.prf (fld w 10 7)) else .error (.reservedField w)
  | _ => .ok (.unassignedOpcode w)

/-- Row 0xB0 of the opcode map (R257). -/
def decodeRowB (w u : Word) : Nat → Except DecErr Instr
  | 0 => .ok (.ldOff (fld w 17 7) (fld w 10 7) (fld w 6 4) (fld w 3 3) (fld w 0 3))
  | 1 => .ok (.ldaOff (fld w 17 7) (fld w 10 7) (fld w 6 4) (fld w 3 3) (fld w 0 3))
  | 2 => .ok (.ldwOff (fld w 17 7) (fld w 10 7) (fld w 6 4) (fld w 3 3) (fld w 0 3))
  | 4 => .ok (.stOff (fld w 17 7) (fld w 10 7) (fld w 6 4) (fld w 3 3) (fld w 0 3))
  | 5 => .ok (.staOff (fld w 17 7) (fld w 10 7) (fld w 6 4) (fld w 3 3) (fld w 0 3))
  | 6 => .ok (.stwOff (fld w 17 7) (fld w 10 7) (fld w 6 4) (fld w 3 3) (fld w 0 3))
  | 8 => .ok (.stPOff (fld w 17 7) (fld w 10 7) (fld w 6 4) (fld w 3 3) (fld w 0 3))
  | 9 => .ok (.staPOff (fld w 17 7) (fld w 10 7) (fld w 6 4) (fld w 3 3) (fld w 0 3))
  | 10 => .ok (.stwPOff (fld w 17 7) (fld w 10 7) (fld w 6 4) (fld w 3 3) (fld w 0 3))
  | 12 => .ok (.atomOff (fld w 17 7) (fld w 10 7) (fld w 6 4) (fld w 3 3) (fld w 0 3))
  | 13 => .ok (.atomaOff (fld w 17 7) (fld w 10 7) (fld w 6 4) (fld w 3 3) (fld w 0 3))
  | 14 => .ok (.redOff (fld w 17 7) (fld w 10 7) (fld w 6 4) (fld w 3 3) (fld w 0 3))
  | _ => .ok (.unassignedOpcode w)

/-- Row 0xC0 of the opcode map (R257). -/
def decodeRowC (w u : Word) : Nat → Except DecErr Instr
  | 0 => if fieldIs w 0 6 0 && fieldIs w 17 7 0 then .ok (.harm (fld w 10 7) (fld w 6 4)) else .error (.reservedField w)
  | 1 => if fieldIs w 0 6 0 && fieldIs w 10 14 0 then .ok (.hsign (fld w 6 4)) else .error (.reservedField w)
  | 2 => if fieldIs w 0 6 0 && fieldIs w 10 7 0 then .ok (.hpoll (fld w 17 7) (fld w 6 4)) else .error (.reservedField w)
  | 4 => if fieldIs w 3 2 0 && fieldIs w 6 18 0 then .ok (.bar (fld w 5 1) (fld w 0 3)) else .error (.reservedField w)
  | 5 => if fieldIs w 0 10 0 && fieldIs w 17 7 0 then .ok (.parr (fld w 10 7)) else .error (.reservedField w)
  | 6 => if fieldIs w 0 10 0 then .ok (.pwait (fld w 17 7) (fld w 10 7)) else .error (.reservedField w)
  | _ => .ok (.unassignedOpcode w)

/-- Row 0xD0 of the opcode map (R257). -/
def decodeRowD (w u : Word) : Nat → Except DecErr Instr
  | 0 => .ok (.cpyGa (fld w 17 7) (fld w 10 7) (fld w 3 7) (fld w 0 3))
  | 1 => .ok (.cpyAg (fld w 17 7) (fld w 10 7) (fld w 3 7) (fld w 0 3))
  | 2 => if fieldIs w 3 21 0 then .ok (.cpyw (fld w 0 3)) else .error (.reservedField w)
  | 3 => if fieldIs w 3 14 0 then .ok (.cpyt (fld w 17 7) (fld w 0 3)) else .error (.reservedField w)
  | 4 => if fieldIs w 0 3 0 && fieldIs w 17 7 0 && fieldIs u 0 25 0 then .ok (.bcpy (fld w 10 7) (fld w 3 7) (fld u 25 7)) else .error (.reservedField w)
  | 5 => if fieldIs w 0 10 0 then .ok (.coll (fld w 17 7) (fld w 10 7)) else .error (.reservedField w)
  | 6 => if fieldIs w 0 10 0 then .ok (.subs (fld w 17 7) (fld w 10 7)) else .error (.reservedField w)
  | 7 => if fieldIs w 0 10 0 then .ok (.subsSync (fld w 17 7) (fld w 10 7)) else .error (.reservedField w)
  | 8 => if fieldIs w 0 10 0 then .ok (.subx (fld w 17 7) (fld w 10 7)) else .error (.reservedField w)
  | 9 => if fieldIs w 0 10 0 then .ok (.subf (fld w 17 7) (fld w 10 7)) else if fieldIs w 0 17 1 then .ok (.subfSrc (fld w 17 7)) else .error (.reservedField w)
  | 10 => if fieldIs u 0 25 0 then .ok (.amsg (fld w 17 7) (fld w 10 7) (fld w 3 7) (fld w 0 3) (fld u 25 7)) else .error (.reservedField w)
  | 11 => if fieldIs w 0 10 0 then .ok (.qpush (fld w 17 7) (fld w 10 7)) else .error (.reservedField w)
  | 12 => if fieldIs w 0 3 0 && fieldIs u 0 25 0 then .ok (.pitch (fld w 17 7) (fld w 10 7) (fld w 3 7) (fld u 25 7)) else .error (.reservedField w)
  | 13 => if fieldIs w 0 24 0 then .ok (.qdrn) else .error (.reservedField w)
  | _ => .ok (.unassignedOpcode w)

/-- Row 0xE0 of the opcode map (R257). -/
def decodeRowE (w u : Word) : Nat → Except DecErr Instr
  | 8 => if fieldIs w 0 10 0 && fieldIs w 17 7 0 && fieldIs u 4 15 0 && fieldIs u 21 11 0 then .ok (.mcfg (fld w 10 7) (fld u 19 2) (fld u 0 4)) else .error (.reservedField w)
  | 9 => if fieldIs w 0 24 0 && fieldIs u 0 19 0 && fieldIs u 21 11 0 then .ok (.mzero (fld u 19 2)) else .error (.reservedField w)
  | 10 => if fieldIs w 0 3 0 && fieldIs u 2 7 0 && fieldIs u 10 4 0 && fieldIs u 19 6 0 then .ok (.gath (fld w 17 7) (fld w 10 7) (fld w 3 7) (fld u 25 7) (fld u 18 1) (fld u 14 4) (fld u 9 1) (fld u 0 2)) else .error (.reservedField w)
  | 11 => if fieldIs w 0 3 0 && fieldIs u 2 7 0 then .ok (.mma (fld w 17 7) (fld w 10 7) (fld w 3 7) (fld u 25 7) (fld u 21 4) (fld u 19 2) (fld u 18 1) (fld u 14 4) (fld u 10 4) (fld u 9 1) (fld u 0 2)) else .error (.reservedField w)
  | 12 => if fieldIs w 0 3 0 && fieldIs u 3 6 0 && fieldIs u 0 2 1 then .ok (.mmasS (fld w 17 7) (fld w 10 7) (fld w 3 7) (fld u 25 7) (fld u 21 4) (fld u 19 2) (fld u 18 1) (fld u 14 4) (fld u 10 4) (fld u 9 1) (fld u 2 1)) else if fieldIs w 0 3 0 && fieldIs u 3 6 0 && fieldIs u 18 1 0 && fieldIs u 0 2 2 then .ok (.mmasV (fld w 17 7) (fld w 10 7) (fld w 3 7) (fld u 25 7) (fld u 21 4) (fld u 19 2) (fld u 14 4) (fld u 10 4) (fld u 9 1) (fld u 2 1)) else .error (.reservedField w)
  | 13 => if fieldIs w 0 10 0 && fieldIs w 17 7 0 && fieldIs u 0 19 0 && fieldIs u 21 11 0 then .ok (.mol (fld w 10 7) (fld u 19 2)) else .error (.reservedField w)
  | 14 => if fieldIs w 0 10 0 && fieldIs w 17 7 0 && fieldIs u 4 15 0 && fieldIs u 21 4 0 then .ok (.mdrn (fld w 10 7) (fld u 25 7) (fld u 19 2) (fld u 0 4)) else .error (.reservedField w)
  | 15 => if fieldIs w 0 17 0 && fieldIs u 1 18 0 && fieldIs u 21 11 0 then .ok (.mstat (fld w 17 7) (fld u 19 2) (fld u 0 1)) else .error (.reservedField w)
  | _ => .ok (.unassignedOpcode w)

/-- Row 0xF0 of the opcode map (R257). -/
def decodeRowF (w u : Word) : Nat → Except DecErr Instr
  | 0 => if fieldIs w 0 10 0 && fieldIs u 0 14 0 && fieldIs u 18 7 0 then .ok (.cvtb (fld w 17 7) (fld w 10 7) (fld u 25 7) (fld u 14 4)) else .error (.reservedField w)
  | 1 => if fieldIs w 0 3 0 && fieldIs u 0 21 0 && fieldIs u 25 7 0 then .ok (.dcorD (fld w 17 7) (fld w 10 7) (fld w 3 7) (fld u 21 4)) else .error (.reservedField w)
  | 8 => if fieldIs w 12 5 0 then .ok (.mfsr (fld w 17 7) (fld w 0 12)) else .error (.reservedField w)
  | 9 => if fieldIs w 12 5 0 then .ok (.mtsr (fld w 17 7) (fld w 0 12)) else .error (.reservedField w)
  | 10 => if fieldIs w 16 8 0 then .ok (.trap (fld w 0 16)) else .error (.reservedField w)
  | 11 => if fieldIs w 0 24 0 then .ok (.eret) else .error (.reservedField w)
  | 12 => if fieldIs w 16 8 0 then .ok (.sysc (fld w 0 16)) else .error (.reservedField w)
  | 15 => .ok (.illegal (fld w 0 24))
  | _ => .ok (.unassignedOpcode w)

/-- The instruction that begins with word `w`; `u` is the word after it, read only where the format has two words
(R249, R258). A word whose reserved bits are not 0 is refused by name (R250); an unassigned code is the step
`UNASSIGNED_OPCODE` (R259). -/
def decode (w u : Word) : Except DecErr Instr :=
  match opOf w / 16 with
  | 0 => decodeRow0 w u (opOf w % 16)
  | 1 => decodeRow1 w u (opOf w % 16)
  | 2 => decodeRow2 w u (opOf w % 16)
  | 3 => decodeRow3 w u (opOf w % 16)
  | 4 => decodeRow4 w u (opOf w % 16)
  | 5 => decodeRow5 w u (opOf w % 16)
  | 6 => decodeRow6 w u (opOf w % 16)
  | 7 => decodeRow7 w u (opOf w % 16)
  | 9 => decodeRow9 w u (opOf w % 16)
  | 10 => decodeRowA w u (opOf w % 16)
  | 11 => decodeRowB w u (opOf w % 16)
  | 12 => decodeRowC w u (opOf w % 16)
  | 13 => decodeRowD w u (opOf w % 16)
  | 14 => decodeRowE w u (opOf w % 16)
  | 15 => decodeRowF w u (opOf w % 16)
  | _ => .ok (.unassignedOpcode w)

/-- The little-endian word at the head of a byte list (R4). -/
def wordOfBytes (b0 b1 b2 b3 : Byte) : Word :=
  BitVec.ofNat 32 (b0.toNat + b1.toNat * 2 ^ 8 + b2.toNat * 2 ^ 16 + b3.toNat * 2 ^ 24)

/-- Byte `k` of a word, little-endian (R4). -/
def byteOfWord (w : Word) (k : Nat) : Byte := BitVec.ofNat 8 (w.toNat / 2 ^ (8 * k))

/-- The four bytes of a word as memory holds them (R4). -/
def bytesOfWord (w : Word) : List Byte := [byteOfWord w 0, byteOfWord w 1, byteOfWord w 2, byteOfWord w 3]

/-- Decode the instruction at the head of a byte list: the instruction and the bytes after it. -/
def decodeBytes : List Byte → Except DecErr (Instr × List Byte)
  | b0 :: b1 :: b2 :: b3 :: rest =>
    let w := wordOfBytes b0 b1 b2 b3
    if lengthOf w = 2 then
      match rest with
      | c0 :: c1 :: c2 :: c3 :: rest' => (decode w (wordOfBytes c0 c1 c2 c3)).map (·, rest')
      | _ => .error .truncated
    else (decode w 0).map (·, rest)
  | _ => .error .truncated

/-- The instruction of a table row's bits: bit 0 is the least significant bit of the first word; every bit above
`nbits` is 0. -/
def decodeTableWord (nbits w : Nat) : Option Instr :=
  let v := w % 2 ^ nbits
  match decode (BitVec.ofNat 32 v) (BitVec.ofNat 32 (v / 2 ^ 32)) with
  | .ok i => some i
  | .error _ => none

/-- The words of an instruction, from the formats of R249 and R258. An event of the part has no word. -/
def encode : Instr → List Word
  | .powerOn _ => []
  | .pcieFundamentalReset _ => []
  | .managementPowerCycle _ => []
  | .mapRebuild _ _ => []
  | .linkDown _ => []
  | .linkRetrainEnd _ _ => []
  | .bridgeReplay _ => []
  | .thermalThrottle _ _ => []
  | .thermalFence _ => []
  | .thermalReenable _ => []
  | .pwrhRefresh _ _ _ => []
  | .undervoltStep _ => []
  | .monitorWindowExpiry _ _ => []
  | .undervoltOverride _ _ _ => []
  | .scanStart _ => []
  | .scanPatternEnd _ _ => []
  | .scanAbort _ => []
  | .pldmSensorRead _ _ => []
  | .pldmPowerLimit _ => []
  | .undervoltLockClear _ => []
  | .pldmUpdate _ => []
  | .pldmFileRead _ => []
  | .getMeasurements _ => []
  | .challenge _ => []
  | .doorbell _ _ _ => []
  | .queueTail _ _ _ => []
  | .queueEnable _ _ _ => []
  | .bind _ => []
  | .unbind _ => []
  | .drain _ _ => []
  | .unfreeze _ => []
  | .kill _ => []
  | .skip _ => []
  | .registerWrite _ _ => []
  | .hostAccess _ => []
  | .inval _ _ => []
  | .invalall _ _ => []
  | .resize _ _ => []
  | .resizeend _ _ => []
  | .migrate _ _ => []
  | .faultRecordMapped _ _ _ => []
  | .faultRecordRefused _ _ _ => []
  | .sliceRequest _ => []
  | .tableWalk _ _ _ => []
  | .granuleReopen _ _ _ => []
  | .sideLogReplay _ => []
  | .recordStage _ _ => []
  | .discard _ => []
  | .restart _ => []
  | .blockClaim _ _ _ => []
  | .watchdogExpiry _ _ => []
  | .binTimerExpiry _ _ => []
  | .binLaunch _ _ => []
  | .activeMessageArrival _ => []
  | .groupRetire _ _ => []
  | .resultLanding _ _ => []
  | .headerWait _ => []
  | .loadReplay _ => []
  | .starvationSwitch _ _ => []
  | .turnLimit _ => []
  | .cloneReplay _ _ _ => []
  | .matrixCheck _ _ _ _ => []
  | .copyTransferCompletion _ _ => []
  | .completionWordWrite _ _ => []
  | .batchWindowExpiry _ _ _ => []
  | .updateArrival _ _ => []
  | .contributionArrival _ _ _ => []
  | .collectiveBoundExpiry _ _ => []
  | .collectiveDelivery _ _ => []
  | .waitWake _ _ => []
  | .waitTimeout _ _ => []
  | .waitaWake _ _ => []
  | .pwaitReread _ _ => []
  | .huddleRoundComplete _ _ => []
  | .dcorRound _ _ => []
  | .barComplete _ _ => []
  | .pitcherStart _ => []
  | .pitcherEnd _ => []
  | .iadd d a b m => [.ofNat 32 (0 + d.toNat * 131072 + a.toNat * 1024 + b.toNat * 8 + m.toNat)]
  | .isub d a b m => [.ofNat 32 (16777216 + d.toNat * 131072 + a.toNat * 1024 + b.toNat * 8 + m.toNat)]
  | .imul d a b => [.ofNat 32 (33554432 + d.toNat * 131072 + a.toNat * 1024 + b.toNat * 8)]
  | .imulh d a b m => [.ofNat 32 (50331648 + d.toNat * 131072 + a.toNat * 1024 + b.toNat * 8 + m.toNat)]
  | .imad d a b c => [.ofNat 32 (67108864 + d.toNat * 131072 + a.toNat * 1024 + b.toNat * 8), .ofNat 32 (c.toNat * 33554432)]
  | .idiv d a b m => [.ofNat 32 (83886080 + d.toNat * 131072 + a.toNat * 1024 + b.toNat * 8 + m.toNat)]
  | .irem d a b m => [.ofNat 32 (100663296 + d.toNat * 131072 + a.toNat * 1024 + b.toNat * 8 + m.toNat)]
  | .imin d a b m => [.ofNat 32 (117440512 + d.toNat * 131072 + a.toNat * 1024 + b.toNat * 8 + m.toNat)]
  | .imax d a b m => [.ofNat 32 (134217728 + d.toNat * 131072 + a.toNat * 1024 + b.toNat * 8 + m.toNat)]
  | .iabs d a m => [.ofNat 32 (150994944 + d.toNat * 131072 + a.toNat * 1024 + m.toNat)]
  | .ineg d a m => [.ofNat 32 (167772160 + d.toNat * 131072 + a.toNat * 1024 + m.toNat)]
  | .and d a b => [.ofNat 32 (184549376 + d.toNat * 131072 + a.toNat * 1024 + b.toNat * 8)]
  | .or d a b => [.ofNat 32 (201326592 + d.toNat * 131072 + a.toNat * 1024 + b.toNat * 8)]
  | .xor d a b => [.ofNat 32 (218103808 + d.toNat * 131072 + a.toNat * 1024 + b.toNat * 8)]
  | .andn d a b => [.ofNat 32 (234881024 + d.toNat * 131072 + a.toNat * 1024 + b.toNat * 8)]
  | .not d a => [.ofNat 32 (251658240 + d.toNat * 131072 + a.toNat * 1024)]
  | .shl d a b => [.ofNat 32 (268435456 + d.toNat * 131072 + a.toNat * 1024 + b.toNat * 8)]
  | .shr d a b => [.ofNat 32 (285212672 + d.toNat * 131072 + a.toNat * 1024 + b.toNat * 8)]
  | .sar d a b => [.ofNat 32 (301989888 + d.toNat * 131072 + a.toNat * 1024 + b.toNat * 8)]
  | .rotl d a b => [.ofNat 32 (318767104 + d.toNat * 131072 + a.toNat * 1024 + b.toNat * 8)]
  | .popc d a => [.ofNat 32 (335544320 + d.toNat * 131072 + a.toNat * 1024)]
  | .clz d a => [.ofNat 32 (352321536 + d.toNat * 131072 + a.toNat * 1024)]
  | .brev d a => [.ofNat 32 (369098752 + d.toNat * 131072 + a.toNat * 1024)]
  | .bfx d a b m c => [.ofNat 32 (385875968 + d.toNat * 131072 + a.toNat * 1024 + b.toNat * 8 + m.toNat), .ofNat 32 (c.toNat * 33554432)]
  | .bfi d a b c => [.ofNat 32 (402653184 + d.toNat * 131072 + a.toNat * 1024 + b.toNat * 8), .ofNat 32 (c.toNat * 33554432)]
  | .sel d a b p => [.ofNat 32 (419430400 + d.toNat * 131072 + a.toNat * 1024 + b.toNat * 8 + p.toNat)]
  | .mov d a => [.ofNat 32 (436207616 + d.toNat * 131072 + a.toNat * 1024)]
  | .movi d i => [.ofNat 32 (452984832 + d.toNat * 131072 + i.toNat)]
  | .movh d i => [.ofNat 32 (469762048 + d.toNat * 131072 + i.toNat)]
  | .lea d a b s => [.ofNat 32 (486539264 + d.toNat * 131072 + a.toNat * 1024 + b.toNat * 8 + s.toNat)]
  | .icmp p a b c => [.ofNat 32 (503316480 + p.toNat * 131072 + a.toNat * 1024 + b.toNat * 8 + c.toNat)]
  | .iaddD d a b => [.ofNat 32 (536870912 + d.toNat * 131072 + a.toNat * 1024 + b.toNat * 8)]
  | .isubD d a b => [.ofNat 32 (553648128 + d.toNat * 131072 + a.toNat * 1024 + b.toNat * 8)]
  | .imulD d a b => [.ofNat 32 (570425344 + d.toNat * 131072 + a.toNat * 1024 + b.toNat * 8)]
  | .imadD d a b c => [.ofNat 32 (587202560 + d.toNat * 131072 + a.toNat * 1024 + b.toNat * 8), .ofNat 32 (c.toNat * 33554432)]
  | .iminD d a b m => [.ofNat 32 (603979776 + d.toNat * 131072 + a.toNat * 1024 + b.toNat * 8 + m.toNat)]
  | .imaxD d a b m => [.ofNat 32 (620756992 + d.toNat * 131072 + a.toNat * 1024 + b.toNat * 8 + m.toNat)]
  | .andD d a b => [.ofNat 32 (637534208 + d.toNat * 131072 + a.toNat * 1024 + b.toNat * 8)]
  | .orD d a b => [.ofNat 32 (654311424 + d.toNat * 131072 + a.toNat * 1024 + b.toNat * 8)]
  | .xorD d a b => [.ofNat 32 (671088640 + d.toNat * 131072 + a.toNat * 1024 + b.toNat * 8)]
  | .shlD d a b => [.ofNat 32 (687865856 + d.toNat * 131072 + a.toNat * 1024 + b.toNat * 8)]
  | .shrD d a b => [.ofNat 32 (704643072 + d.toNat * 131072 + a.toNat * 1024 + b.toNat * 8)]
  | .sarD d a b => [.ofNat 32 (721420288 + d.toNat * 131072 + a.toNat * 1024 + b.toNat * 8)]
  | .movD d a => [.ofNat 32 (738197504 + d.toNat * 131072 + a.toNat * 1024)]
  | .selD d a b p => [.ofNat 32 (754974720 + d.toNat * 131072 + a.toNat * 1024 + b.toNat * 8 + p.toNat)]
  | .icmpD p a b c => [.ofNat 32 (771751936 + p.toNat * 131072 + a.toNat * 1024 + b.toNat * 8 + c.toNat)]
  | .fadd d a b m => [.ofNat 32 (805306368 + d.toNat * 131072 + a.toNat * 1024 + b.toNat * 8 + m.toNat)]
  | .fsub d a b m => [.ofNat 32 (822083584 + d.toNat * 131072 + a.toNat * 1024 + b.toNat * 8 + m.toNat)]
  | .fmul d a b m => [.ofNat 32 (838860800 + d.toNat * 131072 + a.toNat * 1024 + b.toNat * 8 + m.toNat)]
  | .ffma d a b m c => [.ofNat 32 (855638016 + d.toNat * 131072 + a.toNat * 1024 + b.toNat * 8 + m.toNat), .ofNat 32 (c.toNat * 33554432)]
  | .fmin d a b => [.ofNat 32 (872415232 + d.toNat * 131072 + a.toNat * 1024 + b.toNat * 8)]
  | .fmax d a b => [.ofNat 32 (889192448 + d.toNat * 131072 + a.toNat * 1024 + b.toNat * 8)]
  | .fabs d a => [.ofNat 32 (905969664 + d.toNat * 131072 + a.toNat * 1024)]
  | .fneg d a => [.ofNat 32 (922746880 + d.toNat * 131072 + a.toNat * 1024)]
  | .fcmp p a b c => [.ofNat 32 (939524096 + p.toNat * 131072 + a.toNat * 1024 + b.toNat * 8 + c.toNat)]
  | .fclass d a => [.ofNat 32 (956301312 + d.toNat * 131072 + a.toNat * 1024)]
  | .fscale d a b m => [.ofNat 32 (973078528 + d.toNat * 131072 + a.toNat * 1024 + b.toNat * 8 + m.toNat)]
  | .fcvt d a c m => [.ofNat 32 (989855744 + d.toNat * 131072 + a.toNat * 1024 + c.toNat * 8 + m.toNat)]
  | .frnd d a m => [.ofNat 32 (1006632960 + d.toNat * 131072 + a.toNat * 1024 + m.toNat)]
  | .frcp d a m => [.ofNat 32 (1073741824 + d.toNat * 131072 + a.toNat * 1024 + m.toNat)]
  | .frsq d a => [.ofNat 32 (1090519040 + d.toNat * 131072 + a.toNat * 1024)]
  | .fsqrt d a m => [.ofNat 32 (1107296256 + d.toNat * 131072 + a.toNat * 1024 + m.toNat)]
  | .fexp2 d a => [.ofNat 32 (1124073472 + d.toNat * 131072 + a.toNat * 1024)]
  | .flog2 d a => [.ofNat 32 (1140850688 + d.toNat * 131072 + a.toNat * 1024)]
  | .fsin d a => [.ofNat 32 (1157627904 + d.toNat * 131072 + a.toNat * 1024)]
  | .fcos d a => [.ofNat 32 (1174405120 + d.toNat * 131072 + a.toNat * 1024)]
  | .dadd d a b m => [.ofNat 32 (1342177280 + d.toNat * 131072 + a.toNat * 1024 + b.toNat * 8 + m.toNat)]
  | .dsub d a b m => [.ofNat 32 (1358954496 + d.toNat * 131072 + a.toNat * 1024 + b.toNat * 8 + m.toNat)]
  | .dmul d a b m => [.ofNat 32 (1375731712 + d.toNat * 131072 + a.toNat * 1024 + b.toNat * 8 + m.toNat)]
  | .dfma d a b m c => [.ofNat 32 (1392508928 + d.toNat * 131072 + a.toNat * 1024 + b.toNat * 8 + m.toNat), .ofNat 32 (c.toNat * 33554432)]
  | .ddiv d a b m => [.ofNat 32 (1409286144 + d.toNat * 131072 + a.toNat * 1024 + b.toNat * 8 + m.toNat)]
  | .dsqrt d a m => [.ofNat 32 (1426063360 + d.toNat * 131072 + a.toNat * 1024 + m.toNat)]
  | .dcmp p a b c => [.ofNat 32 (1442840576 + p.toNat * 131072 + a.toNat * 1024 + b.toNat * 8 + c.toNat)]
  | .dcvt d a c m => [.ofNat 32 (1459617792 + d.toNat * 131072 + a.toNat * 1024 + c.toNat * 8 + m.toNat)]
  | .hadd2 d a b m => [.ofNat 32 (1476395008 + d.toNat * 131072 + a.toNat * 1024 + b.toNat * 8 + m.toNat)]
  | .hmul2 d a b m => [.ofNat 32 (1493172224 + d.toNat * 131072 + a.toNat * 1024 + b.toNat * 8 + m.toNat)]
  | .hfma2 d a b m c => [.ofNat 32 (1509949440 + d.toNat * 131072 + a.toNat * 1024 + b.toNat * 8 + m.toNat), .ofNat 32 (c.toNat * 33554432)]
  | .pand d a b n => [.ofNat 32 (1610612736 + d.toNat * 131072 + a.toNat * 1024 + b.toNat * 8 + n.toNat)]
  | .por d a b n => [.ofNat 32 (1627389952 + d.toNat * 131072 + a.toNat * 1024 + b.toNat * 8 + n.toNat)]
  | .pxor d a b n => [.ofNat 32 (1644167168 + d.toNat * 131072 + a.toNat * 1024 + b.toNat * 8 + n.toNat)]
  | .pnot d a => [.ofNat 32 (1660944384 + d.toNat * 131072 + a.toNat * 1024)]
  | .pmov d a => [.ofNat 32 (1677721600 + d.toNat * 131072 + a.toNat * 1024)]
  | .pset d a => [.ofNat 32 (1694498816 + d.toNat * 131072 + a.toNat * 1024)]
  | .xchg d a b m => [.ofNat 32 (1744830464 + d.toNat * 131072 + a.toNat * 1024 + b.toNat * 8 + m.toNat)]
  | .xbcast d a b => [.ofNat 32 (1761607680 + d.toNat * 131072 + a.toNat * 1024 + b.toNat * 8)]
  | .xscan d a b m => [.ofNat 32 (1778384896 + d.toNat * 131072 + a.toNat * 1024 + b.toNat * 8 + m.toNat)]
  | .xred d a m => [.ofNat 32 (1795162112 + d.toNat * 131072 + a.toNat * 1024 + m.toNat)]
  | .vote d a m => [.ofNat 32 (1811939328 + d.toNat * 131072 + a.toNat * 1024 + m.toNat)]
  | .bra o => [.ofNat 32 (1879048192 + o.toNat)]
  | .brx a => [.ofNat 32 (1895825408 + a.toNat * 1024)]
  | .call o => [.ofNat 32 (1912602624 + o.toNat)]
  | .callx a => [.ofNat 32 (1929379840 + a.toNat * 1024)]
  | .loop cnt len id ia ib ic it io => [.ofNat 32 (1979711488 + cnt.toNat * 131072 + len.toNat * 4096), .ofNat 32 (id.toNat * 268435456 + ia.toNat * 16777216 + ib.toNat * 1048576 + ic.toNat * 65536 + it.toNat * 16384 + io.toNat)]
  | .spawn c a b => [.ofNat 32 (2013265920 + c.toNat * 131072 + a.toNat * 1024 + b.toNat * 8)]
  | .launch a => [.ofNat 32 (2030043136 + a.toNat * 1024)]
  | .rgn a => [.ofNat 32 (2097152000 + a.toNat * 1024)]
  | .dead f m => [.ofNat 32 (2113929216 + f.toNat * 131072 + m.toNat)]
  | .ld d a f o v => [.ofNat 32 (2415919104 + d.toNat * 131072 + a.toNat * 1024 + f.toNat * 64 + o.toNat * 8 + v.toNat)]
  | .lda d a f o v => [.ofNat 32 (2432696320 + d.toNat * 131072 + a.toNat * 1024 + f.toNat * 64 + o.toNat * 8 + v.toNat)]
  | .ldw d a f o v => [.ofNat 32 (2449473536 + d.toNat * 131072 + a.toNat * 1024 + f.toNat * 64 + o.toNat * 8 + v.toNat)]
  | .st d a f o v => [.ofNat 32 (2483027968 + d.toNat * 131072 + a.toNat * 1024 + f.toNat * 64 + o.toNat * 8 + v.toNat)]
  | .sta d a f o v => [.ofNat 32 (2499805184 + d.toNat * 131072 + a.toNat * 1024 + f.toNat * 64 + o.toNat * 8 + v.toNat)]
  | .stw d a f o v => [.ofNat 32 (2516582400 + d.toNat * 131072 + a.toNat * 1024 + f.toNat * 64 + o.toNat * 8 + v.toNat)]
  | .stP d a f o v => [.ofNat 32 (2550136832 + d.toNat * 131072 + a.toNat * 1024 + f.toNat * 64 + o.toNat * 8 + v.toNat)]
  | .staP d a f o v => [.ofNat 32 (2566914048 + d.toNat * 131072 + a.toNat * 1024 + f.toNat * 64 + o.toNat * 8 + v.toNat)]
  | .stwP d a f o v => [.ofNat 32 (2583691264 + d.toNat * 131072 + a.toNat * 1024 + f.toNat * 64 + o.toNat * 8 + v.toNat)]
  | .atom d a f o v => [.ofNat 32 (2617245696 + d.toNat * 131072 + a.toNat * 1024 + f.toNat * 64 + o.toNat * 8 + v.toNat)]
  | .atoma d a f o v => [.ofNat 32 (2634022912 + d.toNat * 131072 + a.toNat * 1024 + f.toNat * 64 + o.toNat * 8 + v.toNat)]
  | .red d a f o v => [.ofNat 32 (2650800128 + d.toNat * 131072 + a.toNat * 1024 + f.toNat * 64 + o.toNat * 8 + v.toNat)]
  | .ldOff d a f o v => [.ofNat 32 (2952790016 + d.toNat * 131072 + a.toNat * 1024 + f.toNat * 64 + o.toNat * 8 + v.toNat)]
  | .ldaOff d a f o v => [.ofNat 32 (2969567232 + d.toNat * 131072 + a.toNat * 1024 + f.toNat * 64 + o.toNat * 8 + v.toNat)]
  | .ldwOff d a f o v => [.ofNat 32 (2986344448 + d.toNat * 131072 + a.toNat * 1024 + f.toNat * 64 + o.toNat * 8 + v.toNat)]
  | .stOff d a f o v => [.ofNat 32 (3019898880 + d.toNat * 131072 + a.toNat * 1024 + f.toNat * 64 + o.toNat * 8 + v.toNat)]
  | .staOff d a f o v => [.ofNat 32 (3036676096 + d.toNat * 131072 + a.toNat * 1024 + f.toNat * 64 + o.toNat * 8 + v.toNat)]
  | .stwOff d a f o v => [.ofNat 32 (3053453312 + d.toNat * 131072 + a.toNat * 1024 + f.toNat * 64 + o.toNat * 8 + v.toNat)]
  | .stPOff d a f o v => [.ofNat 32 (3087007744 + d.toNat * 131072 + a.toNat * 1024 + f.toNat * 64 + o.toNat * 8 + v.toNat)]
  | .staPOff d a f o v => [.ofNat 32 (3103784960 + d.toNat * 131072 + a.toNat * 1024 + f.toNat * 64 + o.toNat * 8 + v.toNat)]
  | .stwPOff d a f o v => [.ofNat 32 (3120562176 + d.toNat * 131072 + a.toNat * 1024 + f.toNat * 64 + o.toNat * 8 + v.toNat)]
  | .atomOff d a f o v => [.ofNat 32 (3154116608 + d.toNat * 131072 + a.toNat * 1024 + f.toNat * 64 + o.toNat * 8 + v.toNat)]
  | .atomaOff d a f o v => [.ofNat 32 (3170893824 + d.toNat * 131072 + a.toNat * 1024 + f.toNat * 64 + o.toNat * 8 + v.toNat)]
  | .redOff d a f o v => [.ofNat 32 (3187671040 + d.toNat * 131072 + a.toNat * 1024 + f.toNat * 64 + o.toNat * 8 + v.toNat)]
  | .fence o v => [.ofNat 32 (2684354560 + o.toNat * 8 + v.toNat)]
  | .fencex p q o v => [.ofNat 32 (2701131776 + p.toNat * 131072 + q.toNat * 1024 + o.toNat * 8 + v.toNat)]
  | .watch a f => [.ofNat 32 (2717908992 + a.toNat * 1024 + f.toNat * 64)]
  | .wait d a => [.ofNat 32 (2734686208 + d.toNat * 131072 + a.toNat * 1024)]
  | .waita d a => [.ofNat 32 (2751463680 + d.toNat * 131072 + a.toNat * 1024)]
  | .prf a => [.ofNat 32 (2768240640 + a.toNat * 1024)]
  | .harm a h => [.ofNat 32 (3221225472 + a.toNat * 1024 + h.toNat * 64)]
  | .hsign h => [.ofNat 32 (3238002688 + h.toNat * 64)]
  | .hpoll d h => [.ofNat 32 (3254779904 + d.toNat * 131072 + h.toNat * 64)]
  | .bar c n => [.ofNat 32 (3288334336 + c.toNat * 32 + n.toNat)]
  | .parr a => [.ofNat 32 (3305111552 + a.toNat * 1024)]
  | .pwait d a => [.ofNat 32 (3321888768 + d.toNat * 131072 + a.toNat * 1024)]
  | .cpyGa d a b t => [.ofNat 32 (3489660928 + d.toNat * 131072 + a.toNat * 1024 + b.toNat * 8 + t.toNat)]
  | .cpyAg d a b t => [.ofNat 32 (3506438144 + d.toNat * 131072 + a.toNat * 1024 + b.toNat * 8 + t.toNat)]
  | .cpyw t => [.ofNat 32 (3523215360 + t.toNat)]
  | .cpyt d t => [.ofNat 32 (3539992576 + d.toNat * 131072 + t.toNat)]
  | .bcpy a b c => [.ofNat 32 (3556769792 + a.toNat * 1024 + b.toNat * 8), .ofNat 32 (c.toNat * 33554432)]
  | .coll d a => [.ofNat 32 (3573547008 + d.toNat * 131072 + a.toNat * 1024)]
  | .subs n a => [.ofNat 32 (3590324224 + n.toNat * 131072 + a.toNat * 1024)]
  | .subsSync n a => [.ofNat 32 (3607101440 + n.toNat * 131072 + a.toNat * 1024)]
  | .subx n a => [.ofNat 32 (3623878656 + n.toNat * 131072 + a.toNat * 1024)]
  | .subf d n => [.ofNat 32 (3640655872 + d.toNat * 131072 + n.toNat * 1024)]
  | .subfSrc d => [.ofNat 32 (3640655873 + d.toNat * 131072)]
  | .amsg d a b t c => [.ofNat 32 (3657433088 + d.toNat * 131072 + a.toNat * 1024 + b.toNat * 8 + t.toNat), .ofNat 32 (c.toNat * 33554432)]
  | .qpush q a => [.ofNat 32 (3674210304 + q.toNat * 131072 + a.toNat * 1024)]
  | .pitch d a b c => [.ofNat 32 (3690987520 + d.toNat * 131072 + a.toNat * 1024 + b.toNat * 8), .ofNat 32 (c.toNat * 33554432)]
  | .mcfg a tile m => [.ofNat 32 (3892314112 + a.toNat * 1024), .ofNat 32 (tile.toNat * 524288 + m.toNat)]
  | .mzero tile => [.ofNat 32 (3909091328), .ofNat 32 (tile.toNat * 524288)]
  | .gath d a b c lat fa mx m => [.ofNat 32 (3925868544 + d.toNat * 131072 + a.toNat * 1024 + b.toNat * 8), .ofNat 32 (c.toNat * 33554432 + lat.toNat * 262144 + fa.toNat * 16384 + mx.toNat * 512 + m.toNat)]
  | .mma d a b c h tile lat fa fb mx m => [.ofNat 32 (3942645760 + d.toNat * 131072 + a.toNat * 1024 + b.toNat * 8), .ofNat 32 (c.toNat * 33554432 + h.toNat * 2097152 + tile.toNat * 524288 + lat.toNat * 262144 + fa.toNat * 16384 + fb.toNat * 1024 + mx.toNat * 512 + m.toNat)]
  | .mmasS d a b c h tile lat fa fb mx lr => [.ofNat 32 (3959422976 + d.toNat * 131072 + a.toNat * 1024 + b.toNat * 8), .ofNat 32 (1 + c.toNat * 33554432 + h.toNat * 2097152 + tile.toNat * 524288 + lat.toNat * 262144 + fa.toNat * 16384 + fb.toNat * 1024 + mx.toNat * 512 + lr.toNat * 4)]
  | .mmasV d a b c h tile fa fb mx lr => [.ofNat 32 (3959422976 + d.toNat * 131072 + a.toNat * 1024 + b.toNat * 8), .ofNat 32 (2 + c.toNat * 33554432 + h.toNat * 2097152 + tile.toNat * 524288 + fa.toNat * 16384 + fb.toNat * 1024 + mx.toNat * 512 + lr.toNat * 4)]
  | .mol a tile => [.ofNat 32 (3976200192 + a.toNat * 1024), .ofNat 32 (tile.toNat * 524288)]
  | .mdrn a c tile m => [.ofNat 32 (3992977408 + a.toNat * 1024), .ofNat 32 (c.toNat * 33554432 + tile.toNat * 524288 + m.toNat)]
  | .mstat d tile clr => [.ofNat 32 (4009754624 + d.toNat * 131072), .ofNat 32 (tile.toNat * 524288 + clr.toNat)]
  | .cvtb d a c fa => [.ofNat 32 (4026531840 + d.toNat * 131072 + a.toNat * 1024), .ofNat 32 (c.toNat * 33554432 + fa.toNat * 16384)]
  | .dcorD d a b h => [.ofNat 32 (4043309056 + d.toNat * 131072 + a.toNat * 1024 + b.toNat * 8), .ofNat 32 (h.toNat * 2097152)]
  | .mfsr d c => [.ofNat 32 (4160749568 + d.toNat * 131072 + c.toNat)]
  | .mtsr a c => [.ofNat 32 (4177526784 + a.toNat * 131072 + c.toNat)]
  | .trap n => [.ofNat 32 (4194304000 + n.toNat)]
  | .sysc n => [.ofNat 32 (4227858432 + n.toNat)]
  | .illegal x => [.ofNat 32 (4278190080 + x.toNat)]
  | .unassignedOpcode w => [w]
  | .hardwareEnd _ => []
  | .sourceEntryRequest _ _ => []
  | .pldmDiscovery => []
  | .schedulerCycle => []
  | .ret => [.ofNat 32 (1946157056)]
  | .join => [.ofNat 32 (1962934272)]
  | .tail => [.ofNat 32 (2046820352)]
  | .yield => [.ofNat 32 (2063597568)]
  | .nop => [.ofNat 32 (2080374784)]
  | .qdrn => [.ofNat 32 (3707764736)]
  | .eret => [.ofNat 32 (4211081216)]
  | .clauseHeader => []

end Sys2Proof
end

