-- ==== Sys2Proof/Machine/Legal.lean ====
section
/-! DEFINITION. Which operand codes, field values and roles an instruction accepts (R131, R250 to R259 and each
instruction's own description), when it is uniform (R122), and where its literal words lie (R246). -/

namespace Sys2Proof.Machine

open Sys2Proof

/-- The fields that hold operand codes (R249); CNT of format L stands in D's place. -/
inductive Fld where
  | D | A | B | C
deriving DecidableEq, Repr

def Fld.num : Fld → Nat
  | .D => 0 | .A => 1 | .B => 2 | .C => 3

/-- What an operand position accepts (R251, R252, and each instruction's description). -/
inductive Form where
  /-- a single source: any code -/
  | src
  /-- a single destination: x, g, w, z -/
  | dst
  /-- a pair source: even x, even g, z, lit, tix, lix; a literal is sign-extended -/
  | psrc
  /-- a pair source whose literal is an FP32 value widened to FP64 (R13) -/
  | fsrc
  /-- a pair destination: even x, even g, z -/
  | pdst
  /-- D of `BFI`: source and destination, x, g or w -/
  | both
  /-- D of `MOVH`: source and destination, x, g, w or z -/
  | bothZ
  /-- a global address pair: even x, even g, z -/
  | ga
  /-- an A or W offset: x, g, z, tix, lix -/
  | aa
  /-- x or g -/
  | xg
  /-- x, g or z, as a destination -/
  | xgz
  /-- g, lit or z -/
  | glz
  /-- g or lit -/
  | gl
  /-- an even x or g pair -/
  | exg
  /-- an even x pair -/
  | evenx
  /-- an even g code whose 8 registers fit the file -/
  | gdesc
  /-- an x code, a multiple of 4, whose 4 registers lie below the count -/
  | xmul4
  /-- n x registers from here; 0 when n is 0 -/
  | xrun (n : Nat)
  /-- n x or g registers from here -/
  | xgrun (n : Nat)
  /-- n x or g registers from here; z when n is 0 -/
  | xgrunZ (n : Nat)
  /-- destination of a load of n registers, each a pair when wide -/
  | ldst (n : Nat) (wide : Bool)
  /-- source of a store of n registers, each a pair when wide; a pair literal is widened when float -/
  | ssrc (n : Nat) (wide float : Bool)
  /-- a block of n registers at a multiple of n (R304) -/
  | block (n : Nat)
deriving DecidableEq, Repr

/-- One operand of an instruction. -/
structure Operand where
  fld  : Fld
  form : Form
  code : Code
deriving DecidableEq, Repr

/-- The number of elements that a load or store moves (R254, R255). -/
def elems (o v : BitVec 3) : Nat := if o = 0#3 then 2 ^ (v.toNat % 4) else 1

/-- The formats that a register pair holds: W64 and F64 (R253). -/
def wide (f : BitVec 4) : Bool := f = 5#4 || f = 9#4

/-- The 4-bit formats (R299). -/
def nibble (f : BitVec 4) : Bool := f = 12#4 || f = 14#4 || f = 15#4

def ldDst (f : BitVec 4) (o v : BitVec 3) : Form := .ldst (elems o v) (wide f)
def stSrc (f : BitVec 4) (o v : BitVec 3) : Form := .ssrc (elems o v) (wide f) (f = 9#4)

/-- Payload words of `AMSG` by T (R349). -/
def amsgWords (t : BitVec 3) : Nat := [0, 1, 2, 4, 8, 16].getD t.toNat 0

/-- The numbers of the control registers (R260), and which are pairs. -/
def ctlKnown (n : Nat) : Bool :=
  [0x000, 0x001, 0x002, 0x003, 0x004, 0x006, 0x007, 0x008, 0x00A, 0x00B, 0x00C, 0x00E, 0x010, 0x011, 0x012].contains n
    || (0x020 ≤ n && n ≤ 0x02F)
def ctlPair (n : Nat) : Bool := [0x000, 0x004, 0x008, 0x00C, 0x00E].contains n

/-- Positions of A and D of `DCVT` by its conversion code (R276). -/
def dcvtA (c : BitVec 7) : Form :=
  if [1, 4, 5].contains c.toNat then .src else if c.toNat = 7 then .psrc else .fsrc
def dcvtD (c : BitVec 7) : Form := if [0, 2, 3].contains c.toNat then .dst else .pdst

/-- The operands of an instruction, in the order of R246. An event has none. -/
def operands : Instr → List Operand
  | .iadd d a b _ => [⟨.D, .dst, d⟩, ⟨.A, .src, a⟩, ⟨.B, .src, b⟩]
  | .isub d a b _ => [⟨.D, .dst, d⟩, ⟨.A, .src, a⟩, ⟨.B, .src, b⟩]
  | .imul d a b => [⟨.D, .dst, d⟩, ⟨.A, .src, a⟩, ⟨.B, .src, b⟩]
  | .imulh d a b _ => [⟨.D, .dst, d⟩, ⟨.A, .src, a⟩, ⟨.B, .src, b⟩]
  | .idiv d a b _ => [⟨.D, .dst, d⟩, ⟨.A, .src, a⟩, ⟨.B, .src, b⟩]
  | .irem d a b _ => [⟨.D, .dst, d⟩, ⟨.A, .src, a⟩, ⟨.B, .src, b⟩]
  | .imin d a b _ => [⟨.D, .dst, d⟩, ⟨.A, .src, a⟩, ⟨.B, .src, b⟩]
  | .imax d a b _ => [⟨.D, .dst, d⟩, ⟨.A, .src, a⟩, ⟨.B, .src, b⟩]
  | .imad d a b c => [⟨.D, .dst, d⟩, ⟨.A, .src, a⟩, ⟨.B, .src, b⟩, ⟨.C, .src, c⟩]
  | .iabs d a _ => [⟨.D, .dst, d⟩, ⟨.A, .src, a⟩]
  | .ineg d a _ => [⟨.D, .dst, d⟩, ⟨.A, .src, a⟩]
  | .and d a b => [⟨.D, .dst, d⟩, ⟨.A, .src, a⟩, ⟨.B, .src, b⟩]
  | .or d a b => [⟨.D, .dst, d⟩, ⟨.A, .src, a⟩, ⟨.B, .src, b⟩]
  | .xor d a b => [⟨.D, .dst, d⟩, ⟨.A, .src, a⟩, ⟨.B, .src, b⟩]
  | .andn d a b => [⟨.D, .dst, d⟩, ⟨.A, .src, a⟩, ⟨.B, .src, b⟩]
  | .shl d a b => [⟨.D, .dst, d⟩, ⟨.A, .src, a⟩, ⟨.B, .src, b⟩]
  | .shr d a b => [⟨.D, .dst, d⟩, ⟨.A, .src, a⟩, ⟨.B, .src, b⟩]
  | .sar d a b => [⟨.D, .dst, d⟩, ⟨.A, .src, a⟩, ⟨.B, .src, b⟩]
  | .rotl d a b => [⟨.D, .dst, d⟩, ⟨.A, .src, a⟩, ⟨.B, .src, b⟩]
  | .not d a => [⟨.D, .dst, d⟩, ⟨.A, .src, a⟩]
  | .popc d a => [⟨.D, .dst, d⟩, ⟨.A, .src, a⟩]
  | .clz d a => [⟨.D, .dst, d⟩, ⟨.A, .src, a⟩]
  | .brev d a => [⟨.D, .dst, d⟩, ⟨.A, .src, a⟩]
  | .mov d a => [⟨.D, .dst, d⟩, ⟨.A, .src, a⟩]
  | .bfx d a b _ c => [⟨.D, .dst, d⟩, ⟨.A, .src, a⟩, ⟨.B, .src, b⟩, ⟨.C, .src, c⟩]
  | .bfi d a b c => [⟨.D, .both, d⟩, ⟨.A, .src, a⟩, ⟨.B, .src, b⟩, ⟨.C, .src, c⟩]
  | .sel d a b _ => [⟨.D, .dst, d⟩, ⟨.A, .src, a⟩, ⟨.B, .src, b⟩]
  | .movi d _ => [⟨.D, .dst, d⟩]
  | .movh d _ => [⟨.D, .bothZ, d⟩]
  | .lea d a b _ => [⟨.D, .pdst, d⟩, ⟨.A, .psrc, a⟩, ⟨.B, .src, b⟩]
  | .icmp _ a b _ => [⟨.A, .src, a⟩, ⟨.B, .src, b⟩]
  | .iaddD d a b => [⟨.D, .pdst, d⟩, ⟨.A, .psrc, a⟩, ⟨.B, .psrc, b⟩]
  | .isubD d a b => [⟨.D, .pdst, d⟩, ⟨.A, .psrc, a⟩, ⟨.B, .psrc, b⟩]
  | .imulD d a b => [⟨.D, .pdst, d⟩, ⟨.A, .psrc, a⟩, ⟨.B, .psrc, b⟩]
  | .andD d a b => [⟨.D, .pdst, d⟩, ⟨.A, .psrc, a⟩, ⟨.B, .psrc, b⟩]
  | .orD d a b => [⟨.D, .pdst, d⟩, ⟨.A, .psrc, a⟩, ⟨.B, .psrc, b⟩]
  | .xorD d a b => [⟨.D, .pdst, d⟩, ⟨.A, .psrc, a⟩, ⟨.B, .psrc, b⟩]
  | .imadD d a b c => [⟨.D, .pdst, d⟩, ⟨.A, .psrc, a⟩, ⟨.B, .psrc, b⟩, ⟨.C, .psrc, c⟩]
  | .iminD d a b _ => [⟨.D, .pdst, d⟩, ⟨.A, .psrc, a⟩, ⟨.B, .psrc, b⟩]
  | .imaxD d a b _ => [⟨.D, .pdst, d⟩, ⟨.A, .psrc, a⟩, ⟨.B, .psrc, b⟩]
  | .shlD d a b => [⟨.D, .pdst, d⟩, ⟨.A, .psrc, a⟩, ⟨.B, .src, b⟩]
  | .shrD d a b => [⟨.D, .pdst, d⟩, ⟨.A, .psrc, a⟩, ⟨.B, .src, b⟩]
  | .sarD d a b => [⟨.D, .pdst, d⟩, ⟨.A, .psrc, a⟩, ⟨.B, .src, b⟩]
  | .movD d a => [⟨.D, .pdst, d⟩, ⟨.A, .psrc, a⟩]
  | .selD d a b _ => [⟨.D, .pdst, d⟩, ⟨.A, .psrc, a⟩, ⟨.B, .psrc, b⟩]
  | .icmpD _ a b _ => [⟨.A, .psrc, a⟩, ⟨.B, .psrc, b⟩]
  | .fadd d a b _ => [⟨.D, .dst, d⟩, ⟨.A, .src, a⟩, ⟨.B, .src, b⟩]
  | .fsub d a b _ => [⟨.D, .dst, d⟩, ⟨.A, .src, a⟩, ⟨.B, .src, b⟩]
  | .fmul d a b _ => [⟨.D, .dst, d⟩, ⟨.A, .src, a⟩, ⟨.B, .src, b⟩]
  | .fscale d a b _ => [⟨.D, .dst, d⟩, ⟨.A, .src, a⟩, ⟨.B, .src, b⟩]
  | .hadd2 d a b _ => [⟨.D, .dst, d⟩, ⟨.A, .src, a⟩, ⟨.B, .src, b⟩]
  | .hmul2 d a b _ => [⟨.D, .dst, d⟩, ⟨.A, .src, a⟩, ⟨.B, .src, b⟩]
  | .ffma d a b _ c => [⟨.D, .dst, d⟩, ⟨.A, .src, a⟩, ⟨.B, .src, b⟩, ⟨.C, .src, c⟩]
  | .hfma2 d a b _ c => [⟨.D, .dst, d⟩, ⟨.A, .src, a⟩, ⟨.B, .src, b⟩, ⟨.C, .src, c⟩]
  | .fmin d a b => [⟨.D, .dst, d⟩, ⟨.A, .src, a⟩, ⟨.B, .src, b⟩]
  | .fmax d a b => [⟨.D, .dst, d⟩, ⟨.A, .src, a⟩, ⟨.B, .src, b⟩]
  | .fabs d a => [⟨.D, .dst, d⟩, ⟨.A, .src, a⟩]
  | .fneg d a => [⟨.D, .dst, d⟩, ⟨.A, .src, a⟩]
  | .fclass d a => [⟨.D, .dst, d⟩, ⟨.A, .src, a⟩]
  | .frsq d a => [⟨.D, .dst, d⟩, ⟨.A, .src, a⟩]
  | .fexp2 d a => [⟨.D, .dst, d⟩, ⟨.A, .src, a⟩]
  | .flog2 d a => [⟨.D, .dst, d⟩, ⟨.A, .src, a⟩]
  | .fsin d a => [⟨.D, .dst, d⟩, ⟨.A, .src, a⟩]
  | .fcos d a => [⟨.D, .dst, d⟩, ⟨.A, .src, a⟩]
  | .fcmp _ a b _ => [⟨.A, .src, a⟩, ⟨.B, .src, b⟩]
  | .fcvt d a _ _ => [⟨.D, .dst, d⟩, ⟨.A, .src, a⟩]
  | .frnd d a _ => [⟨.D, .dst, d⟩, ⟨.A, .src, a⟩]
  | .frcp d a _ => [⟨.D, .dst, d⟩, ⟨.A, .src, a⟩]
  | .fsqrt d a _ => [⟨.D, .dst, d⟩, ⟨.A, .src, a⟩]
  | .dadd d a b _ => [⟨.D, .pdst, d⟩, ⟨.A, .fsrc, a⟩, ⟨.B, .fsrc, b⟩]
  | .dsub d a b _ => [⟨.D, .pdst, d⟩, ⟨.A, .fsrc, a⟩, ⟨.B, .fsrc, b⟩]
  | .dmul d a b _ => [⟨.D, .pdst, d⟩, ⟨.A, .fsrc, a⟩, ⟨.B, .fsrc, b⟩]
  | .ddiv d a b _ => [⟨.D, .pdst, d⟩, ⟨.A, .fsrc, a⟩, ⟨.B, .fsrc, b⟩]
  | .dfma d a b _ c => [⟨.D, .pdst, d⟩, ⟨.A, .fsrc, a⟩, ⟨.B, .fsrc, b⟩, ⟨.C, .fsrc, c⟩]
  | .dsqrt d a _ => [⟨.D, .pdst, d⟩, ⟨.A, .fsrc, a⟩]
  | .dcmp _ a b _ => [⟨.A, .fsrc, a⟩, ⟨.B, .fsrc, b⟩]
  | .dcvt d a c _ => [⟨.D, dcvtD c, d⟩, ⟨.A, dcvtA c, a⟩]
  | .pset _ a => [⟨.A, .src, a⟩]
  | .xchg d a b _ => [⟨.D, .dst, d⟩, ⟨.A, .src, a⟩, ⟨.B, .src, b⟩]
  | .xbcast d a b => [⟨.D, .dst, d⟩, ⟨.A, .src, a⟩, ⟨.B, .glz, b⟩]
  | .xscan d a _ _ => [⟨.D, .dst, d⟩, ⟨.A, .src, a⟩]
  | .xred d a _ => [⟨.D, .dst, d⟩, ⟨.A, .src, a⟩]
  | .vote d a _ => [⟨.D, .dst, d⟩, ⟨.A, .src, a⟩]
  | .brx a => [⟨.A, .psrc, a⟩]
  | .callx a => [⟨.A, .psrc, a⟩]
  | .loop cnt _ _ _ _ _ _ _ => [⟨.D, .glz, cnt⟩]
  | .spawn c a b => [⟨.A, .psrc, a⟩, ⟨.B, (.xrun c.toNat), b⟩]
  | .launch a => [⟨.A, .psrc, a⟩]
  | .rgn a => [⟨.A, .src, a⟩]
  | .ld d a f o v => [⟨.D, ldDst f o v, d⟩, ⟨.A, .ga, a⟩]
  | .lda d a f o v => [⟨.D, ldDst f o v, d⟩, ⟨.A, .aa, a⟩]
  | .ldw d a f o v => [⟨.D, ldDst f o v, d⟩, ⟨.A, .aa, a⟩]
  | .st d a f o v => [⟨.D, stSrc f o v, d⟩, ⟨.A, .ga, a⟩]
  | .stP d a f o v => [⟨.D, stSrc f o v, d⟩, ⟨.A, .ga, a⟩]
  | .sta d a f o v => [⟨.D, stSrc f o v, d⟩, ⟨.A, .aa, a⟩]
  | .staP d a f o v => [⟨.D, stSrc f o v, d⟩, ⟨.A, .aa, a⟩]
  | .stw d a f o v => [⟨.D, stSrc f o v, d⟩, ⟨.A, .aa, a⟩]
  | .stwP d a f o v => [⟨.D, stSrc f o v, d⟩, ⟨.A, .aa, a⟩]
  | .atom d a f _ _ => [⟨.D, (.block (if wide f then 8 else 4)), d⟩, ⟨.A, .ga, a⟩]
  | .atoma d a f _ _ => [⟨.D, (.block (if wide f then 8 else 4)), d⟩, ⟨.A, .aa, a⟩]
  | .red d a f _ _ => [⟨.D, (.block (if wide f then 4 else 2)), d⟩, ⟨.A, .ga, a⟩]
  | .ldOff d a f o v => [⟨.D, ldDst f o v, d⟩, ⟨.A, .ga, a⟩]
  | .ldaOff d a f o v => [⟨.D, ldDst f o v, d⟩, ⟨.A, .aa, a⟩]
  | .ldwOff d a f o v => [⟨.D, ldDst f o v, d⟩, ⟨.A, .aa, a⟩]
  | .stOff d a f o v => [⟨.D, stSrc f o v, d⟩, ⟨.A, .ga, a⟩]
  | .stPOff d a f o v => [⟨.D, stSrc f o v, d⟩, ⟨.A, .ga, a⟩]
  | .staOff d a f o v => [⟨.D, stSrc f o v, d⟩, ⟨.A, .aa, a⟩]
  | .staPOff d a f o v => [⟨.D, stSrc f o v, d⟩, ⟨.A, .aa, a⟩]
  | .stwOff d a f o v => [⟨.D, stSrc f o v, d⟩, ⟨.A, .aa, a⟩]
  | .stwPOff d a f o v => [⟨.D, stSrc f o v, d⟩, ⟨.A, .aa, a⟩]
  | .atomOff d a f _ _ => [⟨.D, (.block (if wide f then 8 else 4)), d⟩, ⟨.A, .ga, a⟩]
  | .atomaOff d a f _ _ => [⟨.D, (.block (if wide f then 8 else 4)), d⟩, ⟨.A, .aa, a⟩]
  | .redOff d a f _ _ => [⟨.D, (.block (if wide f then 4 else 2)), d⟩, ⟨.A, .ga, a⟩]
  | .watch a _ => [⟨.A, .ga, a⟩]
  | .wait d a => [⟨.D, .xgz, d⟩, ⟨.A, .src, a⟩]
  | .waita d a => [⟨.D, .xg, d⟩, ⟨.A, .aa, a⟩]
  | .prf a => [⟨.A, .ga, a⟩]
  | .harm a _ => [⟨.A, .src, a⟩]
  | .hpoll d _ => [⟨.D, .dst, d⟩]
  | .parr a => [⟨.A, .aa, a⟩]
  | .pwait d a => [⟨.D, .src, d⟩, ⟨.A, .aa, a⟩]
  | .cpyGa d a b _ => [⟨.D, .aa, d⟩, ⟨.A, .ga, a⟩, ⟨.B, .src, b⟩]
  | .cpyAg d a b _ => [⟨.D, .aa, d⟩, ⟨.A, .ga, a⟩, ⟨.B, .src, b⟩]
  | .cpyt d _ => [⟨.D, .dst, d⟩]
  | .bcpy a b c => [⟨.A, .aa, a⟩, ⟨.B, .src, b⟩, ⟨.C, .exg, c⟩]
  | .coll d a => [⟨.D, .dst, d⟩, ⟨.A, .aa, a⟩]
  | .subs _ a => [⟨.A, .aa, a⟩]
  | .subsSync _ a => [⟨.A, .aa, a⟩]
  | .subx _ a => [⟨.A, .aa, a⟩]
  | .subf d _ => [⟨.D, .dst, d⟩]
  | .subfSrc d => [⟨.D, .dst, d⟩]
  | .amsg d a b t c => [⟨.D, .dst, d⟩, ⟨.A, .psrc, a⟩, ⟨.B, .src, b⟩, ⟨.C, (.xgrunZ (amsgWords t)), c⟩]
  | .qpush _ a => [⟨.A, .src, a⟩]
  | .pitch d a b c => [⟨.D, .src, d⟩, ⟨.A, .psrc, a⟩, ⟨.B, .src, b⟩, ⟨.C, (.xgrun 8), c⟩]
  | .mcfg a _ m => (if m.toNat % 4 = 1 then [⟨.A, .gl, a⟩] else [])
  | .gath d a b c _ _ mx _ => (if mx = 1#1 then [⟨.D, .glz, d⟩] else []) ++ [⟨.A, .glz, a⟩, ⟨.B, .glz, b⟩, ⟨.C, .xmul4, c⟩]
  | .mma d a b c _ _ _ _ _ mx m => [⟨.D, .gl, d⟩, ⟨.A, .glz, a⟩, ⟨.B, .glz, b⟩] ++ (if mx = 1#1 ∧ m.toNat / 2 = 0 then [⟨.C, .glz, c⟩] else [])
  | .mmasS d a b c _ _ _ _ _ mx lr => [⟨.D, .gl, d⟩, ⟨.A, .glz, a⟩, ⟨.B, .glz, b⟩] ++ (if mx = 1#1 ∧ lr = 0#1 then [⟨.C, .glz, c⟩] else [])
  | .mmasV d a b c _ _ _ _ mx lr => [⟨.D, .gl, d⟩, ⟨.A, .glz, a⟩, ⟨.B, .glz, b⟩] ++ (if mx = 1#1 ∧ lr = 0#1 then [⟨.C, .glz, c⟩] else [])
  | .mol a _ => [⟨.A, .glz, a⟩]
  | .mdrn a c _ _ => [⟨.A, .src, a⟩, ⟨.C, .exg, c⟩]
  | .mstat d _ _ => [⟨.D, .xgz, d⟩]
  | .cvtb d a c _ => [⟨.D, .src, d⟩, ⟨.A, .src, a⟩, ⟨.C, .src, c⟩]
  | .dcorD d a b _ => [⟨.D, .evenx, d⟩, ⟨.A, .src, a⟩, ⟨.B, .gdesc, b⟩]
  | .mfsr d c => [⟨.D, (if ctlPair c.toNat then .pdst else .dst), d⟩]
  | .mtsr a c => [⟨.D, (if ctlPair c.toNat then .psrc else .src), a⟩]
  | _ => []

/-- An x code below the register count (R132). -/
def isX (rc c : Nat) : Bool := c < rc && c < 80
def isG (c : Nat) : Bool := 80 ≤ c && c < 112

/-- A window operand needs a group of 80 registers (R134). -/
def isW (rc c : Nat) : Bool := 112 ≤ c && c < 120 && 80 ≤ rc

/-- n registers from c stay inside one file and below the count. -/
def runOk (rc n c : Nat) : Bool := (c < 80 && c + n ≤ rc && c + n ≤ 80) || (isG c && c + n ≤ 112)

/-- An even pair inside its file. -/
def pairOk (rc c : Nat) : Bool := c % 2 = 0 && runOk rc 2 c

/-- The codes that a position accepts, for a group of `rc` registers (R251, R252, R259). -/
def Form.ok (rc : Nat) (f : Form) (c : Code) : Bool :=
  let n := c.toNat
  match f with
  | .src => isX rc n || isG n || isW rc n || 120 ≤ n
  | .dst => isX rc n || isG n || isW rc n || n = 120
  | .psrc | .fsrc => pairOk rc n || (120 ≤ n && n ≤ 123)
  | .pdst => pairOk rc n || n = 120
  | .both => isX rc n || isG n || isW rc n
  | .bothZ => isX rc n || isG n || isW rc n || n = 120
  | .ga => pairOk rc n || n = 120
  | .aa => isX rc n || isG n || n = 120 || n = 122 || n = 123
  | .xg => isX rc n || isG n
  | .xgz => isX rc n || isG n || n = 120
  | .glz => isG n || n = 120 || n = 121
  | .gl => isG n || n = 121
  | .exg => pairOk rc n
  | .evenx => n < 80 && pairOk rc n
  | .gdesc => n % 2 = 0 && 80 ≤ n && n ≤ 104
  | .xmul4 => n % 4 = 0 && n < 80 && runOk rc 4 n
  | .xrun k => if k = 0 then n = 0 else n < 80 && runOk rc k n
  | .xgrun k => runOk rc k n
  | .xgrunZ k => if k = 0 then n = 120 else runOk rc k n
  | .ldst k w =>
    (k = 1 && n = 120) || (if w then n % 2 = 0 && runOk rc (2 * k) n else runOk rc k n)
  | .ssrc k w _ =>
    if k = 1 then (if w then pairOk rc n || (120 ≤ n && n ≤ 123) else isX rc n || isG n || isW rc n || 120 ≤ n)
    else (if w then n % 2 = 0 && runOk rc (2 * k) n else runOk rc k n)
  | .block k => ((n < 80 && n % k = 0) || (isG n && (n - 80) % k = 0)) && runOk rc k n

/-- R254, R255, R299: ORD and VC of a load. -/
def loadOk (f : BitVec 4) (o v : BitVec 3) : Bool :=
  if nibble f then o = 0#3 && 1 ≤ v.toNat && v.toNat ≤ 3
  else (o = 0#3 && v.toNat ≤ 3) || (o = 1#3 && v = 0#3) || o = 5#3

/-- R254, R255, R299: ORD and VC of a store. -/
def storeOk (f : BitVec 4) (o v : BitVec 3) : Bool :=
  if nibble f then o = 0#3 && 1 ≤ v.toNat && v.toNat ≤ 3
  else (o = 0#3 && v.toNat ≤ 3) || (o = 2#3 && v = 0#3) || o = 6#3

/-- R254: ORD and VC of an atomic, a reduction or a fence. -/
def scopeOk (o v : BitVec 3) : Bool := (o = 0#3 && v = 0#3) || o = 4#3

/-- R304: the formats of an atomic. -/
def atomFmt (f : BitVec 4) : Bool := f = 4#4 || f = 5#4 || f = 8#4 || f = 9#4

/-- R368: the format combinations of a matrix operation; `lr` reads an operand through a layout record. -/
def mmaFmt (fa fb : BitVec 4) (mx : BitVec 1) (lr : Bool) : Bool :=
  let a := fa.toNat
  let b := fb.toNat
  let fp8 := (a = 10 || a = 11) && (b = 10 || b = 11)
  if lr then mx = 1#1 && (b = 10 || b = 12 || b = 14) && (fp8 || (a = b && (a = 12 || a = 14)))
  else if mx = 1#1 then fp8 || (a = 12 && b = 12)
  else fp8 || (a = b && [1, 13, 14, 12, 15, 7, 6, 8, 9].contains a)

/-- R368, R370: the formats of `GATH`. -/
def gathFmt (fa : BitVec 4) (mx : BitVec 1) (lr : Bool) : Bool :=
  let a := fa.toNat
  if lr then mx = 1#1 && (a = 10 || a = 12 || a = 14)
  else if mx = 1#1 then a = 10 || a = 11 || a = 12
  else [10, 11, 1, 13, 14, 12, 15, 7, 6, 8, 9].contains a

/-- The values of the fields that hold numbers (R250, and each instruction's description). -/
def fieldsOk (rc : Nat) : Instr → Bool
  | .iadd _ _ _ m | .isub _ _ _ m => m.toNat ≤ 2
  | .imulh _ _ _ m | .idiv _ _ _ m | .irem _ _ _ m | .imin _ _ _ m | .imax _ _ _ m => m.toNat ≤ 1
  | .iabs _ _ m | .ineg _ _ m => m.toNat ≤ 1
  | .bfx _ _ _ m _ => m.toNat ≤ 1
  | .iminD _ _ _ m | .imaxD _ _ _ m => m.toNat ≤ 1
  | .icmp p _ _ _ | .icmpD p _ _ _ | .fcmp p _ _ _ | .dcmp p _ _ _ => p.toNat ≤ 7
  | .fadd _ _ _ m | .fsub _ _ _ m | .fmul _ _ _ m | .fscale _ _ _ m => m.toNat ≤ 4
  | .ffma _ _ _ m _ | .dfma _ _ _ m _ | .hfma2 _ _ _ m _ => m.toNat ≤ 4
  | .fcvt _ _ c m => c.toNat ≤ 13 && m.toNat ≤ 4
  | .frnd _ _ m | .frcp _ _ m | .fsqrt _ _ m | .dsqrt _ _ m => m.toNat ≤ 4
  | .dadd _ _ _ m | .dsub _ _ _ m | .dmul _ _ _ m | .ddiv _ _ _ m => m.toNat ≤ 4
  | .dcvt _ _ c m => c.toNat ≤ 7 && m.toNat ≤ 4
  | .hadd2 _ _ _ m | .hmul2 _ _ _ m => m.toNat ≤ 4
  | .pand d a b _ | .por d a b _ | .pxor d a b _ => d.toNat ≤ 7 && a.toNat ≤ 7 && b.toNat ≤ 7
  | .pnot d a | .pmov d a => d.toNat ≤ 7 && a.toNat ≤ 7
  | .pset d _ => d.toNat ≤ 7
  | .xchg _ _ _ m | .vote _ _ m => m.toNat ≤ 3
  | .xscan _ _ b _ => b.toNat ≤ 1
  | .spawn c _ _ => c.toNat ≤ 16
  | .dead f m =>
    f.toNat < 80 && (List.range 16).all fun i => m.toNat / 2 ^ i % 2 = 0 || (f.toNat + i < rc && f.toNat + i < 80)
  | .ld _ _ f o v | .lda _ _ f o v | .ldw _ _ f o v => loadOk f o v
  | .ldOff _ _ f o v | .ldaOff _ _ f o v | .ldwOff _ _ f o v => loadOk f o v
  | .st _ _ f o v | .sta _ _ f o v | .stw _ _ f o v => storeOk f o v
  | .stP _ _ f o v | .staP _ _ f o v | .stwP _ _ f o v => storeOk f o v
  | .stOff _ _ f o v | .staOff _ _ f o v | .stwOff _ _ f o v => storeOk f o v
  | .stPOff _ _ f o v | .staPOff _ _ f o v | .stwPOff _ _ f o v => storeOk f o v
  | .atom _ _ f o v | .atoma _ _ f o v | .red _ _ f o v => atomFmt f && scopeOk o v
  | .atomOff _ _ f o v | .atomaOff _ _ f o v | .redOff _ _ f o v => atomFmt f && scopeOk o v
  | .fence o v => scopeOk o v
  | .fencex p q o v => p.toNat ≤ 4 && q.toNat ≤ 4 && scopeOk o v
  | .watch _ f => f = 4#4 || f = 5#4
  | .bar c n => c = 1#1 || n = 0#3
  | .subs n _ | .subsSync n _ | .subx n _ => n.toNat ≤ 31
  | .subf _ n => n.toNat ≤ 31
  | .amsg _ _ _ t _ => t.toNat ≤ 5
  | .qpush q _ => q.toNat ≤ 7
  | .mcfg a t m =>
    if m.toNat % 4 = 0 then a = 0#7 && m.toNat / 4 = 0
    else m.toNat % 4 = 1 && m.toNat / 4 ≠ t.toNat
  | .gath d _ _ _ _ fa mx m => gathFmt fa mx (m.toNat / 2 = 1) && (mx = 1#1 || d = 0#7)
  | .mma _ _ _ c _ _ _ fa fb mx m =>
    mmaFmt fa fb mx (m.toNat / 2 = 1) && ((mx = 1#1 && m.toNat / 2 = 0) || c = 0#7)
  | .mmasS _ _ _ c _ _ _ fa fb mx lr => mmaFmt fa fb mx (lr = 1#1) && ((mx = 1#1 && lr = 0#1) || c = 0#7)
  | .mmasV _ _ _ c _ _ fa fb mx lr => mmaFmt fa fb mx (lr = 1#1) && ((mx = 1#1 && lr = 0#1) || c = 0#7)
  | .mdrn _ _ _ m => m.toNat / 8 = 0 || m.toNat / 4 % 2 = 1
  | .cvtb _ _ _ fa => fa = 10#4 || fa = 12#4 || fa = 14#4
  | .dcorD _ _ _ h => h.toNat ≤ 7
  | .mfsr _ c | .mtsr _ c => ctlKnown c.toNat
  | .illegal _ | .unassignedOpcode _ => false
  | _ => true

/-- Every operand and every number of the instruction is accepted, for a group of `rc` registers (R259). -/
def legal (rc : Nat) (i : Instr) : Bool :=
  fieldsOk rc i && (operands i).all fun o => o.form.ok rc o.code

/-- R131: the roles that may use an instruction; 0 `general`, 1 `copy`, 2 `matrix`, 3 `epilogue`. -/
def roleOk (role : Nat) : Instr → Bool
  | .stw .. | .stwP .. | .stwOff .. | .stwPOff .. => role = 1 || role = 3
  | .gath .. | .mma .. | .mmasS .. | .mmasV .. | .mol .. | .mcfg .. => role = 2
  | .mdrn .. => role = 3
  | _ => true

/-- An operand that keeps its instruction uniform: a g register, z or a literal (R122). -/
def Operand.uniform (o : Operand) : Bool :=
  match o.form with
  | .xrun 0 => true
  | _ => isG o.code.toNat || o.code.toNat = 120 || o.code.toNat = 121

/-- R122: an instruction that names only g registers, z and literals acts once for its group. An instruction that
names a predicate, `DEAD`, `GATH` and `DCOR` never do. -/
def isUniform (i : Instr) : Bool :=
  match i with
  | .sel .. | .selD .. | .icmp .. | .icmpD .. | .fcmp .. | .dcmp .. => false
  | .pand .. | .por .. | .pxor .. | .pnot .. | .pmov .. | .pset .. => false
  | .dead .. | .gath .. | .dcorD .. => false
  | .trap .. | .sysc .. | .illegal .. | .unassignedOpcode .. => false
  | .bra .. | .brx .. | .call .. | .callx .. | .ret | .join | .loop .. | .tail | .yield | .nop | .rgn .. | .eret => false
  | _ => (operands i).all Operand.uniform

/-! ### Words of a clause -/

/-- Fields of the clause header (R243). -/
def hdrN (w : Word) : Nat := w.toNat / 2 ^ 28
def hdrCls (w : Word) : Nat := w.toNat / 2 ^ 25 % 8
def hdrSw (w : Word) : Nat := w.toNat / 2 ^ 10 % 2 ^ 15
def hdrGen (w : Word) : Bool := w.toNat / 2 ^ 9 % 2 = 1
def hdrNeg (w : Word) : Bool := w.toNat / 2 ^ 8 % 2 = 1
def hdrPred (w : Word) : Nat := w.toNat / 2 ^ 5 % 8
def hdrWait (w : Word) : Nat := w.toNat % 32

/-- R244: a malformed header. -/
def hdrBad (w : Word) : Bool :=
  hdrN w = 0 || hdrCls w = 7 || hdrSw w / 2 ^ hdrN w ≠ 0 || (!hdrGen w && w.toNat / 2 ^ 5 % 16 ≠ 0)

/-- The class of an opcode (R257), as a clause header numbers it. -/
def opClass (op : Nat) : Nat :=
  if op < 0x70 then 0 else if op < 0x90 then 5 else if op < 0xC0 then 1 else if op < 0xD0 then 4
  else if op < 0xE8 then 2 else if op < 0xF8 then 3 else 6

/-- The opcodes that are assigned (R257). -/
def opAssigned (op : Nat) : Bool :=
  op < 0x1F || (0x20 ≤ op && op < 0x2F) || (0x30 ≤ op && op < 0x3D) || (0x40 ≤ op && op < 0x47)
    || (0x50 ≤ op && op < 0x5B) || (0x60 ≤ op && op < 0x66) || (0x68 ≤ op && op < 0x6D)
    || (0x70 ≤ op && op < 0x77) || (0x78 ≤ op && op < 0x7F)
    || ([0x90, 0xB0].any fun b => b ≤ op && op < b + 15 && (op - b) % 4 ≠ 3)
    || (0xA0 ≤ op && op < 0xA6) || (0xC0 ≤ op && op < 0xC7 && op ≠ 0xC3) || (0xD0 ≤ op && op < 0xDE)
    || (0xE8 ≤ op && op < 0xF2) || (0xF8 ≤ op && op < 0xFD)

/-- The fields of an opcode that hold operand codes and are sources, so that code 121 there takes a literal word
(R246): D, A, B, C. Field D of `MOVH` is a source (R271) and takes one; R13 gives `MOVH` no literal, and the code traps
`ILLEGAL` there either way: DESIGN CHOICE (log entry 48). -/
def litFields (op : Nat) : List Nat :=
  if !opAssigned op then []
  else if [0x09, 0x0A, 0x0F, 0x14, 0x15, 0x16, 0x1A, 0x2C, 0x36, 0x37, 0x39, 0x3B, 0x3C, 0x55, 0x57, 0x65, 0x6A, 0x6B,
      0x6C, 0x71, 0x73, 0x79, 0x7D].contains op then [1]
  else if (0x40 ≤ op && op < 0x47) then [1]
  else if [0x04, 0x17, 0x23, 0x33, 0x53, 0x5A].contains op then [1, 2, 3]
  else if op = 0x18 then [0, 1, 2, 3]
  else if op = 0x1B then []
  else if op = 0x1C then [0]
  else if 0x60 ≤ op && op < 0x65 then []
  else if op < 0x70 then [1, 2]
  else if op = 0x76 then [0]
  else if op = 0x78 then [1, 2]
  else if op < 0x90 then []
  else if [0x90, 0x91, 0x92, 0xB0, 0xB1, 0xB2, 0xA2, 0xA3, 0xA5].contains op then [1]
  else if op = 0xA0 || op = 0xA1 then []
  else if op < 0xC0 then [0, 1]
  else if op = 0xC0 || op = 0xC5 then [1]
  else if op = 0xC6 then [0, 1]
  else if op < 0xD0 then []
  else if op = 0xD0 || op = 0xD1 then [0, 1, 2]
  else if op = 0xD4 || op = 0xDA then [1, 2, 3]
  else if op = 0xD9 || op = 0xD2 || op = 0xD3 || op = 0xDD then []
  else if op = 0xDC then [0, 1, 2, 3]
  else if op < 0xE0 then [1]
  else if op = 0xE8 || op = 0xED then [1]
  else if op = 0xE9 || op = 0xEF then []
  else if 0xEA ≤ op && op ≤ 0xEC then [0, 1, 2, 3]
  else if op = 0xEE then [1, 3]
  else if op = 0xF0 then [0, 1, 3]
  else if op = 0xF1 then [1, 2]
  else if op = 0xF9 then [0]
  else []

/-- The raw operand field of a word pair. -/
def rawField (w u : Word) : Nat → Nat
  | 0 => w.toNat / 2 ^ 17 % 128
  | 1 => w.toNat / 2 ^ 10 % 128
  | 2 => w.toNat / 2 ^ 3 % 128
  | _ => u.toNat / 2 ^ 25

/-- The fields of the literal words that an instruction uses, in their order (R246): operand fields 0 to 3, the
memory offset 4, the reconvergence word 5. -/
def litSlots (w u : Word) : List Nat :=
  (litFields (opOf w)).filter (fun f => rawField w u f = 121)
    ++ (if opAssigned (opOf w) && 0xB0 ≤ opOf w && opOf w < 0xC0 then [4] else [])
    ++ (if 0x70 ≤ opOf w && opOf w ≤ 0x73 then [5] else [])

end Sys2Proof.Machine
end

