-- ==== Sys2Proof/Machine/State.lean ====
section
/-! DEFINITION. The state of the Skesia 4820 as plain data: everything the spec gives the part, and the few
fields of the model's own (log entry 1). A table with a number as its key is a list of (key, value) pairs. -/

namespace Sys2Proof.Machine

/-- Raised by no meaning: this hardware answers every access that the spec forbids with a trap, a violation or a
completion code, and each of these is a next state. Safe. -/
inductive Fault where
  /-- Raised by no meaning and by no step. Safe. -/
  | none
deriving DecidableEq, Repr

/-- Why a step has no meaning. -/
inductive Refusal where
  /-- An instruction that has no meaning yet, rejected by name. Raised by an arm of `exec` alone. Safe. -/
  | notModelled (mnemonic : String)
deriving DecidableEq, Repr

/-! ### Registers -/

/-- An x or g register with its proposal bit (R132, R219). -/
structure Reg where
  v : Word
  p : Bool
deriving DecidableEq, Repr

/-- Settled zero. -/
def Reg.zero : Reg := ⟨0#32, false⟩

/-- A predicate with its proposal bit (R132). -/
structure PReg where
  v : Bool
  p : Bool
deriving DecidableEq, Repr

def PReg.zero : PReg := ⟨false, false⟩

/-- A control register; a 32-bit register lies in the low word (R219, R260). -/
structure CReg where
  v : DWord
  p : Bool
deriving DecidableEq, Repr

def CReg.of (n : Nat) : CReg := ⟨BitVec.ofNat 64 n, false⟩

/-- The control registers of home-group scope (R260). -/
structure Ctl where
  nbv     : CReg
  pctl    : CReg
  deadm   : CReg
  dctol   : CReg
  dclim   : CReg
  fpctl   : CReg
  trapvec : CReg
  tcause  : CReg
  tmask   : CReg
  taddr   : CReg
  epc     : CReg
  wbase   : List CReg
  wlen    : List CReg
deriving DecidableEq, Repr

/-- The reset values of R260. -/
def Ctl.reset : Ctl where
  nbv     := CReg.of 2
  pctl    := CReg.of 0
  deadm   := CReg.of 0
  dctol   := CReg.of 0x3CD0000000000000
  dclim   := CReg.of 0x10
  fpctl   := CReg.of 0
  trapvec := CReg.of 0
  tcause  := CReg.of 0
  tmask   := CReg.of 0
  taddr   := CReg.of 0
  epc     := CReg.of 0
  wbase   := List.replicate 8 (CReg.of 0)
  wlen    := List.replicate 8 (CReg.of 0)

/-! ### Threads and home groups -/

/-- Where a thread stands: its clause header, and the number of the next instruction of that clause; 0 at the
header itself (R242). -/
structure Pos where
  hdr : Nat
  k   : Nat
deriving DecidableEq, Repr

/-- An entry of the taint stack: reconvergence PC and return depth (R224). -/
structure Taint where
  pc    : Nat
  depth : Nat
deriving DecidableEq, Repr

/-- A return-stack entry: the return PC and the path taint at the call (R284). -/
structure RetEnt where
  pc : Nat
  p  : Bool
deriving DecidableEq, Repr

/-- The restart region of a thread (R100, R292). -/
structure Region where
  isOpen : Bool
  pc     : Nat
  word   : Reg
deriving DecidableEq, Repr

/-- A watch (R309, R312): the watched word's memory key, its size, and the latched event, which is 5 (NOWATCH) for a watch that a
`WAIT` has disarmed and that no re-arm has dropped yet (R311, R326); and whether it holds its monitor entry (R310). -/
structure Watch where
  key     : Nat
  bytes   : Nat
  latched : Option Nat
  mon     : Bool
deriving DecidableEq, Repr

/-- The loop state of a path: first header of the body, header after the body, count, pass, and the six steps
of R286 in the order D, A, B, C, tile, offset. -/
structure LoopSt where
  body  : Nat
  stop  : Nat
  count : Nat
  pass  : Nat
  steps : List Int
deriving DecidableEq, Repr

/-- The life of a thread (R114): live, inactive for life, or ended by `TAIL` or under R144. -/
inductive Life where
  | live | inactive | ended
deriving DecidableEq, Repr

structure Thread where
  life    : Life
  pos     : Pos
  /-- the outcome and the P of the guard of the clause the thread is in (R225) -/
  gact    : Bool
  gp      : Bool
  /-- the P of the guard of a clause that ends in a branch, which is the branch's condition (R225) -/
  gbp     : Bool
  x       : List Reg
  pr      : List PReg
  /-- numbers of the dead x registers (R138) -/
  dead    : List Nat
  /-- newest entry first -/
  taint   : List Taint
  /-- hardware entries of the return stack, newest first, at most 8 -/
  ret     : List RetEnt
  /-- entries in the spill area (R75) -/
  spilled : Nat
  region  : Region
  watch   : Option Watch
  loop    : Option LoopSt
  /-- loop state saved by a trap (R287), and the P of the guard of the clause that trapped -/
  saved   : Option LoopSt
  savedGp : Bool
  savedGbp : Bool
  /-- the outcome of the guard of the clause that trapped -/
  savedGact : Bool
  /-- stochastic generator (R208) -/
  gen     : BitVec 32
  /-- fault-held at a load (R145), and ready to replay it; the thread whose request is held for it, by a granule or a link, which is
  another's where the instruction is uniform (R122); and which load holds it, where it is one that `TMASK`.HOLD records (R142) -/
  held    : Bool
  replay  : Bool
  heldBy  : Nat
  ldNo    : Option Nat
  /-- the held operation writes a register, so that a marker waits for its replay (R119) -/
  heldReg : Bool
  /-- it stays at its instruction, parked, and issues it again -/
  stays   : Bool
  /-- elements popped for an instruction that the thread stays at (R141): queue name and element -/
  popped  : List (Nat × Reg)
  /-- a trap owed at the instruction where the thread stands, with its TADDR: its huddle round failed (R318, R320), or a trap of a
  lower code was handled first (R144) -/
  owed    : Option (Nat × Nat)
  /-- an element of a pitcher program has performed the instruction at which the program is stalled (R351) -/
  done    : Bool
  /-- when the thread last issued (R126) -/
  last    : Nat
deriving DecidableEq, Repr

/-- A variable-latency register write in flight (R118): thread, destination code and values, kind (the wait bit),
a window store's key (R134), the registers written meanwhile (R121), and, where a replay issued it, the number of the held load and
the threads of that replay (R142). -/
structure Pend where
  tix  : Nat
  code : Nat
  regs : List Reg
  kind : Nat
  win  : Option Nat
  beaten : List Nat
  rep  : Option (Nat × List Nat)
deriving DecidableEq, Repr

/-- Why threads of a group are parked; each with what the wake needs. -/
inductive Park where
  /-- `WAIT` (R311): destination code and deadline -/
  | wait (dst : Nat) (deadline : Option Nat)
  /-- `WAITA` (R314): destination code, A offset, P of the address, the value waited to change -/
  | waita (dst off : Nat) (ap : Bool) (old : Word)
  /-- `PWAIT` (R325): A offset and the awaited phase -/
  | pwait (off : Nat) (phase : Bool)
  /-- `FENCEX` (R193): the commands waited for, the two paths, the scope, and the first number of a later command -/
  | fencex (cmds : List Nat) (a b : Path) (dom since : Nat)
  /-- `CPYW` (R334): tag and sequence number -/
  | cpyw (tag seq : Nat)
  /-- a huddle round (R318) -/
  | huddle (h : Nat)
  /-- a barrier (R321): its level and the scope domain of the level -/
  | bar (lvl dom : Nat)
deriving DecidableEq, Repr

structure ParkRec where
  mask : List Nat
  kind : Park
deriving DecidableEq, Repr

/-- A park of the whole group: at a switch marker (R119), or at a clause header with wait bits (R120). -/
inductive GPark where
  | marker
  | header (bits : Nat)
deriving DecidableEq, Repr

/-- A deferred fault: of the matrix engine, taken at wait bit 2 (R366), or the `CONFLICT` of a `CPY` transfer under a tag,
taken at wait bit 1 or at the tag's `CPYW` (R182). -/
structure Deferred where
  tids : List Nat
  code : Nat
  addr : Nat
  tag  : Option Nat
deriving DecidableEq, Repr

/-- A batch tag of the copy engine (R334, R335, R357): transfers issued, first failure and its address, and the
failures that no `CPYW` has collected. -/
structure Tag where
  issued : Nat
  err    : Nat
  addr   : Nat
  errs   : Nat
deriving DecidableEq, Repr

/-- How a home group came to run (R90, R94). -/
inductive GKind where
  | gang (n : Nat)
  | spawned
  | message
  /-- the 16 elements of a pitcher program (R351) -/
  | pitcher
deriving DecidableEq, Repr

/-- How a group ranks at its lane's next choice (R97, R130): it has starved, or its path yielded. -/
inductive LaneRank where
  | normal | starved | yielded
deriving DecidableEq, Repr

/-- A request for pre-emption (R102): of a record's next gang, or of one of its held instances. -/
structure Mark where
  lid  : Nat
  held : Option (Nat × Nat)
deriving DecidableEq, Repr

structure Group where
  /-- fresh number of this run of the slot -/
  uid     : Nat
  core    : Nat
  lix     : Nat
  slot    : Nat
  /-- the launch; an active-message group has `messageLid` of its context -/
  lid     : Nat
  ctx     : Nat
  kind    : GKind
  role    : Nat
  regs    : Nat
  eclass  : Nat
  frozen  : Bool
  /-- the violation that freezes it once its queued replays have completed (R232): cause and address -/
  toFreeze : Option (Nat × Nat)
  threads : List Thread
  g       : List Reg
  ctl     : Ctl
  pend    : List Pend
  parks   : List ParkRec
  gpark   : Option GPark
  /-- words of the clauses that paths stand in, by header address (R248) -/
  clauses : List (Nat × List Word)
  tags    : List Tag
  deferred : List Deferred
  /-- the issuing path's position, the instructions it issued in this turn, and when it last issued, replays apart (R126) -/
  turnAt  : Option Pos
  turn    : Nat
  turnLast : Nat
  /-- the number of its most recent fault-held load (R142) -/
  holdNo  : Nat
  last    : Nat
  rank    : LaneRank
  /-- the lane chooses again before it issues (R97) -/
  again   : Bool
  /-- entry PC of its threads -/
  entry   : Nat
  /-- marked for pre-emption (R102) -/
  marked  : Option Mark
  /-- its argument block is still to be fetched (R75) -/
  argsDue : Bool
  /-- when its gang was placed, and its instance number (R102) -/
  place   : Nat
  inst    : Nat
  /-- the clause that held the trapping instruction, while the handler runs (R144) -/
  trapHdr : Option Nat
deriving DecidableEq, Repr

/-! ### Cores -/

/-- Where a block of a launch space is: a physical block of the core, or saved under a space slot (R105). -/
inductive BlkLoc where
  | phys (b : Nat)
  | saved (slot : Nat)
deriving DecidableEq, Repr

/-- A launch space of a core (R104); the active-message space has slot 4. -/
structure Space where
  lid    : Nat
  ctx    : Nat
  slot   : Nat
  bint   : CReg
  blocks : List (Nat × BlkLoc)
  held   : Bool
  /-- the slot that a held space had when its instances last ran (R106) -/
  orig   : Nat
deriving DecidableEq, Repr

/-- One signature of a huddle round (R318): who signed, the instruction (kind 0 `HSIGN`, 1 `MMA`, 2 `MMAS`,
3 `DCOR`), its words and literals, the values it named, and the number of the next command when it signed. -/
structure Sig where
  gid  : Nat
  uid  : Nat
  tix  : Nat
  kind : Nat
  w    : Word
  u    : Word
  lits : List (Nat × Word)
  vals : List Nat
  p    : Bool
  id   : Nat
deriving DecidableEq, Repr

/-- A huddle register (R316). -/
structure Huddle where
  owner  : Option Nat
  count  : Nat
  signed : Nat
  gen    : Nat
  rounds : Nat
  last   : Nat
  sigs   : List Sig
deriving DecidableEq, Repr

def Huddle.reset : Huddle := ⟨none, 0, 0, 0, 0, 0, []⟩

/-- A spawn bin (R93): key, waiting threads' registers, when its timer began, the role of its groups, whether its groups are
active-message groups, and whether the first thread came with an active message, whose group takes the role of the
active-message record (R94). -/
structure Bin where
  lid     : Nat
  ctx     : Nat
  entry   : Nat
  threads : List (List Reg)
  since   : Nat
  role    : Nat
  regs    : Nat
  eclass  : Nat
  message : Bool
  record  : Bool
  /-- its timer has reached BINT -/
  due     : Bool
deriving DecidableEq, Repr

/-- An active message (R50). -/
structure Msg where
  ctx   : Nat
  entry : Nat
  regs  : List Reg
  reply : Bool
deriving DecidableEq, Repr

/-- The active-message record of a context on a core (R78). -/
structure AmRec where
  ctx     : Nat
  role    : Nat
  regs    : Nat
  eclass  : Nat
  argp    : Nat
  arglen  : Nat
  rsbase  : Nat
  rsdepth : Nat
deriving DecidableEq, Repr

/-- An accumulator tile (R363). A row that is not listed is all +0. -/
structure Tile where
  rows    : List (List Word)
  rowP    : List Bool
  poison  : Bool
  /-- score tile and width of the SOFTMAX mode; none in CHAIN mode -/
  smx     : Option (Nat × Nat)
  m       : List Word
  l       : List Word
  held    : Bool
  /-- the redundant check of its last operation is outstanding (R234) -/
  due     : Bool
  nanblk  : Nat
  ufblk   : Nat
  outlier : Option Nat
deriving DecidableEq, Repr

def Tile.reset : Tile where
  rows := []
  rowP := List.replicate 64 false
  poison := false
  smx := none
  m := List.replicate 64 0xFF800000#32
  l := List.replicate 64 0#32
  held := false
  due := false
  nanblk := 0
  ufblk := 0
  outlier := none

/-- A latch (R363); width 0 is empty. -/
structure Latch where
  rows   : List (List Byte)
  scales : List (List Byte)
  width  : Nat
  mx     : Bool
  p      : Bool
  poison : Bool
deriving DecidableEq, Repr

def Latch.reset : Latch := ⟨[], [], 0, false, false, false⟩

/-- One `CPY` transfer in flight (R332). -/
structure Xfer where
  id    : Nat
  gid   : Nat
  uid   : Nat
  tix   : Nat
  lid   : Nat
  ctx   : Nat
  tag   : Nat
  seq   : Nat
  toA   : Bool
  va    : Nat
  off   : Nat
  len   : Nat
  p     : Bool
  pstop : Bool
  /-- the threads of the turn that issued it, which are all of them where the instruction is uniform (R122) -/
  tids  : List Nat
  /-- its write stands in the side log -/
  logged : Bool
  /-- when the sweep that issued it ended, the code that it ends with once its write has performed, and what it has read: its
  bytes, their P and POISON -/
  sweep  : Nat
  err    : Nat
  got    : Option (List Byte × Bool × Bool)
deriving DecidableEq, Repr

/-- The space that an engine command names (R146). -/
inductive Spc where
  | global | A | W
deriving DecidableEq, Repr

/-- A write that an engine command still has to make, of at most one sector; `rel` is a release (R338). -/
structure CWrite where
  spc    : Spc
  addr   : Nat
  data   : List Byte
  p      : Bool
  poison : Bool
  rel    : Bool
deriving DecidableEq, Repr

/-- The engine commands with a completion word or a result (R328), each with its operands. -/
inductive CmdKind where
  | bcpy (desc : Nat) (flag : Word)
  | coll (desc : Nat)
  | subs (sync : Bool) (n desc : Nat)
  | subx (n : Nat)
  | subf (n : Nat)
  | subfSrc
  | amsg (msg : Msg) (dst : Nat)
  | mdrn (tile : Nat)
deriving DecidableEq, Repr

/-- Where a command's result goes: a register code, or an A offset with the key and P of a window (R134). -/
structure CmdDst where
  code : Nat
  win  : Option Nat
  wp   : Bool
deriving DecidableEq, Repr

structure Cmd where
  /-- its number; its group, thread, launch and context; and the placement of the gang that issued it (R102) -/
  id     : Nat
  gid    : Nat
  uid    : Nat
  tix    : Nat
  lid    : Nat
  ctx    : Nat
  path   : Path
  kind   : CmdKind
  /-- how far it has gone: 0 issued, 1 waits for its other end, 2 makes its data writes, 6 waits for the destinations of the
  other ranks, 4 makes the writes that follow, 3 its outcome stands, 5 its word stands in the side log, 7 its result waits for
  that of an earlier command of its sweep -/
  stage  : Nat
  code   : Nat
  /-- the count of its completion word: data writes made, while it makes them -/
  count  : Nat
  /-- data writes, in order; writes that follow all of them, only on success -/
  writes : List CWrite
  after  : List CWrite
  /-- completion word: a global address, or an offset of the A space -/
  word   : Option (Spc × Nat)
  dst    : Option CmdDst
  p      : Bool
  pstop  : Bool
  /-- updates still to be applied before it completes (R344, R348) -/
  waits  : List Nat
  /-- the sweep that issued it; the reads that it has performed in its first stage, in order, and how many of them this try
  has taken again (R81) -/
  sweep  : Nat
  got    : List (List Byte × Bool)
  seen   : Nat
  place  : Nat
  /-- KEY and RANK of a collective whose descriptor is valid (R339), and the own numbers of the landing entries that its A
  destination lay in when it began (R62) -/
  key    : Option (Nat × Nat)
  lands  : List Nat
deriving DecidableEq, Repr

/-- What one store left in an open batch window (R345): its bytes, as (A offset, byte), the P and POISON of each sector that it
wrote, and the number of the next binding when it was made. -/
structure Run where
  bytes : List (Nat × Byte)
  marks : List (Nat × Bool × Bool)
  since : Nat
deriving DecidableEq, Repr

/-- A source entry of the subscription tables (R343). -/
structure SrcEnt where
  lid   : Nat
  off   : Nat
  len   : Nat
  batch : Nat
  subs  : List (Nat × Nat)
  /-- open batch windows: line and what the stores wrote there, the newest first -/
  open_ : List (Nat × List Run)
deriving DecidableEq, Repr

/-- The state of a landing entry (R346); a FREE entry is absent, but for one whose `SUBS.SYNC` has bound at point S (R344) and
whose copy is on its way. -/
inductive LandSt where
  | live | held | lapsed | binding
deriving DecidableEq, Repr

/-- One binding of a landing entry, with a number of its own: its landing and its source region (R343). -/
structure Binding where
  bid   : Nat
  off   : Nat
  len   : Nat
  score : Nat
  soff  : Nat
deriving DecidableEq, Repr

/-- A landing entry (R343, R346): its number, the launch and the group that bound it, by its gang's placement, its own number from FREE to FREE, its
binding, and the binding of a `SUBS.SYNC` on the LAPSED entry whose copy is on its way. -/
structure LandEnt where
  n     : Nat
  lid   : Nat
  st    : LandSt
  place : Nat
  gid   : Nat
  eid   : Nat
  b     : Binding
  sync  : Option Binding
deriving DecidableEq, Repr

/-- A forwarded update on its way to a subscriber (R345): the bytes of one or more lines. -/
structure Upd where
  id    : Nat
  src   : Nat
  entry : Nat
  n     : Nat
  lid   : Nat
  /-- the binding that it is sent to -/
  bid   : Nat
  /-- (offset in the landing space, byte, P and POISON of its source sector) -/
  bytes : List (Nat × Byte × Bool × Bool)
deriving DecidableEq, Repr

/-- Refusals of a launch space since its last `SUBF.SRC` (R348). -/
structure Refd where
  lid      : Nat
  conflict : Nat
  refused  : Nat
deriving DecidableEq, Repr

/-- A pitch queue (R140): its consumer's number, group and name, its entries, and how its program ended
(none: it has not; code 0: normally). -/
structure PQ where
  bound   : Option (Nat × Nat × Nat)
  entries : List (List Reg)
  prog    : Nat
  ended   : Option (Nat × Nat)
deriving DecidableEq, Repr

def PQ.reset : PQ := ⟨none, [], 0, none⟩

/-- A pitcher program (R350, R351). -/
structure Prog where
  id     : Nat
  gid    : Nat
  uid    : Nat
  lix    : Nat
  lid    : Nat
  ctx    : Nat
  entry  : Nat
  iters  : Nat
  /-- `x0` to `x7` of the issuing thread -/
  init   : List Reg
  g      : List Reg
  fpctl  : CReg
  queues : List Nat
  taint  : Bool
  /-- iterations done, and instructions of this iteration (R351) -/
  done   : Nat
  count  : Nat
deriving DecidableEq, Repr

/-- A write refused by a closed granule (R169). -/
structure SideEnt where
  agent : Agent
  uid   : Nat
  lid   : Nat
  ctx   : Nat
  va    : Nat
  data  : List Byte
  p     : Bool
  /-- a proposal whose write to a settled-only page is refused, or a reduction that PSTOP checks (R226) -/
  ps    : Bool
  /-- the reduction to perform, for a `RED` (R168): format, control word and bytes -/
  red   : Option (Nat × Nat × Nat)
  /-- the data is poisoned (R174) -/
  poison : Bool
  /-- a release of its command: an arrival flag or a completion word (R338, R397) -/
  rel   : Bool
  /-- its replay was a violation: it is made again once its master is unfrozen (R81) -/
  stuck : Bool
deriving DecidableEq, Repr

/-- An entry of the retirement tracker (R107), and whether its group came there by the end of its last thread, and not by a
discard. -/
structure Track where
  uid   : Nat
  gid   : Nat
  lid   : Nat
  ended : Bool
deriving DecidableEq, Repr

/-- A monitor entry (R310): context, line key and when it was last armed. -/
structure Mon where
  ctx  : Nat
  line : Nat
  at_  : Nat
deriving DecidableEq, Repr

/-- A sweep in the clone-compare replay queue (R230): its group, its threads, and those of them whose check failed twice (R231). -/
structure Replay where
  gid  : Nat
  tids : List Nat
  bad  : List Nat
deriving DecidableEq, Repr

structure Core where
  spaces  : List Space
  huddles : List Huddle
  bins    : List Bin
  inq     : List Msg
  amRecs  : List AmRec
  tiles   : List Tile
  latches : List Latch
  xfers   : List Xfer
  cmds    : List Cmd
  engFrozen : List Nat
  srcs    : List SrcEnt
  lands   : List LandEnt
  upds    : List Upd
  refs    : List Refd
  pqs     : List PQ
  starts  : List Prog
  run     : Option Prog
  side    : List SideEnt
  /-- agents with a side-logged write that was refused or that conflicted at its replay, its address, and the trap code (R170,
  R182) -/
  sideRef : List (Agent × Nat × Nat)
  tracker : List Track
  mons    : List Mon
  replays : List Replay
  /-- the in-field scan runs (R239) -/
  scan    : Bool
  /-- the drain phase of its scan: placement skips the core until it is idle (R240); and its scan remains due (R241) -/
  drains  : Bool
  scanDue : Bool
  /-- first in line for the scan (R231) -/
  scanFirst : Bool
  /-- when the core was released, which is when `CYC` counted 0 (R108) -/
  released : Nat
  /-- a first touch waits for a block (R105) -/
  want    : Bool
deriving DecidableEq, Repr

/-- A core after power-on (R363, R316, R140). -/
def Core.reset : Core where
  spaces := []
  huddles := List.replicate 16 Huddle.reset
  bins := []
  inq := []
  amRecs := []
  tiles := List.replicate 4 Tile.reset
  latches := List.replicate 2 Latch.reset
  xfers := []
  cmds := []
  engFrozen := []
  srcs := []
  lands := []
  upds := []
  refs := []
  pqs := List.replicate 8 PQ.reset
  starts := []
  run := none
  side := []
  sideRef := []
  tracker := []
  mons := []
  replays := []
  scan := false
  drains := false
  scanDue := false
  scanFirst := false
  released := 0
  want := false

/-! ### Memory -/

/-- The side band of a sector (R171). -/
structure Band where
  tag    : Nat
  p      : Bool
  poison : Bool
deriving DecidableEq, Repr

def Band.reset : Band := ⟨0, false, false⟩

/-- Bytes by memory key, addresses strictly rising and no byte 0; side bands by sector number (key / 32), rising
and none at reset value. A byte that is not listed reads 0 (log entry 2). The keys: byte `p` of die `d` has key
`d·2^37 + p`; byte `o` of core `k`'s W buffer has `2^40 + k·2^24 + o`; byte `o` of block `b` of core `k`'s A
buffer has `2^41 + k·2^23 + b·2^16 + o`. -/
structure Memory where
  cells : List Host.Cell
  bands : List (Nat × Band)
deriving DecidableEq, Repr

def Memory.empty : Memory := ⟨[], []⟩

/-- An access in an open interval (R178): its agent, bytes, and whether it writes; the domain toward which it is
closed, as its number plus one (0: toward no agent), and the paths of its core toward which it is closed. -/
structure Iv where
  agent : Agent
  key   : Nat
  len   : Nat
  wr    : Bool
  dom   : Nat
  paths : List Path
deriving DecidableEq, Repr

/-- A cached translation of a slice (R162): context, die, page size 0 to 2, page number and the frame word. -/
structure Tlb where
  ctx  : Nat
  die  : Nat
  size : Nat
  vpn  : Nat
  frame : Nat
deriving DecidableEq, Repr

/-- A table of a die's descriptor block: base and log; a resize in progress has new ones (R155, R164). -/
structure Table where
  base : Nat
  log  : Nat
  new_ : Option (Nat × Nat)
deriving DecidableEq, Repr

/-- One die's part of the translation descriptor, as the slices hold it (R155), the counts of commands run and of
fault records written. -/
structure DieX where
  tables : List Table
  crbase : Nat
  crlog  : Nat
  ctailAt : Nat
  ran    : Nat
  frbase : Nat
  frlog  : Nat
  faults : Nat
deriving DecidableEq, Repr

/-- A closed granule (R167): die, granule number, its fault record, whether its record ended mapped or refused and it
waits for the side logs, the agents whose refused reads are held (R168), and the agents with a write that finds no room in the
side log (R169). -/
structure Gran where
  die     : Nat
  gran    : Nat
  rec_    : Nat
  mapped  : Bool
  denied  : Bool
  waiters : List Agent
  stalls  : List Agent
deriving DecidableEq, Repr

/-- The slices' copy of a context's descriptor (R156). -/
structure Xlat where
  savebase : Nat
  seed0    : Nat
  seed1    : Nat
  fvec     : Nat
  dies     : List DieX
  closed   : List Gran
  /-- held requests whose granule's record ended refused (R168): agent, and granule as 2^34·die + number -/
  refused  : List (Agent × Nat)
deriving DecidableEq, Repr

/-! ### Host interface -/

/-- A partition entry (R67). -/
structure Part where
  quadmask : Nat
  xlatReg  : Nat
  bound    : Bool
  drain    : Bool
  binderr  : Bool
  x        : Option Xlat
  lastq    : Nat
deriving DecidableEq, Repr

def Part.reset : Part := ⟨0, 0, false, false, false, none, 64⟩

/-- A hardware queue (R69), the launch in its stage (R85), the completion history, newest first (R74), and the
watchdog counter (R109). -/
structure Queue where
  ringbase : Nat
  enable   : Bool
  frozen   : Bool
  ovf      : Bool
  vector   : Nat
  priocap  : Nat
  ringlog  : Nat
  wdog     : Nat
  head     : Nat
  tail     : Nat
  stage    : Option Nat
  history  : List (Nat × Nat)
  counter  : Nat
deriving DecidableEq, Repr

def Queue.reset : Queue where
  ringbase := 0
  enable := false
  frozen := false
  ovf := false
  vector := 0
  priocap := 7
  ringlog := 4
  wdog := 0
  head := 0
  tail := 0
  stage := none
  history := []
  counter := 0

/-- A level entry (R72). -/
structure Level where
  extent : Nat
  scope  : Nat
  domain : Nat
deriving DecidableEq, Repr

/-- A role entry (R73). -/
structure Role where
  offset : Nat
  eclass : Nat
  groups : Nat
  regs   : Nat
  role   : Nat
deriving DecidableEq, Repr

/-- A predecessor entry (R74). -/
structure Pred where
  prid   : Nat
  pqueue : Nat
deriving DecidableEq, Repr

/-- The fields of a launch record (R71). -/
structure LFields where
  kind     : Nat
  irq      : Bool
  skipfail : Bool
  rlvl     : Nat
  prio     : Nat
  rid      : Nat
  entry    : Nat
  argp     : Nat
  arglen   : Nat
  wdog     : Nat
  cword    : Nat
  rsbase   : Nat
  rsdepth  : Nat
  levels   : List Level
  roles    : List Role
  preds    : List Pred
deriving DecidableEq, Repr

/-- A launch: a record that is staged, started, or in the device pool. -/
structure Launch where
  lid     : Nat
  ctx     : Nat
  /-- its queue, 64 for the device pool, and the queue that started it (R86) -/
  queue   : Nat
  srcq    : Nat
  f       : LFields
  /-- the record's address, for the freeze log -/
  addr    : Nat
  malformed : Bool
  prio    : Nat
  /-- launches it waits for (R74), and whether a predecessor did not complete DONE -/
  waits   : List Nat
  predFail : Bool
  started : Bool
  placed  : Nat
  passed  : Nat
  since   : Nat
  threads : Nat
  trapped : Nat
  fault   : Bool
deriving DecidableEq, Repr

/-- A thread of a held instance: whether it had ended, its restart PC and word (R103). -/
structure HeldThread where
  life : Life
  pc   : Nat
  word : Reg
deriving DecidableEq, Repr

/-- A group of a held instance. -/
structure HeldGroup where
  gid     : Nat
  role    : Nat
  regs    : Nat
  eclass  : Nat
  gang    : Nat
  entry   : Nat
  threads : List HeldThread
deriving DecidableEq, Repr

/-- A held instance (R103). -/
structure Held where
  lid    : Nat
  ctx    : Nat
  gang   : Nat
  passed : Nat
  groups : List HeldGroup
  /-- when its gang was placed, and its instance number (R102) -/
  place  : Nat
  inst   : Nat
deriving DecidableEq, Repr

/-- An entry of the freeze log (R80). -/
structure Freeze where
  slot   : Nat
  master : Nat
  ctx    : Nat
  cause  : Nat
  seq    : Nat
  core   : Nat
  unit   : Nat
  addr   : Nat
deriving DecidableEq, Repr

/-! ### Device -/

/-- A Ryuzin link (R29 to R32). -/
inductive LinkSt where
  | untrained | trained | retraining | fenced | frozen
deriving DecidableEq, Repr

/-- A voltage domain: steps above the floor, its undervolt lock, the counts of its arrays in their windows, and the arrays whose
monitor has overridden in its window (R236, R237). -/
structure Domain where
  dom    : Nat
  steps  : Nat
  lock   : Bool
  counts : List (Nat × Nat)
  told   : List Nat
deriving DecidableEq, Repr

/-- A message that left the part (R46): over the Ryuzin link that its hash chose (R45), or through the host port (none). An
active message has its destination core and its message; a write into a core's A buffer names that core, as 256·device + core,
and its address is the A offset. -/
structure OutMsg where
  link : Option Nat
  ctx  : Nat
  va   : Nat
  data : List Byte
  p    : Bool
  amsg : Option (Nat × Msg)
  core : Option Nat
deriving DecidableEq, Repr

/-- An answer of the Nerard controller (R83): which answer, and its words. -/
structure Reply where
  kind : Nat
  data : List Nat
deriving DecidableEq, Repr

/-- A request that a Ryuzin link holds, or that ended with the link (R32, R81): the link, the agent and the line. -/
structure LinkReq where
  link  : Nat
  agent : Agent
  line  : Nat
deriving DecidableEq, Repr

structure Device where
  /-- stage 1 of power-on failed: the device does not enumerate (R33) -/
  silent    : Bool
  pod       : Nat
  identity  : Bool
  manifest  : Manifest
  pendingUpdate : Option Manifest
  safe      : Bool
  ready     : Bool
  stage     : Nat
  mail      : List Nat
  /-- physical cores (64·die + core) whose column and logic passed, and whose column passed -/
  usable    : List Nat
  columns   : List Nat
  /-- logical core and its physical core; a number that is not listed is vacant -/
  coreMap   : List (Nat × Nat)
  links     : List LinkSt
  fenced    : Bool
  hot       : List Nat
  limitW    : Nat
  /-- `PWRH`.HDRM by quad, 16·die + quad; a quad that is not listed has 0 -/
  hdrm      : List (Nat × BitVec 8)
  domains   : List Domain
  events    : List Nat
  msix      : List Nat
  replies   : List Reply
  outbox    : List OutMsg
  /-- requests held for a link that retrains or is frozen, and requests that ended with their link (R32, R81) -/
  linkHeld  : List LinkReq
  linkLost  : List LinkReq
  /-- what arrived at a port that holds its traffic, in its order: requests and active messages (R32, R81) -/
  linkIn    : List (Nat × Instr)
  /-- messages of this device that a link holds, in their order: answers, and writes that nothing makes again (R32, R81) -/
  linkOut   : List OutMsg
  /-- agents whose next answer over the fabric has an uncorrectable flit (R49) -/
  flits     : List Agent
  upsets    : List Upset
deriving DecidableEq, Repr

/-- An element of a contribution or partial (R56): FP32 bits, or the integer of exact mode with a flag for an infinite
or NaN element, and its P. -/
structure CVal where
  v   : Int
  bad : Bool
  p   : Bool
deriving DecidableEq, Repr

/-- A partial of a fast sum: the ranks joined in it, and its elements (R57). -/
structure Part1 where
  ranks : List Nat
  vals  : List CVal
deriving DecidableEq, Repr

/-- A participant of a collective (R339): its rank, its header, its participant table, the core and the number of its
command (none on another device), the STAT counts of its own contribution, its wire elements, when its bound ends,
whether its delivery has been made or refused, whether its command has ended, and its destination and the bytes of it. -/
structure Member where
  rank   : Nat
  hdr    : List Int
  table  : List Nat
  core   : Nat
  cmd    : Option Nat
  sat    : Nat
  nan    : Nat
  uf     : Nat
  src    : List CVal
  until_ : Nat
  got    : Bool
  ended  : Bool
  dsp    : Spc
  daddr  : Nat
  dlen   : Nat
deriving DecidableEq, Repr

/-- A collective in progress (R339 to R341), with the deliveries that were refused (R62). -/
structure Coll where
  id      : Nat
  ctx     : Nat
  key     : Nat
  members : List Member
  parts   : List Part1
  refused : Nat
deriving DecidableEq, Repr

/-! ### The model's own fields (log entry 1) -/

/-- What one sweep has gathered so far; empty between steps. -/
structure Sweep where
  /-- (thread, code, TADDR), (thread, cause, address) -/
  traps : List (Nat × Nat × Nat)
  viols : List (Nat × Nat × Nat)
  /-- threads held at a load, threads that stay to issue the instruction again, threads that have moved -/
  holds : List Nat
  stays : List Nat
  moved : List Nat
  flags : Nat
  /-- `SYSC` starts its handler at TRAPVEC + 64 (R295) -/
  sysc  : Bool
  /-- the sweep ends the path's turn (R126) -/
  yield : Bool
  /-- elements popped from pitch queues (R141) -/
  pops  : List (Nat × List Reg)
  /-- accesses of the sweep, which do not conflict with one another (R181) -/
  ivs   : List Iv
  /-- threads held at a load or an atomic with a result, threads held at an operation that writes a register, and for each thread
  that is held or stays the one whose request is held (R122) -/
  loads : List Nat
  regs  : List Nat
  leads : List (Nat × Nat)
  /-- threads whose trap has used up its cause, which would not raise it again (R144) -/
  firm  : List Nat
deriving DecidableEq, Repr

def Sweep.reset : Sweep := ⟨[], [], [], [], [], 0, false, false, [], [], [], [], [], []⟩

/-- The instruction that issues: group, the threads of the path, the active ones among them, place, words and
literals. -/
structure Cur where
  gid   : Nat
  path  : List Nat
  mask  : List Nat
  pos   : Pos
  /-- address of the first word of the instruction, and of the header after the clause -/
  iaddr : Nat
  nextHdr : Nat
  /-- number of instructions of the clause; its switch markers -/
  n     : Nat
  sw    : Nat
  w     : Word
  u     : Word
  /-- literal words by field: 0 D, 1 A, 2 B, 3 C, 4 offset, 5 reconvergence (R246) -/
  lits  : List (Nat × Word)
  ioff  : Int
  /-- the sweep replays a held instruction (R145) -/
  rep   : Bool
deriving DecidableEq, Repr

def Cur.reset : Cur := ⟨0, [], [], ⟨0, 0⟩, 0, 0, 0, 0, 0#32, 0#32, [], 0, false⟩

structure State where
  dev    : Device
  parts  : List Part
  /-- 64·partition + queue; a queue that is not listed is at reset -/
  queues : List (Nat × Queue)
  flog   : List Freeze
  flogSeq : Nat
  logovf : Bool
  launches : List Launch
  helds  : List Held
  mem    : Memory
  tlb    : List Tlb
  ivs    : List Iv
  /-- home groups by 512·core + 4·lix + slot; the pitcher program of core k by 122880 + k -/
  groups : List (Nat × Group)
  /-- cores by logical number; a core that is not listed is at reset -/
  cores  : List (Nat × Core)
  colls  : List Coll
  agenda : List Instr
  cur    : Cur
  sweep  : Sweep
  now    : Nat
  free   : Nat
  nextId : Nat
deriving DecidableEq, Repr

/-- The launch number that stands for the active-message space of a context. -/
def messageLid (ctx : Nat) : Nat := 2 ^ 32 + ctx

/-- The manifest's values after reset (log entry 3). -/
def Manifest.reset : Manifest := ⟨true, 1600, List.replicate 18 true, 0, 16, 24, 0⟩

/-- The part right after a power-on in which every unit passed, no Ryuzin link trained (log entry 3). -/
def Device.reset : Device where
  silent := false
  pod := 0
  identity := true
  manifest := Manifest.reset
  pendingUpdate := none
  safe := false
  ready := true
  stage := 9
  mail := []
  usable := List.range 256
  columns := List.range 256
  coreMap := (List.range 240).map fun n => (n, 64 * (n / 60) + n % 60)
  links := List.replicate 18 LinkSt.untrained
  fenced := false
  hot := []
  limitW := 1600
  hdrm := []
  domains := []
  events := []
  msix := []
  replies := []
  outbox := []
  linkHeld := []
  linkLost := []
  linkIn := []
  linkOut := []
  flits := []
  upsets := []

/-- The machine right after reset. -/
def State.reset : State where
  dev := Device.reset
  parts := List.replicate 16 Part.reset
  queues := []
  flog := []
  flogSeq := 0
  logovf := false
  launches := []
  helds := []
  mem := Memory.empty
  tlb := []
  ivs := []
  groups := []
  cores := []
  colls := []
  agenda := []
  cur := Cur.reset
  sweep := Sweep.reset
  now := 0
  free := 0
  nextId := 0

/-- What every meaning answers. -/
abbrev Out := Host.Outcome State Fault Refusal

end Sys2Proof.Machine
end

