-- ==== Sys2Proof/Machine/Memory.lean ====
section
/-! DEFINITION. Tables by number, byte order, and the memory of bytes and side bands (R4, R146, R171 to R174). -/

namespace Sys2Proof.Machine

open Sys2Proof

/-! ### Tables -/

/-- The value at a key, or the default. -/
def kget {α : Type} (d : α) : List (Nat × α) → Nat → α
  | [], _ => d
  | (k, v) :: m, n => if k = n then v else kget d m n

/-- The value at a key, if listed. -/
def kfind {α : Type} : List (Nat × α) → Nat → Option α
  | [], _ => none
  | (k, v) :: m, n => if k = n then some v else kfind m n

/-- Sets the value at a key; keys stay rising. -/
def kset {α : Type} : List (Nat × α) → Nat → α → List (Nat × α)
  | [], n, v => [(n, v)]
  | (k, w) :: m, n, v => if n < k then (n, v) :: (k, w) :: m else if k = n then (n, v) :: m else (k, w) :: kset m n v

/-- Removes a key. -/
def kdel {α : Type} (m : List (Nat × α)) (n : Nat) : List (Nat × α) := m.filter fun e => e.1 ≠ n

/-! ### Byte order (R4) -/

/-- The number that little-endian bytes hold. -/
def leNat : List Byte → Nat
  | [] => 0
  | b :: bs => b.toNat + 256 * leNat bs

/-- The n little-endian bytes of a number. -/
def leBytes : Nat → Nat → List Byte
  | 0, _ => []
  | n + 1, v => BitVec.ofNat 8 v :: leBytes n (v / 256)

/-! ### Memory -/

/-- A byte of the cell list; one that is not listed reads 0 (log entry 2). -/
def cellAt : List Host.Cell → Nat → Byte
  | [], _ => 0#8
  | (k, b) :: m, a => if k = a then b else cellAt m a

/-- The byte at a memory key. -/
def Memory.byte (m : Memory) (a : Nat) : Byte := cellAt m.cells a

/-- n bytes from a key. -/
def Memory.read (m : Memory) (a n : Nat) : List Byte := (List.range n).map fun i => m.byte (a + i)

/-- The little-endian number of n bytes at a key. -/
def Memory.num (m : Memory) (a n : Nat) : Nat := leNat (m.read a n)

/-- The cells of bytes placed from a key; zero bytes are not listed. -/
def cellsOf : Nat → List Byte → List Host.Cell
  | _, [] => []
  | a, b :: bs => if b = 0#8 then cellsOf (a + 1) bs else (a, b) :: cellsOf (a + 1) bs

/-- The cell list after n bytes from a key have been replaced. -/
def cellsPut (m : List Host.Cell) (a n : Nat) (new : List Host.Cell) : List Host.Cell :=
  m.filter (fun c => c.1 < a) ++ new ++ m.filter (fun c => a + n ≤ c.1)

/-- Writes bytes from a key; the side bands stand. -/
def Memory.write (m : Memory) (a : Nat) (bs : List Byte) : Memory :=
  { m with cells := cellsPut m.cells a bs.length (cellsOf a bs) }

def bandAt : List (Nat × Band) → Nat → Band
  | [], _ => Band.reset
  | (k, b) :: m, n => if k = n then b else bandAt m n

/-- The side band of a sector. -/
def Memory.band (m : Memory) (sec : Nat) : Band := bandAt m.bands sec

/-- Sets the side band of a sector; a band at its reset value is not listed. -/
def Memory.setBand (m : Memory) (sec : Nat) (b : Band) : Memory :=
  { m with bands := m.bands.filter (fun e => e.1 < sec) ++ (if b = Band.reset then [] else [(sec, b)])
      ++ m.bands.filter (fun e => sec < e.1) }

/-- The sectors that n bytes at a key touch. -/
def sectors (a n : Nat) : List Nat :=
  if n = 0 then [] else (List.range ((a + n - 1) / 32 - a / 32 + 1)).map fun i => a / 32 + i

/-- Bytes [a, a+n) cover the whole sector. -/
def covers (a n sec : Nat) : Bool := a ≤ 32 * sec && 32 * sec + 32 ≤ a + n

/-- R173, R174: the side band of a touched sector after a write of P = p; `tag` is the tag it takes (R172) and
`poison` marks the data as poisoned (R49). -/
def Band.put (b : Band) (full p poison : Bool) (tag : Nat) : Band :=
  ⟨tag, p || (!full && b.p), poison || (!full && b.poison)⟩

/-- Writes bytes with their P: every touched sector follows R173 and R174. -/
def Memory.store (m : Memory) (a : Nat) (bs : List Byte) (p poison : Bool) (tag : Nat) : Memory :=
  (sectors a bs.length).foldl
    (fun m sec => m.setBand sec ((m.band sec).put (covers a bs.length sec) p poison tag)) (m.write a bs)

/-- Some touched sector carries P. -/
def Memory.anyP (m : Memory) (a n : Nat) : Bool := (sectors a n).any fun sec => (m.band sec).p

/-- Some touched sector is poisoned. -/
def Memory.anyPoison (m : Memory) (a n : Nat) : Bool := (sectors a n).any fun sec => (m.band sec).poison

/-- Every touched sector carries the tag. -/
def Memory.tagsAre (m : Memory) (a n tag : Nat) : Bool := (sectors a n).all fun sec => (m.band sec).tag = tag

/-- n bytes from a sector-aligned key become settled zero, with side bands at reset. -/
def Memory.clear (m : Memory) (a n : Nat) : Memory :=
  ⟨cellsPut m.cells a n [], m.bands.filter fun e => e.1 < a / 32 || (a + n) / 32 ≤ e.1⟩

/-- Copies n sectors with their side bands (R105, R106, R165). -/
def Memory.moveSectors (m : Memory) (src dst n : Nat) : Memory :=
  (List.range n).foldl (fun m i => (m.write (dst + 32 * i) (m.read (src + 32 * i) 32)).setBand (dst / 32 + i)
    (m.band (src / 32 + i))) m

/-- Keys rise strictly. -/
def rising {α : Type} : List (Nat × α) → Bool
  | [] => true
  | [_] => true
  | a :: b :: m => a.1 < b.1 && rising (b :: m)

/-- The canonical form: keys rise, and nothing listed equals what an unlisted key reads as. -/
def Memory.wf (m : Memory) : Bool :=
  rising m.cells && m.cells.all (fun c => c.2 ≠ 0#8) && rising m.bands && m.bands.all (fun b => b.2 ≠ Band.reset)

/-! ### Keys (R146, R152) -/

def globalKey (die pa : Nat) : Nat := die * 2 ^ 37 + pa
def wKey (core off : Nat) : Nat := 2 ^ 40 + core * 2 ^ 24 + off
def aKey (core blk off : Nat) : Nat := 2 ^ 41 + core * 2 ^ 23 + blk * 2 ^ 16 + off

end Sys2Proof.Machine
end

