-- ==== Sys2Proof/Machine/Ops.lean ====
section
/-! DEFINITION. The named operations over the state: cores, groups, threads and registers (R121, R132, R138), the
freeze log and notices (R80), intervals (R178 to R184), taking a trap and returning from one (R144), and the end of
a sweep. -/

namespace Sys2Proof.Machine

open Sys2Proof

/-! ### Cores, groups and threads -/

def State.core (s : State) (k : Nat) : Core := kget Core.reset s.cores k
def State.setCore (s : State) (k : Nat) (c : Core) : State := { s with cores := kset s.cores k c }
def State.updCore (s : State) (k : Nat) (f : Core → Core) : State := s.setCore k (f (s.core k))

/-- A thread that is not there. -/
def Thread.absent : Thread where
  life := .inactive
  pos := ⟨0, 0⟩
  gact := false
  gp := false
  gbp := false
  x := []
  pr := []
  dead := []
  taint := []
  ret := []
  spilled := 0
  region := ⟨true, 0, Reg.zero⟩
  watch := none
  loop := none
  saved := none
  savedGp := false
  savedGbp := false
  savedGact := false
  gen := 1#32
  held := false
  replay := false
  heldBy := 0
  ldNo := none
  heldReg := false
  stays := false
  popped := []
  owed := none
  done := false
  last := 0

/-- A thread at its first instruction (R115). -/
def Thread.start (entry : Nat) (gen : BitVec 32) : Thread :=
  { Thread.absent with
    life := .live, pos := ⟨entry, 0⟩, gact := true, x := List.replicate 80 Reg.zero,
    pr := List.replicate 8 PReg.zero, region := ⟨true, entry, Reg.zero⟩, gen := gen }

/-- A group that is not there. -/
def Group.absent : Group where
  uid := 0
  core := 0
  lix := 0
  slot := 0
  lid := 0
  ctx := 0
  kind := .spawned
  role := 0
  regs := 0
  eclass := 0
  frozen := false
  toFreeze := none
  threads := []
  g := []
  ctl := Ctl.reset
  pend := []
  parks := []
  gpark := none
  clauses := []
  tags := []
  deferred := []
  turnAt := none
  turn := 0
  turnLast := 0
  holdNo := 0
  last := 0
  rank := .normal
  again := true
  entry := 0
  marked := none
  argsDue := false
  place := 0
  inst := 0
  trapHdr := none

def State.grp (s : State) (gid : Nat) : Group := kget Group.absent s.groups gid
def State.hasGrp (s : State) (gid : Nat) : Bool := (kfind s.groups gid).isSome
def State.setGrp (s : State) (gid : Nat) (g : Group) : State := { s with groups := kset s.groups gid g }
def State.updGrp (s : State) (gid : Nat) (f : Group → Group) : State :=
  match kfind s.groups gid with
  | some g => s.setGrp gid (f g)
  | none => s

def Group.thr (g : Group) (t : Nat) : Thread := g.threads.getD t Thread.absent
def Group.setThr (g : Group) (t : Nat) (x : Thread) : Group := { g with threads := g.threads.set t x }
def Group.updThr (g : Group) (t : Nat) (f : Thread → Thread) : Group := g.setThr t (f (g.thr t))
def State.thr (s : State) (gid t : Nat) : Thread := (s.grp gid).thr t
def State.updThr (s : State) (gid t : Nat) (f : Thread → Thread) : State := s.updGrp gid fun g => g.updThr t f

/-- Number of a home group from its place (R113). -/
def gidOf (core lix slot : Nat) : Nat := 512 * core + 4 * lix + slot

/-- Number of the pitcher program of a core (R139). -/
def pitchGid (core : Nat) : Nat := 122880 + core

/-- The group that issues. -/
def State.cg (s : State) : Group := s.grp s.cur.gid

/-- The agent of a thread (R177). -/
def State.agent (s : State) (gid t : Nat) : Agent :=
  let g := s.grp gid
  match g.kind with
  | .pitcher => ⟨.P, g.core, gid, g.uid⟩
  | _ => ⟨.T, g.core, gid, t⟩

/-- Live threads of a group. -/
def Group.liveTids (g : Group) : List Nat := (List.range 16).filter fun t => (g.thr t).life = .live

/-! ### Launches and scopes -/

def State.launch? (s : State) (lid : Nat) : Option Launch := s.launches.find? fun l => l.lid = lid
def State.updLaunch (s : State) (lid : Nat) (f : Launch → Launch) : State :=
  { s with launches := s.launches.map fun l => if l.lid = lid then f l else l }

def State.levels (s : State) (lid : Nat) : List Level :=
  match s.launch? lid with
  | some l => l.f.levels
  | none => []

/-- R179: the scope domain of an operand level, or of the outermost valid level; a level that is not valid has
none. A group whose launch has no levels takes pod scope by default (log entry 6). -/
def State.scopeDom (s : State) (lid : Nat) (lvl : Option Nat) : Option Nat :=
  let ls := s.levels lid
  match lvl with
  | some n => (ls[n]?).map Level.scope
  | none => match ls.getLast? with
    | some l => some l.scope
    | none => some 7

/-- The physical core under a logical core, as 64·die + core (R22); a vacant number has none. -/
def State.phys (s : State) (core : Nat) : Option Nat := kfind s.dev.coreMap core
def dieOf (core : Nat) : Nat := core / 60

/-! ### Registers -/

/-- The P that every result of a thread takes: its path taint and its clause guard (R221, R225). -/
def Group.ambient (g : Group) (t : Nat) : Bool := !(g.thr t).taint.isEmpty || (g.thr t).gp

/-- The P of a uniform result: any active thread's (R122). -/
def Group.ambientAny (g : Group) (tids : List Nat) : Bool := tids.any g.ambient

/-- The pending write that covers a register, newest last (R121). -/
def Group.pendOn (g : Group) (t c : Nat) : Option Pend :=
  (g.pend.filter fun p => (80 ≤ c || p.tix = t) && p.win.isNone && p.code ≤ c && c < p.code + p.regs.length).getLast?

/-- The register as it stands: an x register of the thread, or a g register. -/
def Group.settled (g : Group) (t c : Nat) : Reg :=
  if c < 80 then (g.thr t).x.getD c Reg.zero else g.g.getD (c - 80) Reg.zero

/-- R121: a register with a pending write reads as its old or its new value, a free choice (log entry 4). -/
def Group.readReg (g : Group) (free t c : Nat) : Reg :=
  match g.pendOn t c with
  | some p => if Config.pendingRead free t p.code then p.regs.getD (c - p.code) Reg.zero else g.settled t c
  | none => g.settled t c

/-- Sets a register's value; a write revives a dead register (R138). -/
def Group.putReg (g : Group) (t c : Nat) (r : Reg) : Group :=
  if c < 80 then g.updThr t fun x => { x with x := x.x.set c r, dead := x.dead.filter (· ≠ c) }
  else { g with g := g.g.set (c - 80) r }

/-- A fixed-latency write: it also marks a write pending on the register as overtaken (R121). -/
def Group.writeReg (g : Group) (t c : Nat) (r : Reg) : Group :=
  let g' := g.putReg t c r
  { g' with pend := g'.pend.map fun p =>
      if (80 ≤ c || p.tix = t) && p.win.isNone && p.code ≤ c && c < p.code + p.regs.length
      then { p with beaten := c :: p.beaten } else p }

def Group.readPred (g : Group) (t n : Nat) : PReg := (g.thr t).pr.getD n PReg.zero
def Group.writePred (g : Group) (t n : Nat) (r : PReg) : Group := g.updThr t fun x => { x with pr := x.pr.set n r }

/-- The register is dead for its thread (R138). -/
def Group.isDead (g : Group) (t c : Nat) : Bool := c < 80 && (g.thr t).dead.contains c

/-- Fields of control registers. -/
def CReg.n (c : CReg) : Nat := c.v.toNat
def Ctl.trapd (c : Ctl) : Bool := c.deadm.n % 2 = 1
def Ctl.rm (c : Ctl) : Nat := c.fpctl.n % 8
def Ctl.ten (c : Ctl) : Nat := c.fpctl.n / 2 ^ 11 % 32
def Ctl.flg (c : Ctl) : Nat := c.fpctl.n / 8 % 32
def Ctl.seed (c : Ctl) : Nat := c.fpctl.n / 2 ^ 16 % 2 ^ 16
def Ctl.pbrt (c : Ctl) : Bool := c.pctl.n % 2 = 1
def Ctl.pstop (c : Ctl) : Bool := c.pctl.n / 2 % 2 = 1
def Ctl.divst (c : Ctl) : Bool := c.pctl.n / 4 % 2 = 1
def Ctl.inh (c : Ctl) : Bool := c.tcause.n / 2 ^ 31 % 2 = 1
def Ctl.base (c : Ctl) (n : Nat) : Nat := (c.wbase.getD n (CReg.of 0)).n / 4 % 2 ^ 21
def Ctl.len (c : Ctl) (n : Nat) : Nat := (c.wlen.getD n (CReg.of 0)).n / 4 % 2 ^ 22
def Ctl.winP (c : Ctl) (n : Nat) : Bool := (c.wbase.getD n (CReg.of 0)).p || (c.wlen.getD n (CReg.of 0)).p

/-- R207: flags join FLG. -/
def Ctl.raise (c : Ctl) (f : Nat) : Ctl :=
  let n := c.fpctl.n
  { c with fpctl := ⟨BitVec.ofNat 64 (n / 256 * 256 + (n / 8 % 32 ||| f) * 8 + n % 8), c.fpctl.p⟩ }

/-- The seed of a stochastic generator (R208). -/
def genSeed (seed lix tix : Nat) : BitVec 32 :=
  let g := BitVec.ofNat 32 (seed * 2 ^ 16 ||| lix * 16 ||| tix) ^^^ 0x6A09E667#32
  if g = 0#32 then 1#32 else g

/-- One draw: the next state, whose high half is u (R208). -/
def genNext (g : BitVec 32) : BitVec 32 :=
  let g := g ^^^ (g <<< 13)
  let g := g ^^^ (g >>> 17)
  g ^^^ (g <<< 5)
def genU (g : BitVec 32) : Nat := g.toNat / 2 ^ 16

/-- Every thread of a group is seeded anew (R208). -/
def Group.reseed (g : Group) : Group :=
  { g with threads := (List.range 16).map fun t => { g.thr t with gen := genSeed g.ctl.seed g.lix t } }

/-! ### Notices -/

def State.signal (s : State) (v : Nat) : State := { s with dev := { s.dev with msix := s.dev.msix ++ [v] } }

/-- R37, R398: a mailbox entry; past 64 none is written. A change of the mailbox signals vector 0 (R64). -/
def State.mailEntry (s : State) (w : Nat) : State :=
  if s.dev.mail.length < 64 then ({ s with dev := { s.dev with mail := s.dev.mail ++ [w] } } : State).signal 0 else s

def mailWord (kind die index reason : Nat) : Nat := kind * 2 ^ 28 + die * 2 ^ 26 + index * 2 ^ 16 + reason * 2 ^ 8

/-- R238: a reliability event. -/
def State.reliability (s : State) (w : Nat) : State := { s with dev := { s.dev with events := s.dev.events ++ [w] } }

/-- The event data word of R238; `phys` is a physical core, as 64·die + core. -/
def relWord (kind phys array steps count : Nat) : Nat :=
  kind * 2 ^ 28 + phys / 64 * 2 ^ 26 + phys % 64 * 2 ^ 20 + array * 2 ^ 16 + min steps 255 * 2 ^ 8 + min count 255

/-! ### Code words (R171) -/

/-- The voltage domain above a physical core (R236); one that was never changed is at nominal. -/
def Device.domain (d : Device) (dom : Nat) : Domain :=
  (d.domains.find? fun x => x.dom = dom).getD ⟨dom, d.manifest.floor, false, [], []⟩
def Device.setDomain (d : Device) (x : Domain) : Device :=
  { d with domains := x :: d.domains.filter fun y => y.dom ≠ x.dom }

/-- An array's monitor counts a corrected error (R236). -/
def Device.count (d : Device) (dom array : Nat) : Device :=
  let x := d.domain dom
  d.setDomain { x with counts := kset x.counts array (kget 0 x.counts array + 1) }

/-- The physical core, as 64·die + core, whose SRAM column holds a key: near memory of a die, or a core's A or W buffer. LP6
memory has none. -/
def State.columnOf (s : State) (key : Nat) : Option Nat :=
  if 2 ^ 41 ≤ key then s.phys ((key - 2 ^ 41) / 2 ^ 23)
  else if 2 ^ 40 ≤ key then s.phys ((key - 2 ^ 40) / 2 ^ 24)
  else if key % 2 ^ 37 < 0xA0000000 then some (64 * (key / 2 ^ 37) + key % 2 ^ 37 / 0x2800000)
  else none

def Memory.poisonSector (m : Memory) (sec : Nat) : Memory := m.setBand sec { m.band sec with poison := true }

/-- R171: what the code word of one sector does at a read. -/
def State.upset (s : State) (u : Upset) : State :=
  let col := s.columnOf (32 * u.sector)
  match u.synd with
  | 1 => match col with
    | some c => { s with dev := s.dev.count c u.array }
    | none => s
  | 2 => ({ s with mem := s.mem.poisonSector u.sector } : State).reliability
      (relWord 2 (col.getD (64 * (32 * u.sector / 2 ^ 37))) 0 0 0)
  | 3 => { s with mem := s.mem.poisonSector u.sector }
  | _ => s

/-- R171: a read classifies the code words of its sectors, in every space. -/
def State.classify (s : State) (key len : Nat) : State :=
  let hit := fun (u : Upset) => (sectors key len).contains u.sector
  if !s.dev.upsets.any hit then s
  else
    let us := s.dev.upsets.filter hit
    us.foldl State.upset { s with dev := { s.dev with upsets := s.dev.upsets.filter fun u => !hit u } }

/-! ### The freeze log -/

/-- R80: a violation is logged in the lowest invalid slot and signalled on vector 0; a full log sets LOGOVF. A
partition whose kill has begun logs nothing (R82); its DRAIN and its lack of groups then tell it. DESIGN CHOICE (log entry 75): the
SEQ of the first entry after reset is 0. -/
def State.logFreeze (s : State) (master ctx cause core unit addr : Nat) : State :=
  let s := s.signal 0
  match (List.range 64).find? (fun i => s.flog.all fun e => e.slot ≠ i) with
  | some i => { s with flog := s.flog ++ [⟨i, master, ctx, cause, s.flogSeq % 2 ^ 16, core, unit, addr⟩], flogSeq := s.flogSeq + 1 }
  | none => { s with logovf := true }

/-! ### Intervals (R178 to R184) -/

def quadOf (s : State) (core : Nat) : Nat := (s.phys core).getD 0 / 4

/-- The number under which agents of another device stand here: of the core that a request of theirs names (R179). -/
def farCore (core : Nat) : Nat := 2 ^ 16 + core

/-- R179: agent y lies within scope domain d of agent x; those of another device lie in no scope within the package. The number of
a group that has left its slot keeps its place in the low 21 bits (`ghost`). -/
def withinDom (s : State) (d : Nat) (x y : Agent) : Bool :=
  match d with
  | 0 => x = y
  | 1 => x.gid = y.gid
  | 2 => x.core = y.core && x.gid % 2 ^ 21 / 4 = y.gid % 2 ^ 21 / 4
  | 3 => x.core = y.core
  | 4 => x.core / 2 ^ 8 = y.core / 2 ^ 8 && dieOf x.core = dieOf y.core && quadOf s x.core = quadOf s y.core
  | 5 => x.core / 2 ^ 8 = y.core / 2 ^ 8 && dieOf x.core = dieOf y.core
  | 6 => x.core / 2 ^ 8 = y.core / 2 ^ 8
  | _ => true

/-- R180: an interval is still open toward an agent. Within one core a thread's interval is closed toward an engine
agent only by `FENCEX`. -/
def Iv.openTo (s : State) (iv : Iv) (y : Agent) : Bool :=
  if iv.agent.path = .T && y.path ≠ .T && iv.agent.core = y.core then !iv.paths.contains y.path
  else iv.dom = 0 || !withinDom s (iv.dom - 1) iv.agent y

/-- R181, R182: an access meets another agent's open interval. -/
def Iv.meets (s : State) (iv : Iv) (y : Agent) (key len : Nat) (wr : Bool) : Bool :=
  iv.agent ≠ y && (wr || iv.wr) && iv.key < key + len && key < iv.key + iv.len && iv.openTo s y

def State.conflicts (s : State) (y : Agent) (key len : Nat) (wr : Bool) : Bool :=
  s.ivs.any fun iv => iv.meets s y key len wr

/-- An interval of an agent that has ended at a scope domain (R180). -/
def Iv.close (iv : Iv) (a : Agent) (dom : Nat) : Iv := if iv.agent = a then { iv with dom := max iv.dom (dom + 1) } else iv

/-- R180: ends an agent's interval at a scope domain, with the accesses that the agent has made in this sweep (R178). -/
def State.closeIv (s : State) (a : Agent) (dom : Nat) : State :=
  { s with
    ivs := s.ivs.map fun iv => iv.close a dom
    sweep := { s.sweep with ivs := s.sweep.ivs.map fun iv => iv.close a dom } }

/-- R183: the agents whose open intervals a synchronising operation meets. -/
def State.metBy (s : State) (y : Agent) (key len : Nat) : List Agent :=
  (s.ivs.filter fun iv => iv.meets s y key len true).map Iv.agent

/-- R183: a synchronising operation that touches open intervals first ends them. -/
def State.endMet (s : State) (y : Agent) (key len : Nat) : State :=
  let met := s.metBy y key len
  { s with ivs := s.ivs.map fun iv => if met.contains iv.agent then { iv with dom := 8 } else iv }

/-- The intervals of an agent are gone, with the accesses just made: an engine agent's completion, `TAIL`, a discard,
freeze or kill. -/
def State.dropIvs (s : State) (f : Agent → Bool) : State :=
  { s with
    ivs := s.ivs.filter fun iv => !f iv.agent
    sweep := { s.sweep with ivs := s.sweep.ivs.filter fun iv => !f iv.agent } }

/-- Records an access of a sweep; it joins the intervals at the sweep's end (R181). -/
def State.noteIv (s : State) (a : Agent) (key len : Nat) (wr : Bool) : State :=
  { s with sweep := { s.sweep with ivs := ⟨a, key, len, wr, 0, []⟩ :: s.sweep.ivs } }

/-! ### What happens to the threads of a sweep -/

def State.trap (s : State) (t code addr : Nat) : State :=
  { s with sweep := { s.sweep with traps := (t, code, addr) :: s.sweep.traps } }
def State.trapAll (s : State) (tids : List Nat) (code addr : Nat) : State :=
  { s with sweep := { s.sweep with traps := (tids.map fun t => (t, code, addr)) ++ s.sweep.traps } }
def State.violAll (s : State) (tids : List Nat) (cause addr : Nat) : State :=
  { s with sweep := { s.sweep with viols := (tids.map fun t => (t, cause, addr)) ++ s.sweep.viols } }
/-- Threads are fault-held (R145): at a load or an atomic with a result, which `TMASK`.HOLD records (`ld`), and at an
operation that writes a register, which a marker waits for (`reg`, R119). -/
def State.holdAll (s : State) (tids : List Nat) (ld reg : Bool) : State :=
  { s with sweep := { s.sweep with
    holds := tids ++ s.sweep.holds
    loads := (if ld then tids else []) ++ s.sweep.loads
    regs := (if reg then tids else []) ++ s.sweep.regs
    leads := tids.map (fun t => (t, tids.headD 0)) ++ s.sweep.leads } }
/-- Threads stay at the instruction; a request of theirs that a link holds is that of the first (R122). -/
def State.stayAll (s : State) (tids : List Nat) : State :=
  { s with sweep := { s.sweep with
    stays := tids ++ s.sweep.stays
    leads := tids.map (fun t => (t, tids.headD 0)) ++ s.sweep.leads } }
def State.movedAll (s : State) (tids : List Nat) : State :=
  { s with sweep := { s.sweep with moved := tids ++ s.sweep.moved } }
def State.raiseFlags (s : State) (f : Nat) : State := { s with sweep := { s.sweep with flags := s.sweep.flags ||| f } }
def State.endTurn (s : State) : State := { s with sweep := { s.sweep with yield := true } }

/-- The traps of some threads stand, for what raised them is used up (R144). -/
def State.firmAll (s : State) (tids : List Nat) : State :=
  { s with sweep := { s.sweep with firm := tids ++ s.sweep.firm } }

def State.trapped (s : State) (t : Nat) : Bool := s.sweep.traps.any fun e => e.1 = t
def State.violated (s : State) (t : Nat) : Bool := s.sweep.viols.any fun e => e.1 = t

/-! ### Launch spaces (R104, R105) -/

def Core.space? (c : Core) (lid : Nat) : Option Space := c.spaces.find? fun p => p.lid = lid

/-- Physical blocks in use on a core. -/
def Core.usedBlocks (c : Core) : List Nat :=
  c.spaces.flatMap fun p => p.blocks.filterMap fun b => match b.2 with
    | .phys n => some n
    | .saved _ => none

def Core.freeBlock? (c : Core) : Option Nat := (List.range 128).find? fun b => !c.usedBlocks.contains b

def Core.updSpace (c : Core) (lid : Nat) (f : Space → Space) : Core :=
  { c with spaces := c.spaces.map fun p => if p.lid = lid then f p else p }

/-- R104, R105: the key of an A offset of a launch on a core. A first touch maps a free block, which reads as settled
zero; without a free block the access waits (none). -/
def State.aMap (s : State) (core lid off : Nat) : State × Option Nat :=
  match (s.core core).space? lid with
  | none => (s, none)
  | some p => match kfind p.blocks (off / 2 ^ 16) with
    | some (.phys b) => (s, some (aKey core b (off % 2 ^ 16)))
    | some (.saved _) => (s, none)
    | none => match (s.core core).freeBlock? with
      | none => (s.updCore core fun c => { c with want := true }, none)
      | some b =>
        let s := s.updCore core fun c => c.updSpace lid fun p =>
          { p with blocks := kset p.blocks (off / 2 ^ 16) (.phys b) }
        ({ s with mem := s.mem.clear (aKey core b 0) (2 ^ 16) }, some (aKey core b (off % 2 ^ 16)))

/-- The landing region of a binding meets some bytes. -/
def Binding.meets (b : Binding) (off len : Nat) : Bool := b.off < off + len && off < b.off + b.len

/-- The binding that a source core sends to: the newest one. -/
def LandEnt.bound (l : LandEnt) : Binding := l.sync.getD l.b

/-- R346: the bytes meet a landing region whose entry is LAPSED. -/
def Core.lapsed (c : Core) (lid off len : Nat) : Bool :=
  c.lands.any fun l => l.lid = lid && l.st = .lapsed && l.b.meets off len

/-! ### What a write sets off -/

/-- R312: a store that performs latches CHANGED or SAME in every watch of its line; CHANGED replaces a latched
SAME, and nothing replaces anything else. -/
def Watch.see (w : Watch) (old new : Memory) (key len : Nat) : Watch :=
  if len = 0 || w.key / 64 < key / 64 || (key + len - 1) / 64 < w.key / 64 then w
  else
    let changed := old.read w.key w.bytes ≠ new.read w.key w.bytes
    match w.latched with
    | none => { w with latched := some (if changed then 0 else 1) }
    | some 1 => if changed then { w with latched := some 0 } else w
    | some _ => w

def State.watchesSee (s : State) (old : Memory) (key len : Nat) : State :=
  { s with groups := s.groups.map fun e => (e.1, if e.2.threads.all fun t => t.watch.isNone then e.2
      else { e.2 with threads := e.2.threads.map fun t => { t with watch := t.watch.map fun w => w.see old s.mem key len } }) }

/-- A line of an A space is read for its updates: its code words are classified (R171). -/
def State.lineRead (s : State) (core lid line : Nat) : State :=
  match s.aMap core lid (line * 64) with
  | (_, some key) => s.classify key 64
  | (_, none) => s

/-- What a store to some offsets of an A space left in one line: the bytes written, and the P and POISON of the line's sectors after
it (R345). -/
def State.runOf (s : State) (core lid line lo hi : Nat) : Run :=
  match s.aMap core lid (line * 64) with
  | (_, none) => ⟨[], [], s.nextId⟩
  | (_, some key) =>
    ⟨((List.range 64).filter fun i => lo ≤ line * 64 + i && line * 64 + i < hi).map fun i => (line * 64 + i, s.mem.byte (key + i)),
      [0, 1].map fun i => (2 * line + i, (s.mem.band (key / 32 + i)).p, (s.mem.band (key / 32 + i)).poison), s.nextId⟩

/-- The bytes of an update of a line that merges some stores, the newest first: each byte as the newest of them wrote it, and the
sectors' P and POISON after that one (R345). -/
def mergeRuns (line : Nat) (rs : List Run) : List (Nat × Byte × Bool × Bool) :=
  let marks := (rs.head?.map Run.marks).getD []
  (List.range 64).filterMap fun i =>
    let o := line * 64 + i
    (rs.findSome? fun r => kfind r.bytes o).map fun b => (o, b, (kfind marks (o / 32)).getD (false, false))

/-- The update of one line of a source entry for those of its subscribers that `to_` picks (R345). A subscriber receives the
stores that follow the point S of its binding (R344). -/
def State.forwardLine (s : State) (core lid ent line : Nat) (runs : List Run) (to_ : Nat × Nat → Bool) : State :=
  match (s.core core).srcs[ent]? with
  | none => s
  | some e =>
    (e.subs.filter to_).foldl (fun s sub => match (s.core sub.1).lands.find? fun l => l.n = sub.2 with
      | none => s
      | some l =>
        let bytes := (mergeRuns line (runs.filter fun r => l.bound.bid < r.since)).map fun b => (l.bound.off + (b.1 - e.off), b.2)
        let u : Upd := ⟨s.nextId, core, ent, sub.2, lid, l.bound.bid, bytes⟩
        if bytes.isEmpty then s
        else { s.updCore sub.1 (fun c => { c with upds := c.upds ++ [u] }) with nextId := s.nextId + 1 }) s

/-- R345: a write in a source entry's region is forwarded; with a batch window the line's update stays open. -/
def State.forward (s : State) (core lid off len : Nat) : State :=
  (List.range (s.core core).srcs.length).foldl (fun s i => match (s.core core).srcs[i]? with
    | none => s
    | some e =>
      if e.lid ≠ lid || e.subs.isEmpty || off + len ≤ e.off || e.off + e.len ≤ off then s
      else
        let lo := max off e.off
        let hi := min (off + len) (e.off + e.len)
        ((List.range ((hi - 1) / 64 - lo / 64 + 1)).map fun j => lo / 64 + j).foldl (fun s line =>
          let s := s.lineRead core lid line
          let run := s.runOf core lid line lo hi
          if e.batch = 0 then s.forwardLine core lid i line [run] fun _ => true
          else s.updCore core fun c => { c with srcs := c.srcs.modify i fun e =>
            { e with open_ := kset e.open_ line (run :: kget [] e.open_ line) } }) s) s

/-! ### Window stores of variable latency (R134) -/

/-- A word is stored through a window (R134). -/
def State.winStore (s : State) (core lid off key : Nat) (r : Reg) : State :=
  let old := s.mem
  let s := { s with mem := s.mem.store key (leBytes 4 r.v.toNat) r.p false 0 }
  (s.watchesSee old key 4).forward core lid off 4

/-- A pending window store performs (R134). -/
def State.landWin (s : State) (gid : Nat) (p : Pend) (key : Nat) : State :=
  s.winStore (s.grp gid).core (s.grp gid).lid p.code key (p.regs.headD Reg.zero)

/-- The window stores that a group has pending perform, in their order: they are accesses of its threads, which drain when
the group leaves its slot (R103, R107). -/
def State.landWins (s : State) (gid : Nat) : State :=
  (s.grp gid).pend.foldl (fun s p => match p.win with
    | some key => s.landWin gid p key
    | none => s) s

/-- The A offsets of the window stores that a thread has pending: of instructions of variable latency, and of the results of
engine commands (R134). -/
def State.winPends (s : State) (a : Agent) : List Nat :=
  if a.path ≠ .T then []
  else
    let uid := if a.gid < 2 ^ 21 then (s.grp a.gid).uid else a.gid / 2 ^ 21 - 1
    ((s.grp a.gid).pend.filter fun p => p.tix = a.n && p.win.isSome).map Pend.code
      ++ ((s.core a.core).cmds.filter fun c => c.gid = a.gid % 2 ^ 21 && c.uid = uid && c.tix = a.n).filterMap fun c =>
        match c.dst with
        | some d => if d.win.isSome then some d.code else none
        | none => none

/-- One of them is to bytes of an access of the thread's own, which follows that store (R187). -/
def State.winPendsOn (s : State) (a : Agent) (off len : Nat) : Bool :=
  (s.winPends a).any fun c => c < off + len && off < c + 4

/-- The agent has accesses that have not performed: side-logged writes, those that wait for their master's UNFREEZE among them
(R169, R81), or pending window stores. -/
def State.undrained (s : State) (a : Agent) : Bool :=
  ((s.core a.core).side.any fun e => e.agent = a) || !(s.winPends a).isEmpty

/-! ### Ends of threads and groups -/

/-- R290, R144: a thread ends; its pending register writes are dropped, and its loop state, return stack, taint and
watch are discarded. Its pending window stores are no register writes and still perform (R107). -/
def Group.endThread (g : Group) (t : Nat) : Group :=
  let g := g.updThr t fun x =>
    { x with life := .ended, taint := [], ret := [], spilled := 0, loop := none, saved := none, watch := none,
             held := false, replay := false, ldNo := none, heldReg := false, stays := false, owed := none, done := false }
  { g with pend := g.pend.filter (fun p => p.tix ≠ t || p.win.isSome),
           parks := g.parks.map (fun p => { p with mask := p.mask.filter (· ≠ t) }) }

/-- Monitor entries on which no thread of the core holds a watch are freed (R310). -/
def State.pruneMons (s : State) (k : Nat) : State :=
  let used := fun (m : Mon) => s.groups.any fun e => e.2.core = k && e.2.ctx = m.ctx && e.2.threads.any fun t =>
    t.watch.any fun w => w.mon && w.key / 64 = m.line
  s.updCore k fun c => { c with mons := c.mons.filter used }

/-- R140, R353: the bindings of a consumer group end, with their entries; their program ends when it next issues. -/
def State.unbind (s : State) (k gid : Nat) : State :=
  s.updCore k fun c =>
    { c with
      pqs := c.pqs.map (fun q => match q.bound with
        | some (_, g, _) => if g = gid then PQ.reset else q
        | none => q)
      starts := c.starts.filter fun p => p.gid ≠ gid }

/-- The agents of a group that has left its slot, until it has drained (R107): they are no agents of a group that takes
the slot after it, and keep their place for scopes. -/
def ghost (gid uid : Nat) (a : Agent) : Agent :=
  if a.path = .T && a.gid = gid then { a with gid := gid + 2 ^ 21 * (uid + 1) } else a

def Iv.ghost (gid uid : Nat) (iv : Iv) : Iv := { iv with agent := Sys2Proof.Machine.ghost gid uid iv.agent }
def SideEnt.ghost (gid uid : Nat) (e : SideEnt) : SideEnt := { e with agent := Sys2Proof.Machine.ghost gid uid e.agent }

def State.ghosts (s : State) (core gid uid : Nat) : State :=
  let s := { s with ivs := s.ivs.map (Iv.ghost gid uid) }
  s.updCore core fun c => { c with
    side := c.side.map (SideEnt.ghost gid uid)
    sideRef := c.sideRef.map fun (a, e) => (ghost gid uid a, e) }

/-- R103: the space of a held instance is a held launch space once no group of the launch runs on the core. -/
def State.holdSpace (s : State) (core lid : Nat) : State :=
  if (s.helds.any fun h => h.lid = lid && h.groups.any fun g => g.gid / 512 = core)
      && s.groups.all fun e => e.2.core ≠ core || e.2.lid ≠ lid || e.2.kind = .pitcher
  then s.updCore core fun c => c.updSpace lid fun p => if p.held then p else { p with held := true, orig := p.slot }
  else s

/-- R107: a group whose last thread has ended enters the retirement tracker and frees its slot; with the tracker
full it keeps its slot, and its bindings end (R140). A deferred fault, or a transfer's error that no `CPYW` collected, then completes the launch
FAULT (R366, R357). -/
def State.closeGroup (s : State) (gid : Nat) : State :=
  let g := s.grp gid
  if !s.hasGrp gid || g.kind = .pitcher || !g.liveTids.isEmpty then s
  else if 64 ≤ (s.core g.core).tracker.length then s.unbind g.core gid
  else
    let s := s.landWins gid
    let bad := ((g.deferred.filter fun d => d.tag.isNone).flatMap Deferred.tids).eraseDups.length + (g.tags.map Tag.errs).sum
    let s := if bad = 0 then s else s.updLaunch g.lid fun l => { l with fault := true, trapped := l.trapped + bad }
    let s := (s.unbind g.core gid).updCore g.core fun c => { c with tracker := c.tracker ++ [⟨g.uid, gid, g.lid, true⟩] }
    (({ s.ghosts g.core gid g.uid with groups := kdel s.groups gid }).pruneMons g.core).holdSpace g.core g.lid

/-- R353: the program of a core's pitcher slot ends, normally with code 0; its bound queues tell the consumer. -/
def State.endProgram (s : State) (core code addr : Nat) : State :=
  match (s.core core).run with
  | none => s
  | some p =>
    let s := s.updCore core fun c => { c with
      run := none
      pqs := c.pqs.map fun q => if q.bound.isSome && q.prog = p.id then { q with ended := some (code, addr) } else q }
    let s := s.dropIvs fun a => a.path = .P && a.gid = pitchGid core
    { s with groups := kdel s.groups (pitchGid core) }

/-! ### Taking a trap and returning from one (R144) -/

/-- The number of a set of threads as a mask. -/
def maskOf (tids : List Nat) : Nat := ((List.range 16).map fun t => if tids.contains t then 2 ^ t else 0).sum

/-- The threads of a mask. -/
def tidsOf (m : Nat) : List Nat := (List.range 16).filter fun t => m / 2 ^ t % 2 = 1

/-- The launch of a group has `n` more trapped threads, and completes FAULT (R79). -/
def State.countTrapped (s : State) (gid n : Nat) : State :=
  s.updLaunch (s.grp gid).lid fun l => { l with fault := true, trapped := l.trapped + n }

/-- Refused side-logged writes of threads are taken (R170). -/
def State.dropRefs (s : State) (gid : Nat) (tids : List Nat) : State :=
  s.updCore (s.grp gid).core fun c => { c with sideRef := c.sideRef.filter fun e => !(tids.any fun t => e.1 = s.agent gid t) }

/-- Threads that end with a refused side-logged write have trapped, as if they had tailed before its refusal (R170). -/
def State.sideTails (s : State) (gid : Nat) (tids : List Nat) : State :=
  let bad := tids.filter fun t => (s.core (s.grp gid).core).sideRef.any fun e => e.1 = s.agent gid t
  if bad.isEmpty then s else (s.dropRefs gid bad).countTrapped gid bad.length

/-- Threads of a group are at their end (R290): their watches free their monitor entries (R326). -/
def State.threadsOver (s : State) (gid : Nat) (tids : List Nat) : State :=
  (s.updGrp gid fun g => tids.foldl Group.endThread g).pruneMons (s.grp gid).core

/-- Threads of a group end (R290, R170). -/
def State.endThreads (s : State) (gid : Nat) (tids : List Nat) : State := (s.sideTails gid tids).threadsOver gid tids

/-- Threads end as at `TAIL` and the launch completes FAULT: no handler, or the handler already runs. Each of them counts as
trapped once. -/
def State.trapEnds (s : State) (gid : Nat) (tids : List Nat) : State :=
  ((s.dropRefs gid tids).threadsOver gid tids).countTrapped gid tids.length

/-- The handler is entered: EPC, TADDR, TCAUSE and TMASK are written, and the trapping threads stand at TRAPVEC, or
64 bytes past it for `SYSC` (R295), as one path. Their loop state is saved (R287), and `hdr` is the clause that held the
trapping instruction. -/
def Group.enterTrap (g : Group) (tids : List Nat) (code addr epc hdr : Nat) (sysc : Bool) : Group :=
  let target := (g.ctl.trapvec.n + if sysc then 64 else 0) % 2 ^ 64
  let ctl := { g.ctl with
    epc := CReg.of epc, taddr := CReg.of addr, tcause := CReg.of (2 ^ 31 + code),
    tmask := CReg.of (g.ctl.tmask.n / 2 ^ 16 * 2 ^ 16 + maskOf tids) }
  tids.foldl (fun g t => g.updThr t fun x =>
      { x with pos := ⟨target, 0⟩, saved := x.loop, loop := none, savedGp := x.gp, savedGbp := x.gbp,
               savedGact := x.gact })
    { g with ctl := ctl, trapHdr := some hdr }

/-- R144: what happens at the end of a sweep in which threads trapped with `code`. -/
def State.takeTrap (s : State) (gid : Nat) (tids : List Nat) (code addr epc hdr : Nat) (sysc : Bool) : State :=
  let c := (s.grp gid).ctl
  if c.trapvec.n = 0 || c.inh then s.trapEnds gid tids
  else s.updGrp gid fun g => g.enterTrap tids code addr epc hdr sysc

/-- The clause of a group that holds an address past its header, with the address's instruction number. The clause
words start at the header. -/
def findInstr (ws : List Word) (hdr addr : Nat) : Option Nat :=
  match ws with
  | [] => none
  | h :: _ =>
    let rec go (i k : Nat) : Nat → Option Nat
      | 0 => none
      | fuel + 1 =>
        if hdrN h < k then none
        else if hdr + 4 * i = addr then some k
        else go (i + lengthOf (ws.getD i 0#32)) (k + 1) fuel
    go 1 1 16

/-- The position that `ERET` resumes at (R144): in mid-clause where EPC lies in the clause that held the trapping
instruction; elsewhere EPC is taken for a clause header. -/
def Group.epcPos (g : Group) : Pos :=
  let epc := g.ctl.epc.n / 4 * 4
  match g.trapHdr.bind fun h => (kfind g.clauses h).bind fun ws => (findInstr ws h epc).map fun k => Pos.mk h k with
  | some pos => pos
  | none => ⟨epc, 0⟩

/-- A thread that `ERET` resumes. A loop body that holds the resume position resumes its pass; elsewhere the loop state is
dropped (R287). -/
def Thread.eret (x : Thread) (pos : Pos) : Thread :=
  let keep := match x.saved with
    | some l => l.body ≤ pos.hdr && pos.hdr < l.stop
    | none => false
  { x with pos := pos, loop := if keep then x.saved else none, saved := none, gact := x.savedGact, gp := x.savedGp,
           gbp := x.savedGbp, held := false, replay := false, ldNo := none, stays := false, popped := [], owed := none }

/-- The return of `ERET` (R144): INH clears, and the TRAP threads resume at EPC, wherever the handler had parked or held them. -/
def Group.eret (g : Group) : Group :=
  let tids := (tidsOf (g.ctl.tmask.n % 2 ^ 16)).filter fun t => (g.thr t).life = .live
  let pos := g.epcPos
  let g := { g with
    ctl := { g.ctl with tcause := CReg.of (g.ctl.tcause.n % 2 ^ 31) }, trapHdr := none
    parks := g.parks.map fun r => { r with mask := r.mask.filter fun t => !tids.contains t } }
  tids.foldl (fun g t => g.updThr t fun x => x.eret pos) g

/-! ### The end of a sweep -/

/-- Where a thread stands after an instruction: the next instruction of the clause, the next clause, or the next
pass of its loop (R286). -/
def Thread.advance (x : Thread) (c : Cur) : Thread :=
  if c.pos.k < c.n then { x with pos := ⟨c.pos.hdr, c.pos.k + 1⟩ }
  else match x.loop with
    | some l =>
      if c.nextHdr = l.stop then
        if l.pass + 1 < l.count then { x with pos := ⟨l.body, 0⟩, loop := some { l with pass := l.pass + 1 } }
        else { x with pos := ⟨c.nextHdr, 0⟩, loop := none }
      else { x with pos := ⟨c.nextHdr, 0⟩ }
    | none => { x with pos := ⟨c.nextHdr, 0⟩ }

/-- A switch marker stands after the instruction that issued (R119). -/
def Cur.marker (c : Cur) : Bool := 1 ≤ c.pos.k && c.sw / 2 ^ (c.pos.k - 1) % 2 = 1

/-- Some variable-latency register write or replay of the group is outstanding (R119): a result in flight, a held
operation that writes a register, or a command with a result: a register of a thread that is live, for one that has ended writes
none (R290), or a word of a window (R134). A thread parked in a `WAIT`, `WAITA` or `DCOR` has
issued no write yet: that of its result counts from its wake (R327, log entry 41). -/
def State.outstanding (s : State) (gid : Nat) : Bool :=
  let g := s.grp gid
  let c := s.core g.core
  !g.pend.isEmpty || (g.threads.any fun t => (t.held || t.replay) && t.heldReg)
    || c.cmds.any fun x => x.gid = gid && x.uid = g.uid && x.dst.any fun d => d.win.isSome || (g.thr x.tix).life = .live

/-- TMASK.HOLD holds the threads of the group's most recent fault-held load that are held at it, are to replay it, or whose
replay is in flight (R142, R145). -/
def Group.tidyHold (g : Group) : Group :=
  let mine := fun (t : Nat) => (((g.thr t).held || (g.thr t).replay) && (g.thr t).ldNo = some g.holdNo)
    || g.pend.any fun p => p.rep.any fun r => r.1 = g.holdNo && r.2.contains t
  { g with ctl := { g.ctl with
    tmask := CReg.of (maskOf ((List.range 16).filter mine) * 2 ^ 16 + g.ctl.tmask.n % 2 ^ 16) } }

/-- A group parked at a marker goes on once nothing is outstanding (R119). -/
def State.unmark (s : State) (gid : Nat) : State :=
  let s := s.updGrp gid Group.tidyHold
  if (s.grp gid).gpark = some .marker && !s.outstanding gid then s.updGrp gid fun g => { g with gpark := none } else s

/-- A thread that stays at its instruction keeps the elements that the sweep popped for it (R141). -/
def State.keptPops (s : State) (t : Nat) (x : Thread) : List (Nat × Reg) :=
  x.popped ++ s.sweep.pops.map fun e => (e.1, e.2.getD t Reg.zero)

/-- A pitcher program is stalled as a whole where one of its elements cannot go on: the others have performed the instruction
(R351). -/
def State.stalls (s : State) : Bool := s.cg.kind = .pitcher && !(s.sweep.stays.isEmpty && s.sweep.viols.isEmpty)

/-- What the sweep leaves of one thread of its path (R114, R144, R145, R176): held, staying at the instruction, trapping or
violating there, stalled with its program, moved by the instruction itself, or moved on. -/
def State.moved (s : State) (t : Nat) (x : Thread) : Thread :=
  let w := s.sweep
  if w.holds.contains t then { x with
    held := true, replay := false, heldBy := (kfind w.leads t).getD t
    ldNo := if w.loads.contains t then (if x.replay then x.ldNo else some s.now) else none
    heldReg := w.regs.contains t, popped := s.keptPops t x, stays := false, last := s.now }
  else if w.stays.contains t then { x with
    heldBy := (kfind w.leads t).getD t, popped := s.keptPops t x, stays := true, last := s.now }
  else if s.trapped t || s.violated t then { x with popped := [], replay := false, stays := false, last := s.now }
  else if s.stalls then { x with done := true, stays := true, last := s.now }
  else if w.moved.contains t then { x with popped := [], replay := false, stays := false, done := false, last := s.now }
  else { x.advance s.cur with popped := [], replay := false, stays := false, done := false, last := s.now }

/-- The threads of the path that complete the instruction move on, with those that the guard leaves inactive; the others
stay. -/
def State.moveOn (s : State) : State :=
  s.updGrp s.cur.gid fun g =>
    let g := s.cur.path.foldl (fun g t => g.updThr t (s.moved t)) g
    { g with
      ctl := g.ctl.raise s.sweep.flags
      holdNo := if s.sweep.loads.isEmpty || s.cur.rep then g.holdNo else s.now }

/-- A thread of a group may trap now: no other path does while the handler runs, so the trap of a request that was made before waits
for `ERET` (R144, log entry 79). -/
def Group.mayTrap (g : Group) (t : Nat) : Bool := !g.ctl.inh || (tidsOf (g.ctl.tmask.n % 2 ^ 16)).contains t

/-- Traps whose cause is used up, and which are not taken now: each is owed at its thread's next issue (R144). -/
def State.oweTraps (s : State) (es : List (Nat × Nat × Nat)) : State :=
  s.updGrp s.cur.gid fun g => es.foldl (fun g e => g.updThr e.1 fun x => { x with owed := some e.2 }) g

/-- The traps of the sweep: the lowest code first, and the threads of the others stay at the instruction and trap again (R144).
`SYSC` starts the handler of its own code alone past `TRAPVEC` (R295). -/
def State.trapsTaken (s : State) : State :=
  let now := s.sweep.traps.filter fun e => s.cg.mayTrap e.1
  let firm := s.sweep.traps.filter fun e => s.sweep.firm.contains e.1
  match (now.map fun e => e.2.1).min? with
  | none => if firm.isEmpty then s else s.oweTraps firm
  | some code =>
    let es := now.filter fun e => e.2.1 = code
    let tids := (List.range 16).filter fun t => es.any fun e => e.1 = t
    let addr := match tids.head? with
      | some t => ((es.find? fun e => e.1 = t).map fun e => e.2.2).getD 0
      | none => 0
    if s.cg.kind = .pitcher then s.endProgram s.cg.core code addr
    else (s.oweTraps (firm.filter fun e => !tids.contains e.1)).takeTrap s.cur.gid tids code addr s.cur.iaddr s.cur.pos.hdr
      (s.sweep.sysc && code = 0x0E)

/-- The engine agents of a context on a core: its commands, transfers and pitcher program (R177). -/
def State.streamAgents (s : State) (core ctx : Nat) : List Agent :=
  let c := s.core core
  ((c.cmds.filter fun x => x.ctx = ctx).map fun x => ⟨x.path, core, x.gid, x.id⟩)
    ++ ((c.xfers.filter fun x => x.ctx = ctx).map fun x => ⟨.C, core, x.gid, x.id⟩)
    ++ match c.run with
      | some p => if p.ctx = ctx then [⟨.P, core, pitchGid core, (s.grp (pitchGid core)).uid⟩] else []
      | none => []

/-- The agents of a frozen group or of a frozen engine command stream have drained: their intervals end (R184). -/
def State.drainFrozen (s : State) : State :=
  s.dropIvs fun a => !s.undrained a && if a.path = .T then (s.grp a.gid).frozen
    else (s.core a.core).engFrozen.any fun n => (s.streamAgents a.core n).contains a

/-- The engine command stream of a context on a core freezes, its agents' intervals end once they have drained, and the
violation is logged (R175, R80, R184). -/
def State.freezeStream (s : State) (core ctx cause addr : Nat) : State :=
  let s := (s.updCore core fun c => { c with engFrozen := (ctx :: c.engFrozen).eraseDups }).drainFrozen
  s.logFreeze 2 ctx cause core 0 addr

/-- A group freezes: its pending window stores perform, which a marker may have waited for, its intervals end once its agents have
drained, and the access is logged (R176, R80, R119, R184). -/
def State.freezeNow (s : State) (gid cause addr : Nat) : State :=
  let g := s.grp gid
  let s := (s.landWins gid).updGrp gid fun g => { g with
    frozen := true, toFreeze := none, pend := g.pend.filter fun p => p.win.isNone }
  (s.unmark gid).drainFrozen.logFreeze 1 g.ctx cause g.core (4 * g.lix + g.slot) addr

/-- The violations of the sweep: the group freezes once its queued replays have completed (R232), with the lowest violating
thread's access. -/
def State.freezeGroup (s : State) (gid cause addr : Nat) : State :=
  let g := s.grp gid
  if g.kind = .pitcher then s.freezeStream g.core g.ctx cause addr
  else if (s.core g.core).replays.any fun r => r.gid = gid then
    s.updGrp gid fun g => { g with toFreeze := g.toFreeze.orElse fun _ => some (cause, addr) }
  else s.freezeNow gid cause addr

/-- A freeze that waited for a group's replays comes (R232). -/
def State.freezeDue (s : State) (gid : Nat) : State :=
  let g := s.grp gid
  match g.toFreeze with
  | some e => if (s.core g.core).replays.any fun r => r.gid = gid then s else s.freezeNow gid e.1 e.2
  | none => s

def State.violsTaken (s : State) : State :=
  match (List.range 16).findSome? fun t => s.sweep.viols.find? fun e => e.1 = t with
  | none => s
  | some e => s.freezeGroup s.cur.gid e.2.1 e.2.2

/-- The accesses of a sweep join the intervals (R181). -/
def State.joinIvs (s : State) : State := { s with ivs := s.sweep.ivs ++ s.ivs }

/-- The threads of the sweep's path that go on at the next instruction; the turn goes on with them (R126). -/
def State.going (s : State) : List Nat :=
  s.cur.path.filter fun t => !(s.trapped t || s.violated t || s.sweep.holds.contains t || s.sweep.stays.contains t)
    && (s.thr s.cur.gid t).life = .live

/-- Every live thread of the group is parked: held, staying at its instruction, or waiting for the handler (R144). -/
def Group.allParked (g : Group) : Bool :=
  g.liveTids.all fun t => (g.thr t).held || (g.thr t).stays
    || (g.ctl.inh && !(tidsOf (g.ctl.tmask.n % 2 ^ 16)).contains t)

/-- The group at the end of a sweep: a marker parks it while a result is outstanding, and ends the turn; the turn ends too
when no thread of the path goes on; a clause header does not count in a turn, and a replay leaves the turn of the path that it
interrupts as it is (R119, R126, R145). A group that has parked, or that stands at a marker, is chosen again by its lane (R97,
R120). -/
def Group.endSweep (g : Group) (c : Cur) (yield : Bool) (now : Nat) (out : Bool) (going : List Nat) : Group :=
  let ends := c.marker || yield || going.isEmpty
  let park := if (c.marker || g.gpark = some .marker) && out then some GPark.marker
    else if g.gpark = some .marker then none else g.gpark
  { g with
    gpark := park
    turn := if c.rep then g.turn else if ends then 0 else if c.pos.k = 0 then g.turn else g.turn + 1
    turnAt := if c.rep then g.turnAt else if ends then none else (going.head?).map fun t => (g.thr t).pos
    turnLast := if c.rep then g.turnLast else now
    last := now
    rank := .normal
    again := c.marker || park.isSome || g.allParked }

def State.settleGroup (s : State) : State :=
  let s := s.updGrp s.cur.gid Group.tidyHold
  s.updGrp s.cur.gid fun g => g.endSweep s.cur s.sweep.yield s.now (s.outstanding s.cur.gid) s.going

/-- Requests of agents that a link holds, or that ended with it, are no longer made. -/
def Device.leaves (d : Device) (f : Agent → Bool) : Device :=
  { d with
    linkHeld := d.linkHeld.filter fun q => !f q.agent
    linkLost := d.linkLost.filter fun q => !f q.agent
    flits := d.flits.filter fun a => !f a }

/-- The requests of an engine agent that a link holds, or that ended with it, are no longer made (R32). -/
def State.dropHeld (s : State) (core id : Nat) : State :=
  let keep := fun (q : LinkReq) => q.agent.path = .T || q.agent.core ≠ core || q.agent.n ≠ id
  { s with dev := { s.dev with linkHeld := s.dev.linkHeld.filter keep, linkLost := s.dev.linkLost.filter keep } }

/-- Of the sweep's threads, those that do not stay at their instruction have no request left that a link holds, or that ended
with it (R32). -/
def State.linkOver (s : State) : State :=
  let keep := fun (q : LinkReq) => !(q.agent.gid = s.cur.gid && q.agent.core = s.cg.core && q.agent.path = .T
    && s.cur.path.contains q.agent.n && !s.sweep.stays.contains q.agent.n && !s.sweep.holds.contains q.agent.n)
  { s with dev := { s.dev with linkHeld := s.dev.linkHeld.filter keep, linkLost := s.dev.linkLost.filter keep } }

/-- The next sweep is at its beginning. -/
def State.sweepOver (s : State) : State := { s with sweep := Sweep.reset, now := s.now + 1, free := s.free + 1 }

/-- The end of a sweep: its accesses join the intervals, its threads move on, traps and violations are taken, with a freeze that
waited for the replays of its group (R232), a marker parks the group, and a group without live threads retires. -/
def State.finish (s : State) : State :=
  (((s.joinIvs.moveOn.trapsTaken.violsTaken.freezeDue s.cur.gid).settleGroup).linkOver.closeGroup s.cur.gid).sweepOver

/-- An instruction that traps `ILLEGAL` for every thread of the sweep (R259). -/
def State.illegal (s : State) : State := (s.trapAll s.cur.mask 0x01 0).finish

/-- An event's end: its accesses join the intervals, and time passes. -/
def State.tick (s : State) : State :=
  { s with ivs := s.sweep.ivs ++ s.ivs, sweep := Sweep.reset, now := s.now + 1, free := s.free + 1 }

end Sys2Proof.Machine
end

