-- ==== Sys2Proof/Machine/Access.lean ====
section
/-! DEFINITION. Reaching memory: translation (R150 to R162), the hash of a line and its Ryuzin link (R32, R44, R45), code
words (R171), closed granules and the side log (R167 to R170), and the checks of an access in the order of R302. -/

namespace Sys2Proof.Machine

open Sys2Proof

/-! ### Addresses and translation -/

def vaTag (va : Nat) : Nat := va / 2 ^ 60 % 16
def vaDev (va : Nat) : Nat := va / 2 ^ 52 % 256
def vaDie (va : Nat) : Nat := va / 2 ^ 50 % 4
def vaOff (va : Nat) : Nat := va % 2 ^ 50

/-- R152: physical memory that is present on a die. -/
def State.paPresent (s : State) (die pa : Nat) : Bool :=
  (pa < 0xA0000000 && s.dev.columns.contains (64 * die + pa / 0x2800000)) || (2 ^ 35 ≤ pa && pa < 2 ^ 37)

/-- R152: a run of physical memory is present on a die as a whole. -/
def State.runPresent (s : State) (die pa len : Nat) : Bool :=
  (pa + len ≤ 0xA0000000 && (List.range ((pa + len - 1) / 0x2800000 + 1 - pa / 0x2800000)).all fun i =>
    s.dev.columns.contains (64 * die + pa / 0x2800000 + i)) || (2 ^ 35 ≤ pa && pa + len ≤ 2 ^ 37)

/-- R44: the address that is hashed: its device by number, and no tag. -/
def State.canonical (s : State) (va : Nat) : Nat :=
  (if vaDev va = 255 then s.dev.pod else vaDev va) * 2 ^ 52 + va % 2 ^ 52

/-- R44: the line hash of a global address. -/
def State.lineHash (s : State) (va : Nat) : Nat :=
  let a := s.canonical va
  let f := fun (lo n : Nat) => a / 2 ^ lo % 2 ^ n
  f 6 16 ^^^ f 22 16 ^^^ f 38 16 ^^^ f 54 6

/-- The number of a global address's line. -/
def State.lineOf (s : State) (va : Nat) : Nat := s.canonical va / 64

/-- A link that the hash covers: it is trained, or holds its traffic (R31, R32, R81). -/
def LinkSt.hashed : LinkSt → Bool
  | .trained | .retraining | .frozen => true
  | .untrained | .fenced => false

/-- R45: the Ryuzin link that a hash takes. -/
def State.linkAt (s : State) (h : Nat) : Option Nat :=
  let ls := (List.range s.dev.links.length).filter fun l => (s.dev.links.getD l .untrained).hashed
  ls[h % ls.length]?

/-- R45: the Ryuzin link that an address's line takes. -/
def State.linkOf (s : State) (va : Nat) : Option Nat := s.linkAt (s.lineHash va)

/-- R44: the hash of a message that is addressed to a core, over the 54 bits of its device, die, physical core and A offset. -/
def coreHash (dev die phys off : Nat) : Nat :=
  let a := dev % 2 ^ 8 * 2 ^ 46 + die % 4 * 2 ^ 44 + phys % 2 ^ 6 * 2 ^ 38 + off / 2 ^ 6 % 2 ^ 17 * 2 ^ 6
  a / 2 ^ 6 % 2 ^ 16 ^^^ a / 2 ^ 22 % 2 ^ 16 ^^^ a / 2 ^ 38 % 2 ^ 16

/-- R45: the link of a message to an A offset of a core, given as 256·device + logical core. Which physical core another device
has under the number is a free value (log entry 21). -/
def State.coreLink (s : State) (peer off : Nat) : Option Nat :=
  let dev := peer / 256
  let k := peer % 256
  let phys := if dev = s.dev.pod then (s.phys k).getD 0 else (Config.remoteWord (2 ^ 260 * (peer + 1))).toNat
  s.linkAt (coreHash dev (dieOf k) phys off)

/-- A link that retrains, or whose port is frozen, holds its traffic (R32, R81). -/
def LinkSt.holds : LinkSt → Bool
  | .retraining | .frozen => true
  | .untrained | .trained | .fenced => false

def State.link (s : State) (n : Nat) : LinkSt := s.dev.links.getD n .untrained

/-- What arrives over a link that holds its traffic is kept; nothing arrives over any other link that is not trained. -/
def State.linkKeeps (s : State) (n : Nat) (i : Instr) : State :=
  if (s.link n).holds then { s with dev := { s.dev with linkIn := s.dev.linkIn ++ [(n, i)] } } else s

/-- A message leaves the part: a link that holds its traffic keeps it (R32, R81). -/
def State.emit (s : State) (m : OutMsg) : State :=
  if (m.link.map fun n => (s.link n).holds) = some true then { s with dev := { s.dev with linkOut := s.dev.linkOut ++ [m] } }
  else { s with dev := { s.dev with outbox := s.dev.outbox ++ [m] } }

/-- R158: the bucket of a page number in a way. -/
def bucketOf (vpn seed log : Nat) : Nat := ((vpn ^^^ seed) * 0x9E3779B97F4A7C15) % 2 ^ 64 / 2 ^ (64 - log)

/-- R157: log2 of the page size of table s. -/
def pageLog (size : Nat) : Nat := [16, 21, 30].getD size 16

/-- R159: the first matching slot of one way, as its key; the entry is 16 bytes. -/
def State.probe (s : State) (die base log seed way vpn : Nat) : Option Nat :=
  let b := globalKey die (base + way * 64 * 2 ^ log + 64 * bucketOf vpn seed log)
  ([0, 1, 2, 3].map fun i => b + 16 * i).find? fun k =>
    let w := s.mem.num k 8
    w / 2 ^ 63 = 1 && w % 2 ^ 34 = vpn

/-- R159: the candidates of one table in their order: the new ways of a resize before the old. -/
def State.probeTable (s : State) (x : Xlat) (die : Nat) (t : Table) (vpn : Nat) : Option Nat :=
  let ways := fun (base log : Nat) =>
    (s.probe die base log x.seed0 0 vpn).orElse fun _ => s.probe die base log x.seed1 1 vpn
  match t.new_ with
  | some (b, l) => (ways b l).orElse fun _ => ways t.base t.log
  | none => ways t.base t.log

/-- R159: a walk: the page size and the key of the entry. -/
def State.walk (s : State) (x : Xlat) (die off : Nat) : Option (Nat × Nat) :=
  match x.dies[die]? with
  | none => none
  | some d => [0, 1, 2].findSome? fun size => match d.tables[size]? with
      | none => none
      | some t => (s.probeTable x die t (off / 2 ^ pageLog size)).map fun k => (size, k)

/-- The code words of the buckets that a walk reads are classified (R159, R171). DESIGN CHOICE (log entry 66): a poisoned bucket
is taken as it stands. -/
def State.walkReads (s : State) (x : Xlat) (die off : Nat) : State :=
  if s.dev.upsets.isEmpty then s
  else match x.dies[die]? with
    | none => s
    | some d => [0, 1, 2].foldl (fun s size => match d.tables[size]? with
        | none => s
        | some t =>
          let vpn := off / 2 ^ pageLog size
          let ways := fun (base log : Nat) => [(0, x.seed0), (1, x.seed1)].map fun w =>
            globalKey die (base + w.1 * 64 * 2 ^ log + 64 * bucketOf vpn w.2 log)
          (ways t.base t.log ++ match t.new_ with
            | some (b, l) => ways b l
            | none => []).foldl (fun s k => s.classify k 64) s) s

/-- What a lookup finds (R160). -/
inductive Tr where
  /-- a frame word: HOST, the physical address, and the attribute bits [8:0] of R157 -/
  | ok (host : Bool) (pa attr : Nat)
  | miss
  | bad
deriving DecidableEq, Repr

/-- R160: the conditions that make a walk end in an error. -/
def State.frameOk (s : State) (die size kw fw : Nat) : Bool :=
  let host := fw / 2 ^ 8 % 2 = 1
  let frame := fw / 2 ^ 16 % 2 ^ 36 * 2 ^ 16
  kw / 2 ^ 34 % 2 ^ 29 = 0 && fw / 2 ^ 52 = 0 && fw / 2 ^ 9 % 2 ^ 7 = 0 && fw % 2 = 0 && frame % 2 ^ pageLog size = 0
    && (if host then fw / 2 ^ 6 % 2 = 1 && die = 0 else s.runPresent die frame (2 ^ pageLog size))

def trOf (fw size off : Nat) : Tr :=
  .ok (fw / 2 ^ 8 % 2 = 1) (fw / 2 ^ 16 % 2 ^ 36 * 2 ^ 16 + off % 2 ^ pageLog size) (fw % 2 ^ 9)

/-- R159, R162: the cached translation, or a walk whose translation is then cached. -/
def State.translate (s : State) (ctx die off : Nat) : State × Tr :=
  match (s.parts.getD ctx Part.reset).x with
  | none => (s, .bad)
  | some x =>
    match s.tlb.find? fun t => t.ctx = ctx && t.die = die && t.vpn = off / 2 ^ pageLog t.size with
    | some t => (s, trOf t.frame t.size off)
    | none =>
      let s := s.walkReads x die off
      match s.walk x die off with
      | none => (s, .miss)
      | some (size, k) =>
        let kw := s.mem.num k 8
        let fw := s.mem.num (k + 8) 8
        if s.frameOk die size kw fw then
          ({ s with tlb := ⟨ctx, die, size, off / 2 ^ pageLog size, fw⟩ :: s.tlb }, trOf fw size off)
        else (s, .bad)

/-- Attribute bits of R157. -/
def attrBit (attr n : Nat) : Bool := attr / 2 ^ n % 2 = 1

/-! ### Closed granules (R167, R168) -/

def State.updPart (s : State) (n : Nat) (f : Part → Part) : State :=
  { s with parts := s.parts.set n (f (s.parts.getD n Part.reset)) }

def State.updX (s : State) (n : Nat) (f : Xlat → Xlat) : State := s.updPart n fun p => { p with x := p.x.map f }

def State.xlat? (s : State) (ctx : Nat) : Option Xlat := (s.parts.getD ctx Part.reset).x

def State.isClosed (s : State) (ctx die gran : Nat) : Bool :=
  match s.xlat? ctx with
  | some x => x.closed.any fun g => g.die = die && g.gran = gran
  | none => false

/-- The key of a fault record of a die. -/
def DieX.frKey (d : DieX) (die rec_ : Nat) : Nat := globalKey die (d.frbase + 32 * (rec_ % 2 ^ d.frlog))

/-- R167: a miss closes its granule and writes a fault record, unless the ring's next slot is in use: none. DESIGN CHOICE (log entry
80): of the record only the fields that R167 names are written; its reserved bytes stay as memory held them. -/
def State.closeGran (s : State) (ctx die gran kind : Nat) : Option State := do
  let x ← s.xlat? ctx
  let d ← x.dies[die]?
  let k := d.frKey die d.faults
  if s.mem.num k 1 ≠ 0 then none
  let va := 0xFF * 2 ^ 52 + die * 2 ^ 50 + gran * 2 ^ 16
  let m := s.mem.store k (leBytes 4 (kind * 2 ^ 8 + 1)) false false 0
  let m := m.store (k + 8) (leBytes 8 va) false false 0
  let m := m.store (k + 16) (leBytes 4 0) false false 0
  let old := s.mem
  let s := ({ s with mem := m } : State).watchesSee old k 20
  let s := s.updX ctx fun x => { x with
    closed := x.closed ++ [⟨die, gran, d.faults, false, false, [], []⟩]
    dies := x.dies.set die { d with faults := d.faults + 1 } }
  return if x.fvec = 0 then s else s.signal x.fvec

/-- A write of an agent that the side log has no room for, or that no side log takes, stands refused (R169); `full` is false once
it is in the log. -/
def State.stall (s : State) (ctx die gran : Nat) (a : Agent) (full : Bool) : State :=
  s.updX ctx fun x => { x with closed := x.closed.map fun g =>
    if g.die = die && g.gran = gran then { g with stalls := (if full then [a] else []) ++ g.stalls.filter (· ≠ a) } else g }

/-- R167, R168: a request to a closed granule is refused; the record counts it until it ends, and a held read is noted (`wait`). A
request of an agent that is made again is no further one. -/
def State.refuse (s : State) (ctx die gran : Nat) (who : Agent) (wait : Option Agent) : State :=
  match s.xlat? ctx with
  | none => s
  | some x => match x.closed.find? (fun g => g.die = die && g.gran = gran), x.dies[die]? with
    | some g, some d =>
      let k := d.frKey die g.rec_ + 16
      let ended := g.mapped || g.denied
      let again := ended || match wait with
        | some a => g.waiters.contains a
        | none => g.stalls.contains who
      let old := s.mem
      let s := if again then s else
        ({ s with mem := s.mem.store k (leBytes 4 (min (s.mem.num k 4 + 1) (2 ^ 32 - 1))) false false 0 } : State).watchesSee old k 4
      match wait with
      | none => s
      | some a => s.updX ctx fun x => { x with closed := x.closed.map fun g =>
          if g.die = die && g.gran = gran && !g.waiters.contains a then { g with waiters := a :: g.waiters } else g }
    | _, _ => s

/-! ### The checks of an access (R302) -/

/-- Who makes an access. -/
structure Who where
  agent : Agent
  core  : Nat
  lid   : Nat
  ctx   : Nat
deriving DecidableEq, Repr

def State.who (s : State) (gid t : Nat) : Who :=
  let g := s.grp gid
  ⟨s.agent gid t, g.core, g.lid, g.ctx⟩

/-- A unit of the part that is no agent of a core, by a number of what it does for a context: a queue's stage (its queue), the
completion word of a launch, or the argument block of a group. -/
def hwWho (ctx n : Nat) : Who := ⟨⟨.K, 240, 2 ^ 60 + n, ctx⟩, 240, 0, ctx⟩
def lidNo (lid : Nat) : Nat := 2 ^ 48 + lid
def argNo (gid : Nat) : Nat := 2 ^ 32 + gid

/-- An access: where, how long, reads or writes; `sync` for a synchronising operation (R183), `p` and `pstop` for the
check of R226, `kind` the kind of request of R167, where 5 is the arm of a `WATCH`, which is no access (R309), 6
a read that takes poison with it (R370, R371), 8 one of an engine that does (R332), 9 a write of a saved block
(R105), 10 an untracked read by a unit of the part, and 11 and 14 a write of a thread or an engine that the side log replays
(R169); the kind that a fault record shows is the rest by 5. -/
structure Acc where
  spc   : Spc
  addr  : Nat
  len   : Nat
  rd    : Bool
  wr    : Bool
  ex    : Bool
  sync  : Bool
  ps    : Bool
  kind  : Nat
deriving DecidableEq, Repr

/-- A request that enters the side log when its granule is closed: a store, a reduction or an engine write (R168). -/
def Acc.logs (a : Acc) : Bool := a.kind = 1 || a.kind = 4 || a.kind = 11 || a.kind = 14

/-- How the checks end. -/
inductive Res where
  /-- every check passed: the key, and the page attributes (0 in A and W) -/
  | ok (key attr : Nat)
  /-- a violation, with its cause (R175) -/
  | viol (cause : Nat)
  /-- a trap code (R143) -/
  | trap (code : Nat)
  /-- a closed granule (R168), or a miss that finds no free fault record (R167) -/
  | closed
  /-- the access waits: no free block (R105), a link that holds its traffic (R32, R81), an access of its agent before it
  (R169, R187), or an interval that cannot end yet (R184) -/
  | waits
  /-- the access leaves the part: another device, or host memory, with the page attributes (log entry 21) -/
  | outside (attr : Nat)
  /-- the request ended with its Ryuzin link (R32) -/
  | lost
deriving DecidableEq, Repr

/-! ### Checks 9 and 10 -/

/-- Checks 9 and 10 of R302 at a key, and the record of the access. `tracked` is false on an untracked page. A
synchronising operation waits until the agents whose intervals it must end have drained (R183, R184). -/
def State.meet (s : State) (w : Who) (a : Acc) (key attr : Nat) (tracked : Bool) : State × Res :=
  if a.kind = 5 || a.kind = 9 then (s, .ok key attr)
  else if a.kind = 10 then (s.classify key a.len, .ok key attr)
  else if tracked && !a.sync && !a.ex && s.conflicts w.agent key a.len a.wr then (s, .trap 0x03)
  else if tracked && a.sync && (s.metBy w.agent key a.len).any s.undrained then (s, .waits)
  else
    let s := if tracked && a.sync then s.endMet w.agent key a.len else s
    let s := if a.rd || a.ex then s.classify key a.len else s
    if a.rd && a.kind ≠ 6 && a.kind ≠ 8 && s.mem.anyPoison key a.len then (s, .trap 0x0C)
    else ((if tracked && !a.sync && !a.ex then s.noteIv w.agent key a.len a.wr else s), .ok key attr)

/-- The side log of the core holds an entry for a line of the access (R169). -/
def State.sideHas (s : State) (w : Who) (va : Nat) : Bool :=
  (s.core w.core).side.any fun e => e.ctx = w.ctx && s.lineOf e.va = s.lineOf va

/-! ### Another device -/

/-- What makes the agent's access trap is used up by it (R144). -/
def State.usedUp (s : State) (a : Agent) : State := if a.path = .T then s.firmAll [a.n] else s

/-- The answer of an agent comes with an uncorrectable flit (R49): it is taken. -/
def State.takeFlit (s : State) (a : Agent) : State := { s with dev := { s.dev with flits := s.dev.flits.erase a } }

/-- The agent will make its held request again, its master frozen or not: its thread stays at the access, or its command or
transfer is there. A fetch that no path of the group may make now is not waited for, for it changes nothing. -/
def State.remakes (s : State) (a : Agent) : Bool :=
  let c := s.core a.core
  match a.path with
  | .T =>
    let g := s.grp a.gid
    let x := g.thr a.n
    x.life = .live && (x.stays || x.held) && (x.pos.k ≠ 0
      || !(g.frozen || g.toFreeze.isSome || g.gpark.isSome || (g.ctl.inh && !(tidsOf (g.ctl.tmask.n % 2 ^ 16)).contains a.n)))
  | .P => (s.grp a.gid).uid = a.n && c.run.isSome
  | _ => (c.cmds.any fun x => x.id = a.n) || c.xfers.any fun x => x.id = a.n

/-- The agent has a request that a link held and that may go now (R32). -/
def State.linkDue (s : State) (a : Agent) : Bool := s.dev.linkHeld.any fun q => q.agent = a && s.link q.link = .trained

/-- An engine agent of a frozen stream makes no access but one that a link held when it froze (R176, R32). -/
def State.engStops (s : State) (w : Who) (spc : Spc) (addr : Nat) : Bool :=
  w.agent.path ≠ .T && (s.core w.core).engFrozen.contains w.ctx
    && !(spc = .global && s.dev.linkHeld.any fun q => q.agent = w.agent && q.line = s.lineOf addr)

/-- The agent's held request to a line is no longer held. -/
def State.unheld (s : State) (a : Agent) (line : Nat) : State :=
  { s with dev := { s.dev with linkHeld := s.dev.linkHeld.filter fun q => !(q.agent = a && q.line = line) } }

/-- Held requests to one line are made again in their order: one of the agent's core that was held before this one is still to
be made (R32, R47). -/
def State.heldBefore (s : State) (a : Agent) (line : Nat) : Bool :=
  (s.dev.linkHeld.takeWhile fun q => !(q.agent = a && q.line = line)).any fun q =>
    q.line = line && q.agent ≠ a && q.agent.core = a.core && s.remakes q.agent

/-- An access to another device takes the link of its line (R45). A link that retrains or is frozen holds it (R32, R81), and
one that ended with its link is lost (R32). Without a link the device is a pod of one (R31, R151). -/
def State.reachRemote (s : State) (w : Who) (a : Acc) : State × Res :=
  let line := s.lineOf a.addr
  if s.dev.linkLost.any fun q => q.agent = w.agent && q.line = line then
    (({ s with dev := { s.dev with linkLost := s.dev.linkLost.filter fun q => !(q.agent = w.agent && q.line = line) } } : State).usedUp
      w.agent, .lost)
  else match s.linkOf a.addr with
    | none => (s, .viol 0x0A)
    | some l =>
      if s.link l = .trained then
        if s.heldBefore w.agent line then (s, .waits)
        else
          let s := s.unheld w.agent line
          if (a.rd || a.ex) && s.dev.flits.contains w.agent then ((s.takeFlit w.agent).usedUp w.agent, .trap 0x0C) else (s, .outside 0)
      else
        let q : LinkReq := ⟨l, w.agent, line⟩
        ({ s with dev := { s.dev with linkHeld := if s.dev.linkHeld.contains q then s.dev.linkHeld else s.dev.linkHeld ++ [q] } },
          .waits)

/-! ### The spaces -/

/-- The held request of the agent to a granule whose record ended refused (R168). -/
def State.isRefused (s : State) (w : Who) (die gran : Nat) : Bool :=
  match s.xlat? w.ctx with
  | some x => x.refused.contains (w.agent, 2 ^ 34 * die + gran)
  | none => false

/-- Checks 7 to 10 of an access to physical memory of this device. -/
def State.reachFrame (s : State) (w : Who) (a : Acc) (key attr : Nat) : State × Res :=
  if attrBit attr 7 && !s.mem.tagsAre key a.len (vaTag a.addr) then (s, .viol 0x07)
  else if a.ps && attrBit attr 5 then (s, .trap 0x05)
  else if (a.rd || a.ex) && s.dev.flits.contains w.agent then ((s.takeFlit w.agent).usedUp w.agent, .trap 0x0C)
  else s.meet w a key attr (!attrBit attr 6)

/-- A global access (R150, R151, R160, R167, R172, R226), in the order of R302. -/
def State.reachGlobal (s : State) (w : Who) (a : Acc) : State × Res :=
  let dev := vaDev a.addr
  let die := vaDie a.addr
  let off := vaOff a.addr
  let gran := off / 2 ^ 16
  let wait := if a.logs then none else some w.agent
  if 144 ≤ dev && dev ≠ 255 then (s, .viol 0x0A)
  else if dev ≠ 255 && dev ≠ s.dev.pod then s.reachRemote w a
  else
    let (s, tr) := s.translate w.ctx die off
    if tr = .bad then (s, .viol 0x0A)
    else if (match tr with
        | .ok _ _ attr => (a.rd && !attrBit attr 1) || (a.wr && !attrBit attr 2) || (a.ex && !attrBit attr 3)
        | _ => false) then (s, .viol 0x0A)
    else if s.isRefused w die gran then
      ((s.updX w.ctx fun x => { x with refused := x.refused.erase (w.agent, 2 ^ 34 * die + gran) }).usedUp w.agent, .trap 0x09)
    else if s.isClosed w.ctx die gran then (s.refuse w.ctx die gran w.agent wait, .closed)
    else if !a.ex && s.sideHas w a.addr then (s, if a.logs then .closed else .waits)
    else match tr with
      | .ok host pa attr =>
        if host then
          if a.ps && attrBit attr 5 then (s, .trap 0x05)
          else if (a.rd || a.ex) && s.dev.flits.contains w.agent then ((s.takeFlit w.agent).usedUp w.agent, .trap 0x0C)
          else (s, .outside attr)
        else s.reachFrame w a (globalKey die pa) attr
      | _ => match s.closeGran w.ctx die gran (a.kind % 5) with
        | none => (s, .closed)
        | some s => (s.refuse w.ctx die gran w.agent wait, .closed)

/-- An access to the launch's A space on the core (R104, R147, R346). -/
def State.reachA (s : State) (w : Who) (a : Acc) : State × Res :=
  if 2 ^ 23 < a.addr + a.len then (s, .viol 0x0A)
  else if (s.core w.core).lapsed w.lid a.addr a.len then (s, .trap 0x0B)
  else if s.winPendsOn w.agent a.addr a.len then (s, .waits)
  else match s.aMap w.core w.lid a.addr with
    | (s, none) => (s, .waits)
    | (s, some key) => s.meet w a key 0 true

/-- An access to the core's W buffer (R147). -/
def State.reachW (s : State) (w : Who) (a : Acc) : State × Res :=
  if 2 ^ 24 < a.addr + a.len then (s, .viol 0x0A) else s.meet w a (wKey w.core a.addr) 0 true

/-- Checks 5 to 10 of R302. A pitcher program of a frozen stream makes no other access than one that a link held. -/
def State.reach (s : State) (w : Who) (a : Acc) : State × Res :=
  if w.agent.path = .P && s.engStops w a.spc a.addr then (s, .waits)
  else match a.spc with
  | .global => s.reachGlobal w a
  | .A => s.reachA w a
  | .W => s.reachW w a

/-- An access of n bytes that reads or writes. -/
def Acc.read (spc : Spc) (addr n : Nat) : Acc := ⟨spc, addr, n, true, false, false, false, false, 0⟩
def Acc.write (spc : Spc) (addr n : Nat) (ps : Bool) : Acc := ⟨spc, addr, n, false, true, false, false, ps, 1⟩
def Acc.fetch (addr n : Nat) : Acc := ⟨.global, addr, n, false, false, true, false, false, 2⟩
def Acc.synced (a : Acc) : Acc := { a with sync := true }

/-! ### What a write does -/

/-- Bytes written at a key by an access that passed its checks: the tag that R172 gives, P and POISON by R173 and
R174, the watches, and the forwarding of an A-space write. -/
def State.put (s : State) (w : Who) (a : Acc) (key : Nat) (bs : List Byte) (p poison fwd : Bool) : State :=
  let old := s.mem
  let tag := match a.spc with
    | .global => vaTag a.addr
    | _ => 0
  let s := { s with mem := s.mem.store key bs p poison tag }
  let s := s.watchesSee old key bs.length
  if fwd && a.spc = .A then s.forward w.core w.lid a.addr bs.length else s

/-- A write that leaves the part is handed to a link or to the host port (log entry 21). -/
def State.send (s : State) (ctx va : Nat) (bs : List Byte) (p : Bool) : State :=
  s.emit ⟨if vaDev va = 255 || vaDev va = s.dev.pod then none else s.linkOf va, ctx, va, bs, p, none, none⟩

/-- A write that the side log takes (R169): its bytes, P and POISON, the check of R226, the reduction of a `RED`, and whether
it is a release of its command. -/
structure Logged where
  data   : List Byte
  p      : Bool
  poison : Bool
  ps     : Bool
  red    : Option (Nat × Nat × Nat)
  rel    : Bool
deriving DecidableEq, Repr

/-- The side log takes a refused write, split into sectors (R169); it has 256 entries. -/
def State.sideTakes (s : State) (w : Who) (uid va : Nat) (l : Logged) : Option State :=
  let bs := l.data
  let first := min bs.length (32 - va % 32)
  let parts := if bs.length = 0 then [] else
    (va, bs.take first) :: (List.range ((bs.length - first + 31) / 32)).map fun i =>
      (va + first + 32 * i, (bs.drop (first + 32 * i)).take 32)
  if 256 < (s.core w.core).side.length + parts.length then none
  else some (s.updCore w.core fun c => { c with side := c.side ++ parts.map fun e =>
    ⟨w.agent, uid, w.lid, w.ctx, e.1, e.2, l.p, l.ps, l.red, l.poison, l.rel, false⟩ })

/-- A refused write enters the side log, and otherwise stands refused (R169). -/
def State.sideLog (s : State) (w : Who) (uid va : Nat) (l : Logged) : State × Bool :=
  let t := s.stall w.ctx (vaDie va) (vaOff va / 2 ^ 16) w.agent
  match (t false).sideTakes w uid va l with
  | some s => (s, true)
  | none => (t true, false)

/-- R169: the agent has writes in the side log. -/
def State.sideWaits (s : State) (w : Who) : Bool := (s.core w.core).side.any fun e => e.agent = w.agent

/-- R170: a refused side-logged write of the agent, taken at the operation that waits for it: its address and trap code. -/
def State.sideRefused (s : State) (w : Who) : Option (Nat × Nat) :=
  ((s.core w.core).sideRef.find? fun e => e.1 = w.agent).map fun e => e.2

def State.dropSideRef (s : State) (w : Who) : State :=
  s.updCore w.core fun c => { c with sideRef := c.sideRef.filter fun e => e.1 ≠ w.agent }

/-- What a synchronising operation of a thread does first (R169, R170, R188): it waits for the thread's side-logged
writes and its pending window stores, and a refused side-logged write traps there. -/
inductive Ready where
  | go | waits | refused (addr code : Nat)
deriving DecidableEq, Repr

def State.syncReady (s : State) (w : Who) : Ready :=
  match s.sideRefused w with
  | some (a, c) => .refused a c
  | none => if s.sideWaits w || !(s.winPends w.agent).isEmpty then .waits else .go

/-! ### Fetch (R248) -/

/-- A word at an address of the program; one that stands outside the part is free for each address (log entry 21). -/
def State.fetchWord (s : State) (w : Who) (va : Nat) : State × Except Res Word :=
  match s.reachGlobal w (Acc.fetch va 4) with
  | (s, .ok key _) =>
    if s.mem.anyPoison key 4 then (s, .error (.trap 0x0C)) else (s, .ok (BitVec.ofNat 32 (s.mem.num key 4)))
  | (s, .outside _) => (s, .ok (Config.remoteWord (2 ^ 290 * (s.free + 1) + va)))
  | (s, r) => (s, .error r)

/-- The words of a clause after its header: `n` instructions, then their literal words (R242, R246). -/
def State.fetchRest (s : State) (w : Who) (va n lits : Nat) (acc : List Word) : Nat → State × Except (Res × Nat) (List Word)
  | 0 => (s, .ok acc)
  | fuel + 1 =>
    if n = 0 && lits = 0 then (s, .ok acc)
    else match s.fetchWord w va with
      | (s, .error r) => (s, .error (r, va))
      | (s, .ok x) =>
        if n = 0 then s.fetchRest w (va + 4) 0 (lits - 1) (acc ++ [x]) fuel
        else if lengthOf x = 1 then s.fetchRest w (va + 4) (n - 1) (lits + (litSlots x 0#32).length) (acc ++ [x]) fuel
        else match s.fetchWord w (va + 4) with
          | (s, .error r) => (s, .error (r, va + 4))
          | (s, .ok u) => s.fetchRest w (va + 8) (n - 1) (lits + (litSlots x u).length) (acc ++ [x, u]) fuel

/-- The words of the clause at an address; a malformed header stands alone (R244), unless its clause is to be read `whole`
by its N. -/
def State.fetchClause (s : State) (w : Who) (va : Nat) (whole : Bool) : State × Except (Res × Nat) (List Word) :=
  match s.fetchWord w va with
  | (s, .error r) => (s, .error (r, va))
  | (s, .ok h) => if hdrBad h && !whole then (s, .ok [h]) else s.fetchRest w (va + 4) (hdrN h) 0 [h] 128

end Sys2Proof.Machine
end

