-- ==== Sys2Proof/Machine/Fp.lean ====
section
/-! DEFINITION. Floating arithmetic: the formats of R197, exact values, one rounding (R204, R206, R207, R209), and the
correctly rounded functions of R275. -/

namespace Sys2Proof.Machine

open Sys2Proof

/-! ### Values and formats -/

/-- The value of a floating code: a NaN, an infinity, or (−1)^neg · m · 2^e; m = 0 is a signed zero. -/
inductive FV where
  | nan
  | inf (neg : Bool)
  | fin (neg : Bool) (m : Nat) (e : Int)
deriving DecidableEq, Repr

/-- How a format treats its top codes (R197): IEEE, E4M3 (one NaN, no infinity), or none of either. -/
inductive Top where
  | ieee | oneNan | plain
deriving DecidableEq, Repr

/-- A floating format: mantissa bits, exponent bits, bias, top codes (R197). -/
structure FFmt where
  man  : Nat
  exp  : Nat
  bias : Nat
  top  : Top
deriving DecidableEq, Repr

def fp64 : FFmt := ⟨52, 11, 1023, .ieee⟩
def fp32 : FFmt := ⟨23, 8, 127, .ieee⟩
def bf16 : FFmt := ⟨7, 8, 127, .ieee⟩
def fp16 : FFmt := ⟨10, 5, 15, .ieee⟩
def e4m3 : FFmt := ⟨3, 4, 7, .oneNan⟩
def e5m2 : FFmt := ⟨2, 5, 15, .ieee⟩
def e2m1 : FFmt := ⟨1, 2, 1, .plain⟩

/-- Flags as bits of FLG (R206): NV 16, DZ 8, OF 4, UF 2, NX 1. -/
def fNV : Nat := 16
def fDZ : Nat := 8
def fOF : Nat := 4
def fUF : Nat := 2
def fNX : Nat := 1

/-- The sign bit's weight. -/
def FFmt.signW (f : FFmt) : Nat := 2 ^ (f.man + f.exp)

/-- The canonical NaN (R199). -/
def FFmt.nan (f : FFmt) : Nat :=
  match f.top with
  | .ieee => (2 ^ f.exp - 1) * 2 ^ f.man + 2 ^ (f.man - 1)
  | .oneNan => 2 ^ (f.man + f.exp) - 1
  | .plain => 0

def FFmt.infBits (f : FFmt) : Nat := (2 ^ f.exp - 1) * 2 ^ f.man

/-- The code of the largest finite magnitude (R197). -/
def FFmt.maxBits (f : FFmt) : Nat :=
  match f.top with
  | .ieee => f.infBits - 1
  | .oneNan => 2 ^ (f.man + f.exp) - 2
  | .plain => 2 ^ (f.man + f.exp) - 1

/-- The value of a code (R198). -/
def FFmt.value (f : FFmt) (n : Nat) : FV :=
  let neg := n / f.signW % 2 = 1
  let e := n / 2 ^ f.man % 2 ^ f.exp
  let m := n % 2 ^ f.man
  let special : Bool := match f.top with
    | .ieee => e == 2 ^ f.exp - 1
    | .oneNan => e == 2 ^ f.exp - 1 && m == 2 ^ f.man - 1
    | .plain => false
  if special then (if f.top = .ieee && m = 0 then .inf neg else .nan)
  else if e = 0 then .fin neg m (1 - (f.bias : Int) - f.man)
  else .fin neg (2 ^ f.man + m) ((e : Int) - f.bias - f.man)

/-- The exponent of the lowest bit of a subnormal. -/
def FFmt.minExp (f : FFmt) : Int := 1 - (f.bias : Int) - f.man

/-! ### Rounding -/

/-- The step up from n, with remainder r of 2^k, in mode rm: 0 nearest-even, 1 toward zero, 2 up, 3 down (R206),
4 stochastic with draw u (R209). -/
def roundUp (rm u : Nat) (neg : Bool) (n r k : Nat) : Bool :=
  if r = 0 then false
  else match rm with
    | 1 => false
    | 2 => !neg
    | 3 => neg
    | 4 => u < r * 2 ^ 16 / 2 ^ k
    | _ => 2 ^ k < 2 * r || (2 * r = 2 ^ k && n % 2 = 1)

/-- The result of a conversion: code and flags. -/
structure Rounded where
  bits  : Nat
  flags : Nat
deriving DecidableEq, Repr

/-- Overflow of a finite value (R204); `sat` gives the largest finite magnitude in every mode. -/
def FFmt.overflow (f : FFmt) (rm : Nat) (neg sat : Bool) : Rounded :=
  let s := if neg then f.signW else 0
  let away := match rm with
    | 1 => false
    | 2 => !neg
    | 3 => neg
    | _ => true
  if f.top = .ieee && !sat && away then ⟨s + f.infBits, fOF + fNX⟩ else ⟨s + f.maxBits, fOF + fNX⟩

/-- m · 2^e as n · 2^q with at most man + 1 bits in n, rounded: n, q and whether it was inexact. -/
def FFmt.cut (f : FFmt) (rm u : Nat) (neg : Bool) (m : Nat) (e : Int) : Nat × Int × Bool :=
  let q := max f.minExp (e + (Nat.log2 m : Int) - f.man)
  if q ≤ e then (m * 2 ^ (e - q).toNat, q, false)
  else
    let k := (q - e).toNat
    let n := m / 2 ^ k
    let r := m % 2 ^ k
    (if roundUp rm u neg n r k then n + 1 else n, q, r ≠ 0)

/-- n · 2^q as a code, for a magnitude that fits. -/
def FFmt.pack (f : FFmt) (n : Nat) (q : Int) : Nat :=
  let (n, q) := if n = 2 ^ (f.man + 1) then (n / 2, q + 1) else (n, q)
  if n < 2 ^ f.man then n else (q - f.minExp + 1).toNat * 2 ^ f.man + (n - 2 ^ f.man)

/-- The magnitude m · 2^e lies beyond the largest finite one of the format (R209). -/
def FFmt.beyond (f : FFmt) (m : Nat) (e : Int) : Bool :=
  let (n, q, nx) := f.cut 1 0 false m e
  f.maxBits < f.pack n q || (f.maxBits = f.pack n q && nx)

/-- R204: the exact value (−1)^neg · m · 2^e rounded once into the format. Tiny is judged before rounding (R207). -/
def FFmt.round (f : FFmt) (rm u : Nat) (sat neg : Bool) (m : Nat) (e : Int) : Rounded :=
  let s := if neg then f.signW else 0
  if m = 0 then ⟨s, 0⟩
  else
    let rm := if rm = 4 && f.beyond m e then 0 else rm
    let (n, q, nx) := f.cut rm u neg m e
    let code := f.pack n q
    if f.maxBits < code then f.overflow rm neg sat
    else
      let tiny := e + (Nat.log2 m : Int) < f.minExp + f.man
      ⟨s + code, (if nx then fNX else 0) + (if nx && tiny then fUF else 0)⟩

/-- R204: any value into the format. -/
def FFmt.ofVal (f : FFmt) (rm u : Nat) (sat : Bool) (v : FV) : Rounded :=
  match v with
  | .nan => if f.top = .plain then ⟨0, fNV⟩ else ⟨f.nan, 0⟩
  | .inf neg =>
    let s := if neg then f.signW else 0
    if f.top = .ieee && !sat then ⟨s + f.infBits, 0⟩ else ⟨s + f.maxBits, fOF⟩
  | .fin neg m e => f.round rm u sat neg m e

/-- Conversion without flags in nearest-even. -/
def FFmt.ne (f : FFmt) (v : FV) : Nat := (f.ofVal 0 0 false v).bits

/-! ### Exact arithmetic -/

/-- A signed dyadic value. -/
def dySum (na : Bool) (ma : Nat) (ea : Int) (nb : Bool) (mb : Nat) (eb : Int) : Int × Int :=
  let e := min ea eb
  let a : Int := (ma * 2 ^ (ea - e).toNat : Nat)
  let b : Int := (mb * 2 ^ (eb - e).toNat : Nat)
  ((if na then -a else a) + (if nb then -b else b), e)

/-- Sum of two values; an exact zero sum of opposite signs is −0 only when rounding down. -/
def fvAdd (rm : Nat) (a b : FV) : FV × Nat :=
  match a, b with
  | .nan, _ | _, .nan => (.nan, 0)
  | .inf x, .inf y => if x = y then (.inf x, 0) else (.nan, fNV)
  | .inf x, .fin .. => (.inf x, 0)
  | .fin .., .inf y => (.inf y, 0)
  | .fin na ma ea, .fin nb mb eb =>
    let (v, e) := dySum na ma ea nb mb eb
    if v = 0 then
      (.fin (if ma = 0 && mb = 0 && na = nb then na else rm = 3) 0 0, 0)
    else (.fin (v < 0) v.natAbs e, 0)

def fvNeg : FV → FV
  | .nan => .nan
  | .inf n => .inf !n
  | .fin n m e => .fin (!n) m e

def fvMul (a b : FV) : FV × Nat :=
  match a, b with
  | .nan, _ | _, .nan => (.nan, 0)
  | .inf x, .inf y => (.inf (x != y), 0)
  | .inf x, .fin y m _ | .fin y m _, .inf x => if m = 0 then (.nan, fNV) else (.inf (x != y), 0)
  | .fin na ma ea, .fin nb mb eb => (.fin (na != nb) (ma * mb) (ea + eb), 0)

/-- A · B + C before rounding; 0 · ∞ raises NV even when C is NaN (R272). -/
def fvFma (rm : Nat) (a b c : FV) : FV × Nat :=
  let (p, f1) := fvMul a b
  let (r, f2) := fvAdd rm p c
  (r, f1 ||| f2)

/-- A quotient with enough bits that one rounding gives the correct result; an inexact quotient has its lowest bit
set beyond them. -/
def fvDiv (a b : FV) : FV × Nat :=
  match a, b with
  | .nan, _ | _, .nan => (.nan, 0)
  | .inf _, .inf _ => (.nan, fNV)
  | .inf x, .fin y _ _ => (.inf (x != y), 0)
  | .fin x _ _, .inf y => (.fin (x != y) 0 0, 0)
  | .fin x ma ea, .fin y mb eb =>
    if mb = 0 then (if ma = 0 then (.nan, fNV) else (.inf (x != y), fDZ))
    else
      let k : Nat := Nat.log2 mb + 70
      let q := ma * 2 ^ k / mb
      let st := ma * 2 ^ k % mb ≠ 0
      (.fin (x != y) (2 * q + if st then 1 else 0) (ea - eb - (k : Int) - 1), 0)

/-- Integer square root, bit by bit. -/
def isqrtGo (n : Nat) : Nat → Nat → Nat
  | 0, r => r
  | b + 1, r => isqrtGo n b (if (r + 2 ^ b) * (r + 2 ^ b) ≤ n then r + 2 ^ b else r)
def isqrt (n : Nat) : Nat := isqrtGo n (Nat.log2 n / 2 + 1) 0

def fvSqrt (a : FV) : FV × Nat :=
  match a with
  | .nan => (.nan, 0)
  | .inf neg => if neg then (.nan, fNV) else (.inf false, 0)
  | .fin neg m e =>
    if m = 0 then (.fin neg 0 0, 0)
    else if neg then (.nan, fNV)
    else
      let (m, e) := if e % 2 = 0 then (m, e) else (2 * m, e - 1)
      let k : Nat := 70
      let r := isqrt (m * 2 ^ (2 * k))
      (.fin false (2 * r + if r * r = m * 2 ^ (2 * k) then 0 else 1) (e / 2 - (k : Int) - 1), 0)

/-- 1 / √A (R275). -/
def fvRsqrt (a : FV) : FV × Nat :=
  match a with
  | .nan => (.nan, 0)
  | .inf neg => if neg then (.nan, fNV) else (.fin false 0 0, 0)
  | .fin neg m e =>
    if m = 0 then (.inf neg, fDZ)
    else if neg then (.nan, fNV)
    else
      let (m, e) := if e % 2 = 0 then (m, e) else (2 * m, e - 1)
      let k : Nat := Nat.log2 m + 70
      let r := isqrt (2 ^ (2 * k) / m)
      (.fin false (2 * r + if r * r * m = 2 ^ (2 * k) then 0 else 1) (-(e / 2) - (k : Int) - 1), 0)

/-! ### The functions of R275 in fixed point

Each value is a floor with 256 or more fraction bits, far beyond the 24 bits of the result; its lowest bit is set
because no argument that reaches the series has an exact value. -/

/-- ⌊ln 2 · 2^256⌋ and ⌊π · 2^512⌋. -/
def ln2Fix : Nat := 0xb17217f7d1cf79abc9e3b39803f2f6af40f343267298b62d8a0d175b8baafa2b
def piFix : Nat := 0x3243f6a8885a308d313198a2e03707344a4093822299f31d0082efa98ec4e6c89452821e638d01377be5466cf34e90c6cc0ac29b7c97c50dd3f84d5b5b5470917

/-- Σ y^k / k! for y < 1 with 256 fraction bits. -/
def expFix (y : Nat) : Nat → Nat → Nat → Nat
  | 0, _, acc => acc
  | fuel + 1, term, acc => expFix y fuel (term * y / 2 ^ 256 / (61 - fuel)) (acc + term * y / 2 ^ 256 / (61 - fuel))

/-- 2^A (R275). -/
def fvExp2 (a : FV) : FV :=
  match a with
  | .nan => .nan
  | .inf neg => if neg then .fin false 0 0 else .inf false
  | .fin neg m e =>
    if m = 0 then .fin false 1 0
    else if 9 < e + (Nat.log2 m : Int) then (if neg then .fin false 1 (-1000) else .fin false 1 1000)
    else
      -- x as a fixed-point number with 256 fraction bits; every FP32 fraction is exact there
      let x : Int := if 0 ≤ e + 256 then (m * 2 ^ (e + 256).toNat : Nat) else 0
      let x := if neg then -x else x
      let n := x / 2 ^ 256
      let f := (x % 2 ^ 256).toNat
      if f = 0 then .fin false 1 n
      else .fin false (2 * expFix (f * ln2Fix / 2 ^ 256) 61 (2 ^ 256) (2 ^ 256) + 1) (n - 257)

/-- Σ t^(2k+1) / (2k+1) with 256 fraction bits. -/
def atanhFix (t2 : Nat) : Nat → Nat → Nat → Nat
  | 0, _, acc => acc
  | fuel + 1, pow, acc => atanhFix t2 fuel (pow * t2 / 2 ^ 256) (acc + pow / (2 * (90 - fuel) - 1))

/-- log₂ A (R275). -/
def fvLog2 (a : FV) : FV × Nat :=
  match a with
  | .nan => (.nan, 0)
  | .inf neg => if neg then (.nan, fNV) else (.inf false, 0)
  | .fin neg m e =>
    if m = 0 then (.inf true, fDZ)
    else if neg then (.nan, fNV)
    else
      let k := Nat.log2 m
      let n : Int := e + k
      if m = 2 ^ k then (.fin (n < 0) n.natAbs 0, 0)
      else
        let t := (m - 2 ^ k) * 2 ^ 256 / (m + 2 ^ k)
        let l := 2 * atanhFix (t * t / 2 ^ 256) 90 t 0
        let r : Int := n * 2 ^ 256 + (l * 2 ^ 256 / ln2Fix : Nat)
        (.fin (r < 0) (2 * r.natAbs + 1) (-257), 0)

/-- The alternating series of sine (first exponent 1) or cosine (first exponent 0) at r, |r| < 1, with 320 fraction
bits. -/
def trigFix (r2 : Nat) : Nat → Nat → Int → Nat → Int
  | 0, _, acc, _ => acc
  | fuel + 1, term, acc, k =>
    let term' := term * r2 / 2 ^ 320 / ((k + 1) * (k + 2))
    trigFix r2 fuel term' (acc + (if k / 2 % 2 = 0 then -(term' : Int) else term')) (k + 2)

/-- The quadrant and the remainder of x = m · 2^e against π/2, the remainder with 320 fraction bits. -/
def reduce (m : Nat) (e : Int) : Nat × Int :=
  -- x and π/2 with 512 fraction bits
  let x : Nat := if 0 ≤ e + 512 then m * 2 ^ (e + 512).toNat else 0
  let h := piFix / 2
  let q := (2 * x + h) / (2 * h)
  (q % 4, ((x : Int) - q * h) / 2 ^ 192)

/-- sin of a remainder, and cos of it, as a signed fixed-point number. -/
def sinFix (r : Int) : Int :=
  let a := r.natAbs
  let v := trigFix (a * a / 2 ^ 320) 60 a a 1
  if r < 0 then -v else v
def cosFix (r : Int) : Int := trigFix (r.natAbs * r.natAbs / 2 ^ 320) 60 (2 ^ 320) (2 ^ 320) 0

def fixFV (v : Int) (k : Int) : FV := .fin (v < 0) (2 * v.natAbs + 1) (-k - 1)

/-- sin A and cos A (R275). Of a magnitude below 2^-60, sin A lies just below A. -/
def fvSin (a : FV) : FV × Nat :=
  match a with
  | .nan => (.nan, 0)
  | .inf _ => (.nan, fNV)
  | .fin neg m e =>
    if m = 0 then (.fin neg 0 0, 0)
    else if e + (Nat.log2 m : Int) < -60 then (.fin neg (m * 2 ^ 64 - 1) (e - 64), 0)
    else
      let (q, r) := reduce m e
      let v := match q with
        | 0 => sinFix r
        | 1 => cosFix r
        | 2 => -sinFix r
        | _ => -cosFix r
      (fixFV (if neg then -v else v) 320, 0)

def fvCos (a : FV) : FV × Nat :=
  match a with
  | .nan => (.nan, 0)
  | .inf _ => (.nan, fNV)
  | .fin _ m e =>
    if m = 0 then (.fin false 1 0, 0)
    else
      let (q, r) := reduce m e
      (fixFV (match q with
        | 0 => cosFix r
        | 1 => -sinFix r
        | 2 => -cosFix r
        | _ => sinFix r) 320, 0)

/-! ### Comparison (R256, R273) -/

/-- A < B of two values that are no NaN; zeros are equal. -/
def fvLt (a b : FV) : Bool :=
  match a, b with
  | .nan, _ | _, .nan => false
  | .inf x, .inf y => x && !y
  | .inf x, .fin .. => x
  | .fin .., .inf y => !y
  | .fin na ma ea, .fin nb mb eb => (dySum na ma ea (!nb) mb eb).1 < 0

def fvEq (a b : FV) : Bool :=
  match a, b with
  | .nan, _ | _, .nan => false
  | .inf x, .inf y => x = y
  | .inf _, .fin .. | .fin .., .inf _ => false
  | .fin na ma ea, .fin nb mb eb => (dySum na ma ea (!nb) mb eb).1 = 0

def fvNan (a : FV) : Bool := a = .nan

/-- R256: a floating condition. -/
def fcond (c : Nat) (a b : FV) : Bool :=
  let un := fvNan a || fvNan b
  match c with
  | 0 => fvEq a b
  | 1 => !fvEq a b
  | 2 => fvLt a b
  | 3 => fvLt a b || fvEq a b
  | 4 => fvLt b a
  | 5 => fvLt b a || fvEq a b
  | 6 => un
  | _ => !un

/-- R273: FMIN and FMAX on codes; −0 orders below +0. -/
def fminBits (f : FFmt) (a b : Nat) : Nat :=
  let x := f.value a
  let y := f.value b
  if fvNan x then (if fvNan y then f.nan else b) else if fvNan y then a
  else if fvLt x y then a else if fvLt y x then b else if a / f.signW % 2 = 1 then a else b
def fmaxBits (f : FFmt) (a b : Nat) : Nat :=
  let x := f.value a
  let y := f.value b
  if fvNan x then (if fvNan y then f.nan else b) else if fvNan y then a
  else if fvLt x y then b else if fvLt y x then a else if a / f.signW % 2 = 1 then b else a

/-- A value rounded to an integer in a mode. -/
def fvToInt (rm : Nat) (neg : Bool) (m : Nat) (e : Int) : Int × Bool :=
  if 0 ≤ e then (let v : Int := (m * 2 ^ e.toNat : Nat); (if neg then -v else v, false))
  else
    let k := (-e).toNat
    let n := m / 2 ^ k
    let r := m % 2 ^ k
    let v : Int := (if roundUp rm 0 neg n r k then n + 1 else n : Nat)
    (if neg then -v else v, r ≠ 0)

/-- R204: floating to integer: saturated to the range, NV out of range, a NaN gives 0 with NV. -/
def fvInt (rm : Nat) (lo hi : Int) (v : FV) : Int × Nat :=
  match v with
  | .nan => (0, fNV)
  | .inf neg => (if neg then lo else hi, fNV)
  | .fin neg m e =>
    -- a magnitude of 2^70 and more saturates whatever the mode
    if 70 < e + (Nat.log2 m : Int) && m ≠ 0 then (if neg then lo else hi, fNV)
    else
      let (n, nx) := fvToInt rm neg m e
      if n < lo then (lo, fNV) else if hi < n then (hi, fNV) else (n, if nx then fNX else 0)

/-- An integer as a value. -/
def fvOfInt (n : Int) : FV := .fin (n < 0) n.natAbs 0

end Sys2Proof.Machine
end

