-- ==== Sys2Proof/Machine/Num.lean ====
section
/-! DEFINITION. The memory formats (R200, R253), the logarithmic formats (R201 to R203), conversions (R204, R205) and
MX blocks (R210, R211). -/

namespace Sys2Proof.Machine

open Sys2Proof

/-! ### Logarithmic formats -/

/-- The table T of R203, and its NBV 1 form T8. -/
def logT (q : Nat) : Nat := [0x1000, 0x1307, 0x16A1, 0x1AE9].getD q 0
def logT8 (q : Nat) : Nat := [0x100, 0x130, 0x16A, 0x1AE].getD q 0

/-- A logarithmic format: its lowest exponent and its fractions per octave; L6 has 4, L4 has 2. -/
structure LFmt where
  six : Bool
deriving DecidableEq, Repr

def LFmt.steps (f : LFmt) : Nat := if f.six then 4 else 2
def LFmt.low (f : LFmt) : Int := if f.six then -4 else -2

/-- The number of magnitudes, the zero among them. -/
def LFmt.count (f : LFmt) : Nat := if f.six then 32 else 8

/-- Magnitude i in ascending order, in units of 2^-16; magnitude 0 is the zero code, and those past the largest
continue the steps (R204). -/
def LFmt.mag (f : LFmt) (i : Nat) : Nat :=
  if i = 0 then 0
  else
    let q := i % f.steps * (4 / f.steps)
    logT q * 2 ^ ((i / f.steps : Nat) + f.low + 4).toNat

/-- The code of magnitude i: fraction and two's-complement exponent. -/
def LFmt.code (f : LFmt) (neg : Bool) (i : Nat) : Nat :=
  let e := ((i / f.steps : Nat) + f.low + 16).toNat
  if f.six then (if neg then 32 else 0) + e % 8 * 4 + i % 4 else (if neg then 8 else 0) + e % 4 * 2 + i % 2

/-- Sign, exponent and fraction in quarters of a code; none for a zero code (R201, R202). -/
def LFmt.parts (f : LFmt) (c : Nat) : Bool × Option (Int × Nat) :=
  if f.six then
    let e : Int := (c / 4 % 8 : Nat)
    let e := if 4 ≤ e then e - 8 else e
    (c / 32 % 2 = 1, if e = -4 && c % 4 = 0 then none else some (e, c % 4))
  else
    let e : Int := (c / 2 % 4 : Nat)
    let e := if 2 ≤ e then e - 4 else e
    (c / 8 % 2 = 1, if e = -2 && c % 2 = 0 then none else some (e, 2 * (c % 2)))

/-- The operational value (R203). -/
def LFmt.value (f : LFmt) (c : Nat) : FV :=
  match f.parts c with
  | (neg, none) => .fin neg 0 0
  | (neg, some (e, q)) => .fin neg (logT q) (e - 12)

/-- R204 for a logarithmic target: round among the operational values; a tie goes to the even fraction. -/
def LFmt.round (f : LFmt) (rm u : Nat) (neg : Bool) (m : Nat) (e : Int) : Rounded :=
  if m = 0 then ⟨f.code neg 0, 0⟩
  else
    let top := f.count - 1
    -- |v| as num / 2^k in the units of mag
    let k := (-(e + 16)).toNat
    let num := if 0 ≤ e + 16 then m * 2 ^ (e + 16).toNat else m
    let den := 2 ^ k
    let ov : Rounded := ⟨f.code neg top, fOF + fNX⟩
    if f.mag (top + 1) * den ≤ num then ov
    else
      let i := ((List.range (f.count + 1)).filter fun j => f.mag j * den ≤ num).length - 1
      let lo := f.mag i
      let hi := f.mag (i + 1)
      if lo * den = num then ⟨f.code neg i, 0⟩
      else
        let r := num - lo * den
        let w := (hi - lo) * den
        let near := w < 2 * r || (2 * r = w && i % 2 = 1)
        let up := match rm with
          | 1 => false
          | 2 => !neg
          | 3 => neg
          | 4 => if i = top then near else u < r * 2 ^ 16 / w
          | _ => near
        let j := if up then i + 1 else i
        let tiny := num < f.mag 1 * den
        if top < j then ov else ⟨f.code neg j, fNX + if tiny then fUF else 0⟩

def LFmt.ofVal (f : LFmt) (rm u : Nat) (v : FV) : Rounded :=
  match v with
  | .nan => ⟨f.code false 0, fNV⟩
  | .inf neg => ⟨f.code neg (f.count - 1), fOF⟩
  | .fin neg m e => f.round rm u neg m e

def l6 : LFmt := ⟨true⟩
def l4 : LFmt := ⟨false⟩

/-! ### Formats by their memory code (R253) -/

/-- Bits per element. -/
def fmtBits (f : Nat) : Nat := [8, 8, 16, 16, 32, 64, 16, 16, 32, 64, 8, 8, 4, 8, 4, 4].getD f 32

/-- The floating or logarithmic formats by code. -/
def fmtValue (f n : Nat) : FV :=
  match f with
  | 0x6 => fp16.value n
  | 0x7 => bf16.value n
  | 0x9 => fp64.value n
  | 0xA => e4m3.value n
  | 0xB => e5m2.value n
  | 0xC => e2m1.value n
  | 0xD => l6.value n
  | 0xE => l4.value n
  | _ => fp32.value n

/-- R204: a value into the format of a code. -/
def fmtOf (f rm u : Nat) (sat : Bool) (v : FV) : Rounded :=
  match f with
  | 0x6 => fp16.ofVal rm u sat v
  | 0x7 => bf16.ofVal rm u sat v
  | 0x9 => fp64.ofVal rm u sat v
  | 0xA => e4m3.ofVal rm u sat v
  | 0xB => e5m2.ofVal rm u sat v
  | 0xC => e2m1.ofVal rm u sat v
  | 0xD => l6.ofVal rm u v
  | 0xE => l4.ofVal rm u v
  | _ => fp32.ofVal rm u sat v

/-- R206: the formats into which the stochastic mode rounds. -/
def stochFmt (f : Nat) : Bool := 0xA ≤ f && f ≤ 0xE

/-- R205: the formats whose conversion makes a proposal. -/
def narrowFmt (f : Nat) : Bool := 0xA ≤ f

/-- The rounding mode that a conversion into a format uses under RM (R206). -/
def effRm (f rm : Nat) : Nat := if rm = 4 && !stochFmt f then 0 else rm

/-- A two's-complement number of n bits. -/
def signOf (n v : Nat) : Int := if v % 2 ^ n < 2 ^ (n - 1) then (v % 2 ^ n : Nat) else (v % 2 ^ n : Nat) - 2 ^ n

/-- An integer's n low bits. -/
def bitsOf (n : Nat) (v : Int) : Nat := (v % 2 ^ n).toNat

def clampI (lo hi v : Int) : Int := if v < lo then lo else if hi < v then hi else v

/-- The register image of a typed load (R200, R253); a pair for W64 and F64. -/
def widen (f n : Nat) : DWord :=
  match f with
  | 0x1 => BitVec.ofNat 64 (bitsOf 32 (signOf 8 n))
  | 0x3 => BitVec.ofNat 64 (bitsOf 32 (signOf 16 n))
  | 0xF => BitVec.ofNat 64 (bitsOf 32 (signOf 4 n))
  | 0x6 | 0x7 | 0xA | 0xB | 0xC | 0xD | 0xE => BitVec.ofNat 64 (fp32.ne (fmtValue f n))
  | _ => BitVec.ofNat 64 n

/-- The element of a typed store from a register image (R200, R204), in mode rm with draw u. -/
def narrow (f rm u : Nat) (v : DWord) : Rounded :=
  let n := v.toNat
  match f with
  | 0x0 => ⟨n % 2 ^ 8, 0⟩
  | 0x1 => ⟨bitsOf 8 (clampI (-128) 127 (signOf 32 n)), 0⟩
  | 0x2 => ⟨n % 2 ^ 16, 0⟩
  | 0x3 => ⟨bitsOf 16 (clampI (-32768) 32767 (signOf 32 n)), 0⟩
  | 0x4 | 0x8 => ⟨n % 2 ^ 32, 0⟩
  | 0x5 | 0x9 => ⟨n, 0⟩
  | 0xF => ⟨bitsOf 4 (clampI (-8) 7 (signOf 32 n)), 0⟩
  | _ => fmtOf f (effRm f rm) u false (fp32.value (n % 2 ^ 32))

/-- The elements of a run of bytes in a format; 4-bit elements take the nibbles of R200. -/
def unpack (f cnt : Nat) (bs : List Byte) : List Nat :=
  let n := leNat bs
  (List.range cnt).map fun i => n / 2 ^ (fmtBits f * i) % 2 ^ fmtBits f

/-- The bytes of a run of elements. -/
def pack (f : Nat) (es : List Nat) : List Byte :=
  let n := es.foldr (fun e acc => acc * 2 ^ fmtBits f + e % 2 ^ fmtBits f) 0
  leBytes ((fmtBits f * es.length + 7) / 8) n

/-- FP32 bits widened to FP64 bits. -/
def f32to64 (n : Nat) : Nat := fp64.ne (fp32.value n)

/-! ### MX blocks -/

/-- emax by element format (R210). -/
def mxEmax (f : Nat) : Int :=
  match f with
  | 0xA => 8
  | 0xB => 15
  | 0xC => 2
  | _ => 1

/-- An encoded block: scale, element codes, conversion flags, and which counter it counts in (R211). -/
structure MxBlock where
  x     : Nat
  codes : List Nat
  flags : Nat
  isNan : Bool
  isUf  : Bool
deriving DecidableEq, Repr

/-- R211: 32 FP32 values encoded as a block of elements of format f, in mode rm, with a draw per element. -/
def mxEncode (f rm : Nat) (us : List Nat) (vals : List Nat) : MxBlock :=
  let vs := vals.map fp32.value
  let special := vs.any fun v => match v with
    | .fin .. => false
    | _ => true
  if special then ⟨0xFF, vals.map fun _ => 0, 0, true, false⟩
  else
    let tops := vs.filterMap fun v => match v with
      | .fin _ m e => if m = 0 then none else some (e + (Nat.log2 m : Int))
      | _ => none
    match tops.max? with
    | none => ⟨0x7F, vs.map fun v => (fmtOf f 0 0 true v).bits, 0, false, false⟩
    | some t =>
      let xi := t - mxEmax f + 127
      let x := if xi < 0 then 0 else xi.toNat
      let rs := (vs.zip us).map fun p => match p.1 with
        | .fin neg m e => fmtOf f rm p.2 true (.fin neg m (e + 127 - (x : Int)))
        | v => fmtOf f rm p.2 true v
      ⟨x, rs.map Rounded.bits, rs.foldl (fun a r => a ||| r.flags) 0, false, xi < 0⟩

/-- The value of an element of a block (R210). -/
def mxValue (f x code : Nat) : FV :=
  if x = 0xFF then .nan
  else match fmtValue f code with
    | .fin neg m e => .fin neg m (e + (x : Int) - 127)
    | v => v

/-- n draws from a generator. -/
def draws : Nat → BitVec 32 → List Nat × BitVec 32
  | 0, g => ([], g)
  | n + 1, g =>
    let g' := genNext g
    let (us, g'') := draws n g'
    (genU g' :: us, g'')

end Sys2Proof.Machine
end

