-- ==== Sys2Proof/Machine/Operands.lean ====
section
/-! DEFINITION. Reading and writing operands in every form (R134, R138, R141, R251, R252), and how an instruction of
the ALU classes executes over the threads of a sweep (R122, R265). -/

namespace Sys2Proof.Machine

open Sys2Proof

/-! ### Sources -/

/-- How a read of an operand ends. -/
inductive Rd where
  | ok (v : DWord) (p : Bool)
  | trap (code addr : Nat)
  | viol (cause addr : Nat)
  | waits
deriving DecidableEq, Repr

/-- A result of the access checks, where the access does not perform. -/
def Res.toRd (r : Res) (addr : Nat) : Rd :=
  match r with
  | .viol c => .viol c addr
  | .trap c => .trap c addr
  | .lost => .trap 0x0C addr
  | _ => .waits

/-- A register as a source: a dead register reads as settled zero, or traps (R138). -/
def Group.source (g : Group) (free t c : Nat) : Option Reg :=
  if g.isDead t c then (if g.ctl.trapd then none else some Reg.zero) else some (g.readReg free t c)

/-- The word address of a window operand: the A offset, its index and P, or a trap (R134). -/
def State.winAddr (s : State) (gid t n : Nat) : Except (Nat × Nat) (Nat × Bool) :=
  let g := s.grp gid
  match g.source s.free t 79 with
  | none => .error (0x02, 0)
  | some i =>
    let a := 4 * g.ctl.base n + 4 * i.v.toNat
    if g.ctl.len n ≤ i.v.toNat || 2 ^ 23 < a + 4 then .error (0x11, a) else .ok (a, i.p || g.ctl.winP n)

/-- A window read: a relaxed 32-bit load of the A space (R134). -/
def State.readWin (s : State) (gid t n : Nat) : State × Rd :=
  match s.winAddr gid t n with
  | .error (c, a) => (s, .trap c a)
  | .ok (a, p) => match s.reach (s.who gid t) (Acc.read .A a 4) with
    | (s, .ok key _) => (s, .ok (BitVec.ofNat 64 (s.mem.num key 4)) (p || s.mem.anyP key 4))
    | (s, r) => (s, r.toRd a)

/-- The literal word of a field of the instruction that issues (R246). -/
def Cur.lit (c : Cur) (f : Nat) : Nat := ((kfind c.lits f).getD 0#32).toNat

/-- A literal in a position: sign-extended, or widened from FP32, in a pair (R13). -/
def litVal (f : Form) (n : Nat) : DWord :=
  match f with
  | .psrc => BitVec.ofNat 64 (bitsOf 64 (signOf 32 n))
  | .fsrc => BitVec.ofNat 64 (f32to64 n)
  | .ssrc _ w fl => BitVec.ofNat 64 (if w then (if fl then f32to64 n else bitsOf 64 (signOf 32 n)) else n)
  | _ => BitVec.ofNat 64 n

/-- The position takes a pair. -/
def Form.isPair : Form → Bool
  | .psrc | .fsrc | .pdst | .ga | .exg | .evenx => true
  | .ssrc k w _ => k = 1 && w
  | .ldst _ w => w
  | _ => false

/-- The value of an operand for a thread, with its P (R251). A queue's element was popped before (R141). -/
def State.readOp (s : State) (gid t : Nat) (o : Operand) : State × Rd :=
  let g := s.grp gid
  let c := o.code.toNat
  if c < 112 then
    match g.source s.free t c with
    | none => (s, .trap 0x02 0)
    | some lo =>
      if o.form.isPair then match g.source s.free t (c + 1) with
        | none => (s, .trap 0x02 0)
        | some hi => (s, .ok (Word.pair lo.v hi.v) (lo.p || hi.p))
      else (s, .ok (BitVec.ofNat 64 lo.v.toNat) lo.p)
  else if c < 120 then s.readWin gid t (c - 112)
  else match c with
    | 120 => (s, .ok 0#64 false)
    | 121 => (s, .ok (litVal o.form (s.cur.lit o.fld.num)) false)
    | 122 => (s, .ok (BitVec.ofNat 64 t) false)
    | 123 => (s, .ok (BitVec.ofNat 64 g.lix) false)
    | _ =>
      let r := match kfind (g.thr t).popped (c - 124) with
        | some r => r
        | none => ((kfind s.sweep.pops (c - 124)).getD []).getD t Reg.zero
      (s, .ok (BitVec.ofNat 64 r.v.toNat) r.p)

/-- A form that reads its operand. -/
def Form.isSrc : Form → Bool
  | .src | .psrc | .fsrc | .both | .bothZ | .ga | .aa | .xg | .glz | .gl | .exg => true
  | .ssrc k _ _ => k = 1
  | _ => false

/-- The values that an instruction read, by field, and the OR of their P. -/
structure Vals where
  d : DWord
  a : DWord
  b : DWord
  c : DWord
  p : Bool
deriving DecidableEq, Repr

def Vals.zero : Vals := ⟨0#64, 0#64, 0#64, 0#64, false⟩

def Vals.set (v : Vals) (f : Fld) (x : DWord) (p : Bool) : Vals :=
  match f with
  | .D => { v with d := x, p := v.p || p }
  | .A => { v with a := x, p := v.p || p }
  | .B => { v with b := x, p := v.p || p }
  | .C => { v with c := x, p := v.p || p }

/-- Every source of a thread is read before anything is written (R265). -/
def State.readOps (s : State) (gid t : Nat) : List Operand → Vals → State × Except Rd Vals
  | [], v => (s, .ok v)
  | o :: os, v =>
    if !o.form.isSrc then s.readOps gid t os v
    else match s.readOp gid t o with
      | (s, .ok x p) => s.readOps gid t os (v.set o.fld x p)
      | (s, r) => (s, .error r)

/-! ### Destinations -/

/-- A destination that is ready: a window's A offset and key, or nothing to check (R134). -/
inductive Dst where
  | reg (c : Nat) (pair : Bool)
  | win (addr key : Nat) (p : Bool)
  | none
deriving DecidableEq, Repr

/-- The checks of a destination before the instruction performs. -/
def State.dstOp (s : State) (gid t : Nat) (o : Operand) : State × Except Rd Dst :=
  let c := o.code.toNat
  if c < 112 then (s, .ok (.reg c o.form.isPair))
  else if c < 120 then match s.winAddr gid t (c - 112) with
    | .error (x, a) => (s, .error (.trap x a))
    | .ok (a, p) => match s.reach (s.who gid t) (Acc.write .A a 4 false) with
      | (s, .ok key _) => (s, .ok (.win a key p))
      | (s, r) => (s, .error (r.toRd a))
  else (s, .ok .none)

/-- A fixed-latency result is written; one of variable latency is pending with its kind (R118, R134). In a pitcher
program an instruction issues only after every result that it reads has landed (R351): results land at once. -/
def State.writeDst (s : State) (gid t : Nat) (d : Dst) (v : DWord) (p : Bool) (kind : Option Nat) : State :=
  let kind := if (s.grp gid).kind = .pitcher then none else kind
  match d with
  | .none => s
  | .reg c pair =>
    let rs := if pair then [Reg.mk v.lo p, Reg.mk v.hi p] else [Reg.mk v.lo p]
    match kind with
    | none => s.updGrp gid fun g => (List.range rs.length).foldl (fun g i => g.writeReg t (c + i) (rs.getD i Reg.zero)) g
    | some k => s.updGrp gid fun g => { g with pend := g.pend ++ [⟨t, c, rs, k, none, [], none⟩] }
  | .win a key wp =>
    match kind with
    | none => s.put (s.who gid t) (Acc.write .A a 4 false) key (leBytes 4 v.lo.toNat) (p || wp) false true
    | some k => s.updGrp gid fun g => { g with pend := g.pend ++ [⟨t, a, [⟨v.lo, p || wp⟩], k, some key, [], none⟩] }

/-- A destination was checked for an instruction that then writes nothing: its store does not perform, and is no access (R144,
R182). -/
def State.unnote (s : State) (gid t : Nat) (d : Dst) : State :=
  match d with
  | .win _ key _ => { s with sweep := { s.sweep with ivs := s.sweep.ivs.erase ⟨s.agent gid t, key, 4, true, 0, []⟩ } }
  | .reg .. | .none => s

/-! ### Pitch queues (R141) -/

/-- The queue names that an instruction pops. -/
def popNames (i : Instr) : List Nat :=
  ((operands i).filterMap fun o =>
    if o.form.isSrc && 124 ≤ o.code.toNat && !(o.form.isPair) then some (o.code.toNat - 124) else none).eraseDups

/-- The queue of a core bound to a group under a name. -/
def Core.queueOf (c : Core) (gid name : Nat) : Option Nat :=
  (List.range 8).find? fun q => match (c.pqs.getD q PQ.reset).bound with
    | some (_, g, n) => g = gid && n = name
    | none => false

/-- How the pops of an instruction stand: ready, a trap with its address, or an empty queue. -/
inductive Pop where
  | ready | trap (code addr : Nat) | waits
deriving DecidableEq, Repr

def State.popCheck (s : State) (gid : Nat) : List Nat → Pop
  | [] => .ready
  | n :: ns =>
    let c := s.core (s.grp gid).core
    match c.queueOf gid n with
    | none => .trap 0x01 0
    | some q =>
      let e := c.pqs.getD q PQ.reset
      if e.entries.isEmpty then
        match e.ended with
        | some (0, _) => .trap 0x01 0
        | some (code, addr) => .trap code addr
        | none => .waits
      else s.popCheck gid ns

/-- The queues that the sweep still pops: none where its threads hold their elements from an earlier issue of the
instruction, at which they stayed. -/
def State.popNeeds (s : State) (i : Instr) : List Nat :=
  (popNames i).filter fun n => s.cur.mask.any fun t => (kfind (s.thr s.cur.gid t).popped n).isNone

/-- Pops the head entry of each named queue, once (R141). -/
def State.popAll (s : State) (gid : Nat) (ns : List Nat) : State :=
  ns.foldl (fun s n =>
    let k := (s.grp gid).core
    match (s.core k).queueOf gid n with
    | none => s
    | some q =>
      let e := (s.core k).pqs.getD q PQ.reset
      let s := s.updCore k fun c => { c with pqs := c.pqs.set q { e with entries := e.entries.tail } }
      { s with sweep := { s.sweep with pops := (n, e.entries.headD []) :: s.sweep.pops } }) s

/-! ### The checks before an instruction -/

/-- R351: what a pitcher program may run. A destination is an x code below 16, or z. -/
def pitchDst (d : Code) : Bool := d.toNat < 16 || d.toNat = 120
def pitchSrcs (i : Instr) : Bool := (operands i).all fun o => !(112 ≤ o.code.toNat && o.code.toNat < 120) && o.code.toNat < 124
def pitchOk (i : Instr) : Bool :=
  pitchSrcs i && match i with
  | .iadd d _ _ _ | .isub d _ _ _ | .imul d _ _ | .and d _ _ | .or d _ _ | .xor d _ _ | .shl d _ _ | .shr d _ _ => pitchDst d
  | .mov d _ | .movi d _ | .movh d _ | .lea d _ _ _ | .iaddD d _ _ | .movD d _ => pitchDst d
  | .fadd d _ _ _ | .fmul d _ _ _ | .fcvt d _ _ _ => pitchDst d
  | .ld d _ _ o _ | .lda d _ _ o _ | .ldw d _ _ o _ => pitchDst d && o = 0#3
  | .ldOff d _ _ o _ | .ldaOff d _ _ o _ | .ldwOff d _ _ o _ => pitchDst d && o = 0#3
  | .qpush _ _ => true
  | _ => false

/-- Decode, operand and role checks of R259 and the pops of R141, then the instruction's own sweep. A path whose instruction is not
ready to issue stays at it as a whole, its guarded threads too. -/
def State.gate (s : State) (i : Instr) (k : State → State) : State :=
  let g := s.cg
  if !(roleOk g.role i && legal g.regs i && (g.kind ≠ .pitcher || pitchOk i)) then s.illegal
  else if s.cur.mask.isEmpty then s.finish
  else match s.popCheck s.cur.gid (s.popNeeds i) with
    | .trap c a => (s.trapAll s.cur.mask c a).finish
    | .waits => (s.stayAll s.cur.path).finish
    | .ready => k (s.popAll s.cur.gid (s.popNeeds i))

/-- The turns of a sweep over some threads: each of them, or for a uniform instruction the lowest alone. The second part lists the
threads that a trap or a park of this turn concerns (R122). -/
def turnsOf (i : Instr) (mask : List Nat) : List (Nat × List Nat) :=
  if isUniform i then match mask with
    | [] => []
    | t :: _ => [(t, mask)]
  else mask.map fun t => (t, [t])

/-- The turns of the sweep: its active threads'. -/
def State.turns (s : State) (i : Instr) : List (Nat × List Nat) := turnsOf i s.cur.mask

/-- The P that a turn's result takes beside its sources' (R122, R221, R225). -/
def State.ambient (s : State) (tt : List Nat) : Bool := s.cg.ambientAny tt

/-- What a read that did not succeed does to its threads. -/
def State.failRd (s : State) (tt : List Nat) (r : Rd) : State :=
  match r with
  | .trap c a => s.trapAll tt c a
  | .viol c a => s.violAll tt c a
  | _ => s.stayAll tt

/-- What one access of a uniform instruction used up was used up for all of its threads (R122, R144). -/
def State.firmOf (s : State) (tt : List Nat) : State := if s.sweep.firm.contains (tt.headD 0) then s.firmAll tt else s

/-- What checks of an access that did not pass do to their threads: a closed granule holds a read (R145), and a request that
ended with its link traps `UNCORRECTABLE` (R32). -/
def State.failRes (s : State) (tt : List Nat) (r : Res) (addr : Nat) : State :=
  match r with
  | .trap c => (s.firmOf tt).trapAll tt c addr
  | .viol c => s.violAll tt c addr
  | .closed => s.holdAll tt false false
  | .lost => (s.firmOf tt).trapAll tt 0x0C addr
  | _ => s.stayAll tt

/-! ### ALU instructions (R265) -/

/-- What an operation gives: its value, its flags, a P of its own (R205), and the generator after its draws. -/
structure Ans where
  v   : DWord
  fl  : Nat
  p   : Bool
  gen : BitVec 32
deriving DecidableEq, Repr

/-- What an operation may read beside its operands: rounding mode, generator, and the predicates it names. -/
structure Env where
  rm    : Nat
  gen   : BitVec 32
  preds : List Bool
deriving DecidableEq, Repr

/-- The destination D of an instruction, checked. -/
def State.dstReady (s : State) (gid t : Nat) (i : Instr) : State × Except Rd Dst :=
  match (operands i).find? fun o => o.fld = .D with
  | some o => s.dstOp gid t o
  | none => (s, .ok .none)

/-- The answer of an ALU operation for a thread of a group. -/
def Group.answer (g : Group) (ps : List Nat) (f : Env → Vals → Ans) (v : Vals) (t : Nat) : Ans :=
  f ⟨g.ctl.rm, (g.thr t).gen, (ps.map (g.readPred t)).map PReg.v⟩ v

/-- The P of its result: that of the sources, of the predicates read, of the operation, of path taint and guard (R221). -/
def Group.answerP (g : Group) (ps : List Nat) (f : Env → Vals → Ans) (v : Vals) (t : Nat) (tt : List Nat) : Bool :=
  v.p || (ps.map (g.readPred t)).any PReg.p || (g.answer ps f v t).p || g.ambientAny tt

/-- The operation of a thread whose sources and destination are ready: trap `ARITH`, or write (R265). -/
def State.aluWrite (s : State) (kind : Option Nat) (ps : List Nat) (pd : Option Nat) (f : Env → Vals → Ans)
    (u : Nat × List Nat) (v : Vals) (d : Dst) : State :=
  let gid := s.cur.gid
  let g := s.grp gid
  let r := g.answer ps f v u.1
  let p := g.answerP ps f v u.1 u.2
  let s := s.raiseFlags r.fl
  if r.fl &&& g.ctl.ten ≠ 0 then (s.unnote gid u.1 d).trapAll u.2 0x0F 0
  else
    let s := s.updThr gid u.1 fun x => { x with gen := r.gen }
    match pd with
    | some n => s.updGrp gid fun g => g.writePred u.1 n ⟨r.v ≠ 0#64, p⟩
    | none => s.writeDst gid u.1 d r.v p kind

/-- One turn of an ALU instruction: read, compute, trap `ARITH` or write (R265). The result goes to the operand D, or
to predicate `pd`; `kind` is the kind of a variable-latency result. -/
def State.aluTurn (s : State) (i : Instr) (kind : Option Nat) (ps : List Nat) (pd : Option Nat)
    (f : Env → Vals → Ans) (u : Nat × List Nat) : State :=
  match s.readOps s.cur.gid u.1 (operands i) Vals.zero with
  | (s, .error r) => s.failRd u.2 r
  | (s, .ok v) => match s.dstReady s.cur.gid u.1 i with
    | (s, .error r) => s.failRd u.2 r
    | (s, .ok d) => s.aluWrite kind ps pd f u v d

/-- An ALU instruction over its sweep. -/
def State.alu (s : State) (i : Instr) (kind : Option Nat) (ps : List Nat) (pd : Option Nat)
    (f : Env → Vals → Ans) : State :=
  s.gate i fun s => ((s.turns i).foldl (fun s u => s.aluTurn i kind ps pd f u) s).finish

/-- A result without flags. -/
def Env.plain (e : Env) (v : DWord) : Ans := ⟨v, 0, false, e.gen⟩
def Env.nat (e : Env) (n : Nat) : Ans := e.plain (BitVec.ofNat 64 n)
def Env.int32 (e : Env) (n : Int) : Ans := e.nat (bitsOf 32 n)
def Env.bool (e : Env) (b : Bool) : Ans := e.nat (if b then 1 else 0)

end Sys2Proof.Machine
end

