-- ==== Sys2Proof/Machine/Flags.lean ====
section
/-! DEFINITION. Conditions (R256), the rounding that an instruction's M field selects (R266), and the floating flags of
an operation (R207). -/

namespace Sys2Proof.Machine

open Sys2Proof

/-- R256: an integer condition on two n-bit values. -/
def icond (n c a b : Nat) : Bool :=
  match c with
  | 0 => a = b
  | 1 => a ≠ b
  | 2 => signOf n a < signOf n b
  | 3 => signOf n a ≤ signOf n b
  | 4 => signOf n b < signOf n a
  | 5 => signOf n b ≤ signOf n a
  | 6 => a < b
  | _ => b ≤ a

/-- R266: the mode that M selects; with M = 0 the mode of `FPCTL`, where 4 is nearest-even but for a conversion into
a narrow format. -/
def roundM (rm m : Nat) (stoch : Bool) : Nat :=
  if m = 0 then (if rm = 4 && !stoch then 0 else rm) else m - 1

/-- The exact result of a floating operation rounded once into a format, with the flags of the operation (R266). -/
def Env.fp (e : Env) (f : FFmt) (m : Nat) (op : Nat → FV × Nat) : Ans :=
  let rm := roundM e.rm m false
  let (v, fl) := op rm
  let r := f.ofVal rm 0 false v
  ⟨BitVec.ofNat 64 r.bits, fl ||| r.flags, false, e.gen⟩

/-- The value of an operand in a format. -/
def val (f : FFmt) (x : DWord) : FV := f.value (x.toNat % 2 ^ (f.man + f.exp + 1))

end Sys2Proof.Machine
end

