-- ==== Sys2Proof/Machine/Int.lean ====
section
/-! DEFINITION. Integer instructions (R267 to R271). -/

namespace Sys2Proof.Machine

open Sys2Proof

/-- The unsigned and signed 32-bit readings of an operand. -/
def u32 (x : DWord) : Nat := x.toNat % 2 ^ 32
def i32 (x : DWord) : Int := signOf 32 x.toNat
def i64 (x : DWord) : Int := signOf 64 x.toNat

/-- R267: wrapping, signed-saturating and unsigned-saturating add and subtract. -/
def addM (m : Nat) (a b : DWord) : Int :=
  match m with
  | 1 => clampI (-2 ^ 31) (2 ^ 31 - 1) (i32 a + i32 b)
  | 2 => clampI 0 (2 ^ 32 - 1) ((u32 a : Int) + u32 b)
  | _ => (u32 a : Int) + u32 b
def subM (m : Nat) (a b : DWord) : Int :=
  match m with
  | 1 => clampI (-2 ^ 31) (2 ^ 31 - 1) (i32 a - i32 b)
  | 2 => clampI 0 (2 ^ 32 - 1) ((u32 a : Int) - u32 b)
  | _ => (u32 a : Int) - u32 b

/-- R269: quotient and remainder. -/
def divM (m : Nat) (a b : DWord) : Int :=
  if u32 b = 0 then -1
  else if m = 1 then (u32 a / u32 b : Nat)
  else Int.tdiv (i32 a) (i32 b)
def remM (m : Nat) (a b : DWord) : Int :=
  if u32 b = 0 then u32 a
  else if m = 1 then (u32 a % u32 b : Nat)
  else Int.tmod (i32 a) (i32 b)

/-- R268 for w-bit values: shifts by the whole count. -/
def shlN (w a c : Nat) : Nat := if w ≤ c then 0 else a * 2 ^ c % 2 ^ w
def shrN (w a c : Nat) : Nat := if w ≤ c then 0 else a / 2 ^ c
def sarN (w a c : Nat) : Nat := bitsOf w (signOf w a / 2 ^ min c w)
def rotlN (a c : Nat) : Nat := let k := c % 32; (a * 2 ^ k + a / 2 ^ (32 - k)) % 2 ^ 32

/-- R268: bit-field extract and insert. -/
def bfxN (sgn : Bool) (a pos w : Nat) : Nat :=
  if w = 0 || 32 ≤ pos then 0
  else
    let w' := min w (32 - pos)
    let f := a / 2 ^ pos % 2 ^ w'
    if sgn then bitsOf 32 (signOf w' f) else f
def bfiN (d a pos w : Nat) : Nat :=
  if w = 0 || 32 ≤ pos then d
  else
    let w' := min w (32 - pos)
    d % 2 ^ pos + a % 2 ^ w' * 2 ^ pos + d / 2 ^ (pos + w') * 2 ^ (pos + w')

def popcN (n : Nat) : Nat := ((List.range 32).map fun i => n / 2 ^ i % 2).sum
def clzN (n : Nat) : Nat := if n = 0 then 32 else 31 - Nat.log2 n
def brevN (n : Nat) : Nat := ((List.range 32).map fun i => n / 2 ^ i % 2 * 2 ^ (31 - i)).sum

/-- `IADD` (R267). -/
def execIadd (d : BitVec 7) (a : BitVec 7) (b : BitVec 7) (m : BitVec 3) (s : State) : Out :=
  .next (s.alu (.iadd d a b m) none [] none fun e v => e.int32 (addM m.toNat v.a v.b))

/-- `ISUB` (R267). -/
def execIsub (d : BitVec 7) (a : BitVec 7) (b : BitVec 7) (m : BitVec 3) (s : State) : Out :=
  .next (s.alu (.isub d a b m) none [] none fun e v => e.int32 (subM m.toNat v.a v.b))

/-- `IMUL` (R267). -/
def execImul (d : BitVec 7) (a : BitVec 7) (b : BitVec 7) (s : State) : Out :=
  .next (s.alu (.imul d a b) none [] none fun e v => e.nat (u32 v.a * u32 v.b % 2 ^ 32))

/-- `IMULH` (R267): signed, or unsigned with M = 1. -/
def execImulh (d : BitVec 7) (a : BitVec 7) (b : BitVec 7) (m : BitVec 3) (s : State) : Out :=
  .next (s.alu (.imulh d a b m) none [] none fun e v => if m.toNat = 1 then e.nat (u32 v.a * u32 v.b / 2 ^ 32) else e.int32 (i32 v.a * i32 v.b / 2 ^ 32))

/-- `IMAD` (R267). -/
def execImad (d : BitVec 7) (a : BitVec 7) (b : BitVec 7) (c : BitVec 7) (s : State) : Out :=
  .next (s.alu (.imad d a b c) none [] none fun e v => e.nat ((u32 v.a * u32 v.b + u32 v.c) % 2 ^ 32))

/-- `IDIV` (R269), a result of variable latency. -/
def execIdiv (d : BitVec 7) (a : BitVec 7) (b : BitVec 7) (m : BitVec 3) (s : State) : Out :=
  .next (s.alu (.idiv d a b m) (some 4) [] none fun e v => e.int32 (divM m.toNat v.a v.b))

/-- `IREM` (R269), a result of variable latency. -/
def execIrem (d : BitVec 7) (a : BitVec 7) (b : BitVec 7) (m : BitVec 3) (s : State) : Out :=
  .next (s.alu (.irem d a b m) (some 4) [] none fun e v => e.int32 (remM m.toNat v.a v.b))

/-- `IMIN` (R267). -/
def execImin (d : BitVec 7) (a : BitVec 7) (b : BitVec 7) (m : BitVec 3) (s : State) : Out :=
  .next (s.alu (.imin d a b m) none [] none fun e v => if m.toNat = 1 then e.nat (min (u32 v.a) (u32 v.b)) else e.int32 (min (i32 v.a) (i32 v.b)))

/-- `IMAX` (R267). -/
def execImax (d : BitVec 7) (a : BitVec 7) (b : BitVec 7) (m : BitVec 3) (s : State) : Out :=
  .next (s.alu (.imax d a b m) none [] none fun e v => if m.toNat = 1 then e.nat (max (u32 v.a) (u32 v.b)) else e.int32 (max (i32 v.a) (i32 v.b)))

/-- `IABS` (R267). -/
def execIabs (d : BitVec 7) (a : BitVec 7) (m : BitVec 3) (s : State) : Out :=
  .next (s.alu (.iabs d a m) none [] none fun e v => e.int32 (if m.toNat = 1 then clampI (-2 ^ 31) (2 ^ 31 - 1) (i32 v.a).natAbs else (i32 v.a).natAbs))

/-- `INEG` (R267). -/
def execIneg (d : BitVec 7) (a : BitVec 7) (m : BitVec 3) (s : State) : Out :=
  .next (s.alu (.ineg d a m) none [] none fun e v => e.int32 (if m.toNat = 1 then clampI (-2 ^ 31) (2 ^ 31 - 1) (-i32 v.a) else -i32 v.a))

/-- `AND` (R267). -/
def execAnd (d : BitVec 7) (a : BitVec 7) (b : BitVec 7) (s : State) : Out :=
  .next (s.alu (.and d a b) none [] none fun e v => e.nat (u32 v.a &&& u32 v.b))

/-- `OR` (R267). -/
def execOr (d : BitVec 7) (a : BitVec 7) (b : BitVec 7) (s : State) : Out :=
  .next (s.alu (.or d a b) none [] none fun e v => e.nat (u32 v.a ||| u32 v.b))

/-- `XOR` (R267). -/
def execXor (d : BitVec 7) (a : BitVec 7) (b : BitVec 7) (s : State) : Out :=
  .next (s.alu (.xor d a b) none [] none fun e v => e.nat (u32 v.a ^^^ u32 v.b))

/-- `ANDN` (R267). -/
def execAndn (d : BitVec 7) (a : BitVec 7) (b : BitVec 7) (s : State) : Out :=
  .next (s.alu (.andn d a b) none [] none fun e v => e.nat (u32 v.a &&& (2 ^ 32 - 1 - u32 v.b)))

/-- `NOT` (R267). -/
def execNot (d : BitVec 7) (a : BitVec 7) (s : State) : Out :=
  .next (s.alu (.not d a) none [] none fun e v => e.nat (2 ^ 32 - 1 - u32 v.a))

/-- `SHL` (R268). -/
def execShl (d : BitVec 7) (a : BitVec 7) (b : BitVec 7) (s : State) : Out :=
  .next (s.alu (.shl d a b) none [] none fun e v => e.nat (shlN 32 (u32 v.a) (u32 v.b)))

/-- `SHR` (R268). -/
def execShr (d : BitVec 7) (a : BitVec 7) (b : BitVec 7) (s : State) : Out :=
  .next (s.alu (.shr d a b) none [] none fun e v => e.nat (shrN 32 (u32 v.a) (u32 v.b)))

/-- `SAR` (R268). -/
def execSar (d : BitVec 7) (a : BitVec 7) (b : BitVec 7) (s : State) : Out :=
  .next (s.alu (.sar d a b) none [] none fun e v => e.nat (sarN 32 (u32 v.a) (u32 v.b)))

/-- `ROTL` (R268). -/
def execRotl (d : BitVec 7) (a : BitVec 7) (b : BitVec 7) (s : State) : Out :=
  .next (s.alu (.rotl d a b) none [] none fun e v => e.nat (rotlN (u32 v.a) (u32 v.b)))

/-- `POPC` (R267). -/
def execPopc (d : BitVec 7) (a : BitVec 7) (s : State) : Out :=
  .next (s.alu (.popc d a) none [] none fun e v => e.nat (popcN (u32 v.a)))

/-- `CLZ` (R267). -/
def execClz (d : BitVec 7) (a : BitVec 7) (s : State) : Out :=
  .next (s.alu (.clz d a) none [] none fun e v => e.nat (clzN (u32 v.a)))

/-- `BREV` (R267). -/
def execBrev (d : BitVec 7) (a : BitVec 7) (s : State) : Out :=
  .next (s.alu (.brev d a) none [] none fun e v => e.nat (brevN (u32 v.a)))

/-- `BFX` (R268): B is the position, C the width (log entry 7). -/
def execBfx (d : BitVec 7) (a : BitVec 7) (b : BitVec 7) (m : BitVec 3) (c : BitVec 7) (s : State) : Out :=
  .next (s.alu (.bfx d a b m c) none [] none fun e v => e.nat (bfxN (m.toNat = 1) (u32 v.a) (u32 v.b) (u32 v.c)))

/-- `BFI` (R268): B is the position, C the width (log entry 7). -/
def execBfi (d : BitVec 7) (a : BitVec 7) (b : BitVec 7) (c : BitVec 7) (s : State) : Out :=
  .next (s.alu (.bfi d a b c) none [] none fun e v => e.nat (bfiN (u32 v.d) (u32 v.a) (u32 v.b) (u32 v.c)))

/-- `SEL` (R267). -/
def execSel (d : BitVec 7) (a : BitVec 7) (b : BitVec 7) (p : BitVec 3) (s : State) : Out :=
  .next (s.alu (.sel d a b p) none [p.toNat] none fun e v => e.nat (if e.preds.getD 0 false then u32 v.a else u32 v.b))

/-- `MOV` (R267). -/
def execMov (d : BitVec 7) (a : BitVec 7) (s : State) : Out :=
  .next (s.alu (.mov d a) none [] none fun e v => e.nat (u32 v.a))

/-- `MOVI` (R271): a sign-extended 17-bit immediate. -/
def execMovi (d : BitVec 7) (i : BitVec 17) (s : State) : Out :=
  .next (s.alu (.movi d i) none [] none fun e v => let _ := v; e.int32 (signOf 17 i.toNat))

/-- `MOVH` (R271). -/
def execMovh (d : BitVec 7) (i : BitVec 16) (s : State) : Out :=
  .next (s.alu (.movh d i) none [] none fun e v => e.nat (i.toNat * 2 ^ 16 + u32 v.d % 2 ^ 16))

/-- `LEA` (R271). -/
def execLea (d : BitVec 7) (a : BitVec 7) (b : BitVec 7) (sh : BitVec 3) (s : State) : Out :=
  .next (s.alu (.lea d a b sh) none [] none fun e v => e.nat (bitsOf 64 ((v.a.toNat : Int) + i32 v.b * 2 ^ sh.toNat)))

/-- `ICMP` (R256). -/
def execIcmp (p : BitVec 7) (a : BitVec 7) (b : BitVec 7) (c : BitVec 3) (s : State) : Out :=
  .next (s.alu (.icmp p a b c) none [] (some p.toNat) fun e v => e.bool (icond 32 c.toNat (u32 v.a) (u32 v.b)))

/-- `IADD.D` (R270). -/
def execIaddD (d : BitVec 7) (a : BitVec 7) (b : BitVec 7) (s : State) : Out :=
  .next (s.alu (.iaddD d a b) none [] none fun e v => e.nat ((v.a.toNat + v.b.toNat) % 2 ^ 64))

/-- `ISUB.D` (R270). -/
def execIsubD (d : BitVec 7) (a : BitVec 7) (b : BitVec 7) (s : State) : Out :=
  .next (s.alu (.isubD d a b) none [] none fun e v => e.nat (bitsOf 64 ((v.a.toNat : Int) - v.b.toNat)))

/-- `IMUL.D` (R270). -/
def execImulD (d : BitVec 7) (a : BitVec 7) (b : BitVec 7) (s : State) : Out :=
  .next (s.alu (.imulD d a b) none [] none fun e v => e.nat (v.a.toNat * v.b.toNat % 2 ^ 64))

/-- `IMAD.D` (R270). -/
def execImadD (d : BitVec 7) (a : BitVec 7) (b : BitVec 7) (c : BitVec 7) (s : State) : Out :=
  .next (s.alu (.imadD d a b c) none [] none fun e v => e.nat ((v.a.toNat * v.b.toNat + v.c.toNat) % 2 ^ 64))

/-- `IMIN.D` (R270). -/
def execIminD (d : BitVec 7) (a : BitVec 7) (b : BitVec 7) (m : BitVec 3) (s : State) : Out :=
  .next (s.alu (.iminD d a b m) none [] none fun e v => if m.toNat = 1 then e.nat (min v.a.toNat v.b.toNat) else e.nat (bitsOf 64 (min (i64 v.a) (i64 v.b))))

/-- `IMAX.D` (R270). -/
def execImaxD (d : BitVec 7) (a : BitVec 7) (b : BitVec 7) (m : BitVec 3) (s : State) : Out :=
  .next (s.alu (.imaxD d a b m) none [] none fun e v => if m.toNat = 1 then e.nat (max v.a.toNat v.b.toNat) else e.nat (bitsOf 64 (max (i64 v.a) (i64 v.b))))

/-- `AND.D` (R270). -/
def execAndD (d : BitVec 7) (a : BitVec 7) (b : BitVec 7) (s : State) : Out :=
  .next (s.alu (.andD d a b) none [] none fun e v => e.nat (v.a.toNat &&& v.b.toNat))

/-- `OR.D` (R270). -/
def execOrD (d : BitVec 7) (a : BitVec 7) (b : BitVec 7) (s : State) : Out :=
  .next (s.alu (.orD d a b) none [] none fun e v => e.nat (v.a.toNat ||| v.b.toNat))

/-- `XOR.D` (R270). -/
def execXorD (d : BitVec 7) (a : BitVec 7) (b : BitVec 7) (s : State) : Out :=
  .next (s.alu (.xorD d a b) none [] none fun e v => e.nat (v.a.toNat ^^^ v.b.toNat))

/-- `SHL.D` (R270): B is single. -/
def execShlD (d : BitVec 7) (a : BitVec 7) (b : BitVec 7) (s : State) : Out :=
  .next (s.alu (.shlD d a b) none [] none fun e v => e.nat (shlN 64 v.a.toNat (u32 v.b)))

/-- `SHR.D` (R270): B is single. -/
def execShrD (d : BitVec 7) (a : BitVec 7) (b : BitVec 7) (s : State) : Out :=
  .next (s.alu (.shrD d a b) none [] none fun e v => e.nat (shrN 64 v.a.toNat (u32 v.b)))

/-- `SAR.D` (R270): B is single. -/
def execSarD (d : BitVec 7) (a : BitVec 7) (b : BitVec 7) (s : State) : Out :=
  .next (s.alu (.sarD d a b) none [] none fun e v => e.nat (sarN 64 v.a.toNat (u32 v.b)))

/-- `MOV.D` (R270). -/
def execMovD (d : BitVec 7) (a : BitVec 7) (s : State) : Out :=
  .next (s.alu (.movD d a) none [] none fun e v => e.nat v.a.toNat)

/-- `SEL.D` (R270). -/
def execSelD (d : BitVec 7) (a : BitVec 7) (b : BitVec 7) (p : BitVec 3) (s : State) : Out :=
  .next (s.alu (.selD d a b p) none [p.toNat] none fun e v => e.nat (if e.preds.getD 0 false then v.a.toNat else v.b.toNat))

/-- `ICMP.D` (R270). -/
def execIcmpD (p : BitVec 7) (a : BitVec 7) (b : BitVec 7) (c : BitVec 3) (s : State) : Out :=
  .next (s.alu (.icmpD p a b c) none [] (some p.toNat) fun e v => e.bool (icond 64 c.toNat v.a.toNat v.b.toNat))

end Sys2Proof.Machine
end

