-- ==== Sys2Proof/Machine/Control.lean ====
section
/-! DEFINITION. Clause headers (R242 to R247), branches, calls and the return stack (R224, R225, R283, R284), `JOIN`,
`LOOP`, ends and regions (R285 to R287, R290 to R293). -/

namespace Sys2Proof.Machine

open Sys2Proof

/-! ### Clauses -/

/-- The index of the k-th instruction's first word in its clause (R246). -/
def instrIdx (ws : List Word) : Nat → Nat
  | 0 => 0
  | 1 => 1
  | k + 1 => let i := instrIdx ws k; i + lengthOf (ws.getD i 0#32)

/-- The k-th instruction's words; the second is 0 where it has one word. -/
def instrWords (ws : List Word) (k : Nat) : Word × Word :=
  let i := instrIdx ws k
  let w := ws.getD i 0#32
  (w, if lengthOf w = 2 then ws.getD (i + 1) 0#32 else 0#32)

/-- The literal words of the k-th instruction by field (R246). -/
def instrLits (ws : List Word) (k : Nat) : List (Nat × Word) :=
  let n := hdrN (ws.headD 0#32)
  let slots := fun j => let (w, u) := instrWords ws j; litSlots w u
  let skip := ((List.range (k - 1)).map fun j => (slots (j + 1)).length).sum
  let base := instrIdx ws (n + 1) + skip
  ((slots k).zip (List.range (slots k).length)).map fun e => (e.1, ws.getD (base + e.2) 0#32)

/-- The address after a clause's last literal word. -/
def clauseEnd (hdr : Nat) (ws : List Word) : Nat := (hdr + 4 * ws.length) % 2 ^ 64

/-- A clause that ends in a branch: `BRA`, `BRX`, `CALL`, `CALLX` or `RET` (R225). -/
def endsInBranch (ws : List Word) : Bool :=
  let op := opOf (instrWords ws (hdrN (ws.headD 0#32))).1
  0x70 ≤ op && op ≤ 0x74

/-- The issue context of a position, from the clause words that the group holds (R248). -/
def State.curAt (s : State) (gid : Nat) (pos : Pos) (path mask : List Nat) : Cur :=
  let ws := (kfind (s.grp gid).clauses pos.hdr).getD []
  let h := ws.headD 0#32
  let wu := instrWords ws pos.k
  { gid := gid, path := path, mask := mask, pos := pos, iaddr := (pos.hdr + 4 * instrIdx ws pos.k) % 2 ^ 64,
    nextHdr := clauseEnd pos.hdr ws, n := hdrN h, sw := hdrSw h, w := wu.1, u := wu.2, lits := instrLits ws pos.k,
    ioff := 0, rep := ((s.grp gid).thr (path.headD 0)).replay }

/-- Parked threads complete the instruction that they stand at and move on; a switch marker after it parks the group
while a result is in flight (R119). -/
def State.resume (s : State) (gid : Nat) (tids : List Nat) : State :=
  let park := (tids.any fun t => (s.curAt gid (s.thr gid t).pos [] []).marker) && s.outstanding gid
  s.updGrp gid fun g =>
    let g := tids.foldl (fun g t => g.updThr t fun x =>
      { x.advance (s.curAt gid x.pos [] []) with stays := false, popped := [] }) g
    if park then { g with gpark := some .marker, again := true } else g

/-- A park record is gone. -/
def State.unpark (s : State) (gid idx : Nat) : State :=
  s.updGrp gid fun g => { g with parks := g.parks.eraseIdx idx }

/-- Threads of the sweep stay at the instruction, parked (R114). -/
def State.park (s : State) (tids : List Nat) (k : Park) : State :=
  (s.updGrp s.cur.gid fun g => { g with parks := g.parks ++ [⟨tids, k⟩] }).stayAll tids

/-! ### Header waits (R120) -/

/-- Whether the operations that a wait bit names have completed for a group. -/
def State.waitDone (s : State) (gid bit : Nat) : Bool :=
  let g := s.grp gid
  let c := s.core g.core
  let landed := g.pend.all fun p => p.kind ≠ bit
  match bit with
  | 0 => landed && g.threads.all fun t => !t.held && !t.replay
  | 1 => landed && c.xfers.all fun x => x.uid ≠ g.uid
  | 2 => landed && c.huddles.all fun h => h.sigs.all fun x => x.uid ≠ g.uid || x.kind = 0 || x.kind = 3
  | 3 => landed && c.cmds.all fun x => x.uid ≠ g.uid || match x.kind with
      | .coll _ | .amsg .. | .subf _ | .subfSrc => false
      | _ => true
  | _ => landed

def State.waitsDone (s : State) (gid bits : Nat) : Bool :=
  (List.range 5).all fun b => bits / 2 ^ b % 2 = 0 || s.waitDone gid b

/-! ### The clause header (R244) -/

/-- R224: before an instruction, taint entries for this PC and depth pop. -/
def popTaint (pc depth : Nat) : List Taint → List Taint
  | [] => []
  | e :: es => if e.pc = pc && e.depth = depth then popTaint pc depth es else e :: es

def Thread.depth (x : Thread) : Nat := x.ret.length + x.spilled

/-- Clauses that no thread stands in are dropped, unless a handler may return into them (R144, R248). -/
def Group.pruneClauses (g : Group) : Group :=
  if g.ctl.inh then g
  else { g with clauses := g.clauses.filter fun c => g.threads.any fun t => t.pos.hdr = c.1 }

/-- The guard of a thread: its outcome and the P of its predicate (R225). -/
def Group.guard (g : Group) (h : Word) (t : Nat) : Bool × Bool :=
  if hdrGen h then let r := g.readPred t (hdrPred h); (r.v != hdrNeg h, r.p) else (true, false)

/-- The path enters the clause: guards are read once (log entry 10); a clause whose guard leaves no thread active is
skipped, unless it ends in a branch that depends on a proposal (R247, R225). -/
def State.enterClause (s : State) (ws : List Word) : State :=
  let h := ws.headD 0#32
  let hdr := s.cur.pos.hdr
  let br := endsInBranch ws
  let s := { s with cur := { s.cur with nextHdr := clauseEnd hdr ws, n := hdrN h, sw := 0 } }
  let s := s.updGrp s.cur.gid fun g =>
    let gs := s.cur.path.map fun t => (t, g.guard h t)
    let live := gs.any fun e => e.2.1
    let dep := br && gs.any fun e => e.2.2
    let g := { g with clauses := kset g.clauses hdr ws }
    let g := gs.foldl (fun g e => g.updThr e.1 fun x =>
      let x := { x with gact := e.2.1, gp := !br && e.2.2, gbp := br && e.2.2 }
      if live then { x with pos := ⟨hdr, 1⟩ }
      else if dep then { x with pos := ⟨hdr, hdrN h⟩ }
      else { x.advance { s.cur with pos := ⟨hdr, hdrN h⟩ } with gp := false, gbp := false }) g
    g.pruneClauses
  (s.movedAll s.cur.path).finish

/-- R351: a pitcher program reaches a header: a word with N = 0 after an instruction ends the iteration (log entry 11); a guard, class CTRL
or a 65th instruction ends the program `ILLEGAL`. -/
def State.pitchHeader (s : State) (p : Prog) (ws : List Word) : State :=
  let h := ws.headD 0#32
  if hdrN h = 0 && 0 < p.count then
    if p.iters ≤ p.done + 1 then
      let s := s.endProgram s.cg.core 0 0
      { s with sweep := Sweep.reset, now := s.now + 1, free := s.free + 1 }
    else
      let s := s.updCore s.cg.core fun c => { c with run := some { p with done := p.done + 1, count := 0 } }
      let s := s.updGrp s.cur.gid fun g => s.cur.path.foldl (fun g t => g.updThr t fun x => { x with pos := ⟨p.entry, 0⟩ }) g
      (s.movedAll s.cur.path).finish
  else if hdrBad h || hdrGen h || hdrCls h = 5 || 64 < p.count + hdrN h then (s.trapAll s.cur.path 0x01 s.cur.pos.hdr).finish
  else (s.updCore s.cg.core fun c => { c with run := some { p with count := p.count + hdrN h } }).enterClause ws

/-- A deferred fault is taken at a header with these wait bits: a matrix fault at bit 2 (R366), a `CPY`'s at bit 1 (R182). -/
def Deferred.dueAt (d : Deferred) (bits : Nat) : Bool := bits / (if d.tag.isSome then 2 else 4) % 2 = 1

/-- Deferred faults of the path's threads are taken at a header with these wait bits (R182, R366). -/
def State.deferredTaken (s : State) (bits : Nat) : State :=
  let g := s.cg
  let es := (g.deferred.filter fun d => d.dueAt bits).flatMap fun d =>
    (d.tids.filter s.cur.path.contains).map fun t => (t, d.code, d.addr)
  match (es.map fun e => e.2.1).min? with
  | none => s
  | some code =>
    let left := fun (d : Deferred) =>
      if d.code = code && d.dueAt bits then { d with tids := d.tids.filter fun t => !s.cur.path.contains t } else d
    let s := s.updGrp s.cur.gid fun g => { g with deferred := (g.deferred.map left).filter fun d => !d.tids.isEmpty }
    { s with sweep := { s.sweep with traps := es } }

/-! ### Argument blocks (R75) -/

/-- The argument block of a group: its launch's, or its context's active-message record's (R78). -/
def State.argBlock (s : State) (gid : Nat) : Nat × Nat :=
  let g := s.grp gid
  match s.launch? g.lid with
  | some l => (l.f.argp, l.f.arglen)
  | none => match (s.core g.core).amRecs.find? fun a => a.ctx = g.ctx with
    | some a => (a.argp, a.arglen)
    | none => (0, 0)

/-- The words of the argument block of a group, each with the P of its sector. DESIGN CHOICE (log entry 76): a poisoned sector is
read as it stands. -/
def State.argWords (s : State) (gid va : Nat) : Nat → State × Except (Res × Nat) (List Reg)
  | 0 => (s, .ok [])
  | n + 1 =>
    let rest := fun (s : State) (r : Reg) => match s.argWords gid (va + 4) n with
      | (s, .ok rs) => (s, .ok (r :: rs))
      | e => e
    match s.reachGlobal (hwWho (s.grp gid).ctx (argNo gid)) { Acc.read .global va 4 with kind := 10 } with
    | (s, .ok key attr) => rest s ⟨BitVec.ofNat 32 (s.mem.num key 4), s.mem.anyP key 4 || attrBit attr 4⟩
    | (s, .outside attr) => rest s ⟨Config.remoteWord (64 * s.free + n), Config.remoteP (64 * s.free + n) || attrBit attr 4⟩
    | (s, r) => (s, .error (r, va))

/-- R75: the `g` registers of a group before its first instruction. -/
def State.fetchArgs (s : State) (gid : Nat) : State × Except (Res × Nat) Unit :=
  if !(s.grp gid).argsDue then (s, .ok ())
  else
    let b := s.argBlock gid
    match s.argWords gid b.1 (b.2 / 4) with
    | (s, .error e) => (s, .error e)
    | (s, .ok rs) =>
      (s.updGrp gid fun g => { g with g := (rs ++ List.replicate 32 Reg.zero).take 32, argsDue := false }, .ok ())

/-- A fetch for the path that did not succeed. -/
def State.headerFails (s : State) (r : Res) (va : Nat) : State :=
  let s := { s with cur := { s.cur with mask := s.cur.path, iaddr := va } }
  match r with
  | .viol c => (s.violAll s.cur.path c va).finish
  | .trap c => (s.trapAll s.cur.path c va).finish
  | .lost => (s.trapAll s.cur.path 0x0C va).finish
  | _ => (s.stayAll s.cur.path).finish

/-- The header of a path whose group has its arguments. -/
def State.headerReached (s : State) : State :=
  let hdr := s.cur.pos.hdr
  let lead := s.cur.path.headD 0
  let s := s.updGrp s.cur.gid fun g => s.cur.path.foldl (fun g t => g.updThr t fun x =>
    { x with taint := popTaint hdr x.depth x.taint }) g
  match s.fetchClause (s.who s.cur.gid lead) hdr false with
  | (s, .error (r, va)) => s.headerFails r va
  | (s, .ok ws) =>
    let h := ws.headD 0#32
    let s := { s with cur := { s.cur with mask := s.cur.path, iaddr := hdr, sw := 0 } }
    match s.cg.kind, (s.core s.cg.core).run with
    | .pitcher, some p => s.pitchHeader p ws
    | _, _ =>
      if hdrBad h then (s.trapAll s.cur.path 0x01 0).finish
      else if !s.waitsDone s.cur.gid (hdrWait h) then
        let s := s.updGrp s.cur.gid fun g => { g with gpark := some (.header (hdrWait h)) }
        (s.stayAll s.cur.path).finish
      else
        let s := s.deferredTaken (hdrWait h)
        if s.sweep.traps.isEmpty then s.enterClause ws
        else (s.stayAll (s.cur.path.filter fun t => !s.trapped t)).finish

/-- `CLAUSE_HEADER` (R244): fetch, decode, then a malformed header traps, wait bits park the group, deferred faults
are taken, and the path enters the clause. -/
def execClauseHeader (s : State) : Out :=
  if s.cur.path.isEmpty then .next s.tick
  else match s.fetchArgs s.cur.gid with
    | (s, .error (r, va)) => .next (s.headerFails r va)
    | (s, .ok _) => .next s.headerReached

/-! ### Branches (R283) -/

/-- The spill area of a thread (R75). -/
def State.spillAt (s : State) (gid t : Nat) : Nat × Nat :=
  let g := s.grp gid
  let (b, d) := match s.launch? g.lid with
    | some l => (l.f.rsbase, l.f.rsdepth)
    | none => match (s.core g.core).amRecs.find? fun a => a.ctx = g.ctx with
      | some a => (a.rsbase, a.rsdepth)
      | none => (0, 0)
  (b + 8 * d * (64 * g.lix + 16 * g.slot + t), d)

/-- What a branch wants to do with one thread. -/
structure Turn where
  t      : Nat
  taken  : Bool
  target : Nat
  dep    : Bool
deriving DecidableEq, Repr

/-- R224: pushes a taint entry; a full stack drops it, and the top is not repeated. -/
def pushTaint (e : Taint) (es : List Taint) : List Taint :=
  if es.head? = some e then es else if 8 ≤ es.length then es else e :: es

/-- The thread's state after the branch (R224, R283). -/
def Thread.branch (x : Thread) (c : Cur) (b : Turn) (rcv : Option Nat) (call : Bool) : Thread :=
  let x := match b.dep, rcv with
    | true, some pc => { x with taint := pushTaint ⟨pc, x.depth⟩ x.taint }
    | _, _ => x
  if b.taken then
    let x := if call then { x with ret := ⟨c.nextHdr, !x.taint.isEmpty⟩ :: x.ret } else x
    { x with pos := ⟨b.target, 0⟩, loop := none }
  else x.advance c

/-- A call with eight hardware entries stores the oldest to the spill area (R284). -/
def State.spill (s : State) (t : Nat) : State :=
  let gid := s.cur.gid
  let x := s.thr gid t
  if x.ret.length < 8 then s
  else match x.ret.getLast? with
    | none => s
    | some e =>
      let a := (s.spillAt gid t).1 + 8 * x.spilled
      match s.reach (s.who gid t) (Acc.write .A a 8 false) with
      | (s, .ok key _) =>
        let s := s.put (s.who gid t) (Acc.write .A a 8 false) key (leBytes 8 e.pc) e.p false false
        s.updThr gid t fun x => { x with ret := x.ret.dropLast, spilled := x.spilled + 1 }
      | (s, r) => s.failRes [t] r a

/-- One thread at a branch: PBRANCH, ILLEGAL and STACK first, then the branch takes effect. -/
def State.branchThread (s : State) (b : Turn) (rcv : Option Nat) (call : Bool) : State :=
  let gid := s.cur.gid
  let x := s.thr gid b.t
  if b.dep && s.cg.ctl.pbrt then s.trap b.t 0x04 0
  else if b.taken && b.target % 4 ≠ 0 then s.trap b.t 0x01 0
  else if b.taken && call && 8 + (s.spillAt gid b.t).2 ≤ x.depth then s.trap b.t 0x12 0
  else
    let s := if b.taken && call then s.spill b.t else s
    if s.trapped b.t || s.violated b.t || s.sweep.stays.contains b.t || s.sweep.holds.contains b.t then s
    else (s.updThr gid b.t fun x => x.branch s.cur b rcv call).movedAll [b.t]

/-- The path splits when the threads that go on no longer stand together (R126). -/
def State.splitEnds (s : State) : State :=
  let ps := s.going.map fun t => (s.moved t (s.thr s.cur.gid t)).pos
  if ps.all fun p => some p = ps.head? then s else s.endTurn

/-- A branch clause's last instruction: each thread that the clause reaches (R283). The target is an address, or the
operand A. -/
def State.branch (s : State) (i : Instr) (target : Option Nat) (call : Bool) : State :=
  let g := s.cg
  if !(legal g.regs i) || g.kind = .pitcher then s.illegal
  else
    let rcv := ((s.cur.pos.hdr : Int) + 4 * signOf 32 (s.cur.lit 5)) % 2 ^ 64
    let s := s.cur.path.foldl (fun s t =>
      let taken := s.cur.mask.contains t
      let gbp := (s.thr s.cur.gid t).gbp
      if !taken then s.branchThread ⟨t, false, 0, gbp⟩ (some rcv.toNat) call
      else match target with
        | some a => s.branchThread ⟨t, true, a, gbp⟩ (some rcv.toNat) call
        | none => match s.readOps s.cur.gid t (operands i) Vals.zero with
          | (s, .ok v) => s.branchThread ⟨t, true, v.a.toNat, gbp || v.p⟩ (some rcv.toNat) call
          | (s, .error r) => s.failRd [t] r) s
    (s.splitEnds).finish

/-- The target of `BRA` and `CALL`: a signed count of words from the clause header. -/
def State.relTarget (s : State) (o : BitVec 24) : Nat :=
  (((s.cur.pos.hdr : Int) + 4 * signOf 24 o.toNat) % 2 ^ 64).toNat

/-- `BRA` (R283). -/
def execBra (o : BitVec 24) (s : State) : Out := .next (s.branch (.bra o) (some (s.relTarget o)) false)

/-- `BRX` (R283). -/
def execBrx (a : BitVec 7) (s : State) : Out := .next (s.branch (.brx a) none false)

/-- `CALL` (R284). -/
def execCall (o : BitVec 24) (s : State) : Out := .next (s.branch (.call o) (some (s.relTarget o)) true)

/-- `CALLX` (R284). -/
def execCallx (a : BitVec 7) (s : State) : Out := .next (s.branch (.callx a) none true)

/-- The newest spilled entry is loaded when the hardware entries are empty (R284). -/
def State.refill (s : State) (t : Nat) : State :=
  let gid := s.cur.gid
  let x := s.thr gid t
  if !x.ret.isEmpty || x.spilled = 0 then s
  else
    let a := (s.spillAt gid t).1 + 8 * (x.spilled - 1)
    match s.reach (s.who gid t) (Acc.read .A a 8) with
    | (s, .ok key _) =>
      s.updThr gid t fun x => { x with ret := [⟨s.mem.num key 8, s.mem.anyP key 8⟩], spilled := x.spilled - 1 }
    | (s, r) => s.failRes [t] r a

/-- One thread at a `RET`: it pops the newest entry, and the taint entries deeper than the new depth (R224). -/
def State.retThread (s : State) (t : Nat) : State :=
  let s := s.refill t
  if s.trapped t || s.violated t || s.sweep.stays.contains t || s.sweep.holds.contains t then s
  else
    let x := s.thr s.cur.gid t
    match x.ret with
    | [] => s.trap t 0x12 0
    | e :: es =>
      if (e.p || x.gbp) && s.cg.ctl.pbrt then s.trap t 0x04 0
      else
        (s.updThr s.cur.gid t fun x =>
          let x := { x with ret := es, pos := ⟨e.pc, 0⟩, loop := none }
          { x with taint := x.taint.dropWhile fun a => x.depth < a.depth }).movedAll [t]

/-- A thread of a `RET`'s path: it returns; one that the guard leaves inactive goes on, unless its guard is a proposal and
`PCTL`.PBRT is set (R224, R225). -/
def State.retOne (s : State) (t : Nat) : State :=
  if s.cur.mask.contains t then s.retThread t
  else if (s.thr s.cur.gid t).gbp && s.cg.ctl.pbrt then s.trap t 0x04 0
  else s

/-- `RET` (R284). -/
def execRet (s : State) : Out :=
  if s.cg.kind = .pitcher then .next s.illegal
  else .next ((s.cur.path.foldl State.retOne s).splitEnds).finish

/-- Another path of the group is live and not parked (R285). Beside the parks, a thread is parked that is held, that stays at
its instruction, or that waits for the group's handler (R144). -/
def Group.otherPath (g : Group) (path : List Nat) : Bool :=
  (List.range 16).any fun t => !path.contains t && (g.thr t).life = .live && !(g.thr t).held && !(g.thr t).stays
    && (!g.ctl.inh || (tidsOf (g.ctl.tmask.n % 2 ^ 16)).contains t)
    && g.parks.all fun p => !p.mask.contains t

/-- `JOIN` (R285): ends the turn where another path may arrive. -/
def execJoin (s : State) : Out :=
  if s.cg.kind = .pitcher then .next s.illegal
  else .next (if s.cg.otherPath s.cur.path then s.endTurn else s).finish

/-- The clauses of a loop body: the header after `n` instructions that end with a clause and hold no CTRL
instruction; none where the body breaks R287. A malformed header is none of the causes of R287: its clause counts by its N, and
with N = 0 the body ends there, where each path that reaches it traps (R244; log entry 49). -/
def State.bodyEnd (s : State) (w : Who) (va n : Nat) : Nat → State × Except (Res × Nat) (Option Nat)
  | 0 => (s, .ok none)
  | fuel + 1 =>
    if n = 0 then (s, .ok (some va))
    else match s.fetchClause w va true with
      | (s, .error r) => (s, .error r)
      | (s, .ok ws) =>
        let h := ws.headD 0#32
        let ctrl := (List.range (hdrN h)).any fun k => opClass (opOf (instrWords ws (k + 1)).1) = 5
        if hdrN h = 0 then (s, .ok (some (clauseEnd va ws)))
        else if n < hdrN h || ctrl then (s, .ok none)
        else s.bodyEnd w (clauseEnd va ws) (n - hdrN h) fuel

/-- `LOOP` (R286, R287). -/
def execLoop (cnt : BitVec 7) (len : BitVec 5) (id : BitVec 4) (ia : BitVec 4) (ib : BitVec 4) (ic : BitVec 4)
    (it : BitVec 2) (io : BitVec 14) (s : State) : Out :=
  .next (s.gate (.loop cnt len id ia ib ic it io) fun s =>
    let lead := s.cur.mask.headD 0
    match s.bodyEnd (s.who s.cur.gid lead) s.cur.nextHdr (len.toNat + 1) 33 with
    | (s, .error (.viol c, va)) => (s.violAll s.cur.mask c va).finish
    | (s, .error (.trap c, va)) => (s.trapAll s.cur.mask c va).finish
    | (s, .error (.lost, va)) => (s.trapAll s.cur.mask 0x0C va).finish
    | (s, .error _) => (s.stayAll s.cur.mask).finish
    | (s, .ok none) => s.illegal
    | (s, .ok (some stop)) =>
      let steps := [signOf 4 id.toNat, signOf 4 ia.toNat, signOf 4 ib.toNat, signOf 4 ic.toNat, signOf 2 it.toNat,
        signOf 14 io.toNat]
      let s := s.cur.mask.foldl (fun s t =>
        match s.readOps s.cur.gid t (operands (.loop cnt len id ia ib ic it io)) Vals.zero with
        | (s, .error r) => s.failRd [t] r
        | (s, .ok v) =>
          (s.updThr s.cur.gid t fun x =>
            if u32 v.d = 0 then { x with pos := ⟨stop, 0⟩ }
            else { x with pos := ⟨s.cur.nextHdr, 0⟩, loop := some ⟨s.cur.nextHdr, stop, u32 v.d, 0, steps⟩ }).movedAll [t]) s
      (s.splitEnds).finish)

/-- `TAIL` (R290). -/
def execTail (s : State) : Out :=
  if s.cg.kind = .pitcher then .next s.illegal
  else
    .next ((s.endThreads s.cur.gid s.cur.mask).movedAll s.cur.mask).finish

/-- The group ranks as the least ready of its lane at the lane's next choice (R130). -/
def State.yields (s : State) (gid : Nat) : State := s.updGrp gid fun g => { g with rank := .yielded, again := true }

/-- `YIELD` (R291, R130). -/
def execYield (s : State) : Out :=
  if s.cg.kind = .pitcher then .next s.illegal else .next ((s.endTurn).finish.yields s.cur.gid)

/-- `NOP` (R291). -/
def execNop (s : State) : Out :=
  if s.cg.kind = .pitcher then .next s.illegal else .next s.finish

/-- `RGN` (R292): the restart PC is the header after this clause; the restart word is A with its P. -/
def execRgn (a : BitVec 7) (s : State) : Out :=
  .next (s.gate (.rgn a) fun s =>
    (s.cur.mask.foldl (fun s t =>
      match s.readOps s.cur.gid t (operands (.rgn a)) Vals.zero with
      | (s, .error r) => s.failRd [t] r
      | (s, .ok v) => s.updThr s.cur.gid t fun x => { x with region := ⟨true, s.cur.nextHdr, ⟨v.a.lo, v.p⟩⟩ }) s).finish)

/-- `DEAD` (R293). -/
def execDead (f : BitVec 7) (m : BitVec 16) (s : State) : Out :=
  .next (s.gate (.dead f m) fun s =>
    let ns := (tidsOf m.toNat).map fun i => f.toNat + i
    (s.updGrp s.cur.gid fun g => s.cur.mask.foldl (fun g t => g.updThr t fun x =>
      { x with dead := (x.dead ++ ns).eraseDups }) g).finish)

end Sys2Proof.Machine
end

