-- ==== Sys2Proof/Machine/Sys.lean ====
section
/-! DEFINITION. Control registers (R24, R95, R98, R108, R206, R208, R212, R223, R260, R261, R294), `TRAP`, `SYSC`,
`ERET` and the codes that trap `ILLEGAL` (R259, R295, R296). -/

namespace Sys2Proof.Machine

open Sys2Proof

/-! ### The registers of core scope -/

/-- `PWRH`.HDRM of a core's quad, as bits (R98). -/
def State.hdrm (s : State) (core : Nat) : BitVec 8 := kget 0#8 s.dev.hdrm (quadOf s core)

/-- Headroom as a signed number. -/
def hdrmInt (h : BitVec 8) : Int := signOf 8 h.toNat

/-- R98: the highest energy class that fits. -/
def fitOf (h : BitVec 8) : Nat := if hdrmInt h < 16 then 0 else min 7 (h.toNat / 16)

/-- R98: the throttle stage. -/
def thrOf (h : BitVec 8) : Nat := if 0 ≤ hdrmInt h then 0 else if -32 ≤ hdrmInt h then 1 else 2

/-- `PWRH` (R98). -/
def pwrhWord (h : BitVec 8) : Nat := h.toNat * 2 ^ 16 + fitOf h * 2 ^ 8 + thrOf h

/-- `COREID` (R24). -/
def State.coreid (s : State) (core : Nat) : Nat :=
  let p := (s.phys core).getD 0
  p % 64 * 2 ^ 10 + p / 64 % 4 * 2 ^ 8 + core % 256

/-! ### Reading and writing control registers -/

/-- A control register of home-group scope (R260). -/
def Ctl.get (c : Ctl) (n : Nat) : CReg :=
  match n with
  | 0x001 => c.nbv
  | 0x002 => c.pctl
  | 0x003 => c.deadm
  | 0x004 => c.dctol
  | 0x006 => c.dclim
  | 0x007 => c.fpctl
  | 0x008 => c.trapvec
  | 0x00A => c.tcause
  | 0x00B => c.tmask
  | 0x00C => c.taddr
  | 0x00E => c.epc
  | _ => if n % 2 = 0 then c.wbase.getD ((n - 32) / 2) (CReg.of 0) else c.wlen.getD ((n - 32) / 2) (CReg.of 0)

/-- R108: `CYC` of a core: the cycles since it was released, as the sum over the steps since then of the cycles that the core
spends in each, which no rule gives (log entry 20). -/
def State.cyc (s : State) (core : Nat) : Nat :=
  let r := (s.core core).released
  ((List.range (s.now - r)).map fun i => Config.stepCycles core (r + i)).sum

/-- A control register as a thread of a group reads it. -/
def State.readCtl (s : State) (gid n : Nat) : CReg :=
  let g := s.grp gid
  match n with
  | 0x000 => CReg.of (s.cyc g.core)
  | 0x010 => match (s.core g.core).space? g.lid with
    | some p => p.bint
    | none => CReg.of 0x200
  | 0x011 => CReg.of (pwrhWord (s.hdrm g.core))
  | 0x012 => CReg.of (s.coreid g.core)
  | _ => g.ctl.get n

/-- R206: the value that an `MTSR` leaves in `FPCTL`: SEED, TEN and RM are written, a 1 clears its flag. -/
def fpctlWritten (old v : Nat) : Nat :=
  v / 2 ^ 11 % 2 ^ 21 * 2 ^ 11 + (old / 8 % 32 &&& (31 - v / 8 % 32)) * 8 + v % 8

/-- A write of a control register of home-group scope: the read-write fields of its map are written, reserved bits
read 0, and a read-only register stands (R261). -/
def Ctl.put (c : Ctl) (n v : Nat) (p : Bool) : Ctl :=
  let r := fun (x : Nat) => CReg.mk (BitVec.ofNat 64 x) p
  match n with
  | 0x001 => { c with nbv := r (v % 4) }
  | 0x002 => { c with pctl := r (v % 8) }
  | 0x003 => { c with deadm := r (v % 2) }
  | 0x004 => { c with dctol := r v }
  | 0x006 => { c with dclim := r (v % 256) }
  | 0x007 => { c with fpctl := r (fpctlWritten c.fpctl.n v) }
  | 0x008 => { c with trapvec := r (v / 4 * 4) }
  | 0x00E => { c with epc := r (v / 4 * 4) }
  | 0x00A | 0x00B | 0x00C => c
  | _ =>
    if n < 32 then c
    else if n % 2 = 0 then { c with wbase := c.wbase.set ((n - 32) / 2) (r (v / 4 % 2 ^ 21 * 4)) }
    else { c with wlen := c.wlen.set ((n - 32) / 2) (r (v / 4 % 2 ^ 22 * 4)) }

/-- The values that a field map forbids (R206, R212). -/
def ctlForbids (n v : Nat) : Bool := (n = 1 && (v % 4 = 0 || v % 4 = 3)) || (n = 7 && 5 ≤ v % 8)

/-- One turn's write. -/
def State.writeCtl (s : State) (n v : Nat) (p : Bool) : State :=
  if n = 0x010 then
    let g := s.cg
    s.updCore g.core fun c => c.updSpace g.lid fun x => { x with bint := ⟨BitVec.ofNat 64 (v % 2 ^ 16), p⟩ }
  else s.updGrp s.cur.gid fun g => { g with ctl := g.ctl.put n v p }

/-- `MFSR` (R294). -/
def execMfsr (d : BitVec 7) (c : BitVec 12) (s : State) : Out :=
  let i : Instr := .mfsr d c
  .next (s.gate i fun s => ((s.turns i).foldl (fun s u =>
    match (operands i).head? with
    | none => s
    | some o => match s.dstOp s.cur.gid u.1 o with
      | (s, .error r) => s.failRd u.2 r
      | (s, .ok dst) =>
        let x := s.readCtl s.cur.gid c.toNat
        s.writeDst s.cur.gid u.1 dst x.v (x.p || s.ambient u.2) none) s).finish)

/-- What a turn of `MTSR` writes: the value and its P, added to those of the turns before; a value that the register's map
forbids traps `ILLEGAL`. -/
def State.mtsrTurn (i : Instr) (n : Nat) (sv : State × List (Nat × Bool)) (u : Nat × List Nat) : State × List (Nat × Bool) :=
  let (s, ws) := sv
  match s.readOps s.cur.gid u.1 (operands i) Vals.zero with
  | (s, .error r) => (s.failRd u.2 r, ws)
  | (s, .ok v) =>
    let x := if ctlPair n then v.d.toNat else v.d.toNat % 2 ^ 32
    if ctlForbids n x then (s.trapAll u.2 0x01 0, ws) else (s, ws ++ [(x, v.p || s.ambient u.2)])

/-- `MTSR` (R294): the active threads' values are written in sweep order once every thread has read its sources: the new
value governs from the end of the sweep. A write of `FPCTL` seeds the generators anew there (R208). -/
def execMtsr (a : BitVec 7) (c : BitVec 12) (s : State) : Out :=
  let i : Instr := .mtsr a c
  .next (s.gate i fun s =>
    let (s, ws) := (s.turns i).foldl (State.mtsrTurn i c.toNat) (s, [])
    let s := ws.foldl (fun s w => s.writeCtl c.toNat w.1 w.2) s
    (if c.toNat = 7 && !ws.isEmpty then s.updGrp s.cur.gid Group.reseed else s).finish)

/-! ### Traps and the return from one -/

/-- `TRAP` (R295). -/
def execTrap (n : BitVec 16) (s : State) : Out :=
  .next (s.gate (.trap n) fun s => (s.trapAll s.cur.mask 0x0E 0).finish)

/-- `SYSC` (R295): its handler starts 64 bytes past `TRAPVEC`. -/
def execSysc (n : BitVec 16) (s : State) : Out :=
  .next (s.gate (.sysc n) fun s =>
    let s := s.trapAll s.cur.mask 0x0E 0
    ({ s with sweep := { s.sweep with sysc := true } }).finish)

/-- `ERET` (R296, R144): with INH = 0 it traps `ILLEGAL`. -/
def execEret (s : State) : Out :=
  .next (s.gate .eret fun s =>
    if !s.cg.ctl.inh then s.illegal
    else ((s.updGrp s.cur.gid Group.eret).movedAll s.cur.path).endTurn.finish)

/-- Opcode 0xFF (R259). -/
def execIllegal (_x : BitVec 24) (s : State) : Out := .next s.illegal

/-- An unassigned opcode, or a word that decoding refuses (R245, R250, R259). -/
def execUnassignedOpcode (_w : Word) (s : State) : Out := .next s.illegal

end Sys2Proof.Machine
end

