-- ==== Sys2Proof/Machine/Mem.lean ====
section
/-! DEFINITION. Loads, stores, atomics and reductions, fences and monitors (R252 to R255, R297 to R315). -/

namespace Sys2Proof.Machine

open Sys2Proof

/-! ### Addresses, scopes and the parts of an access -/

/-- R252, R286: the address of a memory instruction from its operand A: with the offset word in an offset form, and
stepped by a loop. -/
def State.memAddr (s : State) (spc : Spc) (off : Bool) (a : DWord) : Nat :=
  let o : Int := (if off then signOf 32 (s.cur.lit 4) else 0) + s.cur.ioff
  let m : Int := match spc with
    | .global => 2 ^ 64
    | _ => 2 ^ 32
  (((a.toNat : Int) + o) % m).toNat

/-- R254: the scope level that a modifier names: none for the default. -/
def scopeLvl (o v : Nat) : Option Nat := if 4 ≤ o then some v else none

/-- R255, R299: elements of a load or store, and its bytes. -/
def memCnt (o v : Nat) : Nat := if o = 0 then 2 ^ v else 1
def memLen (f o v : Nat) : Nat := (fmtBits f * memCnt o v + 7) / 8

/-- Regions of the threads close (R100). -/
def State.closeRegions (s : State) (tids : List Nat) : State :=
  s.updGrp s.cur.gid fun g => tids.foldl (fun g t => g.updThr t fun x =>
    { x with region := { x.region with isOpen := false } }) g

/-- Threads become inactive in a sweep in other ways than by completing. -/
def State.stopped (s : State) (t : Nat) : Bool :=
  s.trapped t || s.violated t || s.sweep.stays.contains t || s.sweep.holds.contains t

/-- R169, R170: a synchronising operation with a release waits for the agent's side-logged writes; a refused one
traps there. -/
def State.whenReady (s : State) (t : Nat) (tt : List Nat) (k : State → State) : State :=
  let w := s.who s.cur.gid t
  match s.syncReady w with
  | .refused a c => ((s.dropSideRef w).firmAll tt).trapAll tt c a
  | .waits => s.stayAll tt
  | .go => k s

/-- Bytes that come from another device or from host memory, and their P: free values (log entry 21). -/
def State.remoteBytes (s : State) (t n : Nat) : List Byte :=
  ((List.range ((n + 3) / 4)).flatMap fun j => leBytes 4 (Config.remoteWord (256 * s.free + 16 * t + j)).toNat).take n
def State.remoteP (s : State) (t : Nat) : Bool := Config.remoteP (256 * s.free + t)

/-- The memory key under which a watch holds an address that leaves the part. -/
def State.outKey (s : State) (va : Nat) : Nat := 2 ^ 64 + s.canonical va

/-- R312: a store of the part to an address that leaves it latches the watches of its line; whether it changes the watched
word is a free value (log entry 21). -/
def Watch.seeOut (w : Watch) (key len free : Nat) : Watch :=
  if len = 0 || w.key / 64 < key / 64 || (key + len - 1) / 64 < w.key / 64 then w
  else match w.latched with
    | none => { w with latched := some (if Config.remoteP free then 0 else 1) }
    | some 1 => if Config.remoteP free then { w with latched := some 0 } else w
    | some _ => w

def Group.seeOut (g : Group) (ctx key len free : Nat) : Group :=
  if g.ctx ≠ ctx || g.threads.all (fun t => t.watch.isNone) then g
  else { g with threads := g.threads.map fun t => { t with watch := t.watch.map fun w => w.seeOut key len free } }

/-- A store that leaves the part. -/
def State.sendStore (s : State) (ctx va : Nat) (bs : List Byte) (p : Bool) : State :=
  let s := s.send ctx va bs p
  { s with groups := s.groups.map fun e => (e.1, e.2.seeOut ctx (s.outKey va) bs.length (256 * s.free + 255)) }

/-! ### Loads (R300) -/

/-- Registers of a load: one or a pair for each element. -/
def loadRegs (f : Nat) (es : List Nat) (p : Bool) : List Reg :=
  es.flatMap fun e =>
    let v := widen f e
    if f = 5 || f = 9 then [⟨v.lo, p⟩, ⟨v.hi, p⟩] else [⟨v.lo, p⟩]

/-- A register write of a thread that replays a held load: the load, and the threads whose replay this is (R122, R142). -/
def Group.replays (g : Group) (t : Nat) : Option (Nat × List Nat) :=
  if (g.thr t).replay then
    (g.thr t).ldNo.map fun n => (n, (List.range 16).filter fun u => (g.thr u).replay && (g.thr u).heldBy = t)
  else none

/-- A result of variable latency that spans registers from a code; in a pitcher program it lands at once (R351). -/
def State.pendRegs (s : State) (gid t code : Nat) (rs : List Reg) (kind : Nat) : State :=
  if 112 ≤ code then s
  else if (s.grp gid).kind = .pitcher then
    s.updGrp gid fun g => (List.range rs.length).foldl (fun g i => g.writeReg t (code + i) (rs.getD i Reg.zero)) g
  else s.updGrp gid fun g => { g with pend := g.pend ++ [⟨t, code, rs, kind, none, [], g.replays t⟩] }

/-- One turn of a load. -/
def State.loadTurn (s : State) (i : Instr) (spc : Spc) (off : Bool) (d f o v : Nat) (u : Nat × List Nat) : State :=
  let gid := s.cur.gid
  match s.readOps gid u.1 (operands i) Vals.zero with
  | (s, .error r) => s.failRd u.2 r
  | (s, .ok x) =>
    let addr := s.memAddr spc off x.a
    let n := memLen f o v
    if addr % n ≠ 0 then s.trapAll u.2 0x08 addr
    else
      let acc : Acc := { Acc.read spc addr n with
        sync := o ≠ 0, kind := if s.cg.kind = .pitcher then 3 else 0 }
      let p := x.p || s.ambient u.2
      match s.reach (s.who gid u.1) acc with
      | (s, .ok key attr) =>
        let es := unpack f (memCnt o v) (s.mem.read key n)
        s.pendRegs gid u.1 d (loadRegs f es (p || s.mem.anyP key n || attrBit attr 4)) 0
      | (s, .outside attr) =>
        let es := unpack f (memCnt o v) (s.remoteBytes u.1 n)
        s.pendRegs gid u.1 d (loadRegs f es (p || s.remoteP u.1 || attrBit attr 4)) 0
      | (s, .closed) => if s.cg.kind = .pitcher then s.stayAll u.2 else s.holdAll u.2 true (d < 112)
      | (s, r) => s.failRes u.2 r addr

/-- A load over its sweep: an invalid scope level traps first (R179). -/
def State.load (s : State) (i : Instr) (spc : Spc) (off : Bool) (d f o v : Nat) : State :=
  s.gate i fun s =>
    if o ≠ 0 && (s.scopeDom s.cg.lid (scopeLvl o v)).isNone then s.illegal
    else ((s.turns i).foldl (fun s u => s.loadTurn i spc off d f o v u) s).finish

/-! ### Stores (R301) -/

/-- The register images that a store converts: its single source, or a run of registers (R298). -/
def State.storeVals (s : State) (gid t : Nat) (f d cnt : Nat) (x : DWord) (xp : Bool) : Except Rd (List DWord × Bool) :=
  if cnt = 1 then .ok ([x], xp)
  else
    let g := s.grp gid
    let pair := f = 5 || f = 9
    let one := fun (c : Nat) => g.source s.free t c
    (List.range cnt).foldl (fun acc k => match acc with
      | .error r => .error r
      | .ok (vs, p) =>
        if pair then match one (d + 2 * k), one (d + 2 * k + 1) with
          | some lo, some hi => .ok (vs ++ [Word.pair lo.v hi.v], p || lo.p || hi.p)
          | _, _ => .error (.trap 0x02 0)
        else match one (d + k) with
          | some r => .ok (vs ++ [BitVec.ofNat 64 r.v.toNat], p || r.p)
          | none => .error (.trap 0x02 0)) (.ok ([], xp))

/-- The draws of a conversion: one for each element that is rounded stochastically (R208). -/
def storeDraws (f rm cnt : Nat) (g : BitVec 32) : List Nat × BitVec 32 :=
  if rm = 4 && stochFmt f then draws cnt g else (List.replicate cnt 0, g)

/-- The store performs: at its key, in the side log, or away from the part. -/
def State.storeAt (s : State) (t : Nat) (tt : List Nat) (acc : Acc) (bs : List Byte) (p rel : Bool) (dom : Nat) : State :=
  let w := s.who s.cur.gid t
  let close := fun (s : State) => if rel then s.closeIv w.agent dom else s
  match s.reach w acc with
  | (s, .ok key _) => close (s.put w acc key bs p false true)
  | (s, .outside _) => close (s.sendStore w.ctx acc.addr bs p)
  | (s, .closed) => match s.sideLog w (s.cg.uid) acc.addr ⟨bs, p, false, acc.ps, none, rel⟩ with
    | (s, true) => close s
    | (s, false) => s.holdAll tt false false
  | (s, r) => s.failRes tt r acc.addr

/-- One turn of a store. -/
def State.storeTurn (s : State) (i : Instr) (spc : Spc) (off prop : Bool) (d f o v : Nat) (dom : Nat)
    (u : Nat × List Nat) : State :=
  let gid := s.cur.gid
  match s.readOps gid u.1 (operands i) Vals.zero with
  | (s, .error r) => s.failRd u.2 r
  | (s, .ok x) =>
    let cnt := memCnt o v
    match s.storeVals gid u.1 f d cnt x.d x.p with
    | .error r => s.failRd u.2 r
    | .ok (vs, xp) =>
      let addr := s.memAddr spc off x.a
      let n := memLen f o v
      if addr % n ≠ 0 then s.trapAll u.2 0x08 addr
      else
        let c := s.cg.ctl
        let (us, gen) := storeDraws f c.rm cnt (s.thr gid u.1).gen
        let rs := (vs.zip us).map fun e => narrow f c.rm e.2 e.1
        let fl := rs.foldl (fun a r => a ||| r.flags) 0
        let s := s.raiseFlags fl
        if fl &&& c.ten ≠ 0 then s.trapAll u.2 0x0F 0
        else
          let p := xp || s.ambient u.2 || narrowFmt f || prop
          let acc : Acc := { Acc.write spc addr n (p && c.pstop) with sync := o ≠ 0 }
          let bs := pack f (rs.map Rounded.bits)
          let go := fun (s : State) =>
            let s := s.storeAt u.1 u.2 acc bs p (o ≠ 0) dom
            if s.stopped u.1 then s else s.updThr gid u.1 fun y => { y with gen := gen }
          if o ≠ 0 then s.whenReady u.1 u.2 go else go s

/-- A store over its sweep. -/
def State.store (s : State) (i : Instr) (spc : Spc) (off prop : Bool) (d f o v : Nat) : State :=
  s.gate i fun s =>
    match if o = 0 then some 0 else s.scopeDom s.cg.lid (scopeLvl o v) with
    | none => s.illegal
    | some dom => ((s.turns i).foldl (fun s u => s.storeTurn i spc off prop d f o v dom u) s).finish

/-! ### Atomics and reductions (R304 to R307) -/

/-- The operations that an instruction and a format accept (R305). -/
def atomOk (red fl : Bool) (op : Nat) : Bool :=
  op ≤ 9 && !(red && op < 2) && !(fl && 5 ≤ op)

/-- The new value, or none where the operation does not write (R305). -/
def atomNew (f op old x cmp : Nat) : Option Nat :=
  let n := fmtBits f
  let m := 2 ^ n
  let ff := if f = 9 then fp64 else fp32
  let fl := f = 8 || f = 9
  match op with
  | 0 => some x
  | 1 => if old = cmp then some x else none
  | 2 =>
    if fl then some (ff.ofVal 0 0 false (fvAdd 0 (ff.value old) (ff.value x)).1).bits
    else some ((old + x) % m)
  | 3 => some (if fl then fminBits ff old x else if signOf n x < signOf n old then x else old)
  | 4 => some (if fl then fmaxBits ff old x else if signOf n old < signOf n x then x else old)
  | 5 => some (min old x)
  | 6 => some (max old x)
  | 7 => some (old &&& x)
  | 8 => some (old ||| x)
  | _ => some (old ^^^ x)

/-- The values of an atomic's block: control word, operand, compare value, and the OR of their P (R304). -/
structure AtomArgs where
  ctl : Nat
  x   : Nat
  cmp : Nat
  p   : Bool
deriving DecidableEq, Repr

def State.atomArgs (s : State) (gid t d : Nat) (w64 red : Bool) : Option AtomArgs :=
  let g := s.grp gid
  let r := fun (k : Nat) => g.source s.free t (d + k)
  let pair := fun (lo hi : Reg) => (Word.pair lo.v hi.v).toNat
  match w64, red with
  | false, true => match r 0, r 1 with
    | some c, some x => some ⟨c.v.toNat, x.v.toNat, 0, c.p || x.p⟩
    | _, _ => none
  | false, false => match r 0, r 1, r 2 with
    | some c, some x, some y => some ⟨c.v.toNat, x.v.toNat, y.v.toNat, c.p || x.p || y.p⟩
    | _, _, _ => none
  | true, true => match r 0, r 2, r 3 with
    | some c, some x, some x' => some ⟨c.v.toNat, pair x x', 0, c.p || x.p || x'.p⟩
    | _, _, _ => none
  | true, false => match r 0, r 2, r 3, r 4, r 5 with
    | some c, some x, some x', some y, some y' => some ⟨c.v.toNat, pair x x', pair y y', c.p || x.p || x'.p || y.p || y'.p⟩
    | _, _, _, _, _ => none

/-- The result registers of an atomic. -/
def State.atomResult (s : State) (gid t d f : Nat) (red : Bool) (old : Nat) (p : Bool) : State :=
  if red then s else s.pendRegs gid t (d + if f = 5 || f = 9 then 6 else 3) (loadRegs f [old] p) 0

/-- The indivisible step of an atomic at its key (R306). -/
def State.atomAt (s : State) (w : Who) (t : Nat) (tt : List Nat) (acc : Acc) (key attr d f dom : Nat) (red : Bool)
    (a : AtomArgs) (p : Bool) : State :=
  let old := s.mem.num key acc.len
  let pn := p || a.p || s.mem.anyP key acc.len
  match atomNew f (a.ctl % 16) old a.x a.cmp with
  | none => (s.closeIv w.agent dom).atomResult s.cur.gid t d f red old (pn || attrBit attr 4)
  | some new =>
    if pn && s.cg.ctl.pstop && acc.spc = .global && attrBit attr 5 then s.trapAll tt 0x05 acc.addr
    else
      let s := s.put w acc key (leBytes acc.len new) pn false true
      (s.closeIv w.agent dom).atomResult s.cur.gid t d f red old (pn || attrBit attr 4)

/-- An atomic on a host page or on another device: one read-modify-write there, whose old value is free (R307, log entry 21).
An operation that does not write sends nothing. -/
def State.atomOut (s : State) (w : Who) (t : Nat) (tt : List Nat) (addr attr d f dom : Nat) (red : Bool) (a : AtomArgs)
    (p : Bool) : State :=
  let n := fmtBits f / 8
  let old := leNat (s.remoteBytes t n)
  let pn := p || a.p || s.remoteP t
  match atomNew f (a.ctl % 16) old a.x a.cmp with
  | none => (s.closeIv w.agent dom).atomResult s.cur.gid t d f red old (pn || attrBit attr 4)
  | some new =>
    if pn && s.cg.ctl.pstop && attrBit attr 5 then s.trapAll tt 0x05 addr
    else
      let s := s.sendStore w.ctx addr (leBytes n new) pn
      (s.closeIv w.agent dom).atomResult s.cur.gid t d f red old (pn || attrBit attr 4)

/-- One turn of an atomic. -/
def State.atomTurn (s : State) (i : Instr) (spc : Spc) (off red : Bool) (d f dom : Nat) (u : Nat × List Nat) : State :=
  let gid := s.cur.gid
  match s.readOps gid u.1 (operands i) Vals.zero with
  | (s, .error r) => s.failRd u.2 r
  | (s, .ok x) => match s.atomArgs gid u.1 d (f = 5 || f = 9) red with
    | none => s.trapAll u.2 0x02 0
    | some a =>
      let addr := s.memAddr spc off x.a
      let n := fmtBits f / 8
      let p := x.p || s.ambient u.2
      if 16 ≤ a.ctl || !atomOk red (f = 8 || f = 9) a.ctl then s.trapAll u.2 0x01 0
      else if addr % n ≠ 0 then s.trapAll u.2 0x08 addr
      else s.whenReady u.1 u.2 fun s =>
        let w := s.who gid u.1
        let acc : Acc := ⟨spc, addr, n, true, true, false, true, false, if red then 1 else 0⟩
        match s.reach w acc with
        | (s, .ok key attr) =>
          let s := s.atomAt w u.1 u.2 acc key attr d f dom red a p
          if s.stopped u.1 then s else s.closeRegions u.2
        | (s, .outside attr) =>
          let s := s.atomOut w u.1 u.2 addr attr d f dom red a p
          if s.stopped u.1 then s else s.closeRegions u.2
        | (s, .closed) =>
          if red then match s.sideLog w s.cg.uid addr
              ⟨leBytes n a.x, p || a.p, false, s.cg.ctl.pstop, some (f, a.ctl, n), false⟩ with
            | (s, true) => (s.closeIv w.agent dom).closeRegions u.2
            | (s, false) => s.holdAll u.2 false false
          else s.holdAll u.2 true true
        | (s, r) => s.failRes u.2 r addr

/-- An atomic or reduction over its sweep. -/
def State.atomic (s : State) (i : Instr) (spc : Spc) (off red : Bool) (d f o v : Nat) : State :=
  s.gate i fun s =>
    match s.scopeDom s.cg.lid (scopeLvl o v) with
    | none => s.illegal
    | some dom => ((s.turns i).foldl (fun s u => s.atomTurn i spc off red d f dom u) s).finish

/-! ### The instructions -/

/-- `LD`, base form (R300). -/
def execLd (d : BitVec 7) (a : BitVec 7) (f : BitVec 4) (o : BitVec 3) (v : BitVec 3) (s : State) : Out :=
  .next (s.load (.ld d a f o v) .global false d.toNat f.toNat o.toNat v.toNat)

/-- `LD`, offset form (R300). -/
def execLdOff (d : BitVec 7) (a : BitVec 7) (f : BitVec 4) (o : BitVec 3) (v : BitVec 3) (s : State) : Out :=
  .next (s.load (.ldOff d a f o v) .global true d.toNat f.toNat o.toNat v.toNat)

/-- `LDA`, base form (R300). -/
def execLda (d : BitVec 7) (a : BitVec 7) (f : BitVec 4) (o : BitVec 3) (v : BitVec 3) (s : State) : Out :=
  .next (s.load (.lda d a f o v) .A false d.toNat f.toNat o.toNat v.toNat)

/-- `LDA`, offset form (R300). -/
def execLdaOff (d : BitVec 7) (a : BitVec 7) (f : BitVec 4) (o : BitVec 3) (v : BitVec 3) (s : State) : Out :=
  .next (s.load (.ldaOff d a f o v) .A true d.toNat f.toNat o.toNat v.toNat)

/-- `LDW`, base form (R300). -/
def execLdw (d : BitVec 7) (a : BitVec 7) (f : BitVec 4) (o : BitVec 3) (v : BitVec 3) (s : State) : Out :=
  .next (s.load (.ldw d a f o v) .W false d.toNat f.toNat o.toNat v.toNat)

/-- `LDW`, offset form (R300). -/
def execLdwOff (d : BitVec 7) (a : BitVec 7) (f : BitVec 4) (o : BitVec 3) (v : BitVec 3) (s : State) : Out :=
  .next (s.load (.ldwOff d a f o v) .W true d.toNat f.toNat o.toNat v.toNat)

/-- `ST`, base form (R301). -/
def execSt (d : BitVec 7) (a : BitVec 7) (f : BitVec 4) (o : BitVec 3) (v : BitVec 3) (s : State) : Out :=
  .next (s.store (.st d a f o v) .global false false d.toNat f.toNat o.toNat v.toNat)

/-- `ST`, offset form (R301). -/
def execStOff (d : BitVec 7) (a : BitVec 7) (f : BitVec 4) (o : BitVec 3) (v : BitVec 3) (s : State) : Out :=
  .next (s.store (.stOff d a f o v) .global true false d.toNat f.toNat o.toNat v.toNat)

/-- `ST.P`, base form (R301). -/
def execStP (d : BitVec 7) (a : BitVec 7) (f : BitVec 4) (o : BitVec 3) (v : BitVec 3) (s : State) : Out :=
  .next (s.store (.stP d a f o v) .global false true d.toNat f.toNat o.toNat v.toNat)

/-- `ST.P`, offset form (R301). -/
def execStPOff (d : BitVec 7) (a : BitVec 7) (f : BitVec 4) (o : BitVec 3) (v : BitVec 3) (s : State) : Out :=
  .next (s.store (.stPOff d a f o v) .global true true d.toNat f.toNat o.toNat v.toNat)

/-- `STA`, base form (R301). -/
def execSta (d : BitVec 7) (a : BitVec 7) (f : BitVec 4) (o : BitVec 3) (v : BitVec 3) (s : State) : Out :=
  .next (s.store (.sta d a f o v) .A false false d.toNat f.toNat o.toNat v.toNat)

/-- `STA`, offset form (R301). -/
def execStaOff (d : BitVec 7) (a : BitVec 7) (f : BitVec 4) (o : BitVec 3) (v : BitVec 3) (s : State) : Out :=
  .next (s.store (.staOff d a f o v) .A true false d.toNat f.toNat o.toNat v.toNat)

/-- `STA.P`, base form (R301). -/
def execStaP (d : BitVec 7) (a : BitVec 7) (f : BitVec 4) (o : BitVec 3) (v : BitVec 3) (s : State) : Out :=
  .next (s.store (.staP d a f o v) .A false true d.toNat f.toNat o.toNat v.toNat)

/-- `STA.P`, offset form (R301). -/
def execStaPOff (d : BitVec 7) (a : BitVec 7) (f : BitVec 4) (o : BitVec 3) (v : BitVec 3) (s : State) : Out :=
  .next (s.store (.staPOff d a f o v) .A true true d.toNat f.toNat o.toNat v.toNat)

/-- `STW`, base form (R301). -/
def execStw (d : BitVec 7) (a : BitVec 7) (f : BitVec 4) (o : BitVec 3) (v : BitVec 3) (s : State) : Out :=
  .next (s.store (.stw d a f o v) .W false false d.toNat f.toNat o.toNat v.toNat)

/-- `STW`, offset form (R301). -/
def execStwOff (d : BitVec 7) (a : BitVec 7) (f : BitVec 4) (o : BitVec 3) (v : BitVec 3) (s : State) : Out :=
  .next (s.store (.stwOff d a f o v) .W true false d.toNat f.toNat o.toNat v.toNat)

/-- `STW.P`, base form (R301). -/
def execStwP (d : BitVec 7) (a : BitVec 7) (f : BitVec 4) (o : BitVec 3) (v : BitVec 3) (s : State) : Out :=
  .next (s.store (.stwP d a f o v) .W false true d.toNat f.toNat o.toNat v.toNat)

/-- `STW.P`, offset form (R301). -/
def execStwPOff (d : BitVec 7) (a : BitVec 7) (f : BitVec 4) (o : BitVec 3) (v : BitVec 3) (s : State) : Out :=
  .next (s.store (.stwPOff d a f o v) .W true true d.toNat f.toNat o.toNat v.toNat)

/-- `ATOM`, base form (R306). -/
def execAtom (d : BitVec 7) (a : BitVec 7) (f : BitVec 4) (o : BitVec 3) (v : BitVec 3) (s : State) : Out :=
  .next (s.atomic (.atom d a f o v) .global false false d.toNat f.toNat o.toNat v.toNat)

/-- `ATOM`, offset form (R306). -/
def execAtomOff (d : BitVec 7) (a : BitVec 7) (f : BitVec 4) (o : BitVec 3) (v : BitVec 3) (s : State) : Out :=
  .next (s.atomic (.atomOff d a f o v) .global true false d.toNat f.toNat o.toNat v.toNat)

/-- `ATOMA`, base form (R306). -/
def execAtoma (d : BitVec 7) (a : BitVec 7) (f : BitVec 4) (o : BitVec 3) (v : BitVec 3) (s : State) : Out :=
  .next (s.atomic (.atoma d a f o v) .A false false d.toNat f.toNat o.toNat v.toNat)

/-- `ATOMA`, offset form (R306). -/
def execAtomaOff (d : BitVec 7) (a : BitVec 7) (f : BitVec 4) (o : BitVec 3) (v : BitVec 3) (s : State) : Out :=
  .next (s.atomic (.atomaOff d a f o v) .A true false d.toNat f.toNat o.toNat v.toNat)

/-- `RED`, base form (R304). -/
def execRed (d : BitVec 7) (a : BitVec 7) (f : BitVec 4) (o : BitVec 3) (v : BitVec 3) (s : State) : Out :=
  .next (s.atomic (.red d a f o v) .global false true d.toNat f.toNat o.toNat v.toNat)

/-- `RED`, offset form (R304). -/
def execRedOff (d : BitVec 7) (a : BitVec 7) (f : BitVec 4) (o : BitVec 3) (v : BitVec 3) (s : State) : Out :=
  .next (s.atomic (.redOff d a f o v) .global true true d.toNat f.toNat o.toNat v.toNat)

/-! ### Fences (R193, R308) -/

/-- `FENCE` (R308): an acquire and a release of every active thread at its scope. -/
def State.fence (s : State) (dom : Nat) : State :=
  (s.cur.mask.foldl (fun s t => s.whenReady t [t] fun s => s.closeIv (s.agent s.cur.gid t) dom) s).finish

/-- `FENCE` (R308). -/
def execFence (o : BitVec 3) (v : BitVec 3) (s : State) : Out :=
  .next (s.gate (.fence o v) fun s =>
    match s.scopeDom s.cg.lid (scopeLvl o.toNat v.toNat) with
    | none => s.illegal
    | some dom => s.fence dom)

/-- The path of a code (R308). -/
def pathOf (n : Nat) : Path := [Path.T, .P, .C, .G, .K].getD n .T

/-- A huddle round that is full and that a thread of the group has signed: `MMA`, `MMAS` or `DCOR`, an agent on path G (R177,
R318). -/
def Huddle.issues (h : Huddle) (gid uid : Nat) : Bool :=
  h.count ≠ 0 && h.count ≤ h.signed && h.sigs.any fun x => x.gid = gid && x.uid = uid && x.kind ≠ 0

/-- The full rounds of a group on its core, each by a number that no command has, from that of its last signature: a later round has
another one, for a `FENCEX` takes a number of its own (R193). -/
def Core.roundsOf (c : Core) (gid uid : Nat) : List Nat :=
  ((c.huddles.zip (List.range 16)).filter fun e => e.1.issues gid uid).map fun e =>
    2 ^ 64 + 16 * ((e.1.sigs.getLast?.map Sig.id).getD 0) + e.2

/-- The engine agents of a path that a home group issued and that have not completed (R193). -/
def State.inFlight (s : State) (gid : Nat) (a : Path) : List Nat :=
  let g := s.grp gid
  let c := s.core g.core
  match a with
  | .T => []
  | .P => ((c.starts ++ c.run.toList).filter fun p => p.gid = gid && p.uid = g.uid).map Prog.id
  | _ => (if a = .C then (c.xfers.filter fun x => x.gid = gid && x.uid = g.uid).map Xfer.id else [])
    ++ (if a = .G then c.roundsOf gid g.uid else [])
    ++ (c.cmds.filter fun x => x.gid = gid && x.uid = g.uid && x.path = a).map Cmd.id

/-- A `FENCEX` that may complete: the agents before it have completed. -/
def State.fencexDone (s : State) (gid : Nat) (cmds : List Nat) (a : Path) : Bool :=
  (s.inFlight gid a).all fun n => !cmds.contains n

/-- A `FENCEX` of a core toward a path is parked, and the agent with this number was issued after it: the agent makes no access
before the `FENCEX` completes (R193). -/
def State.fencexHolds (s : State) (core : Nat) (path : Path) (id : Nat) : Bool :=
  s.groups.any fun e => e.2.core = core && e.2.parks.any fun r => !r.mask.isEmpty && match r.kind with
    | .fencex _ _ b _ since => b = path && since ≤ id
    | _ => false

/-- The effect of a completed `FENCEX` (R193). -/
def State.fencexEnd (s : State) (gid t : Nat) (a b : Path) (dom : Nat) : State :=
  let ag := s.agent gid t
  let s := s.closeIv ag dom
  if a = .T then { s with ivs := s.ivs.map fun iv => if iv.agent = ag then { iv with paths := (b :: iv.paths).eraseDups } else iv }
  else s

/-- `FENCEX` (R193): each active thread waits until the accesses and agents before it have completed. -/
def execFencex (p : BitVec 7) (q : BitVec 7) (o : BitVec 3) (v : BitVec 3) (s : State) : Out :=
  .next (s.gate (.fencex p q o v) fun s =>
    match s.scopeDom s.cg.lid (scopeLvl o.toNat v.toNat) with
    | none => s.illegal
    | some dom =>
      if p = q then s.fence dom
      else
        let a := pathOf p.toNat
        let b := pathOf q.toNat
        (s.cur.mask.foldl (fun s t =>
          let gid := s.cur.gid
          let held := s.cg.parks.find? fun r => r.mask = [t] && match r.kind with
            | .fencex .. => true
            | _ => false
          let cmds := match held.map ParkRec.kind with
            | some (.fencex cs _ _ _ _) => cs
            | _ => s.inFlight gid a
          let free := s.updGrp gid fun g => { g with parks := g.parks.filter fun r => some r ≠ held }
          match s.syncReady (s.who gid t) with
          | .refused n c => ((free.dropSideRef (s.who gid t)).firmAll [t]).trap t c n
          | r =>
            if r = .go && s.fencexDone gid cmds a then free.fencexEnd gid t a b dom
            else if held.isSome then s.stayAll [t]
            else { s.park [t] (.fencex cmds a b dom (s.nextId + 1)) with nextId := s.nextId + 1 }) s).finish)

/-! ### Monitors (R309 to R315) -/

/-- A watch whose entry is evicted: it takes no entry from then on, and latches EVICT where it has latched nothing (R310). -/
def Watch.evict (line : Nat) (w : Watch) : Watch :=
  if w.mon && w.key / 64 = line then { w with mon := false, latched := w.latched.orElse fun _ => some 2 } else w

/-- R310: an arm for a line: its entry, a free one, or the one least recently armed, whose watches latch EVICT. The entries
stand in the order of their arms. -/
def State.armLine (s : State) (k ctx line : Nat) : State :=
  let c := s.core k
  let mine := c.mons.filter fun m => m.ctx = ctx
  let arm : Mon := ⟨ctx, line, s.now⟩
  if mine.any fun m => m.line = line then
    s.setCore k { c with mons := (c.mons.filter fun m => !(m.ctx = ctx && m.line = line)) ++ [arm] }
  else if mine.length < 8 then s.setCore k { c with mons := c.mons ++ [arm] }
  else match mine with
    | [] => s
    | m :: _ =>
      let s := s.setCore k { c with mons := c.mons.filter (fun x => x ≠ m) ++ [arm] }
      { s with groups := s.groups.map fun e =>
          (e.1, if e.2.core = k && e.2.ctx = ctx then
            { e.2 with threads := e.2.threads.map fun t => { t with watch := t.watch.map (Watch.evict m.line) } } else e.2) }

/-- One turn of a `WATCH`: checks 1, 3, 5, 6 and 7 of R302 with RD required. -/
def State.watchTurn (s : State) (i : Instr) (n : Nat) (u : Nat × List Nat) : State :=
  let gid := s.cur.gid
  match s.readOps gid u.1 (operands i) Vals.zero with
  | (s, .error r) => s.failRd u.2 r
  | (s, .ok x) =>
    let addr := s.memAddr .global false x.a
    if addr % n ≠ 0 then s.trapAll u.2 0x08 addr
    else
      let set := fun (s : State) (key : Nat) =>
        let s := (s.updThr gid u.1 fun y => { y with watch := none }).pruneMons s.cg.core
        let s := s.armLine s.cg.core s.cg.ctx (key / 64)
        s.updThr gid u.1 fun y => { y with watch := some ⟨key, n, none, true⟩ }
      match s.reach (s.who gid u.1) { Acc.read .global addr n with kind := 5 } with
      | (s, .ok key _) => set s key
      | (s, .outside _) => set s (s.outKey addr)
      | (s, .closed) => s.holdAll u.2 true false
      | (s, r) => s.failRes u.2 r addr

/-- `WATCH` (R309). -/
def execWatch (a : BitVec 7) (f : BitVec 4) (s : State) : Out :=
  let i : Instr := .watch a f
  .next (s.gate i fun s =>
    ((s.turns i).foldl (fun s u => s.watchTurn i (if f.toNat = 5 then 8 else 4) u) s).finish)

/-- A parked `WAIT` or `WAITA` with a destination writes nothing (R123). -/
def ParkRec.overtaken (r : ParkRec) (dst : Nat) : ParkRec :=
  match r.kind with
  | .wait d n => if d = dst then { r with kind := .wait 112 n } else r
  | .waita d o p v => if d = dst then { r with kind := .waita 112 o p v } else r
  | _ => r

/-- R123: a thread's result to a g register is written after those of the threads before it in its sweep: where one of them is
still parked, with the thread's position and sweep, its own result is to write nothing. -/
def State.overtakes (s : State) (gid t dst : Nat) : State :=
  let x := s.thr gid t
  let earlier := fun (g : Group) (u : Nat) => u < t && (s.sweep.stays.contains u
    || (s.sweep.stays.isEmpty && (g.thr u).last = x.last && (g.thr u).pos = x.pos))
  if dst < 80 || 112 ≤ dst then s
  else
    let beaten := fun (g : Group) (r : ParkRec) => if r.mask.all (earlier g) then r.overtaken dst else r
    s.updGrp gid fun g => { g with parks := g.parks.map (beaten g) }

/-- The result of a `WAIT` is written, and the thread's watch is disarmed (R311, R312); it keeps its monitor entry until it is
dropped (R309, R326). -/
def State.waitResult (s : State) (gid : Nat) (tt : List Nat) (dst code : Nat) : State :=
  let t := tt.headD 0
  let p := (s.grp gid).ambientAny tt
  let s := s.updThr gid t fun x => { x with watch := x.watch.map fun w => { w with latched := some 5 } }
  (s.overtakes gid t dst).pendRegs gid t dst [⟨BitVec.ofNat 32 code, p⟩] 0

/-- One turn of a `WAIT` (R311). -/
def State.waitTurn (s : State) (i : Instr) (d : Nat) (u : Nat × List Nat) : State :=
  let gid := s.cur.gid
  match s.readOps gid u.1 (operands i) Vals.zero with
  | (s, .error r) => s.failRd u.2 r
  | (s, .ok x) => match (s.thr gid u.1).watch with
    | none => s.waitResult gid u.2 d 5
    | some w => match w.latched with
      | some c => s.waitResult gid u.2 d c
      | none =>
        let b := u32 x.a
        s.park u.2 (.wait d (if b = 0 then none else some (s.now + b)))

/-- `WAIT` (R311). -/
def execWait (d : BitVec 7) (a : BitVec 7) (s : State) : Out :=
  let i : Instr := .wait d a
  .next (s.gate i fun s => ((s.turns i).foldl (fun s u => s.waitTurn i d.toNat u) s).finish)

/-- One turn of a `WAITA`: it reads the word as part of a synchronising operation (R314). -/
def State.waitaTurn (s : State) (i : Instr) (d : Nat) (u : Nat × List Nat) : State :=
  let gid := s.cur.gid
  match (s.grp gid).source s.free u.1 d with
  | none => s.trapAll u.2 0x02 0
  | some old => match s.readOps gid u.1 (operands i) Vals.zero with
    | (s, .error r) => s.failRd u.2 r
    | (s, .ok x) =>
      let addr := s.memAddr .A false x.a
      if addr % 4 ≠ 0 then s.trapAll u.2 0x08 addr
      else match s.reach (s.who gid u.1) (Acc.read .A addr 4).synced with
        | (s, .ok key _) =>
          let v := s.mem.num key 4
          if v ≠ old.v.toNat then
            (s.overtakes gid u.1 d).pendRegs gid u.1 d [⟨BitVec.ofNat 32 v, s.mem.anyP key 4 || x.p || s.ambient u.2⟩] 0
          else s.park u.2 (.waita d addr x.p old.v)
        | (s, r) => s.failRes u.2 r addr

/-- `WAITA` (R314). -/
def execWaita (d : BitVec 7) (a : BitVec 7) (s : State) : Out :=
  let i : Instr := .waita d a
  .next (s.gate i fun s => ((s.turns i).foldl (fun s u => s.waitaTurn i d.toNat u) s).finish)

/-- `PRF` (R315): timing only. -/
def execPrf (a : BitVec 7) (s : State) : Out := .next (s.gate (.prf a) fun s => s.finish)

end Sys2Proof.Machine
end

