-- ==== Sys2Proof/Machine/Sync.lean ====
section
/-! DEFINITION. Huddles, barriers and phase words (R316 to R325). -/

namespace Sys2Proof.Machine

open Sys2Proof

/-! ### Huddles -/

/-- The trap that a thread owes since its round failed, or that a refused side-logged write gives at its signature
(R170, R318); none where the thread may sign. -/
def State.owes (s : State) (t : Nat) : Option (State × Nat × Nat) :=
  match (s.thr s.cur.gid t).owed with
  | some (c, a) => some ((s.updThr s.cur.gid t fun x => { x with owed := none }).firmAll [t], c, a)
  | none => (s.sideRefused (s.who s.cur.gid t)).map fun e => ((s.dropSideRef (s.who s.cur.gid t)).firmAll [t], e.2, e.1)


def Core.huddle (c : Core) (h : Nat) : Huddle := c.huddles.getD h Huddle.reset
def State.updHuddle (s : State) (k h : Nat) (f : Huddle → Huddle) : State :=
  s.updCore k fun c => { c with huddles := c.huddles.set h (f (c.huddle h)) }

/-- The state of a huddle as `HPOLL` reads it (R316). -/
def Huddle.word (h : Huddle) : Nat :=
  h.last * 2 ^ 28 + h.rounds * 2 ^ 20 + h.gen % 4 * 2 ^ 18 + h.signed * 2 ^ 9 + h.count

/-- `HARM` arms the huddle for a launch (R317). -/
def Huddle.arm (lid c : Nat) : Huddle := ⟨some lid, c, 0, 0, 0, 0, []⟩

/-- `HARM` (R317). -/
def execHarm (a : BitVec 7) (h : BitVec 4) (s : State) : Out :=
  let i : Instr := .harm a h
  .next (s.gate i fun s =>
    ((s.turns i).foldl (fun s u => match s.readOps s.cur.gid u.1 (operands i) Vals.zero with
      | (s, .error r) => s.failRd u.2 r
      | (s, .ok x) =>
        let c := u32 x.a
        let k := s.cg.core
        if c < 1 || 256 < c || ((s.core k).huddle h.toNat).signed ≠ 0 then s.trapAll u.2 0x10 0
        else s.updHuddle k h.toNat fun _ => Huddle.arm s.cg.lid c) s).finish)

/-- How a signature is received (R318). -/
inductive Signed where
  | done | misuse | waits
deriving DecidableEq, Repr

/-- R318: one signature: to a huddle that is disarmed or another launch's it is misuse; a full round makes it wait. -/
def State.sign (s : State) (k h lid : Nat) (g : Sig) : State × Signed :=
  let hd := (s.core k).huddle h
  if hd.count = 0 || hd.owner ≠ some lid then (s, .misuse)
  else if hd.count ≤ hd.signed then (s, .waits)
  else (s.updHuddle k h fun hd => { hd with signed := hd.signed + 1, sigs := hd.sigs ++ [g] }, .done)

/-- A signature of one active thread of the sweep. -/
def State.signThread (s : State) (t h kind : Nat) (vals : List Nat) (p : Bool) : State × Signed :=
  let g := s.cg
  s.sign g.core h g.lid ⟨s.cur.gid, g.uid, t, kind, s.cur.w, s.cur.u, s.cur.lits, vals, p, s.nextId⟩

/-- A signer still waits for its round; one that `ERET` has resumed elsewhere does not (R144, R296). -/
def State.waitsAt (s : State) (g : Sig) (h : Nat) : Bool :=
  (s.grp g.gid).parks.any fun p => p.kind = .huddle h && p.mask.contains g.tix

/-- The round of a huddle is full, and no thread of the sweep owes a trap: the signature waits to issue (R318). -/
def State.roundFull (s : State) (h : Nat) : Bool :=
  let hd := (s.core s.cg.core).huddle h
  hd.owner = some s.cg.lid && hd.count ≠ 0 && hd.count ≤ hd.signed && s.cur.mask.all fun t => (s.thr s.cur.gid t).owed.isNone

/-- A signing instruction, whose path stays at it while it waits to issue (R318). -/
def State.signs (s : State) (h : Nat) (k : State → Nat → State) : State :=
  if s.roundFull h then (s.stayAll s.cur.path).finish else (s.cur.mask.foldl k s).finish

/-- `HSIGN` (R318): each active thread signs and parks until the round completes; a thread whose round failed traps
`HUDDLE` there. -/
def execHsign (h : BitVec 4) (s : State) : Out :=
  .next (s.gate (.hsign h) fun s => s.signs h.toNat fun s t =>
      match s.owes t with
      | some (s, c, a) => s.trap t c a
      | none => match s.signThread t h.toNat 0 [] false with
        | (s, .misuse) => s.trap t 0x10 0
        | (s, .waits) => s.stayAll [t]
        | (s, .done) => s.park [t] (.huddle h.toNat))

/-- `HPOLL` (R319): a snapshot; a huddle of another launch reads 0. -/
def execHpoll (d : BitVec 7) (h : BitVec 4) (s : State) : Out :=
  let i : Instr := .hpoll d h
  let hd := (s.core s.cg.core).huddle h.toNat
  .next (s.alu i (some 2) [] none fun e _ => e.nat (if hd.owner = some s.cg.lid then hd.word else 0))

/-! ### Barriers (R321, R322) -/

/-- R90: the domain of a launch's gangs. -/
def gangDom (ls : List Level) : Nat :=
  match (ls.filter fun l => l.domain < 7).getLast? with
  | some l => max l.domain 2
  | none => 6

/-- A thread that may use a barrier: one of a gang. -/
def GKind.isGang : GKind → Bool
  | .gang _ => true
  | _ => false

/-- `BAR` (R321): each active thread arrives and parks; a scope wider than the gang, and a spawned or message thread,
trap `ILLEGAL` (R322). -/
def execBar (c : BitVec 1) (n : BitVec 3) (s : State) : Out :=
  .next (s.gate (.bar c n) fun s =>
    match s.scopeDom s.cg.lid (if c = 1#1 then some n.toNat else none) with
    | none => s.illegal
    | some dom =>
      let lvl := if c = 1#1 then n.toNat else (s.levels s.cg.lid).length - 1
      if !s.cg.kind.isGang || gangDom (s.levels s.cg.lid) < dom then s.illegal
      else (s.cur.mask.foldl (fun s t => match s.owes t with
        | some (s, c, a) => s.trap t c a
        | none => s.park [t] (.bar lvl dom)) s).finish)

/-! ### Phase words (R323 to R325) -/

/-- R324: one arrival on a phase word. -/
def phaseArrive (w : Nat) : Nat :=
  let phase := w / 2 ^ 31 % 2
  let mid := w / 2 ^ 12 % 2 ^ 19
  let expect := w / 2 ^ 12 % 2 ^ 12
  let arrived := w % 2 ^ 12
  if max expect 1 ≤ arrived + 1 then (1 - phase) * 2 ^ 31 + mid * 2 ^ 12
  else phase * 2 ^ 31 + mid * 2 ^ 12 + (arrived + 1)

/-- One turn of a `PARR` (R324). -/
def State.parrTurn (s : State) (i : Instr) (u : Nat × List Nat) : State :=
  let gid := s.cur.gid
  match s.readOps gid u.1 (operands i) Vals.zero with
  | (s, .error r) => s.failRd u.2 r
  | (s, .ok x) =>
    let addr := u32 x.a
    if addr % 4 ≠ 0 then s.trapAll u.2 0x08 addr
    else s.whenReady u.1 u.2 fun s =>
      let w := s.who gid u.1
      let acc : Acc := ⟨.A, addr, 4, true, true, false, true, false, 0⟩
      match s.reach w acc with
      | (s, .ok key _) =>
        let p := s.mem.anyP key 4 || x.p || s.ambient u.2
        (s.put w acc key (leBytes 4 (phaseArrive (s.mem.num key 4))) p false true).closeIv w.agent 3
      | (s, r) => s.failRes u.2 r addr

/-- `PARR` (R324). -/
def execParr (a : BitVec 7) (s : State) : Out :=
  let i : Instr := .parr a
  .next (s.gate i fun s => ((s.turns i).foldl (fun s u => s.parrTurn i u) s).finish)

/-- One turn of a `PWAIT` (R325). -/
def State.pwaitTurn (s : State) (i : Instr) (u : Nat × List Nat) : State :=
  let gid := s.cur.gid
  match s.readOps gid u.1 (operands i) Vals.zero with
  | (s, .error r) => s.failRd u.2 r
  | (s, .ok x) =>
    let addr := u32 x.a
    if addr % 4 ≠ 0 then s.trapAll u.2 0x08 addr
    else match s.reach (s.who gid u.1) (Acc.read .A addr 4).synced with
      | (s, .ok key _) =>
        let phase := s.mem.num key 4 / 2 ^ 31 % 2
        if phase = x.d.toNat % 2 then s else s.park u.2 (.pwait addr (x.d.toNat % 2 = 1))
      | (s, r) => s.failRes u.2 r addr

/-- `PWAIT` (R325). -/
def execPwait (d : BitVec 7) (a : BitVec 7) (s : State) : Out :=
  let i : Instr := .pwait d a
  .next (s.gate i fun s => ((s.turns i).foldl (fun s u => s.pwaitTurn i u) s).finish)

end Sys2Proof.Machine
end

