-- ==== Sys2Proof/Machine/Hw.lean ====
section
/-! DEFINITION. Accesses that engines and the part's own units make: by sectors, with the outcomes of a command in
place of traps (R148, R168, R174, R182, R226, R330), and the writes of completion words (R79, R397). -/

namespace Sys2Proof.Machine

open Sys2Proof

/-- The parts of n bytes at an address, each inside one sector. -/
def chunks (addr n : Nat) : List (Nat × Nat) :=
  if n = 0 then []
  else
    let first := min n (32 - addr % 32)
    (addr, first) :: (List.range ((n - first + 31) / 32)).map fun i => (addr + first + 32 * i, min 32 (n - first - 32 * i))

/-- The size of a space as an engine sees it (R148). -/
def spcSize : Spc → Nat
  | .global => 2 ^ 64
  | .A => 2 ^ 23
  | .W => 2 ^ 24

/-- R330: the completion code that a failing check gives. -/
def engCode (trap : Nat) : Nat :=
  match trap with
  | 0x03 => 0x04
  | 0x0C => 0x10
  | 0x0B => 0x14
  | _ => 0x13

/-- How an access of a command ends. -/
inductive Eng where
  | ok (bs : List Byte) (p : Bool)
  /-- the command ends with this code -/
  | code (c : Nat)
  /-- a violation: the stream freezes -/
  | viol (cause addr : Nat)
  | waits
deriving DecidableEq, Repr

def Res.toEng (r : Res) (addr : Nat) : Eng :=
  match r with
  | .trap c => .code (engCode c)
  | .viol c => .viol c addr
  | .lost => .code 0x13
  | _ => .waits

/-- Bytes that an engine or a unit reads off the part, and their P: free values (log entry 21). -/
def State.farBytes (s : State) (addr n : Nat) : List Byte :=
  ((List.range ((n + 3) / 4)).flatMap fun j =>
    leBytes 4 (Config.remoteWord (2 ^ 80 * (s.free + 1) + 16 * addr + j)).toNat).take n
def State.farP (s : State) (addr : Nat) : Bool := Config.remoteP (2 ^ 80 * (s.free + 1) + addr)

/-- One read of at most a sector; `kind` is 8 where it takes poison with it. -/
def State.engFetch (s : State) (w : Who) (kind : Nat) (spc : Spc) (addr n : Nat) : State × Eng :=
  if s.engStops w spc addr then (s, .waits)
  else match s.reach w { Acc.read spc addr n with kind := kind } with
  | (s, .ok key attr) => (s, .ok (s.mem.read key n) (s.mem.anyP key n || attrBit attr 4))
  | (s, .outside attr) => (s, .ok (s.farBytes addr n) (s.farP addr || attrBit attr 4))
  | (s, r) => (s, r.toEng addr)

def State.updCmd (s : State) (core id : Nat) (f : Cmd → Cmd) : State :=
  s.updCore core fun c => { c with cmds := c.cmds.map fun x => if x.id = id then f x else x }

def State.cmd? (s : State) (core id : Nat) : Option Cmd := (s.core core).cmds.find? fun c => c.id = id

/-- The collective of a command, and its part in it. -/
def State.collOf (s : State) (core id : Nat) : Option (Coll × Member) :=
  s.colls.findSome? fun c => (c.members.find? fun m => m.core = core && m.cmd = some id).map fun m => (c, m)

/-- A line of a space: of global memory its number, of a buffer its offset by 64. -/
def State.spcLine (s : State) (spc : Spc) (a : Nat) : Nat := if spc = .global then s.lineOf a else a / 64

/-- The line of an access meets the lines of n bytes in the same space. -/
def State.sharesLine (s : State) (spc : Spc) (a : Nat) (spc' : Spc) (b n : Nat) : Bool :=
  spc = spc' && s.spcLine spc b ≤ s.spcLine spc a && s.spcLine spc a ≤ s.spcLine spc (b + n - 1)

/-- The completion word of a command is still to be written, in the line of an address. -/
def State.wordOn (s : State) (y : Cmd) (spc : Spc) (a : Nat) : Bool :=
  y.stage ≠ 5 && y.word.any fun w => s.sharesLine spc a w.1 w.2 4

/-- A command still has a write to make to the line of an address, its completion word among them, or has not yet read which lines
it writes. -/
def State.pendsOn (s : State) (core : Nat) (y : Cmd) (spc : Spc) (a : Nat) : Bool :=
  let writes := (y.writes.drop y.count ++ y.after).any fun z => s.sharesLine spc a z.spc z.addr z.data.length
  s.wordOn y spc a || match y.stage, y.kind with
  | 0, .bcpy .. => true
  | 0, .coll _ => true
  | 0, .subs .. => spc = .A
  | 1, .coll desc => s.sharesLine spc a .A (desc + 0x38) 4 || match s.collOf core y.id with
    | some (_, m) => s.sharesLine spc a m.dsp m.daddr m.dlen
    | none => false
  | 2, _ => writes
  | 4, _ => y.after.any fun z => s.sharesLine spc a z.spc z.addr z.data.length
  | 6, _ => y.after.any fun z => s.sharesLine spc a z.spc z.addr z.data.length
  | _, _ => false

/-- R47, R329: a command of the same sweep before this one is still to write the line of an address. -/
def State.lineBehind (s : State) (core : Nat) (c : Cmd) (spc : Spc) (a : Nat) : Bool :=
  ((s.core core).cmds.takeWhile fun y => y.id ≠ c.id).any fun y =>
    y.gid = c.gid && y.sweep = c.sweep && s.pendsOn core y spc a

/-- One read of at most a sector. A command that began before takes the reads that it performed then, and goes on with the
next one (R81). -/
def State.engRead1 (s : State) (w : Who) (spc : Spc) (addr n : Nat) : State × Eng :=
  match s.cmd? w.core w.agent.n with
  | none => s.engFetch w 3 spc addr n
  | some c => match c.got[c.seen]? with
    | some (bs, p) => (s.updCmd w.core c.id fun c => { c with seen := c.seen + 1 }, .ok bs p)
    | none => if s.lineBehind w.core c spc addr then (s, .waits) else match s.engFetch w 3 spc addr n with
      | (s, .ok bs p) => (s.updCmd w.core c.id fun c => { c with got := c.got ++ [(bs, p)], seen := c.seen + 1 }, .ok bs p)
      | r => r

/-- A stage of a command that reads: it begins with its first read, and the reads are done once the stage is over. -/
def State.cmdRead (s : State) (core id : Nat) (f : State → State) : State :=
  (f (s.updCmd core id fun c => { c with seen := 0 })).updCmd core id fun c =>
    if c.stage = 0 then c else { c with got := [] }

/-- What a command has read of a descriptor or record joins its P (R331). -/
def State.recP (s : State) (w : Who) (p : Bool) : State :=
  if p then s.updCmd w.core w.agent.n fun c => { c with p := true } else s

/-- A read of n bytes of a descriptor or record, in ascending sectors; a range that does not fit its space is code 0x13 (R148). -/
def State.engReadList (s : State) (w : Who) (spc : Spc) : List (Nat × Nat) → State × Eng
  | [] => (s, .ok [] false)
  | c :: cs => match s.engRead1 w spc c.1 c.2 with
    | (s, .ok bs p) => match (s.recP w p).engReadList w spc cs with
      | (s, .ok bs' p') => (s, .ok (bs ++ bs') (p || p'))
      | r => r
    | r => r

def State.engRead (s : State) (w : Who) (spc : Spc) (addr n : Nat) : State × Eng :=
  if spcSize spc < addr + n then (s, .code 0x13) else s.engReadList w spc (chunks addr n)

/-- One write of at most a sector; a closed granule takes it into the side log (R168). What a collective writes is not forwarded
(R345). -/
def State.engWrite1 (s : State) (w : Who) (uid : Nat) (c : CWrite) (pstop : Bool) : State × Eng :=
  if spcSize c.spc < c.addr + c.data.length then (s, .code 0x13)
  else if s.engStops w c.spc c.addr then (s, .waits)
  else
    let a : Acc := { Acc.write c.spc c.addr c.data.length (c.p && pstop) with kind := 4, sync := c.rel }
    match s.reach w a with
    | (s, .ok key _) => (s.put w a key c.data c.p c.poison (w.agent.path ≠ .K), .ok [] false)
    | (s, .outside _) => (s.sendStore w.ctx c.addr c.data c.p, .ok [] false)
    | (s, .closed) => match s.sideLog w uid c.addr ⟨c.data, c.p, c.poison, a.ps, none, c.rel⟩ with
      | (s, true) => (s, .ok [] false)
      | (s, false) => (s, .waits)
    | (s, r) => (s, r.toEng c.addr)

/-- A read by the part itself in a context's space: untracked, and no poison check; code 0x13 where it is refused. -/
def State.hwReadList (s : State) (w : Who) : List (Nat × Nat) → State × Eng
  | [] => (s, .ok [] false)
  | c :: cs => match s.reachGlobal w { Acc.read .global c.1 c.2 with kind := 10 } with
    | (s, .ok key attr) => match s.hwReadList w cs with
      | (s, .ok bs p) => (s, .ok (s.mem.read key c.2 ++ bs) (s.mem.anyP key c.2 || attrBit attr 4 || p))
      | r => r
    | (s, .outside attr) => match s.hwReadList w cs with
      | (s, .ok bs p) => (s, .ok (s.farBytes c.1 c.2 ++ bs) (s.farP c.1 || attrBit attr 4 || p))
      | r => r
    | (s, r) => (s, r.toEng c.1)

def State.hwRead (s : State) (w : Who) (va n : Nat) : State × Eng := s.hwReadList w (chunks va n)

/-- A write of a word by the part itself, as a release (R79). -/
def State.hwWrite (s : State) (w : Who) (va : Nat) (bs : List Byte) : State × Eng :=
  let a : Acc := { Acc.write .global va bs.length false with kind := 4, sync := true }
  match s.reachGlobal w a with
  | (s, .ok key _) => (s.put w a key bs false false false, .ok [] false)
  | (s, .outside _) => (s.sendStore w.ctx va bs false, .ok [] false)
  | (s, .closed) => (s.stall w.ctx (vaDie va) (vaOff va / 2 ^ 16) w.agent true, .waits)
  | (s, r) => (s, r.toEng va)

/-- A completion word: a code and a count that saturates (R79, R330). -/
def cword (code count : Nat) : Nat := code * 2 ^ 24 + min count 0xFFFFFF

/-- A launch completes FAULT for a thread whose command could not say so (R170, R397). -/
def State.faultLaunch (s : State) (lid n : Nat) : State :=
  s.updLaunch lid fun l => { l with fault := true, trapped := l.trapped + n }

/-- An engine agent by its number has a request that a link held and that may go now (R32). -/
def State.engDue (s : State) (core id : Nat) : Bool :=
  s.dev.linkHeld.any fun q => q.agent.path ≠ .T && q.agent.core = core && q.agent.n = id && s.link q.link = .trained

/-- The core's command stream of a context is frozen, or a `FENCEX` holds an agent of a path by its number (R176, R193). -/
def State.engHeld (s : State) (core ctx : Nat) (path : Path) (id : Nat) : Bool :=
  (s.core core).engFrozen.contains ctx || s.fencexHolds core path id

/-- A command or transfer stands still: its stream is frozen, but for a request that a link held before (R32), or a `FENCEX` holds
it. -/
def State.cmdHeld (s : State) (core ctx : Nat) (path : Path) (id : Nat) : Bool :=
  s.engHeld core ctx path id && (s.fencexHolds core path id || !s.engDue core id)

end Sys2Proof.Machine
end

