-- ==== Sys2Proof/Machine/Engine.lean ====
section
/-! DEFINITION. The engine commands of a thread: per-thread and bulk copies, collectives, subscriptions and active
messages at their issue, and the stages through which a command goes until its completion word is written (R328 to
R349, R397). -/

namespace Sys2Proof.Machine

open Sys2Proof

/-! ### Records in memory -/

def recW (bs : List Byte) (o : Nat) : Nat := leNat ((bs.drop o).take 4)
def recD (bs : List Byte) (o : Nat) : Nat := leNat ((bs.drop o).take 8)

/-- A layout record (R382). -/
structure Layout where
  fmt    : Nat
  elems  : Nat
  rows   : Nat
  ngroup : Nat
  base   : Nat
  len    : Nat
deriving DecidableEq, Repr

/-- Bytes of n elements of a layout format. -/
def layoutBytes (fmt n : Nat) : Nat := if fmt = 0xA then n else (n + 1) / 2

def Layout.read (bs : List Byte) : Layout :=
  ⟨recW bs 0 / 2 ^ 24 % 16, recW bs 4, recW bs 8, recW bs 12, recD bs 0x10, recW bs 0x18⟩

/-- The version, block, format and ranges of a record are valid (R382, R384). -/
def layoutOk (bs : List Byte) : Bool :=
  let w := recW bs 0
  let l := Layout.read bs
  w / 2 ^ 28 = 1 && w / 2 ^ 16 % 256 = 32 && (l.fmt = 0xA || l.fmt = 0xC || l.fmt = 0xE)
    && l.elems % 32 = 0 && 32 ≤ l.elems && l.elems ≤ 2 ^ 20 && 1 ≤ l.rows && l.rows ≤ 2 ^ 24
    && l.ngroup = (layoutBytes l.fmt (l.rows * l.elems) + 4095) / 4096 && l.base % 32 = 0 && l.len % 32 = 0

/-- The reserved fields of a record are 0, which a bulk copy checks (R337); elsewhere they read as 0 (R6). -/
def layoutClear (bs : List Byte) : Bool := recW bs 0 % 2 ^ 16 = 0 && recW bs 0x1C = 0

/-! ### Commands -/

/-- The agent and context of a command. -/
def Cmd.who (c : Cmd) (core : Nat) : Who := ⟨⟨c.path, core, c.gid, c.id⟩, core, c.lid, c.ctx⟩

/-- A command of the sweep's thread, at its issue. -/
def State.cmd0 (s : State) (t : Nat) (path : Path) (kind : CmdKind) (word : Option (Spc × Nat)) (dst : Option CmdDst)
    (p : Bool) : Cmd :=
  let g := s.cg
  ⟨s.nextId, s.cur.gid, g.uid, t, g.lid, g.ctx, path, kind, 0, 1, 0, [], [], word, dst, p, g.ctl.pstop, [],
    s.now, [], 0, g.place, none, []⟩

/-- A command joins its core's list, and its threads' regions close (R100, R328). -/
def State.issueCmd (s : State) (tt : List Nat) (c : Cmd) : State :=
  let s := { s with nextId := s.nextId + 1 }
  (s.updCore s.cg.core fun k => { k with cmds := k.cmds ++ [c] }).closeRegions tt

/-- The destination of a result register (R118, R134). -/
def Dst.toCmd : Dst → Option CmdDst
  | .reg c _ => some ⟨c, Option.none, false⟩
  | .win a key p => some ⟨a, some key, p⟩
  | .none => Option.none

/-- One turn of a command's issue: sources, then the checks `chk` of the description (a trap code and address), then
the destination of its result, then the issue (R329). -/
def State.cmdTurn (s : State) (i : Instr) (res : Bool) (chk : Vals → Option (Nat × Nat))
    (mk : State → Nat → Vals → Option CmdDst → Cmd) (u : Nat × List Nat) : State :=
  let gid := s.cur.gid
  match s.readOps gid u.1 (operands i) Vals.zero with
  | (s, .error r) => s.failRd u.2 r
  | (s, .ok v) => match chk v with
    | some (c, a) => s.trapAll u.2 c a
    | none =>
      let v := { v with p := v.p || s.ambient u.2 }
      match (operands i).find? fun o => res && o.fld = .D with
      | none => s.issueCmd u.2 (mk s u.1 v none)
      | some o => match s.dstOp gid u.1 o with
        | (s, .error r) => s.failRd u.2 r
        | (s, .ok d) => s.issueCmd u.2 (mk s u.1 v d.toCmd)

def State.command (s : State) (i : Instr) (res : Bool) (chk : Vals → Option (Nat × Nat))
    (mk : State → Nat → Vals → Option CmdDst → Cmd) : State :=
  s.gate i fun s => ((s.turns i).foldl (fun s u => s.cmdTurn i res chk mk u) s).finish

/-- An alignment check of an operand value (R329). -/
def alignChk (n a : Nat) : Option (Nat × Nat) := if a % n ≠ 0 then some (0x08, a) else none

/-! ### Per-thread copies (R332 to R335) -/

def Group.tag (g : Group) (n : Nat) : Tag := g.tags.getD n ⟨0, 0, 0, 0⟩

/-- One turn of a `CPY`. -/
def State.cpyTurn (s : State) (i : Instr) (toA : Bool) (n : Nat) (u : Nat × List Nat) : State :=
  let gid := s.cur.gid
  match s.readOps gid u.1 (operands i) Vals.zero with
  | (s, .error r) => s.failRd u.2 r
  | (s, .ok v) =>
    let va := v.a.toNat
    let off := u32 v.d
    let len := u32 v.b
    if 32 < len then s.trapAll u.2 0x01 0
    else if va % 32 ≠ 0 then s.trapAll u.2 0x08 va
    else if off % 32 ≠ 0 then s.trapAll u.2 0x08 off
    else
      let g := s.cg
      let seq := ((g.tag n).issued + 1) % 2 ^ 32
      let x : Xfer := ⟨s.nextId, gid, g.uid, u.1, g.lid, g.ctx, n, seq, toA, va, off, len, v.p || s.ambient u.2,
        g.ctl.pstop, u.2, false, s.now, 0, none⟩
      let s := s.updGrp gid fun g => { g with tags := g.tags.set n { g.tag n with issued := seq } }
      let s := { s with nextId := s.nextId + 1 }
      (s.updCore g.core fun c => { c with xfers := c.xfers ++ [x] }).closeRegions u.2

/-- A `CPY` over its sweep. The copy engine holds 1,024 transfers (R333). DEDUCED (log entry 87): a sweep is never interrupted (R116),
so where the engine has no room for all of its transfers, the whole path is held at issue. -/
def State.cpy (s : State) (i : Instr) (toA : Bool) (n : Nat) : State :=
  s.gate i fun s =>
    if 1024 < (s.core s.cg.core).xfers.length + (s.turns i).length then (s.stayAll s.cur.path).finish
    else ((s.turns i).foldl (fun s u => s.cpyTurn i toA n u) s).finish

/-- `CPY.GA` (R332). -/
def execCpyGa (d : BitVec 7) (a : BitVec 7) (b : BitVec 7) (t : BitVec 3) (s : State) : Out :=
  .next (s.cpy (.cpyGa d a b t) true t.toNat)

/-- `CPY.AG` (R332). -/
def execCpyAg (d : BitVec 7) (a : BitVec 7) (b : BitVec 7) (t : BitVec 3) (s : State) : Out :=
  .next (s.cpy (.cpyAg d a b t) false t.toNat)

/-- The transfers of a group under a tag that have not completed. -/
def State.xfersOf (s : State) (gid n : Nat) : List Xfer :=
  let g := s.grp gid
  (s.core g.core).xfers.filter fun x => x.gid = gid && x.uid = g.uid && x.tag = n

/-- Sequence number x comes after y, modulo 2^32 (R355). -/
def seqAfter (x y : Nat) : Bool := x ≠ y && (x + 2 ^ 32 - y) % 2 ^ 32 < 2 ^ 31

/-- R334: every transfer under the tag up to a sequence number has completed. -/
def State.cpywDone (s : State) (gid n seq : Nat) : Bool := (s.xfersOf gid n).all fun x => seqAfter x.seq seq

/-- The trap that a recorded error gives at `CPYW` (R334). -/
def cpywTrap (err : Nat) : Nat :=
  match err with
  | 0x04 => 0x03
  | 0x10 => 0x0C
  | 0x14 => 0x0B
  | _ => 0x09

/-- `CPYW` (R334): the group's active threads wait for the transfers issued so far under the tag. -/
def execCpyw (t : BitVec 3) (s : State) : Out :=
  .next (s.gate (.cpyw t) fun s =>
    let gid := s.cur.gid
    let n := t.toNat
    let g := s.cg
    let seqOf := fun (t : Nat) => match (g.parks.filter fun r => r.mask.contains t).map ParkRec.kind with
      | .cpyw _ q :: _ => some q
      | _ => none
    let ready := s.cur.mask.filter fun t => s.cpywDone gid n ((seqOf t).getD (g.tag n).issued)
    let fresh := s.cur.mask.filter fun t => (seqOf t).isNone && !ready.contains t
    let old := s.cur.mask.filter fun t => (seqOf t).isSome && !ready.contains t
    let s := if fresh.isEmpty then s else s.park fresh (.cpyw n (g.tag n).issued)
    let s := if old.isEmpty then s else s.stayAll old
    if ready.isEmpty then s.finish
    else
      let tag := g.tag n
      let s := s.updGrp gid fun g => { g with
        tags := g.tags.set n { tag with err := 0, addr := 0, errs := 0 }
        deferred := g.deferred.filter fun d => d.tag ≠ some n
        parks := g.parks.map fun r => { r with mask := r.mask.filter fun t => !ready.contains t } }
      (if tag.err = 0 then s else s.trapAll ready (cpywTrap tag.err) tag.addr).finish)

/-- `CPYT` (R335): a snapshot of the tag. -/
def execCpyt (d : BitVec 7) (t : BitVec 3) (s : State) : Out :=
  let n := t.toNat
  let v := (s.cg.tag n).err * 2 ^ 24 + (s.xfersOf s.cur.gid n).length
  .next (s.alu (.cpyt d t) (some 1) [] none fun e _ => e.nat v)

/-- The run of a group that issued a transfer has tailed: the retirement tracker holds it until it has drained. One that was
discarded stands there too, and has not tailed (R103, R107, R357). -/
def State.tailed (s : State) (core uid : Nat) : Bool := (s.core core).tracker.any fun t => t.uid = uid && t.ended

/-- A transfer is over: its interval closes, and a failure is recorded in its tag (R334); a `CONFLICT` also waits for the
next header wait that covers it, in every thread that issued the transfer (R182, R122). Where the group has tailed, the failure counts in its launch (R357). -/
def State.xferEnd (s : State) (core : Nat) (x : Xfer) (err addr : Nat) : State :=
  let s := s.updCore core fun c => { c with xfers := c.xfers.filter fun y => y.id ≠ x.id }
  let s := (s.dropIvs fun a => a = ⟨.C, core, x.gid, x.id⟩).dropHeld core x.id
  if err = 0 then s
  else if s.hasGrp x.gid && (s.grp x.gid).uid = x.uid then s.updGrp x.gid fun g =>
    let t := g.tag x.tag
    let t := if t.err = 0 then { t with err := err, addr := addr } else t
    { g with
      tags := g.tags.set x.tag { t with errs := t.errs + 1 }
      deferred := if err = 0x04 then g.deferred ++ [⟨x.tids, 0x03, addr, some x.tag⟩] else g.deferred }
  else if s.tailed core x.uid then s.updLaunch x.lid fun l => { l with fault := true, trapped := l.trapped + 1 }
  else s

def State.updXfer (s : State) (core id : Nat) (f : Xfer → Xfer) : State :=
  s.updCore core fun c => { c with xfers := c.xfers.map fun x => if x.id = id then f x else x }

def Xfer.who (x : Xfer) (core : Nat) : Who := ⟨⟨.C, core, x.gid, x.id⟩, core, x.lid, x.ctx⟩
def Xfer.src (x : Xfer) : Spc × Nat := if x.toA then (.global, x.va) else (.A, x.off)
def Xfer.dst (x : Xfer) : Spc × Nat := if x.toA then (.A, x.off) else (.global, x.va)

/-- The transfer's destination sector is written (R332): it ends with `err`, once its write has performed. -/
def State.xferWrite (s : State) (core : Nat) (x : Xfer) (bs : List Byte) (p poison : Bool) : State :=
  let err := if poison then 0x10 else 0
  match s.engWrite1 (x.who core) x.uid ⟨x.dst.1, x.dst.2, (bs ++ List.replicate 32 0#8).take 32, p, poison, false⟩ x.pstop with
  | (s, .ok ..) =>
    if s.sideWaits (x.who core) then s.updXfer core x.id fun y => { y with logged := true, err := err }
    else s.xferEnd core x err x.src.2
  | (s, .code c) => s.xferEnd core x c x.dst.2
  | (s, .viol c a) => s.freezeStream core x.ctx c a
  | (s, .waits) => s

/-- R356: what is checked of a source that is not read. -/
def State.noSource (s : State) (x : Xfer) : Bool :=
  if x.toA then vaDev x.va = 255 || vaDev x.va = s.dev.pod || (vaDev x.va < 144 && (s.linkOf x.va).isSome)
  else x.off + 32 ≤ 2 ^ 23

/-- What a transfer reads of its source, or the code that it ends with. A source that is poisoned is read with its poison, and
poisons the destination (R332). -/
def State.xferRead (s : State) (core : Nat) (x : Xfer) : State × Except Eng (List Byte × Bool × Bool) :=
  match x.got with
  | some g => (s, .ok g)
  | none =>
    if x.len = 0 then (s, if s.noSource x then .ok ([], false, false) else .error (.code 0x13))
    else if spcSize x.src.1 < x.src.2 + x.len then (s, .error (.code 0x13))
    else match s.engFetch (x.who core) 3 x.src.1 x.src.2 x.len with
      | (s, .ok bs p) => (s, .ok (bs, p, false))
      | (s, .code 0x10) => match s.engFetch (x.who core) 8 x.src.1 x.src.2 x.len with
        | (s, .ok bs p) => (s, .ok (bs, p, true))
        | (s, r) => (s, .error r)
      | (s, r) => (s, .error r)

/-- R47, R329: a transfer of the same sweep before this one still has an access to the same line to make, of which one is a
write. -/
def State.xferBehind (s : State) (core : Nat) (x : Xfer) : Bool :=
  ((s.core core).xfers.takeWhile fun y => y.id ≠ x.id).any fun y =>
    y.gid = x.gid && y.sweep = x.sweep && !y.logged
      && ((!(x.toA && y.toA) && s.lineOf y.va = s.lineOf x.va) || ((x.toA || y.toA) && y.off / 64 = x.off / 64))

/-- A transfer runs (R332): its source bytes are read once, and the rest of the sector is zero. -/
def State.xferRun (s : State) (core : Nat) (x : Xfer) : State :=
  let w := x.who core
  if x.logged then
    match s.sideRefused w with
    | some (a, c) => (s.dropSideRef w).xferEnd core x (engCode c) a
    | none => if s.sideWaits w then s else s.xferEnd core x x.err x.src.2
  else if spcSize x.dst.1 < x.dst.2 + 32 then s.xferEnd core x 0x13 x.dst.2
  else match s.xferRead core x with
    | (s, .ok (bs, p, poison)) =>
      (s.updXfer core x.id fun y => { y with got := some (bs, p, poison) }).xferWrite core x bs (x.p || p) poison
    | (s, .error (.code c)) => s.xferEnd core x c x.src.2
    | (s, .error (.viol c a)) => s.freezeStream core x.ctx c a
    | (s, .error _) => s

/-- `COPY_TRANSFER_COMPLETION` (R332): transfers complete in any order but for one line (R333, R329); a frozen stream makes
none, and a `FENCEX` holds later ones (R193). -/
def execCopyTransferCompletion (core idx : Nat) (s : State) : Out :=
  match (s.core core).xfers[idx]? with
  | none => .next s.tick
  | some x => .next (if s.cmdHeld core x.ctx .C x.id || s.xferBehind core x then s else s.xferRun core x).tick

/-! ### Issue of the other commands -/

/-- `BCPY` (R336). -/
def execBcpy (a : BitVec 7) (b : BitVec 7) (c : BitVec 7) (s : State) : Out :=
  .next (s.command (.bcpy a b c) false
    (fun v => (alignChk 64 (u32 v.a)).orElse fun _ => alignChk 4 v.c.toNat)
    (fun s t v _ => s.cmd0 t .C (.bcpy (u32 v.a) v.b.lo) (some (.global, v.c.toNat)) none v.p))

/-- `COLL` (R339). -/
def execColl (d : BitVec 7) (a : BitVec 7) (s : State) : Out :=
  .next (s.command (.coll d a) true (fun v => alignChk 64 (u32 v.a))
    (fun s t v dst => s.cmd0 t .K (.coll (u32 v.a)) none dst v.p))

/-- `SUBS` (R343). -/
def execSubs (n : BitVec 7) (a : BitVec 7) (s : State) : Out :=
  .next (s.command (.subs n a) false (fun v => alignChk 32 (u32 v.a))
    (fun s t v _ => s.cmd0 t .C (.subs false n.toNat (u32 v.a)) none none v.p))

/-- `SUBS.SYNC` (R343). -/
def execSubsSync (n : BitVec 7) (a : BitVec 7) (s : State) : Out :=
  .next (s.command (.subsSync n a) false (fun v => alignChk 32 (u32 v.a))
    (fun s t v _ => s.cmd0 t .C (.subs true n.toNat (u32 v.a)) none none v.p))

/-- `SUBX` (R347). -/
def execSubx (n : BitVec 7) (a : BitVec 7) (s : State) : Out :=
  .next (s.command (.subx n a) false (fun v => alignChk 4 (u32 v.a))
    (fun s t v _ => s.cmd0 t .C (.subx n.toNat) (some (.A, u32 v.a)) none v.p))

/-- The landing entry of a number on a core. -/
def Core.land? (c : Core) (n : Nat) : Option LandEnt := c.lands.find? fun l => l.n = n

/-- `SUBF` (R348): a lapsed entry traps the thread (R346). -/
def execSubf (d : BitVec 7) (n : BitVec 7) (s : State) : Out :=
  let st := ((s.core s.cg.core).land? n.toNat).map LandEnt.st
  .next (s.command (.subf d n) true
    (fun _ => if st = some .lapsed then some (0x0B, 0) else none)
    (fun s t v dst => s.cmd0 t .C (.subf n.toNat) none dst v.p))

/-- `SUBF.SRC` (R348). -/
def execSubfSrc (d : BitVec 7) (s : State) : Out :=
  .next (s.command (.subfSrc d) true (fun _ => none)
    (fun s t v dst => s.cmd0 t .C .subfSrc none dst v.p))

/-- The payload registers of an active message (R349). -/
def State.payload (s : State) (t c k : Nat) : Option (List Reg) :=
  (List.range k).foldr (fun i acc => match s.cg.source s.free t (c + i), acc with
    | some r, some rs => some (r :: rs)
    | _, _ => none) (some [])

/-- One turn of an `AMSG`: a release of the thread at pod scope, which closes its accesses before it and not the store of its own
result through a window (R195, R185). -/
def State.amsgTurn (s : State) (i : Instr) (k c : Nat) (u : Nat × List Nat) : State :=
  let gid := s.cur.gid
  match s.readOps gid u.1 (operands i) Vals.zero with
  | (s, .error r) => s.failRd u.2 r
  | (s, .ok v) => match s.payload u.1 c k with
    | none => s.trapAll u.2 0x02 0
    | some rs =>
      let entry := v.a.toNat
      let b := u32 v.b
      if entry = 0 || entry % 4 ≠ 0 || b / 2 ^ 16 % 2 ^ 15 ≠ 0 then s.trapAll u.2 0x01 0
      else match (operands i).find? fun o => o.fld = .D with
        | none => s
        | some o => s.whenReady u.1 u.2 fun s => match (s.closeIv (s.agent gid u.1) 7).dstOp gid u.1 o with
          | (_, .error r) => (s.dstOp gid u.1 o).1.failRd u.2 r
          | (s, .ok d) =>
            let m : Msg := ⟨s.cg.ctx, entry, rs, b / 2 ^ 31 = 1⟩
            s.issueCmd u.2 (s.cmd0 u.1 .K (.amsg m (b % 2 ^ 16)) none d.toCmd (v.p || s.ambient u.2))

/-- `AMSG` (R349). -/
def execAmsg (d : BitVec 7) (a : BitVec 7) (b : BitVec 7) (t : BitVec 3) (c : BitVec 7) (s : State) : Out :=
  let i : Instr := .amsg d a b t c
  .next (s.gate i fun s => ((s.turns i).foldl (fun s u => s.amsgTurn i (amsgWords t) c.toNat u) s).finish)

/-! ### The stages of a command -/

/-- A command leaves its collective; a collective of which no command runs is over. -/
def State.leaveColl (s : State) (core id : Nat) : State :=
  let out := fun (m : Member) => if m.core = core && m.cmd = some id then { m with ended := true } else m
  let cs := s.colls.map fun c => { c with members := c.members.map out }
  { s with colls := cs.filter fun c => c.members.any fun m => m.cmd.isSome && !m.ended }

/-- The delivery to a command's rank has been made, refused or given up: no other rank waits for it (R60). -/
def State.collGot (s : State) (core id : Nat) : State :=
  let got := fun (m : Member) => if m.core = core && m.cmd = some id then { m with got := true } else m
  { s with colls := s.colls.map fun c => { c with members := c.members.map got } }

/-- The command's outcome stands; its word and result are still to be written. It makes none of its other accesses, nor one that a
link holds. -/
def State.cmdEnds (s : State) (core id code count : Nat) : State :=
  ((s.updCmd core id fun c => { c with stage := 3, code := code, count := count }).collGot core id).dropHeld core id

/-- A command whose completion word cannot be written faults its launch (R397). -/
def State.cmdWordless (s : State) (core : Nat) (c : Cmd) (code : Nat) : State :=
  (s.updCmd core c.id fun c => { c with stage := 3, code := code, count := 0, word := none }).faultLaunch c.lid 1

/-- The address of a completion word in a record whose read did not end: it is read once more, by no access of the command's
interval, where only `CONFLICT` ended the read. A record that cannot be read gives none (log entry 50). -/
def State.recordWord (s : State) (w : Who) (code addr n : Nat) : Option Nat :=
  if code ≠ 0x04 then none
  else match s.reachA w { Acc.read .A addr n with kind := 10 } with
    | (s, .ok key _) => some (s.mem.num key n)
    | _ => none

/-- What a failing access of a command does. -/
def State.cmdFails (s : State) (core : Nat) (c : Cmd) (r : Eng) (count : Nat) : State :=
  match r with
  | .code n => s.cmdEnds core c.id n count
  | .viol n a => s.freezeStream core c.ctx n a
  | _ => s

/-- The result register of a command is pending (R118). A thread that has ended has no register to write, and its window
store still performs (R107, R290), in its place among those of its group (R123). -/
def State.cmdResult (s : State) (core : Nat) (c : Cmd) (v : Nat) : State :=
  match c.dst with
  | none => s
  | some d =>
    let r : Reg := ⟨BitVec.ofNat 32 v, c.p || d.wp⟩
    let g := s.grp c.gid
    if g.uid = c.uid && ((g.thr c.tix).life = .live || d.win.isSome) then
      s.updGrp c.gid fun g => { g with pend := g.pend ++ [⟨c.tix, d.code, [r], 3, d.win, [], none⟩] }
    else match d.win with
      | some key => s.winStore core c.lid d.code key r
      | none => s

/-- The command is gone, and its interval closes toward every agent (R192). -/
def State.cmdGone (s : State) (core : Nat) (c : Cmd) : State :=
  let s := ((s.updCore core fun k => { k with cmds := k.cmds.filter fun x => x.id ≠ c.id }).leaveColl core c.id).dropHeld core c.id
  s.dropIvs fun a => a = (c.who core).agent

/-- R123: an earlier command of the same sweep has not yet given its result to the same g register or window word, which the last
of them in sweep order is to keep. -/
def State.resultBehind (s : State) (core : Nat) (c : Cmd) : Bool :=
  match c.dst with
  | none => false
  | some d => (d.win.isSome || 80 ≤ d.code) && ((s.core core).cmds.takeWhile fun x => x.id ≠ c.id).any fun x =>
      x.gid = c.gid && x.sweep = c.sweep && match x.dst with
        | some e => e.code = d.code && e.win.isSome = d.win.isSome
        | none => false

/-- The command ends with its result, once those that it overwrites are there (R123); its word is written, and its interval closes,
also where the result still waits (R192, R330). Its group goes on at a marker that nothing else holds (R119). -/
def State.cmdOver (s : State) (core : Nat) (c : Cmd) (code : Nat) : State :=
  if s.resultBehind core c then
    (s.updCmd core c.id fun x => { x with stage := 7, code := code, word := none }).dropIvs fun a => a = (c.who core).agent
  else ((s.cmdGone core c).cmdResult core c (cword code c.count)).unmark c.gid

/-- Its completion word is not written: the launch counts its thread as trapped (R397). -/
def State.cmdUntold (s : State) (core : Nat) (c : Cmd) (code : Nat) : State := (s.faultLaunch c.lid 1).cmdOver core c code

/-- The code of a command that an access stops: a failure that came before stands (R330). -/
def Cmd.worse (c : Cmd) (n : Nat) : Nat := if [0x04, 0x10, 0x12, 0x13, 0x14].contains c.code then c.code else n

/-- The completion word of a command is written, as a release (R330, R397). A word in a closed granule goes through the side
log. A violation freezes the stream, and the write is made again later. -/
def State.cmdWord (s : State) (core : Nat) (c : Cmd) (spc : Spc) (a : Nat) : State :=
  let w := c.who core
  let bs := leBytes 4 (cword c.code c.count)
  let acc : Acc := { Acc.write spc a 4 (c.p && c.pstop) with kind := 4, sync := true }
  if s.engStops w spc a then s
  else match s.reach w acc with
  | (s, .ok key _) => (s.put w acc key bs c.p false true).cmdOver core c c.code
  | (s, .outside _) => (s.sendStore c.ctx a bs c.p).cmdOver core c c.code
  | (s, .viol n) => s.freezeStream core c.ctx n a
  | (s, .closed) => match s.sideLog w c.uid a ⟨bs, c.p, false, acc.ps, none, true⟩ with
    | (s, true) => s.updCmd core c.id fun c => { c with stage := 5 }
    | (s, false) => s
  | (s, .trap n) => s.cmdUntold core c (c.worse (engCode n))
  | (s, .lost) => s.cmdUntold core c (c.worse 0x13)
  | (s, .waits) => s

/-- The destination sectors of writes. -/
def sectorCount (ws : List CWrite) : Nat := (ws.map fun w => (w.spc, w.addr / 32)).eraseDups.length

/-- Refused side-logged writes of a command: it completes FAULT, or 0x04 where the first one conflicted, without the sectors that
they did not write (R168, R182). An earlier outcome stands (R330). -/
def State.cmdRefused (s : State) (core : Nat) (c : Cmd) : State :=
  let bad := (s.core core).sideRef.filter fun e => e.1 = (c.who core).agent
  let ws := if c.stage = 2 then c.writes.take c.count else c.writes
  let n := sectorCount (ws.filter fun x => x.spc = .global && bad.any fun e => e.2.1 / 32 = x.addr / 32)
  let code := ((bad.head?).map fun e => engCode e.2.2).getD 0x13
  let done := if c.stage = 2 || c.code = 2 || c.code = 3 then sectorCount ws else c.count
  (s.dropSideRef (c.who core)).cmdEnds core c.id (c.worse code) (done - n)

/-- The end of a command (R330, R397): side-logged writes drain first, then the word is written, then the result. -/
def State.cmdFinish (s : State) (core : Nat) (c : Cmd) : State :=
  let w := c.who core
  if (s.sideRefused w).isSome then s.cmdRefused core c
  else if s.sideWaits w then s
  else match c.word with
    | none => s.cmdOver core c c.code
    | some (spc, a) => if s.lineBehind core c spc a then s else s.cmdWord core c spc a

/-- A completion word in the side log has been written, or is refused (R168, R397). -/
def State.cmdLogged (s : State) (core : Nat) (c : Cmd) : State :=
  let w := c.who core
  match s.sideRefused w with
  | some (_, n) => (s.dropSideRef w).cmdUntold core c (c.worse (engCode n))
  | none => if s.sideWaits w then s else s.cmdOver core c c.code

/-- The data writes of a command are made. A collective then waits for the destinations of the other ranks (R60). -/
def State.cmdWritten (s : State) (core : Nat) (c : Cmd) (count : Nat) : State :=
  match s.collOf core c.id with
  | some _ => (s.collGot core c.id).updCmd core c.id fun x => { x with count := count, stage := 6 }
  | none => s.updCmd core c.id fun x => { x with count := count, stage := 4 }

/-- The data writes of a command from number k on, then the writes that follow them (R338, R385). -/
def State.cmdWrites (s : State) (core : Nat) (c : Cmd) : Nat → List CWrite → State
  | k, [] => s.cmdWritten core c (sectorCount (c.writes.take k))
  | k, x :: xs =>
    if s.lineBehind core c x.spc x.addr then s.updCmd core c.id fun c => { c with count := k }
    else match s.engWrite1 (c.who core) c.uid x c.pstop with
    | (s, .ok ..) => s.cmdWrites core c (k + 1) xs
    | (s, .code n) =>
      (s.updCmd core c.id fun x => { x with writes := c.writes.take k }).cmdEnds core c.id n (sectorCount (c.writes.take k))
    | (s, .viol n a) => (s.updCmd core c.id fun c => { c with count := k }).freezeStream core c.ctx n a
    | (s, .waits) => s.updCmd core c.id fun c => { c with count := k }

/-- A drain's layout record counts as one sector (R392). -/
def Cmd.recordCount (c : Cmd) : Nat :=
  match c.kind with
  | .mdrn _ => if c.after.isEmpty then 0 else 1
  | _ => 0

/-- The writes that follow all data writes. An arrival flag is a release for the bytes before it: it waits for the side log,
and closes the command's interval (R169, R338). -/
def State.cmdAfter (s : State) (core : Nat) (c : Cmd) : List CWrite → State
  | [] => s.updCmd core c.id fun x => { x with stage := 3, count := x.count + c.recordCount, after := [] }
  | x :: xs =>
    let w := c.who core
    if (x.rel && s.sideWaits w) || s.lineBehind core c x.spc x.addr then s.updCmd core c.id fun c => { c with after := x :: xs }
    else match s.engWrite1 w c.uid x c.pstop with
    | (s, .ok ..) => (if x.rel && !s.sideWaits w then s.closeIv w.agent 7 else s).cmdAfter core c xs
    | (s, .code n) => s.cmdEnds core c.id n c.count
    | (s, .viol n a) => (s.updCmd core c.id fun c => { c with after := x :: xs }).freezeStream core c.ctx n a
    | (s, .waits) => s.updCmd core c.id fun c => { c with after := x :: xs }

/-! ### Bulk copies (R336 to R338) -/

/-- A signed 64-bit field. -/
def recI (bs : List Byte) (o : Nat) : Int := signOf 64 (recD bs o)

/-- The fields of a bulk copy's descriptor. -/
structure Bcpy where
  ssp   : Spc
  dsp   : Spc
  fsp   : Nat
  lr    : Bool
  rows  : Nat
  bytes : Nat
  saddr : Nat
  daddr : Nat
  spitch : Int
  dpitch : Int
  faddr : Nat
  drec  : Nat
deriving DecidableEq, Repr

/-- An address of a space other than global memory lies in 32 bits (R336). -/
def addrFits (spc : Spc) (a : Nat) : Bool := spc = .global || a < 2 ^ 32

/-- The descriptor, or none where it is malformed (R336). -/
def Bcpy.parse (bs : List Byte) : Option Bcpy :=
  let w := recW bs 0
  let ssp : Spc := if w / 2 ^ 27 % 2 = 0 then .global else .A
  let dsp : Spc := match w / 2 ^ 25 % 4 with
    | 0 => .global
    | 1 => .A
    | _ => .W
  let fsp := w / 2 ^ 23 % 4
  let lr := w / 2 ^ 22 % 2 = 1
  let rows := recW bs 4
  let bytes := recW bs 0x18
  let fspc : Spc := if fsp = 2 then .global else .A
  let ok := w / 2 ^ 28 = 1 && w / 2 ^ 25 % 4 ≠ 3 && fsp ≠ 3 && w % 2 ^ 22 = 0 && rows < 2 ^ 24 && recW bs 0x1C = 0
    && (lr || (1 ≤ rows && 1 ≤ bytes && bytes ≤ 2 ^ 24)) && addrFits ssp (recD bs 8) && addrFits dsp (recD bs 0x10)
    && (fsp = 0 || (recD bs 0x30 % 4 = 0 && addrFits fspc (recD bs 0x30))) && (!lr || addrFits dsp (recD bs 0x38))
  if ok then some ⟨ssp, dsp, fsp, lr, rows, bytes, recD bs 8, recD bs 0x10, recI bs 0x20, recI bs 0x28, recD bs 0x30,
    recD bs 0x38⟩
  else none

/-- Bytes with the P of their source sectors; those of a record (`rec_`) join the command's P (R331). -/
def State.engBytes (s : State) (w : Who) (rec_ : Bool) (spc : Spc) : List (Nat × Nat) → State × Except Eng (List (Byte × Bool))
  | [] => (s, .ok [])
  | c :: cs => match s.engRead1 w spc c.1 c.2 with
    | (s, .ok bs p) => match (s.recP w (rec_ && p)).engBytes w rec_ spc cs with
      | (s, .ok rest) => (s, .ok (bs.map (fun b => (b, p)) ++ rest))
      | r => r
    | (s, r) => (s, .error r)

/-- The writes of bytes at an address, one for each destination sector, each with its P (R331). -/
def sectorWrites (spc : Spc) (addr : Nat) (bs : List (Byte × Bool)) (p : Bool) : List CWrite :=
  (chunks addr bs.length).map fun c =>
    let part := (bs.drop (c.1 - addr)).take c.2
    ⟨spc, c.1, part.map Prod.fst, p || part.any Prod.snd, false, false⟩

/-- Neighbouring writes inside one sector are one write of it. -/
def mergeWrites (ws : List CWrite) : List CWrite :=
  ws.foldr (fun a acc => match acc with
    | b :: bs =>
      if a.spc = b.spc && a.addr + a.data.length = b.addr && a.addr / 32 = b.addr / 32 then
        ⟨a.spc, a.addr, a.data ++ b.data, a.p || b.p, a.poison || b.poison, false⟩ :: bs
      else a :: b :: bs
    | [] => [a]) []

/-- A range lies in its space. -/
def inSpace (spc : Spc) (a : Int) (n : Nat) : Bool := 0 ≤ a && a + n ≤ spcSize spc

/-- The rows of a copy, read in order. -/
def State.bcpyRows (s : State) (w : Who) (b : Bcpy) (p : Bool) : List Nat → State × Except Eng (List CWrite)
  | [] => (s, .ok [])
  | i :: is =>
    let src := ((b.saddr : Int) + i * b.spitch).toNat
    let dst := ((b.daddr : Int) + i * b.dpitch).toNat
    match s.engBytes w false b.ssp (chunks src b.bytes) with
    | (s, .error r) => (s, .error r)
    | (s, .ok bs) => match s.bcpyRows w b p is with
      | (s, .ok ws) => (s, .ok (sectorWrites b.dsp dst bs p ++ ws))
      | r => r

/-- The arrival flag lies in its space (R148). -/
def Bcpy.flagFits (b : Bcpy) : Bool := b.fsp = 0 || inSpace (if b.fsp = 2 then .global else .A) b.faddr 4

/-- The arrival flag (R338). -/
def Bcpy.flag (b : Bcpy) (v : Word) (p : Bool) : List CWrite :=
  if b.fsp = 0 then [] else [⟨if b.fsp = 2 then .global else .A, b.faddr, leBytes 4 v.toNat, p, false, true⟩]

/-- The writes of a copy through a layout record (R337): the data, then the record with its new base, then the flag. -/
def State.bcpyLayout (s : State) (w : Who) (b : Bcpy) (flag : Word) (p : Bool) :
    State × Except Eng (List CWrite × List CWrite × Bool) :=
  if !inSpace b.ssp b.saddr 32 then (s, .error (.code 0x13))
  else match s.engBytes w true b.ssp (chunks b.saddr 32) with
    | (s, .error r) => (s, .error r)
    | (s, .ok hd) =>
      let l := Layout.read (hd.map Prod.fst)
      let recLen := 32 + 4 * l.ngroup
      let ok := layoutOk (hd.map Prod.fst) && layoutClear (hd.map Prod.fst) && b.saddr % 32 = 0 && b.daddr % 32 = 0 && b.drec % 32 = 0
        && addrFits b.ssp l.base && inSpace b.ssp b.saddr recLen && inSpace b.ssp l.base l.len
        && inSpace b.dsp b.daddr l.len && inSpace b.dsp b.drec recLen
      if !ok then (s, .error (.code 0x13))
      else match s.engBytes w true b.ssp (chunks (b.saddr + 32) (4 * l.ngroup)) with
        | (s, .error r) => (s, .error r)
        | (s, .ok offs) => match s.engBytes w false b.ssp (chunks l.base l.len) with
          | (s, .error r) => (s, .error r)
          | (s, .ok data) =>
            let p := p || (hd ++ offs).any Prod.snd
            let base := (leBytes 8 b.daddr).map fun x => (x, false)
            let rec_ := hd.take 0x10 ++ base ++ hd.drop 0x18 ++ offs
            (s, .ok (sectorWrites b.dsp b.daddr data p, sectorWrites b.dsp b.drec rec_ p ++ b.flag flag p, p))

/-- A bulk copy starts: its descriptor is checked and its source read (R336, R337). -/
def State.bcpyStart (s : State) (core : Nat) (c : Cmd) (desc : Nat) (flag : Word) : State :=
  let w := c.who core
  match s.engRead w .A desc 64 with
  | (s, .ok bs dp) => match Bcpy.parse bs with
    | none => s.cmdEnds core c.id 0x13 0
    | some b =>
      let p := c.p || dp
      let go := fun (s : State) (ws after : List CWrite) (p : Bool) =>
        s.updCmd core c.id fun c => { c with stage := 2, writes := ws, after := after, p := p }
      if !b.flagFits then s.cmdEnds core c.id 0x13 0
      else if b.lr then match s.bcpyLayout w b flag p with
        | (s, .ok (ws, after, p)) => go s ws after p
        | (s, .error r) => s.cmdFails core c r 0
      else if !((List.range b.rows).all fun i => inSpace b.ssp (b.saddr + i * b.spitch) b.bytes
          && inSpace b.dsp (b.daddr + i * b.dpitch) b.bytes) then s.cmdEnds core c.id 0x13 0
      else match s.bcpyRows w b p (List.range b.rows) with
        | (s, .ok ws) => go s (mergeWrites ws) (b.flag flag p) p
        | (s, .error r) => s.cmdFails core c r 0
  | (s, r) => s.cmdFails core c r 0

end Sys2Proof.Machine
end

