-- ==== Sys2Proof/Machine/Command.lean ====
section
/-! DEFINITION. Subscriptions at both of their ends (R343 to R348, R359 to R361), collectives (R55 to R61, R339 to
R342), the delivery of active messages (R50, R51), and the event that carries a command on (R397). -/

namespace Sys2Proof.Machine

open Sys2Proof

/-! ### Subscriptions -/

def SrcEnt.empty : SrcEnt := ⟨0, 0, 0, 0, [], []⟩

/-- The landing state of a subscriber. -/
def State.landSt (s : State) (sub : Nat × Nat) : Option LandSt := ((s.core sub.1).land? sub.2).map LandEnt.st

/-- The subscribers of an entry that have not lapsed, or that a `SUBS.SYNC` has bound again at its point S (R344); a lapsed one
stays in the list so that what it misses is counted (R361). -/
def State.liveSubs (s : State) (e : SrcEnt) : List (Nat × Nat) :=
  e.subs.filter fun x => match (s.core x.1).land? x.2 with
    | some l => l.st ≠ .lapsed || l.sync.isSome
    | none => true

/-- A subscriber leaves every source entry; an entry without one is free (R343). -/
def SrcEnt.drop (sub : Nat × Nat) (e : SrcEnt) : SrcEnt :=
  if !e.subs.contains sub then e
  else
    let left := e.subs.filter (· ≠ sub)
    if left.isEmpty then SrcEnt.empty else { e with subs := left }

/-- Every core is updated. -/
def State.mapCores (s : State) (f : Core → Core) : State := { s with cores := s.cores.map (fun k => (k.1, f k.2)) }

def State.dropSub (s : State) (sub : Nat × Nat) : State :=
  s.mapCores fun c => { c with srcs := c.srcs.map (SrcEnt.drop sub) }

/-- The open batches of an entry are forced out, in the order in which their windows opened. -/
def State.flushEntry (s : State) (core ent : Nat) : State :=
  match (s.core core).srcs[ent]? with
  | none => s
  | some e =>
    let s := s.updCore core fun c => { c with srcs := c.srcs.set ent { e with open_ := [] } }
    e.open_.foldl (fun s w => s.forwardLine core e.lid ent w.1 w.2 fun _ => true) s

/-- The open batches of the source entries of a lapsed subscriber are forced out to it alone: what it would have been sent counts
as refused (R361). -/
def State.lastUpdates (s : State) (sub : Nat × Nat) : State :=
  s.cores.foldl (fun s k => (List.range k.2.srcs.length).foldl (fun s i =>
    let e := k.2.srcs.getD i SrcEnt.empty
    if e.subs.contains sub then e.open_.foldl (fun s w => s.forwardLine k.1 e.lid i w.1 w.2 fun x => x = sub) s else s) s) s

/-- The landing entry of a number becomes FREE. -/
def State.freeLand (s : State) (core n : Nat) : State :=
  (s.dropSub (core, n)).updCore core fun c => { c with lands := c.lands.filter fun l => l.n ≠ n }

/-- Updates on their way to a landing entry. -/
def State.updsTo (s : State) (core n : Nat) : List Nat := ((s.core core).upds.filter fun u => u.n = n).map Upd.id

/-- Updates of a launch on their way from a source core. -/
def State.updsFrom (s : State) (core lid : Nat) : List Nat :=
  s.cores.flatMap fun k => (k.2.upds.filter fun u => u.src = core && u.lid = lid).map Upd.id

/-- The refusals of a launch on a core since its last `SUBF.SRC` (R348). -/
def Core.refd (c : Core) (lid : Nat) : Refd := (c.refs.find? fun r => r.lid = lid).getD ⟨lid, 0, 0⟩
def Core.setRefd (c : Core) (r : Refd) : Core := { c with refs := r :: c.refs.filter fun x => x.lid ≠ r.lid }

/-- The open batches of a launch's source entries on a core are forced out. -/
def State.flushLaunch (s : State) (core lid : Nat) : State :=
  (List.range (s.core core).srcs.length).foldl (fun s i =>
    if ((s.core core).srcs[i]?.map SrcEnt.lid) = some lid then s.flushEntry core i else s) s

/-- A landing entry of a core is changed. -/
def State.updLand (s : State) (core n : Nat) (f : LandEnt → LandEnt) : State :=
  s.updCore core fun c => { c with lands := c.lands.map fun l => if l.n = n then f l else l }

/-- The copy of a `SUBS.SYNC` has been applied: its entry is LIVE with the new binding, or HELD where its instance has been
discarded meanwhile (R346). -/
def LandEnt.synced (held : Bool) (l : LandEnt) : LandEnt :=
  let st : LandSt := if held then .held else .live
  match l.sync with
  | some b => { l with st := st, b := b, sync := none }
  | none => if l.st = .binding then { l with st := st } else l

/-- The instance of a landing entry is held. -/
def State.landHeld (s : State) (l : LandEnt) : Bool :=
  s.helds.any fun h => h.lid = l.lid && h.place = l.place && h.groups.any fun g => g.gid = l.gid

/-- A subscription command whose updates have all been applied or refused completes. -/
def State.subDone (s : State) (core : Nat) (c : Cmd) : State :=
  match c.kind with
  | .subx n => (s.freeLand core n).cmdEnds core c.id 1 0
  | .subfSrc =>
    let r := (s.core core).refd c.lid
    let code := if r.conflict ≠ 0 then 4 else if r.refused ≠ 0 then 2 else 1
    (s.updCore core fun k => k.setRefd ⟨c.lid, 0, 0⟩).cmdEnds core c.id code (r.conflict + r.refused)
  | .subs true n _ => (s.updLand core n fun l => l.synced (s.landHeld l)).cmdEnds core c.id 1 c.count
  | _ => s.cmdEnds core c.id 1 c.count

/-- Commands that wait for nothing more complete. -/
def State.subsSettle (s : State) : State :=
  (s.cores.flatMap fun k => (k.2.cmds.filter fun c => c.stage = 1 && c.waits.isEmpty && match c.kind with
      | .coll _ => false
      | _ => true).map fun c => (k.1, c)).foldl (fun s e => s.subDone e.1 e.2) s

def Cmd.forget (ids : List Nat) (c : Cmd) : Cmd := { c with waits := c.waits.filter fun i => !ids.contains i }

/-- Updates are over: no command waits for them any more. -/
def State.updsOver (s : State) (ids : List Nat) : State :=
  (s.mapCores fun c => { c with
      upds := c.upds.filter (fun u => !ids.contains u.id)
      cmds := c.cmds.map (Cmd.forget ids) }).subsSettle

/-- A command waits for updates, or completes where there are none. -/
def State.cmdWaits (s : State) (core : Nat) (c : Cmd) (ids : List Nat) (count : Nat) : State :=
  (s.updCmd core c.id fun c => { c with stage := 1, waits := ids, count := count }).subsSettle

/-- A subscription record (R343). -/
structure SubRec where
  land  : Nat
  len   : Nat
  batch : Nat
  score : Nat
  soff  : Nat
deriving DecidableEq, Repr

def SubRec.parse (bs : List Byte) : Option SubRec :=
  let w := recW bs 8
  let r : SubRec := ⟨recW bs 0, recW bs 4, w / 2 ^ 16 % 32, w % 256, recW bs 12⟩
  if r.land % 64 = 0 && r.len % 64 = 0 && 64 ≤ r.len && r.len ≤ 0x100000 && w / 2 ^ 21 = 0 && w / 2 ^ 8 % 2 ^ 8 = 0
    && r.batch ≤ 16 && r.score ≤ 239 && r.soff % 64 = 0 && recW bs 20 = 0 && recW bs 24 = 0 && recW bs 28 = 0
    && r.land + r.len ≤ 2 ^ 23 && r.soff + r.len ≤ 2 ^ 23 then some r else none

/-- The source entry that a bind takes: the one with the same region, or a free one. One whose subscribers have all lapsed is
free, and stands in the list only for what they miss (R343, R361). -/
def State.entryFor (s : State) (lid : Nat) (r : SubRec) : Option Nat :=
  let es := (s.core r.score).srcs
  match es.findIdx? fun e => e.lid = lid && e.off = r.soff && e.len = r.len && !(s.liveSubs e).isEmpty with
  | some i => if ((es[i]?.map s.liveSubs).getD []).length < 8 then some i else none
  | none =>
    if 32 ≤ (es.filter fun e => !(s.liveSubs e).isEmpty).length then none
    else match es.findIdx? fun e => e.subs.isEmpty with
      | some i => some i
      | none => some es.length

/-- The conditions of a bind beside its source entry (R343). -/
def State.subsOk (s : State) (core lid n : Nat) (sync : Bool) (r : SubRec) : Bool :=
  let c := s.core core
  r.score ≠ core && (s.phys r.score).isSome && ((s.core r.score).space? lid).isSome
    && !(c.lands.any fun l => l.n ≠ n && l.lid = lid && (l.b.meets r.land r.len || l.bound.meets r.land r.len))
    && match (c.land? n).map LandEnt.st with
      | none => true
      | some st => sync && st = .lapsed

/-- The subscriber joins its source entry: point S (R344). The landing entry is LIVE with `SUBS`, or HELD where its instance
has been discarded meanwhile (R103); with `SUBS.SYNC` it stays FREE or
LAPSED until the copy has been applied (R346). -/
def State.bindSub (s : State) (core : Nat) (c : Cmd) (sync : Bool) (n ent : Nat) (r : SubRec) : State :=
  let lid := c.lid
  let s := (s.lastUpdates (core, n)).dropSub (core, n)
  let b : Binding := ⟨s.nextId, r.land, r.len, r.score, r.soff⟩
  let new : LandEnt := ⟨n, lid, .binding, c.place, c.gid, s.nextId, b, none⟩
  let new := if sync then new else { new with st := if s.landHeld new then .held else .live }
  let s := { s with nextId := s.nextId + 1 }
  let s := s.updCore r.score fun c =>
    let old := c.srcs.getD ent SrcEnt.empty
    let e : SrcEnt := if old.subs.isEmpty then ⟨lid, r.soff, r.len, r.batch, [(core, n)], []⟩
      else { old with subs := old.subs ++ [(core, n)] }
    { c with srcs := if ent < c.srcs.length then c.srcs.set ent e else c.srcs ++ [e] }
  match (s.core core).land? n with
  | some _ => s.updLand core n fun l => { l with place := new.place, gid := new.gid, sync := some b }
  | none => s.updCore core fun c => { c with lands := c.lands ++ [new] }

/-- The bytes of a region of a launch space with the P and POISON of their sectors; none while a block of it is
saved (R105). -/
def State.regionBytes (s : State) (core lid off len : Nat) : Option (List (Byte × Bool × Bool)) :=
  match (s.core core).space? lid with
  | none => none
  | some p =>
    (List.range len).foldr (fun i acc => match acc, kfind p.blocks ((off + i) / 2 ^ 16) with
      | some bs, some (.phys b) =>
        let key := aKey core b ((off + i) % 2 ^ 16)
        let band := s.mem.band (key / 32)
        some ((s.mem.byte key, band.p, band.poison) :: bs)
      | some bs, none => some ((0#8, false, false) :: bs)
      | _, _ => none) (some [])

/-- The code words of a region of a launch space are classified before it is read (R171). -/
def State.regionReads (s : State) (core lid off len : Nat) : State :=
  if s.dev.upsets.isEmpty then s else (List.range (len / 64)).foldl (fun s i => s.lineRead core lid (off / 64 + i)) s

/-- A bind request at the source (R343, R344). -/
def State.subsStart (s : State) (core : Nat) (c : Cmd) (sync : Bool) (n desc : Nat) : State :=
  let wordOk := fun (cw : Nat) => cw % 4 = 0 && cw + 4 ≤ 2 ^ 23
  match s.engRead (c.who core) .A desc 32 with
  | (s, .ok bs p) =>
    let cw := recW bs 16
    if !wordOk cw then s.cmdWordless core c 0x13
    else
      let s := s.updCmd core c.id fun c => { c with word := some (.A, cw), p := c.p || p }
      match SubRec.parse bs with
      | none => s.cmdEnds core c.id 0x13 0
      | some r =>
        if !s.subsOk core c.lid n sync r then s.cmdEnds core c.id 0x13 0
        else match s.entryFor c.lid r with
          | none => s.cmdEnds core c.id 0x13 0
          | some ent =>
            if !sync then (s.bindSub core c sync n ent r).cmdEnds core c.id 1 0
            else
              let s := s.regionReads r.score c.lid r.soff r.len
              match s.regionBytes r.score c.lid r.soff r.len with
              | none => s
              | some image =>
                let s := s.bindSub core c sync n ent r
                let bytes := (image.zip (List.range r.len)).map fun e => (r.land + e.2, e.1.1, e.1.2.1, e.1.2.2)
                let u : Upd := ⟨s.nextId, r.score, ent, n, c.lid, s.nextId - 1, bytes⟩
                let s := { s.updCore core fun k => { k with upds := k.upds ++ [u] } with nextId := s.nextId + 1 }
                s.cmdWaits core c [u.id] (r.len / 32)
  | (s, .code n) => match s.recordWord (c.who core) n (desc + 16) 4 with
    | some cw =>
      if wordOk cw then (s.updCmd core c.id fun c => { c with word := some (.A, cw) }).cmdEnds core c.id n 0
      else s.cmdWordless core c n
    | none => s.cmdWordless core c n
  | (s, r) => s.cmdFails core c r 0

/-- The source entry of a landing entry. -/
def State.srcOf (s : State) (core : Nat) (l : LandEnt) : Option Nat :=
  (s.core l.b.score).srcs.findIdx? fun e => e.subs.contains (core, l.n)

/-- `SOURCE_ENTRY_REQUEST` (R344, R347, R348): a bind, removal or flush reaches its source core. -/
def State.sourceRequest (s : State) (core : Nat) (c : Cmd) : State :=
  match c.kind with
  | .subs sync n desc => s.cmdRead core c.id fun s => s.subsStart core c sync n desc
  | .subx n => if c.word.any fun a => 2 ^ 23 < a.2 + 4 then s.cmdWordless core c 0x13 else match (s.core core).land? n with
    | none => s.cmdEnds core c.id 0x13 0
    | some l =>
      if l.st = .binding then s.cmdEnds core c.id 0x13 0
      else if l.st = .lapsed then ((s.lastUpdates (core, n)).freeLand core n).cmdEnds core c.id 1 0
      else match s.srcOf core l with
        | none => s.cmdWaits core c (s.updsTo core n) 0
        | some ent =>
          let s := (s.flushEntry l.b.score ent).dropSub (core, n)
          s.cmdWaits core c (s.updsTo core n) 0
  | .subf n => match (s.core core).land? n with
    | none => s.cmdEnds core c.id 0x13 0
    | some l =>
      if l.st = .binding then s.cmdEnds core c.id 0x13 0
      else if l.st = .lapsed then s.cmdEnds core c.id 0x14 0
      else
        let s := match s.srcOf core l with
          | none => s
          | some ent => s.flushEntry l.b.score ent
        s.cmdWaits core c (s.updsTo core n) 0
  | .subfSrc =>
    let s := s.flushLaunch core c.lid
    s.cmdWaits core c (s.updsFrom core c.lid) 0
  | _ => s

/-- `SOURCE_ENTRY_REQUEST` (R344). -/
def execSourceEntryRequest (core idx : Nat) (s : State) : Out :=
  match (s.core core).cmds[idx]? with
  | none => .next s.tick
  | some c => .next (if c.stage ≠ 0 || s.engHeld core c.ctx c.path c.id then s else s.sourceRequest core c).tick

/-- `BATCH_WINDOW_EXPIRY` (R345). -/
def execBatchWindowExpiry (core entry line : Nat) (s : State) : Out :=
  match (s.core core).srcs[entry]? with
  | none => .next s.tick
  | some e => match kfind e.open_ line with
    | none => .next s.tick
    | some runs =>
      let s := s.updCore core fun c => { c with srcs := c.srcs.set entry { e with open_ := kdel e.open_ line } }
      .next (s.forwardLine core e.lid entry line runs fun _ => true).tick

/-- The forwarding agent of a pair, at its source core (R177). -/
def fwdAgent (u : Upd) (core : Nat) : Agent := ⟨.C, u.src, 2 ^ 20 + u.src, 2 ^ 16 * u.entry + 32 * core + u.n⟩

/-- The bytes of an update as runs that lie in one sector: offset, bytes, P and POISON. -/
def updRuns : List (Nat × Byte × Bool × Bool) → List (Nat × List Byte × Bool × Bool)
  | [] => []
  | (o, b, p, q) :: bs => match updRuns bs with
    | (o', bs', p', q') :: rs =>
      if o' = o + 1 && o / 32 = o' / 32 then (o, b :: bs', p || p', q || q') :: rs else (o, [b], p, q) :: (o', bs', p', q') :: rs
    | [] => [(o, [b], p, q)]

/-- A copy that is refused leaves its entry FREE or LAPSED, as it was (R346). -/
def State.unsync (s : State) (core n bid : Nat) : State :=
  match (s.core core).land? n with
  | none => s
  | some l => if l.st = .binding && l.b.bid = bid then s.freeLand core n
    else s.updLand core n fun l => if (l.sync.map Binding.bid) = some bid then { l with sync := none } else l

/-- An update is refused: it counts toward the source's next `SUBF.SRC` (R361), and a first copy ends its command. -/
def State.updRefused (s : State) (core : Nat) (u : Upd) (conflict : Bool) : State :=
  let s := s.updCore u.src fun c =>
    let r := c.refd u.lid
    c.setRefd (if conflict then { r with conflict := r.conflict + 1 } else { r with refused := r.refused + 1 })
  match (s.core core).cmds.find? fun c => c.waits = [u.id] && match c.kind with
      | .subs true n _ => n = u.n
      | _ => false with
  | none => s.updsOver [u.id]
  | some c =>
    let s := s.unsync core u.n u.bid
    (s.cmdEnds core c.id (if conflict then 4 else 0x14) 0).updsOver [u.id]

/-- The keys of an update's runs; none while a run waits for a block. -/
def State.updKeys (s : State) (core lid : Nat) : List (Nat × List Byte × Bool × Bool) → State × Option (List Nat)
  | [] => (s, some [])
  | r :: rs => match s.aMap core lid r.1 with
    | (s, none) => (s, none)
    | (s, some k) => match s.updKeys core lid rs with
      | (s, some ks) => (s, some (k :: ks))
      | (s, none) => (s, none)

/-- An update lands as one interval (R194): it is refused as a whole where it meets an open interval (R182), and its
writes are not forwarded again. With an uncorrectable flit its sectors are poisoned (R49). -/
def State.updApply (s : State) (core : Nat) (u : Upd) (flit : Bool) : State :=
  let runs := updRuns u.bytes
  match s.updKeys core u.lid runs with
  | (s, none) => s
  | (s, some keys) =>
    let es := runs.zip keys
    if es.any fun e => s.conflicts (fwdAgent u core) e.2 e.1.2.1.length true then s.updRefused core u true
    else
      let w : Who := ⟨fwdAgent u core, core, u.lid, 0⟩
      let s := es.foldl (fun s e =>
        s.put w (Acc.write .A e.1.1 e.1.2.1.length false) e.2 e.1.2.1 e.1.2.2.1 (e.1.2.2.2 || flit) false) s
      s.updsOver [u.id]

/-- The entry is open to an update: it was sent to the binding that the entry has, which has not lapsed, or to that of the
`SUBS.SYNC` whose copy is on its way (R62, R346). -/
def LandEnt.takes (l : LandEnt) (u : Upd) : Bool :=
  l.lid = u.lid && ((l.st ≠ .lapsed && l.b.bid = u.bid) || (l.sync.map Binding.bid) = some u.bid)

/-- `UPDATE_ARRIVAL` (R194): updates from one source core to one landing entry arrive in their order, those to a binding that it had
before among them, which it refuses (R47, R345, R361). -/
def execUpdateArrival (core : Nat) (x : Arrival) (s : State) : Out :=
  let us := (s.core core).upds
  match us[x.idx]? with
  | none => .next s.tick
  | some u =>
    if (us.take x.idx).any fun y => y.src = u.src && y.n = u.n then .next s.tick
    else match (s.core core).land? u.n with
      | none => .next (s.updRefused core u false).tick
      | some l => if l.takes u then .next (s.updApply core u x.flit).tick else .next (s.updRefused core u false).tick

/-! ### Collectives -/

/-- A collective's descriptor (R339). -/
structure CDesc where
  kind  : Nat
  op    : Nat
  mode  : Nat
  wire  : Nat
  dfmt  : Nat
  ssp   : Spc
  dsp   : Spc
  e     : Int
  rank  : Nat
  count : Nat
  key   : Nat
  nelem : Nat
  bound : Nat
  saddr : Nat
  daddr : Nat
  plist : Nat
deriving DecidableEq, Repr

/-- The descriptor's fields, or none where it is malformed (R61, R339). -/
def CDesc.parse (bs : List Byte) : Option CDesc :=
  let w := recW bs 0
  let kind := w / 2 ^ 26 % 4
  let red := kind < 2
  let op := if red then w / 2 ^ 24 % 4 else 0
  let mode := if red then w / 2 ^ 22 % 4 else 0
  let spc := fun (b : Nat) => if w / 2 ^ b % 2 = 0 then Spc.global else Spc.A
  let d : CDesc := ⟨kind, op, mode, w / 2 ^ 18 % 16, w / 2 ^ 14 % 16, spc 13, spc 12, signOf 16 (recW bs 4 / 2 ^ 16),
    recW bs 8 / 2 ^ 16, recW bs 8 % 2 ^ 16, recW bs 12, recW bs 0x10, recW bs 0x14, recD bs 0x18, recD bs 0x20,
    recW bs 0x28⟩
  let ok := w / 2 ^ 28 = 1 && op ≠ 3 && mode ≠ 3 && d.wire ≤ 4 && [6, 7, 8, 10, 11].contains d.dfmt && w % 2 ^ 12 = 0
    && recW bs 4 % 2 ^ 16 = 0 && d.count ≤ 34560 && (d.count = 0 || d.rank < d.count) && 1 ≤ d.nelem && d.nelem ≤ 2 ^ 24
    && (d.wire < 2 || d.nelem % 32 = 0) && d.saddr % 4 = 0 && d.daddr % (fmtBits d.dfmt / 8) = 0 && d.plist % 4 = 0
    && recW bs 0x2C = 0 && recW bs 0x3C = 0
  if ok then some d else none

/-- What all ranks must agree on, beside the participant table (R341). -/
def CDesc.header (d : CDesc) : List Int := [d.kind, d.op, d.mode, d.wire, d.dfmt, d.e, d.count, d.nelem, d.key]

/-- Elements that a rank reads, and that it writes (R340). -/
def CDesc.srcElems (d : CDesc) : Nat :=
  if d.kind = 1 then d.count * d.nelem else if d.kind = 3 && d.rank ≠ 0 then 0 else d.nelem
def CDesc.dstElems (d : CDesc) : Nat := if d.kind = 2 then d.count * d.nelem else d.nelem
def CDesc.dstBytes (d : CDesc) : Nat := d.dstElems * (fmtBits d.dfmt / 8)

/-- A participant's name, with this device under its own number. -/
def State.peer (s : State) (w : Nat) : Nat := if w / 256 = 255 then 256 * s.dev.pod + w % 256 else w

/-- m · 2^-k to the nearest integer, a tie to even. -/
def rneShift (m k : Nat) : Nat :=
  let n := m / 2 ^ k
  if roundUp 0 0 false n (m % 2 ^ k) k then n + 1 else n

/-- R58: the fixed-point element of an FP32 value, and whether it saturated. -/
def exactElem (e : Int) (p : Bool) (n : Nat) : CVal × Bool :=
  match fp32.value n with
  | .fin neg m x =>
    let k := if e ≤ x then m * 2 ^ (x - e).toNat else rneShift m (e - x).toNat
    let top := 2 ^ 47 - 1
    let k' := min k top
    (⟨if neg then -(k' : Int) else k', false, p⟩, top < k)
  | _ => (⟨0, true, p⟩, false)

/-- R55, R56: 32 FP32 elements through a block format, widened again; the counts of R342. -/
def wireBlock (f : Nat) (es : List (Nat × Bool)) : List (Nat × Bool) × Nat × Nat :=
  let b := mxEncode f 0 (es.map fun _ => 0) (es.map Prod.fst)
  ((b.codes.zip es).map fun c => (fp32.ne (mxValue f b.x c.1), c.2.2), if b.isNan then 1 else 0, if b.isUf then 1 else 0)

/-- Elements in blocks of 32. -/
def wireBlocks (f : Nat) : List (Nat × Bool) → Nat → List (Nat × Bool) × Nat × Nat
  | es, 0 => (es, 0, 0)
  | es, fuel + 1 =>
    if es.isEmpty then ([], 0, 0)
    else
      let (a, n, u) := wireBlock f (es.take 32)
      let (b, n', u') := wireBlocks f (es.drop 32) fuel
      (a ++ b, n + n', u + u')

/-- A contribution as it travels: through the wire format, and in exact mode as integers (R55 to R58). -/
def CDesc.wireOf (d : CDesc) (es : List (Nat × Bool)) : List CVal × Nat × Nat × Nat :=
  let narrow := fun (e : Nat × Bool) => (fp32.ne (bf16.value (bf16.ne (fp32.value e.1))), e.2)
  let (ws, nan, uf) : List (Nat × Bool) × Nat × Nat := match d.wire with
    | 0 => (es, 0, 0)
    | 1 => (es.map narrow, 0, 0)
    | n => wireBlocks ([0xA, 0xC, 0xE].getD (n - 2) 0xA) es es.length
  if d.mode = 2 && d.op = 0 && d.kind < 2 then
    let xs := ws.map fun e => exactElem d.e e.2 e.1
    (xs.map Prod.fst, (xs.filter Prod.snd).length, nan, uf)
  else (ws.map (fun e => ⟨(e.1 : Int), false, e.2⟩), 0, nan, uf)

/-- One combination of two elements (R57, R58). -/
def CDesc.join (d : CDesc) (a b : CVal) : CVal :=
  let p := a.p || b.p
  let x := a.v.toNat
  let y := b.v.toNat
  match d.op with
  | 0 => if d.mode = 2 then ⟨a.v + b.v, a.bad || b.bad, p⟩
    else ⟨(fp32.ne (fvAdd 0 (fp32.value x) (fp32.value y)).1 : Nat), false, p⟩
  | 1 => ⟨(fmaxBits fp32 x y : Nat), false, p⟩
  | _ => ⟨(fminBits fp32 x y : Nat), false, p⟩

def CDesc.joins (d : CDesc) (a b : List CVal) : List CVal := (a.zip b).map fun e => d.join e.1 e.2

/-- One round of the canonical tree: part(r) takes in part(r + step) (R57). -/
def CDesc.treeRound (d : CDesc) (step : Nat) (ps : List (List CVal)) : List (List CVal) :=
  (List.range ps.length).map fun r =>
    if r % (2 * step) = 0 then match ps[r]?, ps[r + step]? with
      | some a, some b => d.joins a b
      | some a, none => a
      | none, _ => []
    else ps.getD r []

/-- The canonical tree over the ranks' elements. -/
def CDesc.tree (d : CDesc) (ps : List (List CVal)) : Nat → Nat → List CVal
  | 0, _ => ps.headD []
  | fuel + 1, step => if ps.length ≤ step then ps.headD [] else d.tree (d.treeRound step ps) fuel (2 * step)

/-- The result's element in the destination format (R57, R58, R340). -/
def CDesc.out (d : CDesc) (c : CVal) : Nat :=
  if d.mode = 2 && d.op = 0 && d.kind < 2 then
    if c.bad then (fmtOf d.dfmt 0 0 false .nan).bits else (fmtOf d.dfmt 0 0 false (.fin (c.v < 0) c.v.natAbs d.e)).bits
  else if d.dfmt = 8 then c.v.toNat
  else (fmtOf d.dfmt 0 0 false (fp32.value c.v.toNat)).bits

/-- The destination's writes: P is that of the elements in a sector, of the conversion and of the wire (R59, R331). -/
def CDesc.writes (d : CDesc) (cs : List CVal) (p : Bool) : List CWrite :=
  let n := fmtBits d.dfmt / 8
  let bs := cs.flatMap fun c => (leBytes n (d.out c)).map fun b => (b, c.p)
  sectorWrites d.dsp d.daddr bs (p || narrowFmt d.dfmt)

/-- STAT (R342). -/
def statWord (sat nan uf : Nat) : Nat := min sat 0xFFFF * 2 ^ 16 + min nan 255 * 2 ^ 8 + min uf 255

/-- The write of STAT in the descriptor (R341). -/
def statWrite (desc v : Nat) (p : Bool) : CWrite := ⟨.A, desc + 0x38, leBytes 4 v, p, false, false⟩

/-- The words of a byte list. -/
def bytesWords (bs : List Byte) : Nat → List Nat
  | 0 => []
  | n + 1 => recW bs 0 :: bytesWords (bs.drop 4) n

/-- FP32 elements with the P of their sectors. -/
def elemsOf : List (Byte × Bool) → Nat → List (Nat × Bool)
  | _, 0 => []
  | bs, n + 1 => (leNat ((bs.take 4).map Prod.fst), (bs.take 4).any Prod.snd) :: elemsOf (bs.drop 4) n

def Coll.rank? (c : Coll) (r : Nat) : Option Member := c.members.find? fun m => m.rank = r

def State.updColl (s : State) (id : Nat) (f : Coll → Coll) : State :=
  { s with colls := s.colls.map fun c => if c.id = id then f c else c }

/-- R341: a member whose header disagrees with rank 0's is refused. -/
def State.checkColl (s : State) (id : Nat) : State :=
  match s.colls.find? fun c => c.id = id with
  | none => s
  | some c => match c.rank? 0 with
    | none => s
    | some z =>
      let bad := c.members.filter fun m => m.hdr ≠ z.hdr || m.table ≠ z.table
      let s := s.updColl id fun c => { c with
        members := c.members.filter (fun m => m.hdr = z.hdr && m.table = z.table)
        parts := c.parts.filter fun p => !(bad.any fun m => p.ranks.contains m.rank) }
      bad.foldl (fun s m => match m.cmd with
        | some id => s.cmdEnds m.core id 0x13 0
        | none => s) s

/-- The landing entries that a destination in A lies in (R62). -/
def State.landsAt (s : State) (core lid : Nat) (d : CDesc) : List Nat :=
  if d.dsp ≠ .A then []
  else ((s.core core).lands.filter fun l => l.lid = lid && l.b.meets d.daddr d.dstBytes).map LandEnt.eid

/-- The collective that a participant joins. DESIGN CHOICE (log entry 83): where several of one KEY stand, as after a SHORT and its
issue again, it is the newest in which its rank has no part yet; no rule says which. -/
def State.collFor (s : State) (ctx : Nat) (d : CDesc) : Option Nat :=
  ((s.colls.filter fun x => x.ctx = ctx && x.key = d.key && (x.rank? d.rank).isNone).getLast?).map Coll.id

/-- A participant's contribution joins its collective (R341). -/
def State.joinColl (s : State) (core : Nat) (c : Cmd) (d : CDesc) (table : List Nat) (es : List (Nat × Bool)) : State :=
  let (vals, sat, nan, uf) := d.wireOf es
  let m : Member := ⟨d.rank, d.header, table, core, some c.id, sat, nan, uf, vals,
    s.now + (if d.bound = 0 then 2 ^ 32 - 1 else d.bound), false, false, d.dsp, d.daddr, d.dstBytes⟩
  let part : Part1 := ⟨[d.rank], vals⟩
  let s := s.updCmd core c.id fun c => { c with stage := 1 }
  match s.collFor c.ctx d with
  | some id => (s.updColl id fun x => { x with members := x.members ++ [m], parts := x.parts ++ [part] }).checkColl id
  | none => { s with colls := s.colls ++ [⟨s.nextId, c.ctx, d.key, [m], [part], 0⟩], nextId := s.nextId + 1 }

/-- The source of a participant is read and it joins; with a count of 1 it is delivered at once (R60, R340). -/
def State.collSource (s : State) (core : Nat) (c : Cmd) (desc : Nat) (d : CDesc) (table : List Nat) (p : Bool) : State :=
  let n := d.srcElems
  let s := s.updCmd core c.id fun x => { x with lands := s.landsAt core c.lid d }
  if spcSize d.ssp < d.saddr + 4 * n || spcSize d.dsp < d.daddr + d.dstBytes then
    s.cmdEnds core c.id 0x13 0
  else match s.engBytes (c.who core) false d.ssp (chunks d.saddr (4 * n)) with
    | (s, .error r) => s.cmdFails core c r 0
    | (s, .ok bs) =>
      let es := elemsOf bs n
      let s := s.updCmd core c.id fun c => { c with p := p }
      if d.count = 1 then
        let cs := es.map fun e => CVal.mk (e.1 : Int) false e.2
        let ws := CDesc.writes { d with mode := 0 } cs p
        s.updCmd core c.id fun c => { c with
          stage := 2, writes := ws, after := [statWrite desc 0 p] }
      else s.joinColl core c d table es

/-- A `COLL` starts: its descriptor and table are read and checked (R339, R397). -/
def State.collStart (s : State) (core : Nat) (c : Cmd) (desc : Nat) : State :=
  match s.engRead (c.who core) .A desc 64 with
  | (s, .ok bs p) =>
    let cw := recD bs 0x30
    if cw % 4 ≠ 0 then s.cmdWordless core c 0x13
    else
      let p := c.p || p
      let s := s.updCmd core c.id fun c => { c with word := some (.global, cw), p := p }
      match CDesc.parse bs with
      | none => s.cmdEnds core c.id 0x13 0
      | some d =>
        if d.count = 0 then
          s.updCmd core c.id fun c => { c with stage := 4, after := [statWrite desc 0 p] }
        else match s.engRead (c.who core) .A d.plist (4 * d.count) with
          | (s, .ok tb tp) =>
            let table := bytesWords tb d.count
            let running := s.cores.any fun k => k.2.cmds.any fun x =>
              x.ctx = c.ctx && x.id ≠ c.id && x.key = some (d.key, d.rank)
            if (table.any fun w => 2 ^ 16 ≤ w) || s.peer (table.getD d.rank 0) ≠ 256 * s.dev.pod + core || running then
              s.cmdEnds core c.id 0x13 0
            else
              let s := s.updCmd core c.id fun c => { c with key := some (d.key, d.rank) }
              s.collSource core c desc d (table.map s.peer) (p || tp)
          | (s, r) => s.cmdFails core c r 0
  | (s, .code n) => match s.recordWord (c.who core) n (desc + 0x30) 8 with
    | some cw =>
      if cw % 4 = 0 then (s.updCmd core c.id fun c => { c with word := some (.global, cw) }).cmdEnds core c.id n 0
      else s.cmdWordless core c n
    | none => s.cmdWordless core c n
  | (s, r) => s.cmdFails core c r 0

/-- The descriptor as a member's header and destination give it. -/
def Member.desc (m : Member) : CDesc :=
  let h := fun (i : Nat) => (m.hdr.getD i 0).toNat
  ⟨h 0, h 1, h 2, h 3, h 4, .A, m.dsp, m.hdr.getD 5 0, m.rank, h 6, h 8, h 7, 0, 0, m.daddr, 0⟩

/-- The participant of a rank that another device holds arrives, over a link that is trained (R31): its elements are free values
(log entry 21). DESIGN CHOICE (log entry 65): a contribution is addressed to the core of the collective's first participant here, at A offset 0, and
the far rank's own destination, which decides the link of its delivery, is taken from that participant's descriptor. -/
def State.remoteMember (s : State) (c : Coll) (rank : Nat) : State :=
  match c.members.head? with
  | none => s
  | some m =>
    let n := CDesc.srcElems { m.desc with rank := rank }
    let far := (m.table.getD rank (256 * s.dev.pod)) / 256 ≠ s.dev.pod && rank < m.table.length
    let link := s.coreLink (256 * s.dev.pod + m.core) 0
    if !far || (c.rank? rank).isSome || (link.map s.link) ≠ some .trained then s
    else
      let es := (List.range n).map fun i =>
        ((Config.remoteWord (2 ^ 160 * (s.free + 1) + i)).toNat, Config.remoteP (2 ^ 160 * (s.free + 1) + i))
      let vals := (CDesc.wireOf { m.desc with wire := 0 } es).1
      let count := fun (i : Nat) => if m.desc.wire < 2 then 0
        else (Config.remoteWord (2 ^ 270 * (s.free + 1) + i)).toNat % (n / 32 + 1)
      s.updColl c.id fun c => { c with
        members := c.members ++ [{ m with
          rank := rank, cmd := none, core := 240, sat := 0, nan := count 0, uf := count 1, src := vals, got := false, ended := false }]
        parts := c.parts ++ [⟨[rank], vals⟩] }

/-- Two partials of a fast sum are joined (R57). -/
def Coll.merge (c : Coll) (a b : Nat) : Coll :=
  match c.members.head?, c.parts.find? (fun p => p.ranks.contains a), c.parts.find? (fun p => p.ranks.contains b) with
  | some m, some x, some y =>
    if x = y then c
    else { c with parts := c.parts.filter (fun p => p ≠ x && p ≠ y)
      ++ [⟨x.ranks ++ y.ranks, m.desc.joins x.vals y.vals⟩] }
  | _, _, _ => c

/-- `CONTRIBUTION_ARRIVAL` (R56, R57): the contribution of a rank on another device arrives, or the partials that hold
two ranks are joined. -/
def execContributionArrival (coll rank other : Nat) (s : State) : Out :=
  match s.colls[coll]? with
  | none => .next s.tick
  | some c =>
    if rank = other then .next (s.remoteMember c rank).tick
    else .next { s.tick with colls := s.colls.set coll (c.merge rank other) }

/-- `COLLECTIVE_BOUND_EXPIRY` (R60): once its bound has passed, in steps (log entry 1), the command completes SHORT with the
number of contributions that arrived. -/
def execCollectiveBoundExpiry (coll rank : Nat) (s : State) : Out :=
  match s.colls[coll]? with
  | none => .next s.tick
  | some c => match c.rank? rank with
    | none => .next s.tick
    | some m => match m.cmd with
      | none => .next s.tick
      | some id =>
        let full := c.members.length = m.table.length
        if m.got || full || s.now < m.until_ then .next s.tick
        else
          let word := statWord m.sat m.nan m.uf
          let desc := ((s.core m.core).cmds.find? fun x => x.id = id).map fun x => match x.kind with
            | .coll a => a
            | _ => 0
          .next ((s.updCmd m.core id fun x => { x with
            stage := 4, code := 3, count := c.members.length
            after := [statWrite (desc.getD 0) word x.p] }).collGot m.core id).tick

/-- The elements that a rank receives once every contribution is there (R340). -/
def Coll.result (c : Coll) (d : CDesc) : List CVal :=
  let ranks := (List.range d.count).map fun r => ((c.rank? r).map Member.src).getD []
  let block := fun (vs : List CVal) => if d.kind = 1 then (vs.drop (d.rank * d.nelem)).take d.nelem else vs
  match d.kind with
  | 2 => ranks.flatten
  | 3 => ranks.headD []
  | _ =>
    if d.mode = 0 && d.op = 0 then block (((c.parts.head?).map Part1.vals).getD [])
    else d.tree (ranks.map block) 32 1

/-- Every partial of a fast sum is joined (R57). -/
def Coll.settle (c : Coll) : Coll :=
  match c.parts with
  | p :: ps => ps.foldl (fun c q => c.merge (p.ranks.headD 0) (q.ranks.headD 0)) c
  | [] => c

/-- The encodings of a rank's contribution, and of what is delivered to it: all-gather and broadcast carry the blocks of the other
ranks through the wire format (R340, R342). -/
def Coll.stat (c : Coll) (m : Member) : Nat :=
  let ms := match m.desc.kind with
    | 2 => c.members
    | 3 => if m.rank = 0 then [m] else (c.rank? 0).toList
    | _ => [m]
  statWord m.sat (ms.map Member.nan).sum (ms.map Member.uf).sum

/-- The delivery of a rank begins: the result of its collective, in sectors that are poisoned by an uncorrectable flit (R49),
and STAT. -/
def State.collDeliver (s : State) (c : Coll) (m : Member) (x : Cmd) (desc : Nat) (flit : Bool) : State :=
  let ws := (m.desc.writes (c.result m.desc) (x.p || (2 ≤ m.desc.wire))).map fun w => { w with poison := flit }
  s.updCmd m.core x.id fun x => { x with
    stage := 2, writes := ws, after := [statWrite desc (c.stat m) x.p] }

/-- The destination of a rank on another device is written, or refused by its landing region: a free value (log entry 21). -/
def Coll.farGot (c : Coll) (rank : Nat) (refused : Bool) : Coll :=
  let got := fun (m : Member) => if m.rank = rank then { m with got := true } else m
  { c with members := c.members.map got, refused := c.refused + if refused then 1 else 0 }

/-- The delivery to a rank on another device leaves over the link of its target (R44, R45), unless that link holds its traffic.
Without a link it cannot be made, and counts as refused (log entry 65). -/
def State.farDeliver (s : State) (coll : Nat) (c : Coll) (m : Member) : State :=
  let peer := m.table.getD m.rank 0
  let link := if m.dsp = .A then s.coreLink peer m.daddr else s.linkOf m.daddr
  match link with
  | none => { s with colls := s.colls.set coll (c.farGot m.rank true) }
  | some n =>
    if s.link n ≠ .trained then s
    else
      let ws := m.desc.writes (c.result m.desc) (2 ≤ m.desc.wire)
      let s := ws.foldl (fun s w => s.emit ⟨link, c.ctx, w.addr, w.data, w.p, none, if m.dsp = .A then some peer else none⟩) s
      { s with colls := s.colls.set coll (c.farGot m.rank (Config.remoteP (2 ^ 240 * (s.free + 1)))) }

/-- `COLLECTIVE_DELIVERY` (R341): the destination and STAT are to be written, then the completion word and D. -/
def execCollectiveDelivery (coll : Nat) (x : Arrival) (s : State) : Out :=
  match s.colls[coll]? with
  | none => .next s.tick
  | some c => match c.rank? x.idx with
    | none => .next s.tick
    | some m =>
      if m.got || c.members.length ≠ m.table.length then .next s.tick
      else
        let c := if m.desc.mode = 0 && m.desc.op = 0 && m.desc.kind < 2 then c.settle else c
        let s := { s with colls := s.colls.set coll c }
        match m.cmd with
        | none => .next (s.farDeliver coll c m).tick
        | some id => match s.cmd? m.core id with
          | none => .next s.tick
          | some y => match y.kind with
            | .coll desc => .next (if y.stage ≠ 1 || s.cmdHeld m.core y.ctx y.path y.id then s
                else s.collDeliver c m y desc x.flit).tick
            | _ => .next s.tick

/-- A delivery reaches a landing region that is LAPSED, or that its owner has freed (R62). -/
def State.collBarred (s : State) (core : Nat) (c : Cmd) : Bool :=
  let k := s.core core
  ((c.writes.drop c.count).any fun w => w.spc = .A && k.lapsed c.lid w.addr w.data.length)
    || c.lands.any fun e => !k.lands.any fun l => l.eid = e

/-- A delivery is refused: nothing more of it is written, and it counts toward its senders (R62). A collective of one rank
is its own sender. -/
def State.collRefuse (s : State) (core : Nat) (c : Cmd) : State :=
  match s.collOf core c.id with
  | none => s.cmdEnds core c.id 2 1
  | some (x, _) =>
    let s := (s.updColl x.id fun x => { x with refused := x.refused + 1 }).collGot core c.id
    s.updCmd core c.id fun c => { c with stage := 6, after := [] }

/-- R60, R62: once every destination is written or refused, the command is DONE; refused deliveries make it PARTIAL at a rank
that sends, and a rank that only receives sees its own landing region LAPSED. -/
def State.collSettled (s : State) (core : Nat) (c : Cmd) : State :=
  match s.collOf core c.id with
  | none => s.updCmd core c.id fun c => { c with stage := 4 }
  | some (x, m) =>
    if !x.members.all Member.got then s
    else
      let sends := m.desc.kind ≠ 3 || m.rank = 0
      s.updCmd core c.id fun c => { c with
        stage := 4
        code := if x.refused = 0 then 1 else if sends then 2 else if c.after.isEmpty then 0x14 else 1
        count := if x.refused = 0 then c.count else if sends then x.refused else if c.after.isEmpty then 0 else c.count }

/-! ### Active messages -/

/-- The context whose bound partition holds a core. -/
def State.coreCtx (s : State) (core : Nat) : Option Nat :=
  match s.phys core with
  | none => none
  | some p => (List.range 16).find? fun n =>
      let x := s.parts.getD n Part.reset
      x.bound && x.quadmask / 2 ^ (p / 4) % 2 = 1

/-- R51: the inbound queue has room for a class; a core under scan withholds it. -/
def Core.roomFor (c : Core) (reply : Bool) : Bool :=
  !c.scan && c.inq.length < 64 && (reply || (c.inq.filter fun m => !m.reply).length < 56)

/-- R47, R53: an earlier message of the core to the same destination and line has not left yet. -/
def State.amsgBehind (s : State) (core : Nat) (c : Cmd) (m : Msg) (dst : Nat) : Bool :=
  ((s.core core).cmds.takeWhile fun x => x.id ≠ c.id).any fun x => match x.kind with
    | .amsg m' d' => x.stage = 0 && s.peer d' = s.peer dst && s.lineOf m'.entry = s.lineOf m.entry && m'.reply = m.reply
    | _ => false

/-- An active message to another device leaves over the link of its handler's line, with its core and registers. Which of the
three outcomes of R50 it meets there, delivered, vacant, or a core of another context, is a free value (log entry 21). -/
def State.amsgFar (s : State) (core : Nat) (c : Cmd) (m : Msg) (k : Nat) : State :=
  match s.reachRemote (c.who core) (Acc.write .global m.entry 0 false) with
  | (s, .viol n) => s.freezeStream core c.ctx n m.entry
  | (s, .lost) => s.cmdEnds core c.id 0x13 0
  | (s, .outside _) =>
    let s := s.emit ⟨s.linkOf m.entry, c.ctx, m.entry, m.regs.flatMap fun r => leBytes 4 r.v.toNat, m.regs.any Reg.p,
      some (k, m), none⟩
    if Config.remoteP s.free then s.cmdEnds core c.id 1 0
    else if Config.remoteP (2 ^ 250 * (s.free + 1)) then s.cmdEnds core c.id 0x13 0
    else s.freezeStream core c.ctx 0x0A m.entry
  | (s, _) => s

/-- An active message reaches its destination (R50 to R53). A core that no bound partition holds is taken for one of another
context (log entry 51). -/
def State.amsgSend (s : State) (core : Nat) (c : Cmd) (m : Msg) (dst : Nat) : State :=
  let dev := dst / 256
  let k := dst % 256
  if s.amsgBehind core c m dst then s
  else if 144 ≤ dev && dev ≠ 255 then s.freezeStream core c.ctx 0x0A m.entry
  else if dev ≠ 255 && dev ≠ s.dev.pod then s.amsgFar core c m k
  else if (s.phys k).isNone then s.cmdEnds core c.id 0x13 0
  else if s.coreCtx k ≠ some c.ctx then s.freezeStream core c.ctx 0x0A m.entry
  else if !(s.core k).roomFor m.reply then s
  else (s.updCore k fun x => { x with inq := x.inq ++ [m] }).cmdEnds core c.id 1 0

/-! ### The event of a command -/

/-- The data writes of a command. -/
def State.cmdData (s : State) (core : Nat) (c : Cmd) : State :=
  match c.kind with
  | .coll _ => if s.collBarred core c then s.collRefuse core c else s.cmdWrites core c c.count (c.writes.drop c.count)
  | _ => s.cmdWrites core c c.count (c.writes.drop c.count)

/-- A drain whose tile still has its check outstanding (R234, R235). -/
def Cmd.unchecked (c : Cmd) : Bool :=
  match c.kind with
  | .mdrn _ => !c.waits.isEmpty
  | _ => false

/-- One stage of a command. -/
def State.cmdStep (s : State) (core : Nat) (c : Cmd) : State :=
  match c.stage with
  | 0 => match c.kind with
    | .bcpy desc flag => s.cmdRead core c.id fun s => s.bcpyStart core c desc flag
    | .coll desc => s.cmdRead core c.id fun s => s.collStart core c desc
    | .amsg m dst => s.amsgSend core c m dst
    | _ => s
  | 1 => s
  | 3 => if c.unchecked then s else s.cmdFinish core c
  | 5 => s.cmdLogged core c
  | 7 => s.cmdOver core c c.code
  | n =>
    if (s.sideRefused (c.who core)).isSome then s.cmdRefused core c
    else if n = 2 then s.cmdData core c
    else if n = 6 then s.collSettled core c
    else if c.unchecked then s else s.cmdAfter core c c.after

/-- `COMPLETION_WORD_WRITE` (R397): the command goes on by one stage, and its last stage writes its completion word
after all its other writes. A frozen stream makes no access (R176), and a `FENCEX` holds later commands (R193). -/
def execCompletionWordWrite (core idx : Nat) (s : State) : Out :=
  match (s.core core).cmds[idx]? with
  | none => .next s.tick
  | some c => .next (if s.cmdHeld core c.ctx c.path c.id then s else s.cmdStep core c).tick

end Sys2Proof.Machine
end

