-- ==== Sys2Proof/Machine/Matrix.lean ====
section
/-! DEFINITION. The matrix engine: latches, tiles, huddle-issued operations, online softmax, `MSTAT` and `CVTB` (R213
to R217, R234, R363 to R376, R382 to R387). The engine performs a command where it issues (R364). -/

namespace Sys2Proof.Machine

open Sys2Proof

/-! ### Reads of the engine (R366) -/

/-- How a read or a check of a matrix command fails: a deferred trap code with its address, or a wait for a block. -/
inductive MFail where
  | fault (code addr : Nat)
  | waits
deriving DecidableEq, Repr

/-- Bytes with the OR of the P and of the POISON of their sectors. -/
structure MBytes where
  bytes  : List Byte
  p      : Bool
  poison : Bool
deriving DecidableEq, Repr

/-- Sectors of a read; poison passes on and does not fault (R370). -/
def State.mreadList (s : State) (w : Who) (spc : Spc) : List (Nat × Nat) → State × Except MFail MBytes
  | [] => (s, .ok ⟨[], false, false⟩)
  | c :: cs => match s.reach w { Acc.read spc c.1 c.2 with kind := 6 } with
    | (s, .ok key _) => match s.mreadList w spc cs with
      | (s, .ok m) =>
        (s, .ok ⟨s.mem.read key c.2 ++ m.bytes, s.mem.anyP key c.2 || m.p, s.mem.anyPoison key c.2 || m.poison⟩)
      | r => r
    | (s, .trap n) => (s, .error (.fault n c.1))
    | (s, .viol _) => (s, .error (.fault 0x09 c.1))
    | (s, _) => (s, .error .waits)

/-- n bytes at an offset; outside the space is `PAGEREFUSED`. -/
def State.mread (s : State) (w : Who) (spc : Spc) (a n : Nat) : State × Except MFail MBytes :=
  if spcSize spc < a + n then (s, .error (.fault 0x09 a)) else s.mreadList w spc (chunks a n)

/-! ### Tensors through a layout record (R382 to R384) -/

/-- A block of 32 codes with its scale, the P of what was read for it, and the POISON of its data and of its record's offsets. -/
structure TBlock where
  x      : Nat
  codes  : List Nat
  p      : Bool
  poison : Bool
  offs   : Bool
deriving DecidableEq, Repr

/-- The zero code of a format. -/
def zeroCode (f : Nat) : Nat := if f = 0xE then 4 else 0

def popcount (m : Nat) : Nat := ((List.range 32).filter fun i => m / 2 ^ i % 2 = 1).length

/-- The codes of a block from its mask and its packed codes (R383). -/
def blockCodes (f mask : Nat) (cs : List Nat) : List Nat :=
  ((List.range 32).foldl (fun (acc : List Nat × List Nat) i =>
    if mask / 2 ^ i % 2 = 1 then (acc.1 ++ [acc.2.headD 0], acc.2.tail) else (acc.1 ++ [zeroCode f], acc.2)) ([], cs)).1

/-- The block at a, with the P and POISON of what led to it, and the address of the next block (R383); nothing is
read outside the tensor's data (R384). -/
def State.blockAt (s : State) (w : Who) (spc : Spc) (l : Layout) (p q : Bool) (a : Nat) :
    State × Except MFail (TBlock × Nat) :=
  if a < l.base || l.base + l.len < a + 5 then (s, .error (.fault 0x09 a))
  else match s.mread w spc a 5 with
    | (s, .error e) => (s, .error e)
    | (s, .ok h) =>
      let mask := leNat (h.bytes.drop 1)
      let k := layoutBytes l.fmt (popcount mask)
      if l.base + l.len < a + 5 + k then (s, .error (.fault 0x09 (a + 5)))
      else match s.mread w spc (a + 5) k with
        | (s, .error e) => (s, .error e)
        | (s, .ok d) => (s, .ok (⟨leNat (h.bytes.take 1), blockCodes l.fmt mask (unpack l.fmt (popcount mask) d.bytes),
            p || h.p || d.p, q || h.poison || d.poison, false⟩, a + 5 + k))

/-- Decodes block n of a group whose bytes begin at a (R383): the blocks before it are read to find it. -/
def State.groupBlock (s : State) (w : Who) (spc : Spc) (l : Layout) (p q : Bool) (a : Nat) :
    Nat → State × Except MFail TBlock
  | 0 => match s.blockAt w spc l p q a with
    | (s, .error e) => (s, .error e)
    | (s, .ok (t, _)) => (s, .ok t)
  | n + 1 => match s.blockAt w spc l p q a with
    | (s, .error e) => (s, .error e)
    | (s, .ok (t, b)) => s.groupBlock w spc l t.p t.poison b n

/-- The record at an offset (R366, R384). -/
def State.layoutAt (s : State) (w : Who) (spc : Spc) (a : Nat) : State × Except MFail (Layout × Bool × Bool) :=
  if a % 32 ≠ 0 then (s, .error (.fault 0x08 a))
  else match s.mread w spc a 32 with
    | (s, .error e) => (s, .error e)
    | (s, .ok m) =>
      if layoutOk m.bytes then (s, .ok (Layout.read m.bytes, m.p, m.poison)) else (s, .error (.fault 0x01 a))

/-- Blocks of one row of the tensor whose record lies at a. -/
def State.rowBlocks (s : State) (w : Who) (spc : Spc) (a : Nat) (l : Layout) (row : Nat) :
    List Nat → State × Except MFail (List TBlock)
  | [] => (s, .ok [])
  | j :: js =>
    let b := row * (l.elems / 32) + j
    let per := if l.fmt = 0xA then 128 else 256
    match s.mread w spc (a + 32 + 4 * (b / per)) 4 with
    | (s, .error e) => (s, .error e)
    | (s, .ok o) => match s.groupBlock w spc l o.p false (l.base + leNat o.bytes) (b % per) with
      | (s, .error e) => (s, .error e)
      | (s, .ok t) => match s.rowBlocks w spc a l row js with
        | (s, .ok ts) => (s, .ok ({ t with offs := o.poison } :: ts))
        | r => r

/-! ### GATH (R370) -/

/-- Row bytes of a format (R368). -/
def rowBytes (f : Nat) : Nat := 8 * fmtBits f

/-- A row of a latch as it is read: bytes, scales, P and POISON. -/
structure LRow where
  bytes  : List Byte
  scales : List Byte
  p      : Bool
  poison : Bool
deriving DecidableEq, Repr

/-- Row i of plain rows. -/
def State.plainRow (s : State) (w : Who) (spc : Spc) (f base pitch sbase : Nat) (mx : Bool) (i : Nat) :
    State × Except MFail LRow :=
  let a := (base + i * pitch) % 2 ^ 32
  if a % 32 ≠ 0 then (s, .error (.fault 0x08 a))
  else match s.mread w spc a (rowBytes f) with
    | (s, .error e) => (s, .error e)
    | (s, .ok m) =>
      if !mx then (s, .ok ⟨m.bytes, [], m.p, m.poison⟩)
      else match s.mread w spc (sbase + 2 * i) 2 with
        | (s, .error e) => (s, .error e)
        | (s, .ok x) => (s, .ok ⟨m.bytes, x.bytes, m.p || x.p, m.poison || x.poison⟩)

/-- Row i of a compressed tensor of rows of 64. -/
def State.tensorRow (s : State) (w : Who) (spc : Spc) (f base i : Nat) : State × Except MFail LRow :=
  match s.layoutAt w spc base with
  | (s, .error e) => (s, .error e)
  | (s, .ok (l, p, q)) =>
    if l.elems ≠ 64 || l.fmt ≠ f then (s, .error (.fault 0x01 base))
    else match s.rowBlocks w spc base l i [0, 1] with
      | (s, .error e) => (s, .error e)
      | (s, .ok ts) => (s, .ok ⟨pack f (ts.flatMap TBlock.codes), ts.map (fun t => BitVec.ofNat 8 t.x),
          p || ts.any TBlock.p, q || ts.any TBlock.poison || ts.any TBlock.offs⟩)

/-- The 64 rows. -/
def State.latchRows (s : State) (row : State → Nat → State × Except MFail LRow) :
    List Nat → State × Except MFail (List LRow)
  | [] => (s, .ok [])
  | i :: is => match row s i with
    | (s, .error e) => (s, .error e)
    | (s, .ok r) => match s.latchRows row is with
      | (s, .ok rs) => (s, .ok (r :: rs))
      | e => e

/-- Index r of a gather: a register of thread r / 4; an inactive thread's as it stands (R124, R138). -/
def State.indexReg (s : State) (k r : Nat) : Option Reg :=
  let g := s.cg
  let t := r / 4
  let c := k + r % 4
  if s.cur.mask.contains t then g.source s.free t c else some (if g.isDead t c then Reg.zero else g.readReg s.free t c)

/-- A matrix agent of the issuing thread (R177). -/
def State.matrixWho (s : State) (gid : Nat) : Who :=
  let g := s.grp gid
  ⟨⟨.G, g.core, gid, s.nextId⟩, g.core, g.lid, g.ctx⟩

/-- The command is over: its interval closes (R192). -/
def State.matrixEnd (s : State) (w : Who) : State :=
  let s := s.dropIvs fun a => a = w.agent
  { s with sweep := { s.sweep with ivs := s.sweep.ivs.filter fun iv => iv.agent ≠ w.agent }, nextId := s.nextId + 1 }

/-- A fault is recorded against threads of a group (R366). -/
def State.defer (s : State) (gid : Nat) (tids : List Nat) (code addr : Nat) : State :=
  s.updGrp gid fun g => { g with deferred := g.deferred ++ [⟨tids, code, addr, none⟩] }

/-- A drain of the core still has writes to make. -/
def Core.draining (c : Core) : Bool :=
  c.cmds.any fun x => (x.stage = 2 || x.stage = 4) && match x.kind with
    | .mdrn _ => true
    | _ => false

/-- A full round of `MMA` or `MMAS` on the core is still to be performed, or a drain has not made all its writes: they come, whole,
before every command that issues now (R364). -/
def State.roundDue (s : State) (core : Nat) : Bool :=
  (s.core core).draining
    || (s.core core).huddles.any fun h => 0 < h.count && h.count ≤ h.signed && h.sigs.any fun x => x.kind = 1 || x.kind = 2

/-- A command of the matrix engine waits at issue for the rounds before it (R364), and while its stream is frozen or a `FENCEX`
holds it (R176, R193); its path stays at it as a whole. -/
def State.matrixGate (s : State) (i : Instr) (k : State → State) : State :=
  s.gate i fun s =>
    if s.roundDue s.cg.core || s.engHeld s.cg.core s.cg.ctx .G s.nextId then (s.stayAll s.cur.path).finish else k s

/-- `GATH` (R370). -/
def execGath (d : BitVec 7) (a : BitVec 7) (b : BitVec 7) (c : BitVec 7) (lat : BitVec 1) (fa : BitVec 4)
    (mx : BitVec 1) (m : BitVec 2) (s : State) : Out :=
  let i : Instr := .gath d a b c lat fa mx m
  .next (s.matrixGate i fun s =>
    let gid := s.cur.gid
    let lead := s.cur.mask.headD 0
    let idx := (List.range 64).map (s.indexReg c.toNat)
    let dead := s.cur.mask.filter fun t => (List.range 4).any fun j => (s.indexReg c.toNat (4 * t + j)).isNone
    if !dead.isEmpty then (s.trapAll dead 0x02 0).finish
    else match s.readOps gid lead ((operands i).filter fun o => o.fld ≠ .C) Vals.zero with
      | (s, .error r) => (s.failRd s.cur.mask r).finish
      | (s, .ok v) =>
        let w := s.matrixWho gid
        let spc : Spc := if m.toNat % 2 = 1 then .W else .A
        let ix := idx.map fun r => (r.getD Reg.zero)
        let row := fun (s : State) (i : Nat) =>
          if m.toNat / 2 = 1 then s.tensorRow w spc fa.toNat (u32 v.a) i
          else s.plainRow w spc fa.toNat (u32 v.a) (u32 v.b) (u32 v.d) (mx = 1#1) i
        match s.latchRows row (ix.map fun r => r.v.toNat) with
        | (s, .error .waits) => ((s.matrixEnd w).stayAll s.cur.mask).finish
        | (s, .error (.fault code addr)) => ((s.matrixEnd w).defer gid s.cur.mask code addr).finish
        | (s, .ok rs) =>
          let l : Latch := ⟨rs.map LRow.bytes, rs.map LRow.scales, rowBytes fa.toNat, mx = 1#1,
            rs.any LRow.p || ix.any Reg.p || v.p || s.cg.ambientAny s.cur.mask, rs.any LRow.poison⟩
          ((s.matrixEnd w).updCore s.cg.core fun k => { k with latches := k.latches.set lat.toNat l }).finish)

/-! ### Tiles and their modes -/

def Core.tile (c : Core) (n : Nat) : Tile := c.tiles.getD n Tile.reset
def State.updTile (s : State) (core n : Nat) (f : Tile → Tile) : State :=
  s.updCore core fun c => { c with tiles := c.tiles.set n (f (c.tile n)) }

/-- The FP32 word of an element. -/
def Tile.at_ (t : Tile) (r n : Nat) : Nat := ((t.rows.getD r []).getD n 0#32).toNat

/-- A row whose first columns are replaced. -/
def Tile.setRow (t : Tile) (r : Nat) (ws : List Word) : Tile :=
  let rows := (List.range 64).map fun k => t.rows.getD k []
  { t with rows := rows.set r (ws ++ (rows.getD r []).drop ws.length) }

/-- `MZERO` (R373); it waits for the tile's check (R234). -/
def execMzero (tile : BitVec 2) (s : State) : Out :=
  .next (s.matrixGate (.mzero tile) fun s =>
    let k := s.cg.core
    let n := tile.toNat
    let t := (s.core k).tile n
    if t.due then (s.stayAll s.cur.mask).finish
    else
      let p := s.cg.ambientAny s.cur.mask
      let z := { t with rows := [], rowP := List.replicate 64 p, poison := false, held := false, outlier := none }
      let z := if t.smx.isSome then { z with m := Tile.reset.m, l := Tile.reset.l } else z
      (s.updTile k n fun _ => z).finish)

/-- `MCFG` (R374). -/
def execMcfg (a : BitVec 7) (tile : BitVec 2) (m : BitVec 4) (s : State) : Out :=
  let i : Instr := .mcfg a tile m
  .next (s.matrixGate i fun s =>
    match s.readOps s.cur.gid (s.cur.mask.headD 0) (operands i) Vals.zero with
    | (s, .error r) => (s.failRd s.cur.mask r).finish
    | (s, .ok v) =>
      let no := u32 v.a
      let smx := m.toNat % 4 = 1
      if smx && (no % 16 ≠ 0 || no < 16 || 512 < no) then (s.trapAll s.cur.mask 0x01 0).finish
      else
        let k := s.cg.core
        let n := tile.toNat
        let s := match ((s.core k).tile n).smx with
          | some (cs, _) => s.updTile k cs fun t => { t with held := false }
          | none => s
        (s.updTile k n fun t => { t with
          smx := if smx then some (m.toNat / 4, no) else none
          m := Tile.reset.m, l := Tile.reset.l, held := false, nanblk := 0, ufblk := 0 }).finish)

/-- `MOL` (R372): the record is staged. -/
def execMol (a : BitVec 7) (tile : BitVec 2) (s : State) : Out :=
  let i : Instr := .mol a tile
  .next (s.matrixGate i fun s =>
    match s.readOps s.cur.gid (s.cur.mask.headD 0) (operands i) Vals.zero with
    | (s, .error r) => (s.failRd s.cur.mask r).finish
    | (s, .ok v) => (s.updTile s.cg.core tile.toNat fun t => { t with outlier := some (u32 v.a) }).finish)

/-- The status word of a tile (R386). -/
def Tile.stat (t : Tile) : Nat :=
  (if t.poison then 2 ^ 31 else 0) + (if t.smx.isSome then 2 ^ 30 else 0) + (if t.held then 2 ^ 29 else 0)
    + t.nanblk * 2 ^ 12 + t.ufblk

/-- `MSTAT` (R386): a result of the matrix kind. -/
def execMstat (d : BitVec 7) (tile : BitVec 2) (clr : BitVec 1) (s : State) : Out :=
  let i : Instr := .mstat d tile clr
  .next (s.matrixGate i fun s =>
    let v := ((s.core s.cg.core).tile tile.toNat).stat
    let s := (s.turns i).foldl (fun s u => match (operands i).head? with
      | none => s
      | some o => match s.dstOp s.cur.gid u.1 o with
        | (s, .error r) => s.failRd u.2 r
        | (s, .ok dst) => s.writeDst s.cur.gid u.1 dst (BitVec.ofNat 64 v) (s.ambient u.2) (some 2)) s
    (if clr = 1#1 then s.updTile s.cg.core tile.toNat fun t => { t with nanblk := 0, ufblk := 0 } else s).finish)

/-! ### Products and sums (R213 to R217) -/

/-- An operand of the array: a value, or a logarithmic code with its scale, whose products are sums (R213). -/
inductive MEl where
  | val (v : FV)
  /-- sign, and exponent and fraction in quarters, or none for a zero code; power of two of the scale -/
  | log (neg : Bool) (q : Option Int) (x : Int)
deriving DecidableEq, Repr

def fvShift (v : FV) (x : Int) : FV :=
  match v with
  | .fin neg m e => .fin neg m (e + x)
  | v => v

/-- The element of a code under a scale; a scale of 0xFF makes it NaN (R210). -/
def mEl (f code : Nat) (scale : Option Nat) : MEl :=
  if scale = some 0xFF then .val .nan
  else
    let x : Int := match scale with
      | some n => (n : Int) - 127
      | none => 0
    match f with
    | 0x1 => .val (fvOfInt (signOf 8 code))
    | 0xF => .val (fvOfInt (signOf 4 code))
    | 0xD => let p := l6.parts code; .log p.1 (p.2.map fun e => 4 * e.1 + e.2) x
    | 0xE => let p := l4.parts code; .log p.1 (p.2.map fun e => 4 * e.1 + e.2) x
    | _ => .val (fvShift (fmtValue f code) x)

/-- The value of an element by itself (R203). -/
def MEl.value : MEl → FV
  | .val v => v
  | .log neg none _ => .fin neg 0 0
  | .log neg (some q) x => .fin neg (logT (q % 4).toNat) (q / 4 - 12 + x)

/-- R213: a product; a logarithmic pair adds. -/
def MEl.mul (nbv : Nat) (a b : MEl) : FV :=
  match a, b with
  | .log na qa xa, .log nb qb xb =>
    let neg := na != nb
    match qa, qb with
    | some qa, some qb =>
      let q := qa + qb
      if nbv = 1 then .fin neg (logT8 (q % 4).toNat) (q / 4 - 8 + xa + xb)
      else .fin neg (logT (q % 4).toNat) (q / 4 - 12 + xa + xb)
    | _, _ => .fin neg 0 0
  | a, b => (fvMul a.value b.value).1

/-- R214: the exact sum of terms. -/
def exactSum (ts : List FV) : FV :=
  if ts.any fvNan || (ts.contains (.inf true) && ts.contains (.inf false)) then .nan
  else if ts.contains (.inf true) then .inf true
  else if ts.contains (.inf false) then .inf false
  else
    let low : FV → Int := fun t => match t with
      | .fin _ m e => if m = 0 then 0 else e
      | _ => 0
    let e := (ts.map low).foldl min 0
    let val : FV → Int := fun t => match t with
      | .fin neg m x => if m = 0 then 0 else (if neg then -(m * 2 ^ (x - e).toNat : Int) else m * 2 ^ (x - e).toNat)
      | _ => 0
    let n := (ts.map val).sum
    let neg := ts.all fun t => match t with
      | .fin neg m _ => neg && m = 0
      | _ => false
    if n = 0 then .fin neg 0 0 else .fin (n < 0) n.natAbs e

/-- R215: one level of the pairwise tree on FP32 codes. -/
def pairSums : List Nat → List Nat
  | a :: b :: cs => fp32.ne (fvAdd 0 (fp32.value a) (fp32.value b)).1 :: pairSums cs
  | cs => cs

/-- R214 to R216: an accumulator element from its products' operands and its old code. -/
def dotElem (nbv : Nat) (f : FFmt) (fused : Bool) (ps : List (MEl × MEl)) (old : Nat) : Nat :=
  if fused then ps.foldl (fun acc p => f.ne (fvFma 0 p.1.value p.2.value (f.value acc)).1) old
  else
    let qs := ps.map fun p => p.1.mul nbv p.2
    if nbv = 1 then
      let l0 := qs.map fp32.ne
      let l6 := pairSums (pairSums (pairSums (pairSums (pairSums (pairSums l0)))))
      fp32.ne (fvAdd 0 (fp32.value old) (fp32.value (l6.headD 0))).1
    else fp32.ne (exactSum (qs ++ [fp32.value old]))

/-! ### Operands of a round -/

/-- What a matrix operation's words say (R371, R375): form 0 `MMA`, 1 a score step, 2 a value step. -/
structure MOp where
  form : Nat
  tile : Nat
  lat  : Nat
  fa   : Nat
  fb   : Nat
  mx   : Bool
  z    : Bool
  lr   : Bool
deriving DecidableEq, Repr

/-- The B operand: element n of row k, with the P of what was read, and the POISON of its elements' sectors (R371). -/
structure MB where
  rows   : List (List MEl)
  p      : Bool
  poison : Bool
deriving DecidableEq, Repr

/-- Codes of B rows in W. -/
def State.bPlain (s : State) (w : Who) (fb n bsrc pitch : Nat) : List Nat → State × Except MFail (List (List Nat) × Bool × Bool)
  | [] => (s, .ok ([], false, false))
  | k :: ks => match s.mread w .W (bsrc + k * pitch) (n * fmtBits fb / 8) with
    | (s, .error e) => (s, .error e)
    | (s, .ok m) => match s.bPlain w fb n bsrc pitch ks with
      | (s, .ok (rs, p, q)) => (s, .ok (unpack fb n m.bytes :: rs, m.p || p, m.poison || q))
      | r => r

/-- B rows of a compressed tensor in W (R384). -/
def State.bTensor (s : State) (w : Who) (a : Nat) (l : Layout) (n row : Nat) :
    List Nat → State × Except MFail (List (List MEl) × Bool × Bool)
  | [] => (s, .ok ([], false, false))
  | k :: ks => match s.rowBlocks w .W a l (row + k) (List.range ((n + 31) / 32)) with
    | (s, .error e) => (s, .error e)
    | (s, .ok ts) => match s.bTensor w a l n row ks with
      | (s, .ok (rs, p, q)) =>
        let r := (ts.flatMap fun t => t.codes.map fun c => mEl l.fmt c (some t.x)).take n
        (s, .ok (r :: rs, p || ts.any TBlock.p, q || ts.any TBlock.poison))
      | r => r

/-- The B operand of a round (R371). -/
def State.bOperand (s : State) (w : Who) (o : MOp) (n bsrc pitch sbase : Nat) : State × Except MFail MB :=
  if o.lr then match s.layoutAt w .W bsrc with
    | (s, .error e) => (s, .error e)
    | (s, .ok (l, p, _)) =>
      if l.elems < n || l.fmt ≠ o.fb then (s, .error (.fault 0x01 bsrc))
      else match s.bTensor w bsrc l n pitch (List.range 64) with
        | (s, .ok (rs, p', q')) => (s, .ok ⟨rs, p || p', q'⟩)
        | (s, .error e) => (s, .error e)
  else if bsrc % 32 ≠ 0 || pitch % 32 ≠ 0 then (s, .error (.fault 0x08 bsrc))
  else match s.bPlain w o.fb n bsrc pitch (List.range 64) with
    | (s, .error e) => (s, .error e)
    | (s, .ok (rs, p, q)) =>
      if !o.mx then (s, .ok ⟨rs.map (fun r => r.map fun c => mEl o.fb c none), p, q⟩)
      else match s.mread w .W sbase (2 * n) with
        | (s, .error e) => (s, .error e)
        | (s, .ok x) =>
          let sc := fun (k j : Nat) => some ((x.bytes.getD (2 * j + k / 32) 0#8).toNat)
          (s, .ok ⟨(rs.zip (List.range 64)).map (fun r => (r.1.zip (List.range n)).map fun c => mEl o.fb c.1 (sc r.2 c.2)),
            p || x.p, q⟩)

/-- The A operand of a latch. -/
def Latch.operand (l : Latch) (fa : Nat) : List (List MEl) :=
  (List.range 64).map fun r =>
    let x := l.scales.getD r []
    ((unpack fa 64 (l.rows.getD r [])).zip (List.range 64)).map fun c =>
      mEl fa c.1 (if l.mx then some (x.getD (c.2 / 32) 0#8).toNat else none)

/-- R375: 64 held values of a row converted to the format of the operation. -/
def convRow (fa : Nat) (mx : Bool) (vs : List Nat) : List MEl :=
  if mx then
    [vs.take 32, vs.drop 32].flatMap fun b =>
      let e := mxEncode fa 0 (b.map fun _ => 0) b
      e.codes.map fun c => mEl fa c (some e.x)
  else vs.map fun v => match fa with
    | 0x1 => .val (fvOfInt (fvInt 0 (-128) 127 (fp32.value v)).1)
    | 0xF => .val (fvOfInt (fvInt 0 (-8) 7 (fp32.value v)).1)
    | _ => mEl fa (fmtOf fa 0 0 false (fp32.value v)).bits none

/-- An outlier record's channels and the entries of its side arrays: of ASIDE by 8·row + channel, of BSIDE by channel (R372). -/
structure Outliers where
  chans : List (Nat × Nat)
  a     : List Nat
  b     : List (Nat × List Nat)
  p     : Bool
deriving DecidableEq, Repr

def Outliers.none_ : Outliers := ⟨[], [], [], false⟩

/-- The entries of ASIDE from the first used channel of row 0 to the last of row 63, with their place; no sector is read that holds
none of them (R372). -/
def State.sideA (s : State) (w : Who) (asd : Nat) (us : List Nat) : State × Except MFail (List Nat × Bool) :=
  match us.min?, us.max? with
  | some lo, some hi => match s.mread w .A (asd + 2 * lo) (1008 + 2 * (hi - lo) + 2) with
    | (s, .error e) => (s, .error e)
    | (s, .ok x) => (s, .ok (List.replicate lo 0 ++ unpack 0x7 (505 + hi - lo) x.bytes, x.p))
  | _, _ => (s, .ok ([], false))

/-- The first n entries of BSIDE of the used channels (R372). -/
def State.sideB (s : State) (w : Who) (bsd n : Nat) : List Nat → State × Except MFail (List (Nat × List Nat) × Bool)
  | [] => (s, .ok ([], false))
  | u :: us => match s.mread w .A (bsd + 1024 * u) (2 * n) with
    | (s, .error e) => (s, .error e)
    | (s, .ok x) => match s.sideB w bsd n us with
      | (s, .ok (bs, p)) => (s, .ok ((u, unpack 0x7 n x.bytes) :: bs, x.p || p))
      | r => r

/-- The staged record of a tile is read, and what an operation of n columns uses of its side arrays (R217, R372); its errors are
`ILLEGAL`. -/
def State.outliers (s : State) (w : Who) (o : Option Nat) (fused : Bool) (n : Nat) : State × Except MFail Outliers :=
  match o with
  | none => (s, .ok Outliers.none_)
  | some a =>
    if fused then (s, .ok Outliers.none_)
    else match s.mread w .A a 32 with
      | (s, .error e) => (s, .error e)
      | (s, .ok m) =>
        let chs := ((m.bytes.take 8).zip (List.range 8)).filterMap fun c =>
          if c.1 = 0xFF#8 then none else some (c.2, c.1.toNat)
        let asd := recW m.bytes 8
        let bsd := recW m.bytes 12
        let ok := (chs.all fun c => c.2 < 64) && (chs.map Prod.snd).eraseDups.length = chs.length && asd % 4 = 0
          && bsd % 4 = 0 && (m.bytes.drop 16).all (· = 0#8) && asd + 1024 ≤ 2 ^ 23 && bsd + 8192 ≤ 2 ^ 23
        if !ok then (s, .error (.fault 0x01 a))
        else match s.sideA w asd (chs.map Prod.fst) with
          | (s, .error e) => (s, .error e)
          | (s, .ok (x, xp)) => match s.sideB w bsd n (chs.map Prod.fst) with
            | (s, .error e) => (s, .error e)
            | (s, .ok (y, yp)) => (s, .ok ⟨chs, x, y, m.p || xp || yp⟩)

/-- The operands of element (r, n), with the side values at outlier channels (R217). -/
def pairsAt (arow : List MEl) (brows : List (List MEl)) (o : Outliers) (r n : Nat) : List (MEl × MEl) :=
  (List.range 64).map fun k => match o.chans.find? fun c => c.2 = k with
    | some (u, _) => (.val (bf16.value (o.a.getD (8 * r + u) 0)), .val (bf16.value ((kget [] o.b u).getD n 0)))
    | none => (arow.getD k (.val (.fin false 0 0)), (brows.getD k []).getD n (.val (.fin false 0 0)))

/-- The old element, in the operation's format. -/
def Tile.old (t : Tile) (f64 : Bool) (r n : Nat) : Nat :=
  if f64 then t.at_ r (2 * n) + 2 ^ 32 * t.at_ r (2 * n + 1) else t.at_ r n

/-- The words of a row of new elements. -/
def rowWords (f64 : Bool) (es : List Nat) : List Word :=
  if f64 then es.flatMap fun e => [BitVec.ofNat 32 e, BitVec.ofNat 32 (e / 2 ^ 32)] else es.map (BitVec.ofNat 32)

/-- The accumulation of R371 into a tile. -/
def Tile.accumulate (t : Tile) (nbv fa n : Nat) (z : Bool) (a b : List (List MEl)) (o : Outliers) (aP : Nat → Bool)
    (p poison : Bool) : Tile :=
  let f64 := fa = 9
  let f := if f64 then fp64 else fp32
  let t' := (List.range 64).foldl (fun (t' : Tile) r =>
    let es := (List.range n).map fun c =>
      dotElem nbv f (fa = 8 || fa = 9) (pairsAt (a.getD r []) b o r c) (if z then 0 else t.old f64 r c)
    t'.setRow r (rowWords f64 es)) t
  { t' with
    rowP := (List.range 64).map (fun r => aP r || p || (!z && t.rowP.getD r false))
    poison := t.poison || poison, outlier := none, due := true }

/-! ### Online softmax (R376) -/

/-- FEXP2 on FP32 codes (R275). -/
def exp2Bits (n : Nat) : Nat := fp32.ne (fvExp2 (fp32.value n))

def subBits (a b : Nat) : Nat := fp32.ne (fvAdd 0 (fp32.value a) (fvNeg (fp32.value b))).1
def mulBits (a b : Nat) : Nat := fp32.ne (fvMul (fp32.value a) (fp32.value b)).1

/-- One row of the update: new m, l, scores, and the factor of the output row. -/
def smxRow (m l : Nat) (scores : List Nat) : Nat × Nat × List Nat × Nat :=
  let mx := scores.tail.foldl (fmaxBits fp32) (scores.headD 0)
  let mnew := fmaxBits fp32 m mx
  let (f, ps) := if mnew = 0xFF800000 then (0x3F800000, scores.map fun _ => 0)
    else (exp2Bits (subBits m mnew), scores.map fun c => exp2Bits (subBits c mnew))
  let l' := fp32.ne (exactSum ((fvMul (fp32.value l) (fp32.value f)).1 :: ps.map fp32.value))
  (mnew, l', ps, f)

/-- The update of the output tile and the score tile. -/
def softmax (co cs : Tile) (no : Nat) : Tile × Tile :=
  (List.range 64).foldl (fun (t : Tile × Tile) r =>
    let sc := (List.range 64).map fun k => t.2.at_ r k
    let (m, l, ps, f) := smxRow (t.1.m.getD r 0#32).toNat (t.1.l.getD r 0#32).toNat sc
    let row := (List.range no).map fun n => BitVec.ofNat 32 (mulBits (t.1.at_ r n) f)
    let co := t.1.setRow r row
    ({ co with m := co.m.set r (BitVec.ofNat 32 m), l := co.l.set r (BitVec.ofNat 32 l)
               rowP := co.rowP.set r (co.rowP.getD r false || t.2.rowP.getD r false) },
      t.2.setRow r (ps.map (BitVec.ofNat 32)))) (co, cs)

/-! ### Rounds (R318, R366, R371) -/

/-- The operation that a signature's words name. -/
def mopOf (w u : Word) : MOp :=
  match decode w u with
  | .ok (.mma _ _ _ _ _ tile lat fa fb mx m) =>
    ⟨0, tile.toNat, lat.toNat, fa.toNat, fb.toNat, mx = 1#1, m.toNat % 2 = 1, m.toNat / 2 = 1⟩
  | .ok (.mmasS _ _ _ _ _ tile lat fa fb mx lr) => ⟨1, tile.toNat, lat.toNat, fa.toNat, fb.toNat, mx = 1#1, true, lr = 1#1⟩
  | .ok (.mmasV _ _ _ _ _ tile fa fb mx lr) => ⟨2, tile.toNat, 0, fa.toNat, fb.toNat, mx = 1#1, false, lr = 1#1⟩
  | _ => ⟨0, 0, 0, 0, 0, false, false, false⟩

/-- The checks of an operation that need no memory (R366, R371, R375). -/
def Core.mopOk (c : Core) (o : MOp) (n : Nat) : Bool :=
  let t := c.tile o.tile
  let l := c.latches.getD o.lat Latch.reset
  n % 16 = 0 && 16 ≤ n && n ≤ (if o.fa = 9 then 256 else 512)
    && (o.form = 2 || (l.width = rowBytes o.fa && l.mx = o.mx))
    && (match o.form, t.smx with
      | 0, _ => true
      | 1, some _ => n = 64
      | 2, some (cs, no) => n = no && (c.tile cs).held
      | _, none => false
      | _, _ => true)

/-- The operation of a round with the operands that its last signer named: N, B, pitch, scale base, its NBV, and
whether any of them carries P. -/
def State.mmaRound (s : State) (w : Who) (o : MOp) (n bsrc pitch sbase nbv : Nat) (p : Bool) : State × Except MFail Unit :=
  let k := w.core
  let c := s.core k
  if !c.mopOk o n then (s, .error (.fault 0x01 0))
  else
    let smx := (c.tile o.tile).smx.getD (0, 0)
    let dst := if o.form = 1 then smx.1 else o.tile
    let fused := o.fa = 8 || o.fa = 9
    match s.bOperand w o n bsrc pitch sbase with
    | (s, .error e) => (s, .error e)
    | (s, .ok b) => match s.outliers w ((s.core k).tile dst).outlier fused n with
      | (s, .error e) => (s, .error e)
      | (s, .ok ol) =>
        let c := s.core k
        let l := c.latches.getD o.lat Latch.reset
        let cs := c.tile smx.1
        let a := if o.form = 2 then (List.range 64).map fun r => convRow o.fa o.mx ((List.range 64).map (cs.at_ r))
          else l.operand o.fa
        let aP := fun (r : Nat) => if o.form = 2 then cs.rowP.getD r false || narrowFmt o.fa else l.p
        let poison := (if o.form = 2 then cs.poison else l.poison) || b.poison
        let t := (c.tile dst).accumulate nbv o.fa n o.z a b.rows ol aP (p || b.p || ol.p) poison
        let s := s.updTile k dst fun _ => t
        match o.form with
        | 1 =>
          let (co, cs) := softmax ((s.core k).tile o.tile) ((s.core k).tile dst) smx.2
          ((s.updTile k o.tile fun _ => { co with due := true }).updTile k dst fun _ => { cs with held := true }, .ok ())
        | 2 => (s.updTile k smx.1 fun t => { t with held := false }, .ok ())
        | _ => (s, .ok ())

/-- A round ends (R318). -/
def Huddle.next (h : Huddle) (last : Nat) : Huddle :=
  { h with signed := 0, sigs := [], last := last, gen := (h.gen + 1) % 4 }

/-- Signers by group and thread that are still there. -/
def State.signers (s : State) (gs : List Sig) : List Sig := gs.filter fun g => (s.grp g.gid).uid = g.uid && s.hasGrp g.gid

/-- A parked signer resumes after its instruction, or traps there; the round is a synchronising operation of it at core
scope (R318). -/
def State.release (s : State) (g : Sig) (h : Nat) (owed : Option (Nat × Nat)) : State :=
  let waits := s.waitsAt g h
  let s := s.closeIv (s.agent g.gid g.tix) 3
  if !waits then s
  else
  let s := s.updGrp g.gid fun x => { x with parks := (x.parks.map fun p =>
    if p.kind = .huddle h then { p with mask := p.mask.filter (· ≠ g.tix) } else p).filter fun p => !p.mask.isEmpty }
  match owed with
  | some c => s.updThr g.gid g.tix fun x => { x with owed := some c }
  | none => s.resume g.gid [g.tix]

/-- A signer of a round that completed resumes, unless a side-logged write of it was refused: then it traps (R170). -/
def State.releaseReady (s : State) (g : Sig) (h : Nat) : State :=
  match s.sideRefused (s.who g.gid g.tix) with
  | some (a, c) => if s.waitsAt g h then (s.dropSideRef (s.who g.gid g.tix)).release g h (some (c, a)) else s.release g h none
  | none => s.release g h none

/-- A round that disagrees: no operation, MISMATCH, and every signer has `HUDDLE` (R318, R366). -/
def State.mismatch (s : State) (core h : Nat) : State :=
  let hd := (s.core core).huddle h
  let s := s.updHuddle core h fun x => x.next 2
  (s.signers hd.sigs).foldl (fun s g =>
    if g.kind = 0 || g.kind = 3 then s.release g h (some (0x10, 0)) else s.defer g.gid [g.tix] 0x10 0) s

/-- The signatures of a matrix round agree: one instruction with the same words and literals (R371). -/
def sigsAgree (gs : List Sig) : Bool :=
  match gs with
  | [] => true
  | g :: gs => gs.all fun x => x.kind = g.kind && x.w = g.w && x.u = g.u && x.lits = g.lits

/-- A matrix round runs, in the place of its last signer. -/
def State.matrixRound (s : State) (core h : Nat) (gs : List Sig) (z : Sig) : State :=
  let g := s.grp z.gid
  let lid := ((s.core core).huddle h).owner.getD 0
  let w : Who := ⟨⟨.G, core, z.gid, s.nextId⟩, core, lid, g.ctx⟩
  let o := mopOf z.w z.u
  let v := fun (i : Nat) => z.vals.getD i 0
  let due := ((s.core core).tile o.tile).due || match ((s.core core).tile o.tile).smx with
    | some (cs, _) => o.form ≠ 0 && ((s.core core).tile cs).due
    | none => false
  if due || (s.core core).draining then s
  else match s.mmaRound w o (v 0) (v 1) (v 2) (v 3) (v 4) (v 5 = 1 || gs.any Sig.p) with
    | (s, .error .waits) => s.matrixEnd w
    | (s, .error (.fault code addr)) =>
      let s := (s.matrixEnd w).updHuddle core h fun x => x.next 2
      (s.signers gs).foldl (fun s g => s.defer g.gid [g.tix] code addr) s
    | (s, .ok ()) => (s.matrixEnd w).updHuddle core h fun x => x.next 1

/-- `HUDDLE_ROUND_COMPLETE` (R318): a full round of `HSIGN`, `MMA` or `MMAS`; it waits for the signers' side-logged
writes and window stores, and a matrix round for its stream and for a `FENCEX` (R176, R193). -/
def execHuddleRoundComplete (core h : Nat) (s : State) : Out :=
  let hd := (s.core core).huddle h
  let gs := hd.sigs
  match gs.head?, gs.getLast? with
  | some a, some z =>
    let undrained := gs.any fun g => s.undrained (s.agent g.gid g.tix) && (s.grp g.gid).uid = g.uid
    if hd.count = 0 || hd.signed ≠ hd.count || a.kind = 3 || undrained then .next s.tick
    else if a.kind = 0 then
      if gs.all fun g => g.kind = 0 then
        let s := s.updHuddle core h fun x => x.next 1
        .next ((s.signers gs).foldl (fun s g => s.releaseReady g h) s).tick
      else .next (s.mismatch core h).tick
    else if s.engHeld core (s.grp z.gid).ctx .G z.id then .next s.tick
    else if sigsAgree gs then .next (s.matrixRound core h gs z).tick
    else .next (s.mismatch core h).tick
  | _, _ => .next s.tick

/-- The values that a signature carries: N, B, pitch, scale base, `NBV`, and the P of the operands. -/
def State.mmaVals (s : State) (v : Vals) : List Nat :=
  [u32 v.d, u32 v.a, u32 v.b, u32 v.c, s.cg.ctl.nbv.n % 4, if v.p then 1 else 0]

/-- The signatures of an `MMA` or `MMAS` (R367, R371): one for each active thread, a release of it at core scope. -/
def State.mmaSign (s : State) (i : Instr) (h kind : Nat) : State :=
  s.matrixGate i fun s =>
    match s.readOps s.cur.gid (s.cur.mask.headD 0) (operands i) Vals.zero with
    | (s, .error r) => (s.failRd s.cur.mask r).finish
    | (s, .ok v) =>
      let vals := s.mmaVals v
      s.signs h fun s t => s.whenReady t [t] fun s =>
        match s.signThread t h kind vals (s.cg.ambient t) with
        | (s, .misuse) => s.trap t 0x10 0
        | (s, .waits) => s.stayAll [t]
        | (s, .done) => s.closeIv (s.agent s.cur.gid t) 3

/-- `MMA` (R371). -/
def execMma (d : BitVec 7) (a : BitVec 7) (b : BitVec 7) (c : BitVec 7) (h : BitVec 4) (tile : BitVec 2) (lat : BitVec 1)
    (fa : BitVec 4) (fb : BitVec 4) (mx : BitVec 1) (m : BitVec 2) (s : State) : Out :=
  .next (s.mmaSign (.mma d a b c h tile lat fa fb mx m) h.toNat 1)

/-- `MMAS.S` (R375). -/
def execMmasS (d : BitVec 7) (a : BitVec 7) (b : BitVec 7) (c : BitVec 7) (h : BitVec 4) (tile : BitVec 2)
    (lat : BitVec 1) (fa : BitVec 4) (fb : BitVec 4) (mx : BitVec 1) (lr : BitVec 1) (s : State) : Out :=
  .next (s.mmaSign (.mmasS d a b c h tile lat fa fb mx lr) h.toNat 2)

/-- `MMAS.V` (R375). -/
def execMmasV (d : BitVec 7) (a : BitVec 7) (b : BitVec 7) (c : BitVec 7) (h : BitVec 4) (tile : BitVec 2)
    (fa : BitVec 4) (fb : BitVec 4) (mx : BitVec 1) (lr : BitVec 1) (s : State) : Out :=
  .next (s.mmaSign (.mmasV d a b c h tile fa fb mx lr) h.toNat 2)

/-! ### CVTB (R387) -/

/-- Reads of a thread by sectors. -/
def State.threadReads (s : State) (w : Who) : List (Nat × Nat) → State × Except (Res × Nat) (List Byte)
  | [] => (s, .ok [])
  | c :: cs => match s.reach w (Acc.read .A c.1 c.2) with
    | (s, .ok key _) => match s.threadReads w cs with
      | (s, .ok bs) => (s, .ok (s.mem.read key c.2 ++ bs))
      | r => r
    | (s, r) => (s, .error (r, c.1))

/-- The encoded block of a thread is written, codes before the scale. -/
def State.cvtbWrite (s : State) (w : Who) (tt : List Nat) (d c : Nat) (codes : List Byte) (x : Nat) : State :=
  let ad := Acc.write .A d codes.length false
  let ac := Acc.write .A c 1 false
  let ivs := s.sweep.ivs
  match s.reach w ad with
  | (s, .ok kd _) => match s.reach w ac with
    | (s, .ok kc _) =>
      let s := s.put w ad kd codes true false true
      s.put w ac kc [BitVec.ofNat 8 x] true false true
    | (s, r) => { s with sweep := { s.sweep with ivs := ivs } }.failRes tt r c
  | (s, r) => s.failRes tt r d

/-- One turn of a `CVTB`. -/
def State.cvtbTurn (s : State) (i : Instr) (f : Nat) (u : Nat × List Nat) : State :=
  let gid := s.cur.gid
  match s.readOps gid u.1 (operands i) Vals.zero with
  | (s, .error r) => s.failRd u.2 r
  | (s, .ok v) =>
    let a := u32 v.a
    let d := u32 v.d
    let n := if f = 0xA then 32 else 16
    if a % 4 ≠ 0 then s.trapAll u.2 0x08 a
    else if d % n ≠ 0 then s.trapAll u.2 0x08 d
    else match s.threadReads (s.who gid u.1) (chunks a 128) with
      | (s, .error (r, x)) => s.failRes u.2 r x
      | (s, .ok bs) =>
        let c := s.cg.ctl
        let (us, gen) := storeDraws f c.rm 32 (s.thr gid u.1).gen
        let b := mxEncode f c.rm us (unpack 0x8 32 bs)
        let fl := b.flags ||| (if b.isNan then fNV else 0) ||| (if b.isUf then fUF else 0)
        let s := s.raiseFlags fl
        if fl &&& c.ten ≠ 0 then s.trapAll u.2 0x0F 0
        else
          let s := s.cvtbWrite (s.who gid u.1) u.2 d (u32 v.c) (pack f b.codes) b.x
          if s.stopped u.1 then s else s.updThr gid u.1 fun y => { y with gen := gen }

/-- `CVTB` (R387). -/
def execCvtb (d : BitVec 7) (a : BitVec 7) (c : BitVec 7) (fa : BitVec 4) (s : State) : Out :=
  let i : Instr := .cvtb d a c fa
  .next (s.gate i fun s => ((s.turns i).foldl (fun s u => s.cvtbTurn i fa.toNat u) s).finish)

end Sys2Proof.Machine
end

