-- ==== Sys2Proof/Machine/Drain.lean ====
section
/-! DEFINITION. The epilogue chain: `MDRN` (R218, R377 to R385, R392) and the outcome of the redundant check of a matrix
operation (R234, R235). A drain reads its tile and its operands where it issues, and makes its writes later. -/

namespace Sys2Proof.Machine

open Sys2Proof

/-! ### The drain descriptor (R378) -/

structure Drain where
  bias   : Bool
  act    : Bool
  qnt    : Bool
  ef     : Bool
  dsp    : Spc
  fmt    : Nat
  mxb    : Bool
  cmp    : Bool
  rm     : Nat
  sat    : Bool
  f64    : Bool
  zp     : Int
  ncol   : Nat
  scale  : Nat
  seed   : Nat
  daddr  : Nat
  dpitch : Nat
  biasA  : Nat
  actA   : Nat
  errA   : Nat
  lrec   : Nat
  saddr  : Nat
deriving DecidableEq, Repr

/-- The descriptor's fields under the stages that MOD enables. -/
def Drain.read (m : Nat) (bs : List Byte) : Drain :=
  let w := recW bs 0
  let v := recW bs 4
  let dsp : Spc := match w / 2 ^ 26 % 4 with
    | 0 => .global
    | 1 => .A
    | _ => .W
  ⟨m % 2 = 1, m / 2 % 2 = 1, m / 4 % 2 = 1, m / 8 % 2 = 1, dsp, w / 2 ^ 22 % 16, w / 2 ^ 21 % 2 = 1, w / 2 ^ 20 % 2 = 1,
    w / 2 ^ 17 % 8, w / 2 ^ 16 % 2 = 1, w / 2 ^ 15 % 2 = 1, signOf 16 (v / 2 ^ 16), v % 2 ^ 10, recW bs 8, recW bs 0xC,
    recD bs 0x10, recW bs 0x18, recW bs 0x1C, recW bs 0x20, recW bs 0x24, recD bs 0x28, recD bs 0x30⟩

/-- Bytes of a destination row. -/
def Drain.rowLen (d : Drain) : Nat := d.ncol * fmtBits d.fmt / 8

/-- An integer target. -/
def intFmt (f : Nat) : Bool := f < 6 || f = 0xF

/-- R378: the cases in which a descriptor is malformed; `smx` for a SOFTMAX tile. -/
def Drain.ok (d : Drain) (bs : List Byte) (smx : Bool) : Bool :=
  let w := recW bs 0
  w / 2 ^ 28 = 1 && w / 2 ^ 26 % 4 ≠ 3 && w % 2 ^ 15 = 0 && recW bs 4 / 2 ^ 10 % 2 ^ 6 = 0 && recD bs 0x38 = 0
    && d.rm ≤ 4 && d.ncol % 16 = 0 && 16 ≤ d.ncol && d.ncol ≤ (if d.f64 then 256 else 512)
    && addrFits d.dsp d.daddr && (!d.cmp || addrFits d.dsp d.lrec) && (!(d.mxb && !d.cmp) || addrFits d.dsp d.saddr)
    && (d.cmp || d.rowLen ≤ d.dpitch) && (!d.act || d.actA % 4 = 0)
    && (d.qnt || d.fmt = (if d.f64 then 0x9 else 0x8))
    && !(d.f64 && (d.bias || d.act || d.qnt || d.ef))
    && !(d.qnt && (d.fmt = 0x4 || d.fmt = 0x5 || d.fmt = 0x9))
    && (!d.mxb || ((d.fmt = 0xA || d.fmt = 0xC || d.fmt = 0xE) && d.ncol % 32 = 0))
    && (!d.cmp || (d.mxb && d.daddr % 32 = 0 && d.lrec % 32 = 0))
    && (d.zp = 0 || intFmt d.fmt)
    && !(smx && (d.bias || d.act))

/-- Words of the layout record that a compressing drain writes: its bytes (R382). -/
def Drain.groups (d : Drain) : Nat := (layoutBytes d.fmt (64 * d.ncol) + 4095) / 4096

/-- R381: every row and array lies in its space. -/
def Drain.fits (d : Drain) : Bool :=
  (if d.cmp then inSpace d.dsp d.lrec (32 + 4 * d.groups) else inSpace d.dsp d.daddr (63 * d.dpitch + d.rowLen))
    && (!(d.mxb && !d.cmp) || inSpace d.dsp d.saddr (2 * d.ncol)) && (!d.bias || inSpace .A d.biasA (4 * d.ncol))
    && (!d.act || inSpace .A d.actA 268) && (!d.ef || inSpace .A d.errA (256 * d.ncol))

/-! ### The stages of an element (R379, R380) -/

/-- The floor of a value, clamped to 0..63; a NaN gives 0. -/
def segOf (v : FV) : Nat :=
  match v with
  | .fin false m e => min 63 (if 0 ≤ e then m * 2 ^ e.toNat else m / 2 ^ (-e).toNat)
  | .inf false => 63
  | _ => 0

/-- R380: the activation table at FP32 code v. -/
def pwl (tab : List Nat) (v : Nat) : Nat :=
  let y := fun (i : Nat) => fp32.value (tab.getD (2 + i) 0)
  let u := mulBits (subBits v (tab.getD 0 0)) (tab.getD 1 0)
  let s := segOf (fp32.value u)
  let f := fp32.ne (fvAdd 0 (fp32.value u) (fvNeg (fvOfInt s))).1
  let dy := fp32.ne (fvAdd 0 (y (s + 1)) (fvNeg (y s))).1
  fp32.ne (fvFma 0 (fp32.value f) (fp32.value dy) (y s)).1

def addBits (a b : Nat) : Nat := fp32.ne (fvAdd 0 (fp32.value a) (fp32.value b)).1

/-- The draw of an element's own generator (R379). -/
def drainDraw (seed r n : Nat) : Nat :=
  let g := BitVec.ofNat 32 seed ^^^ 0x6A09E667#32 ^^^ BitVec.ofNat 32 (r * 2 ^ 16 ||| n)
  genU (genNext (if g = 0#32 then 1#32 else g))

/-- The lowest and highest value of an integer format. -/
def intLo (f : Nat) : Int := if f = 0x1 then -128 else if f = 0x3 then -32768 else if f = 0xF then -8 else 0
def intHi (f : Nat) : Int :=
  if f = 0x0 then 255 else if f = 0x1 then 127 else if f = 0x2 then 65535 else if f = 0x3 then 32767 else 7

/-- R379: Saturate(RoundRM(y) + ZP), as a number. -/
def Drain.toInt (d : Drain) (v : FV) : Int :=
  match v with
  | .nan => clampI (intLo d.fmt) (intHi d.fmt) d.zp
  | .inf neg => if neg then intLo d.fmt else intHi d.fmt
  | .fin neg m e => clampI (intLo d.fmt) (intHi d.fmt) ((fvToInt (effRm d.fmt d.rm) neg m e).1 + d.zp)

/-- What one element becomes: its code and its new error. -/
structure DElem where
  code : Nat
  err  : Nat
deriving DecidableEq, Repr

/-- R218: the new error from y and the widened code. -/
def newErr (y : Nat) (wide : FV) : Nat :=
  match fp32.value y with
  | .nan => 0
  | v => fp32.ne (fvAdd 0 v (fvNeg wide)).1

/-- The conversion of y by itself. -/
def Drain.conv (d : Drain) (r n y : Nat) : DElem :=
  if intFmt d.fmt then
    let k := d.toInt (fp32.value y)
    ⟨bitsOf (fmtBits d.fmt) k, newErr y (fvOfInt (k - d.zp))⟩
  else
    let c := (fmtOf d.fmt (effRm d.fmt d.rm) (drainDraw d.seed r n) d.sat (fp32.value y)).bits
    ⟨c, newErr y (fmtValue d.fmt c)⟩

/-- The operands of the stages: biases, activation table and error tile. -/
structure DTabs where
  bias : List Nat
  act  : List Nat
  err  : List Nat
deriving DecidableEq, Repr

/-- The stages before the conversion, on FP32 codes. -/
def Drain.stage (d : Drain) (x : DTabs) (l : Option Nat) (r n v : Nat) : Nat :=
  let v := match l with
    | some l => fp32.ne (fvDiv (fp32.value v) (fp32.value l)).1
    | none => v
  let v := if d.bias then addBits v (x.bias.getD n 0) else v
  let v := if d.act then pwl x.act v else v
  if d.qnt then
    let v := mulBits v d.scale
    if d.ef then addBits v (x.err.getD (r * d.ncol + n) 0) else v
  else v

/-- An FP64 element of a drain (R369): on a SOFTMAX tile its quotient by l(r), rounded to FP32 (R379), as FP64 bits. -/
def drainOld64 (l : Option Nat) (v : Nat) : Nat :=
  match l with
  | some l => f32to64 (fp32.ne (fvDiv (fp64.value v) (fp32.value l)).1)
  | none => v

/-- A drained row: its codes, its blocks' scales, its new errors, and the blocks that count in NANBLK and UFBLK. -/
structure DRow where
  codes  : List Nat
  scales : List Nat
  errs   : List Nat
  nan    : Nat
  uf     : Nat
deriving DecidableEq, Repr

/-- MX blocks of a row (R211, R379). -/
def Drain.mxRow (d : Drain) (r : Nat) (ys : List Nat) : DRow :=
  (List.range (d.ncol / 32)).foldl (fun acc j =>
    let b := (ys.drop (32 * j)).take 32
    let e := mxEncode d.fmt d.rm ((List.range 32).map fun i => drainDraw d.seed r (32 * j + i)) b
    let errs := (b.zip e.codes).map fun p => if e.x = 0xFF then 0 else newErr p.1 (mxValue d.fmt e.x p.2)
    ⟨acc.codes ++ e.codes, acc.scales ++ [e.x], acc.errs ++ errs, acc.nan + (if e.isNan then 1 else 0),
      acc.uf + if e.isUf then 1 else 0⟩) ⟨[], [], [], 0, 0⟩

/-- Row r of the drain. -/
def Drain.row (d : Drain) (x : DTabs) (t : Tile) (r : Nat) : DRow :=
  let l := if t.smx.isSome then some (t.l.getD r 0#32).toNat else none
  let ys := (List.range d.ncol).map fun n =>
    if d.f64 then drainOld64 l (t.old true r n) else d.stage x l r n (t.at_ r n)
  if !d.qnt then ⟨ys, [], [], 0, 0⟩
  else if d.mxb then d.mxRow r ys
  else
    let es := (ys.zip (List.range d.ncol)).map fun p => d.conv r p.2 p.1
    ⟨es.map DElem.code, [], es.map DElem.err, 0, 0⟩

/-! ### The writes of a drain (R381, R383, R385) -/

/-- A compressed block (R383). -/
def blockBytes (f x : Nat) (codes : List Nat) : List Byte :=
  let z := codes.zip (List.range 32)
  let mask := (z.map fun c => if c.1 = zeroCode f then 0 else 2 ^ c.2).sum
  BitVec.ofNat 8 x :: leBytes 4 mask ++ pack f (codes.filter (· ≠ zeroCode f))

/-- Zero bytes up to a multiple of 32. -/
def padded (bs : List Byte) : List Byte := bs ++ List.replicate ((32 - bs.length % 32) % 32) 0#8

/-- The groups of a compressed tensor of the drained rows. -/
def Drain.encoded (d : Drain) (rows : List DRow) : List (List Byte) :=
  let blocks := rows.flatMap fun r => (List.range (d.ncol / 32)).map fun j =>
    blockBytes d.fmt (r.scales.getD j 0) ((r.codes.drop (32 * j)).take 32)
  let per := if d.fmt = 0xA then 128 else 256
  (List.range d.groups).map fun g => padded ((blocks.drop (per * g)).take per).flatten

/-- Offsets of groups in their order. -/
def groupOffs : Nat → List (List Byte) → List Nat
  | _, [] => []
  | o, g :: gs => o :: groupOffs (o + g.length) gs

/-- The layout record of the groups (R382, R383). -/
def Drain.record (d : Drain) (gs : List (List Byte)) : List Byte :=
  leBytes 4 (2 ^ 28 + d.fmt * 2 ^ 24 + 32 * 2 ^ 16) ++ leBytes 4 d.ncol ++ leBytes 4 64 ++ leBytes 4 d.groups
    ++ leBytes 8 d.daddr ++ leBytes 4 (gs.map List.length).sum ++ leBytes 4 0 ++ (groupOffs 0 gs).flatMap (leBytes 4)

def noP (bs : List Byte) : List (Byte × Bool) := bs.map fun b => (b, false)

/-- The data writes: destination, scale array and error tile; p is the P that every sector takes beside its rows'. -/
def Drain.writes (d : Drain) (t : Tile) (rows : List DRow) (p : Bool) : List CWrite :=
  let data :=
    if d.cmp then sectorWrites d.dsp d.daddr (noP (d.encoded rows).flatten) true
    else mergeWrites (((List.range 64).zip rows).flatMap fun r =>
      sectorWrites d.dsp (d.daddr + r.1 * d.dpitch) (noP (pack d.fmt r.2.codes))
        (p || t.rowP.getD r.1 false || (d.qnt && narrowFmt d.fmt)))
  let scales :=
    if d.mxb && !d.cmp then
      sectorWrites d.dsp d.saddr (noP (rows.flatMap fun r => r.scales.map (BitVec.ofNat 8))) true
    else []
  let errs := if d.ef then sectorWrites .A d.errA (noP (rows.flatMap fun r => r.errs.flatMap (leBytes 4))) true else []
  data ++ scales ++ errs

/-! ### MDRN (R377) -/

/-- FP32 words of an array in A, if its stage is on. -/
def State.drainTab (s : State) (w : Who) (on : Bool) (a n : Nat) : State × Except Eng (List Nat × Bool) :=
  if !on then (s, .ok ([], false))
  else match s.engRead w .A a (4 * n) with
    | (s, .ok bs p) => (s, .ok (unpack 0x8 n bs, p))
    | (s, r) => (s, .error r)

/-- The descriptor of a drain by its sectors: its bytes, and the P of those that were read (R331). -/
def State.drainDesc (s : State) (w : Who) (desc : Nat) : State × Bool × Except Eng (List Byte) :=
  match s.engRead w .A desc 32 with
  | (s, .ok b p) => match s.engRead w .A (desc + 32) 32 with
    | (s, .ok b' p') => (s, p || p', .ok (b ++ b'))
    | (s, r) => (s, p, .error r)
  | (s, r) => (s, false, .error r)

/-- The arrays and the tile of a drain: what it will write, the layout record, and the counts of its blocks; or how it ends. `dp` is
the P of its descriptor. -/
def State.drainPlan (s : State) (w : Who) (tile m : Nat) (bs : List Byte) (dp p : Bool) :
    State × Except Eng (List CWrite × List CWrite × Nat × Nat) :=
    let d := Drain.read m bs
    let t := (s.core w.core).tile tile
    if !(d.ok bs t.smx.isSome && d.fits) then (s, .error (.code 0x13))
    else if t.poison then (s, .error (.code 0x10))
    else match s.drainTab w d.bias d.biasA d.ncol with
      | (s, .error e) => (s, .error e)
      | (s, .ok (bias, bp)) => match s.drainTab w d.act d.actA 67 with
        | (s, .error e) => (s, .error e)
        | (s, .ok (act, ap)) => match s.drainTab w d.ef d.errA (64 * d.ncol) with
          | (s, .error e) => (s, .error e)
          | (s, .ok (err, ep)) =>
            let rows := (List.range 64).map (d.row ⟨bias, act, err⟩ t)
            let after := if d.cmp then sectorWrites d.dsp d.lrec (noP (d.record (d.encoded rows))) (p || dp) else []
            (s, .ok (d.writes t rows (p || dp || bp || ap || ep), after, (rows.map DRow.nan).sum, (rows.map DRow.uf).sum))

/-- A counter of blocks (R363). -/
def satBlk (a b : Nat) : Nat := min (a + b) 0xFFF

/-- One turn of an `MDRN`: a command per issuing thread (R329), after the writes of the drain before it (R364). -/
def State.mdrnTurn (s : State) (i : Instr) (tile m : Nat) (u : Nat × List Nat) : State :=
  let k := s.cg.core
  match s.readOps s.cur.gid u.1 (operands i) Vals.zero with
  | (s, .error r) => s.failRd u.2 r
  | (s, .ok v) =>
    let desc := u32 v.a
    if desc % 64 ≠ 0 then s.trapAll u.2 0x08 desc
    else if v.c.toNat % 4 ≠ 0 then s.trapAll u.2 0x08 v.c.toNat
    else if (s.core k).draining then s.stayAll u.2
    else
      let p := v.p || s.ambient u.2
      let c := s.cmd0 u.1 .G (.mdrn tile) (some (.global, v.c.toNat)) none p
      let c := { c with waits := if ((s.core k).tile tile).due then [c.id] else [] }
      let (s, dp, bs) := s.drainDesc (c.who k) desc
      let c := { c with p := p || dp }
      let (s, plan) := match bs with
        | .ok bs => s.drainPlan (c.who k) tile m bs dp p
        | .error r => (s, .error r)
      match (s, plan) with
      | (s, .error .waits) => (s.dropIvs fun a => a = (c.who k).agent).stayAll u.2
      | (s, .error (.viol n a)) => ((s.dropIvs fun a => a = (c.who k).agent).stayAll u.2).freezeStream k c.ctx n a
      | (s, .error (.code n)) => s.issueCmd u.2 { c with stage := 3, code := n }
      | (s, .error (.ok ..)) => s.issueCmd u.2 c
      | (s, .ok (ws, after, nan, uf)) =>
        let s := s.updTile k tile fun t => { t with nanblk := satBlk t.nanblk nan, ufblk := satBlk t.ufblk uf }
        s.issueCmd u.2 { c with stage := 2, writes := ws, after := after }

/-- `MDRN` (R377). -/
def execMdrn (a : BitVec 7) (c : BitVec 7) (tile : BitVec 2) (m : BitVec 4) (s : State) : Out :=
  let i : Instr := .mdrn a c tile m
  .next (s.matrixGate i fun s => ((s.turns i).foldl (fun s u => s.mdrnTurn i tile.toNat m.toNat u) s).finish)

/-! ### The matrix check (R234, R235) -/

/-- Writes of a drain made or made again as poisoned; the number that performed. -/
def State.poisonWrites (s : State) (core : Nat) (c : Cmd) : List CWrite → State × Nat
  | [] => (s, 0)
  | x :: xs => match s.engWrite1 (c.who core) c.uid { x with poison := true } c.pstop with
    | (s, .ok ..) => let r := s.poisonWrites core c xs; (r.1, r.2 + 1)
    | (s, _) => (s, 0)

/-- A drain of the tile that waits for its check. -/
def Cmd.drains (c : Cmd) (tile : Nat) : Bool := c.kind = .mdrn tile && c.unchecked

/-- The writes that a drain has made when its check fails: at least those made so far. -/
def Cmd.begun (c : Cmd) (written : Nat) : List CWrite :=
  if c.stage = 2 then c.writes.take (max c.count written) else c.writes

/-- A drain of a tile whose check has failed after a drain began: what it wrote is poisoned, and it completes 0x11 with the
count of its sectors; one that had not begun finds the tile poisoned (R235). -/
def State.drainFails (s : State) (core tile : Nat) (c : Cmd) (ws : List CWrite) : State :=
  let s := s.updCmd core c.id fun x => { x with waits := [], after := [] }
  if ws.isEmpty && c.stage = 3 then s
  else if ws.isEmpty then (s.updCmd core c.id fun x => { x with writes := [] }).cmdEnds core c.id 0x10 0
  else
    let (s, n) := s.poisonWrites core c ws
    (s.updTile core tile fun t => { t with poison := true }).cmdEnds core c.id 0x11 (sectorCount (ws.take n))

/-- What each drain of a tile has written; `written` counts for the first, which streams before the others. -/
def drainsBegun (written : Nat) : List Cmd → List (Cmd × List CWrite)
  | [] => []
  | c :: cs => (c, c.begun written) :: cs.map fun c => (c, c.begun 0)

/-- `MATRIX_CHECK` (R234, R235): the check of the last operation on a tile ends. A check that fails before a drain has
begun re-executes the operation, with the same result. -/
def execMatrixCheck (core tile : Nat) (ok : Bool) (written : Nat) (s : State) : Out :=
  if !((s.core core).tile tile).due then .next s.tick
  else
    let s := s.updTile core tile fun t => { t with due := false }
    let cs := drainsBegun written ((s.core core).cmds.filter fun c => c.drains tile)
    let fails := !ok && cs.any fun e => !e.2.isEmpty
    .next (cs.foldl (fun s e =>
      if fails then s.drainFails core tile e.1 e.2 else s.updCmd core e.1.id fun x => { x with waits := [] }) s).tick

end Sys2Proof.Machine
end

