-- ==== Sys2Proof/Machine/Dcor.lean ====
section
/-! DEFINITION. Defect correction: `DCOR.D` and the event of its round (R227, R228, R388 to R390, R394). -/

namespace Sys2Proof.Machine

open Sys2Proof

/-! ### The signature (R388) -/

/-- The descriptor register `gb + i` as a source. -/
def State.descReg (s : State) (t b i : Nat) : Reg := (s.cg.source s.free t (b + i)).getD Reg.zero

/-- A field of two descriptor registers. -/
def State.descPair (s : State) (t b i : Nat) : Nat :=
  (s.descReg t b i).v.toNat + 2 ^ 32 * (s.descReg t b (i + 1)).v.toNat

/-- The rounds that may fail before the limit (R388). -/
def Ctl.limit (c : Ctl) : Nat := if c.dclim.n % 256 = 0 then 256 else c.dclim.n % 256

/-- The checks of a signature before its huddle: `ILLEGAL` for n, `ALIGN` for a base or the stride. -/
def dcorChk (a st n x b : Nat) : Option (Nat × Nat) :=
  if 2 ^ 24 < n then some (0x01, 0)
  else if a % 8 ≠ 0 then some (0x08, a)
  else if st % 8 ≠ 0 then some (0x08, st)
  else if x % 8 ≠ 0 then some (0x08, x)
  else if b % 8 ≠ 0 then some (0x08, b)
  else none

/-- What a thread at the round limit does (R388). -/
def State.atLimit (s : State) (t d h : Nat) : State :=
  if !s.cg.ctl.divst then s.trap t 0x06 0
  else (s.updHuddle s.cg.core h fun x => { x with last := 4 }).writeDst s.cur.gid t (.reg d true) 0x7FF8000000000000#64 true
    (some 2)

/-- One thread's signature. -/
def State.dcorSign (s : State) (i : Instr) (d b h t : Nat) : State :=
  match s.owes t with
  | some (s, c, a) => s.trap t c a
  | none => match s.readOps s.cur.gid t (operands i) Vals.zero with
    | (s, .error r) => s.failRd [t] r
    | (s, .ok v) =>
      let ab := s.descPair t b 0
      let st := (s.descReg t b 2).v.toNat
      let n := (s.descReg t b 3).v.toNat
      let xb := s.descPair t b 4
      let bb := s.descPair t b 6
      let p := v.p || (List.range 8).any (fun j => (s.descReg t b j).p) || s.cg.ambient t
      match dcorChk ab st n xb bb with
      | some (c, a) => s.trap t c a
      | none =>
        let hd := (s.core s.cg.core).huddle h
        if hd.count = 0 || hd.owner ≠ some s.cg.lid then s.trap t 0x10 0
        else if hd.count ≤ hd.signed then s.stayAll [t]
        else if s.cg.ctl.limit ≤ hd.rounds then s.atLimit t d h
        else match s.signThread t h 3 [d, u32 v.a, ab, st, n, xb, bb, s.cg.ctl.dctol.n] p with
          | (s, .misuse) => s.trap t 0x10 0
          | (s, .waits) => s.stayAll [t]
          | (s, .done) => s.park [t] (.huddle h)

/-- `DCOR.D` (R388): each active thread signs and parks until the round completes. -/
def execDcorD (d : BitVec 7) (a : BitVec 7) (b : BitVec 7) (h : BitVec 4) (s : State) : Out :=
  let i : Instr := .dcorD d a b h
  .next (s.gate i fun s => s.signs h.toNat fun s t => s.dcorSign i d.toNat b.toNat h.toNat t)

/-! ### The round (R389) -/

/-- How a signer's reads fail: a trap code with its address, a violation, or a wait of the round. -/
inductive DFail where
  | trap (code addr : Nat)
  | viol (cause addr : Nat)
  | waits
deriving DecidableEq, Repr

/-- An FP64 word of global memory, read by the round's agent. -/
def State.read64 (s : State) (w : Who) (va : Nat) : State × Except DFail (Nat × Bool) :=
  let va := va % 2 ^ 64
  match s.reach w { Acc.read .global va 8 with kind := 3 } with
  | (s, .ok key attr) => (s, .ok (s.mem.num key 8, s.mem.anyP key 8 || attrBit attr 4))
  | (s, .outside attr) => (s, .ok (leNat (s.farBytes va 8), s.farP va || attrBit attr 4))
  | (s, .trap c) => (s, .error (.trap c va))
  | (s, .viol c) => (s, .error (.viol c va))
  | (s, .lost) => (s, .error (.trap 0x0C va))
  | (s, _) => (s, .error .waits)

def add64 (a b : Nat) : Nat := fp64.ne (fvAdd 0 (fp64.value a) (fp64.value b)).1
def neg64 (a : Nat) : Nat := fp64.ne (fvNeg (fp64.value a))
def sub64 (a b : Nat) : Nat := fp64.ne (fvAdd 0 (fp64.value a) (fvNeg (fp64.value b))).1
def mul64 (a b : Nat) : Nat := fp64.ne (fvMul (fp64.value a) (fp64.value b)).1
def abs64 (a : Nat) : Nat := a % 2 ^ 63

/-- The running values of a residual. -/
structure Resid where
  hi : Nat
  lo : Nat
  m  : Nat
deriving DecidableEq, Repr

/-- One step of R389. -/
def Resid.step (r : Resid) (a x : Nat) : Resid :=
  let p := mul64 a x
  let pe := fp64.ne (fvFma 0 (fp64.value a) (fp64.value x) (fvNeg (fp64.value p))).1
  let t := sub64 r.hi p
  let z := sub64 t r.hi
  let te := add64 (sub64 r.hi (sub64 t z)) (sub64 (neg64 p) z)
  ⟨t, add64 r.lo (sub64 te pe), add64 r.m (mul64 (abs64 a) (abs64 x))⟩

/-- The steps of a row from column j on: the final values and the P of what was read. -/
def State.residual (s : State) (w : Who) (row x j : Nat) (r : Resid) (p : Bool) : Nat → State × Except DFail (Resid × Bool)
  | 0 => (s, .ok (r, p))
  | n + 1 => match s.read64 w (row + 8 * j) with
    | (s, .error e) => (s, .error e)
    | (s, .ok (a, ap)) => match s.read64 w (x + 8 * j) with
      | (s, .error e) => (s, .error e)
      | (s, .ok (y, yp)) => s.residual w row x (j + 1) (r.step a y) (p || ap || yp) n

/-- A signer's outcome: residual, P and pass. -/
structure DRes where
  res  : Nat
  p    : Bool
  pass : Bool
deriving DecidableEq, Repr

/-- |res| at most DCTOL times the scale of the row; false where either side is NaN. -/
def dcorPass (res m b tol : Nat) : Bool :=
  let l := fp64.value (abs64 res)
  let r := fp64.value (mul64 tol (add64 m (abs64 b)))
  !fvNan l && !fvNan r && !fvLt r l

/-- The residual of one signer. -/
def State.signerRes (s : State) (w : Who) (g : Sig) : State × Except DFail DRes :=
  let v := fun (i : Nat) => g.vals.getD i 0
  match s.read64 w (v 6 + 8 * v 1) with
  | (s, .error e) => (s, .error e)
  | (s, .ok (b, bp)) => match s.residual w (v 2 + v 1 * v 3) (v 5) 0 ⟨b, 0, 0⟩ bp (v 4) with
    | (s, .error e) => (s, .error e)
    | (s, .ok (r, p)) =>
      let res := add64 r.hi r.lo
      (s, .ok ⟨res, p || g.p, dcorPass res r.m b (v 7)⟩)

/-- Who reads for a signer: the round's agent, under a number of the signer's own, so that each signer has its own refusal
(R168). -/
def Sig.who (g : Sig) (w : Who) : Who :=
  { w with agent := { w.agent with n := 2 ^ 64 * (g.uid + 1) + 16 * g.gid + g.tix } }

/-- Every signer's outcome, in the order of the signatures; a wait of one makes the whole round wait, and the others still make
their reads. -/
def State.roundRes (s : State) (w : Who) : List Sig → State × Option (List (Sig × Except DFail DRes))
  | [] => (s, some [])
  | g :: gs => match s.signerRes (g.who w) g with
    | (s, .error .waits) => ((s.roundRes w gs).1, none)
    | (s, r) => match s.roundRes w gs with
      | (s, some rs) => (s, some ((g, r) :: rs))
      | (s, none) => (s, none)

/-- The intervals of the round's reads close (R192). -/
def State.roundEnd (s : State) (w : Who) (gs : List Sig) : State :=
  { s.dropIvs (fun a => gs.any fun g => a = (g.who w).agent) with nextId := s.nextId + 1 }

/-- A round that waits makes its reads again: what its signers were refused or lost still stands, in the state before it (R168, R32,
R49). -/
def State.roundWaits (s : State) (old : State) (w : Who) (gs : List Sig) : State :=
  let s := (s.roundEnd w gs).updX w.ctx fun x => { x with refused := ((old.xlat? w.ctx).map Xlat.refused).getD x.refused }
  { s with dev := { s.dev with flits := old.dev.flits, linkLost := old.dev.linkLost } }

/-! ### Completion (R227, R390) -/

/-- R227: the sectors of x lose their P. -/
def State.clearX (s : State) (w : Who) (x n : Nat) : State :=
  if n = 0 then s
  else (List.range ((x + 8 * n - 1) / 32 - x / 32 + 1)).foldl (fun s i =>
    match s.reach w { Acc.read .global ((x / 32 + i) * 32 % 2 ^ 64) 32 with kind := 5 } with
    | (s, .ok key _) => { s with mem := s.mem.setBand (key / 32) { s.mem.band (key / 32) with p := false } }
    | (s, _) => s) s

/-- The round closes its signers' regions (R100). -/
def State.closeSigner (s : State) (g : Sig) : State :=
  s.updThr g.gid g.tix fun x => { x with region := { x.region with isOpen := false } }

/-- A signer's end: its result lands and it resumes, or it traps at its `DCOR`, or its group freezes and it resumes after
the `DCOR` once the group is unfrozen (R389). Each violation is logged, also that of a group that is frozen or has left its slot
(R80). -/
def State.dcorEnd (s : State) (ctx h : Nat) (settled : Bool) (e : Sig × Except DFail DRes) : State :=
  let g := e.1
  if !s.hasGrp g.gid || (s.grp g.gid).uid ≠ g.uid then match e.2 with
    | .error (.viol c a) => s.logFreeze 1 ctx c (g.gid / 512) (g.gid % 512) a
    | _ => s
  else
    let s := s.closeSigner g
    match e.2 with
    | .ok r =>
      let p := r.p && !settled
      let v : DWord := BitVec.ofNat 64 r.res
      let d := g.vals.getD 0 0
      let s := s.updGrp g.gid fun x => (x.writeReg g.tix d ⟨v.lo, p⟩).writeReg g.tix (d + 1) ⟨v.hi, p⟩
      s.releaseReady g h
    | .error (.trap c a) => s.release g h (some (c, a))
    | .error (.viol c a) => (s.release g h none).freezeGroup g.gid c a
    | .error .waits => s

/-- The round has completed. -/
def State.dcorDone (s : State) (w : Who) (core h : Nat) (gs : List Sig) (rs : List (Sig × Except DFail DRes)) : State :=
  let v := fun (i : Nat) => (gs.headD ⟨0, 0, 0, 3, 0#32, 0#32, [], [], false, 0⟩).vals.getD i 0
  let pass := rs.all fun e => match e.2 with
    | .ok r => r.pass
    | .error _ => false
  let s := if pass then s.clearX w (v 5) (v 4) else s
  let s := (s.roundEnd w gs).updHuddle core h fun x =>
    if pass then x.next 1 else { x.next 3 with rounds := min (x.rounds + 1) 255 }
  rs.foldl (fun s e => s.dcorEnd w.ctx h pass e) s

/-- `DCOR_ROUND` (R390): a full round of `DCOR` signatures. Its reads begin only after every signer's side-logged writes
have drained (R394), and a `FENCEX` holds it (R193). -/
def execDcorRound (core h : Nat) (s : State) : Out :=
  let hd := (s.core core).huddle h
  let gs := hd.sigs
  match gs.head?, gs.getLast? with
  | some a, some z =>
    let undrained := gs.any fun g => s.undrained (s.agent g.gid g.tix) && (s.grp g.gid).uid = g.uid
    if hd.count = 0 || hd.signed ≠ hd.count || a.kind ≠ 3 || undrained || s.fencexHolds core .G z.id then .next s.tick
    else
      let v := fun (g : Sig) (i : Nat) => g.vals.getD i 0
      if !gs.all (fun g => g.kind = 3 && v g 5 = v a 5 && v g 4 = v a 4) then
        .next ((s.signers gs).foldl State.closeSigner (s.mismatch core h)).tick
      else
        let w : Who := ⟨⟨.G, core, z.gid, z.uid⟩, core, hd.owner.getD 0, (s.grp z.gid).ctx⟩
        match s.roundRes w gs with
        | (t, none) => .next (t.roundWaits s w gs).tick
        | (t, some rs) => .next (t.dcorDone w core h gs rs).tick
  | _, _ => .next s.tick

end Sys2Proof.Machine
end

