-- ==== Sys2Proof/Machine/Launch.lean ====
section
/-! DEFINITION. Launch records (R71 to R78), the shape of a launch (R72, R90), launch spaces (R104), the start of home
groups, the completion of launches (R79, R107), spawn bins (R93, R94), `SPAWN` and `LAUNCH` (R288, R289). -/

namespace Sys2Proof.Machine

open Sys2Proof

/-! ### Records -/

def recLevels (bs : List Byte) : List (Nat × Nat) :=
  (List.range 8).map fun i => (recW bs (0x30 + 8 * i), recW bs (0x34 + 8 * i))
def recRoles (bs : List Byte) : List (Nat × Nat) :=
  (List.range 4).map fun i => (recW bs (0x70 + 8 * i), recW bs (0x74 + 8 * i))
def recPreds (bs : List Byte) : List (Nat × Nat) :=
  (List.range 4).map fun i => (recW bs (0x90 + 8 * i), recW bs (0x94 + 8 * i))

def entryValid (e : Nat × Nat) : Bool := e.2 / 2 ^ 31 % 2 = 1

/-- The fields of a record (R71 to R74); only valid entries are kept. -/
def LFields.parse (bs : List Byte) : LFields :=
  let w := recW bs 0
  { kind := w / 2 ^ 24 % 16, irq := w / 2 ^ 12 % 2 = 1, skipfail := w / 2 ^ 11 % 2 = 1, rlvl := w / 2 ^ 8 % 8,
    prio := w % 8, rid := recW bs 4, entry := recD bs 8, argp := recD bs 0x10, arglen := recW bs 0x18 % 256,
    wdog := recW bs 0x1C, cword := recD bs 0x20, rsbase := recW bs 0x28, rsdepth := recW bs 0x2C % 64,
    levels := ((recLevels bs).filter entryValid).map (fun e => ⟨e.1, e.2 / 16 % 16, e.2 % 16⟩),
    roles := ((recRoles bs).filter entryValid).map
      (fun e => ⟨e.1, e.2 / 2 ^ 9 % 8, e.2 / 2 ^ 6 % 8, 16 * (e.2 / 8 % 8 + 1), e.2 % 8⟩),
    preds := ((recPreds bs).filter entryValid).map (fun e => ⟨e.1, e.2 % 64⟩) }

/-- Home groups on each lane, and their register words (R73). -/
def sumGroups (rs : List Role) : Nat := (rs.map Role.groups).sum
def sumWords (rs : List Role) : Nat := (rs.map fun r => r.groups * 16 * r.regs).sum

def levelOk (rs : List Role) (l : Level) : Bool :=
  1 ≤ l.extent && l.extent ≤ 2 ^ 24 && l.domain ≤ 7 && l.domain ≤ l.scope && l.scope ≤ 7
    && (l.domain ≠ 7 || l.extent = 1) && (l.domain ≠ 1 || l.extent = sumGroups rs) && (l.domain ≠ 2 || l.extent ≤ 128)

/-- Numbers rise strictly. -/
def rises : List Nat → Bool
  | a :: b :: ns => a < b && rises (b :: ns)
  | _ => true

/-- R72: the levels of a record. -/
def levelsOk (bs : List Byte) (f : LFields) : Bool :=
  ((recLevels bs).take f.levels.length).all entryValid && f.levels.all (levelOk f.roles)
    && rises (f.levels.map Level.domain) && f.rlvl < f.levels.length

def roleEntryOk (r : Role) : Bool :=
  r.offset % 4 = 0 && r.role ≤ 3 && 1 ≤ r.groups && r.groups ≤ 4 && r.regs ≤ 80

/-- R73: the roles of a record. -/
def rolesOk (rs : List Role) : Bool :=
  !rs.isEmpty && rs.all roleEntryOk && sumGroups rs ≤ 4 && sumWords rs ≤ 4096
    && (rs.map Role.role).eraseDups.length = rs.length

/-- R76: the record is well-formed. An active-message record takes ROLE0, and its levels are ignored (R78). -/
def recordOk (bs : List Byte) : Bool :=
  let f := LFields.parse bs
  recW bs 0 / 2 ^ 28 = 1 && f.kind ≤ 1 && f.arglen ≤ 128 && f.arglen % 4 = 0 && f.entry % 4 = 0 && f.cword % 4 = 0
    && f.rsbase % 64 = 0 && f.rsdepth ≤ 56 && f.rsbase + 2 ^ 16 * f.rsdepth ≤ 2 ^ 23 && rolesOk f.roles
    && (if f.kind = 1 then entryValid ((recRoles bs).headD (0, 0)) else levelsOk bs f)

/-! ### The shape of a launch (R72, R90) -/

/-- The extent of a domain's level, or its default. -/
def extOf (ls : List Level) (d dflt : Nat) : Nat := ((ls.find? fun l => l.domain = d).map Level.extent).getD dflt

/-- The outermost valid level below pod. -/
def outermost (ls : List Level) : Option Level := (ls.filter fun l => l.domain < 7).getLast?

/-- The gangs of a launch on a device. -/
def gangCount (ls : List Level) : Nat :=
  match outermost ls with
  | some l => if l.domain < 2 then 1 else l.extent
  | none => 1

/-- Cores of one instance of a domain. -/
def coresIn (ls : List Level) (dom : Nat) : Nat := ([3, 4, 5].map fun d => if d < dom then extOf ls d 1 else 1).foldl (· * ·) 1

/-- Lanes on each core of a gang. -/
def lanesOf (ls : List Level) : Nat := if 3 ≤ gangDom ls then extOf ls 2 1 else 1

/-- Threads of a home group: 16, or the extent of the thread level where it is below 16. -/
def threadsOf (ls : List Level) : Nat := min 16 (extOf ls 0 16)

/-! ### Launch spaces -/

/-- A held space of which every mapped block is saved gives up its slot (R106). -/
def Space.gaveUp (p : Space) : Bool := p.held && p.blocks.all fun b => match b.2 with
  | .saved _ => true
  | .phys _ => false

/-- The lowest free space slot of a core (R104). -/
def Core.freeSlot? (c : Core) : Option Nat :=
  (List.range 4).find? fun n => c.spaces.all fun p => p.slot ≠ n || p.gaveUp

/-- A space opens; one that gave up the slot has none any more. -/
def Core.openSpace (c : Core) (lid ctx slot : Nat) : Core :=
  { c with spaces := c.spaces.map (fun p => if p.slot = slot then { p with slot := 5 } else p)
      ++ [⟨lid, ctx, slot, CReg.of 0x200, [], false, slot⟩] }

/-- Groups of a launch on a core. -/
def State.groupsOn (s : State) (core lid : Nat) : List Nat :=
  (s.groups.filter fun e => e.2.core = core && e.2.lid = lid && e.2.kind ≠ .pitcher).map Prod.fst

/-- Work of a launch on a core that keeps its space open: groups, entries of the tracker, bins. -/
def State.busyOn (s : State) (core lid : Nat) : Bool :=
  let c := s.core core
  !(s.groupsOn core lid).isEmpty || (c.tracker.any fun t => t.lid = lid) || (c.bins.any fun b => b.lid = lid)

/-- The updates on their way to a launch's space on a core that no landing entry there takes, for it has lapsed or is bound anew,
count as refused (R361). -/
def State.countMissed (s : State) (core lid : Nat) : State :=
  let c := s.core core
  (c.upds.filter fun u => u.lid = lid && !(c.land? u.n).any fun l => l.takes u).foldl (fun s u => s.updRefused core u false) s

/-- What the subscribers of a launch on a core have missed until now, before their space closes: also the open batches for those that
have lapsed (R361). -/
def State.lastMissed (s : State) (core lid : Nat) : State :=
  (((s.core core).lands.filter fun l => l.lid = lid && l.st = .lapsed).foldl (fun s l => s.lastUpdates (core, l.n)) s).countMissed
    core lid

/-- A launch space closes (R104): what it stored before is forwarded (R345), its blocks are free, its huddles are disarmed (R316),
its landing entries are FREE and its source entries end (R346), and no update that one of them still took counts as refused. -/
def State.closeSpace (s : State) (core lid : Nat) : State :=
  let s := (s.flushLaunch core lid).lastMissed core lid
  let c := s.core core
  let ns := (c.lands.filter fun l => l.lid = lid).map LandEnt.n
  let s := ns.foldl (fun s n => s.freeLand core n) s
  let gone := ((s.core core).upds.filter fun u => u.lid = lid).map Upd.id
  let s := s.updsOver gone
  s.updCore core fun c => { c with
    spaces := c.spaces.filter fun p => p.lid ≠ lid
    srcs := c.srcs.map fun e => if e.lid = lid then SrcEnt.empty else e
    huddles := c.huddles.map fun h => if h.owner = some lid then Huddle.reset else h
    refs := c.refs.filter fun r => r.lid ≠ lid
    bins := c.bins.filter fun b => b.lid ≠ lid }

/-- The spaces of a launch that nothing keeps open: one of a held instance becomes held (R103), and another closes. -/
def State.settleSpace (s : State) (core lid : Nat) : State :=
  if ((s.core core).space? lid).isNone then s
  else
    if s.helds.any fun h => h.lid = lid && h.groups.any fun g => g.gid / 512 = core then s.holdSpace core lid
    else if s.busyOn core lid then s
    else s.closeSpace core lid

/-! ### The start of a home group (R114, R115) -/

/-- A home group with its threads at their entry; the `g` registers come with its first clause (R75). -/
def Group.fresh (uid core lix slot lid ctx : Nat) (kind : GKind) (role regs eclass entry : Nat)
    (threads : List Thread) : Group :=
  { Group.absent with
    uid := uid, core := core, lix := lix, slot := slot, lid := lid, ctx := ctx, kind := kind, role := role, regs := regs,
    eclass := eclass, entry := entry, threads := threads, g := List.replicate 32 Reg.zero,
    tags := List.replicate 8 ⟨0, 0, 0, 0⟩, argsDue := true }

/-- The n first threads start at the entry, and the others are inactive for life. -/
def startThreads (entry lix n : Nat) : List Thread :=
  (List.range 16).map fun t => if t < n then Thread.start entry (genSeed 0 lix t) else Thread.absent

/-- The groups of a lane. -/
def State.laneGroups (s : State) (core lix : Nat) : List Group :=
  ((s.groups.filter fun e => e.2.core = core && e.2.lix = lix && e.2.kind ≠ .pitcher).map Prod.snd)

def State.freeHomes (s : State) (core lix : Nat) : List Nat :=
  [0, 1, 2, 3].filter fun n => (s.laneGroups core lix).all fun g => g.slot ≠ n

/-- Register words in use on a lane. -/
def State.laneWords (s : State) (core lix : Nat) : Nat := ((s.laneGroups core lix).map fun g => 16 * g.regs).sum

/-- A group takes a slot. -/
def State.putGroup (s : State) (core lix slot lid ctx : Nat) (kind : GKind) (role regs eclass entry : Nat)
    (threads : List Thread) : State :=
  let g := { Group.fresh s.nextId core lix slot lid ctx kind role regs eclass entry threads with last := s.now }
  { s with groups := kset s.groups (gidOf core lix slot) g, nextId := s.nextId + 1 }

/-! ### Completion (R74, R79, R107) -/

/-- A launch of which every gang was placed has nothing left. -/
def State.launchDone (s : State) (l : Launch) : Bool :=
  l.started && gangCount l.f.levels ≤ l.placed && (s.groups.all fun e => e.2.lid ≠ l.lid || e.2.kind = .pitcher)
    && (s.helds.all fun h => h.lid ≠ l.lid)
    && s.cores.all fun k => (k.2.tracker.all fun t => t.lid ≠ l.lid) && k.2.bins.all fun b => b.lid ≠ l.lid

def State.queue (s : State) (part q : Nat) : Queue := kget Queue.reset s.queues (64 * part + q)
def State.updQueue (s : State) (part q : Nat) (f : Queue → Queue) : State :=
  { s with queues := kset s.queues (64 * part + q) (f (s.queue part q)) }

/-- R69: records in a ring; a RINGLOG outside 4 to 16 acts as 4. -/
def Queue.ring (q : Queue) : Nat := 2 ^ (if 4 ≤ q.ringlog && q.ringlog ≤ 16 then q.ringlog else 4)

/-- The queue that watches a launch and signals for it (R79, R109). -/
def Launch.home (l : Launch) : Nat := if l.queue = 64 then l.srcq else l.queue

/-- A launch that waits for another after the other's completion. -/
def Launch.after (lid code : Nat) (x : Launch) : Launch :=
  if x.waits.contains lid then
    { x with waits := x.waits.filter (· ≠ lid), predFail := x.predFail || code ≠ 1 }
  else x

/-- The marks of requests for pre-emption that are over lapse (R102). -/
def State.dropMarks (s : State) (gone : Mark → Bool) : State :=
  let f := fun (g : Group) => if g.marked.any gone then { g with marked := none } else g
  { s with groups := s.groups.map fun (n, g) => (n, f g) }

/-- A launch is gone: its completion goes into its queue's history (R74), its successors wait for it no more, its
watchdog counter returns to 0 (R109), and its vector is signalled (R79); a VECTOR past 63 is signalled as it stands (log
entry 52). -/
def State.launchGone (s : State) (l : Launch) (code : Nat) (irq : Bool) : State :=
  let s := if l.queue < 64 then s.updQueue l.ctx l.queue fun q => { q with
      history := ((l.f.rid, code) :: q.history).take 64
      stage := if q.stage = some l.lid then none else q.stage } else s
  let s := s.updQueue l.ctx l.home fun q => { q with counter := 0 }
  let s := { s with launches := (s.launches.filter fun (x : Launch) => x.lid ≠ l.lid).map (Launch.after l.lid code) }
  let s := s.dropMarks fun m => m.lid = l.lid
  let v := (s.queue l.ctx l.home).vector
  if irq && l.f.irq && v ≠ 0 then s.signal v else s

/-- The host queue of a launch freezes (R175). -/
def State.freezeQueue (s : State) (part q cause addr : Nat) : State :=
  (s.updQueue part q fun q => { q with frozen := true }).logFreeze 3 part cause 0 q addr

/-- The completion word is written, and the launch is gone (R79); without a word only the latter. A closed granule
makes the write wait, and a violation freezes its queue (R175). A frozen queue makes no access (R176), so it writes no word
(log entry 53). DESIGN CHOICE (log entry 84): a word whose granule's record ends refused is made again, with a fault record of its own,
and a launch whose word ended with its Ryuzin link completes without it. -/
def State.completeLaunch (s : State) (l : Launch) (code count : Nat) : State :=
  if l.f.cword = 0 then s.launchGone l code true
  else if (s.queue l.ctx l.home).frozen then s
  else match s.hwWrite (hwWho l.ctx (lidNo l.lid)) l.f.cword (leBytes 4 (cword code count)) with
    | (s, .ok ..) => s.launchGone l code true
    | (s, .viol c a) => s.freezeQueue l.ctx l.home c a
    | (s, .code _) => s.launchGone l code true
    | (s, .waits) => s

/-- Launches that have nothing left complete. -/
def State.completions (s : State) : State :=
  s.launches.foldl (fun s l => match s.launch? l.lid with
    | none => s
    | some l =>
      if !s.launchDone l then s
      else if l.fault then s.completeLaunch l 0x13 l.trapped
      else s.completeLaunch l 1 l.threads) s

/-- R107: what keeps an entry of the retirement tracker. -/
def State.drained (s : State) (core : Nat) (t : Track) : Bool :=
  let c := s.core core
  (c.xfers.all fun x => x.uid ≠ t.uid) && (c.side.all fun e => e.uid ≠ t.uid) && (c.cmds.all fun x => x.uid ≠ t.uid)
    && ((c.starts ++ c.run.toList).all fun p => p.uid ≠ t.uid)
    && c.huddles.all fun h => h.sigs.all fun x => x.uid ≠ t.uid

/-- `GROUP_RETIRE` (R107): the entry frees, its threads' `TAIL` is a release at pod scope (R178), and the space and
the launch may end. -/
def execGroupRetire (core idx : Nat) (s : State) : Out :=
  match (s.core core).tracker[idx]? with
  | none => .next s.tick
  | some t =>
    if !s.drained core t then .next s.tick
    else
      let s := s.updCore core fun c => { c with tracker := c.tracker.eraseIdx idx }
      let s := s.dropIvs fun a => a.path = .T && a.gid / 2 ^ 21 = t.uid + 1
      let waiting := (s.groups.filter fun e => e.2.core = core && e.2.liveTids.isEmpty).map Prod.fst
      let s := (waiting.take 1).foldl State.closeGroup s
      .next ((s.settleSpace core t.lid).completions).tick

/-! ### Spawn bins (R93, R94) -/

/-- The bin of a key, and whether a thread can enter it (R93). -/
def Core.binFor (c : Core) (lid entry : Nat) : Option Nat :=
  match c.bins.findIdx? fun b => b.lid = lid && b.entry = entry with
  | some i => if ((c.bins[i]?.map Bin.threads).getD []).length < 16 then some i else none
  | none => if c.bins.length < 16 then some c.bins.length else none

/-- A thread enters a bin. -/
def Core.enterBin (c : Core) (i : Nat) (b : Bin) (rs : List Reg) : Core :=
  match c.bins[i]? with
  | some x => { c with bins := c.bins.set i { x with threads := x.threads ++ [rs] } }
  | none => { c with bins := c.bins ++ [{ b with threads := [rs] }] }

/-- One turn of a `SPAWN`; after a thread that cannot be placed every later thread parks. DESIGN CHOICE (log entry 67): a bin that
threads of home groups with different roles enter takes the role, registers and energy class of the first. -/
def State.spawnTurn (s : State) (i : Instr) (b n : Nat) (u : Nat × List Nat) : State :=
  let gid := s.cur.gid
  match s.readOps gid u.1 (operands i) Vals.zero with
  | (s, .error r) => s.failRd u.2 r
  | (s, .ok v) =>
    let g := s.cg
    let entry := v.a.toNat
    let args := (List.range n).map fun k => g.source s.free u.1 (b + k)
    if args.any Option.isNone then s.trapAll u.2 0x02 0
    else if entry = 0 || entry % 4 ≠ 0 then s.trapAll u.2 0x01 0
    else match (s.core g.core).binFor g.lid entry with
      | none => s.stayAll u.2
      | some k =>
        let bin : Bin := ⟨g.lid, g.ctx, entry, [], s.now, g.role, g.regs, g.eclass, g.kind = .message, false, false⟩
        (s.updCore g.core fun c => c.enterBin k bin (args.filterMap id)).closeRegions u.2

/-- `SPAWN` (R288). -/
def execSpawn (c : BitVec 7) (a : BitVec 7) (b : BitVec 7) (s : State) : Out :=
  let i : Instr := .spawn c a b
  .next (s.gate i fun s => ((s.turns i).foldl (fun s u =>
    if s.sweep.stays.isEmpty then s.spawnTurn i b.toNat c.toNat u else s.stayAll u.2) s).finish)

/-- The timer of a bin has reached BINT, in steps (R93, log entry 1); of a space that has not opened yet it has its reset value
and a LIMIT of 0 acts as 1 (R95). -/
def Core.binDue (c : Core) (now : Nat) (b : Bin) : Bool :=
  b.since + max (((c.space? b.lid).map fun x => x.bint.n).getD 0x200) 1 ≤ now

/-- `BIN_TIMER_EXPIRY` (R93): a bin whose timer has reached BINT is due. -/
def execBinTimerExpiry (core bin : Nat) (s : State) : Out :=
  match (s.core core).bins[bin]? with
  | none => .next s.tick
  | some b => .next (if (s.core core).binDue s.now b
      then s.updCore core fun c => { c with bins := c.bins.set bin { b with due := true } } else s).tick

/-- A launch with a `matrix` or `epilogue` role (R363). -/
def State.usesMatrix (s : State) (lid : Nat) : Bool :=
  match s.launch? lid with
  | some l => l.f.roles.any fun r => r.role = 2 || r.role = 3
  | none => false

/-- A space slot is free (R104, R106). -/
def Core.slotFree (c : Core) (n : Nat) : Bool := n < 4 && c.spaces.all fun p => p.slot ≠ n || p.gaveUp

/-- A held space runs again: it keeps its slot, or takes its original one where that is free, or the lowest free one (R106). -/
def Core.reopen (c : Core) (lid : Nat) : Core :=
  match c.space? lid with
  | none => c
  | some p =>
    if !p.held then c
    else
      let slot := if p.slot ≠ 5 then p.slot else if c.slotFree p.orig then p.orig else c.freeSlot?.getD 3
      let yield_ := fun (x : Space) => if x.lid ≠ lid && x.slot = slot then { x with slot := 5 } else x
      { c with spaces := c.spaces.map yield_ }.updSpace lid fun p => { p with slot := slot, held := false }

/-- A space of the launch is open, or can open: a free slot, and no other open space with a matrix role beside one
(R91, R363). -/
def State.spaceOk (s : State) (core lid : Nat) : Bool :=
  let c := s.core core
  let others := c.spaces.any fun p => p.lid ≠ lid && !p.held && s.usesMatrix p.lid
  (match c.space? lid with
    | some p => !p.held || c.freeSlot?.isSome || p.slot ≤ 4 || c.slotFree p.orig
    | none => c.freeSlot?.isSome) && !(s.usesMatrix lid && others)

/-- The space of a launch is open on the core. -/
def State.ensureSpace (s : State) (core lid ctx : Nat) : State :=
  match (s.core core).space? lid with
  | some _ => s.updCore core fun c => c.reopen lid
  | none =>
    let slot := if messageLid ctx = lid then 4 else (s.core core).freeSlot?.getD 3
    s.updCore core fun c => c.openSpace lid ctx slot

/-- The lane that a bin's group takes (R94): the fewest occupied slots, ties to the lower `lix`. -/
def State.binLane (s : State) (core regs : Nat) : Option Nat :=
  let ok := (List.range 128).filter fun x => !(s.freeHomes core x).isEmpty && s.laneWords core x + 16 * regs ≤ 4096
  let load := fun (x : Nat) => (s.laneGroups core x).length
  match (ok.map load).min? with
  | none => none
  | some m => ok.find? fun x => load x = m

/-- The threads of a bin: their registers, then settled zero (R52). -/
def Bin.start (b : Bin) (lix : Nat) : List Thread :=
  (List.range 16).map fun t => match b.threads[t]? with
    | some rs => { Thread.start b.entry (genSeed 0 lix t) with x := (rs ++ List.replicate 80 Reg.zero).take 80 }
    | none => Thread.absent

/-- The active-message record of a context on a core, or its default (R78). -/
def Core.amRec (c : Core) (ctx : Nat) : AmRec :=
  (c.amRecs.find? fun a => a.ctx = ctx).getD ⟨ctx, 0, 16, 0, 0, 0, 0, 0⟩

/-- The role, registers and energy class that a bin's group takes: of an active message's those of the record as it stands when the
group launches (R78, R94). -/
def Core.binRole (c : Core) (b : Bin) : Bin :=
  let a := c.amRec b.ctx
  if b.record then { b with role := a.role, regs := a.regs, eclass := a.eclass } else b

/-- `BIN_LAUNCH` (R94): a full or expired bin places its group, or keeps its threads. -/
def execBinLaunch (core bin : Nat) (s : State) : Out :=
  let c := s.core core
  match (c.bins[bin]?).map c.binRole with
  | none => .next s.tick
  | some b =>
    let room := if b.message then true else s.spaceOk core b.lid
    if c.scan || !room || (b.threads.length < 16 && !b.due) then .next s.tick
    else match s.binLane core b.regs with
      | none => .next s.tick
      | some lix =>
        let slot := (s.freeHomes core lix).headD 0
        let s := s.updCore core fun c => { c with bins := c.bins.eraseIdx bin }
        let s := s.ensureSpace core b.lid b.ctx
        let s := s.updLaunch b.lid fun l => { l with threads := l.threads + b.threads.length }
        .next (s.putGroup core lix slot b.lid b.ctx (if b.message then .message else .spawned) b.role b.regs b.eclass
          b.entry (b.start lix)).tick

/-- A message that waits at a port. -/
def lateMsg (e : Nat × Instr) : Option InMsg :=
  match e.2 with
  | .activeMessageArrival (.far m) => some m
  | _ => none

/-- A message of another device that may enter its core's queue: a bound partition of its context holds the core (R50). -/
def State.amsgOk (s : State) (m : InMsg) : Bool := (s.phys m.core).isSome && s.coreCtx m.core = some m.ctx

/-- It enters the queue. -/
def State.amsgTakes (s : State) (m : InMsg) : State :=
  s.updCore m.core fun c => { c with inq := c.inq ++ [⟨m.ctx, m.entry, m.words.map (fun w => ⟨w.1, w.2⟩), m.reply⟩] }

/-- A message from another device enters the inbound queue of its core (R50). It waits at a port that holds its traffic (R32,
R81) and in the network while the queue is full for its class, behind those of its class that already wait (R51), and a core that no
bound partition of its context holds refuses it. -/
def State.amsgIn (s : State) (m : InMsg) : State :=
  let i : Instr := .activeMessageArrival (.far m)
  let waits := (s.dev.linkIn.filterMap lateMsg).any fun x => x.core = m.core && x.reply = m.reply
  if s.link m.link ≠ .trained then s.linkKeeps m.link i
  else if !s.amsgOk m then s
  else if waits || !(s.core m.core).roomFor m.reply then { s with dev := { s.dev with linkIn := s.dev.linkIn ++ [(m.link, i)] } }
  else s.amsgTakes m

/-- A message for the core that came over a trained link and waits for room. -/
def State.lateFor (s : State) (core : Nat) (e : Nat × Instr) : Bool :=
  s.link e.1 = .trained && (lateMsg e).any fun m => m.core = core && (!s.amsgOk m || (s.core core).roomFor m.reply)

/-- The first message that waited for room in the core's queue enters it, or is refused there (R51). -/
def State.amsgLate (s : State) (core : Nat) : State :=
  match s.dev.linkIn.find? (s.lateFor core) with
  | none => s
  | some e =>
    let s : State := { s with dev := { s.dev with linkIn := s.dev.linkIn.erase e } }
    match lateMsg e with
    | some m => if s.amsgOk m then s.amsgTakes m else s
    | none => s

/-- The head of a core's inbound queue goes into the bin of its handler entry, or waits while the bins hold other keys; a message that
waited for room enters the queue first (R51). -/
def State.amsgBin (s : State) (core : Nat) : State :=
  let s := s.amsgLate core
  let c := s.core core
  match c.inq with
  | [] => s
  | m :: ms => match c.binFor (messageLid m.ctx) m.entry with
    | none => s
    | some k =>
      let a := c.amRec m.ctx
      let b : Bin := ⟨messageLid m.ctx, m.ctx, m.entry, [], s.now, a.role, a.regs, a.eclass, true, true, false⟩
      s.updCore core fun c => { c.enterBin k b m.regs with inq := ms }

/-- `ACTIVE_MESSAGE_ARRIVAL` (R50, R51): a message arrives from another device, or the head of a core's inbound queue leaves it
for its bin. -/
def execActiveMessageArrival (x : AmStep) (s : State) : Out :=
  .next (match x with
    | .far m => s.amsgIn m
    | .binned core => s.amsgBin core).tick

/-! ### LAUNCH (R86, R289) -/

/-- The records of a partition's device pool (R86). -/
def State.pool (s : State) (ctx : Nat) : List Launch := s.launches.filter fun l => l.ctx = ctx && l.queue = 64 && !l.started

/-- R74: the predecessors of a record as they stand when it is read: the launches to wait for, and whether one has
already failed. DESIGN CHOICE (log entry 68): of several live records with one PQUEUE and PRID it waits for all, and a record that
names itself does not count as staged. -/
def State.predsOf (s : State) (ctx : Nat) (f : LFields) : List Nat × Bool :=
  f.preds.foldl (fun acc p =>
    let live := (s.launches.filter fun l => l.ctx = ctx && l.queue = p.pqueue && l.f.rid = p.prid).map Launch.lid
    if !live.isEmpty then (acc.1 ++ live, acc.2)
    else match kfind (s.queue ctx p.pqueue).history p.prid with
      | some c => (acc.1, acc.2 || c ≠ 1)
      | none => acc) ([], false)

/-- A record joins the launches (R85, R88). DESIGN CHOICE (log entry 69): PRIOCAP is sampled when the record is staged; a later
write of it does not touch the record. -/
def State.addLaunch (s : State) (ctx queue srcq addr : Nat) (bs : List Byte) (cap : Nat) : State :=
  let f := LFields.parse bs
  let ps := if f.kind = 1 then ([], false) else s.predsOf ctx f
  let l : Launch := ⟨s.nextId, ctx, queue, srcq, f, addr, !recordOk bs, min f.prio cap, ps.1, ps.2, false, 0, 0, s.now, 0, 0,
    false⟩
  { s with launches := s.launches ++ [l], nextId := s.nextId + 1 }

/-- The bytes of a record, by sectors, as a relaxed load of the thread. -/
def State.recordLoad (s : State) (w : Who) : List (Nat × Nat) → State × Except (Res × Nat) (List Byte)
  | [] => (s, .ok [])
  | c :: cs =>
    let rest := fun (s : State) (bs : List Byte) => match s.recordLoad w cs with
      | (s, .ok more) => (s, .ok (bs ++ more))
      | e => e
    match s.reach w (Acc.read .global c.1 c.2) with
    | (s, .ok key _) => rest s (s.mem.read key c.2)
    | (s, .outside _) => rest s (s.farBytes c.1 c.2)
    | (s, r) => (s, .error (r, c.1))

/-- One turn of a `LAUNCH`. DESIGN CHOICE (log entry 70): a record that an active-message group submits, which belongs to no
launch, has queue 0 as the queue that started it. -/
def State.launchTurn (s : State) (i : Instr) (u : Nat × List Nat) : State :=
  let gid := s.cur.gid
  match s.readOps gid u.1 (operands i) Vals.zero with
  | (s, .error r) => s.failRd u.2 r
  | (s, .ok v) =>
    let va := v.a.toNat
    let g := s.cg
    if va % 256 ≠ 0 then s.trapAll u.2 0x08 va
    else if 32 ≤ (s.pool g.ctx).length then s.stayAll u.2
    else match s.recordLoad (s.who gid u.1) (chunks va 256) with
      | (s, .error (.closed, _)) => s.holdAll u.2 true false
      | (s, .error (r, a)) => s.failRes u.2 r a
      | (s, .ok bs) =>
        if !recordOk bs then s.violAll u.2 0x20 va
        else
          let srcq := ((s.launch? g.lid).map Launch.home).getD 0
          let cap := (s.queue g.ctx srcq).priocap
          (s.addLaunch g.ctx 64 srcq va bs cap).closeRegions u.2

/-- `LAUNCH` (R289). -/
def execLaunch (a : BitVec 7) (s : State) : Out :=
  let i : Instr := .launch a
  .next (s.gate i fun s => ((s.turns i).foldl (fun s u => s.launchTurn i u) s).finish)

end Sys2Proof.Machine
end

