-- ==== Sys2Proof/Machine/Pitch.lean ====
section
/-! DEFINITION. The pitcher slot (R139 to R141, R350 to R354). -/

namespace Sys2Proof.Machine

open Sys2Proof

/-- The nibble of a queue in a binding word: used, reserved bit, operand name (R350). -/
def bindNibble (w q : Nat) : Bool × Bool × Nat :=
  let n := w / 2 ^ (4 * q) % 16
  (n / 8 = 1, n / 4 % 2 = 1, n % 4)

/-- The queues that a binding word uses, with their names. -/
def bindings (w : Nat) : List (Nat × Nat) :=
  ((List.range 8).filter fun q => (bindNibble w q).1).map fun q => (q, (bindNibble w q).2.2)

/-- The checks of a binding word by value (R350). -/
def State.bindOk (s : State) (core gid w : Nat) : Bool :=
  let bs := bindings w
  let c := s.core core
  ((List.range 8).all fun q => !(bindNibble w q).2.1) && (bs.map Prod.snd).eraseDups.length = bs.length
    && bs.all fun b => (c.pqs.getD b.1 PQ.reset).bound.isNone && (c.queueOf gid b.2).isNone

/-- The queues of a program are bound to the issuing group from here on (R140). -/
def Core.bindQueues (c : Core) (uid gid prog : Nat) (bs : List (Nat × Nat)) : Core :=
  bs.foldl (fun c b => { c with pqs := c.pqs.set b.1 ⟨some (uid, gid, b.2), [], prog, none⟩ }) c

/-- One turn of a `PITCH`. -/
def State.pitchTurn (s : State) (i : Instr) (c : Nat) (u : Nat × List Nat) : State :=
  let gid := s.cur.gid
  match s.readOps gid u.1 (operands i) Vals.zero with
  | (s, .error r) => s.failRd u.2 r
  | (s, .ok v) => match s.payload u.1 c 8 with
    | none => s.trapAll u.2 0x02 0
    | some init =>
      let g := s.cg
      let w := u32 v.b
      if !s.bindOk g.core gid w then s.trapAll u.2 0x01 0
      else if 8 ≤ (s.core g.core).starts.length then s.stayAll u.2
      else
        let gs := (List.range 32).map fun k => g.readReg s.free u.1 (80 + k)
        let p : Prog := ⟨s.nextId, gid, g.uid, g.lix, g.lid, g.ctx, v.a.toNat, u32 v.d, init, gs, g.ctl.fpctl,
          (bindings w).map Prod.fst, s.ambient u.2, 0, 0⟩
        let s := { s with nextId := s.nextId + 1 }
        (s.updCore g.core fun k => { k.bindQueues g.uid gid p.id (bindings w) with starts := k.starts ++ [p] }).closeRegions
          u.2

/-- `PITCH` (R350). -/
def execPitch (d : BitVec 7) (a : BitVec 7) (b : BitVec 7) (c : BitVec 7) (s : State) : Out :=
  let i : Instr := .pitch d a b c
  .next (s.gate i fun s => ((s.turns i).foldl (fun s u => s.pitchTurn i c.toNat u) s).finish)

/-- `QPUSH` (R352): one entry of all elements; a full queue stalls the program. -/
def execQpush (q : BitVec 7) (a : BitVec 7) (s : State) : Out :=
  let i : Instr := .qpush q a
  .next (s.gate i fun s => match s.cg.kind, (s.core s.cg.core).run with
    | .pitcher, some p =>
      let n := q.toNat
      let e := (s.core s.cg.core).pqs.getD n PQ.reset
      if !p.queues.contains n then (s.trapAll s.cur.mask 0x01 0).finish
      else if 64 ≤ e.entries.length then (s.stayAll s.cur.mask).finish
      else
        let (s, es) := s.cur.mask.foldl (fun (acc : State × List Reg) t =>
          match acc.1.readOps acc.1.cur.gid t (operands i) Vals.zero with
          | (s, .ok v) => (s, acc.2 ++ [⟨v.a.lo, v.p || s.ambient [t]⟩])
          | (s, .error r) => (s.failRd [t] r, acc.2)) (s, [])
        let bound := e.bound.isSome && e.prog = p.id
        (if bound && s.sweep.traps.isEmpty then s.updCore s.cg.core fun c =>
          { c with pqs := c.pqs.set n { e with entries := e.entries ++ [es] } } else s).finish
    | _, _ => s.illegal)

/-- `QDRN` (R354). -/
def execQdrn (s : State) : Out :=
  .next (s.gate .qdrn fun s =>
    let g := s.cg
    let s := s.unbind g.core s.cur.gid
    let mine := match (s.core g.core).run with
      | some p => p.gid = s.cur.gid && p.uid = g.uid
      | none => false
    ((if mine then s.endProgram g.core 0 0 else s).closeRegions s.cur.mask).finish)

/-- An element of a program at its start (R351). -/
def Prog.element (p : Prog) (seed e : Nat) : Thread :=
  { Thread.start p.entry (genSeed seed p.lix e) with
    x := (p.init ++ List.replicate 80 Reg.zero).take 80
    taint := if p.taint then [⟨2 ^ 64, 0⟩] else [] }

/-- The group of a program's elements. -/
def Prog.group (p : Prog) (core : Nat) : Group :=
  let ctl := { Ctl.reset with fpctl := p.fpctl }
  let g := Group.fresh p.id core p.lix 0 p.lid p.ctx .pitcher 0 16 0 p.entry ((List.range 16).map (p.element ctl.seed))
  { g with g := p.g, ctl := ctl, argsDue := false }

/-- `PITCHER_START` (R350): the next program of the start queue, unless its stream is frozen or a `FENCEX` holds it (R176, R193);
no iterations end it at once. -/
def execPitcherStart (core : Nat) (s : State) : Out :=
  let c := s.core core
  match c.run, c.starts with
  | none, p :: ps =>
    if s.engHeld core p.ctx .P p.id then .next s.tick
    else
    let s := s.updCore core fun c => { c with run := some p, starts := ps }
    .next (if p.iters = 0 then s.endProgram core 0 0 else s.setGrp (pitchGid core) (p.group core)).tick
  | _, _ => .next s.tick

/-- The bindings of a running program have ended (R140). -/
def Core.pitchOver (c : Core) : Bool :=
  match c.run with
  | some p => !p.queues.isEmpty && p.queues.all fun q =>
      let e := c.pqs.getD q PQ.reset
      e.bound.isNone || e.prog ≠ p.id
  | none => false

/-- `PITCHER_END` (R353): a program whose bindings have ended ends at its next instruction boundary. -/
def execPitcherEnd (core : Nat) (s : State) : Out :=
  .next (if (s.core core).pitchOver then s.endProgram core 0 0 else s).tick

end Sys2Proof.Machine
end

