-- ==== Sys2Proof/Machine/Sched.lean ====
section
/-! DEFINITION. The queue scheduler (R84 to R92), pre-emption and restart (R100 to R103), lazy save (R105, R106), and
the kill of a context with the watchdog (R109 to R111). -/

namespace Sys2Proof.Machine

open Sys2Proof

/-- Insertion into a list that `before` orders, after equals. -/
def insertBy {α : Type} (before : α → α → Bool) (x : α) : List α → List α
  | [] => [x]
  | y :: ys => if before x y then x :: y :: ys else y :: insertBy before x ys

/-- A stable sort. -/
def sortBy {α : Type} (before : α → α → Bool) (xs : List α) : List α := xs.foldl (fun acc x => insertBy before x acc) []

/-! ### Effective priority (R88) -/

/-- The effective priority of a launch; the chain of predecessors is no longer than the list of launches. -/
def State.effPrioN (s : State) (lid : Nat) : Nat → Nat
  | 0 => 0
  | fuel + 1 =>
    let own := ((s.launch? lid).map Launch.prio).getD 0
    (s.launches.filter fun x => x.waits.contains lid).foldl (fun m x => max m (s.effPrioN x.lid fuel)) own

def State.effPrio (s : State) (lid : Nat) : Nat := s.effPrioN lid (s.launches.length + 1)

/-- The effective priority of a group: that of its launch, or for an active-message group the highest of the context's started
records on its core (R94). -/
def State.groupPrio (s : State) (g : Group) : Nat :=
  if g.kind ≠ .message then s.effPrio g.lid
  else (s.launches.filter fun l => l.ctx = g.ctx && l.started && ((s.core g.core).space? l.lid).isSome).foldl
    (fun m l => max m (s.effPrio l.lid)) 0

/-! ### Placement (R90, R91) -/

/-- The live logical cores of a partition, each with its physical core. -/
def State.liveCores (s : State) (part : Nat) : List (Nat × Nat) :=
  let m := (s.parts.getD part Part.reset).quadmask
  s.dev.coreMap.filter fun e => m / 2 ^ (e.2 / 4) % 2 = 1

/-- Cores in the order of R91: quads by headroom, ties by number, and ascending cores within a quad. -/
def State.placeOrder (s : State) (part : Nat) : List (Nat × Nat) :=
  let cs := s.liveCores part
  let h := fun (q : Nat) => hdrmInt (kget 0#8 s.dev.hdrm q)
  let qs := sortBy (fun a b => h b < h a || (h a = h b && a < b)) (cs.map fun e => e.2 / 4).eraseDups
  qs.flatMap fun q => cs.filter fun e => e.2 / 4 = q

/-- The instance of a domain that holds a core. -/
def unitOf (dom : Nat) (e : Nat × Nat) : Nat :=
  match dom with
  | 4 => e.2 / 4
  | 5 => e.2 / 64
  | 6 => 0
  | _ => e.1

/-- The lanes of a core that can take the groups of the roles. -/
def State.freeLanes (s : State) (core : Nat) (rs : List Role) : List Nat :=
  (List.range 128).filter fun x => sumGroups rs ≤ (s.freeHomes core x).length && s.laneWords core x + sumWords rs ≤ 4096

/-- R91: the cores and lanes of a launch's next gang. -/
def State.findGang (s : State) (l : Launch) : Option (List (Nat × List Nat)) :=
  let need := lanesOf l.f.levels
  let dom := gangDom l.f.levels
  let n := coresIn l.f.levels dom
  let fits := (s.placeOrder l.ctx).filter fun e =>
    !(s.core e.1).scan && !(s.core e.1).drains && s.spaceOk e.1 l.lid && need ≤ (s.freeLanes e.1 l.f.roles).length
  let units := (fits.map (unitOf dom)).eraseDups
  (units.find? fun u => n ≤ (fits.filter fun e => unitOf dom e = u).length).map fun u =>
    ((fits.filter fun e => unitOf dom e = u).take n).map fun e => (e.1, (s.freeLanes e.1 l.f.roles).take need)

/-- R77: a quad, die or package level asks for more cores than any such unit of the partition has. -/
def State.unplaceable (s : State) (l : Launch) : Bool :=
  let cs := s.liveCores l.ctx
  l.f.levels.any fun v => 4 ≤ v.domain && v.domain ≤ 6 &&
    (cs.map (unitOf v.domain)).all fun u => (cs.filter fun e => unitOf v.domain e = u).length < coresIn l.f.levels v.domain

/-- The groups of a role on a lane, of a gang whose placement has a number; later groups of it have higher instance numbers
(R102). -/
def State.startRole (s : State) (l : Launch) (place core lix : Nat) (r : Role) : State :=
  (List.range r.groups).foldl (fun s _ =>
    let slot := (s.freeHomes core lix).headD 0
    let entry := (l.f.entry + r.offset) % 2 ^ 64
    let t := s.putGroup core lix slot l.lid l.ctx (.gang l.placed) r.role r.regs r.eclass entry
      (startThreads entry lix (threadsOf l.f.levels))
    t.updGrp (gidOf core lix slot) fun g => { g with place := place, inst := s.nextId }) s

/-- A started record that is not wholly held: it runs, and its queue's watchdog counter with it (R109). -/
def State.watched (s : State) (l : Launch) : Bool :=
  l.started && !((s.helds.any fun h => h.lid = l.lid) && s.groups.all fun e => e.2.lid ≠ l.lid)

/-- Some record of a queue runs. -/
def State.queueRuns (s : State) (part q : Nat) : Bool :=
  s.launches.any fun l => l.ctx = part && l.home = q && s.watched l

/-- A gang is placed: the record starts with its first, and leaves its stage (R85, R90). -/
def State.startGang (s : State) (l : Launch) (place : List (Nat × List Nat)) : State :=
  let s := if !l.started && !s.queueRuns l.ctx l.home then s.updQueue l.ctx l.home fun q => { q with counter := 0 } else s
  let n := s.nextId
  let s := place.foldl (fun s c =>
    let s := s.ensureSpace c.1 l.lid l.ctx
    c.2.foldl (fun s lix => l.f.roles.foldl (fun s r => s.startRole l n c.1 lix r) s) s) s
  let lanes := (place.map fun c => c.2.length).sum
  let s := s.updLaunch l.lid fun l => { l with
    placed := l.placed + 1, started := true
    threads := l.threads + lanes * sumGroups l.f.roles * threadsOf l.f.levels }
  let s := if l.queue < 64 then s.updQueue l.ctx l.queue fun q =>
      { q with stage := if q.stage = some l.lid then none else q.stage } else s
  s.dropMarks fun m => m = ⟨l.lid, none⟩

/-! ### Lazy save (R105, R106) -/

/-- The save address of a block (R105). -/
def State.saveAt (s : State) (ctx core slot blk : Nat) : Nat :=
  let base := ((s.xlat? ctx).map Xlat.savebase).getD 0
  (base + 2 ^ 25 * core + 2 ^ 23 * slot + 2 ^ 16 * blk) % 2 ^ 64

/-- The place of a launch's last discard on a core among the held instances, which stand in the order of their discards (R105). -/
def State.heldRank (s : State) (core lid : Nat) : Nat :=
  ((s.helds.zip (List.range s.helds.length)).filter fun e => e.1.lid = lid && e.1.groups.any fun g => g.gid / 512 = core).foldl
    (fun m e => max m (e.2 + 1)) 0

/-- The block that a claim takes (R105): launch, block of its space, physical block, slot. -/
def State.claimChoice (s : State) (core : Nat) (except_ : Option Nat) : Option (Nat × Nat × Nat × Nat) :=
  let ps := (s.core core).spaces.filter fun p => p.held && some p.lid ≠ except_
  let es := ps.flatMap fun p => p.blocks.filterMap fun b => match b.2 with
    | .phys n => some (p, b.1, n)
    | .saved _ => none
  let before := fun (x y : Space × Nat × Nat) =>
    let px := s.effPrio x.1.lid
    let py := s.effPrio y.1.lid
    let rx := s.heldRank core x.1.lid
    let ry := s.heldRank core y.1.lid
    px < py || (px = py && (ry < rx || (rx = ry && y.2.2 < x.2.2)))
  ((sortBy before es).head?).map fun e => (e.1.lid, e.2.1, e.2.2, e.1.slot)

/-- How a move of a block to or from its save area goes. -/
inductive Moved where
  | done | waits | lost
deriving DecidableEq, Repr

/-- The unit that moves the block of a save address. -/
def saveNo (va : Nat) : Nat := 2 ^ 52 + va / 2 ^ 16 % 2 ^ 50

/-- Sectors of a block that are saved, each with its side band. -/
def State.saveSectors (s : State) (ctx va key : Nat) : Nat → Nat → State × Moved
  | _, 0 => (s, .done)
  | i, n + 1 =>
    let w := hwWho ctx (saveNo va)
    let a : Acc := { Acc.write .global (va + 32 * i) 32 false with kind := 9 }
    match s.reachGlobal w a with
    | (s, .ok k _) =>
      let b := s.mem.band ((key + 32 * i) / 32)
      (s.put w a k (s.mem.read (key + 32 * i) 32) b.p b.poison false).saveSectors ctx va key (i + 1) n
    | (s, .outside _) =>
      let b := s.mem.band ((key + 32 * i) / 32)
      (s.send ctx (va + 32 * i) (s.mem.read (key + 32 * i) 32) b.p).saveSectors ctx va key (i + 1) n
    | (s, .closed) => (s, .waits)
    | (s, .waits) => (s, .waits)
    | (s, _) => (s, .lost)

/-- Sectors of a block that are restored. -/
def State.restoreSectors (s : State) (ctx va key : Nat) : Nat → Nat → State × Moved
  | _, 0 => (s, .done)
  | i, n + 1 =>
    match s.reachGlobal (hwWho ctx (saveNo va)) { Acc.read .global (va + 32 * i) 32 with kind := 10 } with
    | (s, .ok k attr) =>
      let b := s.mem.band (k / 32)
      let m := (s.mem.write (key + 32 * i) (s.mem.read k 32)).setBand ((key + 32 * i) / 32)
        ⟨0, b.p || attrBit attr 4, b.poison⟩
      { s with mem := m }.restoreSectors ctx va key (i + 1) n
    | (s, .outside attr) =>
      let m := (s.mem.write (key + 32 * i) (s.farBytes (va + 32 * i) 32)).setBand ((key + 32 * i) / 32)
        ⟨0, s.farP (va + 32 * i) || attrBit attr 4, false⟩
      { s with mem := m }.restoreSectors ctx va key (i + 1) n
    | (s, .closed) => (s, .waits)
    | (s, .waits) => (s, .waits)
    | (s, _) => (s, .lost)

/-- Threads of a held instance that had not tailed. -/
def Held.open_ (h : Held) : Nat := (h.groups.map fun g => (g.threads.filter fun t => t.life = .live).length).sum

/-- The sectors that a command has written so far. -/
def Cmd.made (c : Cmd) : Nat :=
  match c.stage with
  | 2 => sectorCount (c.writes.take c.count)
  | 4 => c.count
  | 6 => c.count
  | _ => 0

/-- The pitcher programs of a launch on a core end in a fault, the one that runs and those that wait for the pitcher; each tells its
bound queues (R353). -/
def State.faultProgs (s : State) (core lid : Nat) : State :=
  let c := s.core core
  let ids := ((c.starts.filter fun p => p.lid = lid).map Prog.id)
  let s := s.updCore core fun c => { c with
    starts := c.starts.filter fun p => p.lid ≠ lid
    pqs := c.pqs.map fun q => if q.bound.isSome && ids.contains q.prog then { q with ended := some (0x13, 0) } else q }
  if c.run.any fun p => p.lid = lid then s.endProgram core 0x13 0 else s

/-- The engine commands of a launch complete FAULT, on every core (R105); one whose outcome stands keeps it. -/
def State.faultCmds (s : State) (lid : Nat) : State :=
  s.cores.foldl (fun s k =>
    let c := s.core k.1
    let s := (c.xfers.filter fun x => x.lid = lid).foldl (fun s x => s.xferEnd k.1 x 0x13 x.src.2) (s.faultProgs k.1 lid)
    (c.cmds.filter fun x => x.lid = lid && x.stage ≠ 3 && x.stage ≠ 5 && x.stage ≠ 7).foldl
      (fun s x => s.cmdEnds k.1 x.id 0x13 x.made) s) s

/-- The place of a held instance; how often it was passed over does not tell it apart. -/
def Held.is (h x : Held) : Bool := h.lid = x.lid && h.place = x.place && h.inst = x.inst

/-- Held instances of a launch are abandoned (R105): the launch's engine commands complete FAULT, their threads count as trapped,
and their spaces may close on each of their cores. -/
def State.abandon (s : State) (lid : Nat) (mine : Held → Bool) : State :=
  let hs := s.helds.filter mine
  let s := (s.faultCmds lid).dropMarks fun m => hs.any fun h => m = ⟨h.lid, some (h.place, h.inst)⟩
  let s := { s with helds := s.helds.filter fun h => !mine h }
  let s := s.faultLaunch lid (hs.map Held.open_).sum
  let cores := (hs.flatMap fun h => h.groups.map fun g => g.gid / 512).eraseDups
  (cores.foldl (fun s k => s.settleSpace k lid) s).completions

/-- The landing entries of a launch that overlap a block that is claimed lapse (R346). A `SUBS.SYNC` whose copy was to land there
binds nothing. -/
def LandEnt.lapse (lid blk : Nat) (l : LandEnt) : LandEnt :=
  let hit := fun (b : Binding) => l.lid = lid && b.meets (2 ^ 16 * blk) (2 ^ 16)
  let l := if l.sync.any hit then { l with sync := none } else l
  if hit l.b && l.st ≠ .binding then { l with st := .lapsed } else l

def State.lapseLands (s : State) (core lid blk : Nat) : State :=
  let s := s.updCore core fun c => { c with lands := c.lands.map (LandEnt.lapse lid blk) }
  let ns := ((s.core core).lands.filter fun l => l.lid = lid && l.st = .binding && l.b.meets (2 ^ 16 * blk) (2 ^ 16)).map LandEnt.n
  ns.foldl (fun s n => s.freeLand core n) s

/-- A claim (R105): entries that overlap the block lapse, the block is saved, and it is handed over. Updates of stores before it
are on their way first (R345). -/
def State.claim (s : State) (core lid blk slot : Nat) (phys : Nat) : State × Moved :=
  let ctx := (((s.core core).space? lid).map Space.ctx).getD 0
  let s := ((s.flushLaunch core lid).lapseLands core lid blk).classify (aKey core phys 0) (2 ^ 16)
  match s.saveSectors ctx (s.saveAt ctx core slot blk) (aKey core phys 0) 0 2048 with
  | (s, .done) =>
    (s.updCore core fun c => c.updSpace lid fun p => { p with blocks := kset p.blocks blk (.saved slot) }, .done)
  | (s, .waits) => (s, .waits)
  | (s, .lost) =>
    let s := s.updCore core fun c => c.updSpace lid fun p => { p with blocks := kdel p.blocks blk }
    (s.abandon lid fun h => h.lid = lid && h.groups.any fun g => g.gid / 512 = core, .done)

/-- `BLOCK_CLAIM` (R105): the first touch that waits takes the block that the rule chooses. -/
def execBlockClaim (core space block : Nat) (s : State) : Out :=
  let c := s.core core
  if !c.want || c.freeBlock?.isSome then .next s.tick
  else match s.claimChoice core none with
    | none => .next s.tick
    | some (lid, blk, phys, slot) =>
      if slot ≠ space || phys ≠ block then .next s.tick
      else match s.claim core lid blk slot phys with
        | (s, .waits) => .next s.tick
        | (s, _) => .next (s.updCore core fun c => { c with want := false }).tick

/-- A physical block: a free one, or one that a claim hands over. -/
def State.takeBlock (s : State) (core lid : Nat) : State × Option Nat :=
  match (s.core core).freeBlock? with
  | some b => (s, some b)
  | none => match s.claimChoice core (some lid) with
    | none => (s, none)
    | some (l, blk, phys, slot) => match s.claim core l blk slot phys with
      | (s, .waits) => (s, none)
      | (s, _) => (s, (s.core core).freeBlock?)

/-- The saved blocks of a space are restored (R106). -/
def State.restoreBlocks (s : State) (core lid ctx : Nat) : List (Nat × Nat) → State × Moved
  | [] => (s, .done)
  | (blk, slot) :: bs => match s.takeBlock core lid with
    | (s, none) => (s, .waits)
    | (s, some b) =>
      match s.restoreSectors ctx (s.saveAt ctx core slot blk) (aKey core b 0) 0 2048 with
      | (s, .done) => (s.updCore core fun c => c.updSpace lid fun p =>
          { p with blocks := kset p.blocks blk (.phys b) }).restoreBlocks core lid ctx bs
      | r => r

/-- Saved blocks of a space, each with the slot of its save address. -/
def Space.savedBlocks (p : Space) : List (Nat × Nat) := p.blocks.filterMap fun b => match b.2 with
  | .saved n => some (b.1, n)
  | .phys _ => none

/-! ### Discard and restart (R101 to R103, R106) -/

/-- The cores of a held instance. -/
def Held.cores (h : Held) : List Nat := (h.groups.map fun g => g.gid / 512).eraseDups

/-- The domain of the instances that are discarded as one (R101). -/
def restartDom (f : LFields) : Nat :=
  match f.levels[f.rlvl]? with
  | some l => min (max l.domain 1) (gangDom f.levels)
  | none => gangDom f.levels

/-- The groups of the instance that a gang's group belongs to (R101). -/
def State.instOf (s : State) (gid : Nat) : List Nat :=
  let g := s.grp gid
  match s.launch? g.lid with
  | none => [gid]
  | some l =>
    let dom := restartDom l.f
    let same := fun (x : Group) => match dom with
      | 1 => false
      | 2 => x.core = g.core && x.lix = g.lix
      | 3 => x.core = g.core
      | 4 => dieOf x.core = dieOf g.core && quadOf s x.core = quadOf s g.core
      | 5 => dieOf x.core = dieOf g.core
      | _ => true
    (s.groups.filter fun e => e.1 = gid || (e.2.lid = g.lid && e.2.kind = g.kind && same e.2)).map Prod.fst

/-- R101, R232: every thread has ended or stands in an open region, no replay is queued, and no group is frozen, for a frozen one
keeps its state until the host ends its freeze (R81). -/
def State.restartable (s : State) (gids : List Nat) : Bool :=
  gids.all fun gid =>
    let g := s.grp gid
    !g.frozen && g.toFreeze.isNone && (g.threads.all fun t => t.life ≠ .live || t.region.isOpen)
      && (s.core g.core).replays.all fun r => r.gid ≠ gid

def HeldGroup.of (gid : Nat) (g : Group) (gang : Nat) : HeldGroup :=
  ⟨gid, g.role, g.regs, g.eclass, gang, g.entry,
    (List.range 16).map fun t => ⟨(g.thr t).life, (g.thr t).region.pc, (g.thr t).region.word⟩⟩

/-- R320: the open rounds of a launch's huddles on a core are reset; surviving `HSIGN` and `DCOR` signers trap
`HUDDLE`, and surviving matrix signers receive it deferred (R366). -/
def State.resetHuddles (s : State) (core lid : Nat) (gone : List Nat) : State :=
  let c := s.core core
  let open_ := (c.huddles.zip (List.range 16)).filter fun e => e.1.owner = some lid && e.1.signed ≠ 0
  let sigs := (open_.flatMap fun e => e.1.sigs.map fun g => (g, e.2)).filter fun e => !gone.contains e.1.gid
  let reset := fun (h : Huddle) => if h.owner = some lid && h.signed ≠ 0 then
    { h with signed := 0, last := 5, sigs := [] } else h
  let s := s.updCore core fun c => { c with huddles := c.huddles.map reset }
  sigs.foldl (fun s (g, h) =>
    if (s.grp g.gid).uid ≠ g.uid then s
    else if g.kind = 0 || g.kind = 3 then
      if !s.waitsAt g h then s
      else
      let s := s.updThr g.gid g.tix fun x => { x with owed := some (0x10, 0) }
      s.updGrp g.gid fun x => { x with parks := x.parks.map fun p => match p.kind with
        | .huddle _ => { p with mask := p.mask.filter (· ≠ g.tix) }
        | _ => p }
    else s.updGrp g.gid fun x => { x with deferred := x.deferred ++ [⟨[g.tix], 0x10, 0, none⟩] }) s

/-- A group leaves its slot without tailing: its agents' intervals end, those of an agent with side-logged writes once they have
performed (R184), its watches and bindings are dropped, and its outstanding work drains under the tracker (R103). DESIGN CHOICE (log
entry 85): a discard frees its slots at once, also where all 64 entries of the tracker are taken, and its entries stand past them. -/
def State.dropGroup (s : State) (gid : Nat) : State :=
  let s := s.landWins gid
  let g := s.grp gid
  let s := s.dropIvs fun a => a.path = .T && a.gid = gid && !((s.core g.core).side.any fun e => e.agent = a)
  let s : State := { s with dev := s.dev.leaves fun a => a.path = .T && a.gid = gid }
  let s := (s.unbind g.core gid).updCore g.core fun c => { c with tracker := c.tracker ++ [⟨g.uid, gid, g.lid, false⟩] }
  ({ s.ghosts g.core gid g.uid with groups := kdel s.groups gid }).pruneMons g.core

/-- A restartable instance is discarded (R103). -/
def State.discardInst (s : State) (gids : List Nat) : State :=
  match gids.head? with
  | none => s
  | some gid =>
    let g := s.grp gid
    let gang := match g.kind with
      | .gang n => n
      | _ => 0
    let h : Held := ⟨g.lid, g.ctx, gang, 0, gids.map fun n => HeldGroup.of n (s.grp n) gang, g.place, g.inst⟩
    let hold := fun (l : LandEnt) => if l.lid = g.lid && l.place = g.place && gids.contains l.gid && l.st = .live then
      { l with st := LandSt.held } else l
    let cores := h.cores
    let s := cores.foldl (fun s k => s.resetHuddles k g.lid gids) s
    let s := gids.foldl State.dropGroup s
    let s := cores.foldl (fun s k => s.updCore k fun c => { c with lands := c.lands.map hold }) s
    let s := { s with helds := s.helds ++ [h] }
    cores.foldl (fun s k => s.settleSpace k g.lid) s

/-- `DISCARD` (R103): a marked instance that has become restartable is discarded. -/
def execDiscard (gid : Nat) (s : State) : Out :=
  let gids := s.instOf gid
  if (s.grp gid).marked.isNone || !s.restartable gids then .next s.tick else .next (s.discardInst gids).tick

/-- R103: a thread of a restarted instance. -/
def HeldThread.start (t : HeldThread) (lix tix : Nat) : Thread :=
  match t.life with
  | .live =>
    let x := Thread.start t.pc (genSeed 0 lix tix)
    { x with x := x.x.set 0 t.word, region := ⟨true, t.pc, t.word⟩ }
  | l => { Thread.absent with life := l }

/-- R103: the cores, lanes and slots of a held instance are free: it is ready to restart. -/
def State.restartReady (s : State) (h : Held) : Bool :=
  h.cores.all fun k =>
    let c := s.core k
    let mine := h.groups.filter fun g => g.gid / 512 = k
    (s.phys k).isSome && !c.scan && !c.drains && (mine.all fun g => !s.hasGrp g.gid) && mine.all fun g =>
      let lix := g.gid / 4 % 128
      s.laneWords k lix + ((mine.filter fun x => x.gid / 4 % 128 = lix).map fun x => 16 * x.regs).sum ≤ 4096

/-- R106, R363: its launch space has a slot and the blocks that it must restore, and no other open space has a matrix role
beside it. -/
def State.restartRoom (s : State) (h : Held) : Bool :=
  h.cores.all fun k =>
    let c := s.core k
    let claimable := (c.spaces.filter fun p => p.held && p.lid ≠ h.lid).flatMap fun p => p.blocks.filter fun b =>
      match b.2 with
      | .phys _ => true
      | .saved _ => false
    s.spaceOk k h.lid && match c.space? h.lid with
      | none => true
      | some p => p.savedBlocks.length ≤ 128 - c.usedBlocks.length + claimable.length

/-- A restart can be placed (R103, R106). -/
def State.canRestart (s : State) (h : Held) : Bool := s.restartReady h && s.restartRoom h

/-- A group of a held instance runs again. -/
def State.restartGroup (s : State) (h : Held) (g : HeldGroup) : State :=
  let lix := g.gid / 4 % 128
  (s.putGroup (g.gid / 512) lix (g.gid % 4) h.lid h.ctx (.gang h.gang) g.role g.regs g.eclass g.entry
    ((g.threads.zip (List.range 16)).map fun e => e.1.start lix e.2)).updGrp g.gid fun x =>
      { x with place := h.place, inst := h.inst }

/-- A held space that gave up its slot has one again, under which its restored blocks would be saved (R106). -/
def State.takeSlot (s : State) (core lid : Nat) : State :=
  s.updCore core fun c => (c.reopen lid).updSpace lid fun p => { p with held := true }

/-- The blocks of a held instance are restored on each of its cores, while its spaces are still held. -/
def State.restoreAll (s : State) (h : Held) : List Nat → State × Moved
  | [] => (s, .done)
  | k :: ks =>
    let s := if ((s.core k).space? h.lid).any Space.held then s.takeSlot k h.lid else s
    match s.restoreBlocks k h.lid h.ctx ((((s.core k).space? h.lid).map Space.savedBlocks).getD []) with
    | (s, .done) => s.restoreAll h ks
    | (s, .waits) => (s, .waits)
    | (s, .lost) => (s.abandon h.lid h.is, .lost)

/-- A restart (R103, R106), and whether it is placed: not while a block of it waits to be restored. -/
def State.restartHeld (s : State) (h : Held) : State × Bool :=
  match s.restoreAll h h.cores with
  | (s, .done) =>
    let s := h.cores.foldl (fun s k => s.ensureSpace k h.lid h.ctx) s
    let s := h.groups.foldl (fun s g => s.restartGroup h g) s
    let s := { s with helds := s.helds.filter fun x => !h.is x }
    let live := fun (l : LandEnt) => if l.lid = h.lid && l.place = h.place && (h.groups.any fun g => g.gid = l.gid) && l.st = .held
      then { l with st := LandSt.live } else l
    ((h.cores.foldl (fun s k => s.updCore k fun c => { c with lands := c.lands.map live }) s).dropMarks
      fun m => m = ⟨h.lid, some (h.place, h.inst)⟩, true)
  | (s, _) => (s, false)

/-! ### Pre-emption (R102) -/

/-- What would be free without some groups. -/
def State.without (s : State) (gids : List Nat) : State :=
  let s := { s with groups := s.groups.filter fun e => !gids.contains e.1 }
  let hold := fun (k : Nat) (p : Space) => if p.slot < 4 && (s.groupsOn k p.lid).isEmpty then { p with held := true } else p
  { s with cores := s.cores.map fun (k, c) => (k, { c with spaces := c.spaces.map (hold k) }) }

/-- A candidate of the scheduler: a record's next gang, or a held instance. -/
inductive Cand where
  | gang (lid : Nat)
  | restart (h : Held)
deriving DecidableEq, Repr

def Cand.lid : Cand → Nat
  | .gang n => n
  | .restart h => h.lid

/-- The request for pre-emption of a candidate (R102). -/
def Cand.mark : Cand → Mark
  | .gang n => ⟨n, none⟩
  | .restart h => ⟨h.lid, some (h.place, h.inst)⟩

def State.fits (s : State) (c : Cand) : Bool :=
  match c with
  | .gang lid => match s.launch? lid with
    | some l => (s.findGang l).isSome
    | none => false
  | .restart h => s.canRestart h

/-- The instances of a context that a candidate may pre-empt, in the order of R102. -/
def State.victims (s : State) (ctx prio : Nat) : List (List Nat) :=
  let gs := s.groups.filter fun e => e.2.ctx = ctx && e.2.kind.isGang && s.effPrio e.2.lid < prio
  let before := fun (a b : Nat × Group) =>
    let pa := s.effPrio a.2.lid
    let pb := s.effPrio b.2.lid
    pa < pb || (pa = pb && (b.2.place < a.2.place || (b.2.place = a.2.place && b.2.inst < a.2.inst)))
  ((sortBy before gs).map fun e => s.instOf e.1).eraseDups

/-- The shortest run of victims without which the candidate fits. -/
def State.enough (s : State) (c : Cand) (taken : List (List Nat)) : List (List Nat) → Option (List (List Nat))
  | [] => none
  | v :: vs =>
    let taken := taken ++ [v]
    if (s.without (taken.flatMap id)).fits c then some taken else s.enough c taken vs

/-- Victims that are not needed are left out, the last of the order first; the list stands from its end on, and `kept` are those behind
it that are needed. -/
def State.onlyNeeded (s : State) (c : Cand) (kept : List (List Nat)) : List (List Nat) → List (List Nat)
  | [] => kept
  | v :: vs =>
    if (s.without ((vs ++ kept).flatMap id)).fits c then s.onlyNeeded c kept vs else s.onlyNeeded c (v :: kept) vs

/-- An instance is chosen: discarded at once where it is restartable, or marked, and its watches latch PREEMPT (R312). A mark that
stands stays. -/
def State.choose (s : State) (m : Mark) (gids : List Nat) : State :=
  if s.restartable gids then s.discardInst gids
  else if gids.all fun gid => (s.grp gid).marked.isSome then s
  else
    let see := fun (w : Watch) => if w.latched.isNone then { w with latched := some 3 } else w
    gids.foldl (fun s gid => s.updGrp gid fun g => { g with
      marked := some m
      threads := g.threads.map fun t => { t with watch := t.watch.map see } }) s

/-- `RequestPreemption` (R102): the instances that the candidate has marked before stand, and only what it still needs beside them
is chosen. -/
def State.preempt (s : State) (ctx : Nat) (c : Cand) : State :=
  let vs := s.victims ctx (s.effPrio c.lid)
  let marked := ((s.groups.filter fun e => e.2.marked = some c.mark).map fun e => s.instOf e.1).eraseDups
  let s' := s.without (marked.flatMap id)
  if s'.fits c then s
  else match s'.enough c [] (vs.filter fun v => !marked.contains v) with
    | none => s
    | some new => (s'.onlyNeeded c [] new.reverse).foldl (fun s v => s.choose c.mark v) s

/-! ### The cycle (R89) -/

/-- A record may be a candidate: it was read, is well-formed and waits for nothing, and it does not complete without running
(R74). -/
def Launch.ready (l : Launch) : Bool :=
  !l.malformed && l.f.kind = 0 && l.waits.isEmpty && (l.started || !(l.f.skipfail && l.predFail))

/-- A partition holds all the started records that it can (R87). -/
def State.full (s : State) (ctx : Nat) : Bool := 256 ≤ (s.launches.filter fun l => l.ctx = ctx && l.started).length

/-- The candidates of a partition in the order of R89. -/
def State.candidates (s : State) (ctx : Nat) : List Cand :=
  let ls := s.launches.filter fun l => l.ctx = ctx && l.ready && (l.started || !s.unplaceable l) && (!l.started || l.placed < gangCount l.f.levels)
  let cs := (s.helds.filter fun h => h.ctx = ctx && s.restartReady h).map Cand.restart ++ ls.map fun l => Cand.gang l.lid
  let lastq := (s.parts.getD ctx Part.reset).lastq
  let rot := fun (c : Cand) => (((s.launch? c.lid).map Launch.queue).getD 0 + 129 - lastq) % 65
  let isRestart := fun (c : Cand) => match c with
    | .restart _ => true
    | .gang _ => false
  let aged := fun (c : Cand) => 64 ≤ match c with
    | .restart h => h.passed
    | .gang n => ((s.launch? n).map Launch.passed).getD 0
  let rank := fun (c : Cand) => if isRestart c then 0 else if aged c then 1 else 2
  sortBy (fun a b =>
    let pa := s.effPrio a.lid
    let pb := s.effPrio b.lid
    pb < pa || (pa = pb && (rank a < rank b || (rank a = rank b && rot a < rot b)))) cs

/-- A candidate is placed, or not. -/
def State.placeCand (s : State) (c : Cand) : State × Bool :=
  match c with
  | .gang lid => match s.launch? lid with
    | none => (s, false)
    | some l => match s.findGang l with
      | some p => (s.startGang l p, true)
      | none => (s, false)
  | .restart h => if s.helds.any h.is && s.canRestart h then s.restartHeld h else (s, false)

/-- No staged record starts while the partition is full (R87): it is no candidate then. -/
def State.barred (s : State) (ctx : Nat) (c : Cand) : Bool :=
  match c with
  | .gang lid => s.full ctx && (s.launch? lid).any fun l => !l.started
  | .restart _ => false

/-- A restart is the first candidate in the order of R89 and can be placed: nothing is placed past a record of higher
effective priority. -/
def State.restartDue (s : State) (h : Held) : Bool :=
  let p := s.parts.getD h.ctx Part.reset
  p.bound && !p.drain && !s.dev.safe && !s.dev.fenced && (s.candidates h.ctx).head? = some (.restart h) && s.canRestart h

/-- `RESTART` (R106, R89). -/
def execRestart (idx : Nat) (s : State) : Out :=
  match s.helds[idx]? with
  | none => .next s.tick
  | some h =>
    if s.restartDue h then
      let q := ((s.launch? h.lid).map Launch.queue).getD 0
      match s.restartHeld h with
      | (s, true) => .next (s.updPart h.ctx fun p => { p with lastq := q }).tick
      | (s, false) => .next s.tick
    else .next s.tick

/-- The candidate was passed over once more; the new count. -/
def State.pass (s : State) (c : Cand) : State × Nat :=
  match c with
  | .gang lid =>
    let s := s.updLaunch lid fun l => { l with passed := l.passed + 1 }
    (s, ((s.launch? lid).map Launch.passed).getD 0)
  | .restart h => ({ s with helds := s.helds.map fun x => if h.is x then { x with passed := x.passed + 1 } else x }, h.passed + 1)

/-- A held instance that was abandoned in this cycle is no candidate any more (R105). -/
def State.lapsedCand (s : State) (c : Cand) : Bool :=
  match c with
  | .gang _ => false
  | .restart h => !s.helds.any h.is

/-- The loop of R89; a priority is blocked from `blockP` down. -/
def State.placeLoop (s : State) (ctx : Nat) (blockP : Int) : List Cand → State
  | [] => s
  | c :: cs =>
    if (s.effPrio c.lid : Int) < blockP then s
    else if s.barred ctx c || s.lapsedCand c then s.placeLoop ctx blockP cs
    else
      let q := ((s.launch? c.lid).map Launch.queue).getD 0
      match s.placeCand c with
      | (s, true) => (s.updPart ctx fun p => { p with lastq := q }).placeLoop ctx blockP cs
      | (s, false) => if s.lapsedCand c then s.placeLoop ctx blockP cs else
        let (s, n) := (if s.fits c then s else s.preempt ctx c).pass c
        if 64 ≤ n then s else s.placeLoop ctx (s.effPrio c.lid) cs

/-- Staged records that complete without running: those that cannot be placed, whatever they wait for (R77, R85), and those
skipped under SKIPFAIL (R74), once every predecessor has completed (log entry 54). -/
def State.skips (s : State) (ctx : Nat) : State :=
  (s.launches.filter fun l => l.ctx = ctx && !l.started && !l.malformed && l.f.kind = 0).foldl (fun s l =>
    if s.unplaceable l || (l.waits.isEmpty && l.f.skipfail && l.predFail) then s.completeLaunch l 0x13 0 else s) s

/-- R78: active-message records are installed where no group of the old one runs. -/
def State.installs (s : State) (ctx : Nat) : State :=
  (s.launches.filter fun l => l.ctx = ctx && !l.malformed && l.f.kind = 1).foldl (fun s l =>
    if s.groups.any fun e => e.2.ctx = ctx && e.2.kind = .message then s
    else
      let r := (l.f.roles.head?).getD ⟨0, 0, 1, 16, 0⟩
      let a : AmRec := ⟨ctx, r.role, r.regs, r.eclass, l.f.argp, l.f.arglen, l.f.rsbase, l.f.rsdepth⟩
      let s := (s.liveCores ctx).foldl (fun s e => s.updCore e.1 fun c =>
        { c with amRecs := a :: c.amRecs.filter fun x => x.ctx ≠ ctx }) s
      s.completeLaunch l 1 0) s

/-- R109: the counters of the queues with a running record. -/
def State.countDogs (s : State) : State :=
  let qs := ((s.launches.filter s.watched).map fun l => (l.ctx, l.home)).eraseDups
  qs.foldl (fun s q => s.updQueue q.1 q.2 fun x => { x with counter := x.counter + 1 }) s

/-- `SCHEDULER_CYCLE` (R89). -/
def execSchedulerCycle (s : State) : Out :=
  let s := (List.range 16).foldl (fun s n =>
    let p := s.parts.getD n Part.reset
    if !p.bound || p.drain || s.dev.safe || s.dev.fenced then s
    else
      let s := (s.installs n).skips n
      s.placeLoop n (-1) (s.candidates n)) s
  .next ((s.completions).countDogs).tick

/-- `RECORD_STAGE` (R70, R85): the record at HEAD is read into the empty stage; a malformed one freezes its queue there
(R76). DESIGN CHOICE (log entry 71): a read whose granule's fault record ends refused leaves the queue as it is, without a freeze,
and the record is read again. -/
def execRecordStage (part q : Nat) (s : State) : Out :=
  let p := s.parts.getD part Part.reset
  let x := s.queue part q
  if s.dev.safe || s.dev.fenced || !p.bound || p.drain || !x.enable || x.frozen || x.stage.isSome || x.head = x.tail then .next s.tick
  else
    let va := (x.ringbase + 256 * (x.head % x.ring)) % 2 ^ 64
    match s.hwRead (hwWho part q) va 256 with
    | (s, .viol c a) => .next (s.freezeQueue part q c a).tick
    | (s, .ok bs _) =>
      let id := s.nextId
      let s := s.updQueue part q fun x => { x with head := (x.head + 1) % 2 ^ 32, stage := some id }
      let s := s.addLaunch part q q va bs x.priocap
      .next (if recordOk bs then s else s.freezeQueue part q 0x20 va).tick
    | (s, _) => .next s.tick

/-! ### The kill of a context (R110, R111) -/

/-- The logical cores of a partition's quads. -/
def State.partCores (s : State) (part : Nat) : List Nat := (s.liveCores part).map Prod.fst

/-- Where the completion word of a command of the context lies in global memory; a `COLL` that has not begun has it in its
descriptor. -/
def State.cmdWordAt (s : State) (core : Nat) (c : Cmd) : Option Nat :=
  match c.word, c.kind with
  | some (.global, a), _ => some a
  | none, .coll desc =>
    if c.stage ≠ 0 then none
    else match s.reachA (c.who core) { Acc.read .A (desc + 0x30) 8 with kind := 10 } with
      | (s, .ok key _) => if s.mem.num key 8 % 4 = 0 then some (s.mem.num key 8) else none
      | _ => none
  | _, _ => none

/-- One completion word of a kill. A word in a closed granule waits in the side log of a core of the partition that has room
(R168), and one on another device at its link (R32). -/
def State.killWord (s : State) (cores : List Nat) (w : Who) (a : Nat) (p ps : Bool) : State :=
  let bs := leBytes 4 (cword 0x12 0)
  let acc : Acc := { Acc.write .global a 4 ps with kind := 4, sync := true }
  match s.reachGlobal w acc with
  | (s, .ok key _) => s.put w acc key bs p false false
  | (s, .outside _) => s.sendStore w.ctx a bs p
  | (s, .closed) =>
    let k := ((w.core :: cores).find? fun k => (s.core k).side.length < 256).getD w.core
    s.updCore k fun c => { c with side := c.side ++ [⟨w.agent, 0, w.lid, w.ctx, a, bs, p, ps, none, false, true, false⟩] }
  | (s, .waits) => s.send w.ctx a bs p
  | (s, _) => s

/-- Step 5: completion words of records and of engine commands; `cores` are those of the partition. -/
def State.killWords (s : State) (ctx : Nat) (cores : List Nat) : State :=
  let core := cores.headD 0
  let ls := (s.launches.filter fun l => l.ctx = ctx && !l.malformed && l.f.cword ≠ 0).map fun l =>
    ((⟨⟨.K, core, 0, ctx⟩, core, 0, ctx⟩ : Who), l.f.cword, false, false)
  let cs := s.cores.flatMap fun k => (k.2.cmds.filter fun c => c.ctx = ctx).filterMap fun c =>
    (s.cmdWordAt k.1 c).map fun a => (c.who k.1, a, c.p, c.p && c.pstop)
  (ls ++ cs).foldl (fun s e => s.killWord cores e.1 e.2.1 e.2.2.1 e.2.2.2) s

/-- Step 6: a core is cleared; its scan, its cycle count and the words of step 5 stay. -/
def State.clearCore (s : State) (core : Nat) : State :=
  let c := s.core core
  let s := { s with mem := s.mem.clear (aKey core 0 0) (2 ^ 23) }
  s.setCore core { Core.reset with
    scan := c.scan, drains := c.drains, scanDue := c.scanDue, scanFirst := c.scanFirst, released := c.released, side := c.side }

/-- Step 7: the queues of the partition. -/
def Queue.killed (q : Queue) : Queue :=
  { q with head := q.tail, enable := false, frozen := false, stage := none, history := [], counter := 0 }

/-- R110, R111: the kill of a context, on the cores of its partition while that is bound. Every freeze-log entry of the context
goes, also that of a Ryuzin port, which stays frozen (log entry 55). -/
def State.kill (s : State) (ctx : Nat) : State :=
  let cores := if (s.parts.getD ctx Part.reset).bound then s.partCores ctx else []
  let irq := ((s.launches.filter fun l => l.ctx = ctx && l.f.irq).map Launch.home)
  let s := s.updPart ctx fun p => { p with drain := true }
  let s := { s with groups := s.groups.filter fun e => e.2.ctx ≠ ctx }
  let s := s.dropIvs fun a => cores.contains a.core
  let s := { s with helds := s.helds.filter fun h => h.ctx ≠ ctx }
  let s := cores.foldl (fun s k => s.updCore k fun c => { c with side := c.side.filter fun e => e.ctx ≠ ctx }) s
  let s := s.killWords ctx cores
  let s := { s with launches := s.launches.filter fun l => l.ctx ≠ ctx }
  let s := { s with colls := s.colls.filter fun c => c.ctx ≠ ctx }
  let s := cores.foldl State.clearCore s
  let s := s.updX ctx fun x => { x with refused := [], closed := x.closed.map fun g => { g with waiters := [] } }
  let s := { s with queues := s.queues.map fun (e : Nat × Queue) => (e.1, if e.1 / 64 = ctx then e.2.killed else e.2) }
  let s := { s with flog := s.flog.filter fun e => e.ctx ≠ ctx, dev := s.dev.leaves fun a => cores.contains a.core }
  let s := s.signal 0
  (List.range 64).foldl (fun s q =>
    let v := (s.queue ctx q).vector
    if irq.contains q && v ≠ 0 then s.signal v else s) s

/-- The budget of a queue's oldest running record (R109). DESIGN CHOICE (log entry 86): the oldest is the one that was staged first. -/
def State.budget (s : State) (part q : Nat) : Nat :=
  match s.launches.find? fun l => l.ctx = part && l.home = q && s.watched l with
  | some l => if l.f.wdog = 0 then (s.queue part q).wdog else l.f.wdog
  | none => 0

/-- `WATCHDOG_EXPIRY` (R109, R110). -/
def execWatchdogExpiry (part q : Nat) (s : State) : Out :=
  let b := s.budget part q
  .next (if b = 0 || (s.queue part q).counter < b then s else s.kill part).tick

end Sys2Proof.Machine
end

