-- ==== Sys2Proof/Machine/Ready.lean ====
section
/-! DEFINITION. Which threads, paths and groups are ready to issue, and the order in which a lane chooses among them
(R97, R114, R119, R126, R129, R130, R144, R145). -/

namespace Sys2Proof.Machine

open Sys2Proof

/-- A park that its threads end themselves: they issue the instruction again once what it waits for has completed
(R193, R334). -/
def State.parkEnds (s : State) (gid : Nat) : Park → Bool
  | .fencex cmds a _ _ _ => s.fencexDone gid cmds a
  | .cpyw tag seq => s.cpywDone gid tag seq
  | _ => false

/-- The threads of a group's queued replays (R230). -/
def State.replayTids (s : State) (gid : Nat) : List Nat :=
  ((s.core (s.grp gid).core).replays.filter fun r => r.gid = gid).flatMap Replay.tids

/-- A thread stays at an access that a link held and that may go now, behind everything that stops its group: the link sends what it
held in its order (R32, log entry 88). -/
def State.linkGoes (s : State) (gid t : Nat) : Bool :=
  let x := s.thr gid t
  x.stays && x.pos.k ≠ 0 && s.linkDue (s.agent gid x.heldBy)

/-- A group stands still: it is frozen, or it is a pitcher program of a frozen stream (R176, R80). -/
def State.standsStill (s : State) (gid : Nat) : Bool :=
  let g := s.grp gid
  g.frozen || (g.kind = .pitcher && (s.core g.core).engFrozen.contains g.ctx)

/-- A thread that may issue: live, not held, in no park, and in the handler while one runs (R114, R144). A replay of a held load is
none of the paths that wait for the handler, which may itself wait for it (R119, R145; log entry 77). A group that is to freeze only
completes its queued replays (R232). -/
def State.mayIssue (s : State) (gid t : Nat) : Bool :=
  let g := s.grp gid
  (g.thr t).life = .live && !(g.thr t).held
    && ((if s.standsStill gid then false else if g.toFreeze.isSome then (s.replayTids gid).contains t
      else !g.ctl.inh || (g.thr t).replay || (tidsOf (g.ctl.tmask.n % 2 ^ 16)).contains t) || s.linkGoes gid t)
    && g.parks.all fun r => !r.mask.contains t || s.parkEnds gid r.kind

/-- The threads among which the group's next path is: those that replay a load come first, and a group that is parked
at a marker or a header issues nothing else but what a link held (R119, R120, R145, R32). -/
def State.readyTids (s : State) (gid : Nat) : List Nat :=
  let g := s.grp gid
  let ts := (List.range 16).filter (s.mayIssue gid)
  let rs := ts.filter fun t => (g.thr t).replay
  if g.gpark.isSome then ts.filter fun t => (g.thr t).replay || s.linkGoes gid t
  else if rs.isEmpty then ts else rs

/-- Threads of one path stand at one instruction of one pass (R126, R287). -/
def Thread.meets (x y : Thread) : Bool := x.pos = y.pos && x.loop = y.loop

/-- The thread before the other in the choice of a path: least recently issued, then the lower PC (R126). -/
def Thread.before (x y : Thread) : Bool :=
  x.last < y.last || (x.last = y.last && (x.pos.hdr < y.pos.hdr || (x.pos.hdr = y.pos.hdr && x.pos.k < y.pos.k)))

def Group.firstOf (g : Group) : List Nat → Option Nat
  | [] => none
  | t :: ts => match g.firstOf ts with
    | some u => if (g.thr u).before (g.thr t) then some u else some t
    | none => some t

/-- The path whose turn goes on: it stands where it issued last, and no other path has merged with it (R126). -/
def Group.turnPath (g : Group) (ts : List Nat) : Option (List Nat) :=
  match g.turnAt with
  | none => none
  | some pos => match ts.find? fun t => (g.thr t).pos = pos && (g.thr t).last = g.turnLast with
    | none => none
    | some t =>
      let path := ts.filter fun u => (g.thr u).meets (g.thr t)
      if path.all fun u => (g.thr u).last = g.turnLast then some path else none

/-- The path that a group issues next, and whether the turn goes on, as it does past a replay (R145); empty where none is ready. -/
def State.nextPath (s : State) (gid : Nat) : List Nat × Bool :=
  let g := s.grp gid
  let ts := s.readyTids gid
  match g.turnPath ts with
  | some path => (path, true)
  | none => match g.firstOf ts with
    | none => ([], false)
    | some t => (ts.filter fun u => (g.thr u).meets (g.thr t), (g.thr t).replay)

/-- A core that issues: compute is neither off nor fenced, and no scan runs (R35, R39, R239). -/
def State.coreRuns (s : State) (k : Nat) : Bool := !s.dev.safe && !s.dev.fenced && !(s.core k).scan

/-- A group that is ready (R97). -/
def State.isReady (s : State) (gid : Nat) : Bool :=
  s.hasGrp gid && s.coreRuns (s.grp gid).core && !(s.readyTids gid).isEmpty

/-- The number of a group's lane; a pitcher slot has its own (R113). -/
def laneOf (gid : Nat) : Nat := if gid < pitchGid 0 then gid / 4 else gid

/-- A group has gone 2,048 lane cycles without issuing (R97). -/
def State.starves (s : State) (gid : Nat) : Bool := (s.grp gid).last + 2048 ≤ s.now

/-- The ranks of R97 and R130 in their order, the lowest first. `now` counts steps in place of lane cycles (log entry
1). -/
def State.laneRank (s : State) (gid : Nat) : List Nat :=
  let g := s.grp gid
  [if g.rank = .yielded then 1 else 0,
   if g.rank = .starved || s.starves gid then 0 else 1,
   if g.eclass ≤ fitOf (s.hdrm g.core) then 0 else 1,
   8 - s.groupPrio g, g.last, gid % 4]

/-- The order of lists of numbers. -/
def lexLt : List Nat → List Nat → Bool
  | a :: as, b :: bs => a < b || (a = b && lexLt as bs)
  | [], _ :: _ => true
  | _, [] => false

def State.bestOf (s : State) : List Nat → Option Nat
  | [] => none
  | g :: gs => match s.bestOf gs with
    | some h => if lexLt (s.laneRank h) (s.laneRank g) then some h else some g
    | none => some g

/-- The groups of a lane, ready or not. -/
def State.laneGids (s : State) (lane : Nat) : List Nat :=
  (s.groups.map Prod.fst).filter fun g => laneOf g = lane

/-- The group that issued last on a lane goes on, where the lane need not choose again: no other ready group starves (R97). -/
def State.laneHolds (s : State) (lane : Nat) : Option Nat :=
  let gs := s.laneGids lane
  gs.find? fun g => s.isReady g && !(s.grp g).again && gs.all fun h =>
    (s.grp h).last ≤ (s.grp g).last && (h = g || !s.isReady h || !s.starves h)

/-- The group that a lane issues next, and whether the lane chose it now. -/
def State.laneNext (s : State) (lane : Nat) : Option (Nat × Bool) :=
  match s.laneHolds lane with
  | some g => some (g, false)
  | none => (s.bestOf ((s.laneGids lane).filter s.isReady)).map fun g => (g, true)

/-- When a lane issued last. -/
def State.laneLast (s : State) (lane : Nat) : Nat :=
  (s.laneGids lane).foldl (fun m g => max m (s.grp g).last) 0

/-- The least recent of the lanes that have a group to issue. -/
def State.nextLane (s : State) : Option Nat :=
  let lanes := (((s.groups.map Prod.fst).filter s.isReady).map laneOf).eraseDups
  lanes.foldl (fun best l => match best with
    | some b => if s.laneLast l < s.laneLast b then some l else some b
    | none => some l) none

end Sys2Proof.Machine
end

