-- ==== Sys2Proof/Machine/Fetch.lean ====
section
/-! DEFINITION. The instruction that a path stands at, with its loop's steps (R245, R247, R286, R287), and which of its results
the clone-compare unit checks (R229). -/

namespace Sys2Proof.Machine

open Sys2Proof

/-! ### The word that issues -/

/-- A code after the steps of a pass: x and g codes step and stay in their file (R286, R287). -/
def stepCode (c : Nat) (d : Int) : Option Nat :=
  let r := (c : Int) + d
  if c < 80 then (if 0 ≤ r && r < 80 then some r.toNat else none)
  else if c < 112 then (if 80 ≤ r && r < 112 then some r.toNat else none)
  else some c

/-- The instructions with a TILE field (R249). -/
def hasTile : Instr → Bool
  | .mcfg .. | .mzero .. | .mma .. | .mmasS .. | .mmasV .. | .mol .. | .mdrn .. | .mstat .. => true
  | _ => false

/-- A word with a field of `n` bits from bit `lo` set. -/
def setField (w : Word) (lo n v : Nat) : Word :=
  BitVec.ofNat 32 (w.toNat / 2 ^ (lo + n) * 2 ^ (lo + n) + v * 2 ^ lo + w.toNat % 2 ^ lo)

/-- One operand field of a word pair after its step. -/
def stepFld (l : LoopSt) (wu : Word × Word) (f : Fld) : Option (Word × Word) :=
  let d := (l.pass : Int) * l.steps.getD f.num 0
  match stepCode (rawField wu.1 wu.2 f.num) d with
  | none => none
  | some c => match f with
    | .D => some (setField wu.1 17 7 c, wu.2)
    | .A => some (setField wu.1 10 7 c, wu.2)
    | .B => some (setField wu.1 3 7 c, wu.2)
    | .C => some (wu.1, setField wu.2 25 7 c)

/-- The TILE field after its step. -/
def stepTile (l : LoopSt) (wu : Word × Word) : Option (Word × Word) :=
  let t := ((wu.2.toNat / 2 ^ 19 % 4 : Nat) : Int) + (l.pass : Int) * l.steps.getD 4 0
  if 0 ≤ t && t < 4 then some (wu.1, setField wu.2 19 2 t.toNat) else none

def stepFlds (l : LoopSt) (wu : Word × Word) : List Fld → Option (Word × Word)
  | [] => some wu
  | f :: fs => match stepFld l wu f with
    | some x => stepFlds l x fs
    | none => none

/-- The words of an instruction in a pass of a loop; none where a code leaves its file (R286, R287). -/
def stepWords (l : LoopSt) (w u : Word) : Option (Word × Word) :=
  match decode w u with
  | .error _ => some (w, u)
  | .ok i => match stepFlds l (w, u) ((operands i).map Operand.fld) with
    | none => none
    | some x => if hasTile i then stepTile l x else some x

/-- The instruction of two words in a clause of class `cls`, at place `k` of `n`: a word that does not decode, and one
of a class that its place does not take, trap as an unassigned code does (R245, R247, R250, R259). -/
def instrAt (cls k n : Nat) (w u : Word) : Instr :=
  let c := opClass (opOf w)
  if (if c = 5 then k ≠ n else c ≠ cls) then .unassignedOpcode w
  else match decode w u with
    | .ok i => i
    | .error _ => .unassignedOpcode w

/-- The instruction that a path issues at a place past its header, and its issue context. -/
def State.fetched (s : State) (gid : Nat) (pos : Pos) (loop : Option LoopSt) (path mask : List Nat) : Instr × Cur :=
  let c := s.curAt gid pos path mask
  let cls := hdrCls (((kfind (s.grp gid).clauses pos.hdr).getD []).headD 0#32)
  match loop with
  | none => (instrAt cls pos.k c.n c.w c.u, c)
  | some l => match stepWords l c.w c.u with
    | none => (.unassignedOpcode c.w, c)
    | some (w, u) => (instrAt cls pos.k c.n w u,
        { c with w := w, u := u, ioff := (l.pass : Int) * l.steps.getD 5 0 })

/-! ### Clone comparison (R229) -/

/-- An operand that the instruction writes. -/
def Form.writes : Form → Bool
  | .dst | .pdst | .both | .bothZ => true
  | _ => false

/-- R229: the unit checks the register results and predicates of a lane's instruction, store addresses and data, branch outcomes
and exchanges, whichever unit gives them. It does not check data that memory returns, or the work of the matrix engine. -/
def cloneChecked (i : Instr) : Bool :=
  match i with
  | .st .. | .sta .. | .stw .. | .stP .. | .staP .. | .stwP .. | .stOff .. | .staOff .. | .stwOff .. | .stPOff .. | .staPOff ..
  | .stwPOff .. => true
  | .red .. | .redOff .. | .atom .. | .atomOff .. | .atoma .. | .atomaOff .. | .cvtb .. | .mtsr .. | .wait .. | .waita .. => true
  | .bra .. | .brx .. | .call .. | .callx .. | .ret => true
  | .icmp .. | .icmpD .. | .fcmp .. | .dcmp .. | .pand .. | .por .. | .pxor .. | .pnot .. | .pmov .. | .pset .. => true
  | .ld .. | .lda .. | .ldw .. | .ldOff .. | .ldaOff .. | .ldwOff .. => false
  | i => (operands i).any fun o => o.form.writes

/-- The instruction that a group's next path issues; none at a clause header. -/
def State.nextInstr (s : State) (gid : Nat) : Option Instr :=
  let g := s.grp gid
  let (path, _) := s.nextPath gid
  let lead := g.thr (path.headD 0)
  if path.isEmpty || lead.pos.k = 0 then none
  else some (s.fetched gid lead.pos lead.loop path (path.filter fun t => (g.thr t).gact)).1

end Sys2Proof.Machine
end

