-- ==== Sys2Proof/Machine/Wake.lean ====
section
/-! DEFINITION. What ends a park: results that land, header waits, replays of held loads, monitors, re-reads of words,
and barriers (R97, R119, R120, R126, R145, R184, R230, R231, R311 to R314, R321, R325). -/

namespace Sys2Proof.Machine

open Sys2Proof

/-! ### Results (R118 to R121) -/

/-- A pending write lands in its registers; where a register was written meanwhile, one of the two values stands
(R121, log entry 4). Its register is dead no longer, whichever stands (R138). -/
def Group.land (g : Group) (free : Nat) (p : Pend) : Group :=
  (List.range p.regs.length).foldl (fun g i =>
    let c := p.code + i
    let beats := p.beaten.contains c && Config.pendingStands (128 * free + i)
    g.putReg p.tix c (if beats then g.settled p.tix c else p.regs.getD i Reg.zero)) g

/-- Two pending writes are to one `g` register or to bytes of one window word: they perform in the order of the sweeps and
threads that issued them (R123, R134). -/
def Pend.overlaps (p q : Pend) : Bool :=
  match p.win, q.win with
  | some _, some _ => p.code < q.code + 4 && q.code < p.code + 4
  | none, none => 80 ≤ p.code && p.code < q.code + q.regs.length && q.code < p.code + p.regs.length
  | _, _ => false

/-- The pending write that lands in the place of one: the first that overlaps it. -/
def Group.landsFirst (g : Group) (idx : Nat) : Nat :=
  match g.pend[idx]? with
  | none => idx
  | some p => ((g.pend.take idx).findIdx? fun q => p.overlaps q).getD idx

/-- `RESULT_LANDING` (R119): a variable-latency write of a group lands. -/
def execResultLanding (gid idx : Nat) (s : State) : Out :=
  let idx := (s.grp gid).landsFirst idx
  match (s.grp gid).pend[idx]? with
  | none => .next s.tick
  | some p =>
    let s := s.updGrp gid fun g => { g with pend := g.pend.eraseIdx idx }
    let s := match p.win with
      | some key => (s.landWin gid p key).drainFrozen
      | none => s.updGrp gid fun g => g.land s.free p
    .next (s.unmark gid).tick

/-- `HEADER_WAIT` (R120): the group goes on at its header once the operations that its wait bits name have completed;
the deferred matrix faults are taken there (R366). -/
def execHeaderWait (gid : Nat) (s : State) : Out :=
  match (s.grp gid).gpark with
  | some (.header bits) =>
    if s.waitsDone gid bits then .next (s.updGrp gid fun g => { g with gpark := none }).tick else .next s.tick
  | _ => .next s.tick

/-- A held thread whose granule has been settled: its request, which is that of the lowest thread where the instruction is uniform
(R122), waits in no closed granule of its context. -/
def State.mayReplay (s : State) (gid t : Nat) : Bool :=
  (s.thr gid t).held && match s.xlat? (s.grp gid).ctx with
    | some x => x.closed.all fun g => !g.waiters.contains (s.agent gid (s.thr gid t).heldBy)
    | none => true

/-- `LOAD_REPLAY` (R145): the held threads of a group may replay their load, which their next issue does. -/
def execLoadReplay (gid : Nat) (s : State) : Out :=
  let tids := (List.range 16).filter (s.mayReplay gid)
  .next (tids.foldl (fun s t => s.updThr gid t fun x => { x with held := false, replay := true }) s).tick

/-! ### The lane (R97, R126, R230) -/

/-- `STARVATION_SWITCH` (R97): the lane chooses again after the current sweep, and the ready group that has waited
longest comes first; only one that has gone 2,048 lane cycles without issuing makes it choose. -/
def execStarvationSwitch (core lix : Nat) (s : State) : Out :=
  let lane := 128 * core + lix
  let wait := (s.laneGids lane).filter fun g => s.isReady g && s.starves g && some g ≠ s.laneHolds lane
  match wait with
  | [] => .next s.tick
  | g :: gs =>
    let first := gs.foldl (fun b h => if (s.grp h).last < (s.grp b).last then h else b) g
    let s := (s.laneGids lane).foldl (fun s h => s.updGrp h fun x => { x with again := true }) s
    .next (s.updGrp first fun x => { x with rank := .starved }).tick

/-- `TURN_LIMIT` (R126): a path that has issued 256 instructions ends its turn. -/
def execTurnLimit (gid : Nat) (s : State) : Out :=
  .next (s.updGrp gid fun g => if 256 ≤ g.turn then { g with turn := 0, turnAt := none } else g).tick

/-- `CLONE_REPLAY` (R230, R231): the sweep that a group issues next is replayed. `first` and `second` are the threads
for which the first and the second comparison disagree; the second is made where the first one does, and only what R229 lists
is compared. Each thread of the second traps `UNCORRECTABLE` at that instruction, a reliability event is raised, and the core is
first in line for the scan. -/
def execCloneReplay (gid : Nat) (first second : BitVec 16) (s : State) : Out :=
  let g := s.grp gid
  let path := (s.nextPath gid).1
  let bad := if first = 0#16 then [] else (tidsOf second.toNat).filter fun t => path.contains t && (g.thr t).gact
  if bad.isEmpty || g.kind = .pitcher || 32 ≤ (s.core g.core).replays.length || !(s.nextInstr gid).any cloneChecked then
    .next s.tick
  else
    let s := s.reliability (relWord 3 ((s.phys g.core).getD 0) 0 0 0)
    .next (s.updCore g.core fun c => { c with replays := c.replays ++ [⟨gid, path, bad⟩], scanDue := true, scanFirst := true }).tick

/-- `HARDWARE_END` (R184): the intervals of an agent end as at a pod-scope `FENCE`; they wait for its side-logged writes and its
window stores. -/
def execHardwareEnd (ag : Agent) (s : State) : Out :=
  if s.undrained ag then .next s.tick else .next (s.closeIv ag 7).tick

/-! ### Monitors (R311 to R314) -/

/-- A park record of a group, by its place. -/
def State.parkAt (s : State) (gid idx : Nat) : Option ParkRec :=
  if (s.grp gid).frozen then none
  else match (s.grp gid).parks[idx]? with
    | some r => if r.mask.isEmpty then none else some r
    | none => none

/-- The threads of a park complete their instruction. -/
def State.wake (s : State) (gid idx : Nat) (r : ParkRec) : State := ((s.unpark gid idx).resume gid r.mask).unmark gid

/-- What a parked watch returns: its latched event; a word that leaves the part may have been stored to by the host, a link peer or
another device, which no other event of the model shows: whether that changed it is a free value (R312, log entry 21). -/
def State.watchEvent (s : State) (w : Watch) : Option Nat :=
  w.latched.orElse fun _ =>
    if w.key < 2 ^ 64 then none else some (if Config.remoteP (256 * s.free + 255) then 0 else 1)

/-- `WAIT_WAKE` (R313): the watch of a parked `WAIT` has latched an event. -/
def execWaitWake (gid idx : Nat) (s : State) : Out :=
  match s.parkAt gid idx with
  | some ⟨mask, .wait dst _⟩ => match (s.thr gid (mask.headD 0)).watch with
    | some w => match s.watchEvent w with
      | some c => .next ((s.waitResult gid mask dst c).wake gid idx ⟨mask, .wait dst none⟩).tick
      | none => .next s.tick
    | none => .next s.tick
  | _ => .next s.tick

/-- `WAIT_TIMEOUT` (R313): the bound of a `WAIT` has passed; an event that has latched stands (R312). -/
def execWaitTimeout (gid idx : Nat) (s : State) : Out :=
  match s.parkAt gid idx with
  | some ⟨mask, .wait dst (some d)⟩ =>
    if s.now < d then .next s.tick
    else
    let code := match (s.thr gid (mask.headD 0)).watch with
      | some w => w.latched.getD 4
      | none => 4
    .next ((s.waitResult gid mask dst code).wake gid idx ⟨mask, .wait dst none⟩).tick
  | _ => .next s.tick

/-- `WAITA_WAKE` (R314): the word is read again; a word that still holds the old value leaves the threads parked. A
read that traps does so at the instruction, which the threads issue again. -/
def execWaitaWake (gid idx : Nat) (s : State) : Out :=
  match s.parkAt gid idx with
  | some ⟨mask, .waita dst off ap old⟩ =>
    let t := mask.headD 0
    match s.reach (s.who gid t) (Acc.read .A off 4).synced with
    | (s, .ok key _) =>
      let v := s.mem.num key 4
      if v = old.toNat then .next s.tick
      else
        let p := s.mem.anyP key 4 || ap || (s.grp gid).ambientAny mask
        .next (((s.overtakes gid t dst).pendRegs gid t dst [⟨BitVec.ofNat 32 v, p⟩] 0).wake gid idx ⟨mask, .huddle 0⟩).tick
    | (s, .trap _) => .next (s.unpark gid idx).tick
    | (s, _) => .next s.tick
  | _ => .next s.tick

/-- `PWAIT_REREAD` (R325): the phase word is read again. -/
def execPwaitReread (gid idx : Nat) (s : State) : Out :=
  match s.parkAt gid idx with
  | some ⟨mask, .pwait off phase⟩ =>
    match s.reach (s.who gid (mask.headD 0)) (Acc.read .A off 4).synced with
    | (s, .ok key _) =>
      if (s.mem.num key 4 / 2 ^ 31 % 2 = 1) = phase then .next (s.wake gid idx ⟨mask, .huddle 0⟩).tick else .next s.tick
    | (s, .trap _) => .next (s.unpark gid idx).tick
    | (s, _) => .next s.tick
  | _ => .next s.tick

/-! ### Barriers (R194, R321) -/

/-- The threads of the launch's gangs in the same domain as an arriving thread. -/
def State.barThreads (s : State) (lid dom : Nat) (a : Agent) : List (Nat × Nat) :=
  (s.groups.filter fun e => e.2.lid = lid && e.2.kind.isGang).flatMap fun e =>
    (e.2.liveTids.filter fun t => withinDom s dom a (s.agent e.1 t)).map fun t => (e.1, t)

/-- A thread parked at the barrier of a level; levels of one scope have barriers of their own (R321). -/
def State.atBar (s : State) (lvl dom : Nat) (e : Nat × Nat) : Bool :=
  (s.grp e.1).parks.any fun r => r.kind = .bar lvl dom && r.mask.contains e.2

/-- A held instance of the launch in the domain has threads that have not arrived (R322). -/
def State.heldOut (s : State) (lid dom : Nat) (a : Agent) : Bool :=
  2 ≤ dom && s.helds.any fun h => h.lid = lid && h.groups.any fun g =>
    (g.threads.any fun t => t.life = .live) && (List.range 16).any fun t =>
      withinDom s dom a ⟨.T, g.gid / 512, g.gid, t⟩

/-- Two cores lie in one instance of a scope domain of at least a core. -/
def coresMeet (s : State) (dom k j : Nat) : Bool := 3 ≤ dom && withinDom s dom ⟨.T, k, 0, 0⟩ ⟨.T, j, 0, 0⟩

/-- R194: an update, or an open batch, from one core of the scope to another is still to be applied. -/
def State.updatesOut (s : State) (dom k : Nat) : Bool :=
  s.cores.any fun e => coresMeet s dom k e.1 &&
    ((e.2.upds.any fun u => coresMeet s dom k u.src) ||
      e.2.srcs.any fun x => !x.open_.isEmpty && x.subs.any fun y => coresMeet s dom k y.1)

/-- A thread leaves the barrier: an acquire and a release at its scope; a refused side-logged write traps it (R170). -/
def State.leaveBar (s : State) (lvl dom : Nat) (e : Nat × Nat) : State :=
  let s := s.closeIv (s.agent e.1 e.2) dom
  let s := s.updGrp e.1 fun g => { g with parks := (g.parks.map fun r =>
    if r.kind = .bar lvl dom then { r with mask := r.mask.filter (· ≠ e.2) } else r).filter fun r => !r.mask.isEmpty }
  let w := s.who e.1 e.2
  match s.sideRefused w with
  | some (a, c) => (s.dropSideRef w).updThr e.1 e.2 fun x => { x with owed := some (c, a) }
  | none => s.resume e.1 [e.2]

/-- `BAR_COMPLETE` (R321): every participant has arrived, or has ended; its side-logged writes and window stores are in memory,
and the updates of R194 are applied. -/
def execBarComplete (gid idx : Nat) (s : State) : Out :=
  match s.parkAt gid idx with
  | some ⟨mask, .bar lvl dom⟩ =>
    let g := s.grp gid
    let a := s.agent gid (mask.headD 0)
    let ts := s.barThreads g.lid dom a
    if ts.all (fun e => s.atBar lvl dom e && !s.undrained (s.agent e.1 e.2)) && !s.heldOut g.lid dom a
      && !s.updatesOut dom g.core then .next (ts.foldl (fun s e => s.leaveBar lvl dom e) s).tick
    else .next s.tick
  | _ => .next s.tick

end Sys2Proof.Machine
end

