-- ==== Sys2Proof/Machine/Host.lean ====
section
/-! DEFINITION. The host interface: the registers of BAR 0 (R66 to R70), binding (R68, R155, R156), the freeze controls
(R81, R82), and host accesses to memory (R154, R189). -/

namespace Sys2Proof.Machine

open Sys2Proof

/-! ### Queues (R69, R70) -/

/-- A doorbell write of a new TAIL (R70). -/
def State.doorbell (s : State) (part q : Nat) (v : Word) : State :=
  let p := s.parts.getD part Part.reset
  let x := s.queue part q
  if s.dev.safe || s.dev.silent || !p.bound || 16 ≤ part || 64 ≤ q then s
  else
    let tooFar := x.ring < (v.toNat + 2 ^ 32 - x.head) % 2 ^ 32
    let behind := 2 ^ 31 ≤ (v.toNat + 2 ^ 32 - x.tail) % 2 ^ 32
    if p.drain || tooFar || behind then s.updQueue part q fun x => { x with ovf := true }
    else s.updQueue part q fun x => { x with tail := v.toNat }

/-- `DOORBELL` (R70). -/
def execDoorbell (part q : Nat) (v : Word) (s : State) : Out := .next (s.doorbell part q v).tick

/-- `QUEUE_TAIL` (R69): as the doorbell. -/
def execQueueTail (part q : Nat) (v : Word) (s : State) : Out := .next (s.doorbell part q v).tick

def State.setEnable (s : State) (part q : Nat) (on : Bool) : State :=
  if part < 16 && q < 64 && !s.dev.silent then s.updQueue part q fun x => { x with enable := on } else s

/-- `QUEUE_ENABLE` (R70). -/
def execQueueEnable (part q : Nat) (on : Bool) (s : State) : Out := .next (s.setEnable part q on).tick

/-! ### Binding (R68, R155, R156) -/

/-- Every byte of a range is present memory of a die. -/
def State.present (s : State) (die a n : Nat) : Bool :=
  (List.range (n / 2 ^ 16 + 2)).all fun i => s.paPresent die (min (a + i * 2 ^ 16) (a + n - 1))

/-- A table of a die's block at a key, or none where a field or its range is bad. -/
def State.readTable (s : State) (die k : Nat) : Option Table :=
  let base := s.mem.num k 8 / 64 % 2 ^ 31 * 64
  let log := s.mem.num (k + 8) 4 % 32
  if 6 ≤ log && log ≤ 24 && s.present die base (128 * 2 ^ log) then some ⟨base, log, none⟩ else none

/-- A ring of a die's block: its base and log. -/
def State.readRing (s : State) (die k : Nat) : Option (Nat × Nat) :=
  let base := s.mem.num k 8 / 64 % 2 ^ 31 * 64
  let log := s.mem.num (k + 8) 4 % 16
  if 2 ≤ log && log ≤ 12 && s.present die base (32 * 2 ^ log) then some (base, log) else none

/-- The block of a die at a key (R155). Commands submitted before the bind have run (log entry 30). -/
def State.readDie (s : State) (die k : Nat) : Option DieX := do
  let t0 ← s.readTable die k
  let t1 ← s.readTable die (k + 0x10)
  let t2 ← s.readTable die (k + 0x20)
  let c ← s.readRing die (k + 0x30)
  let f ← s.readRing die (k + 0x40)
  return ⟨[t0, t1, t2], c.1, c.2, k + 0x3C, s.mem.num (k + 0x3C) 4, f.1, f.2, 0⟩

/-- The descriptor that an XLAT value names, or none where the bind is refused (R155, R156). -/
def State.readXlat (s : State) (v : Nat) : Option Xlat := do
  if v / 2 ^ 37 ≠ 0 || v % 64 ≠ 0 || !s.present 0 v 576 then none
  let k := globalKey 0 v
  let fvec := s.mem.num (k + 0x18) 4 % 256
  let save := s.mem.num k 8
  if save % 2 ^ 16 ≠ 0 || 63 < fvec then none
  let d0 ← s.readDie 0 (k + 0x40)
  let d1 ← s.readDie 1 (k + 0xC0)
  let d2 ← s.readDie 2 (k + 0x140)
  let d3 ← s.readDie 3 (k + 0x1C0)
  return ⟨save, s.mem.num (k + 8) 8, s.mem.num (k + 16) 8, fvec, [d0, d1, d2, d3], [], []⟩

/-- The code words of a descriptor are classified before it is read (R171, log entry 66). -/
def State.xlatReads (s : State) (v : Nat) : State :=
  if v / 2 ^ 37 ≠ 0 || v % 64 ≠ 0 || !s.present 0 v 576 then s else s.classify (globalKey 0 v) 576

/-- Another bound partition has one of the quads. -/
def State.quadTaken (s : State) (part mask : Nat) : Bool :=
  (List.range 16).any fun n =>
    let p := s.parts.getD n Part.reset
    n ≠ part && p.bound && p.quadmask &&& mask ≠ 0

/-- A write of BOUND = 1 (R68); the W buffers of the cores become settled zero (R147). -/
def State.bindPart (s : State) (part : Nat) : State :=
  let p := s.parts.getD part Part.reset
  if 16 ≤ part || p.bound || s.dev.silent then s
  else
    let s := s.xlatReads p.xlatReg
    let refuse := s.updPart part fun p => { p with binderr := true }
    if s.quadTaken part p.quadmask then refuse
    else match s.readXlat p.xlatReg with
      | none => refuse
      | some x =>
        let s := s.updPart part fun p => { p with bound := true, x := some x }
        (s.partCores part).foldl (fun s k => { s with mem := s.mem.clear (wKey k 0) (2 ^ 24) }) s

/-- `BIND` (R68). -/
def execBind (part : Nat) (s : State) : Out := .next (s.bindPart part).tick

/-- No engine command, transfer or pitcher program of a context is on a core. -/
def Core.noCmds (c : Core) (ctx : Nat) : Bool :=
  (c.cmds.all fun x => x.ctx ≠ ctx) && (c.xfers.all fun x => x.ctx ≠ ctx) && (c.starts.all fun p => p.ctx ≠ ctx)
    && c.run.all fun p => p.ctx ≠ ctx

/-- No thread of a context waits on a core to be launched, in a bin or as an active message. -/
def Core.noBins (c : Core) (ctx : Nat) : Bool := (c.bins.all fun b => b.ctx ≠ ctx) && c.inq.all fun m => m.ctx ≠ ctx

/-- R67: DRAIN is set, and no record, group or engine command of the context runs. A record runs from its start to its
completion; one that is only staged does not run. DEDUCED (log entry 72): threads in a bin and active messages that are still to
launch their groups run too, so that no quad of an unbound partition runs any (R68). -/
def State.isDrained (s : State) (part : Nat) : Bool :=
  (s.parts.getD part Part.reset).drain && (s.launches.all fun l => l.ctx ≠ part || !l.started)
    && (s.groups.all fun e => e.2.ctx ≠ part) && s.cores.all fun k => k.2.noCmds part && k.2.noBins part

/-- A write of BOUND = 0 (R68). DESIGN CHOICE (log entry 72): records that are still staged or in the device pool, and the
active-message records that are installed on its cores (R78), stay for the next bind. -/
def State.unbindPart (s : State) (part : Nat) : State :=
  if !(s.parts.getD part Part.reset).bound || !s.isDrained part then s
  else
    let s := s.updPart part fun p => { p with bound := false, x := none }
    { s with tlb := s.tlb.filter fun t => t.ctx ≠ part }

/-- `UNBIND` (R68). -/
def execUnbind (part : Nat) (s : State) : Out := .next (s.unbindPart part).tick

def State.setDrain (s : State) (part : Nat) (on : Bool) : State :=
  if s.dev.silent then s else s.updPart part fun p => { p with drain := on }

/-- `DRAIN` (R67). -/
def execDrain (part : Nat) (on : Bool) (s : State) : Out := .next (s.setDrain part on).tick

/-! ### Freeze controls (R81) -/

def State.flogAt (s : State) (entry : Nat) : Option Freeze := s.flog.find? fun e => e.slot = entry

def State.dropFreeze (s : State) (entry : Nat) : State := { s with flog := s.flog.filter fun e => e.slot ≠ entry }

def State.setLink (s : State) (n : Nat) (l : LinkSt) : State :=
  { s with dev := { s.dev with links := s.dev.links.set n l } }

/-- A host queue checks its staged record again: one that is still malformed freezes it again (R81). -/
def State.recheck (s : State) (part q : Nat) : State :=
  let s := s.updQueue part q fun x => { x with frozen := false }
  match (s.queue part q).stage with
  | none => s
  | some lid => match s.launch? lid with
    | some l => if l.malformed then s.freezeQueue part q 0x20 l.addr else s
    | none => s

/-- A link that held its traffic goes on: its held requests are made again, in their order for each line (`heldBefore`), what it
holds of other messages leaves, and what waits at its port arrives in its order, before any other event (R32, R81). -/
def State.openLink (s : State) (n : Nat) : State :=
  let s := s.setLink n .trained
  let late := (s.dev.linkIn.filter fun e => e.1 = n).map Prod.snd
  { s with
    agenda := late ++ s.agenda
    dev := { s.dev with
      outbox := s.dev.outbox ++ s.dev.linkOut.filter fun m => m.link = some n
      linkOut := s.dev.linkOut.filter fun m => m.link ≠ some n
      linkIn := s.dev.linkIn.filter fun e => e.1 ≠ n } }

/-- The master of an entry resumes, and its violating side-logged writes may replay again. A second entry of one group is of a
group that stood in its slot before, or of a violation that still holds it. -/
def State.thaw (s : State) (e : Freeze) : State :=
  let free := fun (f : SideEnt → Bool) (c : Core) => { c with side := c.side.map fun x => if f x then { x with stuck := false } else x }
  let gid := 512 * e.core + e.unit
  match e.master with
  | 1 => if s.flog.any fun f => f.master = 1 && f.core = e.core && f.unit = e.unit then s
    else (s.updCore e.core (free fun x => x.agent.path = .T && x.agent.gid = gid)).updGrp gid fun g => { g with frozen := false }
  | 2 => s.updCore e.core fun c => free (fun x => x.agent.path ≠ .T && x.ctx = e.ctx)
      { c with engFrozen := c.engFrozen.filter (· ≠ e.ctx) }
  | 3 => s.recheck e.ctx e.unit
  | _ => if s.link e.unit = .frozen then s.openLink e.unit else s

/-- The die of a link (R29). -/
def linkDie (k : Nat) : Nat := if k < 5 then 0 else if k < 9 then 1 else if k < 14 then 2 else 3

/-- A link is fenced (R32): the requests that it holds end, those that wait at its port are gone, its plane leaves the hash,
and the mailbox lists it (R37). DESIGN CHOICE (log entry 56): REASON is 0x02 also where a KILL fences the link, for no listed
reason names that. DESIGN CHOICE (log entry 82): answers and completion words of a kill that the link holds outward are dropped
without a notice. -/
def State.fenceLink (s : State) (n : Nat) : State :=
  let s := s.setLink n .fenced
  let s := { s with dev := { s.dev with
    linkLost := s.dev.linkLost ++ s.dev.linkHeld.filter (fun (q : LinkReq) => q.link = n)
    linkHeld := s.dev.linkHeld.filter fun q => q.link ≠ n
    linkOut := s.dev.linkOut.filter fun m => m.link ≠ some n
    linkIn := s.dev.linkIn.filter fun e => e.1 ≠ n } }
  s.mailEntry (mailWord 5 (linkDie n) n 2)

/-- The staged record of a frozen queue is discarded (R81); a launch that waited for it takes it as done (R74). -/
def State.skipStage (s : State) (part q : Nat) : State :=
  let lid := (s.queue part q).stage
  let s := s.updQueue part q fun x => { x with stage := none, frozen := false }
  match lid with
  | none => s
  | some n =>
    let s : State := { s with launches := (s.launches.filter fun l => l.lid ≠ n).map (Launch.after n 1) }
    s.dropMarks fun m => m.lid = n

/-- An `FCTL` action on an entry. -/
def State.fctl (s : State) (action entry : Nat) : State :=
  if s.dev.silent then s
  else match s.flogAt entry with
  | none => s
  | some e => match action, e.master with
    | 1, _ => (s.dropFreeze entry).thaw e
    | 2, 4 => (s.dropFreeze entry).fenceLink e.unit
    | 2, _ => s.kill e.ctx
    | 3, 3 => (s.dropFreeze entry).skipStage e.ctx e.unit
    | _, _ => s

/-- `UNFREEZE` (R81). -/
def execUnfreeze (entry : Nat) (s : State) : Out := .next (s.fctl 1 entry).tick

/-- `KILL` (R81). -/
def execKill (entry : Nat) (s : State) : Out := .next (s.fctl 2 entry).tick

/-- `SKIP` (R81). -/
def execSkip (entry : Nat) (s : State) : Out := .next (s.fctl 3 entry).tick

/-! ### Registers (R66) -/

/-- A 64-bit field with one of its halves written. -/
def putHalf (old : Nat) (hi : Bool) (v : Nat) : Nat := if hi then old % 2 ^ 32 + v * 2 ^ 32 else old / 2 ^ 32 * 2 ^ 32 + v

/-- A write to word o of a partition entry (R67, R68). DESIGN CHOICE (log entry 57): of one write of BOUND and DRAIN, DRAIN is
stored first. -/
def State.writePart (s : State) (n o v : Nat) : State :=
  let p := s.parts.getD n Part.reset
  match o with
  | 0x00 | 0x04 => if p.bound then s else s.updPart n fun p => { p with quadmask := putHalf p.quadmask (o = 4) v }
  | 0x08 | 0x0C => if p.bound then s else s.updPart n fun p => { p with xlatReg := putHalf p.xlatReg (o = 0xC) v }
  | 0x10 =>
    let s := if v / 2 ^ 28 % 2 = 1 then s.updPart n fun p => { p with binderr := false } else s
    let s := s.setDrain n (v / 2 ^ 30 % 2 = 1)
    if v / 2 ^ 31 % 2 = 1 then s.bindPart n else s.unbindPart n
  | _ => s

/-- A write to word o of a queue's registers (R69). DESIGN CHOICE (log entry 58): a RINGBASE that is not 256-byte aligned is
stored and used as written. -/
def State.writeQueue (s : State) (n q o : Nat) (w : Word) : State :=
  let v := w.toNat
  match o with
  | 0x00 | 0x04 => s.updQueue n q fun x => { x with ringbase := putHalf x.ringbase (o = 4) v }
  | 0x08 => s.updQueue n q fun x => { x with
      enable := v / 2 ^ 31 % 2 = 1, ovf := x.ovf && v / 2 ^ 29 % 2 = 0, vector := v / 2 ^ 16 % 2 ^ 8
      priocap := v / 2 ^ 13 % 8, ringlog := v % 32 }
  | 0x0C => s.updQueue n q fun x => { x with wdog := v }
  | 0x14 => s.doorbell n q w
  | _ => s

/-- A write to a BAR 0 offset (R66): RW fields are stored, W1C bits cleared, and a register with a behaviour acts. -/
def State.barWrite (s : State) (off : Nat) (w : Word) : State :=
  let v := w.toNat
  if off % 4 ≠ 0 || s.dev.silent then s
  else if off = 0x10 then s.fctl (v / 2 ^ 30) (v % 64)
  else if off = 0x14 then (if v / 2 ^ 31 = 1 then { s with logovf := false } else s)
  else if 0x1000 ≤ off && off < 0x1200 then s.writePart ((off - 0x1000) / 32) (off % 32) v
  else if 0x10000 ≤ off && off < 0x18000 then
    s.writeQueue ((off - 0x10000) / 0x800) ((off - 0x10000) % 0x800 / 32) (off % 32) w
  else if 0x20000 ≤ off && off < 0x30000 && off % 0x1000 < 0x100 then
    s.doorbell ((off - 0x20000) / 0x1000) (off % 0x1000 / 4) w
  else s

/-- `REGISTER_WRITE` (R66). -/
def execRegisterWrite (off : Nat) (v : Word) (s : State) : Out := .next (s.barWrite off v).tick

def bit (b : Bool) (n : Nat) : Nat := if b then 2 ^ n else 0

/-- The half of a 64-bit field at its word. -/
def half (v : Nat) (hi : Bool) : Nat := (if hi then v / 2 ^ 32 else v) % 2 ^ 32

/-- Word o of a partition entry (R67). -/
def State.partWord (s : State) (n o : Nat) : Nat :=
  let p := s.parts.getD n Part.reset
  match o with
  | 0x00 | 0x04 => half p.quadmask (o = 4)
  | 0x08 | 0x0C => half p.xlatReg (o = 0xC)
  | 0x10 => bit p.bound 31 + bit p.drain 30 + bit (s.isDrained n) 29 + bit p.binderr 28
  | _ => 0

/-- Word o of a queue's registers (R69). -/
def State.queueWord (s : State) (n q o : Nat) : Nat :=
  let x := s.queue n q
  match o with
  | 0x00 | 0x04 => half x.ringbase (o = 4)
  | 0x08 => bit x.enable 31 + bit x.frozen 30 + bit x.ovf 29 + x.vector % 2 ^ 8 * 2 ^ 16 + x.priocap % 8 * 2 ^ 13 + x.ringlog % 32
  | 0x0C => x.wdog % 2 ^ 32
  | 0x10 => x.head % 2 ^ 32
  | 0x14 => x.tail % 2 ^ 32
  | _ => 0

/-- The four words of a freeze-log slot; an invalid one reads 0 (R80). -/
def State.freezeWords (s : State) (slot : Nat) : List Nat :=
  match s.flogAt slot with
  | none => [0, 0, 0, 0]
  | some e => [e.master * 2 ^ 28 + e.ctx * 2 ^ 24 + e.cause * 2 ^ 16 + e.seq, e.core * 2 ^ 9 + e.unit, e.addr % 2 ^ 32,
      e.addr / 2 ^ 32]

/-- `FSTAT` (R80). -/
def State.fstat (s : State) : Nat := bit s.logovf 31 + s.flog.length

/-- The status word of the mailbox (R37). -/
def Device.mailStatus (d : Device) : Nat := bit d.safe 31 + bit d.ready 30 + d.stage * 2 ^ 8 + d.mail.length

/-- The word that a read of a BAR 0 offset gives (R5, R6, R66): reserved and write-only fields, `FCTL` among them, and offsets
that are not listed read 0. DESIGN CHOICE (log entry 59): a doorbell reads 0. -/
def State.barRead (s : State) (off : Nat) : Nat :=
  if off % 4 ≠ 0 || s.dev.silent then 0
  else if off = 0x14 then s.fstat
  else if 0x1000 ≤ off && off < 0x1200 then s.partWord ((off - 0x1000) / 32) (off % 32)
  else if 0x2000 ≤ off && off < 0x2400 then (s.freezeWords ((off - 0x2000) / 16)).getD (off % 16 / 4) 0
  else if off = 0xF000 then s.dev.mailStatus
  else if 0xF004 ≤ off && off < 0xF104 then s.dev.mail.getD ((off - 0xF004) / 4) 0
  else if 0x10000 ≤ off && off < 0x18000 then
    s.queueWord ((off - 0x10000) / 0x800) ((off - 0x10000) % 0x800 / 32) (off % 32)
  else 0

/-- Words that are written from a BAR 0 offset on, in their order. -/
def State.barWrites (s : State) (off : Nat) : List Word → State
  | [] => s
  | w :: ws => (s.barWrite off w).barWrites (off + 4) ws

/-- The whole words of some bytes. -/
def wordsOf (bs : List Byte) : List Word := (List.range (bs.length / 4)).map fun i => BitVec.ofNat 32 (leNat ((bs.drop (4 * i)).take 4))

/-- The bytes that a read of registers gives. -/
def State.barBytes (s : State) (off n : Nat) : List Nat :=
  (List.range n).map fun i => s.barRead ((off + i) / 4 * 4) / 2 ^ (8 * ((off + i) % 4)) % 256

/-! ### Fault records (R167, R168) -/

def State.dieX? (s : State) (part die : Nat) : Option DieX :=
  match s.xlat? part with
  | some x => x.dies[die]?
  | none => none

/-- A word that the device writes at a memory key; watches see it (R312). -/
def State.devStore (s : State) (key : Nat) (bs : List Byte) : State :=
  let old := s.mem
  ({ s with mem := s.mem.store key bs false false 0 }).watchesSee old key bs.length

/-- The granule waits for its record. -/
def Gran.pending (g : Gran) : Bool := !g.mapped && !g.denied

/-- The closed granule that waits on a record of a die's ring. -/
def State.granOf (s : State) (part die rec_ : Nat) : Option Gran :=
  match s.xlat? part, s.dieX? part die with
  | some x, some d => x.closed.find? fun g => g.die = die && g.rec_ % 2 ^ d.frlog = rec_ % 2 ^ d.frlog && g.pending
  | _, _ => none

def Gran.is (g h : Gran) : Bool := g.die = h.die && g.gran = h.gran
def State.updGran (s : State) (part : Nat) (g : Gran) (f : Gran → Gran) : State :=
  s.updX part fun x => { x with closed := x.closed.map fun h => if h.is g then f h else h }

/-- The key of a granule's record, whose first byte is its STATUS. -/
def State.recKey (s : State) (part : Nat) (g : Gran) : Option Nat := (s.dieX? part g.die).map fun d => d.frKey g.die g.rec_

/-- The STATUS byte of a granule's record. -/
def State.recStatus (s : State) (part : Nat) (g : Gran) (v : Nat) : State :=
  match s.recKey part g with
  | some k => s.devStore k [BitVec.ofNat 8 v]
  | none => s

def State.signalF (s : State) (part : Nat) : State :=
  match s.xlat? part with
  | some x => if x.fvec = 0 then s else s.signal x.fvec
  | none => s

/-- The host wrote 2 (R167): the die walks the granule again. -/
def State.recMapped (s : State) (part : Nat) (g : Gran) : State :=
  let s := match s.xlat? part with
    | some x => s.walkReads x g.die (g.gran * 2 ^ 16)
    | none => s
  match (s.xlat? part).bind fun x => s.walk x g.die (g.gran * 2 ^ 16) with
  | none => (s.recStatus part g 1).signalF part
  | some _ => (s.recStatus part g 0).updGran part g fun h => { h with mapped := true }

/-- The host wrote 3 (R168): the held reads of the granule end refused, and its side-logged writes are dropped as the side logs
reach them. -/
def State.recRefused (s : State) (part : Nat) (g : Gran) : State :=
  let n := 2 ^ 34 * g.die + g.gran
  let s := (s.recStatus part g 0).updGran part g fun h => { h with denied := true, waiters := [] }
  s.updX part fun x => { x with refused := x.refused ++ g.waiters.map fun a => (a, n) }

/-- The monitor on a pending record's STATUS: what the host has written there acts (R167). -/
def State.recActs (s : State) (part : Nat) (g : Gran) : State :=
  match (s.recKey part g).map fun k => s.mem.num k 1 with
  | some 2 => s.recMapped part g
  | some 3 => s.recRefused part g
  | _ => s

/-- The pending records of a context. -/
def State.pendingOf (s : State) (part : Nat) : List Gran := ((s.xlat? part).map fun x => x.closed.filter Gran.pending).getD []

/-- Every pending record's monitor after a host write. -/
def State.recsAct (s : State) : State :=
  (List.range 16).foldl (fun s n => (s.pendingOf n).foldl (fun s g => s.recActs n g) s) s

/-! ### Host accesses (R154, R189) -/

def State.reply (s : State) (kind : Nat) (data : List Nat) : State :=
  { s with dev := { s.dev with replies := s.dev.replies ++ [⟨kind, data⟩] } }

/-- The key that a host access reaches, inside the window of one die: physical while partition 0 is unbound, translated
as context 0's space once it is bound (R154); none where nothing is present or the page refuses it. DESIGN CHOICE (log entry 31): an
access to a page with HOST = 1 reads zero, and writes nothing. -/
def State.hostKey (s : State) (off : Nat) (wr : Bool) : State × Option Nat :=
  let die := off / 2 ^ 37 % 4
  let a := off % 2 ^ 37
  if 2 ^ 39 ≤ off then (s, none)
  else if !(s.parts.getD 0 Part.reset).bound then (s, if s.paPresent die a then some (globalKey die a) else none)
  else match s.translate 0 die a with
    | (s, .ok false pa attr) =>
      if attrBit attr (if wr then 2 else 1) && !(attrBit attr 7 && !s.mem.tagsAre (globalKey die pa) 1 0)
      then (s, some (globalKey die pa)) else (s, none)
    | (s, _) => (s, none)

/-- The parts of a host write, each inside one sector: settled data, seen by watches (R173, R312). -/
def State.hostWriteList (s : State) : List (Nat × Nat) → List Byte → State
  | [], _ => s
  | c :: cs, bs =>
    let part := bs.take c.2
    let s := match s.hostKey c.1 true with
      | (s, none) => s
      | (s, some k) => s.put (hwWho 0 0) (Acc.write .global 0 c.2 false) k part false false false
    s.hostWriteList cs (bs.drop c.2)

/-- The bytes of a host read; what is not present reads zero. -/
def State.hostReadList (s : State) : List (Nat × Nat) → State × List Byte
  | [] => (s, [])
  | c :: cs =>
    let (s, bs) := match s.hostKey c.1 false with
      | (s, none) => (s, List.replicate c.2 0#8)
      | (s, some k) => (s.classify k c.2, s.mem.read k c.2)
    let r := s.hostReadList cs
    (r.1, bs ++ r.2)

/-- The bytes that a host access writes. -/
def hostBytes (x : HostAcc) : List Byte := (x.data ++ List.replicate x.len 0#8).take x.len

/-- An access to the registers of BAR 0 (R66); a write is made in whole words (log entry 59). -/
def State.hostReg (s : State) (x : HostAcc) : State :=
  if x.write then s.barWrites x.off (wordsOf (hostBytes x)) else s.reply 0 (s.barBytes x.off x.len)

/-- An access to memory, through BAR 2 or CXL. -/
def State.hostMem (s : State) (x : HostAcc) : State :=
  let cs := chunks x.off x.len
  if x.write then (s.hostWriteList cs (hostBytes x)).recsAct
  else
    let (s, bs) := s.hostReadList cs
    s.reply 0 (bs.map BitVec.toNat)

/-- `HOST_ACCESS` (R154): through BAR 2 or CXL, untracked (R189), or to the registers of BAR 0 (R66). A device that does not
enumerate answers nothing (R33). -/
def execHostAccess (x : HostAcc) (s : State) : Out :=
  .next (if s.dev.silent then s else if x.reg then s.hostReg x else s.hostMem x).tick

end Sys2Proof.Machine
end

