-- ==== Sys2Proof/Machine/Xlate.lean ====
section
/-! DEFINITION. The memory side: translation commands (R163 to R166), fault records and the side log (R167 to R170), and
requests at their owner slice (R151, R159, R171). -/

namespace Sys2Proof.Machine

open Sys2Proof

/-! ### Translation commands (R163) -/

def State.updDie (s : State) (part die : Nat) (f : DieX → DieX) : State :=
  s.updX part fun x => { x with dies := x.dies.modify die f }

/-- A command at the head of a die's ring: its key and fields (R163). -/
structure XCmd where
  key  : Nat
  op   : Nat
  size : Nat
  off  : Nat
  addr : Nat
  nlog : Nat
deriving DecidableEq, Repr

/-- The next command that was submitted and has not run. -/
def State.nextCmd (s : State) (part die : Nat) : Option XCmd :=
  match s.dieX? part die with
  | none => none
  | some d =>
    if d.ran = s.mem.num d.ctailAt 4 then none
    else
      let k := globalKey die (d.crbase + 32 * (d.ran % 2 ^ d.crlog))
      let w := s.mem.num k 4
      some ⟨k, w % 256, w / 2 ^ 16 % 4, s.mem.num (k + 8) 8 % 2 ^ 50, s.mem.num (k + 16) 8 % 2 ^ 37,
        s.mem.num (k + 24) 4 % 32⟩

/-- A command completes: its STATUS is written before the next begins. -/
def State.cmdStatus (s : State) (part die : Nat) (c : XCmd) (status : Nat) : State :=
  (s.devStore (c.key + 1) [BitVec.ofNat 8 status]).updDie part die fun d => { d with ran := (d.ran + 1) % 2 ^ 32 }

/-- The code words of a die's ring are classified before a command is read there: of the word that tells its tail, and of the entry
(R171, log entry 66). -/
def State.cmdReads (s : State) (part die : Nat) : State :=
  match s.dieX? part die with
  | none => s
  | some d =>
    let s := s.classify d.ctailAt 4
    if d.ran = s.mem.num d.ctailAt 4 then s else s.classify (globalKey die (d.crbase + 32 * (d.ran % 2 ^ d.crlog))) 32

/-- A command of an operation runs; one that the operation refuses, or whose OP is none of the five, is malformed and
changes nothing (R163). -/
def State.runCmd (s : State) (part die op : Nat) (f : State → XCmd → DieX → State × Bool) : State :=
  let s := s.cmdReads part die
  match s.nextCmd part die, s.dieX? part die with
  | some c, some d =>
    if c.op = 0 || 5 < c.op || (c.op = op && c.size = 3) then s.cmdStatus part die c 2
    else if c.op ≠ op then s
    else match f s c d with
      | (t, true) => t.cmdStatus part die c 1
      | (t, false) => t.cmdStatus part die c 2
  | _, _ => s

/-- The cached translations of a context on a die that a test picks are removed (R166). -/
def State.dropTlb (s : State) (part die : Nat) (f : Tlb → Bool) : State :=
  { s with tlb := s.tlb.filter fun t => !(t.ctx = part && t.die = die && f t) }

/-- `INVAL` (R163). -/
def execInval (part die : Nat) (s : State) : Out :=
  .next (s.runCmd part die 1 fun s c _ =>
    if c.off % 2 ^ pageLog c.size ≠ 0 then (s, false)
    else (s.dropTlb part die fun t => t.size = c.size && t.vpn = c.off / 2 ^ pageLog c.size, true)).tick

/-- `INVALALL` (R163). -/
def execInvalall (part die : Nat) (s : State) : Out :=
  .next (s.runCmd part die 2 fun s _ _ => (s.dropTlb part die fun _ => true, true)).tick

/-- The table of a size in a die's copy. -/
def DieX.table (d : DieX) (size : Nat) : Table := d.tables.getD size ⟨0, 0, none⟩
def DieX.setTable (d : DieX) (size : Nat) (t : Table) : DieX := { d with tables := d.tables.set size t }

/-- `RESIZE` (R164). DESIGN CHOICE (log entry 38): one whose new table does not lie in present memory is malformed. -/
def execResize (part die : Nat) (s : State) : Out :=
  .next (s.runCmd part die 3 fun s c d =>
    let t := d.table c.size
    if t.new_.isSome || c.nlog ≤ t.log || 24 < c.nlog || c.addr % 64 ≠ 0 || !s.present die c.addr (128 * 2 ^ c.nlog) then (s, false)
    else (s.updDie part die fun d => d.setTable c.size { t with new_ := some (c.addr, c.nlog) }, true)).tick

/-- The key of a table's fields in the translation descriptor (R155). -/
def State.tableKey (s : State) (part die size : Nat) : Nat :=
  globalKey 0 ((s.parts.getD part Part.reset).xlatReg + 0x40 + 0x80 * die + 0x10 * size)

/-- `RESIZEEND` (R164). -/
def execResizeend (part die : Nat) (s : State) : Out :=
  .next (s.runCmd part die 4 fun s c d =>
    match (d.table c.size).new_ with
    | none => (s, false)
    | some (b, l) =>
      let k := s.tableKey part die c.size
      let s := (s.devStore k (leBytes 8 b)).devStore (k + 8) (leBytes 4 l)
      (s.updDie part die fun d => d.setTable c.size ⟨b, l, none⟩, true)).tick

/-! ### Migration (R165) -/

/-- A key of a frame that moves. -/
def movedKey (old new k : Nat) : Nat := if old ≤ k && k < old + 2 ^ 16 then k - old + new else k

def Watch.moved (old new : Nat) (w : Watch) : Watch := { w with key := movedKey old new w.key }
def Iv.moved (old new : Nat) (iv : Iv) : Iv := { iv with key := movedKey old new iv.key }
def Mon.moved (old new : Nat) (m : Mon) : Mon := { m with line := movedKey old new (64 * m.line) / 64 }
def Thread.rewatch (old new : Nat) (t : Thread) : Thread := { t with watch := t.watch.map (Watch.moved old new) }

/-- Watches, monitors and intervals follow a page to its new frame. -/
def State.rekey (s : State) (old new : Nat) : State :=
  let gs := s.groups.map fun (n, g) => (n, { g with threads := g.threads.map (Thread.rewatch old new) })
  let cs := s.cores.map fun (n, c) => (n, { c with mons := c.mons.map (Mon.moved old new) })
  { s with groups := gs, cores := cs, ivs := s.ivs.map (Iv.moved old new) }

/-- A frame word with another frame. -/
def withFrame (fw pa : Nat) : Nat := fw / 2 ^ 52 * 2 ^ 52 + pa / 2 ^ 16 * 2 ^ 16 + fw % 2 ^ 16

/-- `MIGRATE` (R165). -/
def execMigrate (part die : Nat) (s : State) : Out :=
  .next (s.runCmd part die 5 fun s c _ =>
    if c.size ≠ 0 || c.off % 2 ^ 16 ≠ 0 || c.addr % 2 ^ 16 ≠ 0 || !s.paPresent die c.addr then (s, false)
    else match s.xlat? part with
      | none => (s, false)
      | some x =>
        let s := s.walkReads x die c.off
        match s.walk x die c.off with
        | some (0, k) =>
          let fw := s.mem.num (k + 8) 8
          if !s.frameOk die 0 (s.mem.num k 8) fw || fw / 2 ^ 8 % 2 = 1 then (s, false)
          else
            let old := globalKey die (fw / 2 ^ 16 % 2 ^ 36 * 2 ^ 16)
            let new := globalKey die c.addr
            let s := s.classify old (2 ^ 16)
            let s := { s with mem := s.mem.moveSectors old new 2048 }
            let s := (s.rekey old new).devStore (k + 8) (leBytes 8 (withFrame fw c.addr))
            (s.dropTlb part die fun t => t.vpn = c.off / 2 ^ pageLog t.size, true)
        | _ => (s, false)).tick

/-! ### Fault records (R167, R168) -/

/-- The host writes a STATUS to the pending record of a slot of a die's ring (R167). -/
def State.hostStatus (s : State) (part die rec_ v : Nat) : State :=
  match s.granOf part die rec_ with
  | some g => (s.recStatus part g v).recActs part g
  | none => s

/-- `FAULT_RECORD_MAPPED` (R167): the die walks the granule again. -/
def execFaultRecordMapped (part die rec_ : Nat) (s : State) : Out := .next (s.hostStatus part die rec_ 2).tick

/-- `FAULT_RECORD_REFUSED` (R168): the held reads of the granule end refused, and its side-logged writes are dropped as
the side logs reach them. -/
def execFaultRecordRefused (part die rec_ : Nat) (s : State) : Out := .next (s.hostStatus part die rec_ 3).tick

/-- A side-log entry lies in a granule. -/
def SideEnt.inGran (e : SideEnt) (part : Nat) (g : Gran) : Bool :=
  e.ctx = part && vaDie e.va = g.die && vaOff e.va / 2 ^ 16 = g.gran

/-- `GRANULE_REOPEN` (R168): no core has a side-log entry for the granule left. -/
def execGranuleReopen (part die gran : Nat) (s : State) : Out :=
  match s.xlat? part with
  | none => .next s.tick
  | some x => match x.closed.find? fun g => g.die = die && g.gran = gran && (g.mapped || g.denied) with
    | none => .next s.tick
    | some g =>
      if s.cores.any fun k => k.2.side.any fun e => !e.stuck && e.inGran part g then .next s.tick
      else .next (s.updX part fun x => { x with closed := x.closed.filter fun h => !h.is g }).tick

/-! ### The side log (R169, R170) -/

/-- A side-logged write that was refused, or that conflicted at its replay (R170, R182): its agent takes it at the operation
that waits for it. A thread that has ended counts as a trapped thread of its launch, and an agent that is gone has nothing left
to take. -/
def State.sideFails (s : State) (core : Nat) (e : SideEnt) (code : Nat) : State :=
  let takes := if e.agent.path = .T then (s.grp e.agent.gid).uid = e.uid && (s.thr e.agent.gid e.agent.n).life = .live
    else (s.streamAgents core e.ctx).contains e.agent
  if takes then s.updCore core fun c => { c with sideRef := c.sideRef ++ [(e.agent, e.va, code)] }
  else if e.agent.path = .T then s.faultLaunch e.lid 1 else s

/-- The bytes that a replayed write stores over old ones, and their P; none where a reduction does not write (R168). -/
def SideEnt.image (e : SideEnt) (old : List Byte) (oldP : Bool) : Option (List Byte × Bool) :=
  match e.red with
  | none => some (e.data, e.p)
  | some (f, ctl, n) => (atomNew f (ctl % 16) (leNat (old.take n)) (leNat e.data) 0).map fun v => (leBytes n v, e.p || oldP)

/-- A reduction that would leave a proposal on a settled-only page is refused there (R226). -/
def SideEnt.stops (e : SideEnt) (p : Bool) (attr : Nat) : Bool := e.red.isSome && e.ps && p && attrBit attr 5

/-- A replayed write performs at a key: a store, or a reduction (R168). -/
def State.sidePerform (s : State) (w : Who) (e : SideEnt) (acc : Acc) (key attr : Nat) : State :=
  match e.image (s.mem.read key acc.len) (s.mem.anyP key acc.len) with
  | some (bs, p) => if e.stops p attr then s.sideFails w.core e 0x05 else s.put w acc key bs p e.poison false
  | none => s

/-- A replayed write that leaves the part; what a reduction finds there is free (log entry 21). -/
def State.sideSend (s : State) (core : Nat) (e : SideEnt) (attr : Nat) : State :=
  match e.image (s.farBytes e.va e.data.length) (s.farP e.va) with
  | some (bs, p) => if e.stops p attr then s.sideFails core e 0x05 else s.sendStore e.ctx e.va bs p
  | none => s

/-- A release: a synchronising store or reduction, or a release of a command. -/
def SideEnt.sync (e : SideEnt) : Bool := e.rel || e.red.isSome

/-- The access that an entry makes again. -/
def SideEnt.acc (e : SideEnt) : Acc :=
  ⟨.global, e.va, e.data.length, e.red.isSome, true, false, e.sync, e.red.isNone && e.ps, if e.agent.path = .T then 11 else 14⟩

/-- A command's release has performed: its interval closes (R192, R338). -/
def State.sideClose (s : State) (e : SideEnt) : State :=
  if e.rel && e.agent.path ≠ .T then s.closeIv e.agent 7 else s

/-- The replay of an entry is a violation (R175): its master freezes, and the write is made again after UNFREEZE (R81). A group
that has left its slot cannot freeze; the violation is logged and signalled alike (R80), and the write is dropped. -/
def State.sideViol (s : State) (core : Nat) (e : SideEnt) (cause : Nat) (put : List SideEnt → State → State) : State :=
  if e.agent.path ≠ .T then (put [{ e with stuck := true }] s).freezeStream core e.ctx cause e.va
  else if (s.grp e.agent.gid).uid = e.uid then (put [{ e with stuck := true }] s).freezeGroup e.agent.gid cause e.va
  else (put [] s).logFreeze 1 e.ctx cause core (e.agent.gid % 512) e.va

/-- An entry whose granule is open to it is replayed: the access is checked as R302 says, and no other entry of the log nor its
own granule is in its way. One that conflicts is dropped (log entry 23). `pre` and `post` are the entries before and after it. -/
def State.sideReplay (s : State) (core : Nat) (pre : List SideEnt) (e : SideEnt) (post : List SideEnt) : State :=
  let w : Who := ⟨e.agent, core, e.lid, e.ctx⟩
  let closed := ((s.xlat? e.ctx).map Xlat.closed).getD []
  let t := s.updX e.ctx fun x => { x with closed := x.closed.filter fun g => !e.inGran e.ctx g }
  let t := t.updCore core fun c => { c with side := [] }
  let put := fun (es : List SideEnt) (t : State) => t.updCore core fun c => { c with side := pre ++ es ++ post }
  let back := fun (t : State) => t.updX e.ctx fun x => { x with closed := closed }
  match t.reachGlobal w e.acc with
  | (t, .ok key attr) => ((put [] (back t)).sidePerform w e e.acc key attr).sideClose e
  | (t, .outside attr) => ((put [] (back t)).sideSend core e attr).sideClose e
  | (t, .viol c) => (back t).sideViol core e c put
  | (t, .trap c) => (put [] (back t)).sideFails core e c
  | (t, .lost) => (put [] (back t)).sideFails core e 0x0C
  | (t, .closed) => put [e] t
  | (t, .waits) => { s with dev := t.dev }

/-- The entry of a side log that replays next: the oldest, but for those that wait for their master's UNFREEZE and those behind
one of these in its line (R169, R81). -/
def State.sideNext (s : State) (es : List SideEnt) : Option Nat :=
  (List.range es.length).find? fun i => match es[i]? with
    | none => false
    | some e => !e.stuck && !(es.take i).any fun f => f.ctx = e.ctx && s.lineOf f.va = s.lineOf e.va

/-- `SIDE_LOG_REPLAY` (R169): the oldest entry of a core's side log that can replay. -/
def execSideLogReplay (core : Nat) (s : State) : Out :=
  let es := (s.core core).side
  let i := (s.sideNext es).getD es.length
  match es[i]? with
  | none => .next s.tick
  | some e =>
    let pre := es.take i
    let post := es.drop (i + 1)
    let g := (((s.xlat? e.ctx).map Xlat.closed).getD []).find? (e.inGran e.ctx)
    match g with
    | none => .next (s.sideReplay core pre e post).drainFrozen.tick
    | some g =>
      if g.denied then .next ((s.updCore core fun c => { c with side := pre ++ post }).sideFails core e 0x09).drainFrozen.tick
      else if g.mapped then .next (s.sideReplay core pre e post).drainFrozen.tick
      else .next s.tick

/-! ### Requests at a slice (R151, R171) -/

/-- `TABLE_WALK` (R159): a translation is cached; a miss closes its granule (R167). -/
def execTableWalk (part die off : Nat) (s : State) : Out :=
  if (s.xlat? part).isNone || s.isClosed part die (off / 2 ^ 16) then .next s.tick
  else match s.translate part die off with
    | (s, .miss) => .next ((s.closeGran part die (off / 2 ^ 16) 0).getD s).tick
    | (s, _) => .next s.tick

/-- The access of a request. -/
def reqAcc (r : Req) : Acc :=
  let va := r.va.toNat
  let a : Acc := match r.kind with
    | .load => Acc.read .global va r.len
    | .store => Acc.write .global va r.len false
    | .reduce => ⟨.global, va, r.len, true, true, false, false, false, 1⟩
    | .fetch => Acc.fetch va r.len
    | .engineRead => { Acc.read .global va r.len with kind := 3 }
    | .engineWrite => { Acc.write .global va r.len false with kind := 4 }
  { a with sync := r.sync || r.kind = .reduce }

/-- What the code word of the first sector that a request reads shows (R171). -/
def State.reqMarks (s : State) (r : Req) (key : Nat) : State :=
  let us := if r.synd = 0 then [] else [(⟨key / 32, r.synd, r.array⟩ : Upset)]
  { s with dev := { s.dev with upsets := us ++ s.dev.upsets } }

/-- The answer to a request of another device leaves over the link of the request's line (R45). -/
def State.answer (s : State) (ctx va : Nat) (bs : List Byte) (p : Bool) : State :=
  s.emit ⟨s.linkOf va, ctx, va, bs, p, none, none⟩

/-- A request performs at its key. The data of a write that comes with an uncorrectable flit is poisoned (R49). -/
def State.reqPerform (s : State) (w : Who) (r : Req) (a : Acc) (key attr : Nat) : State :=
  match r.kind with
  | .store | .engineWrite => s.put w a key ((r.data ++ List.replicate r.len 0#8).take r.len) r.p r.flit false
  | .reduce => match atomNew r.red.1 (r.red.2 % 16) (s.mem.num key r.len) (leNat (r.data.take r.len)) 0 with
    | some v => s.put w a key (leBytes r.len v) (r.p || s.mem.anyP key r.len) r.flit false
    | none => s
  | _ => if r.port.isSome then
      s.answer r.ctx a.addr (s.mem.read key r.len) (s.mem.anyP key r.len || attrBit attr 4)
    else s

/-- A violation freezes the request's master (R175). DESIGN CHOICE (log entry 73): the violating request of a Ryuzin port is
dropped; UNFREEZE resumes what the port held after it. A group that has left its slot cannot freeze; its violation is logged and
signalled alike (R80). -/
def State.reqViol (s : State) (r : Req) (cause : Nat) : State :=
  match r.port with
  | some n => (s.setLink n .frozen).logFreeze 4 r.ctx cause 0 n r.va.toNat
  | none =>
    if r.agent.path ≠ .T then s.freezeStream r.agent.core r.ctx cause r.va.toNat
    else if s.hasGrp r.agent.gid then s.freezeGroup r.agent.gid cause r.va.toNat
    else s.logFreeze 1 r.ctx cause r.agent.core (r.agent.gid % 512) r.va.toNat

/-- The address of a request: one that arrives over a link is for this device. -/
def reqAddr (r : Req) : Nat :=
  let a := r.va.toNat
  if r.port.isSome then a % 2 ^ 52 + 0xFF * 2 ^ 52 + a / 2 ^ 60 * 2 ^ 60 else a

/-- Who makes a request; an agent that reaches the device over a port is another device's (R179). -/
def reqWho (r : Req) : Who :=
  let a := if r.port.isSome then { r.agent with core := farCore r.agent.core } else r.agent
  ⟨a, a.core, 0, r.ctx⟩

/-- A request is translated and performed, or is refused while its granule is closed. -/
def State.serve (s : State) (r : Req) : State :=
  if (s.xlat? r.ctx).isNone then s.reqViol r 0x0A
  else
    let w := reqWho r
    let a := { reqAcc r with addr := reqAddr r }
    let s := match s.translate r.ctx (vaDie (reqAddr r)) (vaOff (reqAddr r)) with
      | (s, .ok false pa _) => if a.rd then s.reqMarks r (globalKey (vaDie (reqAddr r)) pa) else s
      | (s, _) => s
    match s.reachGlobal w a with
    | (s, .ok key attr) => s.reqPerform w r a key attr
    | (s, .viol c) => s.reqViol r c
    | (s, _) => s

/-- The request is answered with data that its agent reads. -/
def reqReads (r : Req) : Bool :=
  match r.kind with
  | .load | .fetch | .engineRead => true
  | .store | .reduce | .engineWrite => false

/-- An uncorrectable flit in the answer to an agent of this device: the agent meets it at its next read (R49). -/
def State.flit (s : State) (r : Req) : State :=
  if r.flit && reqReads r then { s with dev := { s.dev with flits := r.agent :: s.dev.flits } } else s

/-- `SLICE_REQUEST` (R151): a request arrives at its owner slice, from this device or from a link; a port that holds its traffic
keeps it, and nothing arrives over a link that is not trained. -/
def execSliceRequest (r : Req) (s : State) : Out :=
  match r.port with
  | none => .next ((s.serve r).flit r).tick
  | some n =>
    if s.link n = .trained then .next (s.serve r).tick
    else .next (s.linkKeeps n (.sliceRequest r)).tick

end Sys2Proof.Machine
end

