-- ==== Sys2Proof/Machine/Device.lean ====
section
/-! DEFINITION. The device: power-on and the safe, talkative state (R22, R23, R33 to R37, R398), links (R28 to R32), power
and heat (R38, R39, R98), array monitors and the in-field scan (R236 to R241), and management (R83). -/

namespace Sys2Proof.Machine

open Sys2Proof

def State.updDev (s : State) (f : Device → Device) : State := { s with dev := f s.dev }

/-! ### Power-on (R33) -/

/-- R34: the field ranges of a manifest. -/
def manifestOk (m : Manifest) : Bool :=
  800 ≤ m.limitW && m.limitW ≤ 1600 && m.links.length = 18 && 1 ≤ m.threshold && m.threshold ≤ 255
    && 1 ≤ m.scanHours && m.scanHours ≤ 168

/-- Physical cores of a list on every die reach 60 (R22). -/
def enoughCores (ps : List Nat) : Bool := (List.range 4).all fun d => 60 ≤ (ps.filter fun p => p / 64 = d).length

/-- R22: the first 60 usable cores of each die in ascending physical number. -/
def buildMap (usable : List Nat) : List (Nat × Nat) :=
  (List.range 4).flatMap fun d =>
    let ps := (List.range 64).filter fun c => usable.contains (64 * d + c)
    ((List.range 60).zip ps).map fun e => (60 * d + e.1, 64 * d + e.2)

/-- Mailbox entries in their order; past 64 none is written (R398). -/
def Device.list (d : Device) (ws : List Nat) : Device := { d with mail := (d.mail ++ ws).take 64 }

/-- The lower die of a bridge's pair (R37). -/
def bridgeDie (b : Nat) : Nat := [0, 2, 0, 1].getD b 0

/-- The sequence ends in the safe, talkative state (R36). -/
def Device.unsafe_ (d : Device) (stage : Nat) : Device := { d with safe := true, ready := false, stage := stage }

/-- Stage 8: links train on their ports; the device's number is the port of its lowest trained link (R30, log entry 32). -/
def Device.trainLinks (d : Device) (ports : List (Option Nat)) : Device :=
  let on := (List.range 18).filter fun k => d.manifest.links.getD k false
  let port := fun (k : Nat) => ports.getD k none
  let pod := (on.filterMap port).head?
  let st := (List.range 18).map fun k =>
    if !on.contains k || (port k).isNone then LinkSt.untrained
    else if port k = pod then LinkSt.trained else LinkSt.fenced
  let bad := on.filterMap fun k => match port k with
    | none => some (mailWord 5 (linkDie k) k 2)
    | some p => if some p = pod then none else some (mailWord 5 (linkDie k) k 6)
  { d.list bad with links := st, pod := pod.getD 0 }

/-- Stages 6 to 9. -/
def Device.train (d : Device) (r : SelfTest) : Device :=
  let bs := [0, 2, 3, 1].filter r.badBridges.contains
  let d := d.list (bs.map fun b => mailWord 4 (bridgeDie b) b 2)
  if !bs.isEmpty then d.unsafe_ 6
  else
    let cs := (List.range 32).filter r.badChans.contains
    let d := d.list (cs.map fun c => mailWord 3 (c / 8) c 2)
    if !cs.isEmpty then d.unsafe_ 7
    else { d.trainLinks r.linkPorts with safe := false, ready := true, stage := 9, limitW := d.manifest.limitW }

/-- Stages 4 and 5. -/
def Device.testCores (d : Device) (r : SelfTest) : Device :=
  let bad := (List.range 256).filter r.badColumns.contains
  let cols := (List.range 256).filter fun p => !r.badColumns.contains p
  let d := { d.list (bad.map fun p => mailWord 2 (p / 64) (p % 64) 1) with columns := cols, usable := cols }
  if !enoughCores cols then d.unsafe_ 4
  else
    let bad := (List.range 256).filter r.badCores.contains
    let usable := cols.filter fun p => !r.badCores.contains p
    let d := { d.list (bad.map fun p => mailWord 1 (p / 64) (p % 64) 1) with usable := usable }
    if !enoughCores usable then d.unsafe_ 5 else { d with coreMap := buildMap usable }.train r

/-- Stages 1 to 3. A device whose first stage fails does not enumerate (R33). -/
def Device.boot (d : Device) (r : SelfTest) (m : Manifest) : Device :=
  if !r.romOk then { d with silent := true }
  else if !r.identityOk then ({ d with identity := false }.list [mailWord 7 0 0 5]).unsafe_ 2
  else if !m.signed then (d.list [mailWord 6 0 0 3]).unsafe_ 3
  else if !manifestOk m then (d.list [mailWord 6 0 0 4]).unsafe_ 3
  else { d with manifest := m }.testCores r

/-- The device in stage 1; what it has told the outside stays told. -/
def Device.cold (d : Device) : Device :=
  { Device.reset with
    identity := true, usable := [], columns := [], coreMap := [], ready := false, stage := 1,
    events := d.events, msix := d.msix, replies := d.replies, outbox := d.outbox }

/-- A power-on: every state of the part is at reset, and the stages run; an accepted update is the manifest checked
(R83). Memory reads 0 afterwards (log entry 2). The cores of the map are released (R108). -/
def State.powerOn (s : State) (r : SelfTest) : State :=
  let m := s.dev.pendingUpdate.getD r.manifest
  let d := s.dev.cold.boot r m
  { State.reset with
    dev := d, cores := d.coreMap.map fun e => (e.1, { Core.reset with released := s.now })
    agenda := s.agenda, now := s.now, free := s.free, nextId := s.nextId }

/-- `POWER_ON` (R33). -/
def execPowerOn (r : SelfTest) (s : State) : Out := .next (s.powerOn r).tick

/-- `PCIE_FUNDAMENTAL_RESET` (R36). -/
def execPcieFundamentalReset (r : SelfTest) (s : State) : Out := .next (s.powerOn r).tick

/-- `MANAGEMENT_POWER_CYCLE` (R36). -/
def execManagementPowerCycle (r : SelfTest) (s : State) : Out := .next (s.powerOn r).tick

/-! ### The core map (R23) -/

/-- Nothing runs on a core. -/
def Core.quiet (c : Core) : Bool :=
  c.run.isNone && c.starts.isEmpty && c.bins.isEmpty && c.inq.isEmpty && c.cmds.isEmpty && c.xfers.isEmpty
    && c.side.isEmpty && c.tracker.isEmpty && c.spaces.isEmpty

/-- A die is drained. DESIGN CHOICE (log entry 74): no core of it has a group or work. -/
def State.dieQuiet (s : State) (die : Nat) : Bool :=
  (s.groups.all fun e => dieOf e.2.core ≠ die) && s.cores.all fun k => dieOf k.1 ≠ die || k.2.quiet

/-- A logical core's state is lost with its place; the core that takes its number is released (R108). DESIGN CHOICE (log entry 74):
its A and W buffers are cleared. -/
def State.loseCore (s : State) (k : Nat) : State :=
  let m := (s.mem.clear (aKey k 0 0) (2 ^ 23)).clear (wKey k 0) (2 ^ 24)
  { s with mem := m }.setCore k { Core.reset with released := s.now }

/-- The map of a die is built anew without its failed cores: its first 60 usable cores in ascending order (R22, R23). DESIGN
CHOICE (log entry 60): where fewer remain, the last numbers stay vacant, and the device is not put in the safe state. -/
def Device.rebuild (d : Device) (die : Nat) (failed : List Nat) : Device :=
  let usable := d.usable.filter fun p => !(p / 64 = die && failed.contains (p % 64))
  let map := buildMap usable
  { d with
    usable := usable
    coreMap := (d.coreMap.filter fun e => dieOf e.1 < die) ++ (map.filter fun e => dieOf e.1 = die)
      ++ d.coreMap.filter fun e => die < dieOf e.1 }

/-- `MAP_REBUILD` (R23). DESIGN CHOICE (log entry 81): the mailbox entry of a core that is found failing here has REASON 0x01, for no
listed reason names a rebuild (R37). -/
def execMapRebuild (die : Nat) (failed : List Nat) (s : State) : Out :=
  if 4 ≤ die || !s.dieQuiet die then .next s.tick
  else
    let bad := (List.range 64).filter fun c => failed.contains c && s.dev.usable.contains (64 * die + c)
    let old := s.dev.coreMap
    let s := (bad.map fun c => mailWord 1 die c 1).foldl State.mailEntry (s.updDev fun d => d.rebuild die failed)
    let moved := ((List.range 60).map fun n => 60 * die + n).filter fun k => kfind old k ≠ s.phys k
    .next (moved.foldl State.loseCore s).tick

/-! ### Links and bridges (R28, R32) -/

/-- `LINK_DOWN` (R32): the link's traffic is held while it retrains. -/
def execLinkDown (link : Nat) (s : State) : Out :=
  .next (if s.dev.links.getD link .untrained = .trained then s.setLink link .retraining else s).tick

/-- `LINK_RETRAIN_END` (R32): the held traffic proceeds in order, or it ends and the link's plane leaves the hash. -/
def execLinkRetrainEnd (link : Nat) (ok : Bool) (s : State) : Out :=
  if s.dev.links.getD link .untrained ≠ .retraining then .next s.tick
  else .next (if ok then s.openLink link else s.fenceLink link).tick

/-- `BRIDGE_REPLAY` (R28): delay only. -/
def execBridgeReplay (_bridge : Nat) (s : State) : Out := .next s.tick

/-! ### Power and heat (R38, R39, R98) -/

def Device.setHdrm (d : Device) (die quad : Nat) (v : BitVec 8) : Device := { d with hdrm := kset d.hdrm (16 * die + quad) v }

/-- `THERMAL_THROTTLE` (R39): at 105 °C the headroom of the die is held negative, until a reading below 100 °C. -/
def execThermalThrottle (die reading : Nat) (s : State) : Out :=
  if 4 ≤ die then .next s.tick
  else if 105 ≤ reading then .next (s.updDev fun d =>
    { (List.range 16).foldl (fun d q => d.setHdrm die q 0x80#8) d with hot := (die :: d.hot).eraseDups }).tick
  else if reading < 100 then .next (s.updDev fun d => { d with hot := d.hot.filter (· ≠ die) }).tick
  else .next s.tick

/-- `PWRH_REFRESH` (R98). -/
def execPwrhRefresh (die quad : Nat) (hdrm : BitVec 8) (s : State) : Out :=
  if 4 ≤ die || 16 ≤ quad then .next s.tick
  else .next (s.updDev fun d => d.setHdrm die quad (if d.hot.contains die then 0x80#8 else hdrm)).tick

/-- `THERMAL_FENCE` (R39): compute is fenced, every running context is killed, and the host is notified. DESIGN CHOICE (log
entry 61): a context runs while its partition is bound, and the notice is MSI-X vector 0. -/
def execThermalFence (reading : Nat) (s : State) : Out :=
  if reading < 115 then .next s.tick
  else
    let s := s.updDev fun d => { d with fenced := true }
    let run := (List.range 16).filter fun n => (s.parts.getD n Part.reset).bound
    .next ((run.foldl State.kill s).signal 0).tick

/-- `THERMAL_REENABLE` (R39). -/
def execThermalReenable (reading : Nat) (s : State) : Out :=
  .next (if reading < 100 then s.updDev fun d => { d with fenced := false } else s).tick

/-! ### Array monitors (R236, R237) -/

/-- Every array of the domain stays below the threshold. -/
def Device.steady (d : Device) (x : Domain) : Bool := x.counts.all fun e => e.2 < d.manifest.threshold

/-- The supply of a domain is one step lower, and some code words of its column are upset (R171). -/
def State.lower (s : State) (dom : Nat) (weak : List Upset) : State :=
  let x := s.dev.domain dom
  let hit := weak.filter fun u => s.columnOf (32 * u.sector) = some dom
  s.updDev fun d => { d.setDomain { x with steps := x.steps - 1 } with upsets := d.upsets ++ hit }

/-- `UNDERVOLT_STEP` (R236). -/
def execUndervoltStep (x : Lowering) (s : State) : Out :=
  let d := s.dev.domain x.dom
  .next (if 256 ≤ x.dom || d.lock || d.steps = 0 || !s.dev.steady d then s else s.lower x.dom x.weak).tick

/-- `MONITOR_WINDOW_EXPIRY` (R236). -/
def execMonitorWindowExpiry (dom array : Nat) (s : State) : Out :=
  let x := s.dev.domain dom
  .next (if 256 ≤ dom then s else s.updDev fun d => d.setDomain { x with
    counts := kdel x.counts array, told := x.told.filter (· ≠ array) }).tick

/-- `UNDERVOLT_OVERRIDE` (R237): one step up, to nominal at most, the lock, and the event. `count` is the array's count, which the
event carries (R238). DEDUCED (log entry 78): a count exceeds its threshold once in a window, and again in a later one. -/
def execUndervoltOverride (dom array count : Nat) (s : State) : Out :=
  let x := s.dev.domain dom
  if x.told.contains array || count ≠ kget 0 x.counts array || count ≤ s.dev.manifest.threshold then .next s.tick
  else
    let n := min (x.steps + 1) s.dev.manifest.floor
    let s := s.updDev fun d => d.setDomain { x with steps := n, lock := true, told := x.told ++ [array] }
    .next (s.reliability (relWord 1 dom array n count)).tick

/-! ### The in-field scan (R239 to R241) -/

/-- R239: an idle core. -/
def State.idle (s : State) (k : Nat) : Bool :=
  let c := s.core k
  c.quiet && c.mons.isEmpty && c.lands.isEmpty && (c.srcs.all fun e => e.subs.isEmpty) && s.groups.all fun e => e.2.core ≠ k

/-- Another core is first in line for the scan (R231). -/
def State.scanBehind (s : State) (core : Nat) : Bool :=
  !(s.core core).scanFirst && s.cores.any fun k => k.1 ≠ core && k.2.scanFirst

/-- `SCAN_START` (R239): the pattern run begins on an idle core. DEDUCED (log entry 42): on a core that is not idle yet it begins
the drain phase of R240, in which placement skips the core. -/
def execScanStart (core : Nat) (s : State) : Out :=
  .next (if (s.phys core).isNone || (s.core core).scan || s.scanBehind core then s
    else if s.idle core then s.updCore core fun c => { c with scan := true, drains := false }
    else s.updCore core fun c => { c with drains := true }).tick

/-- The scan's clear (R240); W and A buffers stand, and the core stays released (log entry 20). -/
def State.scanClear (s : State) (core : Nat) (due : Bool) : State :=
  s.setCore core { Core.reset with scanDue := due, released := (s.core core).released }

/-- `SCAN_PATTERN_END` (R240, R241). -/
def execScanPatternEnd (core : Nat) (pass : Bool) (s : State) : Out :=
  if !(s.core core).scan then .next s.tick
  else if pass then .next (s.scanClear core false).tick
  else
    let p := (s.phys core).getD 0
    let s := (s.scanClear core false).updDev fun d => { d with
      coreMap := kdel d.coreMap core, usable := d.usable.filter (· ≠ p) }
    .next ((s.mailEntry (mailWord 1 (p / 64) (p % 64) 7)).reliability (relWord 4 p 0 0 0)).tick

/-- R92: a staged record of effective priority 6 or 7 cannot be placed, and would be if the core were free: its partition is bound,
admits records (R67) and is not full (R87). -/
def State.aborts (s : State) (core : Nat) : Bool :=
  let free := s.updCore core fun c => { c with scan := false, drains := false }
  s.launches.any fun l =>
    let p := s.parts.getD l.ctx Part.reset
    p.bound && !p.drain && !s.full l.ctx && !l.started && l.ready && 6 ≤ s.effPrio l.lid && (s.findGang l).isNone
      && (free.findGang l).isSome

/-- `SCAN_ABORT` (R241): the scan remains due. In its drain phase no pattern has run, and nothing is cleared. -/
def execScanAbort (core : Nat) (s : State) : Out :=
  let c := s.core core
  .next (if !(c.scan || c.drains) || !s.aborts core then s
    else if c.scan then s.scanClear core true
    else s.updCore core fun c => { c with drains := false, scanDue := true }).tick

/-! ### Management (R83) -/

/-- A management request: it is answered in every state that a power-on reaches after stage 1 (R83). -/
def State.manage (s t : State) : Out := .next (if s.dev.silent then s else t).tick

/-- `PLDM_SENSOR_READ` (R83): a reading, or the `PWRH` of a die's quads. -/
def execPldmSensorRead (q : Sensor) (reading : Nat) (s : State) : Out :=
  s.manage (s.reply 1 (match q with
    | .packagePower => [reading]
    | .junction _ => [reading]
    | .pwrh die => (List.range 16).map fun q => pwrhWord (kget 0#8 s.dev.hdrm (16 * die + q))))

/-- `PLDM_POWER_LIMIT` (R38). DESIGN CHOICE (log entry 62): a limit below 800 W, or above the manifest's, changes nothing. -/
def execPldmPowerLimit (watts : Nat) (s : State) : Out :=
  s.manage (if 800 ≤ watts && watts ≤ s.dev.manifest.limitW then s.updDev fun d => { d with limitW := watts } else s)

/-- `UNDERVOLT_LOCK_CLEAR` (R237). -/
def execUndervoltLockClear (dom : Nat) (s : State) : Out :=
  let x := s.dev.domain dom
  s.manage (s.updDev fun d => d.setDomain { x with lock := false })

/-- `PLDM_UPDATE` (R83): of the manifest and the firmware of the power controllers, applied at the next power-on. -/
def execPldmUpdate (m : Manifest) (s : State) : Out := s.manage (s.updDev fun d => { d with pendingUpdate := some m })

/-- `PLDM_FILE_READ` (R83): file 0 is the mailbox, file 1 the freeze log. -/
def execPldmFileRead (file : Nat) (s : State) : Out :=
  s.manage (match file with
    | 0 => s.reply 2 (s.dev.mailStatus :: s.dev.mail)
    | 1 => s.reply 2 ((List.range 64).flatMap s.freezeWords)
    | _ => s)

/-- What a measurement measures (R83): the mask ROM, which is fixed, the manifest, the firmware of the power controllers, or the
core map. -/
def Device.measured (d : Device) (index : Nat) : List Nat :=
  let m := d.manifest
  match index with
  | 2 => [m.limitW, m.floor, m.threshold, m.scanHours, m.firmware] ++ m.links.map fun b => bit b 0
  | 3 => [m.firmware]
  | 4 => d.coreMap.flatMap fun e => [e.1, e.2]
  | _ => []

/-- `GET_MEASUREMENTS` (R83): the signed measurement of an index; no answer of the identity's without one (R35). -/
def execGetMeasurements (index : Nat) (s : State) : Out :=
  let v := Config.measurement index (s.dev.measured index)
  s.manage (if index = 0 || 4 < index then s
    else if !s.dev.identity then s.reply 3 [index] else s.reply 3 [index, v, Config.signature v])

/-- `CHALLENGE` (R83). -/
def execChallenge (nonce : Nat) (s : State) : Out :=
  s.manage (s.reply 4 (if s.dev.identity then [nonce, Config.signature nonce] else [nonce]))

/-- `PLDM_DISCOVERY` (R83): the PLDM types that answer. -/
def execPldmDiscovery (s : State) : Out := s.manage (s.reply 5 [0, 2, 5])

end Sys2Proof.Machine
end

