-- ==== Sys2Proof/Machine/Exchange.lean ====
section
/-! DEFINITION. Exchange through the lane's buffer (R124, R279 to R282). -/

namespace Sys2Proof.Machine

open Sys2Proof

/-- The entry of a thread that was inactive during the deposit: its register as it stands; a dead register gives
settled zero. An operand that is no register and has no stated value there is a free value (log entry 8). -/
def State.idleEntry (s : State) (gid t : Nat) (c : Nat) : Reg :=
  let g := s.grp gid
  if c < 112 then (if g.isDead t c then Reg.zero else g.readReg s.free t c)
  else match c with
    | 120 => Reg.zero
    | 121 => ⟨BitVec.ofNat 32 (s.cur.lit 1), false⟩
    | 122 => ⟨BitVec.ofNat 32 t, false⟩
    | 123 => ⟨BitVec.ofNat 32 g.lix, false⟩
    | _ => ⟨Config.freeWord (32 * s.free + t), Config.pendingRead s.free t c⟩

/-- The deposit: each of some threads writes its operand A, into its entry, and a uniform instruction into every entry (R124, R279);
a thread that traps deposits settled zero. -/
def State.deposit (s : State) (i : Instr) (o : Operand) (act : List Nat) : State × List Reg :=
  let gid := s.cur.gid
  let idle := fun (s : State) => (List.range 16).map fun t => s.idleEntry gid t o.code.toNat
  let fill := fun (es : List Reg) (ts : List Nat) (r : Reg) =>
    (if isUniform i then List.range 16 else ts).foldl (fun es t => es.set t r) es
  (turnsOf i act).foldl (fun (acc : State × List Reg) u =>
    match acc.1.readOp gid u.1 o with
    | (s, .ok v p) => (s, fill acc.2 u.2 ⟨v.lo, p⟩)
    | (s, r) => (s.failRd u.2 r, fill acc.2 u.2 Reg.zero)) (s, idle s)

/-- What a reading thread forms from the entries: value, flags and P. -/
structure Form1 where
  v  : Nat
  fl : Nat
  p  : Bool
deriving DecidableEq, Repr

/-- The read sweep of one turn: B is read, the destination checked, and the result pends (R279). -/
def State.exTurn (s : State) (i : Instr) (bs : List Operand) (f : Nat → Vals → Form1)
    (u : Nat × List Nat) : State :=
  let gid := s.cur.gid
  if u.2.all s.trapped || u.2.all s.violated || u.2.any s.sweep.stays.contains then s
  else match s.readOps gid u.1 bs Vals.zero with
    | (s, .error r) => s.failRd u.2 r
    | (s, .ok v) =>
      let dst := match (operands i).find? fun o => o.fld = .D with
        | some o => s.dstOp gid u.1 o
        | none => (s, .ok .none)
      match dst with
      | (s, .error r) => s.failRd u.2 r
      | (s, .ok d) =>
        let r := f u.1 v
        let s := s.raiseFlags r.fl
        if r.fl &&& (s.grp gid).ctl.ten ≠ 0 then (s.unnote gid u.1 d).trapAll u.2 0x0F 0
        else
          s.writeDst gid u.1 d (BitVec.ofNat 64 r.v) (r.p || v.p || s.ambient u.2) (some 4)

/-- A thread of the exchange has to wait in `t`: none of its threads has begun, and all of them stay (R124). A first touch that
waits still asks for its block (R105). -/
def State.exWaits (s t : State) : State :=
  (s.updCore s.cg.core fun c => { c with want := c.want || (t.core s.cg.core).want }).stayAll s.cur.mask

/-- The threads that are active for the instruction: with those whose clone comparison has just failed, which traps them while
the others exchange with them (R231). -/
def State.exActive (s : State) : List Nat := (List.range 16).filter fun t => s.cur.mask.contains t || s.trapped t

/-- An exchange instruction: the deposit and read sweeps, as one (R124, R279). -/
def State.exchange (s : State) (i : Instr) (f : List Reg → List Nat → Nat → Vals → Form1) : State :=
  s.gate i fun s =>
    match (operands i).find? fun o => o.fld = .A with
    | none => s.finish
    | some o =>
      let act := s.exActive
      let (t, es) := s.deposit i o act
      let bs := (operands i).filter fun o => o.fld = .B
      let t := if t.sweep.stays.isEmpty then (s.turns i).foldl (fun s u => s.exTurn i bs (f es act) u) t else t
      (if t.sweep.stays.isEmpty then t else s.exWaits t).finish

/-- R280: the entry that a form of `XCHG` selects. -/
def xchgIdx (m t b : Nat) : Nat :=
  match m with
  | 0 => b % 16
  | 1 => t ^^^ b % 16
  | 2 => if b ≤ t then t - b else t
  | _ => if t + b ≤ 15 then t + b else t

/-- The entry s, with its P. -/
def entryForm (es : List Reg) (k : Nat) : Form1 := let e := es.getD k Reg.zero; ⟨e.v.toNat, 0, e.p⟩

/-- R281: one combining step, and the identity. -/
def combStep (m : Nat) (a : Nat × Nat) (b : Nat) : Nat × Nat :=
  match m with
  | 0 => ((a.1 + b) % 2 ^ 32, a.2)
  | 1 =>
    let (v, fl) := fvAdd 0 (fp32.value a.1) (fp32.value b)
    let r := fp32.ofVal 0 0 false v
    (r.bits, a.2 ||| fl ||| r.flags)
  | 2 => (bitsOf 32 (min (signOf 32 a.1) (signOf 32 b)), a.2)
  | 3 => (bitsOf 32 (max (signOf 32 a.1) (signOf 32 b)), a.2)
  | 4 => (a.1 &&& b, a.2)
  | 5 => (a.1 ||| b, a.2)
  | 6 => (a.1 ^^^ b, a.2)
  | _ => (fmaxBits fp32 a.1 b, a.2)

def combId (m : Nat) : Nat := [0, 0x80000000, 0x7FFFFFFF, 0x80000000, 0xFFFFFFFF, 0, 0, 0xFF800000].getD m 0

/-- The combination of the entries of some threads in ascending `tix`; the first entry stands for itself, and no
entry gives the identity. -/
def combine (m : Nat) (es : List Reg) : List Nat → Form1
  | [] => ⟨combId m, 0, false⟩
  | t :: ts =>
    let e := es.getD t Reg.zero
    let r := ts.foldl (fun a k => combStep m a (es.getD k Reg.zero).v.toNat) (e.v.toNat, 0)
    ⟨r.1, r.2, (t :: ts).any fun k => (es.getD k Reg.zero).p⟩

/-- The exclusive scan starts from the identity (R281). -/
def combineFrom (m : Nat) (es : List Reg) (ts : List Nat) : Form1 :=
  let r := ts.foldl (fun a k => combStep m a (es.getD k Reg.zero).v.toNat) (combId m, 0)
  ⟨r.1, r.2, ts.any fun k => (es.getD k Reg.zero).p⟩

/-- `XCHG` (R280). -/
def execXchg (d : BitVec 7) (a : BitVec 7) (b : BitVec 7) (m : BitVec 3) (s : State) : Out :=
  .next (s.exchange (.xchg d a b m) fun es _ t v => entryForm es (xchgIdx m.toNat t (u32 v.b)))

/-- `XBCAST` (R280). -/
def execXbcast (d : BitVec 7) (a : BitVec 7) (b : BitVec 7) (s : State) : Out :=
  .next (s.exchange (.xbcast d a b) fun es _ _ v => entryForm es (u32 v.b % 16))

/-- `XSCAN` (R281): inclusive, or exclusive with B = 1. -/
def execXscan (d : BitVec 7) (a : BitVec 7) (b : BitVec 7) (m : BitVec 3) (s : State) : Out :=
  .next (s.exchange (.xscan d a b m) fun es act t _ =>
    if b.toNat = 1 then combineFrom m.toNat es (act.filter fun k => k < t)
    else combine m.toNat es (act.filter fun k => k ≤ t))

/-- `XRED` (R281). -/
def execXred (d : BitVec 7) (a : BitVec 7) (m : BitVec 3) (s : State) : Out :=
  .next (s.exchange (.xred d a m) fun es act _ _ => combine m.toNat es act)

/-- R282: the vote of the active entries. -/
def voteOf (m : Nat) (es : List Reg) (act : List Nat) : Form1 :=
  let yes := act.filter fun k => (es.getD k Reg.zero).v ≠ 0#32
  let p := act.any fun k => (es.getD k Reg.zero).p
  match m with
  | 0 => ⟨if yes.isEmpty then 0 else 1, 0, p⟩
  | 1 => ⟨if yes.length = act.length then 1 else 0, 0, p⟩
  | 2 => ⟨maskOf yes, 0, p⟩
  | _ => ⟨yes.length, 0, p⟩

/-- `VOTE` (R282). -/
def execVote (d : BitVec 7) (a : BitVec 7) (m : BitVec 3) (s : State) : Out :=
  .next (s.exchange (.vote d a m) fun es act _ _ => voteOf m.toNat es act)

end Sys2Proof.Machine
end

