-- ==== Sys2Proof/Machine/Float.lean ====
section
/-! DEFINITION. FP32, FP64 and packed FP16 instructions and predicates (R272 to R278). -/

namespace Sys2Proof.Machine

open Sys2Proof

/-- R273: a NaN operand gives the canonical NaN. -/
def signOp (neg : Bool) (n : Nat) : Nat :=
  if fvNan (fp32.value n) then 0x7FC00000 else if neg then (n + 2 ^ 31) % 2 ^ 32 else n % 2 ^ 31

/-- R273: the class bit of a value. -/
def classBit (n : Nat) : Nat :=
  match fp32.value n with
  | .nan => 8
  | .inf neg => if neg then 0 else 7
  | .fin neg m _ =>
    let k := if m = 0 then 3 else if m < 2 ^ 23 then 2 else 1
    if neg then k else 7 - k

/-- A value scaled by a power of two (R272); past 2^1000 the result has over- or underflowed. -/
def fvScale (a : FV) (k : Int) : FV :=
  match a with
  | .fin neg m e => .fin neg m (e + clampI (-1000) 1000 k)
  | v => v

/-- A rounded to an integral value, zeros keeping their sign; no flag (R272). -/
def fvRnd (rm : Nat) (a : FV) : FV :=
  match a with
  | .fin neg m e => if 0 ≤ e then a else .fin neg (fvToInt rm neg m e).1.natAbs 0
  | v => v

/-- The answer of a conversion to a w-bit integer, and to a floating format. -/
def Env.intAns (e : Env) (w : Nat) (r : Int × Nat) : Ans := ⟨BitVec.ofNat 64 (bitsOf w r.1), r.2, false, e.gen⟩
def Env.fltAns (e : Env) (r : Rounded) : Ans := ⟨BitVec.ofNat 64 r.bits, r.flags, false, e.gen⟩

/-- FP32 holding a value rounded into the format of a code, in mode rm with draw u. -/
def Env.through (e : Env) (f rm u : Nat) (v : FV) : Ans :=
  let r := fmtOf f rm u false v
  ⟨BitVec.ofNat 64 (fp32.ne (fmtValue f r.bits)), r.flags, false, e.gen⟩

/-- A narrow conversion: P := 1, and one draw in the stochastic mode (R205, R274). -/
def Env.narrowed (e : Env) (f rm : Nat) (v : FV) : Ans :=
  if rm = 4 then { e.through f 4 (genU (genNext e.gen)) v with p := true, gen := genNext e.gen }
  else { e.through f rm 0 v with p := true }

/-- R274: `FCVT` by its code. -/
def fcvtAns (e : Env) (c m : Nat) (x : DWord) : Ans :=
  let n := x.toNat % 2 ^ 32
  let v := fp32.value n
  let rm := roundM e.rm m false
  let rms := roundM e.rm m true
  match c with
  | 0 => e.intAns 32 (fvInt rm (-2 ^ 31) (2 ^ 31 - 1) v)
  | 1 => e.intAns 32 (fvInt rm 0 (2 ^ 32 - 1) v)
  | 2 => e.fltAns (fp32.ofVal rm 0 false (fvOfInt (signOf 32 n)))
  | 3 => e.fltAns (fp32.ofVal rm 0 false (fvOfInt n))
  | 4 => e.through 0x6 rm 0 v
  | 5 => e.through 0x7 rm 0 v
  | 6 => e.narrowed 0xA rms v
  | 7 => e.narrowed 0xB rms v
  | 8 => e.narrowed 0xC rms v
  | 9 => e.narrowed 0xD rms v
  | 10 => e.narrowed 0xE rms v
  | 11 => { e.intAns 32 (fvInt rm (-8) 7 v) with p := true }
  | 12 => e.fltAns (fp16.ofVal rm 0 false v)
  | _ => e.fltAns (fp32.ofVal rm 0 false (fp16.value (n % 2 ^ 16)))

/-- R276: `DCVT` by its code. -/
def dcvtAns (e : Env) (c m : Nat) (x : DWord) : Ans :=
  let rm := roundM e.rm m false
  let v := fp64.value x.toNat
  let n := x.toNat % 2 ^ 32
  match c with
  | 0 => e.fltAns (fp32.ofVal rm 0 false v)
  | 1 => e.fltAns (fp64.ofVal rm 0 false (fp32.value n))
  | 2 => e.intAns 32 (fvInt rm (-2 ^ 31) (2 ^ 31 - 1) v)
  | 3 => e.intAns 32 (fvInt rm 0 (2 ^ 32 - 1) v)
  | 4 => e.fltAns (fp64.ofVal rm 0 false (fvOfInt (signOf 32 n)))
  | 5 => e.fltAns (fp64.ofVal rm 0 false (fvOfInt n))
  | 6 => e.intAns 64 (fvInt rm (-2 ^ 63) (2 ^ 63 - 1) v)
  | _ => e.fltAns (fp64.ofVal rm 0 false (fvOfInt (signOf 64 x.toNat)))

/-- R277: the two FP16 elements, each computed and rounded on its own. -/
def packed2 (e : Env) (m : Nat) (op : Nat → (DWord → FV) → FV × Nat) : Ans :=
  let lo := e.fp fp16 m fun rm => op rm fun x => fp16.value (x.toNat % 2 ^ 16)
  let hi := e.fp fp16 m fun rm => op rm fun x => fp16.value (x.toNat / 2 ^ 16 % 2 ^ 16)
  ⟨BitVec.ofNat 64 (hi.v.toNat * 2 ^ 16 + lo.v.toNat), lo.fl ||| hi.fl, false, e.gen⟩

/-- `FADD` (R272). -/
def execFadd (d : BitVec 7) (a : BitVec 7) (b : BitVec 7) (m : BitVec 3) (s : State) : Out :=
  .next (s.alu (.fadd d a b m) none [] none fun e v => e.fp fp32 m.toNat fun rm => fvAdd rm (val fp32 v.a) (val fp32 v.b))

/-- `FSUB` (R272). -/
def execFsub (d : BitVec 7) (a : BitVec 7) (b : BitVec 7) (m : BitVec 3) (s : State) : Out :=
  .next (s.alu (.fsub d a b m) none [] none fun e v => e.fp fp32 m.toNat fun rm => fvAdd rm (val fp32 v.a) (fvNeg (val fp32 v.b)))

/-- `FMUL` (R272). -/
def execFmul (d : BitVec 7) (a : BitVec 7) (b : BitVec 7) (m : BitVec 3) (s : State) : Out :=
  .next (s.alu (.fmul d a b m) none [] none fun e v => e.fp fp32 m.toNat fun rm => let _ := rm; fvMul (val fp32 v.a) (val fp32 v.b))

/-- `FFMA` (R272). -/
def execFfma (d : BitVec 7) (a : BitVec 7) (b : BitVec 7) (m : BitVec 3) (c : BitVec 7) (s : State) : Out :=
  .next (s.alu (.ffma d a b m c) none [] none fun e v => e.fp fp32 m.toNat fun rm => fvFma rm (val fp32 v.a) (val fp32 v.b) (val fp32 v.c))

/-- `DADD` (R276). -/
def execDadd (d : BitVec 7) (a : BitVec 7) (b : BitVec 7) (m : BitVec 3) (s : State) : Out :=
  .next (s.alu (.dadd d a b m) none [] none fun e v => e.fp fp64 m.toNat fun rm => fvAdd rm (val fp64 v.a) (val fp64 v.b))

/-- `DSUB` (R276). -/
def execDsub (d : BitVec 7) (a : BitVec 7) (b : BitVec 7) (m : BitVec 3) (s : State) : Out :=
  .next (s.alu (.dsub d a b m) none [] none fun e v => e.fp fp64 m.toNat fun rm => fvAdd rm (val fp64 v.a) (fvNeg (val fp64 v.b)))

/-- `DMUL` (R276). -/
def execDmul (d : BitVec 7) (a : BitVec 7) (b : BitVec 7) (m : BitVec 3) (s : State) : Out :=
  .next (s.alu (.dmul d a b m) none [] none fun e v => e.fp fp64 m.toNat fun rm => let _ := rm; fvMul (val fp64 v.a) (val fp64 v.b))

/-- `DFMA` (R276). -/
def execDfma (d : BitVec 7) (a : BitVec 7) (b : BitVec 7) (m : BitVec 3) (c : BitVec 7) (s : State) : Out :=
  .next (s.alu (.dfma d a b m c) none [] none fun e v => e.fp fp64 m.toNat fun rm => fvFma rm (val fp64 v.a) (val fp64 v.b) (val fp64 v.c))

/-- `FMIN` (R273). -/
def execFmin (d : BitVec 7) (a : BitVec 7) (b : BitVec 7) (s : State) : Out :=
  .next (s.alu (.fmin d a b) none [] none fun e v => e.nat (fminBits fp32 (v.a.toNat % 2 ^ 32) (v.b.toNat % 2 ^ 32)))

/-- `FMAX` (R273). -/
def execFmax (d : BitVec 7) (a : BitVec 7) (b : BitVec 7) (s : State) : Out :=
  .next (s.alu (.fmax d a b) none [] none fun e v => e.nat (fmaxBits fp32 (v.a.toNat % 2 ^ 32) (v.b.toNat % 2 ^ 32)))

/-- `FABS` (R273). -/
def execFabs (d : BitVec 7) (a : BitVec 7) (s : State) : Out :=
  .next (s.alu (.fabs d a) none [] none fun e v => e.nat (signOp false (v.a.toNat % 2 ^ 32)))

/-- `FNEG` (R273). -/
def execFneg (d : BitVec 7) (a : BitVec 7) (s : State) : Out :=
  .next (s.alu (.fneg d a) none [] none fun e v => e.nat (signOp true (v.a.toNat % 2 ^ 32)))

/-- `FCMP` (R256). -/
def execFcmp (p : BitVec 7) (a : BitVec 7) (b : BitVec 7) (c : BitVec 3) (s : State) : Out :=
  .next (s.alu (.fcmp p a b c) none [] (some p.toNat) fun e v => e.bool (fcond c.toNat (val fp32 v.a) (val fp32 v.b)))

/-- `FCLASS` (R273). -/
def execFclass (d : BitVec 7) (a : BitVec 7) (s : State) : Out :=
  .next (s.alu (.fclass d a) none [] none fun e v => e.nat (2 ^ classBit (v.a.toNat % 2 ^ 32)))

/-- `FSCALE` (R272). -/
def execFscale (d : BitVec 7) (a : BitVec 7) (b : BitVec 7) (m : BitVec 3) (s : State) : Out :=
  .next (s.alu (.fscale d a b m) none [] none fun e v => e.fp fp32 m.toNat fun rm => let _ := rm; (fvScale (val fp32 v.a) (signOf 32 v.b.toNat), 0))

/-- `FCVT` (R274). -/
def execFcvt (d : BitVec 7) (a : BitVec 7) (c : BitVec 7) (m : BitVec 3) (s : State) : Out :=
  .next (s.alu (.fcvt d a c m) none [] none fun e v => fcvtAns e c.toNat m.toNat v.a)

/-- `FRND` (R272): raises no flag. -/
def execFrnd (d : BitVec 7) (a : BitVec 7) (m : BitVec 3) (s : State) : Out :=
  .next (s.alu (.frnd d a m) none [] none fun e v => { e.fp fp32 m.toNat (fun rm => (fvRnd rm (val fp32 v.a), 0)) with fl := 0 })

/-- `FRCP` (R275). -/
def execFrcp (d : BitVec 7) (a : BitVec 7) (m : BitVec 3) (s : State) : Out :=
  .next (s.alu (.frcp d a m) (some 4) [] none fun e v => e.fp fp32 m.toNat fun rm => let _ := rm; fvDiv (.fin false 1 0) (val fp32 v.a))

/-- `FRSQ` (R275). -/
def execFrsq (d : BitVec 7) (a : BitVec 7) (s : State) : Out :=
  .next (s.alu (.frsq d a) (some 4) [] none fun e v => e.fp fp32 1 fun rm => let _ := rm; fvRsqrt (val fp32 v.a))

/-- `FSQRT` (R275). -/
def execFsqrt (d : BitVec 7) (a : BitVec 7) (m : BitVec 3) (s : State) : Out :=
  .next (s.alu (.fsqrt d a m) (some 4) [] none fun e v => e.fp fp32 m.toNat fun rm => let _ := rm; fvSqrt (val fp32 v.a))

/-- `FEXP2` (R275). -/
def execFexp2 (d : BitVec 7) (a : BitVec 7) (s : State) : Out :=
  .next (s.alu (.fexp2 d a) (some 4) [] none fun e v => e.fp fp32 1 fun rm => let _ := rm; (fvExp2 (val fp32 v.a), 0))

/-- `FLOG2` (R275). -/
def execFlog2 (d : BitVec 7) (a : BitVec 7) (s : State) : Out :=
  .next (s.alu (.flog2 d a) (some 4) [] none fun e v => e.fp fp32 1 fun rm => let _ := rm; fvLog2 (val fp32 v.a))

/-- `FSIN` (R275). -/
def execFsin (d : BitVec 7) (a : BitVec 7) (s : State) : Out :=
  .next (s.alu (.fsin d a) (some 4) [] none fun e v => e.fp fp32 1 fun rm => let _ := rm; fvSin (val fp32 v.a))

/-- `FCOS` (R275). -/
def execFcos (d : BitVec 7) (a : BitVec 7) (s : State) : Out :=
  .next (s.alu (.fcos d a) (some 4) [] none fun e v => e.fp fp32 1 fun rm => let _ := rm; fvCos (val fp32 v.a))

/-- `DDIV` (R276). -/
def execDdiv (d : BitVec 7) (a : BitVec 7) (b : BitVec 7) (m : BitVec 3) (s : State) : Out :=
  .next (s.alu (.ddiv d a b m) (some 4) [] none fun e v => e.fp fp64 m.toNat fun rm => let _ := rm; fvDiv (val fp64 v.a) (val fp64 v.b))

/-- `DSQRT` (R276). -/
def execDsqrt (d : BitVec 7) (a : BitVec 7) (m : BitVec 3) (s : State) : Out :=
  .next (s.alu (.dsqrt d a m) (some 4) [] none fun e v => e.fp fp64 m.toNat fun rm => let _ := rm; fvSqrt (val fp64 v.a))

/-- `DCMP` (R256). -/
def execDcmp (p : BitVec 7) (a : BitVec 7) (b : BitVec 7) (c : BitVec 3) (s : State) : Out :=
  .next (s.alu (.dcmp p a b c) none [] (some p.toNat) fun e v => e.bool (fcond c.toNat (val fp64 v.a) (val fp64 v.b)))

/-- `DCVT` (R276). -/
def execDcvt (d : BitVec 7) (a : BitVec 7) (c : BitVec 7) (m : BitVec 3) (s : State) : Out :=
  .next (s.alu (.dcvt d a c m) none [] none fun e v => dcvtAns e c.toNat m.toNat v.a)

/-- `HADD2` (R277). -/
def execHadd2 (d : BitVec 7) (a : BitVec 7) (b : BitVec 7) (m : BitVec 3) (s : State) : Out :=
  .next (s.alu (.hadd2 d a b m) none [] none fun e v => packed2 e m.toNat fun rm el => fvAdd rm (el v.a) (el v.b))

/-- `HMUL2` (R277). -/
def execHmul2 (d : BitVec 7) (a : BitVec 7) (b : BitVec 7) (m : BitVec 3) (s : State) : Out :=
  .next (s.alu (.hmul2 d a b m) none [] none fun e v => packed2 e m.toNat fun _ el => fvMul (el v.a) (el v.b))

/-- `HFMA2` (R277). -/
def execHfma2 (d : BitVec 7) (a : BitVec 7) (b : BitVec 7) (m : BitVec 3) (c : BitVec 7) (s : State) : Out :=
  .next (s.alu (.hfma2 d a b m c) none [] none fun e v => packed2 e m.toNat fun rm el => fvFma rm (el v.a) (el v.b) (el v.c))

/-- `PAND` (R278): bit 0 of M negates A, bit 1 negates B. -/
def execPand (d : BitVec 7) (a : BitVec 7) (b : BitVec 7) (n : BitVec 2) (s : State) : Out :=
  .next (s.alu (.pand d a b n) none [a.toNat, b.toNat] (some d.toNat) fun e v => let _ := v; e.bool ((e.preds.getD 0 false != (n.toNat % 2 == 1)) && (e.preds.getD 1 false != (n.toNat / 2 == 1))))

/-- `POR` (R278): bit 0 of M negates A, bit 1 negates B. -/
def execPor (d : BitVec 7) (a : BitVec 7) (b : BitVec 7) (n : BitVec 2) (s : State) : Out :=
  .next (s.alu (.por d a b n) none [a.toNat, b.toNat] (some d.toNat) fun e v => let _ := v; e.bool ((e.preds.getD 0 false != (n.toNat % 2 == 1)) || (e.preds.getD 1 false != (n.toNat / 2 == 1))))

/-- `PXOR` (R278): bit 0 of M negates A, bit 1 negates B. -/
def execPxor (d : BitVec 7) (a : BitVec 7) (b : BitVec 7) (n : BitVec 2) (s : State) : Out :=
  .next (s.alu (.pxor d a b n) none [a.toNat, b.toNat] (some d.toNat) fun e v => let _ := v; e.bool ((e.preds.getD 0 false != (n.toNat % 2 == 1)) != (e.preds.getD 1 false != (n.toNat / 2 == 1))))

/-- `PNOT` (R278). -/
def execPnot (d : BitVec 7) (a : BitVec 7) (s : State) : Out :=
  .next (s.alu (.pnot d a) none [a.toNat] (some d.toNat) fun e v => let _ := v; e.bool (!e.preds.getD 0 false))

/-- `PMOV` (R278). -/
def execPmov (d : BitVec 7) (a : BitVec 7) (s : State) : Out :=
  .next (s.alu (.pmov d a) none [a.toNat] (some d.toNat) fun e v => let _ := v; e.bool (e.preds.getD 0 false))

/-- `PSET` (R278). -/
def execPset (d : BitVec 7) (a : BitVec 7) (s : State) : Out :=
  .next (s.alu (.pset d a) none [] (some d.toNat) fun e v => e.bool (v.a.toNat % 2 ^ 32 ≠ 0))

end Sys2Proof.Machine
end

