-- ==== Sys2Proof/Machine/Dispatch.lean ====
section
/-! DEFINITION. The meaning of every instruction and event: one arm for each constructor of `Instr`. -/

namespace Sys2Proof.Machine

open Sys2Proof

def exec (i : Instr) (s : State) : Host.Outcome State Fault Refusal :=
  match i with
  | .powerOn r => Sys2Proof.Machine.execPowerOn r s
  | .pcieFundamentalReset r => Sys2Proof.Machine.execPcieFundamentalReset r s
  | .managementPowerCycle r => Sys2Proof.Machine.execManagementPowerCycle r s
  | .mapRebuild die failed => Sys2Proof.Machine.execMapRebuild die failed s
  | .linkDown link => Sys2Proof.Machine.execLinkDown link s
  | .linkRetrainEnd link ok => Sys2Proof.Machine.execLinkRetrainEnd link ok s
  | .bridgeReplay bridge => Sys2Proof.Machine.execBridgeReplay bridge s
  | .thermalThrottle die reading => Sys2Proof.Machine.execThermalThrottle die reading s
  | .thermalFence reading => Sys2Proof.Machine.execThermalFence reading s
  | .thermalReenable reading => Sys2Proof.Machine.execThermalReenable reading s
  | .pwrhRefresh die quad hdrm => Sys2Proof.Machine.execPwrhRefresh die quad hdrm s
  | .undervoltStep x => Sys2Proof.Machine.execUndervoltStep x s
  | .monitorWindowExpiry dom array => Sys2Proof.Machine.execMonitorWindowExpiry dom array s
  | .undervoltOverride dom array count => Sys2Proof.Machine.execUndervoltOverride dom array count s
  | .scanStart core => Sys2Proof.Machine.execScanStart core s
  | .scanPatternEnd core pass => Sys2Proof.Machine.execScanPatternEnd core pass s
  | .scanAbort core => Sys2Proof.Machine.execScanAbort core s
  | .pldmSensorRead q reading => Sys2Proof.Machine.execPldmSensorRead q reading s
  | .pldmPowerLimit watts => Sys2Proof.Machine.execPldmPowerLimit watts s
  | .undervoltLockClear dom => Sys2Proof.Machine.execUndervoltLockClear dom s
  | .pldmUpdate m => Sys2Proof.Machine.execPldmUpdate m s
  | .pldmFileRead file => Sys2Proof.Machine.execPldmFileRead file s
  | .getMeasurements index => Sys2Proof.Machine.execGetMeasurements index s
  | .challenge nonce => Sys2Proof.Machine.execChallenge nonce s
  | .doorbell part q v => Sys2Proof.Machine.execDoorbell part q v s
  | .queueTail part q v => Sys2Proof.Machine.execQueueTail part q v s
  | .queueEnable part q on => Sys2Proof.Machine.execQueueEnable part q on s
  | .bind part => Sys2Proof.Machine.execBind part s
  | .unbind part => Sys2Proof.Machine.execUnbind part s
  | .drain part on => Sys2Proof.Machine.execDrain part on s
  | .unfreeze entry => Sys2Proof.Machine.execUnfreeze entry s
  | .kill entry => Sys2Proof.Machine.execKill entry s
  | .skip entry => Sys2Proof.Machine.execSkip entry s
  | .registerWrite off v => Sys2Proof.Machine.execRegisterWrite off v s
  | .hostAccess x => Sys2Proof.Machine.execHostAccess x s
  | .inval part die => Sys2Proof.Machine.execInval part die s
  | .invalall part die => Sys2Proof.Machine.execInvalall part die s
  | .resize part die => Sys2Proof.Machine.execResize part die s
  | .resizeend part die => Sys2Proof.Machine.execResizeend part die s
  | .migrate part die => Sys2Proof.Machine.execMigrate part die s
  | .faultRecordMapped part die rec => Sys2Proof.Machine.execFaultRecordMapped part die rec s
  | .faultRecordRefused part die rec => Sys2Proof.Machine.execFaultRecordRefused part die rec s
  | .sliceRequest r => Sys2Proof.Machine.execSliceRequest r s
  | .tableWalk part die off => Sys2Proof.Machine.execTableWalk part die off s
  | .granuleReopen part die gran => Sys2Proof.Machine.execGranuleReopen part die gran s
  | .sideLogReplay core => Sys2Proof.Machine.execSideLogReplay core s
  | .recordStage part q => Sys2Proof.Machine.execRecordStage part q s
  | .discard gid => Sys2Proof.Machine.execDiscard gid s
  | .restart idx => Sys2Proof.Machine.execRestart idx s
  | .blockClaim core space block => Sys2Proof.Machine.execBlockClaim core space block s
  | .watchdogExpiry part q => Sys2Proof.Machine.execWatchdogExpiry part q s
  | .binTimerExpiry core bin => Sys2Proof.Machine.execBinTimerExpiry core bin s
  | .binLaunch core bin => Sys2Proof.Machine.execBinLaunch core bin s
  | .activeMessageArrival x => Sys2Proof.Machine.execActiveMessageArrival x s
  | .groupRetire core idx => Sys2Proof.Machine.execGroupRetire core idx s
  | .resultLanding gid idx => Sys2Proof.Machine.execResultLanding gid idx s
  | .headerWait gid => Sys2Proof.Machine.execHeaderWait gid s
  | .loadReplay gid => Sys2Proof.Machine.execLoadReplay gid s
  | .starvationSwitch core lix => Sys2Proof.Machine.execStarvationSwitch core lix s
  | .turnLimit gid => Sys2Proof.Machine.execTurnLimit gid s
  | .cloneReplay gid first second => Sys2Proof.Machine.execCloneReplay gid first second s
  | .matrixCheck core tile ok written => Sys2Proof.Machine.execMatrixCheck core tile ok written s
  | .copyTransferCompletion core idx => Sys2Proof.Machine.execCopyTransferCompletion core idx s
  | .completionWordWrite core idx => Sys2Proof.Machine.execCompletionWordWrite core idx s
  | .batchWindowExpiry core entry line => Sys2Proof.Machine.execBatchWindowExpiry core entry line s
  | .updateArrival core x => Sys2Proof.Machine.execUpdateArrival core x s
  | .contributionArrival coll rank other => Sys2Proof.Machine.execContributionArrival coll rank other s
  | .collectiveBoundExpiry coll rank => Sys2Proof.Machine.execCollectiveBoundExpiry coll rank s
  | .collectiveDelivery coll x => Sys2Proof.Machine.execCollectiveDelivery coll x s
  | .waitWake gid idx => Sys2Proof.Machine.execWaitWake gid idx s
  | .waitTimeout gid idx => Sys2Proof.Machine.execWaitTimeout gid idx s
  | .waitaWake gid idx => Sys2Proof.Machine.execWaitaWake gid idx s
  | .pwaitReread gid idx => Sys2Proof.Machine.execPwaitReread gid idx s
  | .huddleRoundComplete core h => Sys2Proof.Machine.execHuddleRoundComplete core h s
  | .dcorRound core h => Sys2Proof.Machine.execDcorRound core h s
  | .barComplete gid idx => Sys2Proof.Machine.execBarComplete gid idx s
  | .pitcherStart core => Sys2Proof.Machine.execPitcherStart core s
  | .pitcherEnd core => Sys2Proof.Machine.execPitcherEnd core s
  | .iadd d a b m => Sys2Proof.Machine.execIadd d a b m s
  | .isub d a b m => Sys2Proof.Machine.execIsub d a b m s
  | .imul d a b => Sys2Proof.Machine.execImul d a b s
  | .imulh d a b m => Sys2Proof.Machine.execImulh d a b m s
  | .imad d a b c => Sys2Proof.Machine.execImad d a b c s
  | .idiv d a b m => Sys2Proof.Machine.execIdiv d a b m s
  | .irem d a b m => Sys2Proof.Machine.execIrem d a b m s
  | .imin d a b m => Sys2Proof.Machine.execImin d a b m s
  | .imax d a b m => Sys2Proof.Machine.execImax d a b m s
  | .iabs d a m => Sys2Proof.Machine.execIabs d a m s
  | .ineg d a m => Sys2Proof.Machine.execIneg d a m s
  | .and d a b => Sys2Proof.Machine.execAnd d a b s
  | .or d a b => Sys2Proof.Machine.execOr d a b s
  | .xor d a b => Sys2Proof.Machine.execXor d a b s
  | .andn d a b => Sys2Proof.Machine.execAndn d a b s
  | .not d a => Sys2Proof.Machine.execNot d a s
  | .shl d a b => Sys2Proof.Machine.execShl d a b s
  | .shr d a b => Sys2Proof.Machine.execShr d a b s
  | .sar d a b => Sys2Proof.Machine.execSar d a b s
  | .rotl d a b => Sys2Proof.Machine.execRotl d a b s
  | .popc d a => Sys2Proof.Machine.execPopc d a s
  | .clz d a => Sys2Proof.Machine.execClz d a s
  | .brev d a => Sys2Proof.Machine.execBrev d a s
  | .bfx d a b m c => Sys2Proof.Machine.execBfx d a b m c s
  | .bfi d a b c => Sys2Proof.Machine.execBfi d a b c s
  | .sel d a b p => Sys2Proof.Machine.execSel d a b p s
  | .mov d a => Sys2Proof.Machine.execMov d a s
  | .movi d imm => Sys2Proof.Machine.execMovi d imm s
  | .movh d imm => Sys2Proof.Machine.execMovh d imm s
  | .lea d a b sc => Sys2Proof.Machine.execLea d a b sc s
  | .icmp p a b c => Sys2Proof.Machine.execIcmp p a b c s
  | .iaddD d a b => Sys2Proof.Machine.execIaddD d a b s
  | .isubD d a b => Sys2Proof.Machine.execIsubD d a b s
  | .imulD d a b => Sys2Proof.Machine.execImulD d a b s
  | .imadD d a b c => Sys2Proof.Machine.execImadD d a b c s
  | .iminD d a b m => Sys2Proof.Machine.execIminD d a b m s
  | .imaxD d a b m => Sys2Proof.Machine.execImaxD d a b m s
  | .andD d a b => Sys2Proof.Machine.execAndD d a b s
  | .orD d a b => Sys2Proof.Machine.execOrD d a b s
  | .xorD d a b => Sys2Proof.Machine.execXorD d a b s
  | .shlD d a b => Sys2Proof.Machine.execShlD d a b s
  | .shrD d a b => Sys2Proof.Machine.execShrD d a b s
  | .sarD d a b => Sys2Proof.Machine.execSarD d a b s
  | .movD d a => Sys2Proof.Machine.execMovD d a s
  | .selD d a b p => Sys2Proof.Machine.execSelD d a b p s
  | .icmpD p a b c => Sys2Proof.Machine.execIcmpD p a b c s
  | .fadd d a b m => Sys2Proof.Machine.execFadd d a b m s
  | .fsub d a b m => Sys2Proof.Machine.execFsub d a b m s
  | .fmul d a b m => Sys2Proof.Machine.execFmul d a b m s
  | .ffma d a b m c => Sys2Proof.Machine.execFfma d a b m c s
  | .fmin d a b => Sys2Proof.Machine.execFmin d a b s
  | .fmax d a b => Sys2Proof.Machine.execFmax d a b s
  | .fabs d a => Sys2Proof.Machine.execFabs d a s
  | .fneg d a => Sys2Proof.Machine.execFneg d a s
  | .fcmp p a b c => Sys2Proof.Machine.execFcmp p a b c s
  | .fclass d a => Sys2Proof.Machine.execFclass d a s
  | .fscale d a b m => Sys2Proof.Machine.execFscale d a b m s
  | .fcvt d a c m => Sys2Proof.Machine.execFcvt d a c m s
  | .frnd d a m => Sys2Proof.Machine.execFrnd d a m s
  | .frcp d a m => Sys2Proof.Machine.execFrcp d a m s
  | .frsq d a => Sys2Proof.Machine.execFrsq d a s
  | .fsqrt d a m => Sys2Proof.Machine.execFsqrt d a m s
  | .fexp2 d a => Sys2Proof.Machine.execFexp2 d a s
  | .flog2 d a => Sys2Proof.Machine.execFlog2 d a s
  | .fsin d a => Sys2Proof.Machine.execFsin d a s
  | .fcos d a => Sys2Proof.Machine.execFcos d a s
  | .dadd d a b m => Sys2Proof.Machine.execDadd d a b m s
  | .dsub d a b m => Sys2Proof.Machine.execDsub d a b m s
  | .dmul d a b m => Sys2Proof.Machine.execDmul d a b m s
  | .dfma d a b m c => Sys2Proof.Machine.execDfma d a b m c s
  | .ddiv d a b m => Sys2Proof.Machine.execDdiv d a b m s
  | .dsqrt d a m => Sys2Proof.Machine.execDsqrt d a m s
  | .dcmp p a b c => Sys2Proof.Machine.execDcmp p a b c s
  | .dcvt d a c m => Sys2Proof.Machine.execDcvt d a c m s
  | .hadd2 d a b m => Sys2Proof.Machine.execHadd2 d a b m s
  | .hmul2 d a b m => Sys2Proof.Machine.execHmul2 d a b m s
  | .hfma2 d a b m c => Sys2Proof.Machine.execHfma2 d a b m c s
  | .pand d a b n => Sys2Proof.Machine.execPand d a b n s
  | .por d a b n => Sys2Proof.Machine.execPor d a b n s
  | .pxor d a b n => Sys2Proof.Machine.execPxor d a b n s
  | .pnot d a => Sys2Proof.Machine.execPnot d a s
  | .pmov d a => Sys2Proof.Machine.execPmov d a s
  | .pset d a => Sys2Proof.Machine.execPset d a s
  | .xchg d a b m => Sys2Proof.Machine.execXchg d a b m s
  | .xbcast d a b => Sys2Proof.Machine.execXbcast d a b s
  | .xscan d a b m => Sys2Proof.Machine.execXscan d a b m s
  | .xred d a m => Sys2Proof.Machine.execXred d a m s
  | .vote d a m => Sys2Proof.Machine.execVote d a m s
  | .bra o => Sys2Proof.Machine.execBra o s
  | .brx a => Sys2Proof.Machine.execBrx a s
  | .call o => Sys2Proof.Machine.execCall o s
  | .callx a => Sys2Proof.Machine.execCallx a s
  | .loop cnt len id ia ib ic it io => Sys2Proof.Machine.execLoop cnt len id ia ib ic it io s
  | .spawn c a b => Sys2Proof.Machine.execSpawn c a b s
  | .launch a => Sys2Proof.Machine.execLaunch a s
  | .rgn a => Sys2Proof.Machine.execRgn a s
  | .dead f m => Sys2Proof.Machine.execDead f m s
  | .ld d a f o v => Sys2Proof.Machine.execLd d a f o v s
  | .lda d a f o v => Sys2Proof.Machine.execLda d a f o v s
  | .ldw d a f o v => Sys2Proof.Machine.execLdw d a f o v s
  | .st d a f o v => Sys2Proof.Machine.execSt d a f o v s
  | .sta d a f o v => Sys2Proof.Machine.execSta d a f o v s
  | .stw d a f o v => Sys2Proof.Machine.execStw d a f o v s
  | .stP d a f o v => Sys2Proof.Machine.execStP d a f o v s
  | .staP d a f o v => Sys2Proof.Machine.execStaP d a f o v s
  | .stwP d a f o v => Sys2Proof.Machine.execStwP d a f o v s
  | .atom d a f o v => Sys2Proof.Machine.execAtom d a f o v s
  | .atoma d a f o v => Sys2Proof.Machine.execAtoma d a f o v s
  | .red d a f o v => Sys2Proof.Machine.execRed d a f o v s
  | .ldOff d a f o v => Sys2Proof.Machine.execLdOff d a f o v s
  | .ldaOff d a f o v => Sys2Proof.Machine.execLdaOff d a f o v s
  | .ldwOff d a f o v => Sys2Proof.Machine.execLdwOff d a f o v s
  | .stOff d a f o v => Sys2Proof.Machine.execStOff d a f o v s
  | .staOff d a f o v => Sys2Proof.Machine.execStaOff d a f o v s
  | .stwOff d a f o v => Sys2Proof.Machine.execStwOff d a f o v s
  | .stPOff d a f o v => Sys2Proof.Machine.execStPOff d a f o v s
  | .staPOff d a f o v => Sys2Proof.Machine.execStaPOff d a f o v s
  | .stwPOff d a f o v => Sys2Proof.Machine.execStwPOff d a f o v s
  | .atomOff d a f o v => Sys2Proof.Machine.execAtomOff d a f o v s
  | .atomaOff d a f o v => Sys2Proof.Machine.execAtomaOff d a f o v s
  | .redOff d a f o v => Sys2Proof.Machine.execRedOff d a f o v s
  | .fence o v => Sys2Proof.Machine.execFence o v s
  | .fencex p q o v => Sys2Proof.Machine.execFencex p q o v s
  | .watch a f => Sys2Proof.Machine.execWatch a f s
  | .wait d a => Sys2Proof.Machine.execWait d a s
  | .waita d a => Sys2Proof.Machine.execWaita d a s
  | .prf a => Sys2Proof.Machine.execPrf a s
  | .harm a h => Sys2Proof.Machine.execHarm a h s
  | .hsign h => Sys2Proof.Machine.execHsign h s
  | .hpoll d h => Sys2Proof.Machine.execHpoll d h s
  | .bar c n => Sys2Proof.Machine.execBar c n s
  | .parr a => Sys2Proof.Machine.execParr a s
  | .pwait d a => Sys2Proof.Machine.execPwait d a s
  | .cpyGa d a b t => Sys2Proof.Machine.execCpyGa d a b t s
  | .cpyAg d a b t => Sys2Proof.Machine.execCpyAg d a b t s
  | .cpyw t => Sys2Proof.Machine.execCpyw t s
  | .cpyt d t => Sys2Proof.Machine.execCpyt d t s
  | .bcpy a b c => Sys2Proof.Machine.execBcpy a b c s
  | .coll d a => Sys2Proof.Machine.execColl d a s
  | .subs n a => Sys2Proof.Machine.execSubs n a s
  | .subsSync n a => Sys2Proof.Machine.execSubsSync n a s
  | .subx n a => Sys2Proof.Machine.execSubx n a s
  | .subf d n => Sys2Proof.Machine.execSubf d n s
  | .subfSrc d => Sys2Proof.Machine.execSubfSrc d s
  | .amsg d a b t c => Sys2Proof.Machine.execAmsg d a b t c s
  | .qpush q a => Sys2Proof.Machine.execQpush q a s
  | .pitch d a b c => Sys2Proof.Machine.execPitch d a b c s
  | .mcfg a tile m => Sys2Proof.Machine.execMcfg a tile m s
  | .mzero tile => Sys2Proof.Machine.execMzero tile s
  | .gath d a b c lat fa mx m => Sys2Proof.Machine.execGath d a b c lat fa mx m s
  | .mma d a b c h tile lat fa fb mx m => Sys2Proof.Machine.execMma d a b c h tile lat fa fb mx m s
  | .mmasS d a b c h tile lat fa fb mx lr => Sys2Proof.Machine.execMmasS d a b c h tile lat fa fb mx lr s
  | .mmasV d a b c h tile fa fb mx lr => Sys2Proof.Machine.execMmasV d a b c h tile fa fb mx lr s
  | .mol a tile => Sys2Proof.Machine.execMol a tile s
  | .mdrn a c tile m => Sys2Proof.Machine.execMdrn a c tile m s
  | .mstat d tile clr => Sys2Proof.Machine.execMstat d tile clr s
  | .cvtb d a c fa => Sys2Proof.Machine.execCvtb d a c fa s
  | .dcorD d a b h => Sys2Proof.Machine.execDcorD d a b h s
  | .mfsr d c => Sys2Proof.Machine.execMfsr d c s
  | .mtsr a c => Sys2Proof.Machine.execMtsr a c s
  | .trap n => Sys2Proof.Machine.execTrap n s
  | .sysc n => Sys2Proof.Machine.execSysc n s
  | .illegal x => Sys2Proof.Machine.execIllegal x s
  | .unassignedOpcode w => Sys2Proof.Machine.execUnassignedOpcode w s
  | .hardwareEnd ag => Sys2Proof.Machine.execHardwareEnd ag s
  | .sourceEntryRequest core idx => Sys2Proof.Machine.execSourceEntryRequest core idx s
  | .pldmDiscovery => Sys2Proof.Machine.execPldmDiscovery s
  | .schedulerCycle => Sys2Proof.Machine.execSchedulerCycle s
  | .ret => Sys2Proof.Machine.execRet s
  | .join => Sys2Proof.Machine.execJoin s
  | .tail => Sys2Proof.Machine.execTail s
  | .yield => Sys2Proof.Machine.execYield s
  | .nop => Sys2Proof.Machine.execNop s
  | .qdrn => Sys2Proof.Machine.execQdrn s
  | .eret => Sys2Proof.Machine.execEret s
  | .clauseHeader => Sys2Proof.Machine.execClauseHeader s

end Sys2Proof.Machine
end

