-- ==== Sys2Proof/Machine/Issue.lean ====
section
/-! DEFINITION. What a step runs: the instruction that a path issues (R126), and the event that happens where no path issues
(log entry 1). -/

namespace Sys2Proof.Machine

open Sys2Proof

/-! ### What a path issues -/

/-- R231: the threads of a sweep whose clone check failed twice; a uniform sweep fails for each active thread (R122), and a
sweep of which nothing is checked does not fail (R229). -/
def State.cloneFails (s : State) (gid : Nat) (i : Instr) (mask : List Nat) : List Nat :=
  let bad := ((s.core (s.grp gid).core).replays.filter fun r => r.gid = gid).flatMap Replay.bad
  let ts := mask.filter bad.contains
  if ts.isEmpty || !cloneChecked i then [] else if isUniform i then mask else ts

/-- Threads of the path trap at the instruction, which they do not perform: each with the code and TADDR of an entry. The traps stand,
for nothing raises them again (R144). What a thread owed is taken with it. -/
def State.trapFirst (s : State) (es : List (Nat × Nat × Nat)) : State :=
  let out := fun (ts : List Nat) => ts.filter fun t => es.all fun e => e.1 ≠ t
  let s := s.updGrp s.cur.gid fun g => es.foldl (fun g e => g.updThr e.1 fun x =>
    { x with replay := false, stays := false, popped := [], owed := none, last := s.now }) g
  { s with
    cur := { s.cur with path := out s.cur.path, mask := out s.cur.mask }
    sweep := { s.sweep with traps := es ++ s.sweep.traps, firm := es.map Prod.fst ++ s.sweep.firm } }

/-- The failing threads trap `UNCORRECTABLE`; the entry is used up by a path that meets its threads (R231). -/
def State.cloneTaken (s : State) (gid : Nat) (i : Instr) : State :=
  let fs := s.cloneFails gid i s.cur.mask
  let used := fun (r : Replay) => r.gid = gid && r.tids.any s.cur.path.contains
  let s := s.updCore (s.grp gid).core fun c => { c with replays := c.replays.filter fun r => !used r }
  s.trapFirst (fs.map fun t => (t, 0x0C, 0))

/-- An instruction whose meaning takes the traps that its threads owe (R318, R320). -/
def takesOwed : Instr → Bool
  | .hsign .. | .bar .. | .dcorD .. => true
  | _ => false

/-- Threads that owe a trap at the instruction take it in place of performing it (R144). -/
def State.owedTaken (s : State) (gid : Nat) (i : Instr) : State :=
  let es := s.cur.mask.filterMap fun t => (s.thr gid t).owed.map fun e => (t, e)
  if es.isEmpty || takesOwed i then s
  else s.trapFirst es

/-- A path that begins a turn counts its instructions from 0 (R126); a lane that chose ends the yields of its groups
(R130). -/
def State.chosen (s : State) (gid : Nat) (goesOn chose : Bool) : State :=
  let s := if goesOn then s else s.updGrp gid fun g => { g with turn := 0 }
  if chose then (s.laneGids (laneOf gid)).foldl (fun s h => s.updGrp h fun g =>
    if g.rank = .yielded then { g with rank := .normal } else g) s
  else s

/-- The next instruction of a group: a header, an instruction of a clause, or the end of its turn or program. -/
def State.issue (s : State) (gid : Nat) (chose : Bool) : Instr × State :=
  let g := s.grp gid
  let (path, goesOn) := s.nextPath gid
  let lead := g.thr (path.headD 0)
  if g.kind = .pitcher && (s.core g.core).pitchOver then (.pitcherEnd g.core, s)
  else if goesOn && 256 ≤ g.turn then (.turnLimit gid, s)
  else
    let s := s.chosen gid goesOn chose
    if lead.pos.k = 0 then (.clauseHeader, { s with cur := s.curAt gid lead.pos path [] })
    else
      let (i, c) := s.fetched gid lead.pos lead.loop path (path.filter fun t => (g.thr t).gact && !(g.thr t).done)
      let s := { s with cur := c }
      (i, (if (s.core g.core).replays.isEmpty then s else s.cloneTaken gid i).owedTaken gid i)

/-! ### Events -/

/-- An event does more than let time pass. -/
def State.does (s : State) (e : Instr) : Bool :=
  match exec e s with
  | .next t => t ≠ s.tick
  | _ => false

/-- The watch of a parked thread has latched an event (R313). -/
def Group.latched (g : Group) (mask : List Nat) : Bool :=
  match (g.thr (mask.headD 0)).watch with
  | some w => w.latched.isSome
  | none => false

/-- The events that may end a park. -/
def State.parkEvents (s : State) (gid : Nat) (g : Group) (i : Nat) (r : ParkRec) : List Instr :=
  match r.kind with
  | .wait _ d => if g.latched r.mask then [.waitWake gid i] else match d with
    | some n => if n ≤ s.now then [.waitTimeout gid i] else []
    | none => []
  | .waita .. => [.waitaWake gid i]
  | .pwait .. => [.pwaitReread gid i]
  | .bar .. => [.barComplete gid i]
  | .fencex .. | .cpyw .. | .huddle _ => []

/-- The events that may be due for a group. -/
def State.groupEvents (s : State) (gid : Nat) (g : Group) : List Instr :=
  (match g.gpark with
    | some (.header bits) => if s.waitsDone gid bits then [Instr.headerWait gid] else []
    | _ => [])
    ++ (if (List.range 16).any (s.mayReplay gid) then [.loadReplay gid] else [])
    ++ (if g.marked.isSome && s.restartable (s.instOf gid) then [.discard gid] else [])
    ++ (if g.pend.isEmpty then [] else [.resultLanding gid 0])
    ++ (g.parks.zip (List.range g.parks.length)).flatMap fun e => s.parkEvents gid g e.2 e.1

/-- The events that may be due on a core. A check passes, and a scan's signature is right, unless the agenda says
otherwise. -/
def State.coreEvents (s : State) (k : Nat) (c : Core) : List Instr :=
  ((List.range c.cmds.length).flatMap fun i => [Instr.completionWordWrite k i, .sourceEntryRequest k i])
    ++ ((List.range c.xfers.length).map fun i => .copyTransferCompletion k i)
    ++ ((List.range c.tiles.length).flatMap fun i => if (c.tile i).due then [Instr.matrixCheck k i true 0] else [])
    ++ ((List.range c.upds.length).map fun i => .updateArrival k ⟨i, false⟩)
    ++ ((List.range c.srcs.length).flatMap fun i =>
      ((c.srcs.map SrcEnt.open_).getD i []).map fun o => .batchWindowExpiry k i o.1)
    ++ ((List.range 16).flatMap fun i =>
      if (c.huddle i).count = 0 || (c.huddle i).signed < (c.huddle i).count then [] else [Instr.huddleRoundComplete k i, .dcorRound k i])
    ++ ((c.bins.zip (List.range c.bins.length)).flatMap fun e =>
      Instr.binLaunch k e.2 :: if c.binDue s.now e.1 then [.binTimerExpiry k e.2] else [])
    ++ (if c.inq.isEmpty && !s.dev.linkIn.any (s.lateFor k) then [] else [.activeMessageArrival (.binned k)])
    ++ ((c.tracker.zip (List.range c.tracker.length)).flatMap fun e => if s.drained k e.1 then [Instr.groupRetire k e.2] else [])
    ++ (if c.side.isEmpty then [] else [.sideLogReplay k])
    ++ (if c.starts.isEmpty then [] else [.pitcherStart k])
    ++ (if c.scan then [.scanAbort k, .scanPatternEnd k true]
      else if (c.scanDue || c.drains) && s.idle k then [.scanStart k] else if c.drains then [.scanAbort k] else [])

/-- The block that a waiting first touch takes (R105). -/
def State.claimEvents (s : State) : List Instr :=
  s.cores.flatMap fun e => if !e.2.want then [] else match s.claimChoice e.1 none with
    | some (_, _, phys, slot) => [.blockClaim e.1 slot phys]
    | none => []

/-- The events that may be due for a context: translation commands, granules and queues. -/
def partEvents (n : Nat) (p : Part) : List Instr :=
  match p.x with
  | none => []
  | some x => ((List.range x.dies.length).flatMap fun d =>
      [Instr.inval n d, .invalall n d, .resize n d, .resizeend n d, .migrate n d])
    ++ x.closed.map fun g => .granuleReopen n g.die g.gran

/-- The events that may be due for a queue. -/
def State.queueEvents (s : State) (part q : Nat) (x : Queue) : List Instr :=
  (if x.head ≠ x.tail && x.stage.isNone then [Instr.recordStage part q] else [])
    ++ if s.budget part q ≠ 0 && s.budget part q ≤ x.counter then [.watchdogExpiry part q] else []

/-- The events that may be due for a collective. -/
def collEvents (now i : Nat) (c : Coll) : List Instr :=
  (c.members.flatMap fun m => c.members.map fun n => Instr.contributionArrival i m.rank n.rank)
    ++ ((List.range ((c.members.map fun m => m.table.length).headD 0)).map fun r => .contributionArrival i r r)
    ++ (c.members.map fun m => .collectiveDelivery i ⟨m.rank, false⟩)
    ++ c.members.flatMap fun m => if m.until_ ≤ now then [.collectiveBoundExpiry i m.rank] else []

/-- An array's count that exceeds its threshold (R237). -/
def domainEvents (x : Domain) : List Instr := x.counts.map fun e => .undervoltOverride x.dom e.1 e.2

/-- Every event that may be due. -/
def State.due (s : State) : List Instr :=
  (s.groups.flatMap fun e => s.groupEvents e.1 e.2) ++ (s.cores.flatMap fun e => s.coreEvents e.1 e.2)
    ++ s.claimEvents ++ ((s.helds.zip (List.range s.helds.length)).flatMap fun e => if s.restartDue e.1 then [Instr.restart e.2] else [])
    ++ ((List.range s.parts.length).flatMap fun n => partEvents n (s.parts.getD n Part.reset))
    ++ (s.queues.flatMap fun e => s.queueEvents (e.1 / 64) (e.1 % 64) e.2)
    ++ s.dev.domains.flatMap domainEvents
    ++ (List.range s.colls.length).flatMap fun i => match s.colls[i]? with
      | some c => collEvents s.now i c
      | none => []

/-- The event that happens where the agenda names none: one that is due, with a scheduler cycle at times between. -/
def State.nextEvent (s : State) : Option Instr :=
  if s.now % 16 = 15 then some .schedulerCycle else s.due.find? s.does

/-- An event, which has no word and needs no path. -/
def isEvent (i : Instr) : Bool := (encode i).isEmpty && i ≠ .clauseHeader

/-- What a path issues, where one is ready. -/
def State.pathMove (s : State) : Option (Instr × State) :=
  s.nextLane.bind fun l => (s.laneNext l).map fun g => s.issue g.1 g.2

/-- What happens next: the head of the agenda; else paths and events take turns, and where neither has anything to do
a scheduler cycle passes (log entry 1). -/
def State.move (s : State) : Instr × State :=
  match s.agenda with
  | e :: es => (if isEvent e then e else .schedulerCycle, { s with agenda := es })
  | [] =>
    let event := fun (_ : Unit) => s.nextEvent.map fun e => (e, s)
    if s.now % 2 = 0 then (s.pathMove.or (event ())).getD (.schedulerCycle, s)
    else ((event ()).or s.pathMove).getD (.schedulerCycle, s)

/-! ### A given instruction -/

/-- The clause of one instruction, whose literal words are 0: the bits above `nbits` are 0, as the words after are. -/
def clauseOf (nbits w : Nat) : List Word :=
  let v := w % 2 ^ nbits
  let a := BitVec.ofNat 32 v
  let b := BitVec.ofNat 32 (v / 2 ^ 32)
  BitVec.ofNat 32 (2 ^ 28 + opClass (opOf a) * 2 ^ 25) ::
    (if lengthOf a = 2 then [a, b] else [a]) ++ (litSlots a b).map fun _ => 0#32

/-- A role that may use the instruction of a word (R131). -/
def roleFor (w u : Word) : Nat :=
  match decode w u with
  | .ok i => ([0, 1, 2, 3].find? fun r => roleOk r i).getD 0
  | .error _ => 0

/-- A home group of one live thread that stands at the first instruction of a clause at address 0. -/
def clauseGroup (ws : List Word) : Group :=
  { Group.fresh 0 0 0 0 0 0 .spawned (roleFor (ws.getD 1 0#32) (ws.getD 2 0#32)) 80 0 0 (startThreads 0 0 1) with
    threads := (startThreads 0 0 1).map (fun t => { t with pos := ⟨0, 1⟩ }), clauses := [(0, ws)], argsDue := false }

/-- The state in which that group issues next; it runs in launch space 0 of core 0. -/
def State.withClause (s : State) (ws : List Word) : State :=
  let core := { s.core 0 with scan := false, replays := [], spaces := [⟨0, 0, 0, CReg.of 0x200, [], false, 0⟩] }
  { s with
    dev := { s.dev with safe := false, fenced := false }
    groups := [(0, clauseGroup ws)], cores := kset s.cores 0 core, agenda := [], now := s.now / 2 * 2
    nextId := max s.nextId 1 }

end Sys2Proof.Machine
end

