-- ==== Sys2Proof/Machine/Step.lean ====
section
/-! DEFINITION. The step of the machine, and the state in which a given instruction issues next. -/

namespace Sys2Proof.Machine

open Sys2Proof

/-- One step: the next instruction of a path, a clause header, or an event (R126, R242, log entry 1). -/
def step (s : State) : Host.Outcome State Fault Refusal := exec s.move.1 s.move.2

/-- `s` with one home group, in slot 0 of lane 0 of core 0, whose one live thread stands at the only instruction of a
clause at address 0 (log entry 40). -/
def State.withFetchWord (s : State) (nbits w : Nat) : State := s.withClause (clauseOf nbits w)

end Sys2Proof.Machine
end

