-- ==== Sys2Proof/WellFormed.lean ====
section
/-! DEFINITION. Well-formed instructions: those that some group could run, with every operand code and every number
field a value that the instruction's description assigns (R250, R251, R259). -/

namespace Sys2Proof

/-- Every operand and number of the instruction is accepted in a group of 80 registers. -/
def WellFormed (i : Instr) : Bool := Machine.legal 80 i

end Sys2Proof
end

