-- ==== Sys2Proof/Safety.lean ====
section
/-! DEFINITION. The terms in which claims about the machine are stated: the invariant, the state in which an
instruction issues, and what a step leaves as it was. -/

namespace Sys2Proof.Machine

open Sys2Proof

/-! ### The invariant -/

/-- Memory is in its canonical form. -/
def State.Inv (s : State) : Prop := s.mem.wf = true

/-! ### An instruction issues -/

/-- An instruction issues for a home group (R114, R259): the sweep is at its beginning, the group is there with its 16
threads, its role and its registers admit the instruction, the active threads are live threads of the path, and no freeze of the
group is due (R232). -/
structure State.Issues (s : State) (i : Instr) (g : Group) : Prop where
  group : kfind s.groups s.cur.gid = some g
  home  : g.kind ≠ .pitcher
  fresh : s.sweep = Sweep.reset
  role  : roleOk g.role i = true
  legal : legal g.regs i = true
  size  : g.threads.length = 16
  act   : s.cur.mask ≠ []
  mask  : s.cur.mask.Nodup
  path  : s.cur.path.Nodup
  sub   : ∀ t ∈ s.cur.mask, t ∈ s.cur.path
  tids  : ∀ t ∈ s.cur.path, t < 16
  live  : ∀ t ∈ s.cur.mask, (g.thr t).life = .live
  going : g.toFreeze = none

/-- No source of the instruction is a window or a queue: reading it changes no state (R251). -/
def PlainSources (i : Instr) : Prop :=
  ∀ o ∈ operands i, o.form.isSrc = true → o.code.toNat < 112 ∨ (120 ≤ o.code.toNat ∧ o.code.toNat < 124)

/-- Every active thread can read its sources, whose values are `v`. -/
def State.Reads (s : State) (i : Instr) (v : Nat → Vals) : Prop :=
  ∀ t ∈ s.cur.mask, s.readOps s.cur.gid t (operands i) Vals.zero = (s, .ok (v t))

/-- What a register may give a thread that reads it: zero where it is dead (R138), its value as it stands, or that of a write which
is still pending on it (R121). -/
def Group.mayRead (g : Group) (t c : Nat) (r : Reg) : Prop :=
  if g.isDead t c then r = Reg.zero
  else r = g.settled t c ∨ ∃ p, g.pendOn t c = some p ∧ r = p.regs.getD (c - p.code) Reg.zero

/-! ### Frames -/

/-- Nothing outside the issuing group changes but the passing of time, and that no link holds a request of the path's threads any
longer (R32); the next sweep is at its beginning. -/
structure SameOutside (s u : State) : Prop where
  dev      : u.dev = s.linkOver.dev
  parts    : u.parts = s.parts
  queues   : u.queues = s.queues
  flog     : u.flog = s.flog
  flogSeq  : u.flogSeq = s.flogSeq
  logovf   : u.logovf = s.logovf
  launches : u.launches = s.launches
  helds    : u.helds = s.helds
  mem      : u.mem = s.mem
  tlb      : u.tlb = s.tlb
  ivs      : u.ivs = s.ivs
  groups   : ∀ k, k ≠ s.cur.gid → kfind u.groups k = kfind s.groups k
  cores    : u.cores = s.cores
  colls    : u.colls = s.colls
  agenda   : u.agenda = s.agenda
  cur      : u.cur = s.cur
  sweep    : u.sweep = Sweep.reset
  time     : u.now = s.now + 1 ∧ u.free = s.free + 1 ∧ u.nextId = s.nextId

/-- An instruction of the group changed at most its threads, its g registers, its control registers, its pending
writes and what the next choice of a path and a lane goes by. -/
def Group.Kept (g h : Group) : Prop :=
  h = { g with
    threads := h.threads, g := h.g, ctl := h.ctl, pend := h.pend, gpark := h.gpark, turnAt := h.turnAt, turn := h.turn
    turnLast := h.turnLast, last := h.last, rank := h.rank, again := h.again }

/-- An instruction changed at most the registers, the predicates and the generator of a thread, and where it stands. -/
def Thread.Kept (x y : Thread) : Prop :=
  y = { x with
    x := y.x, pr := y.pr, dead := y.dead, gen := y.gen, pos := y.pos, loop := y.loop, popped := y.popped
    replay := y.replay, stays := y.stays, done := y.done, last := y.last }

/-- The control registers after an instruction that raised `flags`: FLG takes them, and HOLD of `TMASK` keeps the
threads whose load is still held or in flight. -/
def Ctl.Kept (c d : Ctl) (flags : Nat) : Prop :=
  d = { c with fpctl := (c.raise flags).fpctl, tmask := d.tmask } ∧ d.tmask.n % 2 ^ 16 = c.tmask.n % 2 ^ 16

/-- The pending writes stand, but that some may be marked as overtaken (R121). -/
def SamePend (ps qs : List Pend) : Prop :=
  qs.map (fun p => { p with beaten := [] }) = ps.map fun p => { p with beaten := [] }

/-! ### Completion of a register instruction -/

/-- A thread whose destination register, or pair, takes a value with its P: a register that is written is no longer
dead (R138); codes of g registers and z are no registers of the thread. -/
def Thread.given (x : Thread) (d : Code) (pair : Bool) (v : DWord) (p : Bool) : Thread :=
  if 80 ≤ d.toNat then x
  else if pair then { x with
    x := (x.x.set d.toNat ⟨v.lo, p⟩).set (d.toNat + 1) ⟨v.hi, p⟩
    dead := (x.dead.filter (· ≠ d.toNat)).filter (· ≠ d.toNat + 1) }
  else { x with x := x.x.set d.toNat ⟨v.lo, p⟩, dead := x.dead.filter (· ≠ d.toNat) }

/-- A thread whose generator stands at `n` (R276). -/
def Thread.drew (x : Thread) (n : BitVec 32) : Thread := { x with gen := n }

/-- The g registers once a destination among them takes a value. -/
def gGiven (gs : List Reg) (d : Code) (pair : Bool) (v : DWord) (p : Bool) : List Reg :=
  if d.toNat < 80 || 112 ≤ d.toNat then gs
  else if pair then (gs.set (d.toNat - 80) ⟨v.lo, p⟩).set (d.toNat + 1 - 80) ⟨v.hi, p⟩
  else gs.set (d.toNat - 80) ⟨v.lo, p⟩

/-- The write that a result of variable latency leaves in flight (R118); z takes none. -/
def flying (t : Nat) (d : Code) (pair : Bool) (v : DWord) (p : Bool) (kind : Nat) : List Pend :=
  if d.toNat < 112 then [⟨t, d.toNat, if pair then [⟨v.lo, p⟩, ⟨v.hi, p⟩] else [⟨v.lo, p⟩], kind, none, [], none⟩] else []

/-- `exec i` answers a next state in which the threads of the issuing group hold the registers of `th`, the g registers
are `gs`, the flags `fl` have joined FLG, the writes `new` are in flight, and nothing else has changed. -/
def State.Completes (s : State) (i : Instr) (g : Group) (fl : Nat) (new : List Pend) (th : Nat → Thread) (gs : List Reg) :
    Prop :=
  ∃ u h, exec i s = .next u ∧ SameOutside s u ∧ kfind u.groups s.cur.gid = some h ∧ g.Kept h ∧ g.ctl.Kept h.ctl fl
    ∧ SamePend (g.pend ++ new) h.pend ∧ h.g = gs
    ∧ ∀ t, (th t).Kept (h.thr t) ∧ (h.thr t).x = (th t).x ∧ (h.thr t).pr = (th t).pr ∧ (h.thr t).dead = (th t).dead
      ∧ (h.thr t).gen = (th t).gen

/-- The flags that the threads of a sweep raise. -/
def raisedBy (fl : Nat → Nat) (ts : List Nat) : Nat := ts.foldl (fun a t => a ||| fl t) 0

/-- What an operation gives a thread of a group that reads `v` (R265): it may read the rounding mode, the thread's
generator and the predicates `ps`. -/
def Group.opOf (g : Group) (ps : List Nat) (f : Env → Vals → Ans) (v : Vals) (t : Nat) : Ans :=
  f ⟨g.ctl.fpctl.n % 8, (g.thr t).gen, ps.map fun n => ((g.thr t).pr.getD n PReg.zero).v⟩ v

/-- The P of the result for the threads `tt` that it is for: the OR of the P of every source, every predicate read, the
operation's own, and the threads' path taint and guard (R122, R221, R265). -/
def Group.opP (g : Group) (ps : List Nat) (f : Env → Vals → Ans) (v : Vals) (t : Nat) (tt : List Nat) : Bool :=
  v.p || (ps.any fun n => ((g.thr t).pr.getD n PReg.zero).p) || (g.opOf ps f v t).p
    || tt.any fun u => !(g.thr u).taint.isEmpty || (g.thr u).gp

/-- An ALU instruction with a destination register or z does what R265 says, once for each active thread, or once for
the group where it names only g registers, z and literals (R122). `kind` is the wait bit of a result of variable
latency. -/
def State.Alu (s : State) (i : Instr) (g : Group) (v : Nat → Vals) (d : Code) (pair : Bool) (kind : Option Nat)
    (ps : List Nat) (f : Env → Vals → Ans) : Prop :=
  let r := fun t => g.opOf ps f (v t) t
  (isUniform i = false → d.toNat < 80 ∨ d.toNat = 120 → (∀ t ∈ s.cur.mask, (r t).fl &&& g.ctl.ten = 0) →
    let p := fun t => g.opP ps f (v t) t [t]
    s.Completes i g (raisedBy (fun t => (r t).fl) s.cur.mask)
      (kind.elim [] fun k => s.cur.mask.flatMap fun t => flying t d pair (r t).v (p t) k)
      (fun t => if t ∈ s.cur.mask then
          (if kind = none then ((g.thr t).drew (r t).gen).given d pair (r t).v (p t) else (g.thr t).drew (r t).gen)
        else g.thr t) g.g)
  ∧ (isUniform i = true → d.toNat < 112 ∨ d.toNat = 120 → ∀ t, s.cur.mask.head? = some t → (r t).fl &&& g.ctl.ten = 0 →
    let p := g.opP ps f (v t) t s.cur.mask
    s.Completes i g (r t).fl
      (kind.elim [] fun k => flying t d pair (r t).v p k)
      (fun u => if u = t then (g.thr u).drew (r t).gen else g.thr u)
      (if kind = none then gGiven g.g d pair (r t).v p else g.g))

/-- An instruction whose destination is a predicate. -/
def State.AluPred (s : State) (i : Instr) (g : Group) (v : Nat → Vals) (n : Nat) (ps : List Nat)
    (f : List Bool → Vals → Bool) : Prop :=
  let e := fun t => ps.map fun n => ((g.thr t).pr.getD n PReg.zero).v
  let p := fun t => (v t).p || (ps.any fun n => ((g.thr t).pr.getD n PReg.zero).p)
    || !(g.thr t).taint.isEmpty || (g.thr t).gp
  s.Completes i g 0 []
    (fun t => if t ∈ s.cur.mask then { g.thr t with pr := (g.thr t).pr.set n ⟨f (e t) (v t), p t⟩ } else g.thr t) g.g

/-! ### What the register instructions compute

One row per instruction: its destination, whether that is a pair, the wait bit of a result of variable latency, the
predicates it reads, and the result as the table of its rule gives it. -/

structure AluRow where
  d    : Code
  pair : Bool
  kind : Option Nat
  ps   : List Nat
  f    : Env → Vals → Ans

/-- A result of one word from the words in D, A, B and C, without flags. -/
def wordRow (d : Code) (f : Word → Word → Word → Word → Word) : AluRow :=
  ⟨d, false, none, [], fun e v => ⟨(f v.d.lo v.a.lo v.b.lo v.c.lo).setWidth 64, 0, false, e.gen⟩⟩

/-- A result of a pair from the 64-bit operands A, B and C, without flags. -/
def pairRow (d : Code) (f : DWord → DWord → DWord → DWord) : AluRow :=
  ⟨d, true, none, [], fun e v => ⟨f v.a v.b v.c, 0, false, e.gen⟩⟩

/-- The nearest signed word, and the nearest unsigned one (R267). -/
def satS (n : Int) : Word := BitVec.ofInt 32 (max (-2147483648) (min 2147483647 n))
def satU (n : Int) : Word := BitVec.ofInt 32 (max 0 (min 4294967295 n))

/-- The low `w` bits of a word set (R268). -/
def lowMask (w : Nat) : Word := BitVec.ofNat 32 (2 ^ w - 1)

/-- `BFX` and `BFI` (R268). -/
def bfxWord (sgn : Bool) (a pos w : Word) : Word :=
  if w = 0#32 ∨ 32 ≤ pos.toNat then 0#32
  else
    let n := min w.toNat (32 - pos.toNat)
    let f := a.extractLsb' pos.toNat n
    if sgn then f.signExtend 32 else f.setWidth 32
def bfiWord (d a pos w : Word) : Word :=
  if w = 0#32 ∨ 32 ≤ pos.toNat then d
  else
    let m := lowMask (min w.toNat (32 - pos.toNat)) <<< pos.toNat
    (d &&& ~~~m) ||| ((a <<< pos.toNat) &&& m)

/-- R267 to R269, and `MOVI` and `MOVH` of R271: the instructions on single words. -/
def intRow : Instr → Option AluRow
  | .iadd d _ _ m => some (wordRow d fun _ a b _ => match m.toNat with
    | 1 => satS (a.toInt + b.toInt)
    | 2 => satU (a.toNat + b.toNat)
    | _ => a + b)
  | .isub d _ _ m => some (wordRow d fun _ a b _ => match m.toNat with
    | 1 => satS (a.toInt - b.toInt)
    | 2 => satU ((a.toNat : Int) - b.toNat)
    | _ => a - b)
  | .imul d _ _ => some (wordRow d fun _ a b _ => a * b)
  | .imulh d _ _ m => some (wordRow d fun _ a b _ =>
    if m = 1#3 then ((a.setWidth 64 * b.setWidth 64) >>> 32).setWidth 32
    else ((a.signExtend 64 * b.signExtend 64) >>> 32).setWidth 32)
  | .imad d _ _ _ => some (wordRow d fun _ a b c => a * b + c)
  | .imin d _ _ m => some (wordRow d fun _ a b _ => if (if m = 1#3 then a.ule b else a.sle b) then a else b)
  | .imax d _ _ m => some (wordRow d fun _ a b _ => if (if m = 1#3 then a.ule b else a.sle b) then b else a)
  | .iabs d _ m => some (wordRow d fun _ a _ _ =>
    if m = 1#3 then satS a.toInt.natAbs else if a.msb then -a else a)
  | .ineg d _ m => some (wordRow d fun _ a _ _ => if m = 1#3 then satS (-a.toInt) else -a)
  | .and d _ _ => some (wordRow d fun _ a b _ => a &&& b)
  | .or d _ _ => some (wordRow d fun _ a b _ => a ||| b)
  | .xor d _ _ => some (wordRow d fun _ a b _ => a ^^^ b)
  | .andn d _ _ => some (wordRow d fun _ a b _ => a &&& ~~~b)
  | .not d _ => some (wordRow d fun _ a _ _ => ~~~a)
  | .shl d _ _ => some (wordRow d fun _ a b _ => a <<< b.toNat)
  | .shr d _ _ => some (wordRow d fun _ a b _ => a >>> b.toNat)
  | .sar d _ _ => some (wordRow d fun _ a b _ => a.sshiftRight b.toNat)
  | .rotl d _ _ => some (wordRow d fun _ a b _ => a.rotateLeft (b.toNat % 32))
  | .popc d _ => some (wordRow d fun _ a _ _ => BitVec.ofNat 32 ((List.range 32).countP fun i => a.getLsbD i))
  | .clz d _ => some (wordRow d fun _ a _ _ =>
    BitVec.ofNat 32 (((List.range 32).takeWhile fun i => !a.getLsbD (31 - i)).length))
  | .brev d _ => some (wordRow d fun _ a _ _ => a.reverse)
  | .bfx d _ _ m _ => some (wordRow d fun _ a b c => bfxWord (m = 1#3) a b c)
  | .bfi d _ _ _ => some (wordRow d fun x a b c => bfiWord x a b c)
  | .sel d _ _ p => some ⟨d, false, none, [p.toNat], fun e v =>
    ⟨((if e.preds.getD 0 false then v.a.lo else v.b.lo).setWidth 64), 0, false, e.gen⟩⟩
  | .mov d _ => some (wordRow d fun _ a _ _ => a)
  | .movi d n => some (wordRow d fun _ _ _ _ => n.signExtend 32)
  | .movh d n => some (wordRow d fun x _ _ _ => n.setWidth 32 <<< 16 ||| (x &&& 0xFFFF#32))
  | .idiv d _ _ m => some { wordRow d (fun _ a b _ =>
      if b = 0#32 then 0xFFFFFFFF#32 else if m = 1#3 then a / b else BitVec.ofInt 32 (a.toInt.tdiv b.toInt)) with
    kind := some 4 }
  | .irem d _ _ m => some { wordRow d (fun _ a b _ =>
      if b = 0#32 then a else if m = 1#3 then a % b else BitVec.ofInt 32 (a.toInt.tmod b.toInt)) with kind := some 4 }
  | _ => none

/-- R270, and `LEA` of R271: the instructions on pairs. -/
def pairIntRow : Instr → Option AluRow
  | .iaddD d _ _ => some (pairRow d fun a b _ => a + b)
  | .isubD d _ _ => some (pairRow d fun a b _ => a - b)
  | .imulD d _ _ => some (pairRow d fun a b _ => a * b)
  | .imadD d _ _ _ => some (pairRow d fun a b c => a * b + c)
  | .iminD d _ _ m => some (pairRow d fun a b _ => if (if m = 1#3 then a.ule b else a.sle b) then a else b)
  | .imaxD d _ _ m => some (pairRow d fun a b _ => if (if m = 1#3 then a.ule b else a.sle b) then b else a)
  | .andD d _ _ => some (pairRow d fun a b _ => a &&& b)
  | .orD d _ _ => some (pairRow d fun a b _ => a ||| b)
  | .xorD d _ _ => some (pairRow d fun a b _ => a ^^^ b)
  | .shlD d _ _ => some (pairRow d fun a b _ => a <<< b.lo.toNat)
  | .shrD d _ _ => some (pairRow d fun a b _ => a >>> b.lo.toNat)
  | .sarD d _ _ => some (pairRow d fun a b _ => a.sshiftRight b.lo.toNat)
  | .movD d _ => some (pairRow d fun a _ _ => a)
  | .selD d _ _ p => some ⟨d, true, none, [p.toNat], fun e v =>
    ⟨if e.preds.getD 0 false then v.a else v.b, 0, false, e.gen⟩⟩
  | .lea d _ _ sh => some (pairRow d fun a b _ => a + (b.lo.signExtend 64 <<< sh.toNat))
  | _ => none

/-- An integer condition (R256). -/
def condBits {n : Nat} (c : Nat) (a b : BitVec n) : Bool :=
  match c with
  | 0 => a == b
  | 1 => a != b
  | 2 => a.slt b
  | 3 => a.sle b
  | 4 => b.slt a
  | 5 => b.sle a
  | 6 => a.ult b
  | _ => b.ule a

/-- R256, R278: the instructions whose result is a predicate: its number, the predicates read, and the value. -/
def predRow : Instr → Option (Nat × List Nat × (List Bool → Vals → Bool))
  | .icmp p _ _ c => some (p.toNat, [], fun _ v => condBits c.toNat v.a.lo v.b.lo)
  | .icmpD p _ _ c => some (p.toNat, [], fun _ v => condBits c.toNat v.a v.b)
  | .fcmp p _ _ c => some (p.toNat, [], fun _ v => fcond c.toNat (val fp32 v.a) (val fp32 v.b))
  | .dcmp p _ _ c => some (p.toNat, [], fun _ v => fcond c.toNat (val fp64 v.a) (val fp64 v.b))
  | .pand d a b n => some (d.toNat, [a.toNat, b.toNat], fun e _ =>
    (e.getD 0 false != n.getLsbD 0) && (e.getD 1 false != n.getLsbD 1))
  | .por d a b n => some (d.toNat, [a.toNat, b.toNat], fun e _ =>
    (e.getD 0 false != n.getLsbD 0) || (e.getD 1 false != n.getLsbD 1))
  | .pxor d a b n => some (d.toNat, [a.toNat, b.toNat], fun e _ =>
    (e.getD 0 false != n.getLsbD 0) != (e.getD 1 false != n.getLsbD 1))
  | .pnot d a => some (d.toNat, [a.toNat], fun e _ => !e.getD 0 false)
  | .pmov d a => some (d.toNat, [a.toNat], fun e _ => e.getD 0 false)
  | .pset d _ => some (d.toNat, [], fun _ v => v.a.lo != 0#32)
  | _ => none

/-- A floating result: the exact value of an operation rounded once into a format in the mode that M selects, with the
flags of both (R266). -/
def fpRow (d : Code) (pair : Bool) (kind : Option Nat) (fmt : FFmt) (m : BitVec 3) (op : Nat → Vals → FV × Nat) : AluRow :=
  ⟨d, pair, kind, [], fun e v =>
    let rm := roundM e.rm m.toNat false
    let r := fmt.ofVal rm 0 false (op rm v).1
    ⟨BitVec.ofNat 64 r.bits, (op rm v).2 ||| r.flags, false, e.gen⟩⟩

/-- The FP32 and FP64 values of an operand. -/
def f32 (x : DWord) : FV := fp32.value x.lo.toNat
def f64 (x : DWord) : FV := fp64.value x.toNat

/-- The canonical FP32 NaN in place of any NaN (R273). -/
def noNan (a r : Word) : Word := if fvNan (fp32.value a.toNat) then 0x7FC00000#32 else r

/-- The bit that `FCLASS` sets (R273), from the fields of the operand. -/
def classOf (a : Word) : Nat :=
  let x := a.extractLsb' 23 8
  let m := a.extractLsb' 0 23
  if x = 0xFF#8 ∧ m ≠ 0#23 then 8
  else
    let k := if x = 0xFF#8 then 0 else if x ≠ 0#8 then 1 else if m ≠ 0#23 then 2 else 3
    if a.msb then k else 7 - k

/-- R272 and R273: the FP32 instructions of fixed latency. -/
def fltRow : Instr → Option AluRow
  | .fadd d _ _ m => some (fpRow d false none fp32 m fun rm v => fvAdd rm (f32 v.a) (f32 v.b))
  | .fsub d _ _ m => some (fpRow d false none fp32 m fun rm v => fvAdd rm (f32 v.a) (fvNeg (f32 v.b)))
  | .fmul d _ _ m => some (fpRow d false none fp32 m fun _ v => fvMul (f32 v.a) (f32 v.b))
  | .ffma d _ _ m _ => some (fpRow d false none fp32 m fun rm v => fvFma rm (f32 v.a) (f32 v.b) (f32 v.c))
  | .fscale d _ _ m => some (fpRow d false none fp32 m fun _ v => (fvScale (f32 v.a) v.b.lo.toInt, 0))
  | .frnd d _ m => some { fpRow d false none fp32 m (fun rm v => (fvRnd rm (f32 v.a), 0)) with
    f := fun e v =>
      let rm := roundM e.rm m.toNat false
      ⟨BitVec.ofNat 64 (fp32.ofVal rm 0 false (fvRnd rm (f32 v.a))).bits, 0, false, e.gen⟩ }
  | .fmin d _ _ => some (wordRow d fun _ a b _ => BitVec.ofNat 32 (fminBits fp32 a.toNat b.toNat))
  | .fmax d _ _ => some (wordRow d fun _ a b _ => BitVec.ofNat 32 (fmaxBits fp32 a.toNat b.toNat))
  | .fabs d _ => some (wordRow d fun _ a _ _ => noNan a (a &&& 0x7FFFFFFF#32))
  | .fneg d _ => some (wordRow d fun _ a _ _ => noNan a (a ^^^ 0x80000000#32))
  | .fclass d _ => some (wordRow d fun _ a _ _ => BitVec.ofNat 32 (2 ^ classOf a))
  | _ => none

/-- R275, R276: the special functions, and FP64 division and square root. -/
def specialRow : Instr → Option AluRow
  | .frcp d _ m => some (fpRow d false (some 4) fp32 m fun _ v => fvDiv (.fin false 1 0) (f32 v.a))
  | .fsqrt d _ m => some (fpRow d false (some 4) fp32 m fun _ v => fvSqrt (f32 v.a))
  | .frsq d _ => some (fpRow d false (some 4) fp32 1#3 fun _ v => fvRsqrt (f32 v.a))
  | .fexp2 d _ => some (fpRow d false (some 4) fp32 1#3 fun _ v => (fvExp2 (f32 v.a), 0))
  | .flog2 d _ => some (fpRow d false (some 4) fp32 1#3 fun _ v => fvLog2 (f32 v.a))
  | .fsin d _ => some (fpRow d false (some 4) fp32 1#3 fun _ v => fvSin (f32 v.a))
  | .fcos d _ => some (fpRow d false (some 4) fp32 1#3 fun _ v => fvCos (f32 v.a))
  | .ddiv d _ _ m => some (fpRow d true (some 4) fp64 m fun _ v => fvDiv (f64 v.a) (f64 v.b))
  | .dsqrt d _ m => some (fpRow d true (some 4) fp64 m fun _ v => fvSqrt (f64 v.a))
  | _ => none

/-- R274, R276, R277: FP64 arithmetic, conversions, and packed FP16. -/
def wideRow : Instr → Option AluRow
  | .dadd d _ _ m => some (fpRow d true none fp64 m fun rm v => fvAdd rm (f64 v.a) (f64 v.b))
  | .dsub d _ _ m => some (fpRow d true none fp64 m fun rm v => fvAdd rm (f64 v.a) (fvNeg (f64 v.b)))
  | .dmul d _ _ m => some (fpRow d true none fp64 m fun _ v => fvMul (f64 v.a) (f64 v.b))
  | .dfma d _ _ m _ => some (fpRow d true none fp64 m fun rm v => fvFma rm (f64 v.a) (f64 v.b) (f64 v.c))
  | .dcvt d _ c m => some ⟨d, [1, 4, 5, 6, 7].contains c.toNat, none, [], fun e v => dcvtAns e c.toNat m.toNat v.a⟩
  | .fcvt d _ c m => some ⟨d, false, none, [], fun e v => fcvtAns e c.toNat m.toNat v.a⟩
  | .hadd2 d _ _ m => some ⟨d, false, none, [], fun e v => packed2 e m.toNat fun rm el => fvAdd rm (el v.a) (el v.b)⟩
  | .hmul2 d _ _ m => some ⟨d, false, none, [], fun e v => packed2 e m.toNat fun _ el => fvMul (el v.a) (el v.b)⟩
  | .hfma2 d _ _ m _ => some ⟨d, false, none, [], fun e v =>
    packed2 e m.toNat fun rm el => fvFma rm (el v.a) (el v.b) (el v.c)⟩
  | _ => none

/-- Every register instruction whose result goes to D. -/
def anyRow (i : Instr) : Option AluRow :=
  ((((intRow i).or (pairIntRow i)).or (fltRow i)).or (specialRow i)).or (wideRow i)

/-- R280 to R282: what a thread forms from the sixteen entries, the active threads and its operand B. -/
def exchForm : Instr → Option (List Reg → List Nat → Nat → Vals → Form1)
  | .xchg _ _ _ m => some fun es _ t v =>
    let b := v.b.lo.toNat
    let k := match m.toNat with
      | 0 => b % 16
      | 1 => t ^^^ b % 16
      | 2 => if b ≤ t then t - b else t
      | _ => if t + b ≤ 15 then t + b else t
    ⟨(es.getD k Reg.zero).v.toNat, 0, (es.getD k Reg.zero).p⟩
  | .xbcast _ _ _ => some fun es _ _ v =>
    let e := es.getD (v.b.lo.toNat % 16) Reg.zero
    ⟨e.v.toNat, 0, e.p⟩
  | .xscan _ _ b m => some fun es act t _ =>
    if b.toNat = 1 then combineFrom m.toNat es (act.filter (· < t)) else combine m.toNat es (act.filter (· ≤ t))
  | .xred _ _ m => some fun es act _ _ => combine m.toNat es act
  | .vote _ _ m => some fun es act _ _ =>
    let yes := act.filter fun k => (es.getD k Reg.zero).v ≠ 0#32
    let p := act.any fun k => (es.getD k Reg.zero).p
    match m.toNat with
    | 0 => ⟨if yes = [] then 0 else 1, 0, p⟩
    | 1 => ⟨if yes = act then 1 else 0, 0, p⟩
    | 2 => ⟨maskOf yes, 0, p⟩
    | _ => ⟨yes.length, 0, p⟩
  | _ => none

/-- The branches and calls: a target that the instruction gives, or none where the operand A holds it, and whether it
is a call. -/
def State.branchForm (s : State) : Instr → Option (Option Nat × Bool)
  | .bra o => some (some (((s.cur.pos.hdr : Int) + 4 * o.toInt) % 2 ^ 64).toNat, false)
  | .call o => some (some (((s.cur.pos.hdr : Int) + 4 * o.toInt) % 2 ^ 64).toNat, true)
  | .brx _ => some (none, false)
  | .callx _ => some (none, true)
  | _ => none

/-! ### Forms of the memory instructions (R252, R254, R255)

The space, whether the offset word counts, the register of D, and the fields F, O and V. -/

def loadForm : Instr → Option (Spc × Bool × Code × Nat × Nat × Nat)
  | .ld d _ f o v => some (.global, false, d, f.toNat, o.toNat, v.toNat)
  | .ldOff d _ f o v => some (.global, true, d, f.toNat, o.toNat, v.toNat)
  | .lda d _ f o v => some (.A, false, d, f.toNat, o.toNat, v.toNat)
  | .ldaOff d _ f o v => some (.A, true, d, f.toNat, o.toNat, v.toNat)
  | .ldw d _ f o v => some (.W, false, d, f.toNat, o.toNat, v.toNat)
  | .ldwOff d _ f o v => some (.W, true, d, f.toNat, o.toNat, v.toNat)
  | _ => none

/-- Beside these, whether the store marks its data as a proposal. -/
def storeForm : Instr → Option (Spc × Bool × Bool × Code × Nat × Nat × Nat)
  | .st d _ f o v => some (.global, false, false, d, f.toNat, o.toNat, v.toNat)
  | .stOff d _ f o v => some (.global, true, false, d, f.toNat, o.toNat, v.toNat)
  | .stP d _ f o v => some (.global, false, true, d, f.toNat, o.toNat, v.toNat)
  | .stPOff d _ f o v => some (.global, true, true, d, f.toNat, o.toNat, v.toNat)
  | .sta d _ f o v => some (.A, false, false, d, f.toNat, o.toNat, v.toNat)
  | .staOff d _ f o v => some (.A, true, false, d, f.toNat, o.toNat, v.toNat)
  | .staP d _ f o v => some (.A, false, true, d, f.toNat, o.toNat, v.toNat)
  | .staPOff d _ f o v => some (.A, true, true, d, f.toNat, o.toNat, v.toNat)
  | .stw d _ f o v => some (.W, false, false, d, f.toNat, o.toNat, v.toNat)
  | .stwOff d _ f o v => some (.W, true, false, d, f.toNat, o.toNat, v.toNat)
  | .stwP d _ f o v => some (.W, false, true, d, f.toNat, o.toNat, v.toNat)
  | .stwPOff d _ f o v => some (.W, true, true, d, f.toNat, o.toNat, v.toNat)
  | _ => none

/-- Beside these, whether the atomic returns nothing. -/
def atomForm : Instr → Option (Spc × Bool × Bool × Code × Nat × Nat × Nat)
  | .atom d _ f o v => some (.global, false, false, d, f.toNat, o.toNat, v.toNat)
  | .atomOff d _ f o v => some (.global, true, false, d, f.toNat, o.toNat, v.toNat)
  | .atoma d _ f o v => some (.A, false, false, d, f.toNat, o.toNat, v.toNat)
  | .atomaOff d _ f o v => some (.A, true, false, d, f.toNat, o.toNat, v.toNat)
  | .red d _ f o v => some (.global, false, true, d, f.toNat, o.toNat, v.toNat)
  | .redOff d _ f o v => some (.global, true, true, d, f.toNat, o.toNat, v.toNat)
  | _ => none

/-- The scope of a load of a group: none is asked of a relaxed one (R179). -/
def Group.levels (g : Group) (s : State) (o v : Nat) : Option Nat :=
  if o = 0 then some 0 else s.scopeDom g.lid (scopeLvl o v)

/-! ### Engine commands (R328, R336, R339, R343, R347, R348) -/

/-- What a command's description asks at its issue: addresses with the numbers that divide them, the path that performs
it, what it does, its completion word where the operands name it, and the register of its result. -/
structure CmdRow where
  algn : List (Nat × Nat)
  path : Path
  kind : CmdKind
  word : Option (Spc × Nat)
  dst  : Option Code

/-- One row per command whose operands are plain values `v`. -/
def cmdRow (v : Vals) : Instr → Option CmdRow
  | .bcpy _ _ _ => some ⟨[(v.a.lo.toNat, 64), (v.c.toNat, 4)], .C, .bcpy v.a.lo.toNat v.b.lo, some (.global, v.c.toNat), none⟩
  | .coll d _ => some ⟨[(v.a.lo.toNat, 64)], .K, .coll v.a.lo.toNat, none, some d⟩
  | .subs n _ => some ⟨[(v.a.lo.toNat, 32)], .C, .subs false n.toNat v.a.lo.toNat, none, none⟩
  | .subsSync n _ => some ⟨[(v.a.lo.toNat, 32)], .C, .subs true n.toNat v.a.lo.toNat, none, none⟩
  | .subx n _ => some ⟨[(v.a.lo.toNat, 4)], .C, .subx n.toNat, some (.A, v.a.lo.toNat), none⟩
  | .subf d n => some ⟨[], .C, .subf n.toNat, none, some d⟩
  | .subfSrc d => some ⟨[], .C, .subfSrc, none, some d⟩
  | _ => none

/-- The command that a thread issues (R329). -/
def State.cmdOf (s : State) (t : Nat) (r : CmdRow) (dst : Option CmdDst) (p : Bool) : Cmd :=
  { id := s.nextId, gid := s.cur.gid, uid := s.cg.uid, tix := t, lid := s.cg.lid, ctx := s.cg.ctx, path := r.path, kind := r.kind
    stage := 0, code := 1, count := 0, writes := [], after := [], word := r.word, dst := dst, p := p
    pstop := s.cg.ctl.pstop, waits := [], sweep := s.now, got := [], seen := 0, place := s.cg.place, key := none, lands := [] }

/-- The command has joined those of its core, and the regions of the threads that it is for are closed (R100). -/
def State.joined (s : State) (tt : List Nat) (c : Cmd) : State :=
  ({ s with nextId := s.nextId + 1 }.updCore s.cg.core fun k => { k with cmds := k.cmds ++ [c] }).updGrp s.cur.gid fun g =>
    tt.foldl (fun g t => g.updThr t fun x => { x with region := { x.region with isOpen := false } }) g

end Sys2Proof.Machine
end

