-- ==== Sys2Proof/Certificates/Slice0/Obligations.lean ====
section
/-! DEFINITION. The statements for the provers. Each docstring names the rules of the spec that it formalises, and
where a clause is the model's own choice, the log entry that makes it. -/

open Sys2Proof Sys2Proof.Machine

/-! ### Register instructions -/

/-- R267, R268, R269, R271: the integer instructions on words. Every active thread takes the result of the table with
its P, a latent result is in flight under wait bit 4, and nothing else changes. The roles of B and C in BFX and BFI are
the model's reading (log entry 7). -/
def Obligations.IntegerWordResults : Prop :=
  ∀ (i : Instr) (r : AluRow) (s : State) (g : Group) (v : Nat → Vals), intRow i = some r → s.Issues i g →
    PlainSources i → s.Reads i v → s.Alu i g v r.d r.pair r.kind r.ps r.f

/-- R270, R271: the integer instructions on pairs. -/
def Obligations.IntegerPairResults : Prop :=
  ∀ (i : Instr) (r : AluRow) (s : State) (g : Group) (v : Nat → Vals), pairIntRow i = some r → s.Issues i g →
    PlainSources i → s.Reads i v → s.Alu i g v r.d r.pair r.kind r.ps r.f

/-- R272, R273, R266: the FP32 instructions of fixed latency; their flags join FLG. -/
def Obligations.Fp32Results : Prop :=
  ∀ (i : Instr) (r : AluRow) (s : State) (g : Group) (v : Nat → Vals), fltRow i = some r → s.Issues i g →
    PlainSources i → s.Reads i v → s.Alu i g v r.d r.pair r.kind r.ps r.f

/-- R275, R276: the special functions, and FP64 division and square root, which leave a result of variable latency. -/
def Obligations.SpecialFunctionResults : Prop :=
  ∀ (i : Instr) (r : AluRow) (s : State) (g : Group) (v : Nat → Vals), specialRow i = some r → s.Issues i g →
    PlainSources i → s.Reads i v → s.Alu i g v r.d r.pair r.kind r.ps r.f

/-- R274, R276, R277: FP64 arithmetic, the conversions, and packed FP16. -/
def Obligations.WideAndConvertResults : Prop :=
  ∀ (i : Instr) (r : AluRow) (s : State) (g : Group) (v : Nat → Vals), wideRow i = some r → s.Issues i g →
    PlainSources i → s.Reads i v → s.Alu i g v r.d r.pair r.kind r.ps r.f

/-- R256, R278: compares and predicate instructions write one predicate of each active thread, with its P, and nothing
else. -/
def Obligations.PredicateResults : Prop :=
  ∀ (i : Instr) (n : Nat) (ps : List Nat) (f : List Bool → Vals → Bool) (s : State) (g : Group) (v : Nat → Vals),
    predRow i = some (n, ps, f) → s.Issues i g → PlainSources i → s.Reads i v → isUniform i = false →
    s.AluPred i g v n ps f

/-- R319, R335: HPOLL and CPYT read a snapshot: the state word of a huddle of the launch, or 0; and the error and the
transfers in flight of a tag. Their results are in flight under wait bits 2 and 1. -/
def Obligations.SnapshotResults : Prop :=
  ∀ (s : State) (g : Group) (v : Nat → Vals),
    (∀ d h, s.Issues (.hpoll d h) g → s.Reads (.hpoll d h) v →
      s.Alu (.hpoll d h) g v d false (some 2) [] fun e _ =>
        let x := (s.core g.core).huddle h.toNat
        ⟨if x.owner = some g.lid then
          BitVec.ofNat 64 (x.last * 2 ^ 28 + x.rounds * 2 ^ 20 + x.gen % 4 * 2 ^ 18 + x.signed * 2 ^ 9 + x.count)
          else 0#64, 0, false, e.gen⟩)
    ∧ ∀ d t, s.Issues (.cpyt d t) g → s.Reads (.cpyt d t) v →
      s.Alu (.cpyt d t) g v d false (some 1) [] fun e _ =>
        ⟨BitVec.ofNat 64 ((g.tag t.toNat).err * 2 ^ 24
          + ((s.core g.core).xfers.filter fun x => x.gid = s.cur.gid && x.uid = g.uid && x.tag = t.toNat).length),
          0, false, e.gen⟩

/-- R141, R134, R265, R122: a register instruction in every operand form. The queues that it names are popped once; then its
threads act in ascending order, or its lowest active thread for all of them where it is uniform: each reads every source,
checks the destination, computes, traps ARITH where an enabled flag is raised, and its window store is then no access (R182), and
writes. Which value of a register with a
pending write a source reads is free (log entry 4). -/
def Obligations.EveryOperandForm : Prop :=
  ∀ (i : Instr) (r : AluRow) (s : State) (g : Group), anyRow i = some r → s.Issues i g →
    s.popCheck s.cur.gid (s.popNeeds i) = .ready →
    ∃ T : State → Nat × List Nat → State,
      exec i s = .next (((s.popAll s.cur.gid (s.popNeeds i)).turns i).foldl T
        (s.popAll s.cur.gid (s.popNeeds i))).finish
      ∧ ∀ (s1 s2 s3 : State) (t : Nat) (tt : List Nat) (v : Vals) (d : Dst),
        (∀ e, s1.readOps s1.cur.gid t (operands i) Vals.zero = (s2, .error e) → T s1 (t, tt) = s2.failRd tt e)
        ∧ (s1.readOps s1.cur.gid t (operands i) Vals.zero = (s2, .ok v) →
          (∀ e, s2.dstReady s2.cur.gid t i = (s3, .error e) → T s1 (t, tt) = s3.failRd tt e)
          ∧ (s2.dstReady s2.cur.gid t i = (s3, .ok d) →
            let h := s3.grp s3.cur.gid
            let a := h.opOf r.ps r.f v t
            let p := h.opP r.ps r.f v t tt
            (a.fl &&& h.ctl.ten ≠ 0 → T s1 (t, tt) = ((s3.raiseFlags a.fl).unnote s3.cur.gid t d).trapAll tt 0x0F 0)
            ∧ (a.fl &&& h.ctl.ten = 0 → T s1 (t, tt) =
              ((s3.raiseFlags a.fl).updThr s3.cur.gid t fun x => x.drew a.gen).writeDst s3.cur.gid t d a.v p r.kind)))

/-- R251, R252, R134, R138, R121: what a source code reads, in every code: x and g registers, alone or as a pair, the windows w0 to
w7, z, lit, tix, lix, and an element popped from a queue. A register gives one of the values that stand for it: zero where it is
dead, unless TRAPD makes that a trap, and the old or the new value where a write of it is pending; each half of a pair by itself.
The word of a window is 4·BASE + 4·x79 while x79 lies below LEN and the word in the 8 MiB of the space; otherwise the access traps
WINDOW there. Which value of a register with a pending write a source reads is free (log entry 4). -/
def Obligations.SourceCodes : Prop :=
  (∀ (s : State) (gid t : Nat) (o : Operand),
    let c := o.code.toNat
    let g := s.grp gid
    (c < 112 → o.form.isPair = false → g.isDead t c = false ∨ g.ctl.trapd = false →
      ∃ r, g.mayRead t c r ∧ s.readOp gid t o = (s, .ok (r.v.setWidth 64) r.p))
    ∧ (c < 111 → o.form.isPair = true → (g.isDead t c = false ∧ g.isDead t (c + 1) = false) ∨ g.ctl.trapd = false →
      ∃ lo hi, g.mayRead t c lo ∧ g.mayRead t (c + 1) hi ∧ s.readOp gid t o = (s, .ok (Word.pair lo.v hi.v) (lo.p || hi.p)))
    ∧ (c < 112 → g.ctl.trapd = true → g.isDead t c = true ∨ (o.form.isPair = true ∧ g.isDead t (c + 1) = true) →
      s.readOp gid t o = (s, .trap 0x02 0))
    ∧ (112 ≤ c → c < 120 → ∀ code a, s.winAddr gid t (c - 112) = .error (code, a) → s.readOp gid t o = (s, .trap code a))
    ∧ (112 ≤ c → c < 120 → ∀ a p u key attr, s.winAddr gid t (c - 112) = .ok (a, p) →
      s.reach (s.who gid t) (Acc.read .A a 4) = (u, .ok key attr) →
      s.readOp gid t o = (u, .ok (BitVec.ofNat 64 (u.mem.num key 4)) (p || u.mem.anyP key 4)))
    ∧ (c = 120 → s.readOp gid t o = (s, .ok 0#64 false))
    ∧ (c = 121 → s.readOp gid t o = (s, .ok (litVal o.form (s.cur.lit o.fld.num)) false))
    ∧ (c = 122 → s.readOp gid t o = (s, .ok (BitVec.ofNat 64 t) false))
    ∧ (c = 123 → s.readOp gid t o = (s, .ok (BitVec.ofNat 64 g.lix) false))
    ∧ ∀ r, 124 ≤ c → kfind (g.thr t).popped (c - 124) = some r → s.readOp gid t o = (s, .ok (r.v.setWidth 64) r.p))
  ∧ ∀ (s : State) (gid t n : Nat), n < 8 → let g := s.grp gid
    (g.isDead t 79 = true → g.ctl.trapd = true → s.winAddr gid t n = .error (0x02, 0))
    ∧ (g.isDead t 79 = false ∨ g.ctl.trapd = false → ∃ r, g.mayRead t 79 r ∧
      let i := r.v.toNat
      let a := 4 * g.ctl.base n + 4 * i
      (i < g.ctl.len n → a + 4 ≤ 2 ^ 23 → s.winAddr gid t n = .ok (a, r.p || g.ctl.winP n))
      ∧ (g.ctl.len n ≤ i ∨ 2 ^ 23 < a + 4 → s.winAddr gid t n = .error (0x11, a)))

/-- R124, R279 to R282: the exchange instructions. The active threads deposit A, and a uniform instruction deposits its one operand in
every entry; each result is formed from the entries and is in flight under wait bit 4. Where a thread has to wait, none of them
begins. The entry of an inactive thread whose operand is no register is free (log entry 8). -/
def Obligations.ExchangeResults : Prop :=
  ∀ (i : Instr) (f : List Reg → List Nat → Nat → Vals → Form1) (o : Operand) (s : State) (g : Group),
    exchForm i = some f → s.Issues i g → popNames i = [] → (operands i).find? (fun o => o.fld = .A) = some o →
    ∃ T : List Reg → State → Nat × List Nat → State,
      exec i s = .next (
        let u := (s.deposit i o s.exActive).1
        let u2 := if u.sweep.stays.isEmpty then (s.turns i).foldl (T (s.deposit i o s.exActive).2) u else u
        (if u2.sweep.stays.isEmpty then u2 else s.exWaits u2).finish)
      ∧ (∀ (es : List Reg) (s1 s2 s3 : State) (t : Nat) (tt : List Nat) (v : Vals) (d : Dst), tt ≠ [] →
        (∀ u ∈ tt, s1.trapped u = false ∧ s1.violated u = false ∧ s1.sweep.stays.contains u = false) →
        s1.readOps s1.cur.gid t ((operands i).filter fun o => o.fld = .B) Vals.zero = (s2, .ok v) →
        s2.dstReady s2.cur.gid t i = (s3, .ok d) →
        let r := f es s.exActive t v
        (r.fl &&& (s3.grp s3.cur.gid).ctl.ten ≠ 0 → T es s1 (t, tt) =
          ((s3.raiseFlags r.fl).unnote s3.cur.gid t d).trapAll tt 0x0F 0)
        ∧ (r.fl &&& (s3.grp s3.cur.gid).ctl.ten = 0 → T es s1 (t, tt) =
          (s3.raiseFlags r.fl).writeDst s3.cur.gid t d (BitVec.ofNat 64 r.v) (r.p || v.p || s3.ambient tt) (some 4)))
      ∧ ∀ t ts u v p, isUniform i = true → s.exActive = t :: ts → s.readOp s.cur.gid t o = (u, .ok v p) →
        s.deposit i o s.exActive = (u, List.replicate 16 ⟨v.lo, p⟩)

/-! ### Sweeps and traps -/

/-- R114, R242, R207, R181: the end of a sweep in which no thread trapped, was held or stays. The threads of the path
move to the next instruction of the clause or to the next clause, but those that the instruction itself moved; the
flags join FLG, the accesses become intervals, and nothing else changes. -/
def Obligations.SweepEnds : Prop :=
  ∀ (s : State) (g : Group), kfind s.groups s.cur.gid = some g → g.threads.length = 16 → s.sweep.traps = [] →
    s.sweep.viols = [] → s.sweep.holds = [] → s.sweep.loads = [] → s.sweep.stays = [] → s.cur.path.Nodup →
    (∀ t ∈ s.cur.path, t < 16) → (∃ t, t < 16 ∧ (g.thr t).life = .live) → g.toFreeze = none →
    ∃ h, kfind s.finish.groups s.cur.gid = some h ∧ g.Kept h ∧ g.ctl.Kept h.ctl s.sweep.flags ∧ h.pend = g.pend
      ∧ h.g = g.g ∧ SameOutside { s with ivs := s.sweep.ivs ++ s.ivs } s.finish
      ∧ ∀ t, (t ∉ s.cur.path → h.thr t = g.thr t)
        ∧ (t ∈ s.cur.path → s.sweep.moved.contains t = true →
          h.thr t = { g.thr t with popped := [], replay := false, stays := false, done := false, last := s.now })
        ∧ (t ∈ s.cur.path → s.sweep.moved.contains t = false →
          h.thr t = { (g.thr t).advance s.cur with
            popped := [], replay := false, stays := false, done := false, last := s.now })
          ∧ ((g.thr t).loop = none → (g.thr t).advance s.cur = { g.thr t with
            pos := if s.cur.pos.k < s.cur.n then ⟨s.cur.pos.hdr, s.cur.pos.k + 1⟩ else ⟨s.cur.nextHdr, 0⟩ })

/-- R286, R287: the passes of a loop, by which a thread moves on where `SweepEnds` says that it advances. A thread in a loop goes on
in its clause, and at the end of a clause begins the next pass past the last clause of the
body, or leaves the loop after the last. In pass k each field among D, A, B and C that is an operand and holds an x or a g code
reads as that code plus k times the field's step, every other code and every field that is no operand as it stands, and TILE plus
k times its step; the other bits of the words stand. A code or a tile that leaves its file leaves no instruction to perform. A
memory address takes k times IOFF besides its offset, which is 0 in a base form. -/
def Obligations.LoopPasses : Prop :=
  (∀ (x : Thread) (c : Cur) (l : LoopSt), x.loop = some l →
    (c.pos.k < c.n → x.advance c = { x with pos := ⟨c.pos.hdr, c.pos.k + 1⟩ })
    ∧ (c.n ≤ c.pos.k → c.nextHdr ≠ l.stop → x.advance c = { x with pos := ⟨c.nextHdr, 0⟩ })
    ∧ (c.n ≤ c.pos.k → c.nextHdr = l.stop → l.pass + 1 < l.count →
      x.advance c = { x with pos := ⟨l.body, 0⟩, loop := some { l with pass := l.pass + 1 } })
    ∧ (c.n ≤ c.pos.k → c.nextHdr = l.stop → l.count ≤ l.pass + 1 →
      x.advance c = { x with pos := ⟨c.nextHdr, 0⟩, loop := none }))
  ∧ (∀ (l : LoopSt) (w u : Word) (i : Instr), decode w u = .ok i →
    let fs := (operands i).map Operand.fld
    let code := fun (f : Fld) => (rawField w u f.num : Int)
    let next := fun (f : Fld) => code f + l.pass * l.steps.getD f.num 0
    let tile : Word → Nat := fun v => v.toNat / 2 ^ 19 % 4
    let nextTile := (tile u : Int) + l.pass * l.steps.getD 4 0
    (stepWords l w u = none ↔
      (∃ f ∈ fs, (code f < 80 ∧ ¬ (0 ≤ next f ∧ next f < 80))
        ∨ (80 ≤ code f ∧ code f < 112 ∧ ¬ (80 ≤ next f ∧ next f < 112)))
      ∨ (hasTile i = true ∧ ¬ (0 ≤ nextTile ∧ nextTile < 4)))
    ∧ ∀ w2 u2, stepWords l w u = some (w2, u2) →
      (∀ f : Fld, (rawField w2 u2 f.num : Int) = if f ∈ fs ∧ code f < 112 then next f else code f)
      ∧ (tile u2 : Int) = (if hasTile i then nextTile else (tile u : Int))
      ∧ w2.toNat % 8 = w.toNat % 8 ∧ w2.toNat / 2 ^ 24 = w.toNat / 2 ^ 24
      ∧ u2.toNat % 2 ^ 19 = u.toNat % 2 ^ 19 ∧ u2.toNat / 2 ^ 21 % 16 = u.toNat / 2 ^ 21 % 16)
  ∧ ∀ (s : State) (spc : Spc) (off : Bool) (a : DWord),
    let o : Int := if off then signOf 32 (s.cur.lit 4) else 0
    (s.memAddr spc off a : Int) = (a.toNat + o + s.cur.ioff) % (if spc = .global then 2 ^ 64 else 2 ^ 32)

/-- R144, R295: the end of a sweep in which threads trapped, in a group with a handler that is not in it. The lowest code is taken:
EPC, TADDR, TCAUSE and TMASK.TRAP are written, the threads of that code stand at TRAPVEC, or 64 bytes past it for SYSC's own trap,
with their loops and guards saved, and the clause that held the instruction is noted. The threads of other codes stay at the
instruction, and those of the path that did not trap, its guarded ones too, move on as `LoopPasses` says or as the instruction moved
them; no other thread and nothing else of the group or outside it changes. Which of two addresses TADDR reports is the model's reading
(log entry 15), and so is that a trap whose cause is used up is owed at the thread's next issue (log entry 79). -/
def Obligations.TrapsAreTaken : Prop :=
  ∀ (s : State) (g : Group) (code : Nat), kfind s.groups s.cur.gid = some g → g.kind ≠ .pitcher →
    g.threads.length = 16 → s.cur.path.Nodup → (∀ t ∈ s.cur.path, t < 16) →
    (∀ e ∈ s.sweep.traps, e.1 ∈ s.cur.path ∧ (g.thr e.1).life = .live ∧ code ≤ e.2.1) →
    (s.sweep.traps.map Prod.fst).Nodup → (∃ e ∈ s.sweep.traps, e.2.1 = code) → s.sweep.viols = [] → s.sweep.holds = [] →
    s.sweep.loads = [] → s.sweep.stays = [] → g.ctl.trapvec.n ≠ 0 → g.ctl.inh = false → g.toFreeze = none →
    let took := fun (t : Nat) => s.sweep.traps.any fun e => e.1 = t && e.2.1 = code
    ∃ h, kfind s.finish.groups s.cur.gid = some h ∧ { g with trapHdr := some s.cur.pos.hdr }.Kept h ∧ h.pend = g.pend
      ∧ h.g = g.g
      ∧ SameOutside { s with ivs := s.sweep.ivs ++ s.ivs } s.finish
      ∧ h.ctl.epc = CReg.of s.cur.iaddr ∧ h.ctl.tcause = CReg.of (2 ^ 31 + code)
      ∧ (∀ t a, (t, code, a) ∈ s.sweep.traps → (∀ u, took u = true → t ≤ u) → h.ctl.taddr = CReg.of a)
      ∧ h.ctl.tmask.n % 2 ^ 16 = maskOf ((List.range 16).filter took)
      ∧ h.ctl = { (g.ctl.raise s.sweep.flags) with
          epc := h.ctl.epc, taddr := h.ctl.taddr, tcause := h.ctl.tcause, tmask := h.ctl.tmask }
      ∧ ∀ t, let x := g.thr t
        (took t = true → h.thr t = { x with
          pos := ⟨(g.ctl.trapvec.n + if s.sweep.sysc ∧ code = 0x0E then 64 else 0) % 2 ^ 64, 0⟩
          saved := x.loop, loop := none, savedGp := x.gp, savedGbp := x.gbp
          savedGact := x.gact, popped := [], replay := false, stays := false, last := s.now })
        ∧ (∀ c a, (t, c, a) ∈ s.sweep.traps → c ≠ code → h.thr t = { x with
          popped := [], replay := false, stays := false, last := s.now
          owed := if s.sweep.firm.contains t then some (c, a) else x.owed })
        ∧ (t ∈ s.cur.path → s.trapped t = false → h.thr t = { (if s.sweep.moved.contains t then x else x.advance s.cur) with
          popped := [], replay := false, stays := false, done := false, last := s.now })
        ∧ (t ∉ s.cur.path → h.thr t = x)

/-- R144: with no handler, or inside it, the trapping threads end as at TAIL, and their launch completes FAULT and
counts them. -/
def Obligations.TrapsWithoutHandler : Prop :=
  ∀ (s : State) (gid : Nat) (g : Group) (tids : List Nat) (code addr epc hdr : Nat) (sysc : Bool),
    kfind s.groups gid = some g → g.threads.length = 16 → (∀ t ∈ tids, t < 16) →
    (g.ctl.trapvec.n = 0 ∨ g.ctl.inh = true) →
    let u := s.takeTrap gid tids code addr epc hdr sysc
    (∀ t ∈ tids, (u.thr gid t).life = .ended ∧ (u.thr gid t).watch = none ∧ (u.thr gid t).ret = [])
    ∧ (∀ t, t ∉ tids → u.thr gid t = g.thr t)
    ∧ (∀ l, s.launch? g.lid = some l →
      u.launch? g.lid = some { l with fault := true, trapped := l.trapped + tids.length })
    ∧ u.mem = s.mem

/-- R295, R259: TRAP and SYSC, opcode 0xFF, and every word that decodes to no instruction, trap for every active thread:
code 0x0E, and 0x01 for the others. What the trap does is `TrapsAreTaken`. -/
def Obligations.TrapInstructions : Prop :=
  ∀ (s : State) (g : Group),
    (∀ n, s.Issues (.trap n) g → exec (.trap n) s = .next (s.trapAll s.cur.mask 0x0E 0).finish)
    ∧ (∀ n, s.Issues (.sysc n) g → exec (.sysc n) s =
      .next { s.trapAll s.cur.mask 0x0E 0 with
        sweep := { (s.trapAll s.cur.mask 0x0E 0).sweep with sysc := true } }.finish)
    ∧ (∀ x, exec (.illegal x) s = .next (s.trapAll s.cur.mask 0x01 0).finish)
    ∧ (∀ w, exec (.unassignedOpcode w) s = .next (s.trapAll s.cur.mask 0x01 0).finish)

/-- R259, R131: every instruction with an operand or a number that its description does not accept, or that the group's
role may not use, traps ILLEGAL for every active thread and performs nothing else. -/
def Obligations.ChecksBeforeExecution : Prop :=
  ∀ (s : State) (i : Instr) (g : Group), encode i ≠ [] → kfind s.groups s.cur.gid = some g →
    roleOk g.role i = false ∨ legal g.regs i = false → exec i s = .next (s.trapAll s.cur.mask 0x01 0).finish

/-- R144, R296, R287: ERET clears INH; the trapped threads that still live resume at EPC: in mid-clause where it lies in the
clause that held the trapping instruction, and else at EPC as a header; with the guard that they had, and with the loop that
the trap saved where they resume in its body; with INH = 0 it traps ILLEGAL. That a thread resumed in mid-clause is active
as its clause's entry made it is the model's reading (log entry 15); what the handler parked or held them at is over. -/
def Obligations.ReturnFromTrap : Prop :=
  ∀ (s : State) (g : Group), s.Issues .eret g →
    (g.ctl.inh = false → exec .eret s = .next (s.trapAll s.cur.mask 0x01 0).finish)
    ∧ (g.ctl.inh = true → exec .eret s =
      .next (((s.updGrp s.cur.gid Group.eret).movedAll s.cur.path).endTurn).finish)
    ∧ g.eret.ctl = { g.ctl with
        tcause := CReg.of (g.ctl.tcause.n % 2 ^ 31) }
    ∧ ∀ t, t < 16 → g.ctl.tmask.n / 2 ^ t % 2 = 1 → (g.thr t).life = .live →
      let x := g.thr t
      let y := g.eret.thr t
      let a := g.ctl.epc.n / 4 * 4
      y = { x with
        pos := y.pos, loop := y.loop, saved := none, gact := x.savedGact, gp := x.savedGp, gbp := x.savedGbp
        held := false, replay := false, ldNo := none, stays := false, popped := [], owed := none }
      ∧ (g.trapHdr = none → y.pos = ⟨a, 0⟩)
      ∧ (∀ h, g.trapHdr = some h → kfind g.clauses h = none → y.pos = ⟨a, 0⟩)
      ∧ (∀ h ws, g.trapHdr = some h → kfind g.clauses h = some ws →
        (∀ k, findInstr ws h a = some k → y.pos = ⟨h, k⟩) ∧ (findInstr ws h a = none → y.pos = ⟨a, 0⟩))
      ∧ (∀ l, x.saved = some l → y.loop = if l.body ≤ y.pos.hdr ∧ y.pos.hdr < l.stop then some l else none)
      ∧ (x.saved = none → y.loop = none)
      ∧ ∀ r ∈ g.eret.parks, t ∉ r.mask

/-! ### Control flow -/

/-- R244, R247, R225, R224: a clause header whose words are fetched. The taint entries of this PC and depth pop first. A malformed
header traps ILLEGAL, and wait bits that are not served park the group. Else the guard is read for each thread: a clause that some
thread is active for is entered at its first instruction by all of the path, each with its outcome; one that no thread is active
for is skipped, but that a branch that depends on a proposal is entered at the branch. The clause is held for the group. When
guards are read and how long words are held are the model's choices (log entries 10 and 13). -/
def Obligations.ClauseHeaders : Prop :=
  ∀ (s s1 : State) (g g0 : Group) (ws : List Word), kfind s.groups s.cur.gid = some g → g.kind ≠ .pitcher →
    g.argsDue = false → g.toFreeze = none → g.threads.length = 16 → s.cur.path ≠ [] → s.cur.path.Nodup →
    (∀ t ∈ s.cur.path, t < 16 ∧ (g.thr t).life = .live) → s.sweep = Sweep.reset →
    let a := s.cur.pos.hdr
    g0 = { g with threads := g0.threads } → g0.threads.length = 16 → (∀ t, t ∉ s.cur.path → g0.thr t = g.thr t) →
    (∀ t ∈ s.cur.path, g0.thr t = { g.thr t with
      taint := (g.thr t).taint.dropWhile fun e => e.pc = a && e.depth = (g.thr t).depth }) →
    let s0 := s.setGrp s.cur.gid g0
    s0.fetchClause (s0.who s.cur.gid (s.cur.path.headD 0)) a false = (s1, .ok ws) → s1.cg = g0 → s1.cur = s.cur →
    s1.sweep = Sweep.reset →
    let h := ws.headD 0#32
    let c := { s1 with cur := { s.cur with mask := s.cur.path, iaddr := a, sw := 0 } }
    let act := fun t => hdrGen h = false ∨ ((g0.readPred t (hdrPred h)).v != hdrNeg h) = true
    let pred := fun t => hdrGen h = true ∧ (g0.readPred t (hdrPred h)).p = true
    (hdrBad h = true → exec .clauseHeader s = .next (c.trapAll s.cur.path 0x01 0).finish)
    ∧ (hdrBad h = false → c.waitsDone s.cur.gid (hdrWait h) = false → exec .clauseHeader s =
      .next ((c.updGrp s.cur.gid fun g => { g with gpark := some (.header (hdrWait h)) }).stayAll s.cur.path).finish)
    ∧ (hdrBad h = false → c.waitsDone s.cur.gid (hdrWait h) = true → (∀ d ∈ g.deferred, d.dueAt (hdrWait h) = false) →
      ∃ u x, exec .clauseHeader s = .next u ∧ kfind u.groups s.cur.gid = some x ∧ u.mem = s1.mem
        ∧ (∀ t ∈ s.cur.path, (x.thr t).x = (g.thr t).x ∧ (x.thr t).pr = (g.thr t).pr ∧ (x.thr t).taint = (g0.thr t).taint)
        ∧ ((∃ t ∈ s.cur.path, act t) → kfind x.clauses a = some ws ∧ ∀ t ∈ s.cur.path, (x.thr t).pos = ⟨a, 1⟩)
        ∧ ((∀ t ∈ s.cur.path, ¬ act t) → endsInBranch ws = true → (∃ t ∈ s.cur.path, pred t) →
          kfind x.clauses a = some ws ∧ ∀ t ∈ s.cur.path, (x.thr t).pos = ⟨a, hdrN h⟩)
        ∧ ((∀ t ∈ s.cur.path, ¬ act t) → (endsInBranch ws = false ∨ ∀ t ∈ s.cur.path, ¬ pred t) →
          ∀ t ∈ s.cur.path, (g.thr t).loop = none → (x.thr t).pos = ⟨clauseEnd a ws, 0⟩)
        ∧ ∀ t ∈ s.cur.path, ((x.thr t).gact = true ↔ act t)
          ∧ (((∃ u ∈ s.cur.path, act u) ∨ (endsInBranch ws = true ∧ ∃ u ∈ s.cur.path, pred u)) →
            ((x.thr t).gp = true ↔ endsInBranch ws = false ∧ pred t)
            ∧ ((x.thr t).gbp = true ↔ endsInBranch ws = true ∧ pred t)))

/-- R225, R283, R284, R224, R75: branches and calls. Each thread that the clause reaches acts in turn. An active thread goes
to the target, BRA and CALL by a signed count of words from the clause header and BRX and CALLX by the address in A; a
call saves the address of the next clause with the path taint; a target that is no multiple of 4 traps ILLEGAL and a full
return stack STACK; with 8 hardware entries the oldest first goes to the thread's spill area. A thread that the guard leaves inactive goes on. Where the condition or the target is a proposal, an active or
an inactive thread traps PBRANCH where PCTL.PBRT says so; else the reconvergence PC, a signed count of words from the clause
header, and the depth push on its taint stack. The loop ends. -/
def Obligations.BranchesAndCalls : Prop :=
  ∀ (s : State) (i : Instr) (g : Group) (target : Option Nat) (call : Bool), s.Issues i g →
    s.branchForm i = some (target, call) →
    ∃ T : State → Nat → State,
      exec i s = .next ((s.cur.path.foldl T s).splitEnds).finish
      ∧ ∀ (s1 s2 : State) (t : Nat), s1.cur = s.cur →
        let x := s1.thr s1.cur.gid t
        let rcv := (((s.cur.pos.hdr : Int) + 4 * signOf 32 (s.cur.lit 5)) % 2 ^ 64).toNat
        (t ∉ s.cur.mask → x.gbp = true → s1.cg.ctl.pbrt = true → T s1 t = s1.trap t 0x04 0)
        ∧ (t ∉ s.cur.mask → (x.gbp = true → s1.cg.ctl.pbrt = false) → s1.trapped t = false → s1.violated t = false →
          s1.sweep.stays.contains t = false → s1.sweep.holds.contains t = false →
          T s1 t = (s1.updThr s1.cur.gid t fun y => Thread.advance
            { y with taint := if y.gbp then pushTaint ⟨rcv, y.depth⟩ y.taint else y.taint } s1.cur).movedAll [t])
        ∧ ∀ a dep, t ∈ s.cur.mask →
          ((target = some a ∧ s2 = s1 ∧ dep = x.gbp)
            ∨ ∃ v, target = none ∧ s1.readOps s1.cur.gid t (operands i) Vals.zero = (s2, .ok v) ∧ v.a.toNat = a
              ∧ dep = ((s2.thr s2.cur.gid t).gbp || v.p)) →
          let y := s2.thr s2.cur.gid t
          let tnt := if dep then pushTaint ⟨rcv, y.depth⟩ y.taint else y.taint
          (dep = true → s2.cg.ctl.pbrt = true → T s1 t = s2.trap t 0x04 0)
          ∧ ((dep = true → s2.cg.ctl.pbrt = false) →
            (a % 4 ≠ 0 → T s1 t = s2.trap t 0x01 0)
            ∧ (a % 4 = 0 → call = true → 8 + (s2.spillAt s2.cur.gid t).2 ≤ y.depth → T s1 t = s2.trap t 0x12 0)
            ∧ (a % 4 = 0 → s2.trapped t = false → s2.violated t = false → s2.sweep.stays.contains t = false →
              s2.sweep.holds.contains t = false →
              (call = false →
                T s1 t = (s2.updThr s2.cur.gid t fun y => { y with taint := tnt, pos := ⟨a, 0⟩, loop := none }).movedAll [t])
              ∧ (call = true → y.ret.length < 8 → y.depth < 8 + (s2.spillAt s2.cur.gid t).2 →
                T s1 t = (s2.updThr s2.cur.gid t fun y => { y with
                  taint := tnt, pos := ⟨a, 0⟩, loop := none, ret := ⟨s2.cur.nextHdr, !tnt.isEmpty⟩ :: y.ret }).movedAll [t])
              ∧ (∀ e s3 r, call = true → 8 ≤ y.ret.length → y.ret.getLast? = some e →
                y.depth < 8 + (s2.spillAt s2.cur.gid t).2 →
                let w := s2.who s2.cur.gid t
                let at_ := (s2.spillAt s2.cur.gid t).1 + 8 * y.spilled
                s2.reach w (Acc.write .A at_ 8 false) = (s3, r) →
                ((∀ key attr, r ≠ .ok key attr) → T s1 t = s3.failRes [t] r at_)
                ∧ ∀ key attr, r = .ok key attr →
                  let s4 := (s3.put (s3.who s2.cur.gid t) (Acc.write .A at_ 8 false) key (leBytes 8 e.pc) e.p false false).updThr
                    s2.cur.gid t fun y => { y with ret := y.ret.dropLast, spilled := y.spilled + 1 }
                  s4.trapped t = false → s4.violated t = false → s4.sweep.stays.contains t = false →
                  s4.sweep.holds.contains t = false → T s1 t = (s4.updThr s2.cur.gid t fun y =>
                    let tn := if dep then pushTaint ⟨rcv, y.depth⟩ y.taint else y.taint
                    { y with taint := tn, pos := ⟨a, 0⟩, loop := none
                             ret := ⟨s4.cur.nextHdr, !tn.isEmpty⟩ :: y.ret }).movedAll [t])))

/-- R284, R224, R225, R75: RET. Each active thread of the path pops its newest return address, goes there, and drops the taint
entries that are deeper than its new depth, also where the link or the guard is a proposal, which pushes no entry; where the
hardware entries are empty the newest spilled one is loaded first. An empty return stack traps STACK, and a proposal PBRANCH where
PCTL.PBRT says so;
an inactive thread, whose guard does not let it return, goes on, unless its guard is a proposal and PBRT is set. -/
def Obligations.Returns : Prop :=
  ∀ (s : State) (g : Group), s.Issues .ret g →
    ∃ T : State → Nat → State, exec .ret s = .next ((s.cur.path.foldl T s).splitEnds).finish
      ∧ ∀ (s1 : State) (t : Nat), s1.cur = s.cur → s1.trapped t = false → s1.violated t = false →
        s1.sweep.stays.contains t = false → s1.sweep.holds.contains t = false →
        let x := s1.thr s1.cur.gid t
        (t ∉ s.cur.mask → T s1 t = if x.gbp ∧ s1.cg.ctl.pbrt then s1.trap t 0x04 0 else s1)
        ∧ (t ∈ s.cur.mask → x.ret = [] → x.spilled = 0 → T s1 t = s1.trap t 0x12 0)
        ∧ (t ∈ s.cur.mask →
          let pops := fun (u : State) (e : RetEnt) (es : List RetEnt) =>
            ((e.p || (u.thr u.cur.gid t).gbp) = true → u.cg.ctl.pbrt = true → T s1 t = u.trap t 0x04 0)
            ∧ ((e.p || (u.thr u.cur.gid t).gbp) = false ∨ u.cg.ctl.pbrt = false →
              T s1 t = (u.updThr u.cur.gid t fun y => { y with
                ret := es, pos := ⟨e.pc, 0⟩, loop := none
                taint := y.taint.dropWhile fun a => es.length + y.spilled < a.depth }).movedAll [t])
          (∀ e es, x.ret = e :: es → pops s1 e es)
          ∧ ∀ s2 r, x.ret = [] → 0 < x.spilled →
            let at_ := (s1.spillAt s1.cur.gid t).1 + 8 * (x.spilled - 1)
            s1.reach (s1.who s1.cur.gid t) (Acc.read .A at_ 8) = (s2, r) →
            ((∀ key attr, r ≠ .ok key attr) → T s1 t = s2.failRes [t] r at_)
            ∧ ∀ key attr, r = .ok key attr →
              let e : RetEnt := ⟨s2.mem.num key 8, s2.mem.anyP key 8⟩
              let u := s2.updThr s1.cur.gid t fun y => { y with ret := [e], spilled := y.spilled - 1 }
              s2.hasGrp s1.cur.gid = true → t < (s2.grp s1.cur.gid).threads.length → u.trapped t = false → u.violated t = false →
              u.sweep.stays.contains t = false → u.sweep.holds.contains t = false → pops u e [])

/-- R286, R287: LOOP with a body that ends with a clause: each active thread goes to the first clause of the body with its
count in D, or past the body where the count is 0; a body that the rule refuses traps ILLEGAL. A body with a malformed
header is the model's reading (log entry 49). -/
def Obligations.Loops : Prop :=
  ∀ (s : State) (g : Group) (cnt : Code) (len : BitVec 5) (id ia ib ic : BitVec 4) (it : BitVec 2) (io : BitVec 14),
    let i : Instr := .loop cnt len id ia ib ic it io
    s.Issues i g → popNames i = [] →
    (∀ s1, s.bodyEnd (s.who s.cur.gid (s.cur.mask.headD 0)) s.cur.nextHdr (len.toNat + 1) 33 = (s1, .ok none) →
      exec i s = .next (s1.trapAll s1.cur.mask 0x01 0).finish)
    ∧ ∀ s1 stop, s.bodyEnd (s.who s.cur.gid (s.cur.mask.headD 0)) s.cur.nextHdr (len.toNat + 1) 33 =
        (s1, .ok (some stop)) →
      ∃ T : State → Nat → State, exec i s = .next ((s1.cur.mask.foldl T s1).splitEnds).finish
        ∧ ∀ s2 s3 t v, s2.readOps s2.cur.gid t (operands i) Vals.zero = (s3, .ok v) →
          (v.d.lo = 0#32 → T s2 t = (s3.updThr s3.cur.gid t fun x => { x with pos := ⟨stop, 0⟩ }).movedAll [t])
          ∧ (v.d.lo ≠ 0#32 → T s2 t = (s3.updThr s3.cur.gid t fun x => { x with
              pos := ⟨s3.cur.nextHdr, 0⟩
              loop := some ⟨s3.cur.nextHdr, stop, v.d.lo.toNat, 0,
                [id.toInt, ia.toInt, ib.toInt, ic.toInt, it.toInt, io.toInt]⟩ }).movedAll [t])

/-- R290, R107, R170, R326: TAIL ends each active thread: its pending register writes are dropped and its pending window
stores stay, its return stack, loop, taint and watch are gone, and a monitor entry that no watch uses is freed; the other
threads and memory stand. A thread with a refused side-logged write counts as trapped. -/
def Obligations.Tails : Prop :=
  ∀ (s : State) (g : Group), s.Issues .tail g →
    let h := s.cur.mask.foldl Group.endThread g
    let u := s.endThreads s.cur.gid s.cur.mask
    let bad := s.cur.mask.filter fun t => (s.core g.core).sideRef.any fun e => e.1 = s.agent s.cur.gid t
    exec .tail s = .next ((u.movedAll s.cur.mask).finish)
    ∧ kfind u.groups s.cur.gid = some h ∧ u.mem = s.mem
    ∧ (∀ k, k ≠ s.cur.gid → kfind u.groups k = kfind s.groups k)
    ∧ (bad = [] → u.launches = s.launches)
    ∧ (bad ≠ [] → ∀ l, s.launch? g.lid = some l →
      u.launch? g.lid = some { l with fault := true, trapped := l.trapped + bad.length })
    ∧ (∀ m ∈ (u.core g.core).mons, ∃ e ∈ u.groups, e.2.core = g.core ∧ e.2.ctx = m.ctx ∧ ∃ t ∈ e.2.threads, ∃ w,
      t.watch = some w ∧ w.mon = true ∧ w.key / 64 = m.line)
    ∧ (∀ t ∈ s.cur.mask, (h.thr t).life = .ended ∧ (h.thr t).ret = [] ∧ (h.thr t).loop = none ∧ (h.thr t).taint = []
      ∧ (h.thr t).watch = none)
    ∧ (∀ t, t ∉ s.cur.mask → h.thr t = g.thr t)
    ∧ h.pend = g.pend.filter (fun p => !s.cur.mask.contains p.tix || p.win.isSome) ∧ h.ctl = g.ctl ∧ h.g = g.g

/-- R285, R291, R130, R315, R292, R293, R138: NOP and PRF only move on; JOIN ends the turn where another path may
arrive; YIELD ends it and ranks its group behind the others of its lane; RGN, whose A may be any source code, sets a thread's restart PC
and word and opens its region; DEAD marks registers of every active thread as dead. -/
def Obligations.HintsAndRegions : Prop :=
  (∀ (s : State) (g : Group),
    (s.Issues .nop g → exec .nop s = .next s.finish)
    ∧ (∀ a, s.Issues (.prf a) g → exec (.prf a) s = .next s.finish)
    ∧ (s.Issues .join g → exec .join s = .next (if g.otherPath s.cur.path then s.endTurn else s).finish)
    ∧ (s.Issues .yield g → exec .yield s = .next ((s.endTurn).finish.updGrp s.cur.gid fun x =>
      { x with rank := .yielded, again := true })))
  ∧ ∀ (s : State) (g : Group),
    (∀ a, s.Issues (.rgn a) g → s.popCheck s.cur.gid (s.popNeeds (.rgn a)) = .ready →
      ∃ T : State → Nat → State, exec (.rgn a) s =
          .next (s.cur.mask.foldl T (s.popAll s.cur.gid (s.popNeeds (.rgn a)))).finish
        ∧ ∀ s1 s2 t v, s1.readOps s1.cur.gid t (operands (.rgn a)) Vals.zero = (s2, .ok v) →
          T s1 t = s2.updThr s2.cur.gid t fun x => { x with region := ⟨true, s2.cur.nextHdr, ⟨v.a.lo, v.p⟩⟩ })
    ∧ ∀ f m, s.Issues (.dead f m) g →
      ∃ h, exec (.dead f m) s = .next (s.setGrp s.cur.gid h).finish
        ∧ (∀ t ∈ s.cur.mask, ∀ c, (h.thr t).dead.contains c = true ↔ (g.thr t).dead.contains c = true
          ∨ (f.toNat ≤ c ∧ c < f.toNat + 16 ∧ m.getLsbD (c - f.toNat) = true))
        ∧ (∀ t, t ∉ s.cur.mask → h.thr t = g.thr t) ∧ h = { g with threads := h.threads }

/-! ### Special registers -/

/-- R294, R260, R261, R98, R24, R108: MFSR gives every active thread the control register with its P; PWRH and COREID are
computed; CYC counts from 0 at the release of its core and never falls, by as many cycles for each step as no rule gives
(log entry 20). The cycles that a step adds to CYC are free (log entry 20). -/
def Obligations.ReadsOfControlRegisters : Prop :=
  ∀ (s : State) (g : Group) (d : Code) (c : BitVec 12), s.Issues (.mfsr d c) g →
    (∃ T : State → Nat × List Nat → State, exec (.mfsr d c) s = .next ((s.turns (.mfsr d c)).foldl T s).finish
      ∧ ∀ s1 s2 t tt dst, s1.dstReady s1.cur.gid t (.mfsr d c) = (s2, .ok dst) →
        let r := s2.readCtl s2.cur.gid c.toNat
        T s1 (t, tt) = s2.writeDst s2.cur.gid t dst r.v (r.p || s2.ambient tt) none)
    ∧ (s.now = (s.core g.core).released → s.cyc g.core = 0)
    ∧ (∀ u : State, u.cores = s.cores → s.now ≤ u.now → s.cyc g.core ≤ u.cyc g.core)
    ∧ let r := s.readCtl s.cur.gid
      r 0x000 = CReg.of (s.cyc g.core) ∧ r 0x001 = g.ctl.nbv ∧ r 0x002 = g.ctl.pctl ∧ r 0x003 = g.ctl.deadm ∧ r 0x004 = g.ctl.dctol ∧ r 0x006 = g.ctl.dclim
      ∧ r 0x007 = g.ctl.fpctl ∧ r 0x008 = g.ctl.trapvec ∧ r 0x00A = g.ctl.tcause ∧ r 0x00B = g.ctl.tmask
      ∧ r 0x00C = g.ctl.taddr ∧ r 0x00E = g.ctl.epc
      ∧ (∀ n, n < 8 → r (32 + 2 * n) = g.ctl.wbase.getD n (CReg.of 0) ∧ r (33 + 2 * n) = g.ctl.wlen.getD n (CReg.of 0))
      ∧ (∀ p, (s.core g.core).space? g.lid = some p → r 0x010 = p.bint)
      ∧ r 0x011 = CReg.of ((s.hdrm g.core).toNat * 2 ^ 16
          + (if (s.hdrm g.core).toInt < 16 then 0 else min 7 ((s.hdrm g.core).toNat / 16)) * 2 ^ 8
          + if 0 ≤ (s.hdrm g.core).toInt then 0 else if -32 ≤ (s.hdrm g.core).toInt then 1 else 2)
      ∧ ∀ p, s.phys g.core = some p → r 0x012 = CReg.of (p % 64 * 2 ^ 10 + p / 64 % 4 * 2 ^ 8 + g.core % 256)

/-- R261, R206, R212: what a write leaves in each control register of home-group scope: its read-write fields with the P
of the value, a 1 clears a flag of FPCTL, reserved bits read 0, TCAUSE, TMASK and TADDR stand, and every other register
stands. -/
def Obligations.WritesOfControlRegisters : Prop :=
  ∀ (c : Ctl) (v : Nat) (p : Bool),
    let r := fun (n : Nat) => CReg.mk (BitVec.ofNat 64 n) p
    let f := r (v / 2 ^ 11 % 2 ^ 21 * 2 ^ 11 + (c.fpctl.n / 8 % 32 &&& (31 - v / 8 % 32)) * 8 + v % 8)
    c.put 0x001 v p = { c with nbv := r (v % 4) } ∧ c.put 0x002 v p = { c with pctl := r (v % 8) }
    ∧ c.put 0x003 v p = { c with deadm := r (v % 2) } ∧ c.put 0x004 v p = { c with dctol := r v }
    ∧ c.put 0x006 v p = { c with dclim := r (v % 256) }
    ∧ c.put 0x007 v p = { c with fpctl := f }
    ∧ c.put 0x008 v p = { c with trapvec := r (v / 4 * 4) } ∧ c.put 0x00E v p = { c with epc := r (v / 4 * 4) }
    ∧ c.put 0x00A v p = c ∧ c.put 0x00B v p = c ∧ c.put 0x00C v p = c
    ∧ ∀ n, n < 8 → c.put (32 + 2 * n) v p = { c with wbase := c.wbase.set n (r (v / 4 % 2 ^ 21 * 4)) }
      ∧ c.put (33 + 2 * n) v p = { c with wlen := c.wlen.set n (r (v / 4 % 2 ^ 22 * 4)) }

/-- R294, R208, R206, R212: MTSR reads the value of each active thread in ascending order, and a value that the register's
fields forbid traps ILLEGAL; once every thread has read, the values are written one after another; a write of FPCTL seeds every
generator of the group anew. -/
def Obligations.WritesBySoftware : Prop :=
  (∀ (s : State) (g : Group) (a : Code) (c : BitVec 12), s.Issues (.mtsr a c) g → popNames (.mtsr a c) = [] →
    ∃ T : State × List (Nat × Bool) → Nat × List Nat → State × List (Nat × Bool),
      let r := (s.turns (.mtsr a c)).foldl T (s, [])
      let u := r.2.foldl (fun v w => v.writeCtl c.toNat w.1 w.2) r.1
      (c.toNat ≠ 7 ∨ r.2 = [] → exec (.mtsr a c) s = .next u.finish)
      ∧ (c.toNat = 7 → r.2 ≠ [] → exec (.mtsr a c) s = .next (u.updGrp u.cur.gid Group.reseed).finish)
      ∧ ∀ s1 s2 ws t tt v, s1.readOps s1.cur.gid t (operands (.mtsr a c)) Vals.zero = (s2, .ok v) →
        let x := if ctlPair c.toNat then v.d.toNat else v.d.lo.toNat
        let bad := (c.toNat = 1 ∧ (x % 4 = 0 ∨ x % 4 = 3)) ∨ (c.toNat = 7 ∧ 5 ≤ x % 8)
        (bad → T (s1, ws) (t, tt) = (s2.trapAll tt 0x01 0, ws))
        ∧ (¬ bad → T (s1, ws) (t, tt) = (s2, ws ++ [(x, v.p || s2.ambient tt)])))
  ∧ ∀ (s : State) (n x : Nat) (p : Bool),
    (n ≠ 0x010 → s.writeCtl n x p = s.updGrp s.cur.gid fun h => { h with ctl := h.ctl.put n x p })
    ∧ s.writeCtl 0x010 x p = s.updCore s.cg.core fun k =>
      k.updSpace s.cg.lid fun y => { y with bint := ⟨BitVec.ofNat 64 (x % 2 ^ 16), p⟩ }

/-! ### Memory -/

/-- R4, R171, R172, R173, R174: a store of bytes at a key. Every stored byte reads as written and every other byte as
before; each sector that it touches takes the tag, and its P and POISON follow the rules for whole and partial writes;
every other sector keeps its side band. -/
def Obligations.StoredBytes : Prop :=
  ∀ (m : Memory) (key : Nat) (bs : List Byte) (p poison : Bool) (tag : Nat), m.wf = true → bs ≠ [] →
    let n := m.store key bs p poison tag
    n.wf = true
    ∧ (∀ k, n.byte k = if key ≤ k ∧ k < key + bs.length then bs.getD (k - key) 0#8 else m.byte k)
    ∧ (∀ sec, sec < key / 32 ∨ (key + bs.length - 1) / 32 < sec → n.band sec = m.band sec)
    ∧ ∀ sec, key / 32 ≤ sec → sec ≤ (key + bs.length - 1) / 32 → (n.band sec).tag = tag
      ∧ ((n.band sec).p = true ↔ p = true ∨ ((m.band sec).p = true ∧ ¬ (key ≤ 32 * sec ∧ 32 * sec + 32 ≤ key + bs.length)))
      ∧ ((n.band sec).poison = true ↔ poison = true
        ∨ ((m.band sec).poison = true ∧ ¬ (key ≤ 32 * sec ∧ 32 * sec + 32 ≤ key + bs.length)))

/-- R252, R300, R302, R118: the loads, in every space, order and form. Each turn reads A, traps ALIGN at an address that its
size does not divide, and once the checks pass leaves its elements in flight under wait bit 0, with the P of the address, of
the path, of the sectors and of the page; a closed granule holds the thread, which TMASK.HOLD records; an access that waits
leaves the thread at the load, and one that ended with its link traps UNCORRECTABLE; bytes that come from off the part are
free values (log entry 21). That an access performs where it issues is the model's choice (log entry 5). -/
def Obligations.Loads : Prop :=
  ∀ (i : Instr) (spc : Spc) (off : Bool) (d : Code) (f o v : Nat) (s : State) (g : Group),
    loadForm i = some (spc, off, d, f, o, v) → s.Issues i g → popNames i = [] → (g.levels s o v).isSome = true →
    ∃ T : State → Nat × List Nat → State, exec i s = .next ((s.turns i).foldl T s).finish
      ∧ ∀ (s1 s2 : State) (t : Nat) (tt : List Nat) (x : Vals),
        s1.readOps s1.cur.gid t (operands i) Vals.zero = (s2, .ok x) → s2.cg.kind ≠ .pitcher →
        let a := s2.memAddr spc off x.a
        let n := memLen f o v
        let acc : Acc := { Acc.read spc a n with sync := o ≠ 0 }
        (a % n ≠ 0 → T s1 (t, tt) = s2.trapAll tt 0x08 a)
        ∧ ∀ s3 r, a % n = 0 → s2.reach (s2.who s2.cur.gid t) acc = (s3, r) →
          (∀ c, r = .trap c → T s1 (t, tt) = (s3.firmOf tt).trapAll tt c a) ∧ (∀ c, r = .viol c → T s1 (t, tt) = s3.violAll tt c a)
          ∧ (r = .closed → T s1 (t, tt) = s3.holdAll tt true (d.toNat < 112)) ∧ (r = .waits → T s1 (t, tt) = s3.stayAll tt)
          ∧ (r = .lost → T s1 (t, tt) = (s3.firmOf tt).trapAll tt 0x0C a)
          ∧ (∀ key attr, r = .ok key attr → 112 ≤ d.toNat → T s1 (t, tt) = s3)
          ∧ (∀ key attr, r = .ok key attr → d.toNat < 112 →
            T s1 (t, tt) = s3.updGrp s3.cur.gid fun h => { h with pend := h.pend ++
              [⟨t, d.toNat, loadRegs f (unpack f (memCnt o v) (s3.mem.read key n))
                (x.p || s2.ambient tt || s3.mem.anyP key n || attrBit attr 4), 0, none, [], h.replays t⟩] })
          ∧ ∀ attr, r = .outside attr → d.toNat < 112 →
            T s1 (t, tt) = s3.updGrp s3.cur.gid fun h => { h with pend := h.pend ++
              [⟨t, d.toNat, loadRegs f (unpack f (memCnt o v) (s3.remoteBytes t n))
                (x.p || s2.ambient tt || s3.remoteP t || attrBit attr 4), 0, none, [], h.replays t⟩] }

/-- R301, R302, R204 to R208, R221, R226: the stores, in every space, order and form. Each turn reads its sources, traps
ALIGN, converts its elements and traps ARITH where that raises an enabled flag, and once the checks pass writes its bytes
with the P of its sources, of the path, of a narrow format and of `.P`; a release then closes the thread's interval. That an
access performs where it issues is the model's choice (log entry 5). -/
def Obligations.Stores : Prop :=
  ∀ (i : Instr) (spc : Spc) (off prop : Bool) (d : Code) (f o v : Nat) (s : State) (g : Group) (dom : Nat),
    storeForm i = some (spc, off, prop, d, f, o, v) → s.Issues i g → popNames i = [] →
    (o ≠ 0 → s.scopeDom g.lid (scopeLvl o v) = some dom) →
    ∃ T : State → Nat × List Nat → State, exec i s = .next ((s.turns i).foldl T s).finish
      ∧ ∀ (s1 s2 : State) (t : Nat) (tt : List Nat) (x : Vals) (vs : List DWord) (xp : Bool),
        s1.readOps s1.cur.gid t (operands i) Vals.zero = (s2, .ok x) →
        s2.storeVals s2.cur.gid t f d.toNat (memCnt o v) x.d x.p = .ok (vs, xp) →
        let a := s2.memAddr spc off x.a
        let n := memLen f o v
        let c := s2.cg.ctl
        let us := (storeDraws f c.rm (memCnt o v) (s2.thr s2.cur.gid t).gen).1
        let rs := (vs.zip us).map fun e => narrow f c.rm e.2 e.1
        let fl := rs.foldl (fun a r => a ||| r.flags) 0
        let p := xp || s2.ambient tt || narrowFmt f || prop
        let acc : Acc := { Acc.write spc a n (p && c.pstop) with sync := o ≠ 0 }
        let w := s2.who s2.cur.gid t
        let s3 := s2.raiseFlags fl
        (a % n ≠ 0 → T s1 (t, tt) = s2.trapAll tt 0x08 a)
        ∧ (a % n = 0 → fl &&& c.ten ≠ 0 → T s1 (t, tt) = s3.trapAll tt 0x0F 0)
        ∧ (a % n = 0 → fl &&& c.ten = 0 → o ≠ 0 → s3.syncReady w = .waits → T s1 (t, tt) = s3.stayAll tt)
        ∧ ∀ s4 r, a % n = 0 → fl &&& c.ten = 0 → (o ≠ 0 → s3.syncReady w = .go) → s3.reach w acc = (s4, r) →
          (∀ c, r = .trap c → (T s1 (t, tt)).mem = s4.mem ∧ (T s1 (t, tt)).sweep.traps = (s4.trapAll tt c a).sweep.traps)
          ∧ ∀ key attr, r = .ok key attr →
            (T s1 (t, tt)).mem = s4.mem.store key (pack f (rs.map Rounded.bits)) p false
              (if spc = .global then vaTag a else 0)
            ∧ (T s1 (t, tt)).ivs = if o = 0 then s4.ivs else (s4.closeIv w.agent dom).ivs

/-- R304, R305, R306, R195: the atomics and reductions. Each turn reads its block, traps ILLEGAL for an operation that the
format does not take and ALIGN, and where its thread's earlier writes are in memory it reads in one step the old value,
writes the new one with the P of both, or nothing where the comparison fails, closes the thread's interval and regions, and
leaves the old value in flight. That an access performs where it issues is the model's choice (log entry 5). -/
def Obligations.Atomics : Prop :=
  ∀ (i : Instr) (spc : Spc) (off red : Bool) (d : Code) (f o v : Nat) (s : State) (g : Group) (dom : Nat),
    atomForm i = some (spc, off, red, d, f, o, v) → s.Issues i g → popNames i = [] →
    s.scopeDom g.lid (scopeLvl o v) = some dom →
    ∃ T : State → Nat × List Nat → State, exec i s = .next ((s.turns i).foldl T s).finish
      ∧ ∀ (s1 s2 : State) (t : Nat) (tt : List Nat) (x : Vals) (b : AtomArgs),
        s1.readOps s1.cur.gid t (operands i) Vals.zero = (s2, .ok x) →
        s2.atomArgs s2.cur.gid t d.toNat (f = 5 || f = 9) red = some b →
        let a := s2.memAddr spc off x.a
        let n := fmtBits f / 8
        let w := s2.who s2.cur.gid t
        let acc : Acc := ⟨spc, a, n, true, true, false, true, false, if red then 1 else 0⟩
        let good := b.ctl ≤ 9 ∧ (red = true → 2 ≤ b.ctl) ∧ (f = 8 ∨ f = 9 → b.ctl < 5)
        (¬ good → T s1 (t, tt) = s2.trapAll tt 0x01 0) ∧ (good → a % n ≠ 0 → T s1 (t, tt) = s2.trapAll tt 0x08 a)
        ∧ ∀ s3 key attr new, good → a % n = 0 → s2.syncReady w = .go → s2.reach w acc = (s3, .ok key attr) →
          let old := s3.mem.num key n
          let p := x.p || s2.ambient tt || b.p || s3.mem.anyP key n
          let back := fun (u : State) => (if red then u else u.pendRegs u.cur.gid t (d.toNat + if f = 5 || f = 9 then 6 else 3)
            (loadRegs f [old] (p || attrBit attr 4)) 0).closeRegions tt
          let s4 := (s3.put w acc key (leBytes n new) p false true).closeIv w.agent dom
          (atomNew f b.ctl old b.x b.cmp = some new → (p && s3.cg.ctl.pstop && attrBit attr 5) = false →
            s4.stopped t = false → T s1 (t, tt) = back s4
              ∧ s4.mem = s3.mem.store key (leBytes n new) p false (if spc = .global then vaTag a else 0))
          ∧ (atomNew f b.ctl old b.x b.cmp = none → s3.stopped t = false → T s1 (t, tt) = back (s3.closeIv w.agent dom))

/-- R308, R193, R169, R170: FENCE, and FENCEX between a thread's own accesses, act for each active thread whose side-logged
writes and window stores are in memory: its interval closes at the scope, and FENCEX from T to an engine's path closes it toward
that path too; FENCEX from an engine's path parks while commands, transfers, programs or full huddle rounds of the path that the group issued are
in flight, and agents of the second path that are issued from then on are held. A refused side-logged write traps there. -/
def Obligations.Fences : Prop :=
  ∀ (s : State) (g : Group) (o v : BitVec 3) (dom : Nat), s.scopeDom g.lid (scopeLvl o.toNat v.toNat) = some dom →
    (s.Issues (.fence o v) g → ∃ T : State → Nat → State, exec (.fence o v) s = .next (s.cur.mask.foldl T s).finish
      ∧ ∀ s1 t, (s1.syncReady (s1.who s1.cur.gid t) = .go → T s1 t = s1.closeIv (s1.agent s1.cur.gid t) dom)
        ∧ (s1.syncReady (s1.who s1.cur.gid t) = .waits → T s1 t = s1.stayAll [t])
        ∧ ∀ a c, s1.syncReady (s1.who s1.cur.gid t) = .refused a c →
          T s1 t = ((s1.dropSideRef (s1.who s1.cur.gid t)).firmAll [t]).trapAll [t] c a)
    ∧ ∀ p q, s.Issues (.fencex p q o v) g → p ≠ q → p.toNat < 5 → q.toNat < 5 →
      ∃ T : State → Nat → State, exec (.fencex p q o v) s = .next (s.cur.mask.foldl T s).finish
        ∧ ∀ s1 t, s1.syncReady (s1.who s1.cur.gid t) = .go → s1.cg.parks = [] →
          (s1.inFlight s1.cur.gid (pathOf p.toNat) = [] → p ≠ 0#7 →
            (T s1 t).ivs = (s1.closeIv (s1.agent s1.cur.gid t) dom).ivs ∧ (T s1 t).sweep = (s1.closeIv (s1.agent s1.cur.gid t) dom).sweep)
          ∧ (s1.inFlight s1.cur.gid (pathOf p.toNat) ≠ [] →
            T s1 t = { s1.park [t] (.fencex (s1.inFlight s1.cur.gid (pathOf p.toNat)) (pathOf p.toNat) (pathOf q.toNat) dom
              (s1.nextId + 1)) with nextId := s1.nextId + 1 })
          ∧ (p = 0#7 → (T s1 t).ivs = (s1.closeIv (s1.agent s1.cur.gid t) dom).ivs.map fun iv =>
            if iv.agent = s1.agent s1.cur.gid t then { iv with paths := (pathOf q.toNat :: iv.paths).eraseDups } else iv)
        ∧ ∀ (u : State) (gid core ctx id since : Nat) (h : Group) (r : ParkRec) (cmds : List Nat) (a b : Path) (d : Nat),
          (gid, h) ∈ u.groups → h.core = core → r ∈ h.parks → r.mask ≠ [] → r.kind = .fencex cmds a b d since → since ≤ id →
          u.engHeld core ctx b id = true

/-- R309, R311 to R314, R145, R123: WATCH arms the monitor of the word's line for each turn, and is held at a closed granule; WAIT gives the latched event at once,
MISUSE without a watch, and else parks with its bound; WAITA gives the word where it differs from D, and else parks; a result to a g register overtakes
those of earlier threads that are still parked. Bounds
are counted in steps (log entry 1). -/
def Obligations.MonitorsAndWaits : Prop :=
  ∀ (s : State) (g : Group),
    (∀ a f, s.Issues (.watch a f) g → popNames (.watch a f) = [] →
      ∃ T : State → Nat × List Nat → State, exec (.watch a f) s = .next ((s.turns (.watch a f)).foldl T s).finish
        ∧ ∀ s1 s2 t tt x, s1.readOps s1.cur.gid t (operands (.watch a f)) Vals.zero = (s2, .ok x) →
          let n := if f.toNat = 5 then 8 else 4
          let va := s2.memAddr .global false x.a
          (va % n ≠ 0 → T s1 (t, tt) = s2.trapAll tt 0x08 va)
          ∧ (∀ s3, va % n = 0 →
            s2.reach (s2.who s2.cur.gid t) { Acc.read .global va n with kind := 5 } = (s3, .closed) →
            T s1 (t, tt) = s3.holdAll tt true false)
          ∧ ∀ s3 key attr, va % n = 0 →
            s2.reach (s2.who s2.cur.gid t) { Acc.read .global va n with kind := 5 } = (s3, .ok key attr) →
            s3.hasGrp s3.cur.gid = true → t < s3.cg.threads.length →
            ((T s1 (t, tt)).thr s3.cur.gid t).watch = some ⟨key, n, none, true⟩ ∧ (T s1 (t, tt)).mem = s3.mem)
    ∧ (∀ d a, s.Issues (.wait d a) g → popNames (.wait d a) = [] →
      ∃ T : State → Nat × List Nat → State, exec (.wait d a) s = .next ((s.turns (.wait d a)).foldl T s).finish
        ∧ ∀ s1 s2 t tt x, s1.readOps s1.cur.gid t (operands (.wait d a)) Vals.zero = (s2, .ok x) →
          ((s2.thr s2.cur.gid t).watch = none → T s1 (t, tt) = s2.waitResult s2.cur.gid tt d.toNat 5)
          ∧ ∀ w, (s2.thr s2.cur.gid t).watch = some w →
            (∀ c, w.latched = some c → T s1 (t, tt) = s2.waitResult s2.cur.gid tt d.toNat c)
            ∧ (w.latched = none → x.a.lo = 0#32 → T s1 (t, tt) = s2.park tt (.wait d.toNat none))
            ∧ (w.latched = none → x.a.lo ≠ 0#32 →
              T s1 (t, tt) = s2.park tt (.wait d.toNat (some (s2.now + x.a.lo.toNat)))))
    ∧ ∀ d a, s.Issues (.waita d a) g → popNames (.waita d a) = [] →
      ∃ T : State → Nat × List Nat → State, exec (.waita d a) s = .next ((s.turns (.waita d a)).foldl T s).finish
        ∧ ∀ s1 s2 s3 t tt x old key attr, (s1.grp s1.cur.gid).source s1.free t d.toNat = some old →
          s1.readOps s1.cur.gid t (operands (.waita d a)) Vals.zero = (s2, .ok x) →
          let off := s2.memAddr .A false x.a
          off % 4 = 0 → s2.reach (s2.who s2.cur.gid t) (Acc.read .A off 4).synced = (s3, .ok key attr) →
          (s3.mem.num key 4 ≠ old.v.toNat → T s1 (t, tt) = (s3.overtakes s3.cur.gid t d.toNat).pendRegs s3.cur.gid t d.toNat
            [⟨BitVec.ofNat 32 (s3.mem.num key 4), s3.mem.anyP key 4 || x.p || s3.ambient tt⟩] 0)
          ∧ (s3.mem.num key 4 = old.v.toNat → T s1 (t, tt) = s3.park tt (.waita d.toNat off x.p old.v))

/-- R253, R303, R200, R204, R305: what the registers of a load of one element hold: a word as it stands, bytes and half
words extended by zero or sign, a pair for 64 bits, and narrow floats widened to FP32; the element that a store makes of a
register in the formats that round nothing; and the integer operations of an atomic on words. -/
def Obligations.ElementValues : Prop :=
  (∀ (n : Nat) (p : Bool),
    (n < 2 ^ 8 → loadRegs 0x0 [n] p = [⟨BitVec.ofNat 32 n, p⟩]
      ∧ loadRegs 0x1 [n] p = [⟨(BitVec.ofNat 8 n).signExtend 32, p⟩])
    ∧ (n < 2 ^ 16 → loadRegs 0x2 [n] p = [⟨BitVec.ofNat 32 n, p⟩]
      ∧ loadRegs 0x3 [n] p = [⟨(BitVec.ofNat 16 n).signExtend 32, p⟩]
      ∧ loadRegs 0x7 [n] p = [⟨BitVec.ofNat 32 (n * 2 ^ 16), p⟩])
    ∧ (n < 2 ^ 32 → loadRegs 0x4 [n] p = [⟨BitVec.ofNat 32 n, p⟩] ∧ loadRegs 0x8 [n] p = [⟨BitVec.ofNat 32 n, p⟩])
    ∧ (n < 2 ^ 64 → loadRegs 0x5 [n] p = [⟨BitVec.ofNat 32 n, p⟩, ⟨BitVec.ofNat 32 (n / 2 ^ 32), p⟩]))
  ∧ (∀ (x : Word) (y : DWord) (rm u : Nat),
    narrow 0x0 rm u (x.setWidth 64) = ⟨x.toNat % 2 ^ 8, 0⟩ ∧ narrow 0x2 rm u (x.setWidth 64) = ⟨x.toNat % 2 ^ 16, 0⟩
    ∧ narrow 0x4 rm u (x.setWidth 64) = ⟨x.toNat, 0⟩ ∧ narrow 0x8 rm u (x.setWidth 64) = ⟨x.toNat, 0⟩
    ∧ narrow 0x5 rm u y = ⟨y.toNat, 0⟩ ∧ narrow 0x9 rm u y = ⟨y.toNat, 0⟩
    ∧ narrow 0x1 rm u (x.setWidth 64) = ⟨(BitVec.ofInt 8 (max (-128) (min 127 x.toInt))).toNat, 0⟩
    ∧ narrow 0x3 rm u (x.setWidth 64) = ⟨(BitVec.ofInt 16 (max (-32768) (min 32767 x.toInt))).toNat, 0⟩
    ∧ narrow 0xF rm u (x.setWidth 64) = ⟨(BitVec.ofInt 4 (max (-8) (min 7 x.toInt))).toNat, 0⟩)
  ∧ ∀ (old x cmp : Word),
    atomNew 4 0 old.toNat x.toNat cmp.toNat = some x.toNat
    ∧ atomNew 4 1 old.toNat x.toNat cmp.toNat = (if old = cmp then some x.toNat else none)
    ∧ atomNew 4 2 old.toNat x.toNat cmp.toNat = some (old + x).toNat
    ∧ atomNew 4 3 old.toNat x.toNat cmp.toNat = some (if x.slt old then x else old).toNat
    ∧ atomNew 4 4 old.toNat x.toNat cmp.toNat = some (if old.slt x then x else old).toNat
    ∧ atomNew 4 5 old.toNat x.toNat cmp.toNat = some (if x.ult old then x else old).toNat
    ∧ atomNew 4 6 old.toNat x.toNat cmp.toNat = some (if old.ult x then x else old).toNat
    ∧ atomNew 4 7 old.toNat x.toNat cmp.toNat = some (old &&& x).toNat
    ∧ atomNew 4 8 old.toNat x.toNat cmp.toNat = some (old ||| x).toNat
    ∧ atomNew 4 9 old.toNat x.toNat cmp.toNat = some (old ^^^ x).toNat

/-! ### Huddles, barriers and phase words -/

/-- R317, R318, R170: HARM arms a huddle for the launch, or traps HUDDLE at a count outside 1 to 256 and where a round has
signatures; HSIGN waits to issue behind a full round, with its whole path, and else adds one signature and parks the thread, and traps HUDDLE at a huddle that
is disarmed or another launch's; a trap that the thread owes is taken there. -/
def Obligations.ArmingAndSigning : Prop :=
  ∀ (s : State) (g : Group) (a : Code) (h : BitVec 4),
    (s.Issues (.harm a h) g → popNames (.harm a h) = [] →
      ∃ T : State → Nat × List Nat → State, exec (.harm a h) s = .next ((s.turns (.harm a h)).foldl T s).finish
        ∧ ∀ s1 s2 t tt x, s1.readOps s1.cur.gid t (operands (.harm a h)) Vals.zero = (s2, .ok x) →
          let c := x.a.lo.toNat
          let k := s2.cg.core
          let bad := c = 0 ∨ 256 < c ∨ ((s2.core k).huddle h.toNat).signed ≠ 0
          (bad → T s1 (t, tt) = s2.trapAll tt 0x10 0)
          ∧ (¬ bad → T s1 (t, tt) = s2.updHuddle k h.toNat fun _ => ⟨some s2.cg.lid, c, 0, 0, 0, 0, []⟩))
    ∧ (s.Issues (.hsign h) g → s.roundFull h.toNat = true → exec (.hsign h) s = .next (s.stayAll s.cur.path).finish)
    ∧ (s.Issues (.hsign h) g → s.roundFull h.toNat = false →
      ∃ T : State → Nat → State, exec (.hsign h) s = .next (s.cur.mask.foldl T s).finish
        ∧ ∀ s1 t,
          let k := s1.cg.core
          let hd := (s1.core k).huddle h.toNat
          let sig : Sig := ⟨s1.cur.gid, s1.cg.uid, t, 0, s1.cur.w, s1.cur.u, s1.cur.lits, [], false, s1.nextId⟩
          (∀ c x, (s1.thr s1.cur.gid t).owed = some (c, x) →
            T s1 t = ((s1.updThr s1.cur.gid t fun y => { y with owed := none }).firmAll [t]).trap t c x)
          ∧ (∀ c x, (s1.thr s1.cur.gid t).owed = none → s1.sideRefused (s1.who s1.cur.gid t) = some (x, c) →
            T s1 t = ((s1.dropSideRef (s1.who s1.cur.gid t)).firmAll [t]).trap t c x)
          ∧ ((s1.thr s1.cur.gid t).owed = none → s1.sideRefused (s1.who s1.cur.gid t) = none →
            (hd.count = 0 ∨ hd.owner ≠ some s1.cg.lid → T s1 t = s1.trap t 0x10 0)
            ∧ (hd.owner = some s1.cg.lid → 0 < hd.count → hd.count ≤ hd.signed → T s1 t = s1.stayAll [t])
            ∧ (hd.owner = some s1.cg.lid → hd.signed < hd.count →
              T s1 t = (s1.updHuddle k h.toNat fun y => { y with signed := y.signed + 1, sigs := y.sigs ++ [sig] }).park [t]
                (.huddle h.toNat))))

/-- R318: a full round of HSIGN. It completes: SIGNED returns to 0, GEN counts up, LAST reads COMPLETE, and every signer
resumes at its next instruction; signatures of different instructions fail it with MISMATCH; memory stands. Until the
round is full nothing happens. -/
def Obligations.SignedRounds : Prop :=
  ∀ (s : State) (core h : Nat), h < 16 → (s.core core).huddles.length = 16 →
    let hd := (s.core core).huddle h
    (hd.sigs = [] ∨ hd.signed ≠ hd.count → exec (.huddleRoundComplete core h) s = .next s.tick)
    ∧ (hd.sigs ≠ [] → hd.signed = hd.count → 0 < hd.count →
      (∀ x ∈ hd.sigs, x.kind = 0 ∧ s.undrained (s.agent x.gid x.tix) = false ∧ s.sideRefused (s.who x.gid x.tix) = none
        ∧ s.hasGrp x.gid = true ∧ (s.grp x.gid).uid = x.uid) →
      ∃ u, exec (.huddleRoundComplete core h) s = .next u ∧ u.mem = s.mem
        ∧ (u.core core).huddle h = { hd with signed := 0, sigs := [], last := 1, gen := (hd.gen + 1) % 4 }
        ∧ u = (hd.sigs.foldl (fun v x => v.release x h none) (s.updHuddle core h fun y => y.next 1)).tick)
    ∧ (∀ a, hd.sigs.head? = some a → hd.signed = hd.count → 0 < hd.count → a.kind = 0 → (∃ x ∈ hd.sigs, x.kind ≠ 0) →
      (∀ x ∈ hd.sigs, s.undrained (s.agent x.gid x.tix) = false) →
      ∃ u, exec (.huddleRoundComplete core h) s = .next u ∧ u.mem = s.mem
        ∧ (u.core core).huddle h = { hd with signed := 0, sigs := [], last := 2, gen := (hd.gen + 1) % 4 })
    ∧ ∀ (x : Sig) (v : State), let w := v.release x h none
      w.mem = v.mem ∧ w.dev = v.dev ∧ w.launches = v.launches
        ∧ ∀ r ∈ (w.grp x.gid).parks, r.kind = .huddle h → x.tix ∉ r.mask

/-- R321, R322, R194: BAR parks each active thread at the barrier of the level that its word names; a scope wider than the
gang, and a thread that is no gang's, trap ILLEGAL. BAR_COMPLETE releases the participants once all of them have arrived at
that level with their earlier writes in memory, and updates between their cores are applied. Who takes part at a scope is
the model's reading (log entry 29). -/
def Obligations.Barriers : Prop :=
  ∀ (s : State) (g : Group) (c : BitVec 1) (n : BitVec 3), s.Issues (.bar c n) g →
    let ok := fun (dom : Nat) => g.kind.isGang = true ∧ dom ≤ gangDom (s.levels g.lid)
    let at_ := s.scopeDom g.lid (if c = 1#1 then some n.toNat else none)
    let lvl := if c = 1#1 then n.toNat else (s.levels g.lid).length - 1
    ((at_ = none ∨ ∃ dom, at_ = some dom ∧ ¬ ok dom) →
      exec (.bar c n) s = .next (s.trapAll s.cur.mask 0x01 0).finish)
    ∧ (∀ dom, at_ = some dom → ok dom →
      ∃ T : State → Nat → State, exec (.bar c n) s = .next (s.cur.mask.foldl T s).finish
        ∧ ∀ s1 t, (s1.thr s1.cur.gid t).owed = none → s1.sideRefused (s1.who s1.cur.gid t) = none →
          T s1 t = s1.park [t] (.bar lvl dom))
    ∧ ∀ (u : State) (gid idx l dom : Nat) (mask : List Nat), u.parkAt gid idx = some ⟨mask, .bar l dom⟩ →
      let lid := (u.grp gid).lid
      let a := u.agent gid (mask.headD 0)
      let ts := u.barThreads lid dom a
      (u.heldOut lid dom a = false → u.updatesOut dom (u.grp gid).core = false →
        (∀ e ∈ ts, u.atBar l dom e = true ∧ u.undrained (u.agent e.1 e.2) = false) →
        exec (.barComplete gid idx) u = .next (ts.foldl (fun v e => v.leaveBar l dom e) u).tick)
      ∧ ((∃ e ∈ ts, u.atBar l dom e = false) → exec (.barComplete gid idx) u = .next u.tick)

/-- R323, R324, R325: phase words. PARR counts an arrival as a release at core scope, and the last expected arrival turns
PHASE and empties the count; PWAIT goes on where PHASE equals the low bit of D and parks otherwise, until a re-read
finds it. -/
def Obligations.PhaseWords : Prop :=
  (∀ (w : BitVec 32), let e := (w.extractLsb' 12 12).toNat
    let n := (w.extractLsb' 0 12).toNat
    (n + 1 < max e 1 → phaseArrive w.toNat = w.toNat + 1)
    ∧ (max e 1 ≤ n + 1 → BitVec.ofNat 32 (phaseArrive w.toNat) = (w ^^^ 0x80000000#32) &&& 0xFFFFF000#32))
  ∧ (∀ (s : State) (g : Group) (a : Code), s.Issues (.parr a) g → popNames (.parr a) = [] →
    ∃ T : State → Nat × List Nat → State, exec (.parr a) s = .next ((s.turns (.parr a)).foldl T s).finish
      ∧ ∀ s1 s2 t tt x, s1.readOps s1.cur.gid t (operands (.parr a)) Vals.zero = (s2, .ok x) →
        let at_ := x.a.lo.toNat
        let w := s2.who s2.cur.gid t
        let acc : Acc := ⟨.A, at_, 4, true, true, false, true, false, 0⟩
        (at_ % 4 ≠ 0 → T s1 (t, tt) = s2.trapAll tt 0x08 at_)
        ∧ ∀ s3 key attr, at_ % 4 = 0 → s2.syncReady w = .go → s2.reach w acc = (s3, .ok key attr) →
          T s1 (t, tt) = (s3.put w acc key (leBytes 4 (phaseArrive (s3.mem.num key 4)))
            (s3.mem.anyP key 4 || x.p || s3.ambient tt) false true).closeIv w.agent 3)
  ∧ (∀ (s : State) (g : Group) (d a : Code), s.Issues (.pwait d a) g → popNames (.pwait d a) = [] →
    ∃ T : State → Nat × List Nat → State, exec (.pwait d a) s = .next ((s.turns (.pwait d a)).foldl T s).finish
      ∧ ∀ s1 s2 t tt x, s1.readOps s1.cur.gid t (operands (.pwait d a)) Vals.zero = (s2, .ok x) →
        let at_ := x.a.lo.toNat
        (at_ % 4 ≠ 0 → T s1 (t, tt) = s2.trapAll tt 0x08 at_)
        ∧ ∀ s3 key attr, at_ % 4 = 0 →
          s2.reach (s2.who s2.cur.gid t) { Acc.read .A at_ 4 with sync := true } = (s3, .ok key attr) →
          T s1 (t, tt) = if s3.mem.num key 4 / 2 ^ 31 % 2 = x.d.toNat % 2 then s3
            else s3.park tt (.pwait at_ (x.d.toNat % 2 = 1)))
  ∧ ∀ (u u' : State) (gid idx off key attr : Nat) (mask : List Nat) (ph : Bool),
    u.parkAt gid idx = some ⟨mask, .pwait off ph⟩ →
    u.reach (u.who gid (mask.headD 0)) { Acc.read .A off 4 with sync := true } = (u', .ok key attr) →
    exec (.pwaitReread gid idx) u = .next (if (u'.mem.num key 4 / 2 ^ 31 % 2 = 1) = ph then
      u'.wake gid idx ⟨mask, .huddle 0⟩ else u').tick

/-- R388, R389, R390, R227: DCOR.D and its round. DCOR.D waits to issue behind a full round. A signature traps ILLEGAL above 2^24
columns, ALIGN at a base or a stride that is no multiple of 8, and HUDDLE at a huddle that is disarmed or another launch's; at the
thread's round limit it traps DIVERGE, or with PCTL.DIVST does not sign, writes the NaN with P and sets LAST to LIMIT; else it carries
the descriptor's row, its stride, n, x and b. A round whose rows all pass ends COMPLETE and settles x; one that does not ends FAILED
and counts up; the residual that a row gives is R389's in FP64, which stands in the signer's register pair once the round has ended,
and it passes where |res| is at most DCTOL (|A| |x| + |b|). A round is one step, whole and indivisible
(95_what_each_step_holds.md); which of several misaligned fields TADDR reports, and their order, are the model's (log entry 15). -/
def Obligations.DefectCorrection : Prop :=
  (∀ (s : State) (g : Group) (d a b : Code) (h : BitVec 4), let i : Instr := .dcorD d a b h
    s.Issues i g → popNames i = [] →
    (s.roundFull h.toNat = true → exec i s = .next (s.stayAll s.cur.path).finish)
    ∧ (s.roundFull h.toNat = false →
      ∃ T : State → Nat → State, exec i s = .next (s.cur.mask.foldl T s).finish
      ∧ ∀ s1 s2 t v, (s1.thr s1.cur.gid t).owed = none → s1.sideRefused (s1.who s1.cur.gid t) = none →
        s1.readOps s1.cur.gid t (operands i) Vals.zero = (s2, .ok v) →
        let r := fun (k : Nat) => s2.descReg t b.toNat k
        let row := (r 0).v.toNat + 2 ^ 32 * (r 1).v.toNat
        let st := (r 2).v.toNat
        let n := (r 3).v.toNat
        let x := (r 4).v.toNat + 2 ^ 32 * (r 5).v.toNat
        let y := (r 6).v.toNat + 2 ^ 32 * (r 7).v.toNat
        let k := s2.cg.core
        let hd := (s2.core k).huddle h.toNat
        let lim := if s2.cg.ctl.dclim.n % 256 = 0 then 256 else s2.cg.ctl.dclim.n % 256
        let p := v.p || (List.range 8).any (fun j => (r j).p) || s2.cg.ambient t
        (2 ^ 24 < n → T s1 t = s2.trap t 0x01 0)
        ∧ (n ≤ 2 ^ 24 → row % 8 ≠ 0 → T s1 t = s2.trap t 0x08 row)
        ∧ (n ≤ 2 ^ 24 → row % 8 = 0 → st % 8 ≠ 0 → T s1 t = s2.trap t 0x08 st)
        ∧ (n ≤ 2 ^ 24 → row % 8 = 0 → st % 8 = 0 → x % 8 ≠ 0 → T s1 t = s2.trap t 0x08 x)
        ∧ (n ≤ 2 ^ 24 → row % 8 = 0 → st % 8 = 0 → x % 8 = 0 → y % 8 ≠ 0 → T s1 t = s2.trap t 0x08 y)
        ∧ (n ≤ 2 ^ 24 → row % 8 = 0 → st % 8 = 0 → x % 8 = 0 → y % 8 = 0 →
          (hd.count = 0 ∨ hd.owner ≠ some s2.cg.lid → T s1 t = s2.trap t 0x10 0)
          ∧ (hd.owner = some s2.cg.lid → hd.signed < hd.count → lim ≤ hd.rounds →
            (s2.cg.ctl.divst = false → T s1 t = s2.trap t 0x06 0)
            ∧ (s2.cg.ctl.divst = true → T s1 t = (s2.updHuddle k h.toNat fun z => { z with last := 4 }).writeDst s2.cur.gid t
              (.reg d.toNat true) 0x7FF8000000000000#64 true (some 2)))
          ∧ (hd.owner = some s2.cg.lid → hd.signed < hd.count → hd.rounds < lim →
            T s1 t = (s2.updHuddle k h.toNat fun z => { z with signed := z.signed + 1, sigs := z.sigs ++
              [⟨s2.cur.gid, s2.cg.uid, t, 3, s2.cur.w, s2.cur.u, s2.cur.lits,
                [d.toNat, v.a.lo.toNat, row, st, n, x, y, s2.cg.ctl.dctol.n], p, s2.nextId⟩] }).park [t]
              (.huddle h.toNat)))))
  ∧ (∀ (s s2 : State) (core h : Nat) (a z : Sig) (rs : List (Sig × Except DFail DRes)),
    let hd := (s.core core).huddle h
    hd.sigs.head? = some a → hd.sigs.getLast? = some z → 0 < hd.count → hd.signed = hd.count → a.kind = 3 →
    (∀ x ∈ hd.sigs, x.kind = 3 ∧ x.vals.getD 5 0 = a.vals.getD 5 0 ∧ x.vals.getD 4 0 = a.vals.getD 4 0
      ∧ s.undrained (s.agent x.gid x.tix) = false) → s.fencexHolds core .G z.id = false →
    let w : Who := ⟨⟨.G, core, z.gid, z.uid⟩, core, hd.owner.getD 0, (s.grp z.gid).ctx⟩
    s.roundRes w hd.sigs = (s2, some rs) →
    let pass := rs.all fun e => match e.2 with
      | .ok r => r.pass
      | .error _ => false
    let s3 := if pass then s2.clearX w (a.vals.getD 5 0) (a.vals.getD 4 0) else s2
    let s4 := (s3.roundEnd w hd.sigs).updHuddle core h fun x => if pass
      then { x with signed := 0, sigs := [], last := 1, gen := (x.gen + 1) % 4 }
      else { x with signed := 0, sigs := [], last := 3, gen := (x.gen + 1) % 4, rounds := min (x.rounds + 1) 255 }
    exec (.dcorRound core h) s = .next (rs.foldl (fun v e => v.dcorEnd w.ctx h pass e) s4).tick)
  ∧ (∀ (s : State) (ctx h : Nat) (pass : Bool) (x : Sig) (r : DRes), s.hasGrp x.gid = true → (s.grp x.gid).uid = x.uid →
    (s.grp x.gid).threads.length = 16 → x.tix < 16 → (s.thr x.gid x.tix).x.length = 80 → x.vals.getD 0 0 + 1 < 80 →
    let y := (s.dcorEnd ctx h pass (x, .ok r)).thr x.gid x.tix
    let v : DWord := BitVec.ofNat 64 r.res
    y.x.getD (x.vals.getD 0 0) Reg.zero = ⟨v.lo, r.p && !pass⟩
      ∧ y.x.getD (x.vals.getD 0 0 + 1) Reg.zero = ⟨v.hi, r.p && !pass⟩)
  ∧ (∀ (hi lo m a x : Nat), let q := fp64
    let val := fun n => q.value n
    let p := q.ne (fvMul (val a) (val x)).1
    Resid.step ⟨hi, lo, m⟩ a x = ⟨sub64 hi p,
      add64 lo (sub64 (add64 (sub64 hi (sub64 (sub64 hi p) (sub64 (sub64 hi p) hi)))
        (sub64 (neg64 p) (sub64 (sub64 hi p) hi))) (q.ne (fvFma 0 (val a) (val x) (fvNeg (val p))).1)),
      add64 m (mul64 (abs64 a) (abs64 x))⟩)
  ∧ ∀ (res m b tol : Nat), dcorPass res m b tol = true ↔
    (fvNan (fp64.value (abs64 res)) = false ∧ fvNan (fp64.value (mul64 tol (add64 m (abs64 b)))) = false
      ∧ fvLt (fp64.value (mul64 tol (add64 m (abs64 b)))) (fp64.value (abs64 res)) = false)

/-! ### Engine commands -/

/-- R332, R334, R355: per-thread copies. CPY traps ILLEGAL above 32 bytes and ALIGN at an address or an offset that is no multiple
of 32; else a transfer of the group's tag is issued and counted modulo 2^32, and the thread's region closes. CPYW goes on once the tag
has no transfer outstanding, clears its error, and traps with the code that R334 gives for it; else the threads park. A
transfer that completes writes the whole sector, its bytes followed by zeros, with the P of the source and of the path. When
a transfer reads and writes is the model's choice (log entries 5 and 17). -/
def Obligations.Copies : Prop :=
  (∀ (s : State) (g : Group) (i : Instr) (toA : Bool) (n : Nat), s.Issues i g → popNames i = [] →
    ((∃ d a b t, i = .cpyGa d a b t ∧ toA = true ∧ n = t.toNat) ∨ ∃ d a b t, i = .cpyAg d a b t ∧ toA = false ∧ n = t.toNat) →
    (1024 < (s.core g.core).xfers.length + (s.turns i).length → exec i s = .next (s.stayAll s.cur.path).finish)
    ∧ ((s.core g.core).xfers.length + (s.turns i).length ≤ 1024 →
      ∃ T : State → Nat × List Nat → State, exec i s = .next ((s.turns i).foldl T s).finish
      ∧ ∀ s1 s2 t tt v, s1.readOps s1.cur.gid t (operands i) Vals.zero = (s2, .ok v) →
        let va := v.a.toNat
        let off := v.d.lo.toNat
        let len := v.b.lo.toNat
        let g2 := s2.cg
        let seq := ((g2.tag n).issued + 1) % 2 ^ 32
        let x : Xfer := ⟨s2.nextId, s2.cur.gid, g2.uid, t, g2.lid, g2.ctx, n, seq, toA, va, off, len, v.p || s2.ambient tt,
          g2.ctl.pstop, tt, false, s2.now, 0, none⟩
        (32 < len → T s1 (t, tt) = s2.trapAll tt 0x01 0)
        ∧ (len ≤ 32 → va % 32 ≠ 0 → T s1 (t, tt) = s2.trapAll tt 0x08 va)
        ∧ (len ≤ 32 → va % 32 = 0 → off % 32 ≠ 0 → T s1 (t, tt) = s2.trapAll tt 0x08 off)
        ∧ (len ≤ 32 → va % 32 = 0 → off % 32 = 0 →
          T s1 (t, tt) = (({ s2.updGrp s2.cur.gid (fun y => { y with tags := y.tags.set n { y.tag n with issued := seq } })
            with nextId := s2.nextId + 1 }).updCore g2.core fun c => { c with xfers := c.xfers ++ [x] }).closeRegions tt)))
  ∧ (∀ (s : State) (g : Group) (t : BitVec 3), s.Issues (.cpyw t) g → g.parks = [] →
    let n := t.toNat
    let tag := g.tag n
    let u := s.updGrp s.cur.gid fun y => { y with
      tags := y.tags.set n { tag with err := 0, addr := 0, errs := 0 }
      deferred := y.deferred.filter fun d => d.tag ≠ some n
      parks := [] }
    (s.xfersOf s.cur.gid n = [] → tag.err = 0 → exec (.cpyw t) s = .next u.finish)
    ∧ (s.xfersOf s.cur.gid n = [] → tag.err ≠ 0 → exec (.cpyw t) s = .next (u.trapAll s.cur.mask (match tag.err with
        | 0x04 => 0x03
        | 0x10 => 0x0C
        | 0x14 => 0x0B
        | _ => 0x09) tag.addr).finish)
    ∧ ((∃ x ∈ s.xfersOf s.cur.gid n, x.seq = tag.issued ∨ 2 ^ 31 ≤ (x.seq + 2 ^ 32 - tag.issued) % 2 ^ 32) →
      exec (.cpyw t) s = .next (s.park s.cur.mask (.cpyw n tag.issued)).finish))
  ∧ ∀ (s s2 s3 : State) (core idx : Nat) (x : Xfer) (bs e : List Byte) (p q : Bool),
    let w : Who := ⟨⟨.C, core, x.gid, x.id⟩, core, x.lid, x.ctx⟩
    let src := if x.toA then (Spc.global, x.va) else (Spc.A, x.off)
    let dst := if x.toA then (Spc.A, x.off) else (Spc.global, x.va)
    (s.core core).xfers[idx]? = some x → s.engHeld core x.ctx .C x.id = false → s.xferBehind core x = false →
    x.logged = false → x.got = none → 0 < x.len → src.2 + x.len ≤ spcSize src.1 → dst.2 + 32 ≤ spcSize dst.1 →
    s.engFetch w 3 src.1 src.2 x.len = (s2, .ok bs p) →
    (s2.updXfer core x.id fun y => { y with got := some (bs, p, false) }).engWrite1 w x.uid
      ⟨dst.1, dst.2, (bs ++ List.replicate 32 0#8).take 32, x.p || p, false, false⟩ x.pstop = (s3, .ok e q) →
    s3.sideWaits w = false →
    exec (.copyTransferCompletion core idx) s = .next (((s3.updCore core fun c =>
      { c with xfers := c.xfers.filter fun y => y.id ≠ x.id }).dropIvs fun a => a = w.agent).dropHeld core x.id).tick

/-- R328, R329, R336, R339, R343, R346, R347, R348: the issue of BCPY, COLL, SUBS, SUBS.SYNC, SUBX, SUBF and SUBF.SRC. An
address that its command's alignment does not divide traps ALIGN, SUBF on a lapsed entry traps LAPSED, and else the command
joins those of the core, with the P of its operands and of the path, and the threads' regions close; memory is written by no
issue. The stages of a command are the model's (log entry 17). -/
def Obligations.EngineCommands : Prop :=
  ∀ (s : State) (g : Group) (i : Instr), s.Issues i g → popNames i = [] → (cmdRow Vals.zero i).isSome = true →
    ∃ T : State → Nat × List Nat → State, exec i s = .next ((s.turns i).foldl T s).finish
      ∧ ∀ s1 s2 t tt v r, s1.readOps s1.cur.gid t (operands i) Vals.zero = (s2, .ok v) → cmdRow v i = some r →
        (∀ a m, r.algn.find? (fun e => e.1 % e.2 ≠ 0) = some (a, m) → T s1 (t, tt) = s2.trapAll tt 0x08 a)
        ∧ (∀ n, r.kind = .subf n → ((s.core g.core).land? n).map LandEnt.st = some .lapsed →
          T s1 (t, tt) = s2.trapAll tt 0x0B 0)
        ∧ ((∀ e ∈ r.algn, e.1 % e.2 = 0) →
          (∀ n, r.kind = .subf n → ((s.core g.core).land? n).map LandEnt.st ≠ some .lapsed) →
          let p := v.p || s2.ambient tt
          (∀ d, r.dst = some d → d.toNat < 112 → T s1 (t, tt) = s2.joined tt (s2.cmdOf t r (some ⟨d.toNat, none, false⟩) p))
          ∧ ((r.dst = none ∨ r.dst = some 120#7) → T s1 (t, tt) = s2.joined tt (s2.cmdOf t r none p)))

/-- R349, R350, R352, R354, R139 to R141: AMSG takes its payload from registers, traps ILLEGAL at an entry of 0 or one that
is no multiple of 4, and is a release at pod scope; PITCH binds its queues and joins the start queue, or traps ILLEGAL at a
binding word that R350 refuses; QPUSH adds one entry of all active elements; QDRN ends the bindings and the program of its
group; a program starts as the pitcher's group and ends once its bindings have. What is another device's is free (log entry
21), and a core of no bound partition and the end of a program are the model's choices (log entries 11 and 51). -/
def Obligations.MessagesAndPrograms : Prop :=
  (∀ (s : State) (g : Group) (d a b c : Code) (k : BitVec 3), let i : Instr := .amsg d a b k c
    s.Issues i g → popNames i = [] →
    ∃ T : State → Nat × List Nat → State, exec i s = .next ((s.turns i).foldl T s).finish
      ∧ ∀ s1 s2 t tt v rs, s1.readOps s1.cur.gid t (operands i) Vals.zero = (s2, .ok v) →
        s2.payload t c.toNat (match k.toNat with
          | 0 => 0
          | n => 2 ^ (n - 1)) = some rs → k.toNat ≤ 5 →
        let entry := v.a.toNat
        let w := v.b.lo.toNat
        let bad := entry = 0 ∨ entry % 4 ≠ 0 ∨ w / 2 ^ 16 % 2 ^ 15 ≠ 0
        (bad → T s1 (t, tt) = s2.trapAll tt 0x01 0)
        ∧ (¬ bad → d.toNat < 112 → s2.syncReady (s2.who s2.cur.gid t) = .go →
          let s3 := s2.closeIv (s2.agent s2.cur.gid t) 7
          T s1 (t, tt) = s3.joined tt (s3.cmdOf t ⟨[], .K, .amsg ⟨s3.cg.ctx, entry, rs, w / 2 ^ 31 = 1⟩ (w % 2 ^ 16), none, some d⟩
            (some ⟨d.toNat, none, false⟩) (v.p || s3.ambient tt))))
  ∧ (∀ (s : State) (g : Group) (d a b c : Code), let i : Instr := .pitch d a b c
    s.Issues i g → popNames i = [] →
    ∃ T : State → Nat × List Nat → State, exec i s = .next ((s.turns i).foldl T s).finish
      ∧ ∀ s1 s2 t tt v init, s1.readOps s1.cur.gid t (operands i) Vals.zero = (s2, .ok v) →
        s2.payload t c.toNat 8 = some init →
        let w := v.b.lo.toNat
        let h := s2.cg
        let pr : Prog := ⟨s2.nextId, s2.cur.gid, h.uid, h.lix, h.lid, h.ctx, v.a.toNat, v.d.lo.toNat, init,
          (List.range 32).map (fun k => h.readReg s2.free t (80 + k)), h.ctl.fpctl, (bindings w).map Prod.fst,
          s2.ambient tt, 0, 0⟩
        (s2.bindOk h.core s2.cur.gid w = false → T s1 (t, tt) = s2.trapAll tt 0x01 0)
        ∧ (s2.bindOk h.core s2.cur.gid w = true → (s2.core h.core).starts.length < 8 →
          T s1 (t, tt) = ({ s2 with nextId := s2.nextId + 1 }.updCore h.core fun k =>
            { k.bindQueues h.uid s2.cur.gid pr.id (bindings w) with starts := k.starts ++ [pr] }).closeRegions tt))
  ∧ (∀ (s : State) (g : Group) (q a : BitVec 7) (p : Prog) (v : Nat → Vals), let i : Instr := .qpush q a
    kfind s.groups s.cur.gid = some g → g.kind = .pitcher → s.sweep = Sweep.reset → s.cur.mask ≠ [] → s.Reads i v →
    legal g.regs i = true → (s.core g.core).run = some p → p.queues.contains q.toNat = true → a.toNat < 112 →
    let e := (s.core g.core).pqs.getD q.toNat PQ.reset
    let es := s.cur.mask.map fun t => Reg.mk (v t).a.lo ((v t).p || s.ambient [t])
    (e.entries.length < 64 → e.bound.isSome = true → e.prog = p.id →
      exec i s = .next (s.updCore g.core fun c =>
        { c with pqs := c.pqs.set q.toNat { e with entries := e.entries ++ [es] } }).finish)
    ∧ (64 ≤ e.entries.length → exec i s = .next (s.stayAll s.cur.mask).finish))
  ∧ (∀ (s : State) (g : Group), s.Issues .qdrn g →
    let u := s.unbind g.core s.cur.gid
    (∀ q ∈ (u.core g.core).pqs, ∀ b, q.bound = some b → b.2.1 ≠ s.cur.gid)
    ∧ ((s.core g.core).run = none → exec .qdrn s = .next (u.closeRegions s.cur.mask).finish)
    ∧ (∀ p, (s.core g.core).run = some p → p.gid = s.cur.gid → p.uid = g.uid →
      exec .qdrn s = .next ((u.endProgram g.core 0 0).closeRegions s.cur.mask).finish))
  ∧ ∀ (s : State) (core : Nat),
    (∀ p ps, (s.core core).run = none → (s.core core).starts = p :: ps → s.engHeld core p.ctx .P p.id = false →
      let u := s.updCore core fun c => { c with run := some p, starts := ps }
      exec (.pitcherStart core) s = .next (if p.iters = 0 then u.endProgram core 0 0
        else u.setGrp (pitchGid core) (p.group core)).tick)
    ∧ (∀ p, (s.core core).run = some p → p.queues ≠ [] →
      (∀ q ∈ p.queues, let e := (s.core core).pqs.getD q PQ.reset
        e.bound = none ∨ e.prog ≠ p.id) →
      exec (.pitcherEnd core) s = .next (s.endProgram core 0 0).tick)

/-- R330, R338, R341, R344 to R348, R361, R397, R44, R45, R47, R49, R56, R60, R62, R123, R148, R342: the events that carry commands on, in a
core whose stream they may use. The completion word is the command's last write, with its code and count and the P of the
command; the command's interval then closes, and it is gone and its result pending once those that it overwrites are there. A collective goes on only once every rank's destination is written
or refused. A request reaches its source entry, which binds, flushes or drops the subscriber; a batch leaves when its window
ends; updates of a pair land in their order, and one for an entry that is gone or lapsed, or for a binding that is over, is refused and
counted; partials are joined; a bound that expires completes SHORT with what has arrived; and a delivery gives the rank its result, poisoned by an
uncorrectable flit, and STAT, or leaves for another device over its link. The stages of a command, when an entry is LIVE, the words
of a refused collective and deliveries without a link are the model's readings (log entries 17, 27, 28 and 65), and bounds are counted in steps (log entry 1). -/
def Obligations.CommandEvents : Prop :=
  (∀ (s : State) (core idx : Nat) (c : Cmd), (s.core core).cmds[idx]? = some c →
    s.engHeld core c.ctx c.path c.id = false → c.stage = 3 → c.unchecked = false →
    s.sideRefused (c.who core) = none → s.sideWaits (c.who core) = false →
    let v := c.code * 2 ^ 24 + min c.count 0xFFFFFF
    let e : Instr := .completionWordWrite core idx
    (c.word = none → s.resultBehind core c = true →
      exec e s = .next ((s.updCmd core c.id fun x => { x with stage := 7, code := c.code, word := none }).dropIvs
        fun a => a = (c.who core).agent).tick)
    ∧ (c.word = none → s.resultBehind core c = false →
      exec e s = .next (((s.cmdGone core c).cmdResult core c v).unmark c.gid).tick)
    ∧ ∀ (s2 : State) (spc : Spc) (a key attr : Nat), c.word = some (spc, a) → s.lineBehind core c spc a = false →
      let acc : Acc := { Acc.write spc a 4 (c.p && c.pstop) with kind := 4, sync := true }
      s.reach (c.who core) acc = (s2, .ok key attr) →
      let u := s2.put (c.who core) acc key (leBytes 4 v) c.p false true
      (u.resultBehind core c = false → exec e s = .next (((u.cmdGone core c).cmdResult core c v).unmark c.gid).tick)
      ∧ (u.resultBehind core c = true →
        exec e s = .next ((u.updCmd core c.id fun x => { x with stage := 7, code := c.code, word := none }).dropIvs
          fun a => a = (c.who core).agent).tick))
  ∧ (∀ (s : State) (core idx : Nat) (c : Cmd) (x : Coll) (m : Member), (s.core core).cmds[idx]? = some c →
    s.engHeld core c.ctx c.path c.id = false → c.stage = 6 → s.sideRefused (c.who core) = none →
    s.collOf core c.id = some (x, m) →
    let e : Instr := .completionWordWrite core idx
    ((∃ y ∈ x.members, y.got = false) → exec e s = .next s.tick)
    ∧ ((∀ y ∈ x.members, y.got = true) → x.refused = 0 →
      exec e s = .next (s.updCmd core c.id fun c => { c with stage := 4, code := 1 }).tick)
    ∧ ((∀ y ∈ x.members, y.got = true) → x.refused ≠ 0 → m.desc.kind ≠ 3 ∨ m.rank = 0 →
      exec e s = .next (s.updCmd core c.id fun c => { c with stage := 4, code := 2, count := x.refused }).tick))
  ∧ (∀ (s : State) (core idx : Nat) (c : Cmd), (s.core core).cmds[idx]? = some c →
    s.engHeld core c.ctx c.path c.id = false → c.stage = 0 →
    let e : Instr := .sourceEntryRequest core idx
    let fits := ∀ a, c.word = some a → a.2 + 4 ≤ 2 ^ 23
    (∀ n a, c.kind = .subx n → c.word = some a → 2 ^ 23 < a.2 + 4 →
      exec e s = .next (s.cmdWordless core c 0x13).tick)
    ∧ (∀ n, (c.kind = .subx n ∧ fits) ∨ c.kind = .subf n →
      ((s.core core).land? n = none ∨ ∃ l, (s.core core).land? n = some l ∧ l.st = .binding) →
      exec e s = .next (s.cmdEnds core c.id 0x13 0).tick)
    ∧ (∀ n l, c.kind = .subf n → (s.core core).land? n = some l → l.st = .lapsed →
      exec e s = .next (s.cmdEnds core c.id 0x14 0).tick)
    ∧ (∀ n l, c.kind = .subx n → fits → (s.core core).land? n = some l → l.st = .lapsed →
      exec e s = .next (((s.lastUpdates (core, n)).freeLand core n).cmdEnds core c.id 1 0).tick)
    ∧ (∀ n l ent, c.kind = .subf n → (s.core core).land? n = some l → l.st ≠ .lapsed → l.st ≠ .binding →
      s.srcOf core l = some ent →
      let u := s.flushEntry l.b.score ent
      exec e s = .next (u.cmdWaits core c (u.updsTo core n) 0).tick)
    ∧ (∀ n l ent, c.kind = .subx n → fits → (s.core core).land? n = some l → l.st ≠ .lapsed → l.st ≠ .binding →
      s.srcOf core l = some ent →
      let u := (s.flushEntry l.b.score ent).dropSub (core, n)
      exec e s = .next (u.cmdWaits core c (u.updsTo core n) 0).tick)
    ∧ ∀ n desc s2 bs p r ent, c.kind = .subs false n desc →
      (s.updCmd core c.id fun x => { x with seen := 0 }).engRead (c.who core) .A desc 32 = (s2, .ok bs p) →
      let cw := recW bs 16
      let u := s2.updCmd core c.id fun x => { x with word := some (.A, cw), p := x.p || p }
      cw % 4 = 0 → cw + 4 ≤ 2 ^ 23 → SubRec.parse bs = some r → u.subsOk core c.lid n false r = true →
      u.entryFor c.lid r = some ent →
      exec e s = .next (((u.bindSub core c false n ent r).cmdEnds core c.id 1 0).updCmd core c.id fun x =>
        if x.stage = 0 then x else { x with got := [] }).tick)
  ∧ (∀ (s : State) (core entry line : Nat) (e : SrcEnt) (runs : List Run),
    (s.core core).srcs[entry]? = some e → kfind e.open_ line = some runs →
    exec (.batchWindowExpiry core entry line) s = .next ((s.updCore core fun c =>
      { c with srcs := c.srcs.set entry { e with open_ := kdel e.open_ line } }).forwardLine core e.lid entry line runs
        fun _ => true).tick)
  ∧ (∀ (s : State) (core idx : Nat) (u : Upd) (flit : Bool), (s.core core).upds[idx]? = some u →
    (∀ x ∈ (s.core core).upds.take idx, ¬ (x.src = u.src ∧ x.n = u.n)) →
    let takes := fun (l : LandEnt) => l.lid = u.lid
      ∧ ((l.st ≠ .lapsed ∧ l.b.bid = u.bid) ∨ (l.sync.map Binding.bid) = some u.bid)
    ((s.core core).land? u.n = none → exec (.updateArrival core ⟨idx, flit⟩) s = .next (s.updRefused core u false).tick)
    ∧ (∀ l, (s.core core).land? u.n = some l → ¬ takes l →
      exec (.updateArrival core ⟨idx, flit⟩) s = .next (s.updRefused core u false).tick)
    ∧ (∀ l, (s.core core).land? u.n = some l → takes l →
      exec (.updateArrival core ⟨idx, flit⟩) s = .next (s.updApply core u flit).tick)
    ∧ (s.updRefused core u false).mem = s.mem)
  ∧ (∀ (s : State) (i rank other : Nat) (c : Coll), s.colls[i]? = some c →
    (rank ≠ other → exec (.contributionArrival i rank other) s = .next { s.tick with colls := s.colls.set i (c.merge rank other) })
    ∧ exec (.contributionArrival i rank rank) s = .next (s.remoteMember c rank).tick
    ∧ (∀ m id x desc, c.rank? rank = some m → m.cmd = some id → m.got = false → c.members.length ≠ m.table.length →
      (s.now < m.until_ → exec (.collectiveBoundExpiry i rank) s = .next s.tick)
      ∧ (m.until_ ≤ s.now → s.cmd? m.core id = some x → x.kind = .coll desc →
      exec (.collectiveBoundExpiry i rank) s = .next ((s.updCmd m.core id fun x => { x with
        stage := 4, code := 3, count := c.members.length
        after := [⟨.A, desc + 0x38, leBytes 4 (statWord m.sat m.nan m.uf), x.p, false, false⟩] }).collGot m.core id).tick))
    ∧ (∀ m flit, c.rank? rank = some m → m.got = false → c.members.length = m.table.length → m.cmd = none →
      let c2 := if m.desc.mode = 0 && m.desc.op = 0 && m.desc.kind < 2 then c.settle else c
      let peer := m.table.getD rank 0
      let link := if m.dsp = .A then s.coreLink peer m.daddr else s.linkOf m.daddr
      (link = none → exec (.collectiveDelivery i ⟨rank, flit⟩) s =
        .next { s.tick with colls := s.colls.set i (c2.farGot rank true) })
      ∧ (∀ n, link = some n → s.link n ≠ .trained →
        exec (.collectiveDelivery i ⟨rank, flit⟩) s = .next { s.tick with colls := s.colls.set i c2 })
      ∧ ∀ n, link = some n → s.link n = .trained → ∃ u refused,
        exec (.collectiveDelivery i ⟨rank, flit⟩) s = .next u ∧ u.mem = s.mem
          ∧ u.colls = s.colls.set i (c2.farGot rank refused)
          ∧ u.dev.outbox = s.dev.outbox ++ (m.desc.writes (c2.result m.desc) (2 ≤ m.desc.wire)).map fun w =>
            ⟨link, c.ctx, w.addr, w.data, w.p, none, if m.dsp = .A then some peer else none⟩)
    ∧ (∀ m : Member, m.desc.kind < 2 → c.stat m = statWord m.sat m.nan m.uf)
    ∧ ∀ m id x desc flit, c.rank? rank = some m → m.cmd = some id → s.cmd? m.core id = some x → x.kind = .coll desc →
      x.stage = 1 → m.got = false → c.members.length = m.table.length → s.engHeld m.core x.ctx x.path x.id = false →
      let c2 := if m.desc.mode = 0 && m.desc.op = 0 && m.desc.kind < 2 then c.settle else c
      exec (.collectiveDelivery i ⟨rank, flit⟩) s = .next (({ s with colls := s.colls.set i c2 } : State).updCmd m.core x.id fun y =>
        { y with
          stage := 2
          writes := (m.desc.writes (c2.result m.desc) (x.p || (2 ≤ m.desc.wire))).map fun w => { w with poison := flit }
          after := [⟨.A, desc + 0x38, leBytes 4 (c2.stat m), y.p, false, false⟩] }).tick)

/-! ### The matrix engine -/

/-- R363, R364, R372, R373, R374, R386: MZERO clears a tile's elements, POISON, HELD and staged record, with the P of the
path in every row; MCFG selects the mode, clears counters, m, l and HELD; MOL stages a record; MSTAT gives every thread one
snapshot of the tile, and `.CLR` clears its counters. Each waits, with its whole path, while a round stands before it or a drain has
writes to make, and while the engine's
stream is frozen or a FENCEX holds it. What waits behind a round is the model's reading (log entry 25). -/
def Obligations.TileCommands : Prop :=
  ∀ (s : State) (g : Group) (c : BitVec 2), kfind s.groups s.cur.gid = some g →
    let k := g.core
    let t := (s.core k).tile c.toNat
    (∀ i, i = .mzero c ∨ (∃ a m, i = .mcfg a c m) ∨ (∃ a, i = .mol a c) ∨ (∃ d r, i = .mstat d c r) → s.Issues i g →
      popNames i = [] → (s.roundDue k = true ∨ s.engHeld k g.ctx .G s.nextId = true) →
      exec i s = .next (s.stayAll s.cur.path).finish)
    ∧ (s.roundDue k = false → s.engHeld k g.ctx .G s.nextId = false →
      (s.Issues (.mzero c) g → t.due = false →
        exec (.mzero c) s = .next (s.updTile k c.toNat fun _ => { t with
          rows := [], rowP := List.replicate 64 (g.ambientAny s.cur.mask), poison := false, held := false, outlier := none
          m := if t.smx = none then t.m else List.replicate 64 0xFF800000#32
          l := if t.smx = none then t.l else List.replicate 64 0#32 }).finish)
      ∧ (∀ a m s1 v, s.Issues (.mcfg a c m) g → popNames (.mcfg a c m) = [] →
        s.readOps s.cur.gid (s.cur.mask.headD 0) (operands (.mcfg a c m)) Vals.zero = (s1, .ok v) → s1.cg = g →
        let no := v.a.lo.toNat
        let bad := m.toNat % 4 = 1 ∧ (no % 16 ≠ 0 ∨ no < 16 ∨ 512 < no)
        (bad → exec (.mcfg a c m) s = .next (s1.trapAll s1.cur.mask 0x01 0).finish)
        ∧ (¬ bad → ((s1.core k).tile c.toNat).smx = none →
          exec (.mcfg a c m) s = .next (s1.updTile k c.toNat fun t => { t with
            smx := if m.toNat % 4 = 1 then some (m.toNat / 4, no) else none
            m := List.replicate 64 0xFF800000#32, l := List.replicate 64 0#32, held := false, nanblk := 0, ufblk := 0 }).finish))
      ∧ (∀ a s1 v, s.Issues (.mol a c) g → popNames (.mol a c) = [] →
        s.readOps s.cur.gid (s.cur.mask.headD 0) (operands (.mol a c)) Vals.zero = (s1, .ok v) → s1.cg = g →
        exec (.mol a c) s = .next (s1.updTile k c.toNat fun t => { t with outlier := some v.a.lo.toNat }).finish)
      ∧ ∀ d r, s.Issues (.mstat d c r) g → d.toNat < 112 ∨ d = 120#7 →
        let w := (if t.poison then 2 ^ 31 else 0) + (if t.smx.isSome then 2 ^ 30 else 0) + (if t.held then 2 ^ 29 else 0)
          + t.nanblk * 2 ^ 12 + t.ufblk
        let u := (s.turns (.mstat d c r)).foldl (fun v x => if d = 120#7 then v
          else v.writeDst v.cur.gid x.1 (.reg d.toNat false) (BitVec.ofNat 64 w) (v.ambient x.2) (some 2)) s
        exec (.mstat d c r) s = .next (if r = 1#1 then
          u.updTile u.cg.core c.toNat fun t => { t with nanblk := 0, ufblk := 0 } else u).finish)

/-- R370, R387, R366: GATH fills a latch whole from 64 rows, with the OR of every P read and of the path, and a fault leaves
the latch as it was and is recorded against the active threads; CVTB reads 32 words for each thread, encodes one block, and
writes codes and scale as proposals; an address that its size does not divide traps ALIGN. What waits behind a round is the
model's reading (log entry 25). -/
def Obligations.GathersAndBlocks : Prop :=
  (∀ (s s1 : State) (g : Group) (d a b c : Code) (lat : BitVec 1) (fa : BitVec 4) (mx : BitVec 1) (m : BitVec 2)
    (v : Vals) (ix : List Reg), let i : Instr := .gath d a b c lat fa mx m
    s.Issues i g → popNames i = [] → s.roundDue g.core = false → s.engHeld g.core g.ctx .G s.nextId = false →
    (List.range 64).map (s.indexReg c.toNat) = ix.map some →
    s.readOps s.cur.gid (s.cur.mask.headD 0) ((operands i).filter fun o => o.fld ≠ .C) Vals.zero = (s1, .ok v) →
    let spc : Spc := if m.toNat % 2 = 1 then .W else .A
    let w := s1.matrixWho s.cur.gid
    let row := fun (s : State) (n : Nat) => if m.toNat / 2 = 1 then s.tensorRow w spc fa.toNat v.a.lo.toNat n
      else s.plainRow w spc fa.toNat v.a.lo.toNat v.b.lo.toNat v.d.lo.toNat (mx = 1#1) n
    (∀ s2 rs, s1.latchRows row (ix.map fun r => r.v.toNat) = (s2, .ok rs) →
      let l : Latch := ⟨rs.map LRow.bytes, rs.map LRow.scales, rowBytes fa.toNat, mx = 1#1,
        rs.any LRow.p || ix.any Reg.p || v.p || s2.cg.ambientAny s2.cur.mask, rs.any LRow.poison⟩
      exec i s = .next ((s2.matrixEnd w).updCore s2.cg.core fun k => { k with latches := k.latches.set lat.toNat l }).finish)
    ∧ ∀ s2 code addr, s1.latchRows row (ix.map fun r => r.v.toNat) = (s2, .error (.fault code addr)) →
      exec i s = .next (((s2.matrixEnd w).updGrp s.cur.gid fun g =>
        { g with deferred := g.deferred ++ [⟨s2.cur.mask, code, addr, none⟩] })).finish)
  ∧ ∀ (s : State) (g : Group) (d a c : Code) (fa : BitVec 4), let i : Instr := .cvtb d a c fa
    s.Issues i g → popNames i = [] →
    ∃ T : State → Nat × List Nat → State, exec i s = .next ((s.turns i).foldl T s).finish
      ∧ ∀ s1 s2 t tt v, s1.readOps s1.cur.gid t (operands i) Vals.zero = (s2, .ok v) →
        let src := v.a.lo.toNat
        let dst := v.d.lo.toNat
        let n := if fa = 10#4 then 32 else 16
        (src % 4 ≠ 0 → T s1 (t, tt) = s2.trapAll tt 0x08 src)
        ∧ (src % 4 = 0 → dst % n ≠ 0 → T s1 (t, tt) = s2.trapAll tt 0x08 dst)
        ∧ ∀ s3 s4 s5 bs kd kc r1 r2, src % 4 = 0 → dst % n = 0 →
          s2.threadReads (s2.who s2.cur.gid t) (chunks src 128) = (s3, .ok bs) → s3.cg.ctl.rm ≠ 4 →
          let x := mxEncode fa.toNat s3.cg.ctl.rm (List.replicate 32 0) (unpack 0x8 32 bs)
          let codes := pack fa.toNat x.codes
          let fl := x.flags ||| (if x.isNan then 16 else 0) ||| (if x.isUf then 2 else 0)
          let s6 := s3.raiseFlags fl
          let w := s6.who s2.cur.gid t
          (fl &&& s3.cg.ctl.ten ≠ 0 → T s1 (t, tt) = s6.trapAll tt 0x0F 0)
          ∧ (fl &&& s3.cg.ctl.ten = 0 → s6.reach w (Acc.write .A dst codes.length false) = (s4, .ok kd r1) →
            s4.reach w (Acc.write .A v.c.lo.toNat 1 false) = (s5, .ok kc r2) →
            (T s1 (t, tt)).mem = ((s5.put w (Acc.write .A dst codes.length false) kd codes true false true).put w
              (Acc.write .A v.c.lo.toNat 1 false) kc [BitVec.ofNat 8 x.x] true false true).mem)

/-- R318, R365, R371, R375: MMA, MMAS.S and MMAS.V sign their huddle once for each active thread with the operands N, B,
pitch and scale base, the group's NBV and the P of the operands, as a release at core scope; the threads go on; they wait to issue
behind a full round. A full round whose signatures are one instruction runs in the place of its last signer, on a SOFTMAX tile as on
any, and ends COMPLETE; one that faults records the fault against every signer and ends MISMATCH; and one whose signatures disagree
performs no operation, ends MISMATCH, and gives every signer HUDDLE. What waits behind a round, and that a round is one step, are the model's
readings (log entry 25). -/
def Obligations.MatrixRounds : Prop :=
  (∀ (s s1 : State) (g : Group) (i : Instr) (h kind : Nat) (v : Vals),
    ((∃ d a b c hh tile lat fa fb mx m, i = .mma d a b c hh tile lat fa fb mx m ∧ h = hh.toNat ∧ kind = 1)
      ∨ (∃ d a b c hh tile lat fa fb mx lr, i = .mmasS d a b c hh tile lat fa fb mx lr ∧ h = hh.toNat ∧ kind = 2)
      ∨ ∃ d a b c hh tile fa fb mx lr, i = .mmasV d a b c hh tile fa fb mx lr ∧ h = hh.toNat ∧ kind = 2) →
    s.Issues i g → popNames i = [] → s.roundDue g.core = false → s.engHeld g.core g.ctx .G s.nextId = false →
    s.readOps s.cur.gid (s.cur.mask.headD 0) (operands i) Vals.zero = (s1, .ok v) →
    (s1.roundFull h = true → exec i s = .next (s1.stayAll s1.cur.path).finish)
    ∧ (s1.roundFull h = false → ∃ T : State → Nat → State, exec i s = .next (s1.cur.mask.foldl T s1).finish
      ∧ ∀ u t, u.syncReady (u.who u.cur.gid t) = .go → u.cg.ctl.nbv = s1.cg.ctl.nbv →
        let k := u.cg.core
        let hd := (u.core k).huddle h
        let sig : Sig := ⟨u.cur.gid, u.cg.uid, t, kind, u.cur.w, u.cur.u, u.cur.lits,
          [v.d.lo.toNat, v.a.lo.toNat, v.b.lo.toNat, v.c.lo.toNat, u.cg.ctl.nbv.n % 4, if v.p then 1 else 0], u.cg.ambient t,
          u.nextId⟩
        (hd.count = 0 ∨ hd.owner ≠ some u.cg.lid → T u t = u.trap t 0x10 0)
        ∧ (hd.owner = some u.cg.lid → hd.signed < hd.count →
          T u t = (u.updHuddle k h fun y => { y with signed := y.signed + 1, sigs := y.sigs ++ [sig] }).closeIv
            (u.agent u.cur.gid t) 3)))
  ∧ ∀ (s s2 : State) (core h : Nat) (a z : Sig), let hd := (s.core core).huddle h
    hd.sigs.head? = some a → hd.sigs.getLast? = some z → 0 < hd.count → hd.signed = hd.count → a.kind = 1 ∨ a.kind = 2 →
    (∀ x ∈ hd.sigs, s.undrained (s.agent x.gid x.tix) = false) → s.engHeld core (s.grp z.gid).ctx .G z.id = false →
    let same := fun (x : Sig) => x.kind = a.kind ∧ x.w = a.w ∧ x.u = a.u ∧ x.lits = a.lits
    let fails := fun (x : Huddle) => { x with signed := 0, sigs := [], last := 2, gen := (x.gen + 1) % 4 }
    let w : Who := ⟨⟨.G, core, z.gid, s.nextId⟩, core, hd.owner.getD 0, (s.grp z.gid).ctx⟩
    let o := mopOf z.w z.u
    let n := fun (j : Nat) => z.vals.getD j 0
    let u := s.updHuddle core h fails
    ((∃ x ∈ hd.sigs, ¬ same x) → exec (.huddleRoundComplete core h) s = .next ((u.signers hd.sigs).foldl (fun v x =>
      if x.kind = 0 ∨ x.kind = 3 then v.release x h (some (0x10, 0))
      else v.updGrp x.gid fun g => { g with deferred := g.deferred ++ [⟨[x.tix], 0x10, 0, none⟩] }) u).tick)
    ∧ ((∀ x ∈ hd.sigs, same x) → ((s.core core).tile o.tile).due = false → (s.core core).draining = false →
    (∀ cs N, ((s.core core).tile o.tile).smx = some (cs, N) → o.form ≠ 0 → ((s.core core).tile cs).due = false) →
    (s.mmaRound w o (n 0) (n 1) (n 2) (n 3) (n 4) (n 5 = 1 || hd.sigs.any Sig.p) = (s2, .ok ()) →
      exec (.huddleRoundComplete core h) s = .next ((s2.matrixEnd w).updHuddle core h fun x =>
        { x with signed := 0, sigs := [], last := 1, gen := (x.gen + 1) % 4 }).tick)
    ∧ ∀ code addr,
      s.mmaRound w o (n 0) (n 1) (n 2) (n 3) (n 4) (n 5 = 1 || hd.sigs.any Sig.p) = (s2, .error (.fault code addr)) →
      let s3 := (s2.matrixEnd w).updHuddle core h fails
      exec (.huddleRoundComplete core h) s = .next ((s3.signers hd.sigs).foldl (fun v x => v.updGrp x.gid fun g =>
        { g with deferred := g.deferred ++ [⟨[x.tix], code, addr, none⟩] }) s3).tick)

/-- R371, R214, R216, R217: what an operation leaves in its tile. Element (r, n) of the first N columns is the sum of its
64 products and its old value, an exact sum rounded once under NBV 2, or 0 under `.Z` in place of the old value; the
columns from N on stand; each row's P is the OR of the operands' and, without `.Z`, its own; POISON is kept. -/
def Obligations.Accumulation : Prop :=
  ∀ (t : Tile) (nbv fa n : Nat) (z : Bool) (a b : List (List MEl)) (o : Outliers) (aP : Nat → Bool) (p poison : Bool),
    fa ≠ 9 → n ≤ 512 →
    let u := t.accumulate nbv fa n z a b o aP p poison
    (∀ r c, r < 64 → c < n → u.at_ r c =
      dotElem nbv fp32 (fa = 8) (pairsAt (a.getD r []) b o r c) (if z then 0 else t.at_ r c) % 2 ^ 32)
    ∧ (∀ r c, r < 64 → n ≤ c → u.at_ r c = t.at_ r c)
    ∧ (∀ r, r < 64 → u.rowP.getD r false = (aP r || p || (!z && t.rowP.getD r false)))
    ∧ u.poison = (t.poison || poison) ∧ u.outlier = none ∧ u.due = true ∧ u.m = t.m ∧ u.l = t.l ∧ u.smx = t.smx
    ∧ u.held = t.held
    ∧ (∀ ps old, nbv ≠ 1 → dotElem nbv fp32 false ps old =
      fp32.ne (exactSum ((ps.map fun q => q.1.mul nbv q.2) ++ [fp32.value old])))
    ∧ ∀ q ps old, dotElem nbv fp32 true (q :: ps) old =
      dotElem nbv fp32 true ps (fp32.ne (fvFma 0 q.1.value q.2.value (fp32.value old)).1)

/-- R377, R378, R329, R364, R234, R235: MDRN is a command per issuing thread: it traps ALIGN at a descriptor that is no multiple
of 64 and at a completion word that is no multiple of 4; it waits while another drain of the core has writes to make; it takes what it writes from the tile where it issues, counts NaN
and underflow blocks, and waits for the tile's check; a bad descriptor ends it 0x13 and a poisoned tile 0x10. A check that
passes lets the tile's drains go on. That a drain takes its data where it issues, and what waits behind a round, are the
model's (log entries 17 and 25). -/
def Obligations.Drains : Prop :=
  (∀ (s : State) (g : Group) (a c : Code) (tile : BitVec 2) (m : BitVec 4), let i : Instr := .mdrn a c tile m
    s.Issues i g → popNames i = [] → s.roundDue g.core = false → s.engHeld g.core g.ctx .G s.nextId = false →
    ∃ T : State → Nat × List Nat → State, exec i s = .next ((s.turns i).foldl T s).finish
      ∧ ∀ s1 s2 t tt v, s1.readOps s1.cur.gid t (operands i) Vals.zero = (s2, .ok v) →
        let k := s2.cg.core
        let desc := v.a.lo.toNat
        let p := v.p || s2.ambient tt
        let x := s2.cmdOf t ⟨[], .G, .mdrn tile.toNat, some (.global, v.c.toNat), none⟩ none p
        let c := { x with waits := if ((s2.core k).tile tile.toNat).due then [x.id] else [] }
        (desc % 64 ≠ 0 → T s1 (t, tt) = s2.trapAll tt 0x08 desc)
        ∧ (desc % 64 = 0 → v.c.toNat % 4 ≠ 0 → T s1 (t, tt) = s2.trapAll tt 0x08 v.c.toNat)
        ∧ (desc % 64 = 0 → v.c.toNat % 4 = 0 → (s2.core k).draining = true → T s1 (t, tt) = s2.stayAll tt)
        ∧ (desc % 64 = 0 → v.c.toNat % 4 = 0 → (s2.core k).draining = false →
          ∀ s3 dp r, s2.drainDesc (c.who k) desc = (s3, dp, r) → let e := { c with p := p || dp }
          (∀ n, r = .error (.code n) → T s1 (t, tt) = s3.issueCmd tt { e with stage := 3, code := n })
          ∧ ∀ bs, r = .ok bs →
            (∀ s4 n, s3.drainPlan (c.who k) tile.toNat m.toNat bs dp p = (s4, .error (.code n)) →
              T s1 (t, tt) = s4.issueCmd tt { e with stage := 3, code := n })
            ∧ ∀ s4 ws after nan uf, s3.drainPlan (c.who k) tile.toNat m.toNat bs dp p = (s4, .ok (ws, after, nan, uf)) →
              T s1 (t, tt) = (s4.updTile k tile.toNat fun y =>
                { y with nanblk := min (y.nanblk + nan) 0xFFF, ufblk := min (y.ufblk + uf) 0xFFF }).issueCmd tt
                { e with stage := 2, writes := ws, after := after }))
  ∧ (∀ (s s2 s3 : State) (w : Who) (desc : Nat) (b b' : List Byte) (p p' : Bool),
    s.engRead w .A desc 32 = (s2, .ok b p) → s2.engRead w .A (desc + 32) 32 = (s3, .ok b' p') →
    s.drainDesc w desc = (s3, p || p', .ok (b ++ b')))
  ∧ (∀ (s : State) (w : Who) (tile m : Nat) (bs : List Byte) (dp p : Bool),
    let d := Drain.read m bs
    let t := (s.core w.core).tile tile
    ((d.ok bs t.smx.isSome && d.fits) = false → s.drainPlan w tile m bs dp p = (s, .error (.code 0x13)))
    ∧ ((d.ok bs t.smx.isSome && d.fits) = true → t.poison = true → s.drainPlan w tile m bs dp p = (s, .error (.code 0x10))))
  ∧ ∀ (s : State) (core tile written : Nat), ((s.core core).tile tile).due = true →
    ∃ u, exec (.matrixCheck core tile true written) s = .next u ∧ u.mem = s.mem ∧ u.groups = s.groups
      ∧ ((kfind s.cores core).isSome = true → tile < (s.core core).tiles.length → ((u.core core).tile tile).due = false
        ∧ ∀ c ∈ (u.core core).cmds, c.kind = .mdrn tile →
          (∀ x ∈ (s.core core).cmds, ∀ y ∈ (s.core core).cmds, x.id = y.id → x = y) → c.waits = [])

/-! ### Spawns and launches -/

/-- R288, R93, R289, R86, R76: SPAWN puts each active thread into the bin of its entry, in ascending order, and stays from
the first that finds no room on; LAUNCH reads a record of 256 bytes, traps ALIGN at an address that is no multiple of 256,
waits where the device pool holds 32, holds its threads at a closed granule, freezes its group on a malformed record, and else
adds it to the pool; both close the threads' regions. A thread that finds no room issues again (log entry 18). -/
def Obligations.SpawnsAndLaunches : Prop :=
  (∀ (s : State) (g : Group) (c a b : BitVec 7), let i : Instr := .spawn c a b
    s.Issues i g → popNames i = [] →
    ∃ T : State → Nat × List Nat → State, exec i s = .next ((s.turns i).foldl (fun u x =>
        if u.sweep.stays.isEmpty then T u x else u.stayAll x.2) s).finish
      ∧ ∀ s1 s2 t tt v rs, s1.readOps s1.cur.gid t (operands i) Vals.zero = (s2, .ok v) →
        ((List.range c.toNat).map fun k => s2.cg.source s2.free t (b.toNat + k)) = rs.map some →
        let entry := v.a.toNat
        let h := s2.cg
        let bin : Bin := ⟨h.lid, h.ctx, entry, [], s2.now, h.role, h.regs, h.eclass, h.kind = .message, false, false⟩
        (entry = 0 ∨ entry % 4 ≠ 0 → T s1 (t, tt) = s2.trapAll tt 0x01 0)
        ∧ (entry ≠ 0 → entry % 4 = 0 →
          ((s2.core h.core).binFor h.lid entry = none → T s1 (t, tt) = s2.stayAll tt)
          ∧ ∀ k, (s2.core h.core).binFor h.lid entry = some k →
            T s1 (t, tt) = (s2.updCore h.core fun y => y.enterBin k bin rs).closeRegions tt))
  ∧ ∀ (s : State) (g : Group) (a : BitVec 7), let i : Instr := .launch a
    s.Issues i g → popNames i = [] →
    ∃ T : State → Nat × List Nat → State, exec i s = .next ((s.turns i).foldl T s).finish
      ∧ ∀ s1 s2 t tt v, s1.readOps s1.cur.gid t (operands i) Vals.zero = (s2, .ok v) →
        let va := v.a.toNat
        (va % 256 ≠ 0 → T s1 (t, tt) = s2.trapAll tt 0x08 va)
        ∧ (va % 256 = 0 → 32 ≤ (s2.pool s2.cg.ctx).length → T s1 (t, tt) = s2.stayAll tt)
        ∧ (∀ s3 a, va % 256 = 0 → (s2.pool s2.cg.ctx).length < 32 →
          s2.recordLoad (s2.who s2.cur.gid t) (chunks va 256) = (s3, .error (.closed, a)) →
          T s1 (t, tt) = s3.holdAll tt true false)
        ∧ ∀ s3 bs, va % 256 = 0 → (s2.pool s2.cg.ctx).length < 32 →
          s2.recordLoad (s2.who s2.cur.gid t) (chunks va 256) = (s3, .ok bs) →
          (recordOk bs = false → T s1 (t, tt) = s3.violAll tt 0x20 va)
          ∧ (recordOk bs = true → ∃ l : Launch, T s1 (t, tt) =
              ({ s3 with launches := s3.launches ++ [l], nextId := s3.nextId + 1 }).closeRegions tt
            ∧ l.lid = s3.nextId ∧ l.ctx = s2.cg.ctx ∧ l.queue = 64 ∧ l.started = false ∧ l.malformed = false
            ∧ l.f = LFields.parse bs ∧ l.addr = va)

/-- R93, R94, R95, R51, R52, R78, R107: the events of bins and of a group's end. A bin whose timer has reached BINT, of which 0 acts
as 1, and which is 0x200 while its space is not open, is due; a full or due bin places one group whose first threads hold their argument registers and zeros, and
one of messages takes its role, registers and energy class from the active-message record as it stands then; a message from
another device joins the inbound queue that has room for it, and else waits behind those before it until there is room, and one at a
link that is not trained does not arrive; the head of
a core's queue enters the bin of its entry; a tracker entry frees once nothing of its group is outstanding. Timers are counted in
steps (log entry 1), and a spawned bin's role is that of its first thread (log entry 67). -/
def Obligations.BinsAndRetirement : Prop :=
  ∀ (s : State) (core n : Nat),
    (∀ b bint, (s.core core).bins[n]? = some b →
      ((∃ p, (s.core core).space? b.lid = some p ∧ bint = p.bint.n) ∨ (s.core core).space? b.lid = none ∧ bint = 0x200) →
      (b.since + max bint 1 ≤ s.now → exec (.binTimerExpiry core n) s = .next (s.updCore core fun c =>
        { c with bins := c.bins.set n { b with due := true } }).tick)
      ∧ (s.now < b.since + max bint 1 → exec (.binTimerExpiry core n) s = .next s.tick))
    ∧ (∀ e b lix, (s.core core).bins[n]? = some e → let a := (s.core core).amRec e.ctx
      b = (if e.record then { e with role := a.role, regs := a.regs, eclass := a.eclass } else e) → (s.core core).scan = false →
      (b.message = true ∨ s.spaceOk core b.lid = true) → (b.threads.length = 16 ∨ b.due = true) →
      s.binLane core b.regs = some lix →
      let gid := gidOf core lix ((s.freeHomes core lix).headD 0)
      ∃ u h, exec (.binLaunch core n) s = .next u ∧ kfind u.groups gid = some h ∧ h.lid = b.lid ∧ h.ctx = b.ctx
        ∧ h.kind = (if b.message then .message else .spawned) ∧ h.role = b.role ∧ h.regs = b.regs ∧ h.entry = b.entry
        ∧ u.mem = s.mem
        ∧ (∀ t rs, t < 16 → b.threads[t]? = some rs → (h.thr t).life = .live ∧ (h.thr t).pos = ⟨b.entry, 0⟩
          ∧ (h.thr t).x = (rs ++ List.replicate 80 Reg.zero).take 80)
        ∧ ∀ t, t < 16 → b.threads.length ≤ t → (h.thr t).life = .inactive)
    ∧ (∀ b, (s.core core).bins[n]? = some b → b.threads.length < 16 → b.due = false →
      exec (.binLaunch core n) s = .next s.tick)
    ∧ (∀ m ms k, (∀ e ∈ s.dev.linkIn, s.lateFor core e = false) → (s.core core).inq = m :: ms → (s.core core).binFor (messageLid m.ctx) m.entry = some k →
      let a := (s.core core).amRec m.ctx
      exec (.activeMessageArrival (.binned core)) s = .next (s.updCore core fun c => { c.enterBin k
        ⟨messageLid m.ctx, m.ctx, m.entry, [], s.now, a.role, a.regs, a.eclass, true, true, false⟩ m.regs with inq := ms }).tick)
    ∧ (∀ (l : Nat) (m : InMsg), let e : Nat × Instr := (l, .activeMessageArrival (.far m))
      s.dev.linkIn.find? (s.lateFor core) = some e → (s.phys m.core).isSome = true → s.coreCtx m.core = some m.ctx →
      let u := (s.updDev fun d => { d with linkIn := d.linkIn.erase e }).updCore m.core fun c =>
        { c with inq := c.inq ++ [⟨m.ctx, m.entry, m.words.map fun w => ⟨w.1, w.2⟩, m.reply⟩] }
      (∀ x ∈ u.dev.linkIn, u.lateFor core x = false) →
      exec (.activeMessageArrival (.binned core)) s = exec (.activeMessageArrival (.binned core)) u)
    ∧ (∀ m : InMsg, (s.link m.link = .untrained ∨ s.link m.link = .fenced →
        exec (.activeMessageArrival (.far m)) s = .next s.tick)
      ∧ (s.link m.link = .retraining ∨ s.link m.link = .frozen → exec (.activeMessageArrival (.far m)) s =
        .next (s.updDev fun d => { d with linkIn := d.linkIn ++ [(m.link, .activeMessageArrival (.far m))] }).tick))
    ∧ (∀ m : InMsg, s.link m.link = .trained → (s.phys m.core).isSome = true → s.coreCtx m.core = some m.ctx →
      let e : Nat × Instr := (m.link, .activeMessageArrival (.far m))
      let behind := ∃ x ∈ s.dev.linkIn, ∃ y, x.2 = .activeMessageArrival (.far y) ∧ y.core = m.core ∧ y.reply = m.reply
      ((s.core m.core).roomFor m.reply = true → ¬ behind → exec (.activeMessageArrival (.far m)) s = .next (s.updCore m.core fun c =>
        { c with inq := c.inq ++ [⟨m.ctx, m.entry, m.words.map fun w => ⟨w.1, w.2⟩, m.reply⟩] }).tick)
      ∧ ((s.core m.core).roomFor m.reply = false ∨ behind →
        exec (.activeMessageArrival (.far m)) s = .next (s.updDev fun d => { d with linkIn := d.linkIn ++ [e] }).tick))
    ∧ ∀ t, (s.core core).tracker[n]? = some t →
      (s.drained core t = false → exec (.groupRetire core n) s = .next s.tick)
      ∧ (s.drained core t = true →
        let u := (s.updCore core fun c => { c with tracker := c.tracker.eraseIdx n }).dropIvs fun a =>
          a.path = .T && a.gid / 2 ^ 21 = t.uid + 1
        ((u.groups.filter fun e => e.2.core = core && e.2.liveTids.isEmpty) = [] →
          exec (.groupRetire core n) s = .next ((u.settleSpace core t.lid).completions).tick))

/-! ### The scheduler -/

/-- R70, R76, R85, R89, R101 to R103, R105, R106, R109, R110: the scheduler's events. A record is staged from HEAD, and a
malformed one freezes its queue with 0x20; a marked instance that is restartable is discarded; a held one that is first in
R89's order and whose places are free restarts, unless a block of it is still to be restored; a first touch that waits
claims a block; a watchdog kills its context once the counter reaches the budget, and only then; and a cycle places the
candidates of each bound partition by falling priority, past a held instance that was abandoned meanwhile. A kill is one step (log entry 36), and which restart is an event of
its own is the model's reading (log entry 35). -/
def Obligations.SchedulerEvents : Prop :=
  (∀ (s s2 : State) (part q : Nat) (bs : List Byte) (p : Bool),
    let pt := s.parts.getD part Part.reset
    let x := s.queue part q
    s.dev.safe = false → s.dev.fenced = false → pt.bound = true → pt.drain = false → x.enable = true → x.frozen = false →
    x.stage = none → x.head ≠ x.tail → let va := (x.ringbase + 256 * (x.head % x.ring)) % 2 ^ 64
    s.hwRead (hwWho part q) va 256 = (s2, .ok bs p) →
    let s3 := (s2.updQueue part q fun y => { y with head := (y.head + 1) % 2 ^ 32, stage := some s2.nextId }).addLaunch part q q
      va bs x.priocap
    exec (.recordStage part q) s = .next (if recordOk bs then s3 else s3.freezeQueue part q 0x20 va).tick)
  ∧ (∀ (s : State) (gid : Nat),
    ((s.grp gid).marked.isSome = true → s.restartable (s.instOf gid) = true →
      exec (.discard gid) s = .next (s.discardInst (s.instOf gid)).tick)
    ∧ ((s.grp gid).marked = none → exec (.discard gid) s = .next s.tick))
  ∧ (∀ (s : State) (n : Nat) (h : Held), s.helds[n]? = some h →
    (s.restartDue h = false → exec (.restart n) s = .next s.tick)
    ∧ (s.restartDue h = true → (s.candidates h.ctx).head? = some (.restart h) ∧ s.restartReady h = true)
    ∧ (∀ t, s.restartDue h = true → s.restartHeld h = (t, true) → exec (.restart n) s =
      .next (t.updPart h.ctx fun p => { p with lastq := ((s.launch? h.lid).map Launch.queue).getD 0 }).tick)
    ∧ (∀ t, s.restartDue h = true → s.restartHeld h = (t, false) → exec (.restart n) s = .next t.tick))
  ∧ (∀ (t : HeldThread) (lix tix : Nat), t.life = .live → let x := t.start lix tix
    x.pos = ⟨t.pc, 0⟩ ∧ x.x = t.word :: List.replicate 79 Reg.zero ∧ x.ret = [] ∧ x.taint = []
      ∧ x.region = ⟨true, t.pc, t.word⟩ ∧ x.pr = List.replicate 8 PReg.zero)
  ∧ (∀ (s s2 : State) (core lid blk phys slot : Nat) (r : Moved), (s.core core).want = true →
    (s.core core).freeBlock? = none → s.claimChoice core none = some (lid, blk, phys, slot) →
    s.claim core lid blk slot phys = (s2, r) → r ≠ .waits →
    exec (.blockClaim core slot phys) s = .next (s2.updCore core fun c => { c with want := false }).tick)
  ∧ (∀ (s : State) (part q : Nat), let b := s.budget part q
    (b ≠ 0 → b ≤ (s.queue part q).counter → exec (.watchdogExpiry part q) s = .next (s.kill part).tick)
    ∧ ((b = 0 ∨ (s.queue part q).counter < b) → exec (.watchdogExpiry part q) s = .next s.tick))
  ∧ (∃ F : State → Nat → State,
    (∀ s, exec .schedulerCycle s = .next (((List.range 16).foldl F s).completions.countDogs).tick)
    ∧ ∀ (s : State) (n : Nat), let p := s.parts.getD n Part.reset
      (p.bound = false ∨ p.drain = true ∨ s.dev.safe = true ∨ s.dev.fenced = true → F s n = s)
      ∧ (p.bound = true → p.drain = false → s.dev.safe = false → s.dev.fenced = false →
        let u := (s.installs n).skips n
        F s n = u.placeLoop n (-1) (u.candidates n)))
  ∧ (∀ (s : State) (ctx : Nat), (s.candidates ctx).Pairwise fun a b => s.effPrio b.lid ≤ s.effPrio a.lid)
  ∧ ∀ (s t : State) (ctx : Nat) (b : Int) (c : Cand) (cs : List Cand),
    ((s.effPrio c.lid : Int) < b → s.placeLoop ctx b (c :: cs) = s)
    ∧ (b ≤ (s.effPrio c.lid : Int) → s.barred ctx c = true ∨ s.lapsedCand c = true →
      s.placeLoop ctx b (c :: cs) = s.placeLoop ctx b cs)
    ∧ (b ≤ (s.effPrio c.lid : Int) → s.barred ctx c = false → s.lapsedCand c = false →
      (s.placeCand c = (t, true) → s.placeLoop ctx b (c :: cs) =
        (t.updPart ctx fun p => { p with lastq := ((s.launch? c.lid).map Launch.queue).getD 0 }).placeLoop ctx b cs)
      ∧ (s.placeCand c = (t, false) → t.lapsedCand c = true → s.placeLoop ctx b (c :: cs) = t.placeLoop ctx b cs)
      ∧ (s.placeCand c = (t, false) → t.lapsedCand c = false →
        let u := (if t.fits c then t else t.preempt ctx c).pass c
        s.placeLoop ctx b (c :: cs) = if 64 ≤ u.2 then u.1 else u.1.placeLoop ctx (u.1.effPrio c.lid) cs))

/-! ### The host -/

/-- R5, R66 to R70, R80, R81, R154: the host's events, on a device that enumerates. A doorbell moves TAIL of a bound, open
queue by at most its ring, and else sets OVF; enabling, draining, binding and unbinding write their fields, and a bind takes
no quad of another partition; the freeze controls drop a log entry and resume, with the violating writes of the side log made
again, skip or kill; a register write acts on its
offset, and a read of one gives its word; an access of the host reads or writes present memory, and what is not present
reads zero. What a host access that finds nothing present reads, and that only whole words are written to registers, are the
model's choices (log entries 31 and 59). -/
def Obligations.HostEvents : Prop :=
  (∀ (s : State) (part q : Nat) (v : Word), part < 16 → q < 64 → s.dev.safe = false →
    s.dev.silent = false →
    (s.parts.getD part Part.reset).bound = true →
    let x := s.queue part q
    let ok := (s.parts.getD part Part.reset).drain = false ∧ (v.toNat + 2 ^ 32 - x.head) % 2 ^ 32 ≤ x.ring
      ∧ (v.toNat + 2 ^ 32 - x.tail) % 2 ^ 32 < 2 ^ 31
    (ok → exec (.doorbell part q v) s = .next (s.updQueue part q fun y => { y with tail := v.toNat }).tick
      ∧ exec (.queueTail part q v) s = .next (s.updQueue part q fun y => { y with tail := v.toNat }).tick)
    ∧ (¬ ok → exec (.doorbell part q v) s = .next (s.updQueue part q fun y => { y with ovf := true }).tick
      ∧ exec (.queueTail part q v) s = .next (s.updQueue part q fun y => { y with ovf := true }).tick)
    ∧ ∀ on, exec (.queueEnable part q on) s = .next (s.updQueue part q fun y => { y with enable := on }).tick)
  ∧ (∀ (s : State) (part : Nat), part < 16 → s.dev.silent = false → let p := s.parts.getD part Part.reset
    (∀ on, exec (.drain part on) s = .next (s.updPart part fun p => { p with drain := on }).tick)
    ∧ (let v := s.xlatReads p.xlatReg
      p.bound = false → v.quadTaken part p.quadmask = true ∨ v.readXlat p.xlatReg = none →
      exec (.bind part) s = .next (v.updPart part fun p => { p with binderr := true }).tick)
    ∧ (∀ x, let v := s.xlatReads p.xlatReg
      p.bound = false → v.quadTaken part p.quadmask = false → v.readXlat p.xlatReg = some x →
      ∃ u, exec (.bind part) s = .next u ∧ u.parts = s.parts.set part { p with bound := true, x := some x }
        ∧ u.groups = s.groups ∧ u.queues = s.queues)
    ∧ (p.bound = true → s.isDrained part = true →
      ∃ u, exec (.unbind part) s = .next u ∧ u.parts = s.parts.set part { p with bound := false, x := none }
        ∧ u.tlb = s.tlb.filter (fun t => t.ctx ≠ part) ∧ u.mem = s.mem)
    ∧ (s.isDrained part = false → exec (.unbind part) s = .next s.tick))
  ∧ (∀ (s : State) (n : Nat) (e : Freeze), s.flogAt n = some e → s.dev.silent = false →
    let u := { s with flog := s.flog.filter fun x => x.slot ≠ n }
    let free := fun (f : SideEnt → Bool) (c : Core) =>
      { c with side := c.side.map fun x => if f x then { x with stuck := false } else x }
    (e.master = 1 → ((∀ f ∈ u.flog, f.master = 1 → f.core = e.core → f.unit ≠ e.unit) → exec (.unfreeze n) s =
        .next ((u.updCore e.core (free fun x => x.agent.path = .T && x.agent.gid = 512 * e.core + e.unit)).updGrp
          (512 * e.core + e.unit) fun g => { g with frozen := false }).tick)
      ∧ ((∃ f ∈ u.flog, f.master = 1 ∧ f.core = e.core ∧ f.unit = e.unit) → exec (.unfreeze n) s = .next u.tick))
    ∧ (e.master = 2 → exec (.unfreeze n) s = .next (u.updCore e.core fun c =>
        free (fun x => x.agent.path ≠ .T && x.ctx = e.ctx) { c with engFrozen := c.engFrozen.filter (· ≠ e.ctx) }).tick)
    ∧ (e.master = 3 → exec (.unfreeze n) s = .next (u.recheck e.ctx e.unit).tick
      ∧ exec (.skip n) s = .next (u.skipStage e.ctx e.unit).tick)
    ∧ (e.master ≠ 4 → exec (.kill n) s = .next (s.kill e.ctx).tick)
    ∧ (e.master = 4 → exec (.kill n) s = .next (u.fenceLink e.unit).tick)
    ∧ (e.master = 4 → s.dev.links.getD e.unit .untrained = .frozen → exec (.unfreeze n) s = .next (u.openLink e.unit).tick))
  ∧ (∀ (s : State) (v : Word), s.dev.silent = false →
    exec (.registerWrite 0x10 v) s = .next (s.fctl (v.toNat / 2 ^ 30) (v.toNat % 64)).tick
    ∧ exec (.registerWrite 0x14 v) s = .next (if v.toNat / 2 ^ 31 = 1 then { s with logovf := false } else s).tick
    ∧ (∀ part q, part < 16 → q < 64 → exec (.registerWrite (0x20000 + 0x1000 * part + 4 * q) v) s =
      .next (s.doorbell part q v).tick)
    ∧ (∀ part q, part < 16 → q < 64 → exec (.registerWrite (0x10000 + 0x800 * part + 32 * q + 0x14) v) s =
      .next (s.doorbell part q v).tick)
    ∧ ∀ off, off % 4 ≠ 0 → exec (.registerWrite off v) s = .next s.tick)
  ∧ (∀ (s : State) (cxl : Bool) (off : Nat), s.dev.silent = false → off % 4 = 0 →
    exec (.hostAccess ⟨true, cxl, false, off, 4, []⟩) s =
      .next (s.reply 0 ((List.range 4).map fun i => s.barRead off / 2 ^ (8 * i) % 256)).tick
    ∧ s.barRead 0x10 = 0
    ∧ s.barRead 0x14 = (if s.logovf then 2 ^ 31 else 0) + s.flog.length
    ∧ (∀ slot e, slot < 64 → s.flogAt slot = some e →
      s.barRead (0x2000 + 16 * slot) = e.master * 2 ^ 28 + e.ctx * 2 ^ 24 + e.cause * 2 ^ 16 + e.seq
      ∧ s.barRead (0x2004 + 16 * slot) = e.core * 2 ^ 9 + e.unit
      ∧ s.barRead (0x2008 + 16 * slot) = e.addr % 2 ^ 32 ∧ s.barRead (0x200C + 16 * slot) = e.addr / 2 ^ 32)
    ∧ (∀ slot, slot < 64 → s.flogAt slot = none → s.barRead (0x2000 + 16 * slot) = 0)
    ∧ s.barRead 0xF000 = (if s.dev.safe then 2 ^ 31 else 0) + (if s.dev.ready then 2 ^ 30 else 0) + s.dev.stage * 2 ^ 8
      + s.dev.mail.length)
  ∧ ∀ (s : State) (cxl : Bool) (die a n : Nat) (d : List Byte), die < 4 → a % 32 + n ≤ 32 → 0 < n → a + n ≤ 2 ^ 37 →
    (s.parts.getD 0 Part.reset).bound = false → s.dev.silent = false → s.dev.upsets = [] →
    (∀ k, k < 16 → s.pendingOf k = []) →
    let off := die * 2 ^ 37 + a
    let k := globalKey die a
    (s.paPresent die a = true → d.length = n →
      (∃ u, exec (.hostAccess ⟨false, cxl, true, off, n, d⟩) s = .next u ∧ u.mem = s.mem.store k d false false 0)
      ∧ exec (.hostAccess ⟨false, cxl, false, off, n, []⟩) s = .next (s.reply 0 ((s.mem.read k n).map BitVec.toNat)).tick)
    ∧ (s.paPresent die a = false →
      exec (.hostAccess ⟨false, cxl, false, off, n, []⟩) s = .next (s.reply 0 (List.replicate n 0)).tick)

/-! ### Translation -/

/-- R151, R159, R163 to R170: the events of the memory side. A command of a die's ring runs in its turn and its STATUS is
written 1 where it is done and 2 where it is malformed; a record whose granule is mapped lets it reopen, and one that is
refused ends its held reads; the granule reopens once no side log holds a write for it that may replay; the oldest entry of a
side log that waits for no UNFREEZE, nor for one that does in its line, is replayed; a walk caches a translation or closes a granule; and a request is performed at its owner slice, held by a port
that holds its traffic, or freezes the port of its link where its context is not bound. When cached translations go, and
what a replay does, are the model's readings (log entries 23 and 38). -/
def Obligations.TranslationEvents : Prop :=
  (∀ (s0 : State) (part die : Nat) (c : XCmd) (d : DieX), let s := s0.cmdReads part die
    s.nextCmd part die = some c → s.dieX? part die = some d → c.size ≠ 3 →
    let done := fun (t : State) (v : Nat) => (t.devStore (c.key + 1) [BitVec.ofNat 8 v]).updDie part die fun x =>
      { x with ran := (x.ran + 1) % 2 ^ 32 }
    let t := d.table c.size
    let p := pageLog c.size
    (c.op = 1 → exec (.inval part die) s0 = .next (if c.off % 2 ^ p ≠ 0 then done s 2 else
      done { s with tlb := s.tlb.filter fun e => !(e.ctx = part && e.die = die && (e.size = c.size && e.vpn = c.off / 2 ^ p)) } 1).tick)
    ∧ (c.op = 2 → exec (.invalall part die) s0 =
      .next (done { s with tlb := s.tlb.filter fun e => !(e.ctx = part && e.die = die && true) } 1).tick)
    ∧ (c.op = 3 → t.new_ = none → t.log < c.nlog → c.nlog ≤ 24 → c.addr % 64 = 0 →
      s.present die c.addr (128 * 2 ^ c.nlog) = true →
      exec (.resize part die) s0 = .next (done (s.updDie part die fun x =>
        x.setTable c.size { t with new_ := some (c.addr, c.nlog) }) 1).tick)
    ∧ (c.op = 4 → t.new_ = none → exec (.resizeend part die) s0 = .next (done s 2).tick)
    ∧ (∀ b l, c.op = 4 → t.new_ = some (b, l) → exec (.resizeend part die) s0 =
      let k := s.tableKey part die c.size
      .next (done (((s.devStore k (leBytes 8 b)).devStore (k + 8) (leBytes 4 l)).updDie part die fun x =>
        x.setTable c.size ⟨b, l, none⟩) 1).tick)
    ∧ (∀ x k, c.op = 5 → c.size = 0 → c.off % 2 ^ 16 = 0 → c.addr % 2 ^ 16 = 0 → s.paPresent die c.addr = true →
      s.xlat? part = some x → let v := s.walkReads x die c.off
      v.walk x die c.off = some (0, k) → let fw := v.mem.num (k + 8) 8
      v.frameOk die 0 (v.mem.num k 8) fw = true → fw / 2 ^ 8 % 2 = 0 →
      let old := globalKey die (fw / 2 ^ 16 % 2 ^ 36 * 2 ^ 16)
      let r := v.classify old (2 ^ 16)
      let m := (({ r with mem := r.mem.moveSectors old (globalKey die c.addr) 2048 }.rekey old (globalKey die c.addr)).devStore
        (k + 8) (leBytes 8 (withFrame fw c.addr))).dropTlb part die fun e => e.vpn = c.off / 2 ^ pageLog e.size
      exec (.migrate part die) s0 = .next (done m 1).tick))
  ∧ (∀ (s : State) (part die n : Nat) (g : Gran), s.granOf part die n = some g →
    let m := s.recStatus part g 2
    (∀ x w, m.xlat? part = some x → let v := m.walkReads x die (g.gran * 2 ^ 16)
      v.walk x die (g.gran * 2 ^ 16) = some w → exec (.faultRecordMapped part die n) s =
      .next ((v.recStatus part g 0).updGran part g fun h => { h with mapped := true }).tick)
    ∧ (∀ x, m.xlat? part = some x → let v := m.walkReads x die (g.gran * 2 ^ 16)
      v.walk x die (g.gran * 2 ^ 16) = none → exec (.faultRecordMapped part die n) s =
      .next ((v.recStatus part g 1).signalF part).tick)
    ∧ exec (.faultRecordRefused part die n) s = .next ((((s.recStatus part g 3).recStatus part g 0).updGran part g fun h =>
      { h with denied := true, waiters := [] }).updX part fun x =>
        { x with refused := x.refused ++ g.waiters.map fun a => (a, 2 ^ 34 * g.die + g.gran) }).tick)
  ∧ (∀ (s : State) (part die gran : Nat) (x : Xlat) (g : Gran), s.xlat? part = some x →
    (x.closed.find? fun g => g.die = die && g.gran = gran && (g.mapped || g.denied)) = some g →
    ((∀ k ∈ s.cores, ∀ e ∈ k.2.side, e.stuck = true ∨ e.inGran part g = false) → exec (.granuleReopen part die gran) s =
      .next (s.updX part fun x => { x with closed := x.closed.filter fun h => !h.is g }).tick)
    ∧ ((∃ k ∈ s.cores, ∃ e ∈ k.2.side, e.stuck = false ∧ e.inGran part g = true) → exec (.granuleReopen part die gran) s = .next s.tick))
  ∧ (∀ (s : State) (core : Nat), s.sideNext (s.core core).side = none → exec (.sideLogReplay core) s = .next s.tick)
  ∧ (∀ (s : State) (core i : Nat) (e : SideEnt), let es := (s.core core).side
    s.sideNext es = some i → es[i]? = some e →
    let g := (((s.xlat? e.ctx).map Xlat.closed).getD []).find? (e.inGran e.ctx)
    e.stuck = false ∧ (∀ f ∈ es.take i, f.ctx = e.ctx → s.lineOf f.va ≠ s.lineOf e.va)
    ∧ (g = none ∨ (∃ h, g = some h ∧ h.mapped = true ∧ h.denied = false) →
      exec (.sideLogReplay core) s = .next (s.sideReplay core (es.take i) e (es.drop (i + 1))).drainFrozen.tick)
    ∧ (∀ h, g = some h → h.denied = true → exec (.sideLogReplay core) s = .next
      ((s.updCore core fun c => { c with side := es.take i ++ es.drop (i + 1) }).sideFails core e 0x09).drainFrozen.tick)
    ∧ (∀ h, g = some h → h.denied = false → h.mapped = false → exec (.sideLogReplay core) s = .next s.tick))
  ∧ (∀ (s s2 : State) (part die off : Nat), (s.xlat? part).isSome = true → s.isClosed part die (off / 2 ^ 16) = false →
    (∀ h pa a, s.translate part die off = (s2, .ok h pa a) → exec (.tableWalk part die off) s = .next s2.tick)
    ∧ (s.translate part die off = (s2, .miss) → exec (.tableWalk part die off) s =
      .next ((s2.closeGran part die (off / 2 ^ 16) 0).getD s2).tick))
  ∧ (∀ (s s2 : State) (r : Req) (key attr : Nat), r.port = none → r.synd = 0 →
    (s.xlat? r.ctx).isSome = true →
    let w : Who := ⟨r.agent, r.agent.core, 0, r.ctx⟩
    let va := r.va.toNat
    let s1 := (s.translate r.ctx (vaDie va) (vaOff va)).1
    s1.reachGlobal w (reqAcc r) = (s2, .ok key attr) →
    exec (.sliceRequest r) s = .next ((match r.kind with
      | .store | .engineWrite => s2.put w (reqAcc r) key ((r.data ++ List.replicate r.len 0#8).take r.len) r.p r.flit false
      | .reduce => match atomNew r.red.1 (r.red.2 % 16) (s2.mem.num key r.len) (leNat (r.data.take r.len)) 0 with
        | some v => s2.put w (reqAcc r) key (leBytes r.len v) (r.p || s2.mem.anyP key r.len) r.flit false
        | none => s2
      | _ => s2).flit r).tick)
  ∧ ∀ (s : State) (r : Req) (n : Nat), r.port = some n →
    (s.dev.links.getD n .untrained = .retraining ∨ s.dev.links.getD n .untrained = .frozen →
      exec (.sliceRequest r) s = .next (s.updDev fun d => { d with linkIn := d.linkIn ++ [(n, .sliceRequest r)] }).tick)
    ∧ (s.dev.links.getD n .untrained = .untrained ∨ s.dev.links.getD n .untrained = .fenced →
      exec (.sliceRequest r) s = .next s.tick)
    ∧ (s.dev.links.getD n .untrained = .trained → s.xlat? r.ctx = none → exec (.sliceRequest r) s =
      .next ((s.setLink n .frozen).logFreeze 4 r.ctx 0x0A 0 n r.va.toNat).tick)

/-! ### What ends a park -/

/-- R97, R119 to R121, R123, R126, R134, R145, R184, R230, R231, R311 to R314: the events by which parked groups and threads
go on. A result lands in its registers, where a register written meanwhile keeps one of the two values, or in its window's
word, whose group freezes now if it was to; of two that overlap in a g register or a window the earlier lands first. A header's wait ends once its operations have
completed; held loads whose granule is settled replay, uniform ones with the one access that they share; of the ready groups that have
gone 2,048 cycles without issuing the one that has waited longest comes first; a
turn of 256 instructions ends; the threads of the path that disagree in both comparisons of a clone check are queued with it; the
intervals of an agent end once its writes are in memory; a latched event completes a WAIT with its code, and the bound does
so no earlier than it passes; and a changed word completes a WAITA. Which of two values stands is free (log entry 4), and so is
the event of a word that leaves the part (log entry 21), times
are counted in steps (log entry 1), a clone check is decided before the sweep (log entry 37), and an access performs where
it issues (log entry 5). -/
def Obligations.WakeEvents : Prop :=
  (∀ (s : State) (gid n : Nat) (p : Pend), let g := s.grp gid
    g.pend[n]? = some p → (∀ q ∈ g.pend.take n, p.overlaps q = false) →
    let u := s.updGrp gid fun g => { g with pend := g.pend.eraseIdx n }
    let put := fun (rs : List Reg) (h : Group) => (List.range p.regs.length).foldl
      (fun h i => h.putReg p.tix (p.code + i) (rs.getD i Reg.zero)) h
    (p.win = none → p.beaten = [] →
      exec (.resultLanding gid n) s = .next ((u.updGrp gid (put p.regs)).unmark gid).tick)
    ∧ (p.win = none → ∃ rs : List Reg, exec (.resultLanding gid n) s = .next ((u.updGrp gid (put rs)).unmark gid).tick
      ∧ ∀ i, i < p.regs.length → rs.getD i Reg.zero = p.regs.getD i Reg.zero
        ∨ (p.code + i ∈ p.beaten ∧ rs.getD i Reg.zero = g.settled p.tix (p.code + i)))
    ∧ ∀ key, p.win = some key → exec (.resultLanding gid n) s = .next ((u.landWin gid p key).drainFrozen.unmark gid).tick
      ∧ (u.landWin gid p key).mem = s.mem.store key (leBytes 4 (p.regs.headD Reg.zero).v.toNat) (p.regs.headD Reg.zero).p false 0)
  ∧ (∀ (s : State) (gid n m : Nat) (p q : Pend), let g := s.grp gid
    g.pend[n]? = some p → g.pend[m]? = some q → m < n → p.overlaps q = true →
    (∀ k r, k < m → g.pend[k]? = some r → p.overlaps r = false ∧ q.overlaps r = false) →
    exec (.resultLanding gid n) s = exec (.resultLanding gid m) s)
  ∧ (∀ (s : State) (gid bits : Nat), (s.grp gid).gpark = some (.header bits) →
    (s.waitsDone gid bits = true → exec (.headerWait gid) s = .next (s.updGrp gid fun g => { g with gpark := none }).tick)
    ∧ (s.waitsDone gid bits = false → exec (.headerWait gid) s = .next s.tick))
  ∧ (∀ (s : State) (gid : Nat), exec (.loadReplay gid) s = .next (((List.range 16).filter fun t =>
      (s.thr gid t).held && match s.xlat? (s.grp gid).ctx with
        | some x => x.closed.all fun g => !g.waiters.contains (s.agent gid (s.thr gid t).heldBy)
        | none => true).foldl (fun s t => s.updThr gid t fun x => { x with held := false, replay := true }) s).tick)
  ∧ (∀ (s : State) (core lix : Nat),
    let ls := s.laneGids (128 * core + lix)
    let wait := ls.filter fun x => s.isReady x && s.starves x && some x ≠ s.laneHolds (128 * core + lix)
    (wait = [] → exec (.starvationSwitch core lix) s = .next s.tick)
    ∧ (wait ≠ [] → ∃ g ∈ wait, (∀ h ∈ wait, (s.grp g).last ≤ (s.grp h).last)
      ∧ exec (.starvationSwitch core lix) s = .next ((ls.foldl (fun v x => v.updGrp x fun y => { y with again := true }) s).updGrp g
        fun y => { y with rank := .starved }).tick))
  ∧ (∀ (s : State) (gid : Nat) (g : Group), kfind s.groups gid = some g → 256 ≤ g.turn →
    exec (.turnLimit gid) s = .next (s.setGrp gid { g with turn := 0, turnAt := none }).tick)
  ∧ (∀ (s : State) (gid : Nat) (a b : BitVec 16) (i : Instr), let g := s.grp gid
    let bad := (tidsOf b.toNat).filter fun t => (s.nextPath gid).1.contains t && (g.thr t).gact
    (a = 0#16 → exec (.cloneReplay gid a b) s = .next s.tick)
    ∧ (a ≠ 0#16 → bad ≠ [] → g.kind ≠ .pitcher → (s.core g.core).replays.length < 32 → s.nextInstr gid = some i →
      (cloneChecked i = false → exec (.cloneReplay gid a b) s = .next s.tick)
      ∧ (cloneChecked i = true → exec (.cloneReplay gid a b) s =
        .next ((s.reliability (relWord 3 ((s.phys g.core).getD 0) 0 0 0)).updCore g.core fun c =>
          { c with replays := c.replays ++ [⟨gid, (s.nextPath gid).1, bad⟩], scanDue := true, scanFirst := true }).tick)))
  ∧ (∀ (s : State) (a : Agent), (s.undrained a = false → exec (.hardwareEnd a) s = .next (s.closeIv a 7).tick)
    ∧ (s.undrained a = true → exec (.hardwareEnd a) s = .next s.tick))
  ∧ (∀ (s : State) (gid n dst : Nat) (mask : List Nat) (b : Option Nat),
    s.parkAt gid n = some ⟨mask, .wait dst b⟩ → let w := (s.thr gid (mask.headD 0)).watch
    (∀ x c, w = some x → x.latched = some c →
      exec (.waitWake gid n) s = .next ((s.waitResult gid mask dst c).wake gid n ⟨mask, .wait dst none⟩).tick)
    ∧ ((w = none ∨ ∃ x, w = some x ∧ x.latched = none ∧ x.key < 2 ^ 64) → exec (.waitWake gid n) s = .next s.tick)
    ∧ (∀ x, w = some x → x.latched = none → 2 ^ 64 ≤ x.key → ∃ c, (c = 0 ∨ c = 1) ∧
      exec (.waitWake gid n) s = .next ((s.waitResult gid mask dst c).wake gid n ⟨mask, .wait dst none⟩).tick)
    ∧ (∀ d, b = some d → s.now < d → exec (.waitTimeout gid n) s = .next s.tick)
    ∧ (∀ d, b = some d → d ≤ s.now → (w = none ∨ ∃ x, w = some x ∧ x.latched = none) →
      exec (.waitTimeout gid n) s = .next ((s.waitResult gid mask dst 4).wake gid n ⟨mask, .wait dst none⟩).tick)
    ∧ ∀ d x c, b = some d → d ≤ s.now → w = some x → x.latched = some c →
      exec (.waitTimeout gid n) s = .next ((s.waitResult gid mask dst c).wake gid n ⟨mask, .wait dst none⟩).tick)
  ∧ ∀ (s u : State) (gid n dst off key attr : Nat) (mask : List Nat) (ap : Bool) (old : Word),
    s.parkAt gid n = some ⟨mask, .waita dst off ap old⟩ →
    s.reach (s.who gid (mask.headD 0)) (Acc.read .A off 4).synced = (u, .ok key attr) →
    (u.mem.num key 4 = old.toNat → exec (.waitaWake gid n) s = .next u.tick)
    ∧ (u.mem.num key 4 ≠ old.toNat → exec (.waitaWake gid n) s = .next (((u.overtakes gid (mask.headD 0) dst).pendRegs gid (mask.headD 0) dst
      [⟨BitVec.ofNat 32 (u.mem.num key 4), u.mem.anyP key 4 || ap || (u.grp gid).ambientAny mask⟩] 0).wake gid n
        ⟨mask, .huddle 0⟩).tick)

/-! ### The device -/

/-- R22, R23, R28, R32, R33 to R39, R83, R98, R236 to R241, R398: the device's events. A power-on, a fundamental reset and a
power cycle leave every state of the part at reset and run the stages, which end in the safe state at the first failure and
ready where all pass; a device whose first stage fails does not enumerate. The map of a quiet die is rebuilt from its first
usable cores in ascending order; links retrain, with their traffic held, or are fenced, with their traffic lost; heat
throttles, fences and releases; monitors count and a domain above its threshold steps up and locks; the scan drains and
clears a core or fences it; and management reads and sets what R83 names. What reset and power-on find is outside data (log
entry 3), memory reads 0 after them (log entry 2), and the REASON of a fenced link, a map of fewer cores, a limit out of
range, the drain phase, what makes a die drained, and that a count exceeds its threshold once in a window, are the model's choices
(log entries 42, 56, 60, 62, 74 and 78). -/
def Obligations.DeviceEvents : Prop :=
  (∀ (s : State) (r : SelfTest), let m := s.dev.pendingUpdate.getD r.manifest
    ∃ u, exec (.powerOn r) s = .next u ∧ exec (.pcieFundamentalReset r) s = .next u
      ∧ exec (.managementPowerCycle r) s = .next u
      ∧ u.mem = Memory.empty ∧ u.groups = [] ∧ u.launches = [] ∧ u.queues = [] ∧ u.flog = [] ∧ u.tlb = []
      ∧ u.cores = u.dev.coreMap.map (fun e => (e.1, { Core.reset with released := s.now }))
      ∧ u.parts = List.replicate 16 Part.reset
      ∧ (r.romOk = false → u.dev.silent = true ∧ u.dev.ready = false ∧ u.dev.stage = 1 ∧ u.dev.mail = [])
      ∧ (r.romOk = true → r.identityOk = false → u.dev.safe = true ∧ u.dev.ready = false ∧ u.dev.stage = 2
        ∧ u.dev.mail = [mailWord 7 0 0 5])
      ∧ (r.romOk = true → r.identityOk = true → m.signed = false → u.dev.safe = true ∧ u.dev.stage = 3
        ∧ u.dev.mail = [mailWord 6 0 0 3])
      ∧ (r.romOk = true → r.identityOk = true → m.signed = true → manifestOk m = true → r.badColumns = [] → r.badCores = [] →
        r.badBridges = [] → r.badChans = [] → u.dev.safe = false ∧ u.dev.ready = true ∧ u.dev.stage = 9
          ∧ u.dev.limitW = m.limitW ∧ u.dev.manifest = m
          ∧ ∀ k, k < 240 → kfind u.dev.coreMap k = some (64 * (k / 60) + k % 60)))
  ∧ (∀ (s : State) (die : Nat) (failed : List Nat),
    (s.dieQuiet die = false → exec (.mapRebuild die failed) s = .next s.tick)
    ∧ (die < 4 → s.dieQuiet die = true → ∃ u, exec (.mapRebuild die failed) s = .next u ∧ u.parts = s.parts
      ∧ (∀ n, n < 60 → kfind u.dev.coreMap (60 * die + n) = (((List.range 64).filter fun c =>
        s.dev.usable.contains (64 * die + c) && !failed.contains c)[n]?).map fun c => 64 * die + c)
      ∧ ∀ k, dieOf k ≠ die → kfind u.dev.coreMap k = kfind s.dev.coreMap k))
  ∧ (∀ (s : State) (n : Nat),
    (s.dev.links.getD n .untrained = .trained → exec (.linkDown n) s = .next (s.setLink n .retraining).tick)
    ∧ (s.dev.links.getD n .untrained = .retraining →
      exec (.linkRetrainEnd n true) s = .next (s.openLink n).tick
      ∧ exec (.linkRetrainEnd n false) s = .next (s.fenceLink n).tick)
    ∧ (let o := s.openLink n
      o.dev.links = s.dev.links.set n .trained ∧ o.dev.linkHeld = s.dev.linkHeld
        ∧ o.dev.outbox = s.dev.outbox ++ (s.dev.linkOut.filter fun m => m.link = some n)
        ∧ (∀ m ∈ o.dev.linkOut, m.link ≠ some n) ∧ (∀ e ∈ o.dev.linkIn, e.1 ≠ n)
        ∧ o.agenda = (s.dev.linkIn.filter fun e => e.1 = n).map Prod.snd ++ s.agenda)
    ∧ (let f := s.fenceLink n
      f.dev.links = s.dev.links.set n .fenced ∧ (∀ q ∈ s.dev.linkHeld, q.link = n → q ∈ f.dev.linkLost)
        ∧ (∀ q ∈ f.dev.linkHeld, q.link ≠ n) ∧ (∀ m ∈ f.dev.linkOut, m.link ≠ some n) ∧ ∀ e ∈ f.dev.linkIn, e.1 ≠ n)
    ∧ exec (.bridgeReplay n) s = .next s.tick)
  ∧ (∀ (s : State) (die quad t : Nat) (h : BitVec 8), die < 4 → quad < 16 →
    (t < 100 → exec (.thermalThrottle die t) s = .next (s.updDev fun d => { d with hot := d.hot.filter (· ≠ die) }).tick)
    ∧ (105 ≤ t → ∃ u, exec (.thermalThrottle die t) s = .next u ∧ die ∈ u.dev.hot
      ∧ ∀ q, q < 16 → kget 0#8 u.dev.hdrm (16 * die + q) = 0x80#8)
    ∧ (s.dev.hot.contains die = false → exec (.pwrhRefresh die quad h) s =
      .next (s.updDev fun d => { d with hdrm := kset d.hdrm (16 * die + quad) h }).tick)
    ∧ (115 ≤ t → ∃ u, exec (.thermalFence t) s = .next u ∧ u.dev.fenced = true)
    ∧ (t < 100 → exec (.thermalReenable t) s = .next (s.updDev fun d => { d with fenced := false }).tick)
    ∧ (100 ≤ t → exec (.thermalReenable t) s = .next s.tick))
  ∧ (∀ (s : State) (dom a n : Nat) (weak : List Upset), dom < 256 → let x := s.dev.domain dom
    (x.lock = false → 0 < x.steps → (∀ e ∈ x.counts, e.2 < s.dev.manifest.threshold) →
      exec (.undervoltStep ⟨dom, []⟩) s = .next (s.updDev fun d => d.setDomain { x with steps := x.steps - 1 }).tick
      ∧ ∃ u, exec (.undervoltStep ⟨dom, weak⟩) s = .next u ∧ u.dev.domain dom = { x with steps := x.steps - 1 } ∧ u.mem = s.mem
        ∧ ∀ e ∈ u.dev.upsets, e ∈ s.dev.upsets ∨ e ∈ weak)
    ∧ (x.lock = true → exec (.undervoltStep ⟨dom, weak⟩) s = .next s.tick)
    ∧ exec (.monitorWindowExpiry dom a) s = .next (s.updDev fun d => d.setDomain { x with
        counts := kdel x.counts a, told := x.told.filter (· ≠ a) }).tick
    ∧ (x.told.contains a = false → n = kget 0 x.counts a → s.dev.manifest.threshold < n → exec (.undervoltOverride dom a n) s =
      .next ((s.updDev fun d => d.setDomain { x with
          steps := min (x.steps + 1) s.dev.manifest.floor, lock := true, told := x.told ++ [a] }).reliability
        (relWord 1 dom a (min (x.steps + 1) s.dev.manifest.floor) n)).tick)
    ∧ (x.told.contains a = true ∨ kget 0 x.counts a ≤ s.dev.manifest.threshold → exec (.undervoltOverride dom a n) s = .next s.tick)
    ∧ (s.dev.silent = false →
      exec (.undervoltLockClear dom) s = .next (s.updDev fun d => d.setDomain { x with lock := false }).tick))
  ∧ (∀ (s : State) (core p : Nat), s.phys core = some p → let c := s.core core
    (c.scan = false → s.scanBehind core = false →
      (s.idle core = true → exec (.scanStart core) s = .next (s.updCore core fun c => { c with scan := true, drains := false }).tick)
      ∧ (s.idle core = false → exec (.scanStart core) s = .next (s.updCore core fun c => { c with drains := true }).tick))
    ∧ (c.scan = true →
      exec (.scanPatternEnd core true) s = .next (s.setCore core { Core.reset with scanDue := false, released := c.released }).tick
      ∧ (∃ u, exec (.scanPatternEnd core false) s = .next u ∧ u.dev.coreMap = kdel s.dev.coreMap core
        ∧ u.dev.usable = s.dev.usable.filter (· ≠ p) ∧ u.dev.events = s.dev.events ++ [relWord 4 p 0 0 0] ∧ u.mem = s.mem)
      ∧ (s.aborts core = true → exec (.scanAbort core) s =
        .next (s.setCore core { Core.reset with scanDue := true, released := c.released }).tick))
    ∧ (c.scan = false → c.drains = true → s.aborts core = true → exec (.scanAbort core) s =
      .next (s.updCore core fun c => { c with drains := false, scanDue := true }).tick))
  ∧ ∀ (s : State) (n : Nat) (m : Manifest), s.dev.silent = false →
    exec (.pldmSensorRead .packagePower n) s = .next (s.reply 1 [n]).tick
    ∧ (∀ die, exec (.pldmSensorRead (.pwrh die) n) s =
      .next (s.reply 1 ((List.range 16).map fun q => pwrhWord (kget 0#8 s.dev.hdrm (16 * die + q)))).tick)
    ∧ (800 ≤ n → n ≤ s.dev.manifest.limitW →
      exec (.pldmPowerLimit n) s = .next (s.updDev fun d => { d with limitW := n }).tick)
    ∧ exec (.pldmUpdate m) s = .next (s.updDev fun d => { d with pendingUpdate := some m }).tick
    ∧ exec (.pldmFileRead 0) s = .next (s.reply 2 (((if s.dev.safe then 2 ^ 31 else 0) + (if s.dev.ready then 2 ^ 30 else 0)
      + s.dev.stage * 2 ^ 8 + s.dev.mail.length) :: s.dev.mail)).tick
    ∧ (s.dev.identity = true → 0 < n → n ≤ 4 → let v := Config.measurement n (s.dev.measured n)
      exec (.getMeasurements n) s = .next (s.reply 3 [n, v, Config.signature v]).tick)
    ∧ (s.dev.identity = true → exec (.challenge n) s = .next (s.reply 4 [n, Config.signature n]).tick)
    ∧ exec .pldmDiscovery s = .next (s.reply 5 [0, 2, 5]).tick

/-! ### The machine as a whole -/

/-- R260, R363, R316, R115: what reset leaves: no group, launch or listed byte; and the values at which a new group's
control registers, a tile and a huddle stand. What nothing has written reads 0 (log entry 2). -/
def Obligations.ResetState : Prop :=
  State.reset.Inv ∧ State.reset.groups = [] ∧ State.reset.launches = [] ∧ State.reset.flog = []
  ∧ (State.reset.parts.all fun p => !p.bound && !p.drain) = true
  ∧ Ctl.reset.nbv = CReg.of 2 ∧ Ctl.reset.pctl = CReg.of 0 ∧ Ctl.reset.deadm = CReg.of 0
  ∧ Ctl.reset.dctol = CReg.of 0x3CD0000000000000 ∧ Ctl.reset.dclim = CReg.of 0x10 ∧ Ctl.reset.fpctl = CReg.of 0
  ∧ Ctl.reset.trapvec = CReg.of 0 ∧ Ctl.reset.tcause = CReg.of 0 ∧ Ctl.reset.tmask = CReg.of 0
  ∧ Ctl.reset.taddr = CReg.of 0 ∧ Ctl.reset.epc = CReg.of 0
  ∧ (∀ n, n < 8 → Ctl.reset.wbase.getD n (CReg.of 1) = CReg.of 0 ∧ Ctl.reset.wlen.getD n (CReg.of 1) = CReg.of 0)
  ∧ (∀ r c, Tile.reset.at_ r c = 0) ∧ (∀ r, Tile.reset.rowP.getD r false = false) ∧ Tile.reset.poison = false
  ∧ Tile.reset.smx = none ∧ (∀ r, r < 64 → Tile.reset.m.getD r 0#32 = 0xFF800000#32 ∧ Tile.reset.l.getD r 1#32 = 0#32)
  ∧ Tile.reset.held = false ∧ Tile.reset.nanblk = 0 ∧ Tile.reset.ufblk = 0 ∧ Tile.reset.outlier = none
  ∧ Huddle.reset.count = 0 ∧ Huddle.reset.signed = 0 ∧ Huddle.reset.sigs = []
  ∧ ∀ entry gen, let t := Thread.start entry gen
    t.pos = ⟨entry, 0⟩ ∧ t.life = .live ∧ t.x = List.replicate 80 Reg.zero ∧ t.pr = List.replicate 8 PReg.zero
      ∧ t.region = ⟨true, entry, Reg.zero⟩ ∧ t.ret = [] ∧ t.taint = [] ∧ t.gen = gen

/-- The memory of the model keeps its canonical form: from every state that has it, each step answers a state that has it. -/
def Obligations.StepsKeepTheInvariant : Prop :=
  ∀ (s t : State), s.Inv → step s = .next t → t.Inv

/-- R246, R249, R258: every instruction that has words is read back from them, with every operand at every value. -/
def Obligations.WordsOfInstructions : Prop :=
  ∀ (i : Instr) (w : Word) (ws : List Word), encode i = w :: ws → (∀ x, i ≠ .unassignedOpcode x) →
    decode w (ws.headD 0#32) = .ok i ∧ lengthOf w = ws.length + 1

/-- R249, R257, R258: the words of a decoded instruction are those that it was decoded from: the decoder drops no bit, and
a reserved bit that is set makes a word no instruction. -/
def Obligations.InstructionsOfWords : Prop :=
  ∀ (w u : Word) (i : Instr), decode w u = .ok i → (lengthOf w = 1 → encode i = [w]) ∧ (lengthOf w = 2 → encode i = [w, u])

/-- R126, R242, R245, R247, R286: a step runs what the path's words decode to. Where nothing is on the agenda, a lane has a path
that is ready, and the words at its place in the clause that its group holds decode to an instruction of the clause's class,
the step is that instruction's meaning in the state whose issue context is the path; at a header it is the header's. In a loop the
words are those of the pass, and a code that leaves its file runs as an unassigned opcode, which traps ILLEGAL. Threads that owe a
trap at the instruction take it there and do not perform it, but that a signing instruction takes it itself (R144, R318). An
event on the agenda happens as it stands. The agenda and the order of lanes are the model's own (log entry 1), and so is how
long words are held (log entry 13). -/
def Obligations.StepsRunWhatIsDecoded : Prop :=
  ∀ (s : State),
    (∀ lane gid chose, s.agenda = [] → s.now % 2 = 0 → s.nextLane = some lane → s.laneNext lane = some (gid, chose) →
      let g := s.grp gid
      let path := (s.nextPath gid).1
      let x := g.thr (path.headD 0)
      let u := s.chosen gid (s.nextPath gid).2 chose
      g.kind ≠ .pitcher → ((s.nextPath gid).2 = true → g.turn < 256) →
      (x.pos.k = 0 → step s = exec .clauseHeader { u with cur := u.curAt gid x.pos path [] })
      ∧ let c := u.curAt gid x.pos path (path.filter fun t => (g.thr t).gact && !(g.thr t).done)
        let ws := (kfind (u.grp gid).clauses x.pos.hdr).getD []
        x.pos.k ≠ 0 → (u.core (u.grp gid).core).replays = [] → (u.core g.core).replays = [] →
        (∀ i d, (x.loop = none ∧ d = c) ∨ (∃ l w v, x.loop = some l ∧ stepWords l c.w c.u = some (w, v)
            ∧ d = { c with w := w, u := v, ioff := l.pass * l.steps.getD 5 0 }) → decode d.w d.u = .ok i →
          ((opClass (opOf d.w) = 5 ∧ x.pos.k = d.n) ∨ (opClass (opOf d.w) ≠ 5 ∧ opClass (opOf d.w) = hdrCls (ws.headD 0#32))) →
          let v : State := { u with cur := d }
          let es := d.mask.filterMap fun t => (g.thr t).owed.map fun e => (t, e)
          (es = [] ∨ takesOwed i = true → step s = exec i v)
          ∧ (es ≠ [] → takesOwed i = false → step s = exec i (v.trapFirst es)))
        ∧ ∀ l, x.loop = some l → stepWords l c.w c.u = none → (∀ t ∈ c.mask, (g.thr t).owed = none) →
          step s = exec (.unassignedOpcode c.w) { u with cur := c })
    ∧ (∀ (v : State) (g : Group) (es : List (Nat × Nat × Nat)), kfind v.groups v.cur.gid = some g → g.threads.length = 16 →
      (es.map Prod.fst).Nodup → (∀ e ∈ es, e.1 < 16) →
      let y := v.trapFirst es
      y.sweep.traps = es ++ v.sweep.traps ∧ y.mem = v.mem
      ∧ (∀ t, t ∈ y.cur.mask ↔ t ∈ v.cur.mask ∧ ∀ e ∈ es, e.1 ≠ t) ∧ (∀ t, t ∈ y.cur.path ↔ t ∈ v.cur.path ∧ ∀ e ∈ es, e.1 ≠ t)
      ∧ (∀ e ∈ es, (y.thr v.cur.gid e.1).owed = none) ∧ ∀ t, (∀ e ∈ es, e.1 ≠ t) → y.thr v.cur.gid t = v.thr v.cur.gid t)
    ∧ (∀ e es, s.agenda = e :: es → encode e = [] → e ≠ .clauseHeader → step s = exec e { s with agenda := es })
    ∧ ∀ i t, ∃ v, exec i t = .next v

/-- The words that the descriptions give as examples decode to the instructions that they stand for (R292, R348, R370,
R371 to R374, R386, R387). -/
def Obligations.ExampleWords : Prop :=
  decode 0x7D000C00#32 0#32 = .ok (.rgn 3#7)
  ∧ decode 0xD90A0C00#32 0#32 = .ok (.subf 5#7 3#7)
  ∧ decode 0xD90A0001#32 0#32 = .ok (.subfSrc 5#7)
  ∧ decode 0xED018000#32 0#32 = .ok (.mol 96#7 0#2)
  ∧ decode 0xE9000000#32 0x00100000#32 = .ok (.mzero 2#2)
  ∧ decode 0xE801E400#32 0x00080001#32 = .ok (.mcfg 121#7 1#2 1#4)
  ∧ decode 0xEF0C0000#32 0x00000001#32 = .ok (.mstat 6#7 0#2 1#1)
  ∧ decode 0xF0040C00#32 0x08028000#32 = .ok (.cvtb 2#7 3#7 4#7 10#4)
  ∧ decode 0xEBA956B0#32 0x0022A800#32 = .ok (.mma 84#7 85#7 86#7 0#7 1#4 0#2 0#1 10#4 10#4 0#1 0#2)
  ∧ decode 0xEA016AD8#32 0x10028000#32 = .ok (.gath 0#7 90#7 91#7 8#7 0#1 10#4 0#1 0#2)
end

