-- ==== Sys2Proof/Laws/State.lean ====
section
/-! SUPPORT. What the named updates of the state leave as it was: one lemma per field per update. -/

namespace Sys2Proof.Machine

open Sys2Proof

/-! ### `setCore` -/

@[simp] theorem State.setCore_dev (s : State) (k : Nat) (c : Core) : (s.setCore k c).dev = s.dev := rfl
@[simp] theorem State.setCore_parts (s : State) (k : Nat) (c : Core) : (s.setCore k c).parts = s.parts := rfl
@[simp] theorem State.setCore_queues (s : State) (k : Nat) (c : Core) : (s.setCore k c).queues = s.queues := rfl
@[simp] theorem State.setCore_flog (s : State) (k : Nat) (c : Core) : (s.setCore k c).flog = s.flog := rfl
@[simp] theorem State.setCore_flogSeq (s : State) (k : Nat) (c : Core) : (s.setCore k c).flogSeq = s.flogSeq := rfl
@[simp] theorem State.setCore_logovf (s : State) (k : Nat) (c : Core) : (s.setCore k c).logovf = s.logovf := rfl
@[simp] theorem State.setCore_launches (s : State) (k : Nat) (c : Core) : (s.setCore k c).launches = s.launches := rfl
@[simp] theorem State.setCore_helds (s : State) (k : Nat) (c : Core) : (s.setCore k c).helds = s.helds := rfl
@[simp] theorem State.setCore_mem (s : State) (k : Nat) (c : Core) : (s.setCore k c).mem = s.mem := rfl
@[simp] theorem State.setCore_tlb (s : State) (k : Nat) (c : Core) : (s.setCore k c).tlb = s.tlb := rfl
@[simp] theorem State.setCore_ivs (s : State) (k : Nat) (c : Core) : (s.setCore k c).ivs = s.ivs := rfl
@[simp] theorem State.setCore_groups (s : State) (k : Nat) (c : Core) : (s.setCore k c).groups = s.groups := rfl
@[simp] theorem State.setCore_colls (s : State) (k : Nat) (c : Core) : (s.setCore k c).colls = s.colls := rfl
@[simp] theorem State.setCore_agenda (s : State) (k : Nat) (c : Core) : (s.setCore k c).agenda = s.agenda := rfl
@[simp] theorem State.setCore_cur (s : State) (k : Nat) (c : Core) : (s.setCore k c).cur = s.cur := rfl
@[simp] theorem State.setCore_sweep (s : State) (k : Nat) (c : Core) : (s.setCore k c).sweep = s.sweep := rfl
@[simp] theorem State.setCore_now (s : State) (k : Nat) (c : Core) : (s.setCore k c).now = s.now := rfl
@[simp] theorem State.setCore_free (s : State) (k : Nat) (c : Core) : (s.setCore k c).free = s.free := rfl
@[simp] theorem State.setCore_nextId (s : State) (k : Nat) (c : Core) : (s.setCore k c).nextId = s.nextId := rfl

/-! ### `updCore` -/

@[simp] theorem State.updCore_dev (s : State) (k : Nat) (f : Core → Core) : (s.updCore k f).dev = s.dev := rfl
@[simp] theorem State.updCore_parts (s : State) (k : Nat) (f : Core → Core) : (s.updCore k f).parts = s.parts := rfl
@[simp] theorem State.updCore_queues (s : State) (k : Nat) (f : Core → Core) : (s.updCore k f).queues = s.queues := rfl
@[simp] theorem State.updCore_flog (s : State) (k : Nat) (f : Core → Core) : (s.updCore k f).flog = s.flog := rfl
@[simp] theorem State.updCore_flogSeq (s : State) (k : Nat) (f : Core → Core) : (s.updCore k f).flogSeq = s.flogSeq := rfl
@[simp] theorem State.updCore_logovf (s : State) (k : Nat) (f : Core → Core) : (s.updCore k f).logovf = s.logovf := rfl
@[simp] theorem State.updCore_launches (s : State) (k : Nat) (f : Core → Core) : (s.updCore k f).launches = s.launches := rfl
@[simp] theorem State.updCore_helds (s : State) (k : Nat) (f : Core → Core) : (s.updCore k f).helds = s.helds := rfl
@[simp] theorem State.updCore_mem (s : State) (k : Nat) (f : Core → Core) : (s.updCore k f).mem = s.mem := rfl
@[simp] theorem State.updCore_tlb (s : State) (k : Nat) (f : Core → Core) : (s.updCore k f).tlb = s.tlb := rfl
@[simp] theorem State.updCore_ivs (s : State) (k : Nat) (f : Core → Core) : (s.updCore k f).ivs = s.ivs := rfl
@[simp] theorem State.updCore_groups (s : State) (k : Nat) (f : Core → Core) : (s.updCore k f).groups = s.groups := rfl
@[simp] theorem State.updCore_colls (s : State) (k : Nat) (f : Core → Core) : (s.updCore k f).colls = s.colls := rfl
@[simp] theorem State.updCore_agenda (s : State) (k : Nat) (f : Core → Core) : (s.updCore k f).agenda = s.agenda := rfl
@[simp] theorem State.updCore_cur (s : State) (k : Nat) (f : Core → Core) : (s.updCore k f).cur = s.cur := rfl
@[simp] theorem State.updCore_sweep (s : State) (k : Nat) (f : Core → Core) : (s.updCore k f).sweep = s.sweep := rfl
@[simp] theorem State.updCore_now (s : State) (k : Nat) (f : Core → Core) : (s.updCore k f).now = s.now := rfl
@[simp] theorem State.updCore_free (s : State) (k : Nat) (f : Core → Core) : (s.updCore k f).free = s.free := rfl
@[simp] theorem State.updCore_nextId (s : State) (k : Nat) (f : Core → Core) : (s.updCore k f).nextId = s.nextId := rfl

/-! ### `setGrp` -/

@[simp] theorem State.setGrp_dev (s : State) (gid : Nat) (g : Group) : (s.setGrp gid g).dev = s.dev := rfl
@[simp] theorem State.setGrp_parts (s : State) (gid : Nat) (g : Group) : (s.setGrp gid g).parts = s.parts := rfl
@[simp] theorem State.setGrp_queues (s : State) (gid : Nat) (g : Group) : (s.setGrp gid g).queues = s.queues := rfl
@[simp] theorem State.setGrp_flog (s : State) (gid : Nat) (g : Group) : (s.setGrp gid g).flog = s.flog := rfl
@[simp] theorem State.setGrp_flogSeq (s : State) (gid : Nat) (g : Group) : (s.setGrp gid g).flogSeq = s.flogSeq := rfl
@[simp] theorem State.setGrp_logovf (s : State) (gid : Nat) (g : Group) : (s.setGrp gid g).logovf = s.logovf := rfl
@[simp] theorem State.setGrp_launches (s : State) (gid : Nat) (g : Group) : (s.setGrp gid g).launches = s.launches := rfl
@[simp] theorem State.setGrp_helds (s : State) (gid : Nat) (g : Group) : (s.setGrp gid g).helds = s.helds := rfl
@[simp] theorem State.setGrp_mem (s : State) (gid : Nat) (g : Group) : (s.setGrp gid g).mem = s.mem := rfl
@[simp] theorem State.setGrp_tlb (s : State) (gid : Nat) (g : Group) : (s.setGrp gid g).tlb = s.tlb := rfl
@[simp] theorem State.setGrp_ivs (s : State) (gid : Nat) (g : Group) : (s.setGrp gid g).ivs = s.ivs := rfl
@[simp] theorem State.setGrp_cores (s : State) (gid : Nat) (g : Group) : (s.setGrp gid g).cores = s.cores := rfl
@[simp] theorem State.setGrp_colls (s : State) (gid : Nat) (g : Group) : (s.setGrp gid g).colls = s.colls := rfl
@[simp] theorem State.setGrp_agenda (s : State) (gid : Nat) (g : Group) : (s.setGrp gid g).agenda = s.agenda := rfl
@[simp] theorem State.setGrp_cur (s : State) (gid : Nat) (g : Group) : (s.setGrp gid g).cur = s.cur := rfl
@[simp] theorem State.setGrp_sweep (s : State) (gid : Nat) (g : Group) : (s.setGrp gid g).sweep = s.sweep := rfl
@[simp] theorem State.setGrp_now (s : State) (gid : Nat) (g : Group) : (s.setGrp gid g).now = s.now := rfl
@[simp] theorem State.setGrp_free (s : State) (gid : Nat) (g : Group) : (s.setGrp gid g).free = s.free := rfl
@[simp] theorem State.setGrp_nextId (s : State) (gid : Nat) (g : Group) : (s.setGrp gid g).nextId = s.nextId := rfl

/-! ### `updLaunch` -/

@[simp] theorem State.updLaunch_dev (s : State) (lid : Nat) (f : Launch → Launch) : (s.updLaunch lid f).dev = s.dev := rfl
@[simp] theorem State.updLaunch_parts (s : State) (lid : Nat) (f : Launch → Launch) : (s.updLaunch lid f).parts = s.parts := rfl
@[simp] theorem State.updLaunch_queues (s : State) (lid : Nat) (f : Launch → Launch) : (s.updLaunch lid f).queues = s.queues := rfl
@[simp] theorem State.updLaunch_flog (s : State) (lid : Nat) (f : Launch → Launch) : (s.updLaunch lid f).flog = s.flog := rfl
@[simp] theorem State.updLaunch_flogSeq (s : State) (lid : Nat) (f : Launch → Launch) : (s.updLaunch lid f).flogSeq = s.flogSeq := rfl
@[simp] theorem State.updLaunch_logovf (s : State) (lid : Nat) (f : Launch → Launch) : (s.updLaunch lid f).logovf = s.logovf := rfl
@[simp] theorem State.updLaunch_helds (s : State) (lid : Nat) (f : Launch → Launch) : (s.updLaunch lid f).helds = s.helds := rfl
@[simp] theorem State.updLaunch_mem (s : State) (lid : Nat) (f : Launch → Launch) : (s.updLaunch lid f).mem = s.mem := rfl
@[simp] theorem State.updLaunch_tlb (s : State) (lid : Nat) (f : Launch → Launch) : (s.updLaunch lid f).tlb = s.tlb := rfl
@[simp] theorem State.updLaunch_ivs (s : State) (lid : Nat) (f : Launch → Launch) : (s.updLaunch lid f).ivs = s.ivs := rfl
@[simp] theorem State.updLaunch_groups (s : State) (lid : Nat) (f : Launch → Launch) : (s.updLaunch lid f).groups = s.groups := rfl
@[simp] theorem State.updLaunch_cores (s : State) (lid : Nat) (f : Launch → Launch) : (s.updLaunch lid f).cores = s.cores := rfl
@[simp] theorem State.updLaunch_colls (s : State) (lid : Nat) (f : Launch → Launch) : (s.updLaunch lid f).colls = s.colls := rfl
@[simp] theorem State.updLaunch_agenda (s : State) (lid : Nat) (f : Launch → Launch) : (s.updLaunch lid f).agenda = s.agenda := rfl
@[simp] theorem State.updLaunch_cur (s : State) (lid : Nat) (f : Launch → Launch) : (s.updLaunch lid f).cur = s.cur := rfl
@[simp] theorem State.updLaunch_sweep (s : State) (lid : Nat) (f : Launch → Launch) : (s.updLaunch lid f).sweep = s.sweep := rfl
@[simp] theorem State.updLaunch_now (s : State) (lid : Nat) (f : Launch → Launch) : (s.updLaunch lid f).now = s.now := rfl
@[simp] theorem State.updLaunch_free (s : State) (lid : Nat) (f : Launch → Launch) : (s.updLaunch lid f).free = s.free := rfl
@[simp] theorem State.updLaunch_nextId (s : State) (lid : Nat) (f : Launch → Launch) : (s.updLaunch lid f).nextId = s.nextId := rfl

/-! ### `signal` -/

@[simp] theorem State.signal_parts (s : State) (v : Nat) : (s.signal v).parts = s.parts := rfl
@[simp] theorem State.signal_queues (s : State) (v : Nat) : (s.signal v).queues = s.queues := rfl
@[simp] theorem State.signal_flog (s : State) (v : Nat) : (s.signal v).flog = s.flog := rfl
@[simp] theorem State.signal_flogSeq (s : State) (v : Nat) : (s.signal v).flogSeq = s.flogSeq := rfl
@[simp] theorem State.signal_logovf (s : State) (v : Nat) : (s.signal v).logovf = s.logovf := rfl
@[simp] theorem State.signal_launches (s : State) (v : Nat) : (s.signal v).launches = s.launches := rfl
@[simp] theorem State.signal_helds (s : State) (v : Nat) : (s.signal v).helds = s.helds := rfl
@[simp] theorem State.signal_mem (s : State) (v : Nat) : (s.signal v).mem = s.mem := rfl
@[simp] theorem State.signal_tlb (s : State) (v : Nat) : (s.signal v).tlb = s.tlb := rfl
@[simp] theorem State.signal_ivs (s : State) (v : Nat) : (s.signal v).ivs = s.ivs := rfl
@[simp] theorem State.signal_groups (s : State) (v : Nat) : (s.signal v).groups = s.groups := rfl
@[simp] theorem State.signal_cores (s : State) (v : Nat) : (s.signal v).cores = s.cores := rfl
@[simp] theorem State.signal_colls (s : State) (v : Nat) : (s.signal v).colls = s.colls := rfl
@[simp] theorem State.signal_agenda (s : State) (v : Nat) : (s.signal v).agenda = s.agenda := rfl
@[simp] theorem State.signal_cur (s : State) (v : Nat) : (s.signal v).cur = s.cur := rfl
@[simp] theorem State.signal_sweep (s : State) (v : Nat) : (s.signal v).sweep = s.sweep := rfl
@[simp] theorem State.signal_now (s : State) (v : Nat) : (s.signal v).now = s.now := rfl
@[simp] theorem State.signal_free (s : State) (v : Nat) : (s.signal v).free = s.free := rfl
@[simp] theorem State.signal_nextId (s : State) (v : Nat) : (s.signal v).nextId = s.nextId := rfl

/-! ### `reliability` -/

@[simp] theorem State.reliability_parts (s : State) (v : Nat) : (s.reliability v).parts = s.parts := rfl
@[simp] theorem State.reliability_queues (s : State) (v : Nat) : (s.reliability v).queues = s.queues := rfl
@[simp] theorem State.reliability_flog (s : State) (v : Nat) : (s.reliability v).flog = s.flog := rfl
@[simp] theorem State.reliability_flogSeq (s : State) (v : Nat) : (s.reliability v).flogSeq = s.flogSeq := rfl
@[simp] theorem State.reliability_logovf (s : State) (v : Nat) : (s.reliability v).logovf = s.logovf := rfl
@[simp] theorem State.reliability_launches (s : State) (v : Nat) : (s.reliability v).launches = s.launches := rfl
@[simp] theorem State.reliability_helds (s : State) (v : Nat) : (s.reliability v).helds = s.helds := rfl
@[simp] theorem State.reliability_mem (s : State) (v : Nat) : (s.reliability v).mem = s.mem := rfl
@[simp] theorem State.reliability_tlb (s : State) (v : Nat) : (s.reliability v).tlb = s.tlb := rfl
@[simp] theorem State.reliability_ivs (s : State) (v : Nat) : (s.reliability v).ivs = s.ivs := rfl
@[simp] theorem State.reliability_groups (s : State) (v : Nat) : (s.reliability v).groups = s.groups := rfl
@[simp] theorem State.reliability_cores (s : State) (v : Nat) : (s.reliability v).cores = s.cores := rfl
@[simp] theorem State.reliability_colls (s : State) (v : Nat) : (s.reliability v).colls = s.colls := rfl
@[simp] theorem State.reliability_agenda (s : State) (v : Nat) : (s.reliability v).agenda = s.agenda := rfl
@[simp] theorem State.reliability_cur (s : State) (v : Nat) : (s.reliability v).cur = s.cur := rfl
@[simp] theorem State.reliability_sweep (s : State) (v : Nat) : (s.reliability v).sweep = s.sweep := rfl
@[simp] theorem State.reliability_now (s : State) (v : Nat) : (s.reliability v).now = s.now := rfl
@[simp] theorem State.reliability_free (s : State) (v : Nat) : (s.reliability v).free = s.free := rfl
@[simp] theorem State.reliability_nextId (s : State) (v : Nat) : (s.reliability v).nextId = s.nextId := rfl

/-! ### `closeIv` -/

@[simp] theorem State.closeIv_dev (s : State) (a : Agent) (dom : Nat) : (s.closeIv a dom).dev = s.dev := rfl
@[simp] theorem State.closeIv_parts (s : State) (a : Agent) (dom : Nat) : (s.closeIv a dom).parts = s.parts := rfl
@[simp] theorem State.closeIv_queues (s : State) (a : Agent) (dom : Nat) : (s.closeIv a dom).queues = s.queues := rfl
@[simp] theorem State.closeIv_flog (s : State) (a : Agent) (dom : Nat) : (s.closeIv a dom).flog = s.flog := rfl
@[simp] theorem State.closeIv_flogSeq (s : State) (a : Agent) (dom : Nat) : (s.closeIv a dom).flogSeq = s.flogSeq := rfl
@[simp] theorem State.closeIv_logovf (s : State) (a : Agent) (dom : Nat) : (s.closeIv a dom).logovf = s.logovf := rfl
@[simp] theorem State.closeIv_launches (s : State) (a : Agent) (dom : Nat) : (s.closeIv a dom).launches = s.launches := rfl
@[simp] theorem State.closeIv_helds (s : State) (a : Agent) (dom : Nat) : (s.closeIv a dom).helds = s.helds := rfl
@[simp] theorem State.closeIv_mem (s : State) (a : Agent) (dom : Nat) : (s.closeIv a dom).mem = s.mem := rfl
@[simp] theorem State.closeIv_tlb (s : State) (a : Agent) (dom : Nat) : (s.closeIv a dom).tlb = s.tlb := rfl
@[simp] theorem State.closeIv_groups (s : State) (a : Agent) (dom : Nat) : (s.closeIv a dom).groups = s.groups := rfl
@[simp] theorem State.closeIv_cores (s : State) (a : Agent) (dom : Nat) : (s.closeIv a dom).cores = s.cores := rfl
@[simp] theorem State.closeIv_colls (s : State) (a : Agent) (dom : Nat) : (s.closeIv a dom).colls = s.colls := rfl
@[simp] theorem State.closeIv_agenda (s : State) (a : Agent) (dom : Nat) : (s.closeIv a dom).agenda = s.agenda := rfl
@[simp] theorem State.closeIv_cur (s : State) (a : Agent) (dom : Nat) : (s.closeIv a dom).cur = s.cur := rfl
@[simp] theorem State.closeIv_now (s : State) (a : Agent) (dom : Nat) : (s.closeIv a dom).now = s.now := rfl
@[simp] theorem State.closeIv_free (s : State) (a : Agent) (dom : Nat) : (s.closeIv a dom).free = s.free := rfl
@[simp] theorem State.closeIv_nextId (s : State) (a : Agent) (dom : Nat) : (s.closeIv a dom).nextId = s.nextId := rfl

/-! ### `endMet` -/

@[simp] theorem State.endMet_dev (s : State) (y : Agent) (key len : Nat) : (s.endMet y key len).dev = s.dev := rfl
@[simp] theorem State.endMet_parts (s : State) (y : Agent) (key len : Nat) : (s.endMet y key len).parts = s.parts := rfl
@[simp] theorem State.endMet_queues (s : State) (y : Agent) (key len : Nat) : (s.endMet y key len).queues = s.queues := rfl
@[simp] theorem State.endMet_flog (s : State) (y : Agent) (key len : Nat) : (s.endMet y key len).flog = s.flog := rfl
@[simp] theorem State.endMet_flogSeq (s : State) (y : Agent) (key len : Nat) : (s.endMet y key len).flogSeq = s.flogSeq := rfl
@[simp] theorem State.endMet_logovf (s : State) (y : Agent) (key len : Nat) : (s.endMet y key len).logovf = s.logovf := rfl
@[simp] theorem State.endMet_launches (s : State) (y : Agent) (key len : Nat) : (s.endMet y key len).launches = s.launches := rfl
@[simp] theorem State.endMet_helds (s : State) (y : Agent) (key len : Nat) : (s.endMet y key len).helds = s.helds := rfl
@[simp] theorem State.endMet_mem (s : State) (y : Agent) (key len : Nat) : (s.endMet y key len).mem = s.mem := rfl
@[simp] theorem State.endMet_tlb (s : State) (y : Agent) (key len : Nat) : (s.endMet y key len).tlb = s.tlb := rfl
@[simp] theorem State.endMet_groups (s : State) (y : Agent) (key len : Nat) : (s.endMet y key len).groups = s.groups := rfl
@[simp] theorem State.endMet_cores (s : State) (y : Agent) (key len : Nat) : (s.endMet y key len).cores = s.cores := rfl
@[simp] theorem State.endMet_colls (s : State) (y : Agent) (key len : Nat) : (s.endMet y key len).colls = s.colls := rfl
@[simp] theorem State.endMet_agenda (s : State) (y : Agent) (key len : Nat) : (s.endMet y key len).agenda = s.agenda := rfl
@[simp] theorem State.endMet_cur (s : State) (y : Agent) (key len : Nat) : (s.endMet y key len).cur = s.cur := rfl
@[simp] theorem State.endMet_sweep (s : State) (y : Agent) (key len : Nat) : (s.endMet y key len).sweep = s.sweep := rfl
@[simp] theorem State.endMet_now (s : State) (y : Agent) (key len : Nat) : (s.endMet y key len).now = s.now := rfl
@[simp] theorem State.endMet_free (s : State) (y : Agent) (key len : Nat) : (s.endMet y key len).free = s.free := rfl
@[simp] theorem State.endMet_nextId (s : State) (y : Agent) (key len : Nat) : (s.endMet y key len).nextId = s.nextId := rfl

/-! ### `dropIvs` -/

@[simp] theorem State.dropIvs_dev (s : State) (f : Agent → Bool) : (s.dropIvs f).dev = s.dev := rfl
@[simp] theorem State.dropIvs_parts (s : State) (f : Agent → Bool) : (s.dropIvs f).parts = s.parts := rfl
@[simp] theorem State.dropIvs_queues (s : State) (f : Agent → Bool) : (s.dropIvs f).queues = s.queues := rfl
@[simp] theorem State.dropIvs_flog (s : State) (f : Agent → Bool) : (s.dropIvs f).flog = s.flog := rfl
@[simp] theorem State.dropIvs_flogSeq (s : State) (f : Agent → Bool) : (s.dropIvs f).flogSeq = s.flogSeq := rfl
@[simp] theorem State.dropIvs_logovf (s : State) (f : Agent → Bool) : (s.dropIvs f).logovf = s.logovf := rfl
@[simp] theorem State.dropIvs_launches (s : State) (f : Agent → Bool) : (s.dropIvs f).launches = s.launches := rfl
@[simp] theorem State.dropIvs_helds (s : State) (f : Agent → Bool) : (s.dropIvs f).helds = s.helds := rfl
@[simp] theorem State.dropIvs_mem (s : State) (f : Agent → Bool) : (s.dropIvs f).mem = s.mem := rfl
@[simp] theorem State.dropIvs_tlb (s : State) (f : Agent → Bool) : (s.dropIvs f).tlb = s.tlb := rfl
@[simp] theorem State.dropIvs_groups (s : State) (f : Agent → Bool) : (s.dropIvs f).groups = s.groups := rfl
@[simp] theorem State.dropIvs_cores (s : State) (f : Agent → Bool) : (s.dropIvs f).cores = s.cores := rfl
@[simp] theorem State.dropIvs_colls (s : State) (f : Agent → Bool) : (s.dropIvs f).colls = s.colls := rfl
@[simp] theorem State.dropIvs_agenda (s : State) (f : Agent → Bool) : (s.dropIvs f).agenda = s.agenda := rfl
@[simp] theorem State.dropIvs_cur (s : State) (f : Agent → Bool) : (s.dropIvs f).cur = s.cur := rfl
@[simp] theorem State.dropIvs_now (s : State) (f : Agent → Bool) : (s.dropIvs f).now = s.now := rfl
@[simp] theorem State.dropIvs_free (s : State) (f : Agent → Bool) : (s.dropIvs f).free = s.free := rfl
@[simp] theorem State.dropIvs_nextId (s : State) (f : Agent → Bool) : (s.dropIvs f).nextId = s.nextId := rfl

/-! ### `noteIv` -/

@[simp] theorem State.noteIv_dev (s : State) (a : Agent) (key len : Nat) (wr : Bool) : (s.noteIv a key len wr).dev = s.dev := rfl
@[simp] theorem State.noteIv_parts (s : State) (a : Agent) (key len : Nat) (wr : Bool) : (s.noteIv a key len wr).parts = s.parts := rfl
@[simp] theorem State.noteIv_queues (s : State) (a : Agent) (key len : Nat) (wr : Bool) : (s.noteIv a key len wr).queues = s.queues := rfl
@[simp] theorem State.noteIv_flog (s : State) (a : Agent) (key len : Nat) (wr : Bool) : (s.noteIv a key len wr).flog = s.flog := rfl
@[simp] theorem State.noteIv_flogSeq (s : State) (a : Agent) (key len : Nat) (wr : Bool) : (s.noteIv a key len wr).flogSeq = s.flogSeq := rfl
@[simp] theorem State.noteIv_logovf (s : State) (a : Agent) (key len : Nat) (wr : Bool) : (s.noteIv a key len wr).logovf = s.logovf := rfl
@[simp] theorem State.noteIv_launches (s : State) (a : Agent) (key len : Nat) (wr : Bool) : (s.noteIv a key len wr).launches = s.launches := rfl
@[simp] theorem State.noteIv_helds (s : State) (a : Agent) (key len : Nat) (wr : Bool) : (s.noteIv a key len wr).helds = s.helds := rfl
@[simp] theorem State.noteIv_mem (s : State) (a : Agent) (key len : Nat) (wr : Bool) : (s.noteIv a key len wr).mem = s.mem := rfl
@[simp] theorem State.noteIv_tlb (s : State) (a : Agent) (key len : Nat) (wr : Bool) : (s.noteIv a key len wr).tlb = s.tlb := rfl
@[simp] theorem State.noteIv_ivs (s : State) (a : Agent) (key len : Nat) (wr : Bool) : (s.noteIv a key len wr).ivs = s.ivs := rfl
@[simp] theorem State.noteIv_groups (s : State) (a : Agent) (key len : Nat) (wr : Bool) : (s.noteIv a key len wr).groups = s.groups := rfl
@[simp] theorem State.noteIv_cores (s : State) (a : Agent) (key len : Nat) (wr : Bool) : (s.noteIv a key len wr).cores = s.cores := rfl
@[simp] theorem State.noteIv_colls (s : State) (a : Agent) (key len : Nat) (wr : Bool) : (s.noteIv a key len wr).colls = s.colls := rfl
@[simp] theorem State.noteIv_agenda (s : State) (a : Agent) (key len : Nat) (wr : Bool) : (s.noteIv a key len wr).agenda = s.agenda := rfl
@[simp] theorem State.noteIv_cur (s : State) (a : Agent) (key len : Nat) (wr : Bool) : (s.noteIv a key len wr).cur = s.cur := rfl
@[simp] theorem State.noteIv_now (s : State) (a : Agent) (key len : Nat) (wr : Bool) : (s.noteIv a key len wr).now = s.now := rfl
@[simp] theorem State.noteIv_free (s : State) (a : Agent) (key len : Nat) (wr : Bool) : (s.noteIv a key len wr).free = s.free := rfl
@[simp] theorem State.noteIv_nextId (s : State) (a : Agent) (key len : Nat) (wr : Bool) : (s.noteIv a key len wr).nextId = s.nextId := rfl

/-! ### `trap` -/

@[simp] theorem State.trap_dev (s : State) (t code addr : Nat) : (s.trap t code addr).dev = s.dev := rfl
@[simp] theorem State.trap_parts (s : State) (t code addr : Nat) : (s.trap t code addr).parts = s.parts := rfl
@[simp] theorem State.trap_queues (s : State) (t code addr : Nat) : (s.trap t code addr).queues = s.queues := rfl
@[simp] theorem State.trap_flog (s : State) (t code addr : Nat) : (s.trap t code addr).flog = s.flog := rfl
@[simp] theorem State.trap_flogSeq (s : State) (t code addr : Nat) : (s.trap t code addr).flogSeq = s.flogSeq := rfl
@[simp] theorem State.trap_logovf (s : State) (t code addr : Nat) : (s.trap t code addr).logovf = s.logovf := rfl
@[simp] theorem State.trap_launches (s : State) (t code addr : Nat) : (s.trap t code addr).launches = s.launches := rfl
@[simp] theorem State.trap_helds (s : State) (t code addr : Nat) : (s.trap t code addr).helds = s.helds := rfl
@[simp] theorem State.trap_mem (s : State) (t code addr : Nat) : (s.trap t code addr).mem = s.mem := rfl
@[simp] theorem State.trap_tlb (s : State) (t code addr : Nat) : (s.trap t code addr).tlb = s.tlb := rfl
@[simp] theorem State.trap_ivs (s : State) (t code addr : Nat) : (s.trap t code addr).ivs = s.ivs := rfl
@[simp] theorem State.trap_groups (s : State) (t code addr : Nat) : (s.trap t code addr).groups = s.groups := rfl
@[simp] theorem State.trap_cores (s : State) (t code addr : Nat) : (s.trap t code addr).cores = s.cores := rfl
@[simp] theorem State.trap_colls (s : State) (t code addr : Nat) : (s.trap t code addr).colls = s.colls := rfl
@[simp] theorem State.trap_agenda (s : State) (t code addr : Nat) : (s.trap t code addr).agenda = s.agenda := rfl
@[simp] theorem State.trap_cur (s : State) (t code addr : Nat) : (s.trap t code addr).cur = s.cur := rfl
@[simp] theorem State.trap_now (s : State) (t code addr : Nat) : (s.trap t code addr).now = s.now := rfl
@[simp] theorem State.trap_free (s : State) (t code addr : Nat) : (s.trap t code addr).free = s.free := rfl
@[simp] theorem State.trap_nextId (s : State) (t code addr : Nat) : (s.trap t code addr).nextId = s.nextId := rfl

/-! ### `trapAll` -/

@[simp] theorem State.trapAll_dev (s : State) (tids : List Nat) (code addr : Nat) : (s.trapAll tids code addr).dev = s.dev := rfl
@[simp] theorem State.trapAll_parts (s : State) (tids : List Nat) (code addr : Nat) : (s.trapAll tids code addr).parts = s.parts := rfl
@[simp] theorem State.trapAll_queues (s : State) (tids : List Nat) (code addr : Nat) : (s.trapAll tids code addr).queues = s.queues := rfl
@[simp] theorem State.trapAll_flog (s : State) (tids : List Nat) (code addr : Nat) : (s.trapAll tids code addr).flog = s.flog := rfl
@[simp] theorem State.trapAll_flogSeq (s : State) (tids : List Nat) (code addr : Nat) : (s.trapAll tids code addr).flogSeq = s.flogSeq := rfl
@[simp] theorem State.trapAll_logovf (s : State) (tids : List Nat) (code addr : Nat) : (s.trapAll tids code addr).logovf = s.logovf := rfl
@[simp] theorem State.trapAll_launches (s : State) (tids : List Nat) (code addr : Nat) : (s.trapAll tids code addr).launches = s.launches := rfl
@[simp] theorem State.trapAll_helds (s : State) (tids : List Nat) (code addr : Nat) : (s.trapAll tids code addr).helds = s.helds := rfl
@[simp] theorem State.trapAll_mem (s : State) (tids : List Nat) (code addr : Nat) : (s.trapAll tids code addr).mem = s.mem := rfl
@[simp] theorem State.trapAll_tlb (s : State) (tids : List Nat) (code addr : Nat) : (s.trapAll tids code addr).tlb = s.tlb := rfl
@[simp] theorem State.trapAll_ivs (s : State) (tids : List Nat) (code addr : Nat) : (s.trapAll tids code addr).ivs = s.ivs := rfl
@[simp] theorem State.trapAll_groups (s : State) (tids : List Nat) (code addr : Nat) : (s.trapAll tids code addr).groups = s.groups := rfl
@[simp] theorem State.trapAll_cores (s : State) (tids : List Nat) (code addr : Nat) : (s.trapAll tids code addr).cores = s.cores := rfl
@[simp] theorem State.trapAll_colls (s : State) (tids : List Nat) (code addr : Nat) : (s.trapAll tids code addr).colls = s.colls := rfl
@[simp] theorem State.trapAll_agenda (s : State) (tids : List Nat) (code addr : Nat) : (s.trapAll tids code addr).agenda = s.agenda := rfl
@[simp] theorem State.trapAll_cur (s : State) (tids : List Nat) (code addr : Nat) : (s.trapAll tids code addr).cur = s.cur := rfl
@[simp] theorem State.trapAll_now (s : State) (tids : List Nat) (code addr : Nat) : (s.trapAll tids code addr).now = s.now := rfl
@[simp] theorem State.trapAll_free (s : State) (tids : List Nat) (code addr : Nat) : (s.trapAll tids code addr).free = s.free := rfl
@[simp] theorem State.trapAll_nextId (s : State) (tids : List Nat) (code addr : Nat) : (s.trapAll tids code addr).nextId = s.nextId := rfl

/-! ### `violAll` -/

@[simp] theorem State.violAll_dev (s : State) (tids : List Nat) (code addr : Nat) : (s.violAll tids code addr).dev = s.dev := rfl
@[simp] theorem State.violAll_parts (s : State) (tids : List Nat) (code addr : Nat) : (s.violAll tids code addr).parts = s.parts := rfl
@[simp] theorem State.violAll_queues (s : State) (tids : List Nat) (code addr : Nat) : (s.violAll tids code addr).queues = s.queues := rfl
@[simp] theorem State.violAll_flog (s : State) (tids : List Nat) (code addr : Nat) : (s.violAll tids code addr).flog = s.flog := rfl
@[simp] theorem State.violAll_flogSeq (s : State) (tids : List Nat) (code addr : Nat) : (s.violAll tids code addr).flogSeq = s.flogSeq := rfl
@[simp] theorem State.violAll_logovf (s : State) (tids : List Nat) (code addr : Nat) : (s.violAll tids code addr).logovf = s.logovf := rfl
@[simp] theorem State.violAll_launches (s : State) (tids : List Nat) (code addr : Nat) : (s.violAll tids code addr).launches = s.launches := rfl
@[simp] theorem State.violAll_helds (s : State) (tids : List Nat) (code addr : Nat) : (s.violAll tids code addr).helds = s.helds := rfl
@[simp] theorem State.violAll_mem (s : State) (tids : List Nat) (code addr : Nat) : (s.violAll tids code addr).mem = s.mem := rfl
@[simp] theorem State.violAll_tlb (s : State) (tids : List Nat) (code addr : Nat) : (s.violAll tids code addr).tlb = s.tlb := rfl
@[simp] theorem State.violAll_ivs (s : State) (tids : List Nat) (code addr : Nat) : (s.violAll tids code addr).ivs = s.ivs := rfl
@[simp] theorem State.violAll_groups (s : State) (tids : List Nat) (code addr : Nat) : (s.violAll tids code addr).groups = s.groups := rfl
@[simp] theorem State.violAll_cores (s : State) (tids : List Nat) (code addr : Nat) : (s.violAll tids code addr).cores = s.cores := rfl
@[simp] theorem State.violAll_colls (s : State) (tids : List Nat) (code addr : Nat) : (s.violAll tids code addr).colls = s.colls := rfl
@[simp] theorem State.violAll_agenda (s : State) (tids : List Nat) (code addr : Nat) : (s.violAll tids code addr).agenda = s.agenda := rfl
@[simp] theorem State.violAll_cur (s : State) (tids : List Nat) (code addr : Nat) : (s.violAll tids code addr).cur = s.cur := rfl
@[simp] theorem State.violAll_now (s : State) (tids : List Nat) (code addr : Nat) : (s.violAll tids code addr).now = s.now := rfl
@[simp] theorem State.violAll_free (s : State) (tids : List Nat) (code addr : Nat) : (s.violAll tids code addr).free = s.free := rfl
@[simp] theorem State.violAll_nextId (s : State) (tids : List Nat) (code addr : Nat) : (s.violAll tids code addr).nextId = s.nextId := rfl

/-! ### `holdAll` -/

@[simp] theorem State.holdAll_dev (s : State) (tids : List Nat) (ld reg : Bool) : (s.holdAll tids ld reg).dev = s.dev := rfl
@[simp] theorem State.holdAll_parts (s : State) (tids : List Nat) (ld reg : Bool) : (s.holdAll tids ld reg).parts = s.parts := rfl
@[simp] theorem State.holdAll_queues (s : State) (tids : List Nat) (ld reg : Bool) : (s.holdAll tids ld reg).queues = s.queues := rfl
@[simp] theorem State.holdAll_flog (s : State) (tids : List Nat) (ld reg : Bool) : (s.holdAll tids ld reg).flog = s.flog := rfl
@[simp] theorem State.holdAll_flogSeq (s : State) (tids : List Nat) (ld reg : Bool) : (s.holdAll tids ld reg).flogSeq = s.flogSeq := rfl
@[simp] theorem State.holdAll_logovf (s : State) (tids : List Nat) (ld reg : Bool) : (s.holdAll tids ld reg).logovf = s.logovf := rfl
@[simp] theorem State.holdAll_launches (s : State) (tids : List Nat) (ld reg : Bool) : (s.holdAll tids ld reg).launches = s.launches := rfl
@[simp] theorem State.holdAll_helds (s : State) (tids : List Nat) (ld reg : Bool) : (s.holdAll tids ld reg).helds = s.helds := rfl
@[simp] theorem State.holdAll_mem (s : State) (tids : List Nat) (ld reg : Bool) : (s.holdAll tids ld reg).mem = s.mem := rfl
@[simp] theorem State.holdAll_tlb (s : State) (tids : List Nat) (ld reg : Bool) : (s.holdAll tids ld reg).tlb = s.tlb := rfl
@[simp] theorem State.holdAll_ivs (s : State) (tids : List Nat) (ld reg : Bool) : (s.holdAll tids ld reg).ivs = s.ivs := rfl
@[simp] theorem State.holdAll_groups (s : State) (tids : List Nat) (ld reg : Bool) : (s.holdAll tids ld reg).groups = s.groups := rfl
@[simp] theorem State.holdAll_cores (s : State) (tids : List Nat) (ld reg : Bool) : (s.holdAll tids ld reg).cores = s.cores := rfl
@[simp] theorem State.holdAll_colls (s : State) (tids : List Nat) (ld reg : Bool) : (s.holdAll tids ld reg).colls = s.colls := rfl
@[simp] theorem State.holdAll_agenda (s : State) (tids : List Nat) (ld reg : Bool) : (s.holdAll tids ld reg).agenda = s.agenda := rfl
@[simp] theorem State.holdAll_cur (s : State) (tids : List Nat) (ld reg : Bool) : (s.holdAll tids ld reg).cur = s.cur := rfl
@[simp] theorem State.holdAll_now (s : State) (tids : List Nat) (ld reg : Bool) : (s.holdAll tids ld reg).now = s.now := rfl
@[simp] theorem State.holdAll_free (s : State) (tids : List Nat) (ld reg : Bool) : (s.holdAll tids ld reg).free = s.free := rfl
@[simp] theorem State.holdAll_nextId (s : State) (tids : List Nat) (ld reg : Bool) : (s.holdAll tids ld reg).nextId = s.nextId := rfl

/-! ### `stayAll` -/

@[simp] theorem State.stayAll_dev (s : State) (tids : List Nat) : (s.stayAll tids).dev = s.dev := rfl
@[simp] theorem State.stayAll_parts (s : State) (tids : List Nat) : (s.stayAll tids).parts = s.parts := rfl
@[simp] theorem State.stayAll_queues (s : State) (tids : List Nat) : (s.stayAll tids).queues = s.queues := rfl
@[simp] theorem State.stayAll_flog (s : State) (tids : List Nat) : (s.stayAll tids).flog = s.flog := rfl
@[simp] theorem State.stayAll_flogSeq (s : State) (tids : List Nat) : (s.stayAll tids).flogSeq = s.flogSeq := rfl
@[simp] theorem State.stayAll_logovf (s : State) (tids : List Nat) : (s.stayAll tids).logovf = s.logovf := rfl
@[simp] theorem State.stayAll_launches (s : State) (tids : List Nat) : (s.stayAll tids).launches = s.launches := rfl
@[simp] theorem State.stayAll_helds (s : State) (tids : List Nat) : (s.stayAll tids).helds = s.helds := rfl
@[simp] theorem State.stayAll_mem (s : State) (tids : List Nat) : (s.stayAll tids).mem = s.mem := rfl
@[simp] theorem State.stayAll_tlb (s : State) (tids : List Nat) : (s.stayAll tids).tlb = s.tlb := rfl
@[simp] theorem State.stayAll_ivs (s : State) (tids : List Nat) : (s.stayAll tids).ivs = s.ivs := rfl
@[simp] theorem State.stayAll_groups (s : State) (tids : List Nat) : (s.stayAll tids).groups = s.groups := rfl
@[simp] theorem State.stayAll_cores (s : State) (tids : List Nat) : (s.stayAll tids).cores = s.cores := rfl
@[simp] theorem State.stayAll_colls (s : State) (tids : List Nat) : (s.stayAll tids).colls = s.colls := rfl
@[simp] theorem State.stayAll_agenda (s : State) (tids : List Nat) : (s.stayAll tids).agenda = s.agenda := rfl
@[simp] theorem State.stayAll_cur (s : State) (tids : List Nat) : (s.stayAll tids).cur = s.cur := rfl
@[simp] theorem State.stayAll_now (s : State) (tids : List Nat) : (s.stayAll tids).now = s.now := rfl
@[simp] theorem State.stayAll_free (s : State) (tids : List Nat) : (s.stayAll tids).free = s.free := rfl
@[simp] theorem State.stayAll_nextId (s : State) (tids : List Nat) : (s.stayAll tids).nextId = s.nextId := rfl

/-! ### `firmAll` -/

@[simp] theorem State.firmAll_dev (s : State) (tids : List Nat) : (s.firmAll tids).dev = s.dev := rfl
@[simp] theorem State.firmAll_parts (s : State) (tids : List Nat) : (s.firmAll tids).parts = s.parts := rfl
@[simp] theorem State.firmAll_queues (s : State) (tids : List Nat) : (s.firmAll tids).queues = s.queues := rfl
@[simp] theorem State.firmAll_flog (s : State) (tids : List Nat) : (s.firmAll tids).flog = s.flog := rfl
@[simp] theorem State.firmAll_flogSeq (s : State) (tids : List Nat) : (s.firmAll tids).flogSeq = s.flogSeq := rfl
@[simp] theorem State.firmAll_logovf (s : State) (tids : List Nat) : (s.firmAll tids).logovf = s.logovf := rfl
@[simp] theorem State.firmAll_launches (s : State) (tids : List Nat) : (s.firmAll tids).launches = s.launches := rfl
@[simp] theorem State.firmAll_helds (s : State) (tids : List Nat) : (s.firmAll tids).helds = s.helds := rfl
@[simp] theorem State.firmAll_mem (s : State) (tids : List Nat) : (s.firmAll tids).mem = s.mem := rfl
@[simp] theorem State.firmAll_tlb (s : State) (tids : List Nat) : (s.firmAll tids).tlb = s.tlb := rfl
@[simp] theorem State.firmAll_ivs (s : State) (tids : List Nat) : (s.firmAll tids).ivs = s.ivs := rfl
@[simp] theorem State.firmAll_groups (s : State) (tids : List Nat) : (s.firmAll tids).groups = s.groups := rfl
@[simp] theorem State.firmAll_cores (s : State) (tids : List Nat) : (s.firmAll tids).cores = s.cores := rfl
@[simp] theorem State.firmAll_colls (s : State) (tids : List Nat) : (s.firmAll tids).colls = s.colls := rfl
@[simp] theorem State.firmAll_agenda (s : State) (tids : List Nat) : (s.firmAll tids).agenda = s.agenda := rfl
@[simp] theorem State.firmAll_cur (s : State) (tids : List Nat) : (s.firmAll tids).cur = s.cur := rfl
@[simp] theorem State.firmAll_now (s : State) (tids : List Nat) : (s.firmAll tids).now = s.now := rfl
@[simp] theorem State.firmAll_free (s : State) (tids : List Nat) : (s.firmAll tids).free = s.free := rfl
@[simp] theorem State.firmAll_nextId (s : State) (tids : List Nat) : (s.firmAll tids).nextId = s.nextId := rfl

/-! ### `movedAll` -/

@[simp] theorem State.movedAll_dev (s : State) (tids : List Nat) : (s.movedAll tids).dev = s.dev := rfl
@[simp] theorem State.movedAll_parts (s : State) (tids : List Nat) : (s.movedAll tids).parts = s.parts := rfl
@[simp] theorem State.movedAll_queues (s : State) (tids : List Nat) : (s.movedAll tids).queues = s.queues := rfl
@[simp] theorem State.movedAll_flog (s : State) (tids : List Nat) : (s.movedAll tids).flog = s.flog := rfl
@[simp] theorem State.movedAll_flogSeq (s : State) (tids : List Nat) : (s.movedAll tids).flogSeq = s.flogSeq := rfl
@[simp] theorem State.movedAll_logovf (s : State) (tids : List Nat) : (s.movedAll tids).logovf = s.logovf := rfl
@[simp] theorem State.movedAll_launches (s : State) (tids : List Nat) : (s.movedAll tids).launches = s.launches := rfl
@[simp] theorem State.movedAll_helds (s : State) (tids : List Nat) : (s.movedAll tids).helds = s.helds := rfl
@[simp] theorem State.movedAll_mem (s : State) (tids : List Nat) : (s.movedAll tids).mem = s.mem := rfl
@[simp] theorem State.movedAll_tlb (s : State) (tids : List Nat) : (s.movedAll tids).tlb = s.tlb := rfl
@[simp] theorem State.movedAll_ivs (s : State) (tids : List Nat) : (s.movedAll tids).ivs = s.ivs := rfl
@[simp] theorem State.movedAll_groups (s : State) (tids : List Nat) : (s.movedAll tids).groups = s.groups := rfl
@[simp] theorem State.movedAll_cores (s : State) (tids : List Nat) : (s.movedAll tids).cores = s.cores := rfl
@[simp] theorem State.movedAll_colls (s : State) (tids : List Nat) : (s.movedAll tids).colls = s.colls := rfl
@[simp] theorem State.movedAll_agenda (s : State) (tids : List Nat) : (s.movedAll tids).agenda = s.agenda := rfl
@[simp] theorem State.movedAll_cur (s : State) (tids : List Nat) : (s.movedAll tids).cur = s.cur := rfl
@[simp] theorem State.movedAll_now (s : State) (tids : List Nat) : (s.movedAll tids).now = s.now := rfl
@[simp] theorem State.movedAll_free (s : State) (tids : List Nat) : (s.movedAll tids).free = s.free := rfl
@[simp] theorem State.movedAll_nextId (s : State) (tids : List Nat) : (s.movedAll tids).nextId = s.nextId := rfl

/-! ### `raiseFlags` -/

@[simp] theorem State.raiseFlags_dev (s : State) (f : Nat) : (s.raiseFlags f).dev = s.dev := rfl
@[simp] theorem State.raiseFlags_parts (s : State) (f : Nat) : (s.raiseFlags f).parts = s.parts := rfl
@[simp] theorem State.raiseFlags_queues (s : State) (f : Nat) : (s.raiseFlags f).queues = s.queues := rfl
@[simp] theorem State.raiseFlags_flog (s : State) (f : Nat) : (s.raiseFlags f).flog = s.flog := rfl
@[simp] theorem State.raiseFlags_flogSeq (s : State) (f : Nat) : (s.raiseFlags f).flogSeq = s.flogSeq := rfl
@[simp] theorem State.raiseFlags_logovf (s : State) (f : Nat) : (s.raiseFlags f).logovf = s.logovf := rfl
@[simp] theorem State.raiseFlags_launches (s : State) (f : Nat) : (s.raiseFlags f).launches = s.launches := rfl
@[simp] theorem State.raiseFlags_helds (s : State) (f : Nat) : (s.raiseFlags f).helds = s.helds := rfl
@[simp] theorem State.raiseFlags_mem (s : State) (f : Nat) : (s.raiseFlags f).mem = s.mem := rfl
@[simp] theorem State.raiseFlags_tlb (s : State) (f : Nat) : (s.raiseFlags f).tlb = s.tlb := rfl
@[simp] theorem State.raiseFlags_ivs (s : State) (f : Nat) : (s.raiseFlags f).ivs = s.ivs := rfl
@[simp] theorem State.raiseFlags_groups (s : State) (f : Nat) : (s.raiseFlags f).groups = s.groups := rfl
@[simp] theorem State.raiseFlags_cores (s : State) (f : Nat) : (s.raiseFlags f).cores = s.cores := rfl
@[simp] theorem State.raiseFlags_colls (s : State) (f : Nat) : (s.raiseFlags f).colls = s.colls := rfl
@[simp] theorem State.raiseFlags_agenda (s : State) (f : Nat) : (s.raiseFlags f).agenda = s.agenda := rfl
@[simp] theorem State.raiseFlags_cur (s : State) (f : Nat) : (s.raiseFlags f).cur = s.cur := rfl
@[simp] theorem State.raiseFlags_now (s : State) (f : Nat) : (s.raiseFlags f).now = s.now := rfl
@[simp] theorem State.raiseFlags_free (s : State) (f : Nat) : (s.raiseFlags f).free = s.free := rfl
@[simp] theorem State.raiseFlags_nextId (s : State) (f : Nat) : (s.raiseFlags f).nextId = s.nextId := rfl

/-! ### `endTurn` -/

@[simp] theorem State.endTurn_dev (s : State) : (s.endTurn).dev = s.dev := rfl
@[simp] theorem State.endTurn_parts (s : State) : (s.endTurn).parts = s.parts := rfl
@[simp] theorem State.endTurn_queues (s : State) : (s.endTurn).queues = s.queues := rfl
@[simp] theorem State.endTurn_flog (s : State) : (s.endTurn).flog = s.flog := rfl
@[simp] theorem State.endTurn_flogSeq (s : State) : (s.endTurn).flogSeq = s.flogSeq := rfl
@[simp] theorem State.endTurn_logovf (s : State) : (s.endTurn).logovf = s.logovf := rfl
@[simp] theorem State.endTurn_launches (s : State) : (s.endTurn).launches = s.launches := rfl
@[simp] theorem State.endTurn_helds (s : State) : (s.endTurn).helds = s.helds := rfl
@[simp] theorem State.endTurn_mem (s : State) : (s.endTurn).mem = s.mem := rfl
@[simp] theorem State.endTurn_tlb (s : State) : (s.endTurn).tlb = s.tlb := rfl
@[simp] theorem State.endTurn_ivs (s : State) : (s.endTurn).ivs = s.ivs := rfl
@[simp] theorem State.endTurn_groups (s : State) : (s.endTurn).groups = s.groups := rfl
@[simp] theorem State.endTurn_cores (s : State) : (s.endTurn).cores = s.cores := rfl
@[simp] theorem State.endTurn_colls (s : State) : (s.endTurn).colls = s.colls := rfl
@[simp] theorem State.endTurn_agenda (s : State) : (s.endTurn).agenda = s.agenda := rfl
@[simp] theorem State.endTurn_cur (s : State) : (s.endTurn).cur = s.cur := rfl
@[simp] theorem State.endTurn_now (s : State) : (s.endTurn).now = s.now := rfl
@[simp] theorem State.endTurn_free (s : State) : (s.endTurn).free = s.free := rfl
@[simp] theorem State.endTurn_nextId (s : State) : (s.endTurn).nextId = s.nextId := rfl

/-! ### `tick` -/

@[simp] theorem State.tick_dev (s : State) : (s.tick).dev = s.dev := rfl
@[simp] theorem State.tick_parts (s : State) : (s.tick).parts = s.parts := rfl
@[simp] theorem State.tick_queues (s : State) : (s.tick).queues = s.queues := rfl
@[simp] theorem State.tick_flog (s : State) : (s.tick).flog = s.flog := rfl
@[simp] theorem State.tick_flogSeq (s : State) : (s.tick).flogSeq = s.flogSeq := rfl
@[simp] theorem State.tick_logovf (s : State) : (s.tick).logovf = s.logovf := rfl
@[simp] theorem State.tick_launches (s : State) : (s.tick).launches = s.launches := rfl
@[simp] theorem State.tick_helds (s : State) : (s.tick).helds = s.helds := rfl
@[simp] theorem State.tick_mem (s : State) : (s.tick).mem = s.mem := rfl
@[simp] theorem State.tick_tlb (s : State) : (s.tick).tlb = s.tlb := rfl
@[simp] theorem State.tick_groups (s : State) : (s.tick).groups = s.groups := rfl
@[simp] theorem State.tick_cores (s : State) : (s.tick).cores = s.cores := rfl
@[simp] theorem State.tick_colls (s : State) : (s.tick).colls = s.colls := rfl
@[simp] theorem State.tick_agenda (s : State) : (s.tick).agenda = s.agenda := rfl
@[simp] theorem State.tick_cur (s : State) : (s.tick).cur = s.cur := rfl
@[simp] theorem State.tick_nextId (s : State) : (s.tick).nextId = s.nextId := rfl

/-! ### `updGrp` -/

@[simp] theorem State.updGrp_dev (s : State) (gid : Nat) (f : Group → Group) : (s.updGrp gid f).dev = s.dev := by
  unfold State.updGrp; split <;> rfl
@[simp] theorem State.updGrp_parts (s : State) (gid : Nat) (f : Group → Group) : (s.updGrp gid f).parts = s.parts := by
  unfold State.updGrp; split <;> rfl
@[simp] theorem State.updGrp_queues (s : State) (gid : Nat) (f : Group → Group) : (s.updGrp gid f).queues = s.queues := by
  unfold State.updGrp; split <;> rfl
@[simp] theorem State.updGrp_flog (s : State) (gid : Nat) (f : Group → Group) : (s.updGrp gid f).flog = s.flog := by
  unfold State.updGrp; split <;> rfl
@[simp] theorem State.updGrp_flogSeq (s : State) (gid : Nat) (f : Group → Group) : (s.updGrp gid f).flogSeq = s.flogSeq := by
  unfold State.updGrp; split <;> rfl
@[simp] theorem State.updGrp_logovf (s : State) (gid : Nat) (f : Group → Group) : (s.updGrp gid f).logovf = s.logovf := by
  unfold State.updGrp; split <;> rfl
@[simp] theorem State.updGrp_launches (s : State) (gid : Nat) (f : Group → Group) : (s.updGrp gid f).launches = s.launches := by
  unfold State.updGrp; split <;> rfl
@[simp] theorem State.updGrp_helds (s : State) (gid : Nat) (f : Group → Group) : (s.updGrp gid f).helds = s.helds := by
  unfold State.updGrp; split <;> rfl
@[simp] theorem State.updGrp_mem (s : State) (gid : Nat) (f : Group → Group) : (s.updGrp gid f).mem = s.mem := by
  unfold State.updGrp; split <;> rfl
@[simp] theorem State.updGrp_tlb (s : State) (gid : Nat) (f : Group → Group) : (s.updGrp gid f).tlb = s.tlb := by
  unfold State.updGrp; split <;> rfl
@[simp] theorem State.updGrp_ivs (s : State) (gid : Nat) (f : Group → Group) : (s.updGrp gid f).ivs = s.ivs := by
  unfold State.updGrp; split <;> rfl
@[simp] theorem State.updGrp_cores (s : State) (gid : Nat) (f : Group → Group) : (s.updGrp gid f).cores = s.cores := by
  unfold State.updGrp; split <;> rfl
@[simp] theorem State.updGrp_colls (s : State) (gid : Nat) (f : Group → Group) : (s.updGrp gid f).colls = s.colls := by
  unfold State.updGrp; split <;> rfl
@[simp] theorem State.updGrp_agenda (s : State) (gid : Nat) (f : Group → Group) : (s.updGrp gid f).agenda = s.agenda := by
  unfold State.updGrp; split <;> rfl
@[simp] theorem State.updGrp_cur (s : State) (gid : Nat) (f : Group → Group) : (s.updGrp gid f).cur = s.cur := by
  unfold State.updGrp; split <;> rfl
@[simp] theorem State.updGrp_sweep (s : State) (gid : Nat) (f : Group → Group) : (s.updGrp gid f).sweep = s.sweep := by
  unfold State.updGrp; split <;> rfl
@[simp] theorem State.updGrp_now (s : State) (gid : Nat) (f : Group → Group) : (s.updGrp gid f).now = s.now := by
  unfold State.updGrp; split <;> rfl
@[simp] theorem State.updGrp_free (s : State) (gid : Nat) (f : Group → Group) : (s.updGrp gid f).free = s.free := by
  unfold State.updGrp; split <;> rfl
@[simp] theorem State.updGrp_nextId (s : State) (gid : Nat) (f : Group → Group) : (s.updGrp gid f).nextId = s.nextId := by
  unfold State.updGrp; split <;> rfl

/-! ### `updThr` -/

@[simp] theorem State.updThr_dev (s : State) (gid t : Nat) (f : Thread → Thread) : (s.updThr gid t f).dev = s.dev := State.updGrp_dev ..
@[simp] theorem State.updThr_parts (s : State) (gid t : Nat) (f : Thread → Thread) : (s.updThr gid t f).parts = s.parts := State.updGrp_parts ..
@[simp] theorem State.updThr_queues (s : State) (gid t : Nat) (f : Thread → Thread) : (s.updThr gid t f).queues = s.queues := State.updGrp_queues ..
@[simp] theorem State.updThr_flog (s : State) (gid t : Nat) (f : Thread → Thread) : (s.updThr gid t f).flog = s.flog := State.updGrp_flog ..
@[simp] theorem State.updThr_flogSeq (s : State) (gid t : Nat) (f : Thread → Thread) : (s.updThr gid t f).flogSeq = s.flogSeq := State.updGrp_flogSeq ..
@[simp] theorem State.updThr_logovf (s : State) (gid t : Nat) (f : Thread → Thread) : (s.updThr gid t f).logovf = s.logovf := State.updGrp_logovf ..
@[simp] theorem State.updThr_launches (s : State) (gid t : Nat) (f : Thread → Thread) : (s.updThr gid t f).launches = s.launches := State.updGrp_launches ..
@[simp] theorem State.updThr_helds (s : State) (gid t : Nat) (f : Thread → Thread) : (s.updThr gid t f).helds = s.helds := State.updGrp_helds ..
@[simp] theorem State.updThr_mem (s : State) (gid t : Nat) (f : Thread → Thread) : (s.updThr gid t f).mem = s.mem := State.updGrp_mem ..
@[simp] theorem State.updThr_tlb (s : State) (gid t : Nat) (f : Thread → Thread) : (s.updThr gid t f).tlb = s.tlb := State.updGrp_tlb ..
@[simp] theorem State.updThr_ivs (s : State) (gid t : Nat) (f : Thread → Thread) : (s.updThr gid t f).ivs = s.ivs := State.updGrp_ivs ..
@[simp] theorem State.updThr_cores (s : State) (gid t : Nat) (f : Thread → Thread) : (s.updThr gid t f).cores = s.cores := State.updGrp_cores ..
@[simp] theorem State.updThr_colls (s : State) (gid t : Nat) (f : Thread → Thread) : (s.updThr gid t f).colls = s.colls := State.updGrp_colls ..
@[simp] theorem State.updThr_agenda (s : State) (gid t : Nat) (f : Thread → Thread) : (s.updThr gid t f).agenda = s.agenda := State.updGrp_agenda ..
@[simp] theorem State.updThr_cur (s : State) (gid t : Nat) (f : Thread → Thread) : (s.updThr gid t f).cur = s.cur := State.updGrp_cur ..
@[simp] theorem State.updThr_sweep (s : State) (gid t : Nat) (f : Thread → Thread) : (s.updThr gid t f).sweep = s.sweep := State.updGrp_sweep ..
@[simp] theorem State.updThr_now (s : State) (gid t : Nat) (f : Thread → Thread) : (s.updThr gid t f).now = s.now := State.updGrp_now ..
@[simp] theorem State.updThr_free (s : State) (gid t : Nat) (f : Thread → Thread) : (s.updThr gid t f).free = s.free := State.updGrp_free ..
@[simp] theorem State.updThr_nextId (s : State) (gid t : Nat) (f : Thread → Thread) : (s.updThr gid t f).nextId = s.nextId := State.updGrp_nextId ..

/-! ### `updX` -/

@[simp] theorem State.updX_dev (s : State) (n : Nat) (f : Xlat → Xlat) : (s.updX n f).dev = s.dev := rfl
@[simp] theorem State.updX_queues (s : State) (n : Nat) (f : Xlat → Xlat) : (s.updX n f).queues = s.queues := rfl
@[simp] theorem State.updX_flog (s : State) (n : Nat) (f : Xlat → Xlat) : (s.updX n f).flog = s.flog := rfl
@[simp] theorem State.updX_flogSeq (s : State) (n : Nat) (f : Xlat → Xlat) : (s.updX n f).flogSeq = s.flogSeq := rfl
@[simp] theorem State.updX_logovf (s : State) (n : Nat) (f : Xlat → Xlat) : (s.updX n f).logovf = s.logovf := rfl
@[simp] theorem State.updX_launches (s : State) (n : Nat) (f : Xlat → Xlat) : (s.updX n f).launches = s.launches := rfl
@[simp] theorem State.updX_helds (s : State) (n : Nat) (f : Xlat → Xlat) : (s.updX n f).helds = s.helds := rfl
@[simp] theorem State.updX_mem (s : State) (n : Nat) (f : Xlat → Xlat) : (s.updX n f).mem = s.mem := rfl
@[simp] theorem State.updX_tlb (s : State) (n : Nat) (f : Xlat → Xlat) : (s.updX n f).tlb = s.tlb := rfl
@[simp] theorem State.updX_ivs (s : State) (n : Nat) (f : Xlat → Xlat) : (s.updX n f).ivs = s.ivs := rfl
@[simp] theorem State.updX_groups (s : State) (n : Nat) (f : Xlat → Xlat) : (s.updX n f).groups = s.groups := rfl
@[simp] theorem State.updX_cores (s : State) (n : Nat) (f : Xlat → Xlat) : (s.updX n f).cores = s.cores := rfl
@[simp] theorem State.updX_colls (s : State) (n : Nat) (f : Xlat → Xlat) : (s.updX n f).colls = s.colls := rfl
@[simp] theorem State.updX_agenda (s : State) (n : Nat) (f : Xlat → Xlat) : (s.updX n f).agenda = s.agenda := rfl
@[simp] theorem State.updX_cur (s : State) (n : Nat) (f : Xlat → Xlat) : (s.updX n f).cur = s.cur := rfl
@[simp] theorem State.updX_sweep (s : State) (n : Nat) (f : Xlat → Xlat) : (s.updX n f).sweep = s.sweep := rfl
@[simp] theorem State.updX_now (s : State) (n : Nat) (f : Xlat → Xlat) : (s.updX n f).now = s.now := rfl
@[simp] theorem State.updX_free (s : State) (n : Nat) (f : Xlat → Xlat) : (s.updX n f).free = s.free := rfl
@[simp] theorem State.updX_nextId (s : State) (n : Nat) (f : Xlat → Xlat) : (s.updX n f).nextId = s.nextId := rfl

/-! ### `takeFlit` -/

@[simp] theorem State.takeFlit_parts (s : State) (a : Agent) : (s.takeFlit a).parts = s.parts := rfl
@[simp] theorem State.takeFlit_queues (s : State) (a : Agent) : (s.takeFlit a).queues = s.queues := rfl
@[simp] theorem State.takeFlit_flog (s : State) (a : Agent) : (s.takeFlit a).flog = s.flog := rfl
@[simp] theorem State.takeFlit_flogSeq (s : State) (a : Agent) : (s.takeFlit a).flogSeq = s.flogSeq := rfl
@[simp] theorem State.takeFlit_logovf (s : State) (a : Agent) : (s.takeFlit a).logovf = s.logovf := rfl
@[simp] theorem State.takeFlit_launches (s : State) (a : Agent) : (s.takeFlit a).launches = s.launches := rfl
@[simp] theorem State.takeFlit_helds (s : State) (a : Agent) : (s.takeFlit a).helds = s.helds := rfl
@[simp] theorem State.takeFlit_mem (s : State) (a : Agent) : (s.takeFlit a).mem = s.mem := rfl
@[simp] theorem State.takeFlit_tlb (s : State) (a : Agent) : (s.takeFlit a).tlb = s.tlb := rfl
@[simp] theorem State.takeFlit_ivs (s : State) (a : Agent) : (s.takeFlit a).ivs = s.ivs := rfl
@[simp] theorem State.takeFlit_groups (s : State) (a : Agent) : (s.takeFlit a).groups = s.groups := rfl
@[simp] theorem State.takeFlit_cores (s : State) (a : Agent) : (s.takeFlit a).cores = s.cores := rfl
@[simp] theorem State.takeFlit_colls (s : State) (a : Agent) : (s.takeFlit a).colls = s.colls := rfl
@[simp] theorem State.takeFlit_agenda (s : State) (a : Agent) : (s.takeFlit a).agenda = s.agenda := rfl
@[simp] theorem State.takeFlit_cur (s : State) (a : Agent) : (s.takeFlit a).cur = s.cur := rfl
@[simp] theorem State.takeFlit_sweep (s : State) (a : Agent) : (s.takeFlit a).sweep = s.sweep := rfl
@[simp] theorem State.takeFlit_now (s : State) (a : Agent) : (s.takeFlit a).now = s.now := rfl
@[simp] theorem State.takeFlit_free (s : State) (a : Agent) : (s.takeFlit a).free = s.free := rfl
@[simp] theorem State.takeFlit_nextId (s : State) (a : Agent) : (s.takeFlit a).nextId = s.nextId := rfl

/-! ### `unheld` -/

@[simp] theorem State.unheld_parts (s : State) (a : Agent) (line : Nat) : (s.unheld a line).parts = s.parts := rfl
@[simp] theorem State.unheld_queues (s : State) (a : Agent) (line : Nat) : (s.unheld a line).queues = s.queues := rfl
@[simp] theorem State.unheld_flog (s : State) (a : Agent) (line : Nat) : (s.unheld a line).flog = s.flog := rfl
@[simp] theorem State.unheld_flogSeq (s : State) (a : Agent) (line : Nat) : (s.unheld a line).flogSeq = s.flogSeq := rfl
@[simp] theorem State.unheld_logovf (s : State) (a : Agent) (line : Nat) : (s.unheld a line).logovf = s.logovf := rfl
@[simp] theorem State.unheld_launches (s : State) (a : Agent) (line : Nat) : (s.unheld a line).launches = s.launches := rfl
@[simp] theorem State.unheld_helds (s : State) (a : Agent) (line : Nat) : (s.unheld a line).helds = s.helds := rfl
@[simp] theorem State.unheld_mem (s : State) (a : Agent) (line : Nat) : (s.unheld a line).mem = s.mem := rfl
@[simp] theorem State.unheld_tlb (s : State) (a : Agent) (line : Nat) : (s.unheld a line).tlb = s.tlb := rfl
@[simp] theorem State.unheld_ivs (s : State) (a : Agent) (line : Nat) : (s.unheld a line).ivs = s.ivs := rfl
@[simp] theorem State.unheld_groups (s : State) (a : Agent) (line : Nat) : (s.unheld a line).groups = s.groups := rfl
@[simp] theorem State.unheld_cores (s : State) (a : Agent) (line : Nat) : (s.unheld a line).cores = s.cores := rfl
@[simp] theorem State.unheld_colls (s : State) (a : Agent) (line : Nat) : (s.unheld a line).colls = s.colls := rfl
@[simp] theorem State.unheld_agenda (s : State) (a : Agent) (line : Nat) : (s.unheld a line).agenda = s.agenda := rfl
@[simp] theorem State.unheld_cur (s : State) (a : Agent) (line : Nat) : (s.unheld a line).cur = s.cur := rfl
@[simp] theorem State.unheld_sweep (s : State) (a : Agent) (line : Nat) : (s.unheld a line).sweep = s.sweep := rfl
@[simp] theorem State.unheld_now (s : State) (a : Agent) (line : Nat) : (s.unheld a line).now = s.now := rfl
@[simp] theorem State.unheld_free (s : State) (a : Agent) (line : Nat) : (s.unheld a line).free = s.free := rfl
@[simp] theorem State.unheld_nextId (s : State) (a : Agent) (line : Nat) : (s.unheld a line).nextId = s.nextId := rfl

/-! ### `linkOver` -/

@[simp] theorem State.linkOver_parts (s : State) : s.linkOver.parts = s.parts := rfl
@[simp] theorem State.linkOver_queues (s : State) : s.linkOver.queues = s.queues := rfl
@[simp] theorem State.linkOver_flog (s : State) : s.linkOver.flog = s.flog := rfl
@[simp] theorem State.linkOver_flogSeq (s : State) : s.linkOver.flogSeq = s.flogSeq := rfl
@[simp] theorem State.linkOver_logovf (s : State) : s.linkOver.logovf = s.logovf := rfl
@[simp] theorem State.linkOver_launches (s : State) : s.linkOver.launches = s.launches := rfl
@[simp] theorem State.linkOver_helds (s : State) : s.linkOver.helds = s.helds := rfl
@[simp] theorem State.linkOver_mem (s : State) : s.linkOver.mem = s.mem := rfl
@[simp] theorem State.linkOver_tlb (s : State) : s.linkOver.tlb = s.tlb := rfl
@[simp] theorem State.linkOver_ivs (s : State) : s.linkOver.ivs = s.ivs := rfl
@[simp] theorem State.linkOver_groups (s : State) : s.linkOver.groups = s.groups := rfl
@[simp] theorem State.linkOver_cores (s : State) : s.linkOver.cores = s.cores := rfl
@[simp] theorem State.linkOver_colls (s : State) : s.linkOver.colls = s.colls := rfl
@[simp] theorem State.linkOver_agenda (s : State) : s.linkOver.agenda = s.agenda := rfl
@[simp] theorem State.linkOver_cur (s : State) : s.linkOver.cur = s.cur := rfl
@[simp] theorem State.linkOver_sweep (s : State) : s.linkOver.sweep = s.sweep := rfl
@[simp] theorem State.linkOver_now (s : State) : s.linkOver.now = s.now := rfl
@[simp] theorem State.linkOver_free (s : State) : s.linkOver.free = s.free := rfl
@[simp] theorem State.linkOver_nextId (s : State) : s.linkOver.nextId = s.nextId := rfl

/-! ### `tidyHold` -/

@[simp] theorem Group.tidyHold_uid (g : Group) : g.tidyHold.uid = g.uid := rfl
@[simp] theorem Group.tidyHold_core (g : Group) : g.tidyHold.core = g.core := rfl
@[simp] theorem Group.tidyHold_lix (g : Group) : g.tidyHold.lix = g.lix := rfl
@[simp] theorem Group.tidyHold_slot (g : Group) : g.tidyHold.slot = g.slot := rfl
@[simp] theorem Group.tidyHold_lid (g : Group) : g.tidyHold.lid = g.lid := rfl
@[simp] theorem Group.tidyHold_ctx (g : Group) : g.tidyHold.ctx = g.ctx := rfl
@[simp] theorem Group.tidyHold_kind (g : Group) : g.tidyHold.kind = g.kind := rfl
@[simp] theorem Group.tidyHold_role (g : Group) : g.tidyHold.role = g.role := rfl
@[simp] theorem Group.tidyHold_regs (g : Group) : g.tidyHold.regs = g.regs := rfl
@[simp] theorem Group.tidyHold_eclass (g : Group) : g.tidyHold.eclass = g.eclass := rfl
@[simp] theorem Group.tidyHold_frozen (g : Group) : g.tidyHold.frozen = g.frozen := rfl
@[simp] theorem Group.tidyHold_toFreeze (g : Group) : g.tidyHold.toFreeze = g.toFreeze := rfl
@[simp] theorem Group.tidyHold_threads (g : Group) : g.tidyHold.threads = g.threads := rfl
@[simp] theorem Group.tidyHold_g (g : Group) : g.tidyHold.g = g.g := rfl
@[simp] theorem Group.tidyHold_pend (g : Group) : g.tidyHold.pend = g.pend := rfl
@[simp] theorem Group.tidyHold_parks (g : Group) : g.tidyHold.parks = g.parks := rfl
@[simp] theorem Group.tidyHold_gpark (g : Group) : g.tidyHold.gpark = g.gpark := rfl
@[simp] theorem Group.tidyHold_clauses (g : Group) : g.tidyHold.clauses = g.clauses := rfl
@[simp] theorem Group.tidyHold_tags (g : Group) : g.tidyHold.tags = g.tags := rfl
@[simp] theorem Group.tidyHold_deferred (g : Group) : g.tidyHold.deferred = g.deferred := rfl
@[simp] theorem Group.tidyHold_turnAt (g : Group) : g.tidyHold.turnAt = g.turnAt := rfl
@[simp] theorem Group.tidyHold_turn (g : Group) : g.tidyHold.turn = g.turn := rfl
@[simp] theorem Group.tidyHold_turnLast (g : Group) : g.tidyHold.turnLast = g.turnLast := rfl
@[simp] theorem Group.tidyHold_holdNo (g : Group) : g.tidyHold.holdNo = g.holdNo := rfl
@[simp] theorem Group.tidyHold_last (g : Group) : g.tidyHold.last = g.last := rfl
@[simp] theorem Group.tidyHold_rank (g : Group) : g.tidyHold.rank = g.rank := rfl
@[simp] theorem Group.tidyHold_again (g : Group) : g.tidyHold.again = g.again := rfl
@[simp] theorem Group.tidyHold_entry (g : Group) : g.tidyHold.entry = g.entry := rfl
@[simp] theorem Group.tidyHold_marked (g : Group) : g.tidyHold.marked = g.marked := rfl
@[simp] theorem Group.tidyHold_argsDue (g : Group) : g.tidyHold.argsDue = g.argsDue := rfl
@[simp] theorem Group.tidyHold_place (g : Group) : g.tidyHold.place = g.place := rfl
@[simp] theorem Group.tidyHold_inst (g : Group) : g.tidyHold.inst = g.inst := rfl
@[simp] theorem Group.tidyHold_trapHdr (g : Group) : g.tidyHold.trapHdr = g.trapHdr := rfl

/-! ### Tables -/

@[simp] theorem kget_kset_self {α : Type} (d : α) (m : List (Nat × α)) (n : Nat) (v : α) : kget d (kset m n v) n = v := by
  induction m with
  | nil => simp [kset, kget]
  | cons e m ih =>
    simp only [kset]
    split
    · simp [kget]
    · split
      · simp [kget]
      · simp [kget, *]

theorem kget_kset_ne {α : Type} (d : α) (m : List (Nat × α)) (n k : Nat) (v : α) (h : k ≠ n) :
    kget d (kset m n v) k = kget d m k := by
  induction m with
  | nil => simp [kset, kget, Ne.symm h]
  | cons e m ih =>
    simp only [kset]
    split
    · simp [kget, Ne.symm h]
    · split
      · simp [kget, *, Ne.symm h]
      · simp [kget, ih]

@[simp] theorem kfind_kset_self {α : Type} (m : List (Nat × α)) (n : Nat) (v : α) : kfind (kset m n v) n = some v := by
  induction m with
  | nil => simp [kset, kfind]
  | cons e m ih =>
    simp only [kset]
    split
    · simp [kfind]
    · split
      · simp [kfind]
      · simp [kfind, *]

theorem kfind_kset_ne {α : Type} (m : List (Nat × α)) (n k : Nat) (v : α) (h : k ≠ n) :
    kfind (kset m n v) k = kfind m k := by
  induction m with
  | nil => simp [kset, kfind, Ne.symm h]
  | cons e m ih =>
    simp only [kset]
    split
    · simp [kfind, Ne.symm h]
    · split
      · simp [kfind, *, Ne.symm h]
      · simp [kfind, ih]

theorem kget_of_kfind {α : Type} (d : α) (m : List (Nat × α)) (n : Nat) (v : α) (h : kfind m n = some v) :
    kget d m n = v := by
  induction m with
  | nil => simp [kfind] at h
  | cons e m ih =>
    simp only [kfind] at h
    simp only [kget]
    split
    · simp_all
    · exact ih (by simp_all)

/-! ### Groups and threads -/

theorem State.grp_of_kfind (s : State) (gid : Nat) (g : Group) (h : kfind s.groups gid = some g) : s.grp gid = g :=
  kget_of_kfind _ _ _ _ h

theorem State.updGrp_groups (s : State) (gid : Nat) (f : Group → Group) (g : Group) (h : kfind s.groups gid = some g) :
    (s.updGrp gid f).groups = kset s.groups gid (f g) := by
  unfold State.updGrp; rw [h]; rfl

theorem State.updGrp_kfind (s : State) (gid : Nat) (f : Group → Group) (g : Group) (h : kfind s.groups gid = some g) :
    kfind (s.updGrp gid f).groups gid = some (f g) := by
  rw [s.updGrp_groups gid f g h]; exact kfind_kset_self ..

theorem State.updGrp_grp (s : State) (gid : Nat) (f : Group → Group) (g : Group) (h : kfind s.groups gid = some g) :
    (s.updGrp gid f).grp gid = f g :=
  State.grp_of_kfind _ _ _ (s.updGrp_kfind gid f g h)

theorem State.updGrp_grp_ne (s : State) (gid k : Nat) (f : Group → Group) (h : k ≠ gid) :
    (s.updGrp gid f).grp k = s.grp k := by
  unfold State.updGrp
  split
  · exact kget_kset_ne _ _ _ _ _ h
  · rfl

@[simp] theorem State.updCore_core (s : State) (k : Nat) (f : Core → Core) : (s.updCore k f).core k = f (s.core k) :=
  kget_kset_self ..

theorem State.updCore_core_ne (s : State) (k j : Nat) (f : Core → Core) (h : j ≠ k) :
    (s.updCore k f).core j = s.core j := kget_kset_ne _ _ _ _ _ h

end Sys2Proof.Machine
end

