-- ==== Sys2Proof/Laws/Sweep.lean ====
section
/-! SUPPORT. What a sweep does: reading plain operands changes nothing, one turn of an ALU instruction writes its own
thread, and the end of a sweep moves the threads of the path on. -/

namespace Sys2Proof.Machine

open Sys2Proof

/-! ### Groups -/

theorem kset_kset {α : Type} (m : List (Nat × α)) (n : Nat) (a b : α) : kset (kset m n a) n b = kset m n b := by
  induction m with
  | nil => simp [kset]
  | cons e m ih =>
    simp only [kset]
    split
    · simp [kset]
    · split
      · simp [kset, *]
      · simp [kset, *]

theorem kset_self {α : Type} (m : List (Nat × α)) (n : Nat) (a : α) (h : kfind m n = some a) (hr : rising m = true) :
    kset m n a = m := by
  induction m with
  | nil => simp [kfind] at h
  | cons e m ih =>
    simp only [kfind] at h
    simp only [kset]
    by_cases he : e.1 = n
    · rw [if_neg (by omega), if_pos he]
      simp_all
      rw [← h, ← he]
    · rw [if_neg he] at h
      have hr' : rising m = true := by
        cases m with
        | nil => rfl
        | cons b m => simp only [rising, Bool.and_eq_true] at hr; exact hr.2
      have hlt : ∀ (l : List (Nat × α)) (k : Nat), (match l with | [] => true | b :: _ => decide (k < b.1)) = true →
          rising l = true → kfind l n = some a → k < n := by
        intro l
        induction l with
        | nil => intro k _ _ h; simp [kfind] at h
        | cons b l ih =>
          intro k hk hr h
          simp only [decide_eq_true_eq] at hk
          simp only [kfind] at h
          by_cases hb : b.1 = n
          · omega
          · rw [if_neg hb] at h
            have := ih b.1 (by
              cases l with
              | nil => rfl
              | cons c l => simp only [rising, Bool.and_eq_true] at hr; exact hr.1) (by
              cases l with
              | nil => rfl
              | cons c l => simp only [rising, Bool.and_eq_true] at hr; exact hr.2) h
            omega
      have := hlt m e.1 (by
        cases m with
        | nil => rfl
        | cons b m => simp only [rising, Bool.and_eq_true] at hr; exact hr.1) hr' h
      rw [if_neg (by omega), if_neg he, ih h hr']

theorem State.updGrp_eq (s : State) (gid : Nat) (f : Group → Group) (g : Group) (h : kfind s.groups gid = some g) :
    s.updGrp gid f = { s with groups := kset s.groups gid (f g) } := by
  unfold State.updGrp; rw [h]; rfl

@[simp] theorem Group.setThr_thr (g : Group) (t : Nat) (x : Thread) (h : t < g.threads.length) : (g.setThr t x).thr t = x := by
  simp [Group.thr, Group.setThr, h]

theorem Group.setThr_thr_ne (g : Group) (t u : Nat) (x : Thread) (h : u ≠ t) : (g.setThr t x).thr u = g.thr u := by
  simp [Group.thr, Group.setThr, Ne.symm h]

@[simp] theorem Group.updThr_thr (g : Group) (t : Nat) (f : Thread → Thread) (h : t < g.threads.length) :
    (g.updThr t f).thr t = f (g.thr t) := Group.setThr_thr _ _ _ h

theorem Group.updThr_thr_ne (g : Group) (t u : Nat) (f : Thread → Thread) (h : u ≠ t) :
    (g.updThr t f).thr u = g.thr u := Group.setThr_thr_ne _ _ _ _ h

@[simp] theorem Group.updThr_length (g : Group) (t : Nat) (f : Thread → Thread) :
    (g.updThr t f).threads.length = g.threads.length := by simp [Group.updThr, Group.setThr]

/-- An update of threads alone: every other field of the group stands. -/
def Group.withThreads (g : Group) (ts : List Thread) : Group := { g with threads := ts }

theorem Group.updThr_eq (g : Group) (t : Nat) (f : Thread → Thread) :
    g.updThr t f = g.withThreads (g.updThr t f).threads := rfl

/-- The updates of the threads of a list, each by its own function. -/
theorem Group.foldThr (F : Nat → Thread → Thread) (l : List Nat) (g : Group) (hn : l.Nodup)
    (hl : ∀ t ∈ l, t < g.threads.length) :
    ∃ ts, l.foldl (fun g t => g.updThr t (F t)) g = g.withThreads ts ∧ ts.length = g.threads.length ∧
      ∀ u, (g.withThreads ts).thr u = if u ∈ l then F u (g.thr u) else g.thr u := by
  induction l generalizing g with
  | nil => exact ⟨g.threads, rfl, rfl, fun u => by simp [Group.withThreads]⟩
  | cons t l ih =>
    obtain ⟨ts, h1, h2, h3⟩ := ih (g.updThr t (F t)) (List.nodup_cons.1 hn).2
      (fun u hu => by rw [Group.updThr_length]; exact hl u (List.mem_cons_of_mem _ hu))
    refine ⟨ts, by rw [List.foldl_cons, h1]; rfl, by rw [h2, Group.updThr_length], fun u => ?_⟩
    have h4 := h3 u
    have h5 : ((g.updThr t (F t)).withThreads ts).thr u = (g.withThreads ts).thr u := rfl
    rw [h5] at h4
    rw [h4]
    by_cases hu : u = t
    · subst hu
      rw [if_neg (List.nodup_cons.1 hn).1, if_pos (List.mem_cons_self ..),
        Group.updThr_thr _ _ _ (hl u (List.mem_cons_self ..))]
    · rw [Group.updThr_thr_ne _ _ _ _ hu]
      by_cases hul : u ∈ l
      · rw [if_pos hul, if_pos (List.mem_cons_of_mem _ hul)]
      · rw [if_neg hul, if_neg (by simp [hu, hul])]

/-! ### The end of a sweep in which nothing trapped -/

/-- A thread of the path after the sweep: it has moved on, but for one that the instruction moved itself. -/
def Thread.after (x : Thread) (c : Cur) (moved : List Nat) (now t : Nat) : Thread :=
  if moved.contains t then { x with popped := [], replay := false, stays := false, done := false, last := now }
  else { x.advance c with popped := [], replay := false, stays := false, done := false, last := now }

/-- The group once the threads of the path have moved on and the flags have joined FLG. -/
def Group.movedOn (g : Group) (c : Cur) (now : Nat) (w : Sweep) : Group :=
  let h := c.path.foldl (fun g t => g.updThr t fun x => x.after c w.moved now t) g
  { h with ctl := h.ctl.raise w.flags }

/-- The group after a sweep in which no thread trapped, violated, was held or stayed. -/
def Group.swept (g : Group) (c : Cur) (now : Nat) (w : Sweep) (out : Bool) (going : List Nat) : Group :=
  (g.movedOn c now w).tidyHold.endSweep c w.yield now out going

/-- No thread of the sweep trapped, violated, was held at a load or stays at the instruction. -/
structure Sweep.Clean (w : Sweep) : Prop where
  traps : w.traps = []
  viols : w.viols = []
  holds : w.holds = []
  stays : w.stays = []
  loads : w.loads = []

theorem State.moveOn_clean (s : State) (g : Group) (hg : kfind s.groups s.cur.gid = some g) (hw : s.sweep.Clean) :
    s.moveOn = { s with groups := kset s.groups s.cur.gid (g.movedOn s.cur s.now s.sweep) } := by
  obtain ⟨h1, h2, h3, h4, h5⟩ := hw
  rw [State.moveOn, State.updGrp_eq _ _ _ g hg]
  have : (fun (g : Group) (t : Nat) => g.updThr t (s.moved t))
      = fun (g : Group) (t : Nat) => g.updThr t fun x => x.after s.cur s.sweep.moved s.now t := by
    funext g t
    congr 1
    funext x
    simp only [State.moved, State.stalls, h3, h4, State.trapped, State.violated, h1, h2, List.contains_nil, List.any_nil, Bool.or_self,
      List.isEmpty_nil, Bool.and_self, Bool.not_true, Bool.and_false, Bool.false_eq_true, if_false, Thread.after]
  simp only [this, h5, List.isEmpty_nil, Bool.true_or, if_true]
  rfl

theorem Thread.after_life (x : Thread) (c : Cur) (mv : List Nat) (now t : Nat) : (x.after c mv now t).life = x.life := by
  unfold Thread.after
  split
  · rfl
  · simp only
    unfold Thread.advance
    split
    · rfl
    · split
      · split
        · split <;> rfl
        · rfl
      · rfl

/-- Threads of the group once they have moved on. -/
theorem Group.movedOn_thr (g : Group) (c : Cur) (now : Nat) (w : Sweep) (hs : g.threads.length = 16)
    (hn : c.path.Nodup) (ht : ∀ t ∈ c.path, t < 16) (u : Nat) :
    (g.movedOn c now w).thr u = if u ∈ c.path then (g.thr u).after c w.moved now u else g.thr u := by
  obtain ⟨ts, h1, _, h3⟩ := Group.foldThr (fun t x => x.after c w.moved now t) c.path g hn
    (fun t h => by rw [hs]; exact ht t h)
  have := h3 u
  simp only [Group.movedOn, h1]
  exact this

theorem Group.movedOn_fields (g : Group) (c : Cur) (now : Nat) (w : Sweep) (hs : g.threads.length = 16)
    (hn : c.path.Nodup) (ht : ∀ t ∈ c.path, t < 16) :
    ∃ ts, ts.length = 16 ∧ g.movedOn c now w = { g.withThreads ts with
      ctl := g.ctl.raise w.flags } := by
  obtain ⟨ts, h1, h2, _⟩ := Group.foldThr (fun t x => x.after c w.moved now t) c.path g hn
    (fun t h => by rw [hs]; exact ht t h)
  exact ⟨ts, by rw [h2, hs], by simp only [Group.movedOn, h1]; rfl⟩

theorem State.trapsTaken_clean (s : State) (h : s.sweep.Clean) : s.trapsTaken = s := by
  unfold State.trapsTaken; rw [h.traps]; rfl

theorem State.violsTaken_clean (s : State) (h : s.sweep.Clean) : s.violsTaken = s := by
  unfold State.violsTaken
  rw [h.viols]
  have : ((List.range 16).findSome? fun t => ([] : List (Nat × Nat × Nat)).find? fun e => e.1 = t) = none := by
    rw [List.findSome?_eq_none_iff]; intro t _; rfl
  rw [this]

theorem State.settleGroup_eq (s : State) (g : Group) (hg : kfind s.groups s.cur.gid = some g) :
    ∃ out going, s.settleGroup = { s with
      groups := kset s.groups s.cur.gid (g.tidyHold.endSweep s.cur s.sweep.yield s.now out going) } := by
  refine ⟨State.outstanding { s with groups := kset s.groups s.cur.gid g.tidyHold } s.cur.gid,
    State.going { s with groups := kset s.groups s.cur.gid g.tidyHold }, ?_⟩
  rw [State.settleGroup, State.updGrp_eq _ _ _ g hg]
  simp only []
  rw [State.updGrp_eq _ _ _ g.tidyHold (kfind_kset_self ..)]
  simp only [kset_kset]

/-- No freeze comes at the end of the sweep of a group that none is due for (R232). -/
theorem State.freezeDue_none (s : State) (gid : Nat) (g : Group) (hg : kfind s.groups gid = some g) (h : g.toFreeze = none) :
    s.freezeDue gid = s := by
  unfold State.freezeDue
  have : s.grp gid = g := kget_of_kfind _ _ _ _ hg
  simp only [this, h]

/-- `linkOver` changes the device's requests alone. -/
theorem State.linkOver_eq (s : State) : s.linkOver = { s with dev := s.linkOver.dev } := rfl

/-- What `linkOver` leaves depends on the requests of the device, the sweep, the path and the core of the group. -/
theorem State.linkOver_congr (s t : State) (hd : t.dev = s.dev) (hc : t.cur = s.cur) (hk : t.cg.core = s.cg.core)
    (hw : t.sweep.stays = s.sweep.stays) (hh : t.sweep.holds = s.sweep.holds) : t.linkOver.dev = s.linkOver.dev := by
  unfold State.linkOver
  simp only [hd, hc, hk, hw, hh]

theorem State.linkOver_group (s : State) (g h : Group) (w : Sweep) (hg : kfind s.groups s.cur.gid = some g)
    (hc : h.core = g.core) (hw : w.stays = s.sweep.stays) (hh : w.holds = s.sweep.holds) :
    (State.linkOver { s with groups := kset s.groups s.cur.gid h, sweep := w }).dev = s.linkOver.dev := by
  refine State.linkOver_congr s _ rfl rfl ?_ hw hh
  have e1 : s.cg = g := kget_of_kfind _ _ _ _ hg
  have e2 : State.cg { s with groups := kset s.groups s.cur.gid h, sweep := w } = h := kget_kset_self ..
  rw [e1, e2]; exact hc

/-- `closeGroup` leaves a group with a live thread in place (R107). -/
theorem State.closeGroup_live (s : State) (gid : Nat) (h : ∃ t, t < 16 ∧ (s.thr gid t).life = .live) :
    s.closeGroup gid = s := by
  unfold State.closeGroup
  have : ((s.grp gid).liveTids.isEmpty) = false := by
    obtain ⟨t, h1, h2⟩ := h
    simp only [Group.liveTids, List.isEmpty_eq_false_iff, ne_eq]
    intro hc
    have : t ∈ (List.range 16).filter fun t => ((s.grp gid).thr t).life = .live :=
      List.mem_filter.2 ⟨List.mem_range.2 h1, decide_eq_true h2⟩
    rw [hc] at this
    simp at this
  simp only [this, Bool.not_false, Bool.or_true, Bool.true_or, if_true]

/-- The end of a sweep in which no thread trapped, violated, was held or stayed, and some thread is still live. -/
theorem State.finish_clean (s : State) (g : Group) (hg : kfind s.groups s.cur.gid = some g) (hw : s.sweep.Clean)
    (hs : g.threads.length = 16) (hn : s.cur.path.Nodup) (ht : ∀ t ∈ s.cur.path, t < 16)
    (hl : ∃ t, t < 16 ∧ (g.thr t).life = .live) (hz : g.toFreeze = none) :
    ∃ out going, s.finish = { s with
      dev := s.linkOver.dev
      ivs := s.sweep.ivs ++ s.ivs
      groups := kset s.groups s.cur.gid (g.swept s.cur s.now s.sweep out going)
      sweep := Sweep.reset
      now := s.now + 1
      free := s.free + 1 } := by
  have hw' : s.joinIvs.sweep.Clean := hw
  have hg' : kfind s.joinIvs.groups s.joinIvs.cur.gid = some g := hg
  have h1 := State.moveOn_clean s.joinIvs g hg' hw'
  have h2 : s.joinIvs.moveOn.trapsTaken = s.joinIvs.moveOn := by
    rw [h1]; exact State.trapsTaken_clean _ hw'
  have h3 : s.joinIvs.moveOn.violsTaken = s.joinIvs.moveOn := by
    rw [h1]; exact State.violsTaken_clean _ hw'
  have h4 : kfind s.joinIvs.moveOn.groups s.joinIvs.moveOn.cur.gid = some (g.movedOn s.cur s.now s.sweep) := by
    rw [h1]; exact kfind_kset_self ..
  have hz' : (g.movedOn s.cur s.now s.sweep).toFreeze = none := by
    obtain ⟨ts, _, h⟩ := g.movedOn_fields s.cur s.now s.sweep hs hn ht
    rw [h]; exact hz
  have hcur : s.joinIvs.moveOn.cur = s.cur := by rw [h1]; rfl
  have h5 := State.freezeDue_none s.joinIvs.moveOn s.cur.gid _ (by rw [hcur] at h4; exact h4) hz'
  obtain ⟨out, going, h6⟩ := State.settleGroup_eq s.joinIvs.moveOn _ h4
  have hcore : (g.movedOn s.cur s.now s.sweep).core = g.core := by
    obtain ⟨ts, _, h⟩ := g.movedOn_fields s.cur s.now s.sweep hs hn ht
    rw [h]; rfl
  refine ⟨out, going, ?_⟩
  rw [State.finish, h2, h3, h5, State.linkOver_eq, State.linkOver_congr s, h6, State.closeGroup_live, h1]
  · simp only [State.sweepOver, kset_kset]
    rfl
  · obtain ⟨t, ht1, ht2⟩ := hl
    refine ⟨t, ht1, ?_⟩
    have hmo := Group.movedOn_thr g s.cur s.now s.sweep hs hn ht t
    have : (kget Group.absent (kset s.joinIvs.moveOn.groups s.joinIvs.moveOn.cur.gid
        ((g.movedOn s.cur s.now s.sweep).tidyHold.endSweep s.joinIvs.moveOn.cur s.joinIvs.moveOn.sweep.yield
          s.joinIvs.moveOn.now out going)) s.joinIvs.moveOn.cur.gid).thr t = (g.movedOn s.cur s.now s.sweep).thr t := by
      rw [kget_kset_self]; rfl
    rw [hcur] at this ⊢
    rw [State.thr, State.grp, this, hmo]
    split
    · rw [Thread.after_life]; exact ht2
    · exact ht2
  · rw [h6, h1]; rfl
  · rw [h6, h1]; rfl
  · have e1 : s.cg = g := by unfold State.cg State.grp; exact kget_of_kfind _ _ _ _ hg
    have e2 : s.joinIvs.moveOn.settleGroup.cg
        = (g.movedOn s.cur s.now s.sweep).tidyHold.endSweep s.joinIvs.moveOn.cur s.joinIvs.moveOn.sweep.yield
          s.joinIvs.moveOn.now out going := by
      rw [h6]; unfold State.cg State.grp; exact kget_kset_self ..
    rw [e1, e2]; exact hcore
  · rw [h6, h1]; rfl
  · rw [h6, h1]; rfl

end Sys2Proof.Machine
end

