-- ==== Sys2Proof/Laws/Alu.lean ====
section
/-! SUPPORT. Reading plain operands changes no state and depends on the thread's own registers, the g registers and the
control registers alone; what one turn of an ALU instruction writes; and what a whole sweep writes. -/

namespace Sys2Proof.Machine

open Sys2Proof

/-! ### Reading -/

/-- A code that is neither a window nor a queue. -/
def PlainCode (c : Code) : Prop := c.toNat < 112 ∨ (120 ≤ c.toNat ∧ c.toNat < 124)

/-- Two groups look alike to the sources of a thread. -/
structure Group.Alike (g h : Group) (t : Nat) : Prop where
  thr  : h.thr t = g.thr t
  regs : h.g = g.g
  lix  : h.lix = g.lix
  ctl  : h.ctl = g.ctl
  pend : ∀ c, (h.pendOn t c).map (fun p => (p.regs, p.code)) = (g.pendOn t c).map (fun p => (p.regs, p.code))

theorem Group.Alike.refl (g : Group) (t : Nat) : g.Alike g t := ⟨rfl, rfl, rfl, rfl, fun _ => rfl⟩

theorem Group.Alike.trans {g h k : Group} {t : Nat} (a : g.Alike h t) (b : h.Alike k t) : g.Alike k t :=
  ⟨b.thr.trans a.thr, b.regs.trans a.regs, b.lix.trans a.lix, b.ctl.trans a.ctl, fun c => (b.pend c).trans (a.pend c)⟩

theorem Group.Alike.source {g h : Group} {t : Nat} (a : g.Alike h t) (free c : Nat) :
    h.source free t c = g.source free t c := by
  have hs : h.settled t c = g.settled t c := by
    unfold Group.settled; rw [a.thr, a.regs]
  have hr : h.readReg free t c = g.readReg free t c := by
    unfold Group.readReg
    have hp := a.pend c
    generalize h.pendOn t c = x at hp
    generalize g.pendOn t c = y at hp
    cases x <;> cases y <;> simp_all
  unfold Group.source Group.isDead
  rw [a.thr, a.ctl, hr]

theorem State.readOp_plain (s u : State) (gid t : Nat) (o : Operand) (hc : PlainCode o.code)
    (a : (s.grp gid).Alike (u.grp gid) t) (hf : u.free = s.free) (hcur : u.cur = s.cur) :
    u.readOp gid t o = (u, (s.readOp gid t o).2) ∧ s.readOp gid t o = (s, (s.readOp gid t o).2) := by
  unfold State.readOp
  simp only [a.source, hf, hcur, a.lix]
  by_cases h : o.code.toNat < 112
  · simp only [h, if_true]
    split
    · exact ⟨rfl, rfl⟩
    · split
      · split <;> exact ⟨rfl, rfl⟩
      · exact ⟨rfl, rfl⟩
  · simp only [h, if_false]
    have h2 : 120 ≤ o.code.toNat ∧ o.code.toNat < 124 := by
      rcases hc with hc | hc
      · omega
      · exact hc
    rw [if_neg (by omega), if_neg (by omega)]
    generalize o.code.toNat = n at h2
    have : n = 120 ∨ n = 121 ∨ n = 122 ∨ n = 123 := by omega
    rcases this with rfl | rfl | rfl | rfl <;> exact ⟨rfl, rfl⟩

theorem State.readOps_plain (s u : State) (gid t : Nat) (os : List Operand)
    (hc : ∀ o ∈ os, o.form.isSrc = true → PlainCode o.code)
    (a : (s.grp gid).Alike (u.grp gid) t) (hf : u.free = s.free) (hcur : u.cur = s.cur) (v : Vals) :
    u.readOps gid t os v = (u, (s.readOps gid t os v).2) := by
  induction os generalizing v with
  | nil => rfl
  | cons o os ih =>
    have ih := ih fun o ho => hc o (List.mem_cons_of_mem _ ho)
    unfold State.readOps
    by_cases h : o.form.isSrc = true
    · obtain ⟨h1, h2⟩ := s.readOp_plain u gid t o (hc o (List.mem_cons_self ..) h) a hf hcur
      rw [h1, h2]
      simp only [h, Bool.not_true, Bool.false_eq_true, if_false]
      cases (s.readOp gid t o).2 with
      | ok x p => exact ih _
      | trap _ _ => rfl
      | viol _ _ => rfl
      | waits => rfl
    · simp only [h, Bool.not_false, if_true]
      exact ih v

/-! ### One turn -/

/-- The destination register of an instruction. -/
def dstOf (i : Instr) : Dst :=
  match (operands i).find? fun o => o.fld = .D with
  | some o => if o.code.toNat < 112 then .reg o.code.toNat o.form.isPair else .none
  | none => .none

/-- The registers that a result fills. -/
def resultRegs (pair : Bool) (v : DWord) (p : Bool) : List Reg :=
  if pair then [Reg.mk v.lo p, Reg.mk v.hi p] else [Reg.mk v.lo p]

/-- A result written to a destination register, or pending for it (R118). -/
def Group.putResult (g : Group) (t : Nat) (d : Dst) (v : DWord) (p : Bool) (kind : Option Nat) : Group :=
  match d with
  | .reg c pair =>
    let rs := resultRegs pair v p
    match kind with
    | none => (List.range rs.length).foldl (fun g k => g.writeReg t (c + k) (rs.getD k Reg.zero)) g
    | some k => { g with pend := g.pend ++ [⟨t, c, rs, k, none, [], none⟩] }
  | _ => g

theorem State.writeDst_plain (s : State) (g : Group) (gid t : Nat) (d : Dst) (v : DWord) (p : Bool) (kind : Option Nat)
    (hg : kfind s.groups gid = some g) (hk : g.kind ≠ .pitcher) (hd : ∀ a k q, d ≠ .win a k q) :
    s.writeDst gid t d v p kind = { s with
      groups := (if d = .none then s.groups else kset s.groups gid (g.putResult t d v p kind)) } := by
  unfold State.writeDst
  rw [s.grp_of_kfind _ _ hg, if_neg hk]
  cases d with
  | none => simp
  | win a k p => exact absurd rfl (hd a k p)
  | reg c pair =>
    cases kind <;> simp only [State.updGrp_eq _ _ _ g hg, reduceCtorEq, if_false] <;> rfl

/-- What one turn of an ALU instruction does to the group. -/
def Group.aluStep (g : Group) (i : Instr) (kind : Option Nat) (ps : List Nat) (pd : Option Nat)
    (f : Env → Vals → Ans) (v : Vals) (t : Nat) (tt : List Nat) : Group :=
  let r := g.answer ps f v t
  let p := g.answerP ps f v t tt
  let g := g.updThr t fun x => { x with gen := r.gen }
  match pd with
  | some n => g.writePred t n ⟨r.v ≠ 0#64, p⟩
  | none => g.putResult t (dstOf i) r.v p kind

/-- The destination is no window. -/
def PlainDst (i : Instr) : Prop :=
  ∀ o, (operands i).find? (fun o => o.fld = .D) = some o → o.code.toNat < 112 ∨ 120 ≤ o.code.toNat

theorem State.dstOp_plain (s : State) (gid t : Nat) (o : Operand) (h : o.code.toNat < 112 ∨ 120 ≤ o.code.toNat) :
    s.dstOp gid t o = (s, .ok (if o.code.toNat < 112 then .reg o.code.toNat o.form.isPair else .none)) := by
  unfold State.dstOp
  by_cases h1 : o.code.toNat < 112
  · simp only [h1, if_true]
  · simp only [h1, if_false, show ¬ o.code.toNat < 120 by omega]

theorem dstOf_ne_win (i : Instr) (a k : Nat) (q : Bool) : dstOf i ≠ .win a k q := by
  unfold dstOf
  split
  · split <;> simp
  · simp

theorem State.dstReady_plain (s : State) (gid t : Nat) (i : Instr) (hd : PlainDst i) :
    s.dstReady gid t i = (s, .ok (dstOf i)) := by
  unfold State.dstReady dstOf
  cases h : (operands i).find? fun o => o.fld = .D with
  | none => rfl
  | some o => exact s.dstOp_plain _ _ _ (hd o h)

/-- The operation of a thread: one update of its group, and its flags. -/
theorem State.aluWrite_plain (s : State) (g : Group) (i : Instr) (kind : Option Nat) (ps : List Nat) (pd : Option Nat)
    (f : Env → Vals → Ans) (v : Vals) (t : Nat) (tt : List Nat) (hg : kfind s.groups s.cur.gid = some g)
    (hk : g.kind ≠ .pitcher) (hf : (g.answer ps f v t).fl &&& g.ctl.ten = 0) :
    s.aluWrite kind ps pd f (t, tt) v (dstOf i) = { s with
      groups := kset s.groups s.cur.gid (g.aluStep i kind ps pd f v t tt)
      sweep := { s.sweep with flags := s.sweep.flags ||| (g.answer ps f v t).fl } } := by
  unfold State.aluWrite
  simp only [s.grp_of_kfind _ _ hg]
  rw [if_neg (by simpa using hf)]
  have hu : (s.raiseFlags (g.answer ps f v t).fl).updThr s.cur.gid t (fun x => { x with gen := (g.answer ps f v t).gen }) =
      { s.raiseFlags (g.answer ps f v t).fl with
        groups := kset s.groups s.cur.gid (g.updThr t fun x => { x with gen := (g.answer ps f v t).gen }) } :=
    State.updGrp_eq _ _ _ g hg
  rw [hu]
  cases pd with
  | some n =>
    simp only []
    rw [State.updGrp_eq _ _ _ (g.updThr t fun x => { x with gen := (g.answer ps f v t).gen }) (kfind_kset_self ..)]
    simp only [kset_kset]
    rfl
  | none =>
    simp only []
    rw [State.writeDst_plain _ (g.updThr t fun x => { x with gen := (g.answer ps f v t).gen }) _ _ _ _ _ _
      (kfind_kset_self ..) hk (dstOf_ne_win i)]
    split
    · rename_i h
      simp only [Group.aluStep, h, Group.putResult]
      rfl
    · simp only [kset_kset]
      rfl

theorem State.aluTurn_plain (s : State) (g : Group) (i : Instr) (kind : Option Nat) (ps : List Nat) (pd : Option Nat)
    (f : Env → Vals → Ans) (v : Vals) (t : Nat) (tt : List Nat) (hg : kfind s.groups s.cur.gid = some g)
    (hk : g.kind ≠ .pitcher) (hr : s.readOps s.cur.gid t (operands i) Vals.zero = (s, .ok v)) (hd : PlainDst i)
    (hf : (g.answer ps f v t).fl &&& g.ctl.ten = 0) :
    s.aluTurn i kind ps pd f (t, tt) = { s with
      groups := kset s.groups s.cur.gid (g.aluStep i kind ps pd f v t tt)
      sweep := { s.sweep with flags := s.sweep.flags ||| (g.answer ps f v t).fl } } := by
  unfold State.aluTurn
  simp only [hr, s.dstReady_plain _ _ _ hd]
  exact s.aluWrite_plain g i kind ps pd f v t tt hg hk hf

/-! ### What a turn leaves to the other threads -/

/-- The registers of a destination lie among the x registers. -/
def Dst.isX : Dst → Bool
  | .reg c pair => if pair then c + 1 < 80 else c < 80
  | _ => true

/-- Marking a pending write as overtaken changes neither its registers nor its place (R121). -/
theorem pendOn_over (q : Pend → Bool) (c t k : Nat) (ps : List Pend) :
    ((ps.map fun p => if q p then { p with beaten := c :: p.beaten } else p).filter fun p =>
        (80 ≤ k || p.tix = t) && p.win.isNone && p.code ≤ k && k < p.code + p.regs.length).getLast?.map
      (fun p => (p.regs, p.code))
    = (ps.filter fun p =>
        (80 ≤ k || p.tix = t) && p.win.isNone && p.code ≤ k && k < p.code + p.regs.length).getLast?.map
      (fun p => (p.regs, p.code)) := by
  rw [List.filter_map, List.getLast?_map, Option.map_map]
  have h1 : ((fun p : Pend => (80 ≤ k || p.tix = t) && p.win.isNone && p.code ≤ k && k < p.code + p.regs.length) ∘
      fun p => if q p then { p with beaten := c :: p.beaten } else p)
      = fun p : Pend => (80 ≤ k || p.tix = t) && p.win.isNone && p.code ≤ k && k < p.code + p.regs.length := by
    funext p; simp only [Function.comp]; split <;> rfl
  have h2 : ((fun p : Pend => (p.regs, p.code)) ∘ fun p => if q p then { p with beaten := c :: p.beaten } else p)
      = fun p => (p.regs, p.code) := by
    funext p; simp only [Function.comp]; split <;> rfl
  rw [h1, h2]

theorem Group.writeReg_eq (g : Group) (t c : Nat) (r : Reg) (hc : c < 80) :
    ∃ ps, g.writeReg t c r = { g.updThr t (fun x => { x with x := x.x.set c r, dead := x.dead.filter (· ≠ c) }) with
        pend := ps } ∧ ∀ u k, (ps.filter fun p =>
          (80 ≤ k || p.tix = u) && p.win.isNone && p.code ≤ k && k < p.code + p.regs.length).getLast?.map
            (fun p => (p.regs, p.code)) = (g.pendOn u k).map fun p => (p.regs, p.code) := by
  have hp : g.putReg t c r = g.updThr t fun x => { x with x := x.x.set c r, dead := x.dead.filter (· ≠ c) } := by
    rw [Group.putReg, if_pos hc]
  refine ⟨_, by rw [Group.writeReg, hp], fun u k => ?_⟩
  exact pendOn_over _ c u k g.pend

theorem Group.writeReg_alike (g : Group) (t c u : Nat) (r : Reg) (hc : c < 80) (hu : u ≠ t) :
    g.Alike (g.writeReg t c r) u := by
  obtain ⟨ps, h1, h2⟩ := g.writeReg_eq t c r hc
  rw [h1]
  exact ⟨Group.updThr_thr_ne g t u (fun x => { x with x := x.x.set c r, dead := x.dead.filter (· ≠ c) }) hu,
    rfl, rfl, rfl, fun k => h2 u k⟩

theorem Group.updThr_alike (g : Group) (t u : Nat) (f : Thread → Thread) (hu : u ≠ t) : g.Alike (g.updThr t f) u :=
  ⟨Group.updThr_thr_ne _ _ _ _ hu, rfl, rfl, rfl, fun _ => rfl⟩

theorem Group.putResult_alike (g : Group) (t u : Nat) (d : Dst) (v : DWord) (p : Bool) (kind : Option Nat)
    (hd : d.isX = true) (hu : u ≠ t) : g.Alike (g.putResult t d v p kind) u := by
  cases d with
  | none => exact Group.Alike.refl ..
  | win _ _ _ => exact Group.Alike.refl ..
  | reg c pair =>
    cases kind with
    | none =>
      cases pair with
      | false =>
        simp only [Dst.isX, Bool.false_eq_true, if_false, decide_eq_true_eq] at hd
        simp only [Group.putResult, resultRegs, Bool.false_eq_true, if_false, List.length_singleton,
          List.range_succ, List.range_zero, List.nil_append, List.foldl_cons, List.foldl_nil]
        exact Group.writeReg_alike _ _ _ _ _ hd hu
      | true =>
        simp only [Dst.isX, if_true, decide_eq_true_eq] at hd
        simp only [Group.putResult, resultRegs, if_true, List.length_cons, List.length_nil,
          List.range_succ, List.range_zero, List.nil_append, List.cons_append, List.foldl_cons, List.foldl_nil]
        exact (Group.writeReg_alike _ _ _ _ _ (by omega) hu).trans (Group.writeReg_alike _ _ _ _ _ (by omega) hu)
    | some k =>
      refine ⟨rfl, rfl, rfl, rfl, fun j => ?_⟩
      simp only [Group.putResult, Group.pendOn, List.filter_append]
      rw [show ([⟨t, c, resultRegs pair v p, k, none, [], none⟩] : List Pend).filter (fun p =>
          (80 ≤ j || p.tix = u) && p.win.isNone && p.code ≤ j && j < p.code + p.regs.length) = [] from ?_,
        List.append_nil]
      cases pair <;> simp [resultRegs, Dst.isX] at hd ⊢ <;> omega

theorem Group.aluStep_alike (g : Group) (i : Instr) (kind : Option Nat) (ps : List Nat) (pd : Option Nat)
    (f : Env → Vals → Ans) (v : Vals) (t u : Nat) (tt : List Nat) (hd : pd = none → (dstOf i).isX = true) (hu : u ≠ t) :
    g.Alike (g.aluStep i kind ps pd f v t tt) u := by
  simp only [Group.aluStep]
  cases pd with
  | none => exact (Group.updThr_alike _ _ _ _ hu).trans (Group.putResult_alike _ _ _ _ _ _ _ (hd rfl) hu)
  | some n => exact (Group.updThr_alike _ _ _ _ hu).trans (Group.updThr_alike _ _ _ _ hu)

theorem Group.Alike.answer {g h : Group} {t : Nat} (a : g.Alike h t) (ps : List Nat) (f : Env → Vals → Ans) (v : Vals) :
    h.answer ps f v t = g.answer ps f v t := by
  have : h.readPred t = g.readPred t := by funext n; simp only [Group.readPred, a.thr]
  simp only [Group.answer, a.ctl, a.thr, this]

theorem Group.Alike.answerP {g h : Group} {t : Nat} (a : g.Alike h t) (ps : List Nat) (f : Env → Vals → Ans) (v : Vals) :
    h.answerP ps f v t [t] = g.answerP ps f v t [t] := by
  have : h.readPred t = g.readPred t := by funext n; simp only [Group.readPred, a.thr]
  simp only [Group.answerP, a.answer, this, Group.ambientAny, List.any_cons, List.any_nil, Group.ambient, a.thr]

/-! ### The whole sweep -/

/-- The turns of a sweep, one after another: each thread reads what it would have read at the sweep's beginning. -/
theorem State.aluFold (i : Instr) (kind : Option Nat) (ps : List Nat) (pd : Option Nat) (f : Env → Vals → Ans)
    (v : Nat → Vals) (hp : PlainSources i) (hD : PlainDst i) (hX : pd = none → (dstOf i).isX = true) (ts : List Nat)
    (hn : ts.Nodup) (s : State) (g : Group) (hg : kfind s.groups s.cur.gid = some g) (hk : g.kind ≠ .pitcher)
    (hr : ∀ t ∈ ts, s.readOps s.cur.gid t (operands i) Vals.zero = (s, .ok (v t)))
    (hf : ∀ t ∈ ts, (g.answer ps f (v t) t).fl &&& g.ctl.ten = 0) (hne : ts ≠ []) :
    (ts.map fun t => (t, [t])).foldl (fun s u => s.aluTurn i kind ps pd f u) s = { s with
      groups := kset s.groups s.cur.gid (ts.foldl (fun h t => h.aluStep i kind ps pd f (v t) t [t]) g)
      sweep := { s.sweep with
        flags := ts.foldl (fun fl t => fl ||| (g.answer ps f (v t) t).fl) s.sweep.flags } } := by
  induction ts generalizing s g with
  | nil => exact absurd rfl hne
  | cons t ts ih =>
    rw [List.map_cons, List.foldl_cons,
      s.aluTurn_plain g i kind ps pd f (v t) t [t] hg hk (hr t (List.mem_cons_self ..)) hD (hf t (List.mem_cons_self ..))]
    by_cases hts : ts = []
    · subst hts; rfl
    · have hne' : ∀ u ∈ ts, u ≠ t := fun u hu e => (List.nodup_cons.1 hn).1 (e ▸ hu)
      have hal : ∀ u ∈ ts, g.Alike (g.aluStep i kind ps pd f (v t) t [t]) u := fun u hu =>
        Group.aluStep_alike g i kind ps pd f (v t) t u [t] hX (hne' u hu)
      have := ih (List.nodup_cons.1 hn).2 { s with
        groups := kset s.groups s.cur.gid (g.aluStep i kind ps pd f (v t) t [t])
        sweep := { s.sweep with flags := s.sweep.flags ||| (g.answer ps f (v t) t).fl } }
        (g.aluStep i kind ps pd f (v t) t [t]) (kfind_kset_self ..) (by
          have : ∀ (h : Group) (d : Dst) (v : DWord) (p : Bool), (h.putResult t d v p kind).kind = h.kind := by
            intro h d v p
            cases d <;> try rfl
            cases kind <;> try rfl
            simp only [Group.putResult, resultRegs]
            have hw : ∀ (h : Group) (c : Nat) (r : Reg), (h.writeReg t c r).kind = h.kind := by
              intro h c r
              simp only [Group.writeReg, Group.putReg]
              split <;> rfl
            split <;> simp [List.range_succ, hw]
          simp only [Group.aluStep]
          cases pd with
          | none => rw [this]; exact hk
          | some n => exact hk)
        (fun u hu => by
          have h1 := s.readOps_plain { s with
            groups := kset s.groups s.cur.gid (g.aluStep i kind ps pd f (v t) t [t])
            sweep := { s.sweep with flags := s.sweep.flags ||| (g.answer ps f (v t) t).fl } } s.cur.gid u (operands i) hp
            (by
              rw [s.grp_of_kfind _ _ hg, State.grp, kget_kset_self]
              exact hal u hu) rfl rfl Vals.zero
          rw [h1, hr u (List.mem_cons_of_mem _ hu)])
        (fun u hu => by
          rw [(hal u hu).answer, (hal u hu).ctl]
          exact hf u (List.mem_cons_of_mem _ hu)) hts
      rw [this]
      simp only [kset_kset, List.foldl_cons]
      congr 2
      have : ∀ (l : List Nat) (a : Nat), (∀ u ∈ l, u ∈ ts) →
          l.foldl (fun fl u => fl ||| ((g.aluStep i kind ps pd f (v t) t [t]).answer ps f (v u) u).fl) a
          = l.foldl (fun fl u => fl ||| (g.answer ps f (v u) u).fl) a := by
        intro l
        induction l with
        | nil => intro a _; rfl
        | cons u l ih =>
          intro a hl
          rw [List.foldl_cons, List.foldl_cons, (hal u (hl u (List.mem_cons_self ..))).answer]
          exact ih _ fun w hw => hl w (List.mem_cons_of_mem _ hw)
      exact this ts _ fun _ h => h

/-! ### The group after the sweep -/

/-- A thread's registers after a result (R138). -/
def Thread.takes (x : Thread) (d : Dst) (v : DWord) (p : Bool) : Thread :=
  match d with
  | .reg c false => { x with x := x.x.set c ⟨v.lo, p⟩, dead := x.dead.filter (· ≠ c) }
  | .reg c true => { x with
      x := (x.x.set c ⟨v.lo, p⟩).set (c + 1) ⟨v.hi, p⟩
      dead := (x.dead.filter (· ≠ c)).filter (· ≠ c + 1) }
  | _ => x

theorem SamePend.refl (ps : List Pend) : SamePend ps ps := rfl
theorem SamePend.trans {a b c : List Pend} (h : SamePend a b) (k : SamePend b c) : SamePend a c := Eq.trans k h

theorem samePend_over (q : Pend → Bool) (c : Nat) (ps : List Pend) :
    SamePend ps (ps.map fun p => if q p then { p with beaten := c :: p.beaten } else p) := by
  unfold SamePend
  rw [List.map_map]
  congr 1
  funext p
  simp only [Function.comp]
  split <;> rfl

theorem Group.writeReg_x (g : Group) (t c : Nat) (r : Reg) (hc : c < 80) :
    ∃ ps, SamePend g.pend ps ∧ g.writeReg t c r = { g with
      threads := (g.updThr t fun x => { x with x := x.x.set c r, dead := x.dead.filter (· ≠ c) }).threads
      pend := ps } := by
  have hp : g.putReg t c r = g.updThr t fun x => { x with x := x.x.set c r, dead := x.dead.filter (· ≠ c) } := by
    rw [Group.putReg, if_pos hc]
  refine ⟨_, ?_, by rw [Group.writeReg, hp]; rfl⟩
  exact samePend_over _ c g.pend

theorem Group.updThr_updThr (g : Group) (t : Nat) (f k : Thread → Thread) (h : t < g.threads.length) :
    ((g.updThr t f).updThr t k).threads = (g.updThr t fun x => k (f x)).threads := by
  simp only [Group.updThr]
  have : (g.setThr t (f (g.thr t))).thr t = f (g.thr t) := Group.setThr_thr _ _ _ h
  rw [this]
  simp [Group.setThr]

theorem Group.putResult_x (g : Group) (t : Nat) (d : Dst) (v : DWord) (p : Bool) (hd : d.isX = true)
    (ht : t < g.threads.length) :
    ∃ ps, SamePend g.pend ps ∧ g.putResult t d v p none = { g with
      threads := (g.updThr t fun x => x.takes d v p).threads
      pend := ps } := by
  have hid : (g.updThr t fun x => x).threads = g.threads := by
    simp [Group.updThr, Group.setThr, Group.thr, ht]
  cases d with
  | none => exact ⟨g.pend, SamePend.refl _, by simp only [Group.putResult, Thread.takes, hid]⟩
  | win _ _ _ => exact ⟨g.pend, SamePend.refl _, by simp only [Group.putResult, Thread.takes, hid]⟩
  | reg c pair =>
    cases pair with
    | false =>
      simp only [Dst.isX, Bool.false_eq_true, if_false, decide_eq_true_eq] at hd
      obtain ⟨ps, h1, h2⟩ := g.writeReg_x t c ⟨v.lo, p⟩ hd
      refine ⟨ps, h1, ?_⟩
      simp only [Group.putResult, resultRegs, Bool.false_eq_true, if_false, List.length_singleton,
        List.range_succ, List.range_zero, List.nil_append, List.foldl_cons, List.foldl_nil, Thread.takes]
      exact h2
    | true =>
      simp only [Dst.isX, if_true, decide_eq_true_eq] at hd
      obtain ⟨ps, h1, h2⟩ := g.writeReg_x t c ⟨v.lo, p⟩ (by omega)
      obtain ⟨qs, h3, h4⟩ := (g.writeReg t c ⟨v.lo, p⟩).writeReg_x t (c + 1) ⟨v.hi, p⟩ hd
      refine ⟨qs, h1.trans (by rw [h2] at h3; exact h3), ?_⟩
      simp only [Group.putResult, resultRegs, if_true, List.length_cons, List.length_nil,
        List.range_succ, List.range_zero, List.nil_append, List.cons_append, List.foldl_cons, List.foldl_nil, Thread.takes]
      simp only [Nat.add_zero, List.getD_cons_zero, List.getD_cons_succ]
      rw [h4, h2]
      have := g.updThr_updThr t (fun x => { x with x := x.x.set c ⟨v.lo, p⟩, dead := x.dead.filter (· ≠ c) })
        (fun x => { x with x := x.x.set (c + 1) ⟨v.hi, p⟩, dead := x.dead.filter (· ≠ c + 1) }) ht
      rw [← this]
      rfl

/-- What one turn does to its thread. -/
def Thread.aluStep (x : Thread) (g : Group) (i : Instr) (kind : Option Nat) (ps : List Nat) (pd : Option Nat)
    (f : Env → Vals → Ans) (v : Vals) (t : Nat) : Thread :=
  let r := g.answer ps f v t
  let p := g.answerP ps f v t [t]
  let x := { x with gen := r.gen }
  match pd with
  | some n => { x with pr := x.pr.set n ⟨r.v ≠ 0#64, p⟩ }
  | none => match kind with
    | none => x.takes (dstOf i) r.v p
    | some _ => x

/-- The write that one turn leaves pending. -/
def pendOf (g : Group) (i : Instr) (kind : Option Nat) (ps : List Nat) (pd : Option Nat) (f : Env → Vals → Ans) (v : Vals)
    (t : Nat) : List Pend :=
  match pd, kind, dstOf i with
  | none, some k, .reg c pair => [⟨t, c, resultRegs pair (g.answer ps f v t).v (g.answerP ps f v t [t]), k, none, [], none⟩]
  | _, _, _ => []

theorem Group.aluStep_x (g : Group) (i : Instr) (kind : Option Nat) (ps : List Nat) (pd : Option Nat)
    (f : Env → Vals → Ans) (v : Vals) (t : Nat) (hd : pd = none → (dstOf i).isX = true) (ht : t < g.threads.length) :
    ∃ qs, SamePend (g.pend ++ pendOf g i kind ps pd f v t) qs ∧ g.aluStep i kind ps pd f v t [t] = { g with
      threads := (g.updThr t fun x => x.aluStep g i kind ps pd f v t).threads
      pend := qs } := by
  cases pd with
  | some n =>
    refine ⟨g.pend, by simp only [pendOf, List.append_nil]; exact SamePend.refl _, ?_⟩
    have := g.updThr_updThr t (fun x => { x with gen := (g.answer ps f v t).gen })
      (fun x => { x with pr := x.pr.set n ⟨(g.answer ps f v t).v ≠ 0#64, g.answerP ps f v t [t]⟩ }) ht
    simp only [Group.aluStep, Thread.aluStep, Group.writePred]
    rw [← this]
    rfl
  | none =>
    cases kind with
    | none =>
      obtain ⟨qs, h1, h2⟩ := (g.updThr t fun x => { x with gen := (g.answer ps f v t).gen }).putResult_x t (dstOf i)
        (g.answer ps f v t).v (g.answerP ps f v t [t]) (hd rfl) (by rw [Group.updThr_length]; exact ht)
      refine ⟨qs, by simp only [pendOf, List.append_nil]; exact h1, ?_⟩
      have := g.updThr_updThr t (fun x => { x with gen := (g.answer ps f v t).gen })
        (fun x => x.takes (dstOf i) (g.answer ps f v t).v (g.answerP ps f v t [t])) ht
      simp only [Group.aluStep, Thread.aluStep]
      rw [← this, h2]
      rfl
    | some k =>
      simp only [Group.aluStep, Thread.aluStep, pendOf]
      generalize hx : dstOf i = d
      cases d with
      | reg c pair => exact ⟨_, SamePend.refl _, rfl⟩
      | win a b c => exact absurd hx (dstOf_ne_win i a b c)
      | none => exact ⟨_, SamePend.refl _, by simp only [List.append_nil, Group.putResult]; rfl⟩

/-- The whole sweep, thread by thread. -/
theorem Group.aluSweep_x (i : Instr) (kind : Option Nat) (ps : List Nat) (pd : Option Nat) (f : Env → Vals → Ans)
    (v : Nat → Vals) (hd : pd = none → (dstOf i).isX = true) (ts : List Nat) (hn : ts.Nodup) (g : Group)
    (ht : ∀ t ∈ ts, t < g.threads.length) :
    ∃ th qs, SamePend (g.pend ++ ts.flatMap fun t => pendOf g i kind ps pd f (v t) t) qs ∧ th.length = g.threads.length
      ∧ ts.foldl (fun h t => h.aluStep i kind ps pd f (v t) t [t]) g = { g with threads := th, pend := qs }
      ∧ ∀ u, (g.withThreads th).thr u = if u ∈ ts then (g.thr u).aluStep g i kind ps pd f (v u) u else g.thr u := by
  induction ts generalizing g with
  | nil => exact ⟨g.threads, g.pend, by simp [SamePend], rfl, rfl, fun u => by simp [Group.withThreads]⟩
  | cons t ts ih =>
    obtain ⟨qs, h1, h2⟩ := g.aluStep_x i kind ps pd f (v t) t hd (ht t (List.mem_cons_self ..))
    have hlen : (g.aluStep i kind ps pd f (v t) t [t]).threads.length = g.threads.length := by
      rw [h2]; exact Group.updThr_length g t fun x => x.aluStep g i kind ps pd f (v t) t
    obtain ⟨th, rs, h3, h4, h5, h6⟩ := ih (List.nodup_cons.1 hn).2 (g.aluStep i kind ps pd f (v t) t [t])
      (fun u hu => by rw [hlen]; exact ht u (List.mem_cons_of_mem _ hu))
    have hne : ∀ u ∈ ts, u ≠ t := fun u hu e => (List.nodup_cons.1 hn).1 (e ▸ hu)
    have hal : ∀ u ∈ ts, g.Alike (g.aluStep i kind ps pd f (v t) t [t]) u := fun u hu =>
      Group.aluStep_alike g i kind ps pd f (v t) t u [t] hd (hne u hu)
    have hpend : ∀ u ∈ ts, pendOf (g.aluStep i kind ps pd f (v t) t [t]) i kind ps pd f (v u) u
        = pendOf g i kind ps pd f (v u) u := by
      intro u hu
      simp only [pendOf, (hal u hu).answer, (hal u hu).answerP]
    refine ⟨th, rs, ?_, by rw [h4, hlen], ?_, ?_⟩
    · have e1 : (ts.flatMap fun u => pendOf (g.aluStep i kind ps pd f (v t) t [t]) i kind ps pd f (v u) u)
          = ts.flatMap fun u => pendOf g i kind ps pd f (v u) u := by
        clear h3 h5 h6 ih hn ht
        induction ts with
        | nil => rfl
        | cons u us ih2 =>
          rw [List.flatMap_cons, List.flatMap_cons, hpend u (List.mem_cons_self ..),
            ih2 (fun w hw => hne w (List.mem_cons_of_mem _ hw)) (fun w hw => hal w (List.mem_cons_of_mem _ hw))
              (fun w hw => hpend w (List.mem_cons_of_mem _ hw))]
      have e2 : (g.aluStep i kind ps pd f (v t) t [t]).pend = qs := by rw [h2]
      rw [e1, e2] at h3
      unfold SamePend at h1 h3 ⊢
      rw [h3, List.flatMap_cons, List.map_append, h1, ← List.map_append, List.append_assoc]
    · rw [List.foldl_cons, h5, h2]
    · intro u
      have h7 := h6 u
      have : ((g.aluStep i kind ps pd f (v t) t [t]).withThreads th).thr u = (g.withThreads th).thr u := rfl
      rw [this] at h7
      rw [h7]
      by_cases hu : u = t
      · subst hu
        rw [if_neg (List.nodup_cons.1 hn).1, if_pos (List.mem_cons_self ..), h2]
        exact Group.updThr_thr g u (fun x => x.aluStep g i kind ps pd f (v u) u) (ht u (List.mem_cons_self ..))
      · have hthr : (g.aluStep i kind ps pd f (v t) t [t]).thr u = g.thr u :=
          (Group.aluStep_alike g i kind ps pd f (v t) t u [t] hd hu).thr
        by_cases hut : u ∈ ts
        · rw [if_pos hut, if_pos (List.mem_cons_of_mem _ hut), hthr]
          simp only [Thread.aluStep, (hal u hut).answer, (hal u hut).answerP]
        · rw [if_neg hut, if_neg (by simp [hu, hut]), hthr]

theorem popNames_plain (i : Instr) (hp : PlainSources i) : popNames i = [] := by
  unfold popNames
  rw [List.filterMap_eq_nil_iff.2]
  · rfl
  · intro o ho
    by_cases h : o.form.isSrc = true
    · have := hp o ho h
      rw [if_neg]
      simp only [Bool.and_eq_true, decide_eq_true_eq]
      omega
    · rw [if_neg]
      simp only [Bool.and_eq_true]
      intro h2
      exact h h2.1.1

/-- The checks before an instruction pass (R259). -/
theorem State.gate_issues (s : State) (i : Instr) (g : Group) (h : s.Issues i g) (hp : PlainSources i)
    (k : State → State) : s.gate i k = k s := by
  have hg := s.grp_of_kfind _ _ h.group
  unfold State.gate
  have hn : s.popNeeds i = [] := by unfold State.popNeeds; rw [popNames_plain i hp]; rfl
  have hm : s.cur.mask.isEmpty = false := by
    cases hc : s.cur.mask with
    | nil => exact absurd hc h.act
    | cons _ _ => rfl
  simp only [State.cg, hg, h.role, h.legal, hm, hn, State.popCheck, State.popAll, List.foldl_nil]
  simp [h.home]

theorem Thread.after_regs (x : Thread) (c : Cur) (mv : List Nat) (now t : Nat) :
    x.Kept (x.after c mv now t) ∧ (x.after c mv now t).x = x.x ∧ (x.after c mv now t).pr = x.pr
      ∧ (x.after c mv now t).dead = x.dead ∧ (x.after c mv now t).gen = x.gen := by
  unfold Thread.after
  split
  · exact ⟨rfl, rfl, rfl, rfl, rfl⟩
  · unfold Thread.advance
    split
    · exact ⟨rfl, rfl, rfl, rfl, rfl⟩
    · split
      · split
        · split <;> exact ⟨rfl, rfl, rfl, rfl, rfl⟩
        · exact ⟨rfl, rfl, rfl, rfl, rfl⟩
      · exact ⟨rfl, rfl, rfl, rfl, rfl⟩

theorem maskOf_cons_zero (n m : Nat) (h : m < 2 ^ 16) : (n * 2 ^ 16 + m) % 2 ^ 16 = m := by omega

theorem CReg.of_n (n : Nat) : (CReg.of n).n = n % 2 ^ 64 := by simp [CReg.of, CReg.n]

theorem Group.tidyHold_tmask (g : Group) : g.tidyHold.ctl.tmask.n % 2 ^ 16 = g.ctl.tmask.n % 2 ^ 16 := by
  simp only [Group.tidyHold, CReg.of_n]
  omega

/-- What the end of a clean sweep leaves of the group (R207, R119). -/
theorem Group.swept_facts (g : Group) (c : Cur) (now : Nat) (w : Sweep) (out : Bool) (going : List Nat) (hs : g.threads.length = 16)
    (hn : c.path.Nodup) (ht : ∀ t ∈ c.path, t < 16) :
    g.Kept (g.swept c now w out going) ∧ (g.swept c now w out going).g = g.g ∧ (g.swept c now w out going).pend = g.pend
      ∧ g.ctl.Kept (g.swept c now w out going).ctl w.flags ∧ (g.swept c now w out going).threads.length = 16
      ∧ ∀ u, (g.swept c now w out going).thr u = if u ∈ c.path then (g.thr u).after c w.moved now u else g.thr u := by
  obtain ⟨ts, h1, h2⟩ := g.movedOn_fields c now w hs hn ht
  have h3 := g.movedOn_thr c now w hs hn ht
  refine ⟨?_, ?_, ?_, ⟨?_, ?_⟩, ?_, fun u => ?_⟩
  · simp only [Group.Kept, Group.swept, Group.tidyHold, Group.endSweep, h2, Group.withThreads]
  · simp only [Group.swept, Group.tidyHold, Group.endSweep, h2, Group.withThreads]
  · simp only [Group.swept, Group.tidyHold, Group.endSweep, h2, Group.withThreads]
  · simp only [Group.swept, Group.tidyHold, Group.endSweep, h2, Ctl.raise]
  · have := (g.movedOn c now w).tidyHold_tmask
    rw [h2] at this
    simp only [Group.swept, Group.endSweep, h2]
    exact this
  · simp only [Group.swept, Group.tidyHold, Group.endSweep, h2]; exact h1
  · exact h3 u

/-- An ALU instruction over its active threads, none of whose sources is a window or a queue and whose destination is
an x register, a predicate or nothing: what it writes and what it leaves (R122, R265). -/
theorem State.alu_result (s : State) (g : Group) (i : Instr) (kind : Option Nat) (ps : List Nat) (pd : Option Nat)
    (f : Env → Vals → Ans) (v : Nat → Vals) (hI : s.Issues i g) (hp : PlainSources i) (hD : PlainDst i)
    (hX : pd = none → (dstOf i).isX = true) (hu : isUniform i = false) (hr : s.Reads i v)
    (hf : ∀ t ∈ s.cur.mask, (g.answer ps f (v t) t).fl &&& g.ctl.ten = 0) :
    SameOutside s (s.alu i kind ps pd f) ∧ ∃ h, kfind (s.alu i kind ps pd f).groups s.cur.gid = some h ∧ g.Kept h
      ∧ h.g = g.g ∧ g.ctl.Kept h.ctl (raisedBy (fun t => (g.answer ps f (v t) t).fl) s.cur.mask)
      ∧ SamePend (g.pend ++ s.cur.mask.flatMap fun t => pendOf g i kind ps pd f (v t) t) h.pend
      ∧ ∀ t, (g.thr t).Kept (h.thr t) ∧
        (let x := if t ∈ s.cur.mask then (g.thr t).aluStep g i kind ps pd f (v t) t else g.thr t
        (h.thr t).x = x.x ∧ (h.thr t).pr = x.pr ∧ (h.thr t).dead = x.dead ∧ (h.thr t).gen = x.gen) := by
  have hturns : s.turns i = s.cur.mask.map fun t => (t, [t]) := by
    unfold State.turns turnsOf; rw [hu]; rfl
  obtain ⟨th, qs, h1, h2, h3, h4⟩ := Group.aluSweep_x i kind ps pd f v hX s.cur.mask hI.mask g
    (fun t ht => by rw [hI.size]; exact hI.tids t (hI.sub t ht))
  have hfold := State.aluFold i kind ps pd f v hp hD hX s.cur.mask hI.mask s g hI.group hI.home hr hf hI.act
  have hlife : ∀ t ∈ s.cur.mask, ((g.withThreads th).thr t).life = .live := by
    intro t ht
    rw [h4 t, if_pos ht]
    have : ((g.thr t).aluStep g i kind ps pd f (v t) t).life = (g.thr t).life := by
      unfold Thread.aluStep Thread.takes
      cases pd <;> cases kind <;> simp only [] <;> split <;> rfl
    rw [this]; exact hI.live t ht
  obtain ⟨out, going, h5⟩ := State.finish_clean { s with
      groups := kset s.groups s.cur.gid { g with threads := th, pend := qs }
      sweep := { s.sweep with
        flags := s.cur.mask.foldl (fun fl t => fl ||| (g.answer ps f (v t) t).fl) s.sweep.flags } }
    { g with threads := th, pend := qs } (kfind_kset_self ..) (by rw [hI.fresh]; exact ⟨rfl, rfl, rfl, rfl, rfl⟩)
    (by rw [h2]; exact hI.size) hI.path hI.tids (by
      cases hm : s.cur.mask with
      | nil => exact absurd hm hI.act
      | cons t _ =>
        have ht : t ∈ s.cur.mask := by rw [hm]; exact List.mem_cons_self ..
        exact ⟨t, hI.tids t (hI.sub t ht), hlife t ht⟩) hI.going
  have hal : s.alu i kind ps pd f = { s with
      dev := s.linkOver.dev
      ivs := s.sweep.ivs ++ s.ivs
      groups := kset s.groups s.cur.gid (Group.swept { g with threads := th, pend := qs } s.cur s.now { s.sweep with
        flags := s.cur.mask.foldl (fun fl t => fl ||| (g.answer ps f (v t) t).fl) s.sweep.flags } out going)
      sweep := Sweep.reset
      now := s.now + 1
      free := s.free + 1 } := by
    unfold State.alu
    rw [s.gate_issues i g hI hp, hturns, hfold, h3]
    rw [h5]
    rw [State.linkOver_group s g { g with threads := th, pend := qs } { s.sweep with
      flags := s.cur.mask.foldl (fun fl t => fl ||| (g.answer ps f (v t) t).fl) s.sweep.flags } hI.group rfl rfl rfl]
    simp only [kset_kset]
  obtain ⟨k1, k2, k3, k4, _, k6⟩ := Group.swept_facts { g with threads := th, pend := qs } s.cur s.now { s.sweep with
    flags := s.cur.mask.foldl (fun fl t => fl ||| (g.answer ps f (v t) t).fl) s.sweep.flags } out going
    (by rw [h2]; exact hI.size) hI.path hI.tids
  rw [hal]
  refine ⟨?_, _, kfind_kset_self .., ?_, k2, ?_, ?_, fun t => ?_⟩
  · constructor <;> try rfl
    · simp only [hI.fresh, Sweep.reset, List.nil_append]
    · intro k hk; exact kfind_kset_ne _ _ _ _ hk
    · exact ⟨rfl, rfl, rfl⟩
  · unfold Group.Kept at k1 ⊢
    exact k1
  · rw [hI.fresh] at k4; rw [hI.fresh]; exact k4
  · rw [k3]; exact h1
  · have e : Group.thr { g with threads := th, pend := qs } t = (g.withThreads th).thr t := rfl
    rw [k6 t, e, h4 t]
    have hx : ∀ y : Thread, (g.thr t).Kept y → (g.thr t).Kept (if t ∈ s.cur.path then y.after s.cur s.sweep.moved s.now t else y)
        ∧ (if t ∈ s.cur.path then y.after s.cur s.sweep.moved s.now t else y).x = y.x
        ∧ (if t ∈ s.cur.path then y.after s.cur s.sweep.moved s.now t else y).pr = y.pr
        ∧ (if t ∈ s.cur.path then y.after s.cur s.sweep.moved s.now t else y).dead = y.dead
        ∧ (if t ∈ s.cur.path then y.after s.cur s.sweep.moved s.now t else y).gen = y.gen := by
      intro y hy
      split
      · obtain ⟨a, b, c, d, e⟩ := y.after_regs s.cur s.sweep.moved s.now t
        refine ⟨?_, b, c, d, e⟩
        unfold Thread.Kept at a hy ⊢
        rw [a]
        generalize y.after s.cur s.sweep.moved s.now t = z
        rw [hy]
      · exact ⟨hy, rfl, rfl, rfl, rfl⟩
    have hk : (g.thr t).Kept (if t ∈ s.cur.mask then (g.thr t).aluStep g i kind ps pd f (v t) t else g.thr t) := by
      split
      · unfold Thread.aluStep Thread.takes Thread.Kept
        cases pd <;> cases kind <;> simp only [] <;> split <;> rfl
      · rfl
    exact hx _ hk

/-! ### Uniform instructions (R122) -/

/-- The g registers after a result. -/
def gTakes (gs : List Reg) (d : Dst) (v : DWord) (p : Bool) : List Reg :=
  match d with
  | .reg c false => gs.set (c - 80) ⟨v.lo, p⟩
  | .reg c true => (gs.set (c - 80) ⟨v.lo, p⟩).set (c + 1 - 80) ⟨v.hi, p⟩
  | _ => gs

/-- The registers of a destination lie among the g registers. -/
def Dst.isG : Dst → Bool
  | .reg c _ => 80 ≤ c
  | _ => true

theorem Group.writeReg_g (g : Group) (t c : Nat) (r : Reg) (hc : 80 ≤ c) :
    ∃ ps, SamePend g.pend ps ∧ g.writeReg t c r = { g with g := g.g.set (c - 80) r, pend := ps } := by
  refine ⟨_, ?_, by rw [Group.writeReg, Group.putReg, if_neg (by omega)]⟩
  exact samePend_over _ c g.pend

theorem Group.putResult_g (g : Group) (t : Nat) (d : Dst) (v : DWord) (p : Bool) (hd : d.isG = true) :
    ∃ ps, SamePend g.pend ps ∧ g.putResult t d v p none = { g with g := gTakes g.g d v p, pend := ps } := by
  cases d with
  | none => exact ⟨g.pend, SamePend.refl _, rfl⟩
  | win _ _ _ => exact ⟨g.pend, SamePend.refl _, rfl⟩
  | reg c pair =>
    simp only [Dst.isG, decide_eq_true_eq] at hd
    cases pair with
    | false =>
      obtain ⟨ps, h1, h2⟩ := g.writeReg_g t c ⟨v.lo, p⟩ hd
      exact ⟨ps, h1, h2⟩
    | true =>
      obtain ⟨ps, h1, h2⟩ := g.writeReg_g t c ⟨v.lo, p⟩ hd
      obtain ⟨qs, h3, h4⟩ := (g.writeReg t c ⟨v.lo, p⟩).writeReg_g t (c + 1) ⟨v.hi, p⟩ (by omega)
      refine ⟨qs, h1.trans (by rw [h2] at h3; exact h3), ?_⟩
      simp only [Group.putResult, resultRegs, if_true, List.length_cons, List.length_nil,
        List.range_succ, List.range_zero, List.nil_append, List.cons_append, List.foldl_cons, List.foldl_nil, gTakes]
      simp only [Nat.add_zero, List.getD_cons_zero, List.getD_cons_succ]
      rw [h4, h2]

/-- An instruction that names only g registers, z and literals acts once for its group (R122). -/
theorem State.alu_uniform (s : State) (g : Group) (i : Instr) (kind : Option Nat) (ps : List Nat)
    (f : Env → Vals → Ans) (v : Vals) (t : Nat) (hI : s.Issues i g) (hp : PlainSources i) (hD : PlainDst i)
    (hX : (dstOf i).isG = true) (hu : isUniform i = true) (ht : s.cur.mask.head? = some t)
    (hr : s.readOps s.cur.gid t (operands i) Vals.zero = (s, .ok v))
    (hf : (g.answer ps f v t).fl &&& g.ctl.ten = 0) :
    SameOutside s (s.alu i kind ps none f) ∧ ∃ h, kfind (s.alu i kind ps none f).groups s.cur.gid = some h ∧ g.Kept h
      ∧ h.g = (match kind with
          | none => gTakes g.g (dstOf i) (g.answer ps f v t).v (g.answerP ps f v t s.cur.mask)
          | some _ => g.g)
      ∧ g.ctl.Kept h.ctl (g.answer ps f v t).fl
      ∧ SamePend (g.pend ++ (match kind, dstOf i with
          | some k, .reg c pair => [⟨t, c, resultRegs pair (g.answer ps f v t).v (g.answerP ps f v t s.cur.mask), k, none, [], none⟩]
          | _, _ => [])) h.pend
      ∧ ∀ u, (g.thr u).Kept (h.thr u) ∧ (h.thr u).x = (g.thr u).x ∧ (h.thr u).pr = (g.thr u).pr
        ∧ (h.thr u).dead = (g.thr u).dead
        ∧ (h.thr u).gen = if u = t then (g.answer ps f v t).gen else (g.thr u).gen := by
  have htm : t ∈ s.cur.mask := List.mem_of_mem_head? ht
  have htl : t < g.threads.length := by rw [hI.size]; exact hI.tids t (hI.sub t htm)
  have hturns : s.turns i = [(t, s.cur.mask)] := by
    unfold State.turns turnsOf; rw [hu]
    cases hm : s.cur.mask with
    | nil => rw [hm] at ht; simp at ht
    | cons a l => rw [hm] at ht; simp only [List.head?_cons, Option.some.injEq] at ht; subst ht; rfl
  have hstep : ∃ qs, SamePend (g.pend ++ (match kind, dstOf i with
          | some k, .reg c pair => [⟨t, c, resultRegs pair (g.answer ps f v t).v (g.answerP ps f v t s.cur.mask), k, none, [], none⟩]
          | _, _ => [])) qs ∧ g.aluStep i kind ps none f v t s.cur.mask = { g with
      threads := (g.updThr t fun x => { x with gen := (g.answer ps f v t).gen }).threads
      g := (match kind with
          | none => gTakes g.g (dstOf i) (g.answer ps f v t).v (g.answerP ps f v t s.cur.mask)
          | some _ => g.g)
      pend := qs } := by
    cases kind with
    | none =>
      obtain ⟨qs, h1, h2⟩ := (g.updThr t fun x => { x with gen := (g.answer ps f v t).gen }).putResult_g t (dstOf i)
        (g.answer ps f v t).v (g.answerP ps f v t s.cur.mask) hX
      refine ⟨qs, by simp only [List.append_nil]; exact h1, ?_⟩
      simp only [Group.aluStep]
      rw [h2]; rfl
    | some k =>
      simp only [Group.aluStep]
      generalize hx : dstOf i = d
      cases d with
      | reg c pair => exact ⟨_, SamePend.refl _, rfl⟩
      | win a b c => exact absurd hx (dstOf_ne_win i a b c)
      | none => exact ⟨_, SamePend.refl _, by simp only [List.append_nil, Group.putResult]; rfl⟩
  obtain ⟨qs, h1, h2⟩ := hstep
  have hturn := s.aluTurn_plain g i kind ps none f v t s.cur.mask hI.group hI.home hr hD hf
  generalize hG : g.aluStep i kind ps none f v t s.cur.mask = G at h2 hturn
  have hthr : ∀ u, G.thr u = if u = t then { g.thr t with gen := (g.answer ps f v t).gen } else g.thr u := by
    intro u
    rw [h2]
    by_cases e : u = t
    · subst e
      rw [if_pos rfl]
      exact Group.updThr_thr g u (fun x => { x with gen := (g.answer ps f v u).gen }) htl
    · rw [if_neg e]
      exact Group.updThr_thr_ne g t u (fun x => { x with gen := (g.answer ps f v t).gen }) e
  have hlen : G.threads.length = 16 := by
    rw [h2]
    exact (Group.updThr_length g t fun x => { x with gen := (g.answer ps f v t).gen }).trans hI.size
  obtain ⟨out, going, h5⟩ := State.finish_clean { s with
      groups := kset s.groups s.cur.gid G
      sweep := { s.sweep with flags := s.sweep.flags ||| (g.answer ps f v t).fl } }
    G (kfind_kset_self ..) (by rw [hI.fresh]; exact ⟨rfl, rfl, rfl, rfl, rfl⟩) hlen hI.path hI.tids
    ⟨t, hI.tids t (hI.sub t htm), by rw [hthr t, if_pos rfl]; exact hI.live t htm⟩ (by rw [h2]; exact hI.going)
  have hal : s.alu i kind ps none f = { s with
      dev := s.linkOver.dev
      ivs := s.sweep.ivs ++ s.ivs
      groups := kset s.groups s.cur.gid (G.swept s.cur s.now { s.sweep with
        flags := s.sweep.flags ||| (g.answer ps f v t).fl } out going)
      sweep := Sweep.reset
      now := s.now + 1
      free := s.free + 1 } := by
    unfold State.alu
    rw [s.gate_issues i g hI hp, hturns, List.foldl_cons, List.foldl_nil, hturn, h5]
    rw [State.linkOver_group s g G { s.sweep with flags := s.sweep.flags ||| (g.answer ps f v t).fl } hI.group
      (by rw [h2]) rfl rfl]
    simp only [kset_kset]
  obtain ⟨k1, k2, k3, k4, _, k6⟩ := Group.swept_facts G s.cur s.now { s.sweep with
    flags := s.sweep.flags ||| (g.answer ps f v t).fl } out going hlen hI.path hI.tids
  rw [hal]
  refine ⟨?_, _, kfind_kset_self .., ?_, ?_, ?_, ?_, fun u => ?_⟩
  · constructor <;> try rfl
    · simp only [hI.fresh, Sweep.reset, List.nil_append]
    · intro k hk; exact kfind_kset_ne _ _ _ _ hk
    · exact ⟨rfl, rfl, rfl⟩
  · unfold Group.Kept at k1 ⊢
    rw [h2] at k1 ⊢
    exact k1
  · rw [k2, h2]
  · rw [h2] at k4 ⊢
    rw [hI.fresh] at k4 ⊢
    simp only [Sweep.reset, Nat.zero_or] at k4 ⊢
    exact k4
  · rw [k3, h2]; exact h1
  · rw [k6 u, hthr u]
    have hx : ∀ (y : Thread) (e : BitVec 32), (g.thr u).Kept y ∧ y.x = (g.thr u).x ∧ y.pr = (g.thr u).pr
        ∧ y.dead = (g.thr u).dead ∧ y.gen = e →
        (g.thr u).Kept (if u ∈ s.cur.path then y.after s.cur s.sweep.moved s.now u else y)
        ∧ (if u ∈ s.cur.path then y.after s.cur s.sweep.moved s.now u else y).x = (g.thr u).x
        ∧ (if u ∈ s.cur.path then y.after s.cur s.sweep.moved s.now u else y).pr = (g.thr u).pr
        ∧ (if u ∈ s.cur.path then y.after s.cur s.sweep.moved s.now u else y).dead = (g.thr u).dead
        ∧ (if u ∈ s.cur.path then y.after s.cur s.sweep.moved s.now u else y).gen = e := by
      rintro y e ⟨hy, e1, e2, e3, e4⟩
      split
      · obtain ⟨a, b, c, d, e⟩ := y.after_regs s.cur s.sweep.moved s.now u
        refine ⟨?_, b.trans e1, c.trans e2, d.trans e3, e.trans e4⟩
        unfold Thread.Kept at a hy ⊢
        rw [a]
        generalize y.after s.cur s.sweep.moved s.now u = z
        rw [hy]
      · exact ⟨hy, e1, e2, e3, e4⟩
    refine hx _ _ ?_
    split
    · rename_i e; subst e; exact ⟨rfl, rfl, rfl, rfl, rfl⟩
    · exact ⟨rfl, rfl, rfl, rfl, rfl⟩

/-! ### From the shared operation to what it means -/

theorem Thread.takes_given (x : Thread) (i : Instr) (d : Code) (pair : Bool) (v : DWord) (p : Bool)
    (hi : dstOf i = if d.toNat < 112 then .reg d.toNat pair else .none) (hd : d.toNat < 80 ∨ d.toNat = 120) :
    x.takes (dstOf i) v p = x.given d pair v p := by
  rw [hi]
  rcases hd with hd | hd
  · rw [if_pos (by omega), Thread.given, if_neg (by omega)]
    cases pair <;> rfl
  · rw [if_neg (by omega), Thread.given, if_pos (by omega)]
    rfl

theorem Group.opOf_eq (g : Group) (ps : List Nat) (f : Env → Vals → Ans) (v : Vals) (t : Nat) :
    g.opOf ps f v t = g.answer ps f v t := by
  simp only [Group.opOf, Group.answer, List.map_map]
  rfl

theorem Group.opP_eq (g : Group) (ps : List Nat) (f : Env → Vals → Ans) (v : Vals) (t : Nat) (tt : List Nat) :
    g.opP ps f v t tt = g.answerP ps f v t tt := by
  simp only [Group.opP, Group.answerP, Group.opOf_eq, List.any_map]
  rfl

/-- The registers after the sweep are those of `th`, where they are those of a thread that took its result. -/
theorem Thread.agrees (x y z w : Thread) (hk : x.Kept y) (hz : x.Kept z) (hw : z = w)
    (h : y.x = z.x ∧ y.pr = z.pr ∧ y.dead = z.dead ∧ y.gen = z.gen) :
    w.Kept y ∧ y.x = w.x ∧ y.pr = w.pr ∧ y.dead = w.dead ∧ y.gen = w.gen := by
  subst hw
  refine ⟨?_, h⟩
  unfold Thread.Kept at hk hz ⊢
  rw [hk]
  generalize z.x = a1 at *
  rw [hz]

theorem Thread.kept_given (x : Thread) (n : BitVec 32) (d : Code) (pair : Bool) (v : DWord) (p : Bool) :
    x.Kept ((x.drew n).given d pair v p) := by
  unfold Thread.given
  split
  · rfl
  · split <;> rfl

theorem pends_eq (g : Group) (i : Instr) (kind : Option Nat) (ps : List Nat) (f : Env → Vals → Ans) (v : Nat → Vals)
    (d : Code) (pair : Bool) (hi : dstOf i = if d.toNat < 112 then .reg d.toNat pair else .none) (ts : List Nat) :
    (kind.elim [] fun k => ts.flatMap fun t => flying t d pair (g.opOf ps f (v t) t).v (g.opP ps f (v t) t [t]) k)
    = ts.flatMap fun t => pendOf g i kind ps none f (v t) t := by
  cases kind with
  | none =>
    induction ts with
    | nil => rfl
    | cons t ts ih => rw [List.flatMap_cons, ← ih]; rfl
  | some k =>
    simp only [Option.elim]
    congr 1
    funext t
    simp only [pendOf, hi, flying, Group.opOf_eq, Group.opP_eq]
    split
    · rfl
    · rfl

theorem State.alu_meets_x (s : State) (g : Group) (i : Instr) (kind : Option Nat) (ps : List Nat) (f : Env → Vals → Ans)
    (v : Nat → Vals) (d : Code) (pair : Bool) (hex : exec i s = .next (s.alu i kind ps none f)) (hI : s.Issues i g)
    (hp : PlainSources i) (hr : s.Reads i v)
    (hi : dstOf i = if d.toNat < 112 then .reg d.toNat pair else .none) (hD : PlainDst i)
    (hpair : pair = true → d.toNat < 80 → d.toNat + 1 < 80) (hu : isUniform i = false)
    (hd : d.toNat < 80 ∨ d.toNat = 120) (hf : ∀ t ∈ s.cur.mask, (g.opOf ps f (v t) t).fl &&& g.ctl.ten = 0) :
    s.Completes i g (raisedBy (fun t => (g.opOf ps f (v t) t).fl) s.cur.mask)
      (kind.elim [] fun k => s.cur.mask.flatMap fun t => flying t d pair (g.opOf ps f (v t) t).v (g.opP ps f (v t) t [t]) k)
      (fun t => if t ∈ s.cur.mask then
          (if kind = none then
            ((g.thr t).drew (g.opOf ps f (v t) t).gen).given d pair (g.opOf ps f (v t) t).v (g.opP ps f (v t) t [t])
          else (g.thr t).drew (g.opOf ps f (v t) t).gen)
        else g.thr t) g.g := by
  have hX : (dstOf i).isX = true := by
    rw [hi]
    rcases hd with hd | hd
    · rw [if_pos (by omega)]
      cases pair with
      | false => simp only [Dst.isX, Bool.false_eq_true, if_false]; exact decide_eq_true hd
      | true => simp only [Dst.isX, if_true]; exact decide_eq_true (hpair rfl hd)
    · rw [if_neg (by omega)]; rfl
  rw [pends_eq g i kind ps f v d pair hi]
  simp only [Group.opOf_eq, Group.opP_eq] at hf ⊢
  obtain ⟨h1, h, h2, h3, h4, h5, h6, h7⟩ := s.alu_result g i kind ps none f v hI hp hD (fun _ => hX) hu hr hf
  refine ⟨s.alu i kind ps none f, h, hex, h1, h2, h3, h5, h6, h4, fun t => ?_⟩
  obtain ⟨k1, k2⟩ := h7 t
  by_cases ht : t ∈ s.cur.mask
  · simp only [ht, if_true] at k2 ⊢
    cases kind with
    | none =>
      refine Thread.agrees (g.thr t) (h.thr t) _ _ k1 ?_ (Thread.takes_given _ i d pair _ _ hi hd) k2
      rw [Thread.takes_given _ i d pair _ _ hi hd]
      exact Thread.kept_given ..
    | some k => exact Thread.agrees (g.thr t) (h.thr t) ((g.thr t).drew (g.answer ps f (v t) t).gen) _ k1 rfl rfl k2
  · simp only [ht, if_false] at k2 ⊢
    exact ⟨k1, k2⟩

theorem State.alu_meets_u (s : State) (g : Group) (i : Instr) (kind : Option Nat) (ps : List Nat) (f : Env → Vals → Ans)
    (v : Vals) (t : Nat) (d : Code) (pair : Bool) (hex : exec i s = .next (s.alu i kind ps none f)) (hI : s.Issues i g)
    (hp : PlainSources i) (hr : s.readOps s.cur.gid t (operands i) Vals.zero = (s, .ok v))
    (hi : dstOf i = if d.toNat < 112 then .reg d.toNat pair else .none) (hD : PlainDst i)
    (hu : isUniform i = true) (hd : (80 ≤ d.toNat ∧ d.toNat < 112) ∨ d.toNat = 120) (ht : s.cur.mask.head? = some t)
    (hf : (g.opOf ps f v t).fl &&& g.ctl.ten = 0) :
    s.Completes i g (g.opOf ps f v t).fl
      (kind.elim [] fun k => flying t d pair (g.opOf ps f v t).v (g.opP ps f v t s.cur.mask) k)
      (fun u => if u = t then (g.thr u).drew (g.opOf ps f v t).gen else g.thr u)
      (if kind = none then gGiven g.g d pair (g.opOf ps f v t).v (g.opP ps f v t s.cur.mask) else g.g) := by
  have hX : (dstOf i).isG = true := by
    rw [hi]
    split
    · simp only [Dst.isG]; exact decide_eq_true (by omega)
    · rfl
  simp only [Group.opOf_eq, Group.opP_eq] at hf ⊢
  obtain ⟨h1, h, h2, h3, h4, h5, h6, h7⟩ := s.alu_uniform g i kind ps f v t hI hp hD hX hu ht hr hf
  refine ⟨s.alu i kind ps none f, h, hex, h1, h2, h3, h5, ?_, ?_, fun u => ?_⟩
  · cases kind with
    | none => exact h6
    | some k =>
      rcases hd with hd | hd
      · simp only [hi, flying, hd.2, if_true] at h6 ⊢; exact h6
      · simp only [hi, flying, hd, show ¬ (120 < 112) by omega, if_false] at h6 ⊢; exact h6
  · rw [h4]
    cases kind with
    | none =>
      simp only [if_true, hi, gGiven]
      rcases hd with hd | hd
      · rw [if_pos hd.2, if_neg (by simp; omega)]
        cases pair <;> rfl
      · rw [if_neg (by omega), if_pos (by simp; omega)]
        rfl
    | some k => simp only [reduceCtorEq, if_false]
  · obtain ⟨k1, k2, k3, k4, k5⟩ := h7 u
    by_cases hut : u = t
    · simp only [hut, if_true] at k1 k2 k3 k4 k5 ⊢
      exact Thread.agrees (g.thr t) (h.thr t) ((g.thr t).drew (g.answer ps f v t).gen) _ k1 rfl rfl ⟨k2, k3, k4, k5⟩
    · simp only [hut, if_false] at k5 ⊢
      exact ⟨k1, k2, k3, k4, k5⟩

/-- An instruction whose meaning is the shared ALU operation, with a destination D that is a register or z. -/
theorem State.alu_meets (s : State) (g : Group) (i : Instr) (kind : Option Nat) (ps : List Nat) (f : Env → Vals → Ans)
    (v : Nat → Vals) (d : Code) (pair : Bool) (hex : exec i s = .next (s.alu i kind ps none f)) (hI : s.Issues i g)
    (hp : PlainSources i) (hr : s.Reads i v)
    (hi : dstOf i = if d.toNat < 112 then .reg d.toNat pair else .none)
    (hD : d.toNat < 112 ∨ d.toNat = 120 → PlainDst i)
    (hpair : pair = true → d.toNat < 80 → d.toNat + 1 < 80) (hun : isUniform i = true → d.toNat < 80 → False) :
    s.Alu i g v d pair kind ps f := by
  refine ⟨fun hu hd hf => ?_, fun hu hd t ht hf => ?_⟩
  · exact s.alu_meets_x g i kind ps f v d pair hex hI hp hr hi (hD (by omega)) hpair hu hd hf
  · have hd' : ¬ d.toNat < 80 := fun h => hun hu h
    exact s.alu_meets_u g i kind ps f (v t) t d pair hex hI hp (hr t (List.mem_of_mem_head? ht)) hi (hD hd) hu
      (by omega) ht hf

end Sys2Proof.Machine
end

