-- ==== Sys2Proof/Laws/Gate.lean ====
section
/-! SUPPORT. What the checks before an instruction let through (R141, R259): an instruction that issues goes on to its own
sweep, once the queues that it names are popped. -/

namespace Sys2Proof.Machine

open Sys2Proof

theorem State.cg_eq (s : State) (g : Group) (h : kfind s.groups s.cur.gid = some g) : s.cg = g :=
  kget_of_kfind _ _ _ _ h

theorem State.gate_ready (s : State) (i : Instr) (g : Group) (hI : s.Issues i g)
    (h : s.popCheck s.cur.gid (s.popNeeds i) = .ready) (k : State → State) :
    s.gate i k = k (s.popAll s.cur.gid (s.popNeeds i)) := by
  unfold State.gate
  simp only [s.cg_eq g hI.group, hI.role, hI.legal, Bool.and_true, Bool.true_and, h]
  have h2 := hI.act
  have h3 := hI.home
  simp [h3]
  rintro h; exact absurd h h2

theorem State.popNeeds_nil (s : State) (i : Instr) (h : popNames i = []) : s.popNeeds i = [] := by
  simp [State.popNeeds, h]

/-- An instruction that names no queue. -/
theorem State.gate_noQueue (s : State) (i : Instr) (g : Group) (hI : s.Issues i g) (h : popNames i = [])
    (k : State → State) : s.gate i k = k s := by
  rw [s.gate_ready i g hI (by rw [s.popNeeds_nil i h]; rfl), s.popNeeds_nil i h]; rfl

/-- An instruction whose checks fail traps ILLEGAL for every active thread and performs nothing (R131, R259). -/
theorem State.gate_fails (s : State) (i : Instr) (g : Group) (k : State → State) (hg : kfind s.groups s.cur.gid = some g)
    (h : roleOk g.role i = false ∨ legal g.regs i = false) : s.gate i k = s.illegal := by
  unfold State.gate
  rw [s.cg_eq g hg]
  rcases h with h | h <;> simp [h]

end Sys2Proof.Machine
end

