-- ==== Sys2Proof/Laws/Memory.lean ====
section
/-! SUPPORT. Memory: its operations keep the canonical form, a read after a write gives the bytes written, and a write
leaves every other byte and band as it was. -/

namespace Sys2Proof.Machine

open Sys2Proof

/-! ### Lists with rising keys -/

theorem rising_iff {α : Type} (m : List (Nat × α)) : rising m = true ↔ m.Pairwise (fun x y => x.1 < y.1) := by
  induction m with
  | nil => simp [rising]
  | cons a m ih =>
    cases m with
    | nil => simp [rising]
    | cons b m =>
      simp only [rising, Bool.and_eq_true, decide_eq_true_eq, ih]
      constructor
      · rintro ⟨h, hp⟩
        refine List.pairwise_cons.2 ⟨?_, hp⟩
        intro c hc
        rcases List.mem_cons.1 hc with rfl | hc
        · exact h
        · exact Nat.lt_trans h ((List.pairwise_cons.1 hp).1 c hc)
      · intro h
        exact ⟨(List.pairwise_cons.1 h).1 b (List.mem_cons_self ..), (List.pairwise_cons.1 h).2⟩

/-- The part below a key, a middle whose keys lie in `[a, a + n)`, and the part from `a + n` on. -/
theorem pairwise_splice {α : Type} (m new : List (Nat × α)) (a n : Nat) (hm : m.Pairwise (fun x y => x.1 < y.1))
    (hn : new.Pairwise (fun x y => x.1 < y.1)) (hr : ∀ e ∈ new, a ≤ e.1 ∧ e.1 < a + n) :
    (m.filter (fun c => c.1 < a) ++ new ++ m.filter (fun c => a + n ≤ c.1)).Pairwise (fun x y => x.1 < y.1) := by
  rw [List.append_assoc, List.pairwise_append, List.pairwise_append]
  refine ⟨hm.filter _, ⟨hn, hm.filter _, ?_⟩, ?_⟩
  · intro x hx y hy
    have := hr x hx
    have := (List.mem_filter.1 hy).2
    simp only [decide_eq_true_eq] at this
    omega
  · intro x hx y hy
    have h1 := (List.mem_filter.1 hx).2
    simp only [decide_eq_true_eq] at h1
    rcases List.mem_append.1 hy with hy | hy
    · have := hr y hy; omega
    · have := (List.mem_filter.1 hy).2
      simp only [decide_eq_true_eq] at this
      omega

theorem cellsOf_range (a : Nat) (bs : List Byte) : ∀ e ∈ cellsOf a bs, a ≤ e.1 ∧ e.1 < a + bs.length := by
  induction bs generalizing a with
  | nil => simp [cellsOf]
  | cons b bs ih =>
    intro e he
    simp only [cellsOf] at he
    simp only [List.length_cons]
    split at he
    · have := ih (a + 1) e he; omega
    · rcases List.mem_cons.1 he with rfl | he
      · simp only; omega
      · have := ih (a + 1) e he; omega

theorem cellsOf_pairwise (a : Nat) (bs : List Byte) : (cellsOf a bs).Pairwise (fun x y => x.1 < y.1) := by
  induction bs generalizing a with
  | nil => simp [cellsOf]
  | cons b bs ih =>
    simp only [cellsOf]
    split
    · exact ih (a + 1)
    · refine List.pairwise_cons.2 ⟨?_, ih (a + 1)⟩
      intro e he
      have := cellsOf_range (a + 1) bs e he
      simp only; omega

theorem cellsOf_nonzero (a : Nat) (bs : List Byte) : ∀ e ∈ cellsOf a bs, e.2 ≠ 0#8 := by
  induction bs generalizing a with
  | nil => simp [cellsOf]
  | cons b bs ih =>
    intro e he
    simp only [cellsOf] at he
    split at he
    · exact ih (a + 1) e he
    · rcases List.mem_cons.1 he with rfl | he
      · assumption
      · exact ih (a + 1) e he

/-! ### The canonical form is kept -/

theorem Memory.wf_iff (m : Memory) : m.wf = true ↔
    (m.cells.Pairwise (fun x y => x.1 < y.1) ∧ ∀ c ∈ m.cells, c.2 ≠ 0#8)
      ∧ (m.bands.Pairwise (fun x y => x.1 < y.1) ∧ ∀ b ∈ m.bands, b.2 ≠ Band.reset) := by
  simp only [Memory.wf, Bool.and_eq_true, rising_iff, List.all_eq_true, decide_eq_true_eq]
  constructor
  · rintro ⟨⟨⟨a, b⟩, c⟩, d⟩; exact ⟨⟨a, b⟩, c, d⟩
  · rintro ⟨⟨a, b⟩, c, d⟩; exact ⟨⟨⟨a, b⟩, c⟩, d⟩

theorem Memory.wf_empty : Memory.empty.wf = true := rfl

theorem Memory.wf_write (m : Memory) (a : Nat) (bs : List Byte) (h : m.wf = true) : (m.write a bs).wf = true := by
  rw [Memory.wf_iff] at h ⊢
  refine ⟨⟨pairwise_splice _ _ _ _ h.1.1 (cellsOf_pairwise a bs) (cellsOf_range a bs), ?_⟩, h.2⟩
  intro c hc
  simp only [Memory.write, cellsPut, List.mem_append, List.mem_filter] at hc
  rcases hc with (⟨hc, _⟩ | hc) | ⟨hc, _⟩
  · exact h.1.2 c hc
  · exact cellsOf_nonzero a bs c hc
  · exact h.1.2 c hc

theorem Memory.wf_setBand (m : Memory) (sec : Nat) (b : Band) (h : m.wf = true) : (m.setBand sec b).wf = true := by
  rw [Memory.wf_iff] at h ⊢
  refine ⟨h.1, ?_, ?_⟩
  · have := pairwise_splice m.bands (if b = Band.reset then [] else [(sec, b)]) sec 1 h.2.1
      (by split <;> simp) (by
        intro e he
        split at he
        · simp at he
        · rw [List.mem_singleton.1 he]; simp)
    exact this
  · intro c hc
    simp only [Memory.setBand, List.mem_append, List.mem_filter] at hc
    rcases hc with (⟨hc, _⟩ | hc) | ⟨hc, _⟩
    · exact h.2.2 c hc
    · split at hc
      · simp at hc
      · rw [List.mem_singleton.1 hc]; assumption
    · exact h.2.2 c hc

/-- A property that every step of a fold keeps. -/
theorem foldl_keeps {α β : Type} (P : β → Prop) (f : β → α → β) (hf : ∀ b a, P b → P (f b a)) (l : List α) (b : β)
    (h : P b) : P (l.foldl f b) := by
  induction l generalizing b with
  | nil => exact h
  | cons a l ih => exact ih _ (hf _ _ h)

theorem Memory.wf_store (m : Memory) (a : Nat) (bs : List Byte) (p poison : Bool) (tag : Nat) (h : m.wf = true) :
    (m.store a bs p poison tag).wf = true :=
  foldl_keeps (fun m : Memory => m.wf = true) _ (fun _ _ h => Memory.wf_setBand _ _ _ h) _ _ (Memory.wf_write _ _ _ h)

theorem Memory.wf_clear (m : Memory) (a n : Nat) (h : m.wf = true) : (m.clear a n).wf = true := by
  rw [Memory.wf_iff] at h ⊢
  refine ⟨⟨pairwise_splice _ [] _ _ h.1.1 List.Pairwise.nil (by simp), ?_⟩, h.2.1.filter _, ?_⟩
  · intro c hc
    simp only [Memory.clear, cellsPut, List.mem_append, List.mem_filter] at hc
    rcases hc with (⟨hc, _⟩ | hc) | ⟨hc, _⟩
    · exact h.1.2 c hc
    · simp at hc
    · exact h.1.2 c hc
  · intro b hb
    exact h.2.2 b (List.mem_filter.1 hb).1

theorem Memory.wf_moveSectors (m : Memory) (src dst n : Nat) (h : m.wf = true) : (m.moveSectors src dst n).wf = true :=
  foldl_keeps (fun m : Memory => m.wf = true) _ (fun _ _ h => Memory.wf_setBand _ _ _ (Memory.wf_write _ _ _ h)) _ _ h

/-! ### Reads after writes -/

theorem cellAt_append (x y : List Host.Cell) (k : Nat) (h : ∀ c ∈ x, c.1 ≠ k) : cellAt (x ++ y) k = cellAt y k := by
  induction x with
  | nil => rfl
  | cons c x ih =>
    rw [List.cons_append, cellAt, if_neg (h c (List.mem_cons_self ..))]
    exact ih fun c hc => h c (List.mem_cons_of_mem _ hc)

theorem cellAt_append_left (x y : List Host.Cell) (k : Nat) (h : ∀ c ∈ y, c.1 ≠ k) : cellAt (x ++ y) k = cellAt x k := by
  induction x with
  | nil =>
    rw [List.nil_append]
    have := cellAt_append y [] k h
    rwa [List.append_nil] at this
  | cons c x ih => rw [List.cons_append, cellAt, cellAt, ih]

theorem cellAt_filter (m : List Host.Cell) (p : Host.Cell → Bool) (k : Nat) (h : ∀ c ∈ m, c.1 = k → p c = true) :
    cellAt (m.filter p) k = cellAt m k := by
  induction m with
  | nil => rfl
  | cons c m ih =>
    have ih := ih fun c hc => h c (List.mem_cons_of_mem _ hc)
    rw [List.filter_cons]
    split
    · rw [cellAt, cellAt, ih]
    · rename_i hp
      rw [cellAt, if_neg, ih]
      intro e
      exact hp (h c (List.mem_cons_self ..) e)

theorem cellAt_cellsOf (a : Nat) (bs : List Byte) (i : Nat) (h : i < bs.length) :
    cellAt (cellsOf a bs) (a + i) = bs.getD i 0#8 := by
  induction bs generalizing a i with
  | nil => simp at h
  | cons b bs ih =>
    simp only [cellsOf]
    cases i with
    | zero =>
      split
      · rename_i hb
        have := cellAt_append (cellsOf (a + 1) bs) [] a fun c hc => by
          have := cellsOf_range (a + 1) bs c hc; omega
        simp_all [cellAt]
      · simp [cellAt]
    | succ i =>
      have := ih (a + 1) i (by simpa using h)
      rw [show a + 1 + i = a + (i + 1) by omega] at this
      split
      · simpa using this
      · rw [cellAt, if_neg (by omega)]; simpa using this

/-- A byte that was written reads as written. -/
theorem Memory.byte_write_in (m : Memory) (a : Nat) (bs : List Byte) (i : Nat) (h : i < bs.length) :
    (m.write a bs).byte (a + i) = bs.getD i 0#8 := by
  simp only [Memory.byte, Memory.write, cellsPut]
  rw [cellAt_append_left, cellAt_append, cellAt_cellsOf _ _ _ h]
  · intro c hc
    have := (List.mem_filter.1 hc).2
    simp only [decide_eq_true_eq] at this
    omega
  · intro c hc
    have := (List.mem_filter.1 hc).2
    simp only [decide_eq_true_eq] at this
    omega

/-- A byte outside the bytes written reads as before. -/
theorem Memory.byte_write_out (m : Memory) (a : Nat) (bs : List Byte) (k : Nat) (h : k < a ∨ a + bs.length ≤ k) :
    (m.write a bs).byte k = m.byte k := by
  simp only [Memory.byte, Memory.write, cellsPut]
  have hn : ∀ c ∈ cellsOf a bs, c.1 ≠ k := fun c hc => by have := cellsOf_range a bs c hc; omega
  rcases h with h | h
  · rw [cellAt_append_left, cellAt_append_left _ _ _ hn, cellAt_filter]
    · intro c _ e; simp only [decide_eq_true_eq]; omega
    · intro c hc
      have := (List.mem_filter.1 hc).2
      simp only [decide_eq_true_eq] at this
      omega
  · rw [List.append_assoc, cellAt_append, cellAt_append _ _ _ hn, cellAt_filter]
    · intro c _ e; simp only [decide_eq_true_eq]; omega
    · intro c hc
      have := (List.mem_filter.1 hc).2
      simp only [decide_eq_true_eq] at this
      omega

@[simp] theorem Memory.byte_setBand (m : Memory) (sec : Nat) (b : Band) (k : Nat) : (m.setBand sec b).byte k = m.byte k :=
  rfl

theorem Memory.byte_store (m : Memory) (a : Nat) (bs : List Byte) (p poison : Bool) (tag k : Nat) :
    (m.store a bs p poison tag).byte k = (m.write a bs).byte k := by
  unfold Memory.store
  generalize sectors a bs.length = l
  generalize m.write a bs = m'
  induction l generalizing m' with
  | nil => rfl
  | cons s l ih => rw [List.foldl_cons, ih]; rfl

theorem Memory.byte_store_in (m : Memory) (a : Nat) (bs : List Byte) (p poison : Bool) (tag i : Nat) (h : i < bs.length) :
    (m.store a bs p poison tag).byte (a + i) = bs.getD i 0#8 := by
  rw [Memory.byte_store]; exact Memory.byte_write_in _ _ _ _ h

theorem Memory.byte_store_out (m : Memory) (a : Nat) (bs : List Byte) (p poison : Bool) (tag k : Nat)
    (h : k < a ∨ a + bs.length ≤ k) : (m.store a bs p poison tag).byte k = m.byte k := by
  rw [Memory.byte_store]; exact Memory.byte_write_out _ _ _ _ h

/-! ### Side bands -/

theorem bandAt_splice (m : List (Nat × Band)) (sec k : Nat) (new : List (Nat × Band)) (hn : ∀ e ∈ new, e.1 = sec) :
    bandAt (m.filter (fun e => e.1 < sec) ++ new ++ m.filter (fun e => sec < e.1)) k
      = if k = sec then bandAt new sec else bandAt m k := by
  induction m with
  | nil =>
    simp only [List.filter_nil, List.nil_append, List.append_nil]
    split
    · subst_vars; rfl
    · rename_i h
      have : ∀ l : List (Nat × Band), (∀ e ∈ l, e.1 = sec) → bandAt l k = Band.reset := by
        intro l
        induction l with
        | nil => intro _; rfl
        | cons e l ih =>
          intro hl
          have he := hl e (List.mem_cons_self ..)
          rw [bandAt, if_neg (by omega)]
          exact ih fun e he => hl e (List.mem_cons_of_mem _ he)
      exact this new hn
  | cons e m ih =>
    rcases e with ⟨i, b⟩
    have skip : ∀ l r : List (Nat × Band), (∀ e ∈ l, e.1 ≠ k) → bandAt (l ++ r) k = bandAt r k := by
      intro l r
      induction l with
      | nil => intro _; rfl
      | cons e l ih =>
        intro hl
        rw [List.cons_append, bandAt, if_neg (hl e (List.mem_cons_self ..))]
        exact ih fun e he => hl e (List.mem_cons_of_mem _ he)
    by_cases hk : k = sec
    · subst hk
      rw [if_pos rfl, List.append_assoc, skip _ _ (by
        intro e he
        have := (List.mem_filter.1 he).2
        simp only [decide_eq_true_eq] at this
        omega)]
      have : ∀ l r : List (Nat × Band), (∀ e ∈ r, e.1 ≠ k) → bandAt (l ++ r) k = bandAt l k := by
        intro l r hr
        induction l with
        | nil => have := skip r [] hr; rwa [List.append_nil] at this
        | cons e l ih => rw [List.cons_append, bandAt, bandAt, ih]
      exact this _ _ (by
        intro e he
        have := (List.mem_filter.1 he).2
        simp only [decide_eq_true_eq] at this
        omega)
    · rw [if_neg hk] at ih ⊢
      rw [List.filter_cons, List.filter_cons, bandAt]
      by_cases h1 : i < sec
      · rw [if_pos (by simpa using h1), if_neg (by simp; omega)]
        rw [List.cons_append, List.cons_append, bandAt, ih]
      · by_cases h2 : sec < i
        · rw [if_neg (by simpa using h1), if_pos (by simpa using h2)]
          by_cases hik : i = k
          · rw [if_pos hik, List.append_assoc, skip _ _ (by
              intro e he
              have := (List.mem_filter.1 he).2
              simp only [decide_eq_true_eq] at this
              omega), skip _ _ (by intro e he; have := hn e he; omega), bandAt, if_pos hik]
          · rw [if_neg hik, ← ih]
            generalize m.filter (fun e => e.1 < sec) ++ new = l
            induction l with
            | nil => simp [bandAt, hik]
            | cons e l ih => simp only [List.cons_append, bandAt]; rw [ih]
        · rw [if_neg (by simpa using h1), if_neg (by simpa using h2), if_neg (by omega)]
          exact ih

/-- The band of a sector after one was set. -/
theorem Memory.band_setBand (m : Memory) (sec k : Nat) (b : Band) :
    (m.setBand sec b).band k = if k = sec then b else m.band k := by
  simp only [Memory.band, Memory.setBand]
  rw [bandAt_splice _ _ _ _ (by
    intro e he
    split at he
    · simp at he
    · rw [List.mem_singleton.1 he])]
  split
  · by_cases hb : b = Band.reset
    · simp [hb, bandAt]
    · simp [hb, bandAt]
  · rfl

@[simp] theorem Memory.band_write (m : Memory) (a : Nat) (bs : List Byte) (k : Nat) : (m.write a bs).band k = m.band k := rfl

/-- R173: the band of a sector after a store: a sector that is not touched keeps its own. -/
theorem Memory.band_store_out (m : Memory) (a : Nat) (bs : List Byte) (p poison : Bool) (tag k : Nat)
    (h : k ∉ sectors a bs.length) : (m.store a bs p poison tag).band k = m.band k := by
  unfold Memory.store
  generalize hl : sectors a bs.length = l at h
  have : ∀ (l' : List Nat) (m' : Memory), (∀ x ∈ l', x ∈ l) → (l'.foldl
      (fun m sec => m.setBand sec ((m.band sec).put (covers a bs.length sec) p poison tag)) m').band k = m'.band k := by
    intro l'
    induction l' with
    | nil => intro _ _; rfl
    | cons s l' ih =>
      intro m' hs
      rw [List.foldl_cons, ih _ fun x hx => hs x (List.mem_cons_of_mem _ hx), Memory.band_setBand, if_neg]
      intro e; subst e
      exact h (hs _ (List.mem_cons_self ..))
  rw [this l _ fun _ h => h]; rfl

end Sys2Proof.Machine
end

