-- ==== Sys2Proof/Laws/PerInstr.lean ====
section
/-! SUPPORT. Family `RoundTrip`: decoding the words of an instruction gives the instruction (R246 to R250, R257, R258). -/

namespace Sys2Proof.Laws

open Sys2Proof

/-! ### Fields of a word -/

theorem opOf_ofNat (n c : Nat) (h : c * 2 ^ 24 ≤ n ∧ n < (c + 1) * 2 ^ 24 ∧ c < 256) : opOf (BitVec.ofNat 32 n) = c := by
  simp only [opOf, BitVec.toNat_ofNat]; omega

theorem fld_ofNat {k : Nat} (n lo : Nat) (x : BitVec k) (h : n % 2 ^ 32 / 2 ^ lo % 2 ^ k = x.toNat) :
    fld (BitVec.ofNat 32 n) lo k = x := by
  apply BitVec.eq_of_toNat_eq; simp only [fld, BitVec.toNat_ofNat]; exact h

theorem fieldIs_ofNat (n lo k v : Nat) (h : n % 2 ^ 32 / 2 ^ lo % 2 ^ k = v) :
    fieldIs (BitVec.ofNat 32 n) lo k v = true := by
  simp only [fieldIs, BitVec.toNat_ofNat, h, beq_self_eq_true]

theorem fieldIs_not (n lo k v : Nat) (h : n % 2 ^ 32 / 2 ^ lo % 2 ^ k ≠ v) :
    fieldIs (BitVec.ofNat 32 n) lo k v = false := by
  simp only [fieldIs, BitVec.toNat_ofNat, beq_eq_false_iff_ne, ne_eq, h, not_false_eq_true]

/-! ### Rows of the opcode map -/

theorem decode0_eq (w u : Word) (k : Nat) (hk : k < 16) (h : opOf w = 0 + k) : decode w u = decodeRow0 w u k := by
  rw [decode, h, show (0 + k) / 16 = 0 by omega, show (0 + k) % 16 = k by omega]
  rfl

theorem decode1_eq (w u : Word) (k : Nat) (hk : k < 16) (h : opOf w = 16 + k) : decode w u = decodeRow1 w u k := by
  rw [decode, h, show (16 + k) / 16 = 1 by omega, show (16 + k) % 16 = k by omega]
  rfl

theorem decode2_eq (w u : Word) (k : Nat) (hk : k < 16) (h : opOf w = 32 + k) : decode w u = decodeRow2 w u k := by
  rw [decode, h, show (32 + k) / 16 = 2 by omega, show (32 + k) % 16 = k by omega]
  rfl

theorem decode3_eq (w u : Word) (k : Nat) (hk : k < 16) (h : opOf w = 48 + k) : decode w u = decodeRow3 w u k := by
  rw [decode, h, show (48 + k) / 16 = 3 by omega, show (48 + k) % 16 = k by omega]
  rfl

theorem decode4_eq (w u : Word) (k : Nat) (hk : k < 16) (h : opOf w = 64 + k) : decode w u = decodeRow4 w u k := by
  rw [decode, h, show (64 + k) / 16 = 4 by omega, show (64 + k) % 16 = k by omega]
  rfl

theorem decode5_eq (w u : Word) (k : Nat) (hk : k < 16) (h : opOf w = 80 + k) : decode w u = decodeRow5 w u k := by
  rw [decode, h, show (80 + k) / 16 = 5 by omega, show (80 + k) % 16 = k by omega]
  rfl

theorem decode6_eq (w u : Word) (k : Nat) (hk : k < 16) (h : opOf w = 96 + k) : decode w u = decodeRow6 w u k := by
  rw [decode, h, show (96 + k) / 16 = 6 by omega, show (96 + k) % 16 = k by omega]
  rfl

theorem decode7_eq (w u : Word) (k : Nat) (hk : k < 16) (h : opOf w = 112 + k) : decode w u = decodeRow7 w u k := by
  rw [decode, h, show (112 + k) / 16 = 7 by omega, show (112 + k) % 16 = k by omega]
  rfl

theorem decode9_eq (w u : Word) (k : Nat) (hk : k < 16) (h : opOf w = 144 + k) : decode w u = decodeRow9 w u k := by
  rw [decode, h, show (144 + k) / 16 = 9 by omega, show (144 + k) % 16 = k by omega]
  rfl

theorem decodeA_eq (w u : Word) (k : Nat) (hk : k < 16) (h : opOf w = 160 + k) : decode w u = decodeRowA w u k := by
  rw [decode, h, show (160 + k) / 16 = 10 by omega, show (160 + k) % 16 = k by omega]
  rfl

theorem decodeB_eq (w u : Word) (k : Nat) (hk : k < 16) (h : opOf w = 176 + k) : decode w u = decodeRowB w u k := by
  rw [decode, h, show (176 + k) / 16 = 11 by omega, show (176 + k) % 16 = k by omega]
  rfl

theorem decodeC_eq (w u : Word) (k : Nat) (hk : k < 16) (h : opOf w = 192 + k) : decode w u = decodeRowC w u k := by
  rw [decode, h, show (192 + k) / 16 = 12 by omega, show (192 + k) % 16 = k by omega]
  rfl

theorem decodeD_eq (w u : Word) (k : Nat) (hk : k < 16) (h : opOf w = 208 + k) : decode w u = decodeRowD w u k := by
  rw [decode, h, show (208 + k) / 16 = 13 by omega, show (208 + k) % 16 = k by omega]
  rfl

theorem decodeE_eq (w u : Word) (k : Nat) (hk : k < 16) (h : opOf w = 224 + k) : decode w u = decodeRowE w u k := by
  rw [decode, h, show (224 + k) / 16 = 14 by omega, show (224 + k) % 16 = k by omega]
  rfl

theorem decodeF_eq (w u : Word) (k : Nat) (hk : k < 16) (h : opOf w = 240 + k) : decode w u = decodeRowF w u k := by
  rw [decode, h, show (240 + k) / 16 = 15 by omega, show (240 + k) % 16 = k by omega]
  rfl

theorem row00 (w u : Word) : decodeRow0 w u 0 =
    .ok (.iadd (fld w 17 7) (fld w 10 7) (fld w 3 7) (fld w 0 3)) := rfl

theorem row01 (w u : Word) : decodeRow0 w u 1 =
    .ok (.isub (fld w 17 7) (fld w 10 7) (fld w 3 7) (fld w 0 3)) := rfl

theorem row02 (w u : Word) : decodeRow0 w u 2 =
    if fieldIs w 0 3 0 then .ok (.imul (fld w 17 7) (fld w 10 7) (fld w 3 7)) else .error (.reservedField w) := rfl

theorem row03 (w u : Word) : decodeRow0 w u 3 =
    .ok (.imulh (fld w 17 7) (fld w 10 7) (fld w 3 7) (fld w 0 3)) := rfl

theorem row04 (w u : Word) : decodeRow0 w u 4 =
    if fieldIs w 0 3 0 && fieldIs u 0 25 0 then .ok (.imad (fld w 17 7) (fld w 10 7) (fld w 3 7) (fld u 25 7)) else .error (.reservedField w) := rfl

theorem row05 (w u : Word) : decodeRow0 w u 5 =
    .ok (.idiv (fld w 17 7) (fld w 10 7) (fld w 3 7) (fld w 0 3)) := rfl

theorem row06 (w u : Word) : decodeRow0 w u 6 =
    .ok (.irem (fld w 17 7) (fld w 10 7) (fld w 3 7) (fld w 0 3)) := rfl

theorem row07 (w u : Word) : decodeRow0 w u 7 =
    .ok (.imin (fld w 17 7) (fld w 10 7) (fld w 3 7) (fld w 0 3)) := rfl

theorem row08 (w u : Word) : decodeRow0 w u 8 =
    .ok (.imax (fld w 17 7) (fld w 10 7) (fld w 3 7) (fld w 0 3)) := rfl

theorem row09 (w u : Word) : decodeRow0 w u 9 =
    if fieldIs w 3 7 0 then .ok (.iabs (fld w 17 7) (fld w 10 7) (fld w 0 3)) else .error (.reservedField w) := rfl

theorem row0A (w u : Word) : decodeRow0 w u 10 =
    if fieldIs w 3 7 0 then .ok (.ineg (fld w 17 7) (fld w 10 7) (fld w 0 3)) else .error (.reservedField w) := rfl

theorem row0B (w u : Word) : decodeRow0 w u 11 =
    if fieldIs w 0 3 0 then .ok (.and (fld w 17 7) (fld w 10 7) (fld w 3 7)) else .error (.reservedField w) := rfl

theorem row0C (w u : Word) : decodeRow0 w u 12 =
    if fieldIs w 0 3 0 then .ok (.or (fld w 17 7) (fld w 10 7) (fld w 3 7)) else .error (.reservedField w) := rfl

theorem row0D (w u : Word) : decodeRow0 w u 13 =
    if fieldIs w 0 3 0 then .ok (.xor (fld w 17 7) (fld w 10 7) (fld w 3 7)) else .error (.reservedField w) := rfl

theorem row0E (w u : Word) : decodeRow0 w u 14 =
    if fieldIs w 0 3 0 then .ok (.andn (fld w 17 7) (fld w 10 7) (fld w 3 7)) else .error (.reservedField w) := rfl

theorem row0F (w u : Word) : decodeRow0 w u 15 =
    if fieldIs w 0 10 0 then .ok (.not (fld w 17 7) (fld w 10 7)) else .error (.reservedField w) := rfl

theorem row10 (w u : Word) : decodeRow1 w u 0 =
    if fieldIs w 0 3 0 then .ok (.shl (fld w 17 7) (fld w 10 7) (fld w 3 7)) else .error (.reservedField w) := rfl

theorem row11 (w u : Word) : decodeRow1 w u 1 =
    if fieldIs w 0 3 0 then .ok (.shr (fld w 17 7) (fld w 10 7) (fld w 3 7)) else .error (.reservedField w) := rfl

theorem row12 (w u : Word) : decodeRow1 w u 2 =
    if fieldIs w 0 3 0 then .ok (.sar (fld w 17 7) (fld w 10 7) (fld w 3 7)) else .error (.reservedField w) := rfl

theorem row13 (w u : Word) : decodeRow1 w u 3 =
    if fieldIs w 0 3 0 then .ok (.rotl (fld w 17 7) (fld w 10 7) (fld w 3 7)) else .error (.reservedField w) := rfl

theorem row14 (w u : Word) : decodeRow1 w u 4 =
    if fieldIs w 0 10 0 then .ok (.popc (fld w 17 7) (fld w 10 7)) else .error (.reservedField w) := rfl

theorem row15 (w u : Word) : decodeRow1 w u 5 =
    if fieldIs w 0 10 0 then .ok (.clz (fld w 17 7) (fld w 10 7)) else .error (.reservedField w) := rfl

theorem row16 (w u : Word) : decodeRow1 w u 6 =
    if fieldIs w 0 10 0 then .ok (.brev (fld w 17 7) (fld w 10 7)) else .error (.reservedField w) := rfl

theorem row17 (w u : Word) : decodeRow1 w u 7 =
    if fieldIs u 0 25 0 then .ok (.bfx (fld w 17 7) (fld w 10 7) (fld w 3 7) (fld w 0 3) (fld u 25 7)) else .error (.reservedField w) := rfl

theorem row18 (w u : Word) : decodeRow1 w u 8 =
    if fieldIs w 0 3 0 && fieldIs u 0 25 0 then .ok (.bfi (fld w 17 7) (fld w 10 7) (fld w 3 7) (fld u 25 7)) else .error (.reservedField w) := rfl

theorem row19 (w u : Word) : decodeRow1 w u 9 =
    .ok (.sel (fld w 17 7) (fld w 10 7) (fld w 3 7) (fld w 0 3)) := rfl

theorem row1A (w u : Word) : decodeRow1 w u 10 =
    if fieldIs w 0 10 0 then .ok (.mov (fld w 17 7) (fld w 10 7)) else .error (.reservedField w) := rfl

theorem row1B (w u : Word) : decodeRow1 w u 11 =
    .ok (.movi (fld w 17 7) (fld w 0 17)) := rfl

theorem row1C (w u : Word) : decodeRow1 w u 12 =
    if fieldIs w 16 1 0 then .ok (.movh (fld w 17 7) (fld w 0 16)) else .error (.reservedField w) := rfl

theorem row1D (w u : Word) : decodeRow1 w u 13 =
    .ok (.lea (fld w 17 7) (fld w 10 7) (fld w 3 7) (fld w 0 3)) := rfl

theorem row1E (w u : Word) : decodeRow1 w u 14 =
    .ok (.icmp (fld w 17 7) (fld w 10 7) (fld w 3 7) (fld w 0 3)) := rfl

theorem row20 (w u : Word) : decodeRow2 w u 0 =
    if fieldIs w 0 3 0 then .ok (.iaddD (fld w 17 7) (fld w 10 7) (fld w 3 7)) else .error (.reservedField w) := rfl

theorem row21 (w u : Word) : decodeRow2 w u 1 =
    if fieldIs w 0 3 0 then .ok (.isubD (fld w 17 7) (fld w 10 7) (fld w 3 7)) else .error (.reservedField w) := rfl

theorem row22 (w u : Word) : decodeRow2 w u 2 =
    if fieldIs w 0 3 0 then .ok (.imulD (fld w 17 7) (fld w 10 7) (fld w 3 7)) else .error (.reservedField w) := rfl

theorem row23 (w u : Word) : decodeRow2 w u 3 =
    if fieldIs w 0 3 0 && fieldIs u 0 25 0 then .ok (.imadD (fld w 17 7) (fld w 10 7) (fld w 3 7) (fld u 25 7)) else .error (.reservedField w) := rfl

theorem row24 (w u : Word) : decodeRow2 w u 4 =
    .ok (.iminD (fld w 17 7) (fld w 10 7) (fld w 3 7) (fld w 0 3)) := rfl

theorem row25 (w u : Word) : decodeRow2 w u 5 =
    .ok (.imaxD (fld w 17 7) (fld w 10 7) (fld w 3 7) (fld w 0 3)) := rfl

theorem row26 (w u : Word) : decodeRow2 w u 6 =
    if fieldIs w 0 3 0 then .ok (.andD (fld w 17 7) (fld w 10 7) (fld w 3 7)) else .error (.reservedField w) := rfl

theorem row27 (w u : Word) : decodeRow2 w u 7 =
    if fieldIs w 0 3 0 then .ok (.orD (fld w 17 7) (fld w 10 7) (fld w 3 7)) else .error (.reservedField w) := rfl

theorem row28 (w u : Word) : decodeRow2 w u 8 =
    if fieldIs w 0 3 0 then .ok (.xorD (fld w 17 7) (fld w 10 7) (fld w 3 7)) else .error (.reservedField w) := rfl

theorem row29 (w u : Word) : decodeRow2 w u 9 =
    if fieldIs w 0 3 0 then .ok (.shlD (fld w 17 7) (fld w 10 7) (fld w 3 7)) else .error (.reservedField w) := rfl

theorem row2A (w u : Word) : decodeRow2 w u 10 =
    if fieldIs w 0 3 0 then .ok (.shrD (fld w 17 7) (fld w 10 7) (fld w 3 7)) else .error (.reservedField w) := rfl

theorem row2B (w u : Word) : decodeRow2 w u 11 =
    if fieldIs w 0 3 0 then .ok (.sarD (fld w 17 7) (fld w 10 7) (fld w 3 7)) else .error (.reservedField w) := rfl

theorem row2C (w u : Word) : decodeRow2 w u 12 =
    if fieldIs w 0 10 0 then .ok (.movD (fld w 17 7) (fld w 10 7)) else .error (.reservedField w) := rfl

theorem row2D (w u : Word) : decodeRow2 w u 13 =
    .ok (.selD (fld w 17 7) (fld w 10 7) (fld w 3 7) (fld w 0 3)) := rfl

theorem row2E (w u : Word) : decodeRow2 w u 14 =
    .ok (.icmpD (fld w 17 7) (fld w 10 7) (fld w 3 7) (fld w 0 3)) := rfl

theorem row30 (w u : Word) : decodeRow3 w u 0 =
    .ok (.fadd (fld w 17 7) (fld w 10 7) (fld w 3 7) (fld w 0 3)) := rfl

theorem row31 (w u : Word) : decodeRow3 w u 1 =
    .ok (.fsub (fld w 17 7) (fld w 10 7) (fld w 3 7) (fld w 0 3)) := rfl

theorem row32 (w u : Word) : decodeRow3 w u 2 =
    .ok (.fmul (fld w 17 7) (fld w 10 7) (fld w 3 7) (fld w 0 3)) := rfl

theorem row33 (w u : Word) : decodeRow3 w u 3 =
    if fieldIs u 0 25 0 then .ok (.ffma (fld w 17 7) (fld w 10 7) (fld w 3 7) (fld w 0 3) (fld u 25 7)) else .error (.reservedField w) := rfl

theorem row34 (w u : Word) : decodeRow3 w u 4 =
    if fieldIs w 0 3 0 then .ok (.fmin (fld w 17 7) (fld w 10 7) (fld w 3 7)) else .error (.reservedField w) := rfl

theorem row35 (w u : Word) : decodeRow3 w u 5 =
    if fieldIs w 0 3 0 then .ok (.fmax (fld w 17 7) (fld w 10 7) (fld w 3 7)) else .error (.reservedField w) := rfl

theorem row36 (w u : Word) : decodeRow3 w u 6 =
    if fieldIs w 0 10 0 then .ok (.fabs (fld w 17 7) (fld w 10 7)) else .error (.reservedField w) := rfl

theorem row37 (w u : Word) : decodeRow3 w u 7 =
    if fieldIs w 0 10 0 then .ok (.fneg (fld w 17 7) (fld w 10 7)) else .error (.reservedField w) := rfl

theorem row38 (w u : Word) : decodeRow3 w u 8 =
    .ok (.fcmp (fld w 17 7) (fld w 10 7) (fld w 3 7) (fld w 0 3)) := rfl

theorem row39 (w u : Word) : decodeRow3 w u 9 =
    if fieldIs w 0 10 0 then .ok (.fclass (fld w 17 7) (fld w 10 7)) else .error (.reservedField w) := rfl

theorem row3A (w u : Word) : decodeRow3 w u 10 =
    .ok (.fscale (fld w 17 7) (fld w 10 7) (fld w 3 7) (fld w 0 3)) := rfl

theorem row3B (w u : Word) : decodeRow3 w u 11 =
    .ok (.fcvt (fld w 17 7) (fld w 10 7) (fld w 3 7) (fld w 0 3)) := rfl

theorem row3C (w u : Word) : decodeRow3 w u 12 =
    if fieldIs w 3 7 0 then .ok (.frnd (fld w 17 7) (fld w 10 7) (fld w 0 3)) else .error (.reservedField w) := rfl

theorem row40 (w u : Word) : decodeRow4 w u 0 =
    if fieldIs w 3 7 0 then .ok (.frcp (fld w 17 7) (fld w 10 7) (fld w 0 3)) else .error (.reservedField w) := rfl

theorem row41 (w u : Word) : decodeRow4 w u 1 =
    if fieldIs w 0 10 0 then .ok (.frsq (fld w 17 7) (fld w 10 7)) else .error (.reservedField w) := rfl

theorem row42 (w u : Word) : decodeRow4 w u 2 =
    if fieldIs w 3 7 0 then .ok (.fsqrt (fld w 17 7) (fld w 10 7) (fld w 0 3)) else .error (.reservedField w) := rfl

theorem row43 (w u : Word) : decodeRow4 w u 3 =
    if fieldIs w 0 10 0 then .ok (.fexp2 (fld w 17 7) (fld w 10 7)) else .error (.reservedField w) := rfl

theorem row44 (w u : Word) : decodeRow4 w u 4 =
    if fieldIs w 0 10 0 then .ok (.flog2 (fld w 17 7) (fld w 10 7)) else .error (.reservedField w) := rfl

theorem row45 (w u : Word) : decodeRow4 w u 5 =
    if fieldIs w 0 10 0 then .ok (.fsin (fld w 17 7) (fld w 10 7)) else .error (.reservedField w) := rfl

theorem row46 (w u : Word) : decodeRow4 w u 6 =
    if fieldIs w 0 10 0 then .ok (.fcos (fld w 17 7) (fld w 10 7)) else .error (.reservedField w) := rfl

theorem row50 (w u : Word) : decodeRow5 w u 0 =
    .ok (.dadd (fld w 17 7) (fld w 10 7) (fld w 3 7) (fld w 0 3)) := rfl

theorem row51 (w u : Word) : decodeRow5 w u 1 =
    .ok (.dsub (fld w 17 7) (fld w 10 7) (fld w 3 7) (fld w 0 3)) := rfl

theorem row52 (w u : Word) : decodeRow5 w u 2 =
    .ok (.dmul (fld w 17 7) (fld w 10 7) (fld w 3 7) (fld w 0 3)) := rfl

theorem row53 (w u : Word) : decodeRow5 w u 3 =
    if fieldIs u 0 25 0 then .ok (.dfma (fld w 17 7) (fld w 10 7) (fld w 3 7) (fld w 0 3) (fld u 25 7)) else .error (.reservedField w) := rfl

theorem row54 (w u : Word) : decodeRow5 w u 4 =
    .ok (.ddiv (fld w 17 7) (fld w 10 7) (fld w 3 7) (fld w 0 3)) := rfl

theorem row55 (w u : Word) : decodeRow5 w u 5 =
    if fieldIs w 3 7 0 then .ok (.dsqrt (fld w 17 7) (fld w 10 7) (fld w 0 3)) else .error (.reservedField w) := rfl

theorem row56 (w u : Word) : decodeRow5 w u 6 =
    .ok (.dcmp (fld w 17 7) (fld w 10 7) (fld w 3 7) (fld w 0 3)) := rfl

theorem row57 (w u : Word) : decodeRow5 w u 7 =
    .ok (.dcvt (fld w 17 7) (fld w 10 7) (fld w 3 7) (fld w 0 3)) := rfl

theorem row58 (w u : Word) : decodeRow5 w u 8 =
    .ok (.hadd2 (fld w 17 7) (fld w 10 7) (fld w 3 7) (fld w 0 3)) := rfl

theorem row59 (w u : Word) : decodeRow5 w u 9 =
    .ok (.hmul2 (fld w 17 7) (fld w 10 7) (fld w 3 7) (fld w 0 3)) := rfl

theorem row5A (w u : Word) : decodeRow5 w u 10 =
    if fieldIs u 0 25 0 then .ok (.hfma2 (fld w 17 7) (fld w 10 7) (fld w 3 7) (fld w 0 3) (fld u 25 7)) else .error (.reservedField w) := rfl

theorem row60 (w u : Word) : decodeRow6 w u 0 =
    if fieldIs w 2 1 0 then .ok (.pand (fld w 17 7) (fld w 10 7) (fld w 3 7) (fld w 0 2)) else .error (.reservedField w) := rfl

theorem row61 (w u : Word) : decodeRow6 w u 1 =
    if fieldIs w 2 1 0 then .ok (.por (fld w 17 7) (fld w 10 7) (fld w 3 7) (fld w 0 2)) else .error (.reservedField w) := rfl

theorem row62 (w u : Word) : decodeRow6 w u 2 =
    if fieldIs w 2 1 0 then .ok (.pxor (fld w 17 7) (fld w 10 7) (fld w 3 7) (fld w 0 2)) else .error (.reservedField w) := rfl

theorem row63 (w u : Word) : decodeRow6 w u 3 =
    if fieldIs w 0 10 0 then .ok (.pnot (fld w 17 7) (fld w 10 7)) else .error (.reservedField w) := rfl

theorem row64 (w u : Word) : decodeRow6 w u 4 =
    if fieldIs w 0 10 0 then .ok (.pmov (fld w 17 7) (fld w 10 7)) else .error (.reservedField w) := rfl

theorem row65 (w u : Word) : decodeRow6 w u 5 =
    if fieldIs w 0 10 0 then .ok (.pset (fld w 17 7) (fld w 10 7)) else .error (.reservedField w) := rfl

theorem row68 (w u : Word) : decodeRow6 w u 8 =
    .ok (.xchg (fld w 17 7) (fld w 10 7) (fld w 3 7) (fld w 0 3)) := rfl

theorem row69 (w u : Word) : decodeRow6 w u 9 =
    if fieldIs w 0 3 0 then .ok (.xbcast (fld w 17 7) (fld w 10 7) (fld w 3 7)) else .error (.reservedField w) := rfl

theorem row6A (w u : Word) : decodeRow6 w u 10 =
    .ok (.xscan (fld w 17 7) (fld w 10 7) (fld w 3 7) (fld w 0 3)) := rfl

theorem row6B (w u : Word) : decodeRow6 w u 11 =
    if fieldIs w 3 7 0 then .ok (.xred (fld w 17 7) (fld w 10 7) (fld w 0 3)) else .error (.reservedField w) := rfl

theorem row6C (w u : Word) : decodeRow6 w u 12 =
    if fieldIs w 3 7 0 then .ok (.vote (fld w 17 7) (fld w 10 7) (fld w 0 3)) else .error (.reservedField w) := rfl

theorem row70 (w u : Word) : decodeRow7 w u 0 =
    .ok (.bra (fld w 0 24)) := rfl

theorem row71 (w u : Word) : decodeRow7 w u 1 =
    if fieldIs w 0 10 0 && fieldIs w 17 7 0 then .ok (.brx (fld w 10 7)) else .error (.reservedField w) := rfl

theorem row72 (w u : Word) : decodeRow7 w u 2 =
    .ok (.call (fld w 0 24)) := rfl

theorem row73 (w u : Word) : decodeRow7 w u 3 =
    if fieldIs w 0 10 0 && fieldIs w 17 7 0 then .ok (.callx (fld w 10 7)) else .error (.reservedField w) := rfl

theorem row74 (w u : Word) : decodeRow7 w u 4 =
    if fieldIs w 0 24 0 then .ok (.ret) else .error (.reservedField w) := rfl

theorem row75 (w u : Word) : decodeRow7 w u 5 =
    if fieldIs w 0 24 0 then .ok (.join) else .error (.reservedField w) := rfl

theorem row76 (w u : Word) : decodeRow7 w u 6 =
    if fieldIs w 0 12 0 then .ok (.loop (fld w 17 7) (fld w 12 5) (fld u 28 4) (fld u 24 4) (fld u 20 4) (fld u 16 4) (fld u 14 2) (fld u 0 14)) else .error (.reservedField w) := rfl

theorem row78 (w u : Word) : decodeRow7 w u 8 =
    if fieldIs w 0 3 0 then .ok (.spawn (fld w 17 7) (fld w 10 7) (fld w 3 7)) else .error (.reservedField w) := rfl

theorem row79 (w u : Word) : decodeRow7 w u 9 =
    if fieldIs w 0 10 0 && fieldIs w 17 7 0 then .ok (.launch (fld w 10 7)) else .error (.reservedField w) := rfl

theorem row7A (w u : Word) : decodeRow7 w u 10 =
    if fieldIs w 0 24 0 then .ok (.tail) else .error (.reservedField w) := rfl

theorem row7B (w u : Word) : decodeRow7 w u 11 =
    if fieldIs w 0 24 0 then .ok (.yield) else .error (.reservedField w) := rfl

theorem row7C (w u : Word) : decodeRow7 w u 12 =
    if fieldIs w 0 24 0 then .ok (.nop) else .error (.reservedField w) := rfl

theorem row7D (w u : Word) : decodeRow7 w u 13 =
    if fieldIs w 0 10 0 && fieldIs w 17 7 0 then .ok (.rgn (fld w 10 7)) else .error (.reservedField w) := rfl

theorem row7E (w u : Word) : decodeRow7 w u 14 =
    if fieldIs w 16 1 0 then .ok (.dead (fld w 17 7) (fld w 0 16)) else .error (.reservedField w) := rfl

theorem row90 (w u : Word) : decodeRow9 w u 0 =
    .ok (.ld (fld w 17 7) (fld w 10 7) (fld w 6 4) (fld w 3 3) (fld w 0 3)) := rfl

theorem row91 (w u : Word) : decodeRow9 w u 1 =
    .ok (.lda (fld w 17 7) (fld w 10 7) (fld w 6 4) (fld w 3 3) (fld w 0 3)) := rfl

theorem row92 (w u : Word) : decodeRow9 w u 2 =
    .ok (.ldw (fld w 17 7) (fld w 10 7) (fld w 6 4) (fld w 3 3) (fld w 0 3)) := rfl

theorem row94 (w u : Word) : decodeRow9 w u 4 =
    .ok (.st (fld w 17 7) (fld w 10 7) (fld w 6 4) (fld w 3 3) (fld w 0 3)) := rfl

theorem row95 (w u : Word) : decodeRow9 w u 5 =
    .ok (.sta (fld w 17 7) (fld w 10 7) (fld w 6 4) (fld w 3 3) (fld w 0 3)) := rfl

theorem row96 (w u : Word) : decodeRow9 w u 6 =
    .ok (.stw (fld w 17 7) (fld w 10 7) (fld w 6 4) (fld w 3 3) (fld w 0 3)) := rfl

theorem row98 (w u : Word) : decodeRow9 w u 8 =
    .ok (.stP (fld w 17 7) (fld w 10 7) (fld w 6 4) (fld w 3 3) (fld w 0 3)) := rfl

theorem row99 (w u : Word) : decodeRow9 w u 9 =
    .ok (.staP (fld w 17 7) (fld w 10 7) (fld w 6 4) (fld w 3 3) (fld w 0 3)) := rfl

theorem row9A (w u : Word) : decodeRow9 w u 10 =
    .ok (.stwP (fld w 17 7) (fld w 10 7) (fld w 6 4) (fld w 3 3) (fld w 0 3)) := rfl

theorem row9C (w u : Word) : decodeRow9 w u 12 =
    .ok (.atom (fld w 17 7) (fld w 10 7) (fld w 6 4) (fld w 3 3) (fld w 0 3)) := rfl

theorem row9D (w u : Word) : decodeRow9 w u 13 =
    .ok (.atoma (fld w 17 7) (fld w 10 7) (fld w 6 4) (fld w 3 3) (fld w 0 3)) := rfl

theorem row9E (w u : Word) : decodeRow9 w u 14 =
    .ok (.red (fld w 17 7) (fld w 10 7) (fld w 6 4) (fld w 3 3) (fld w 0 3)) := rfl

theorem rowA0 (w u : Word) : decodeRowA w u 0 =
    if fieldIs w 6 18 0 then .ok (.fence (fld w 3 3) (fld w 0 3)) else .error (.reservedField w) := rfl

theorem rowA1 (w u : Word) : decodeRowA w u 1 =
    if fieldIs w 6 4 0 then .ok (.fencex (fld w 17 7) (fld w 10 7) (fld w 3 3) (fld w 0 3)) else .error (.reservedField w) := rfl

theorem rowA2 (w u : Word) : decodeRowA w u 2 =
    if fieldIs w 0 6 0 && fieldIs w 17 7 0 then .ok (.watch (fld w 10 7) (fld w 6 4)) else .error (.reservedField w) := rfl

theorem rowA3 (w u : Word) : decodeRowA w u 3 =
    if fieldIs w 0 10 0 then .ok (.wait (fld w 17 7) (fld w 10 7)) else .error (.reservedField w) := rfl

theorem rowA4 (w u : Word) : decodeRowA w u 4 =
    if fieldIs w 0 10 256 then .ok (.waita (fld w 17 7) (fld w 10 7)) else .error (.reservedField w) := rfl

theorem rowA5 (w u : Word) : decodeRowA w u 5 =
    if fieldIs w 0 10 0 && fieldIs w 17 7 0 then .ok (.prf (fld w 10 7)) else .error (.reservedField w) := rfl

theorem rowB0 (w u : Word) : decodeRowB w u 0 =
    .ok (.ldOff (fld w 17 7) (fld w 10 7) (fld w 6 4) (fld w 3 3) (fld w 0 3)) := rfl

theorem rowB1 (w u : Word) : decodeRowB w u 1 =
    .ok (.ldaOff (fld w 17 7) (fld w 10 7) (fld w 6 4) (fld w 3 3) (fld w 0 3)) := rfl

theorem rowB2 (w u : Word) : decodeRowB w u 2 =
    .ok (.ldwOff (fld w 17 7) (fld w 10 7) (fld w 6 4) (fld w 3 3) (fld w 0 3)) := rfl

theorem rowB4 (w u : Word) : decodeRowB w u 4 =
    .ok (.stOff (fld w 17 7) (fld w 10 7) (fld w 6 4) (fld w 3 3) (fld w 0 3)) := rfl

theorem rowB5 (w u : Word) : decodeRowB w u 5 =
    .ok (.staOff (fld w 17 7) (fld w 10 7) (fld w 6 4) (fld w 3 3) (fld w 0 3)) := rfl

theorem rowB6 (w u : Word) : decodeRowB w u 6 =
    .ok (.stwOff (fld w 17 7) (fld w 10 7) (fld w 6 4) (fld w 3 3) (fld w 0 3)) := rfl

theorem rowB8 (w u : Word) : decodeRowB w u 8 =
    .ok (.stPOff (fld w 17 7) (fld w 10 7) (fld w 6 4) (fld w 3 3) (fld w 0 3)) := rfl

theorem rowB9 (w u : Word) : decodeRowB w u 9 =
    .ok (.staPOff (fld w 17 7) (fld w 10 7) (fld w 6 4) (fld w 3 3) (fld w 0 3)) := rfl

theorem rowBA (w u : Word) : decodeRowB w u 10 =
    .ok (.stwPOff (fld w 17 7) (fld w 10 7) (fld w 6 4) (fld w 3 3) (fld w 0 3)) := rfl

theorem rowBC (w u : Word) : decodeRowB w u 12 =
    .ok (.atomOff (fld w 17 7) (fld w 10 7) (fld w 6 4) (fld w 3 3) (fld w 0 3)) := rfl

theorem rowBD (w u : Word) : decodeRowB w u 13 =
    .ok (.atomaOff (fld w 17 7) (fld w 10 7) (fld w 6 4) (fld w 3 3) (fld w 0 3)) := rfl

theorem rowBE (w u : Word) : decodeRowB w u 14 =
    .ok (.redOff (fld w 17 7) (fld w 10 7) (fld w 6 4) (fld w 3 3) (fld w 0 3)) := rfl

theorem rowC0 (w u : Word) : decodeRowC w u 0 =
    if fieldIs w 0 6 0 && fieldIs w 17 7 0 then .ok (.harm (fld w 10 7) (fld w 6 4)) else .error (.reservedField w) := rfl

theorem rowC1 (w u : Word) : decodeRowC w u 1 =
    if fieldIs w 0 6 0 && fieldIs w 10 14 0 then .ok (.hsign (fld w 6 4)) else .error (.reservedField w) := rfl

theorem rowC2 (w u : Word) : decodeRowC w u 2 =
    if fieldIs w 0 6 0 && fieldIs w 10 7 0 then .ok (.hpoll (fld w 17 7) (fld w 6 4)) else .error (.reservedField w) := rfl

theorem rowC4 (w u : Word) : decodeRowC w u 4 =
    if fieldIs w 3 2 0 && fieldIs w 6 18 0 then .ok (.bar (fld w 5 1) (fld w 0 3)) else .error (.reservedField w) := rfl

theorem rowC5 (w u : Word) : decodeRowC w u 5 =
    if fieldIs w 0 10 0 && fieldIs w 17 7 0 then .ok (.parr (fld w 10 7)) else .error (.reservedField w) := rfl

theorem rowC6 (w u : Word) : decodeRowC w u 6 =
    if fieldIs w 0 10 0 then .ok (.pwait (fld w 17 7) (fld w 10 7)) else .error (.reservedField w) := rfl

theorem rowD0 (w u : Word) : decodeRowD w u 0 =
    .ok (.cpyGa (fld w 17 7) (fld w 10 7) (fld w 3 7) (fld w 0 3)) := rfl

theorem rowD1 (w u : Word) : decodeRowD w u 1 =
    .ok (.cpyAg (fld w 17 7) (fld w 10 7) (fld w 3 7) (fld w 0 3)) := rfl

theorem rowD2 (w u : Word) : decodeRowD w u 2 =
    if fieldIs w 3 21 0 then .ok (.cpyw (fld w 0 3)) else .error (.reservedField w) := rfl

theorem rowD3 (w u : Word) : decodeRowD w u 3 =
    if fieldIs w 3 14 0 then .ok (.cpyt (fld w 17 7) (fld w 0 3)) else .error (.reservedField w) := rfl

theorem rowD4 (w u : Word) : decodeRowD w u 4 =
    if fieldIs w 0 3 0 && fieldIs w 17 7 0 && fieldIs u 0 25 0 then .ok (.bcpy (fld w 10 7) (fld w 3 7) (fld u 25 7)) else .error (.reservedField w) := rfl

theorem rowD5 (w u : Word) : decodeRowD w u 5 =
    if fieldIs w 0 10 0 then .ok (.coll (fld w 17 7) (fld w 10 7)) else .error (.reservedField w) := rfl

theorem rowD6 (w u : Word) : decodeRowD w u 6 =
    if fieldIs w 0 10 0 then .ok (.subs (fld w 17 7) (fld w 10 7)) else .error (.reservedField w) := rfl

theorem rowD7 (w u : Word) : decodeRowD w u 7 =
    if fieldIs w 0 10 0 then .ok (.subsSync (fld w 17 7) (fld w 10 7)) else .error (.reservedField w) := rfl

theorem rowD8 (w u : Word) : decodeRowD w u 8 =
    if fieldIs w 0 10 0 then .ok (.subx (fld w 17 7) (fld w 10 7)) else .error (.reservedField w) := rfl

theorem rowD9 (w u : Word) : decodeRowD w u 9 =
    if fieldIs w 0 10 0 then .ok (.subf (fld w 17 7) (fld w 10 7)) else if fieldIs w 0 17 1 then .ok (.subfSrc (fld w 17 7)) else .error (.reservedField w) := rfl

theorem rowDA (w u : Word) : decodeRowD w u 10 =
    if fieldIs u 0 25 0 then .ok (.amsg (fld w 17 7) (fld w 10 7) (fld w 3 7) (fld w 0 3) (fld u 25 7)) else .error (.reservedField w) := rfl

theorem rowDB (w u : Word) : decodeRowD w u 11 =
    if fieldIs w 0 10 0 then .ok (.qpush (fld w 17 7) (fld w 10 7)) else .error (.reservedField w) := rfl

theorem rowDC (w u : Word) : decodeRowD w u 12 =
    if fieldIs w 0 3 0 && fieldIs u 0 25 0 then .ok (.pitch (fld w 17 7) (fld w 10 7) (fld w 3 7) (fld u 25 7)) else .error (.reservedField w) := rfl

theorem rowDD (w u : Word) : decodeRowD w u 13 =
    if fieldIs w 0 24 0 then .ok (.qdrn) else .error (.reservedField w) := rfl

theorem rowE8 (w u : Word) : decodeRowE w u 8 =
    if fieldIs w 0 10 0 && fieldIs w 17 7 0 && fieldIs u 4 15 0 && fieldIs u 21 11 0 then .ok (.mcfg (fld w 10 7) (fld u 19 2) (fld u 0 4)) else .error (.reservedField w) := rfl

theorem rowE9 (w u : Word) : decodeRowE w u 9 =
    if fieldIs w 0 24 0 && fieldIs u 0 19 0 && fieldIs u 21 11 0 then .ok (.mzero (fld u 19 2)) else .error (.reservedField w) := rfl

theorem rowEA (w u : Word) : decodeRowE w u 10 =
    if fieldIs w 0 3 0 && fieldIs u 2 7 0 && fieldIs u 10 4 0 && fieldIs u 19 6 0 then .ok (.gath (fld w 17 7) (fld w 10 7) (fld w 3 7) (fld u 25 7) (fld u 18 1) (fld u 14 4) (fld u 9 1) (fld u 0 2)) else .error (.reservedField w) := rfl

theorem rowEB (w u : Word) : decodeRowE w u 11 =
    if fieldIs w 0 3 0 && fieldIs u 2 7 0 then .ok (.mma (fld w 17 7) (fld w 10 7) (fld w 3 7) (fld u 25 7) (fld u 21 4) (fld u 19 2) (fld u 18 1) (fld u 14 4) (fld u 10 4) (fld u 9 1) (fld u 0 2)) else .error (.reservedField w) := rfl

theorem rowEC (w u : Word) : decodeRowE w u 12 =
    if fieldIs w 0 3 0 && fieldIs u 3 6 0 && fieldIs u 0 2 1 then .ok (.mmasS (fld w 17 7) (fld w 10 7) (fld w 3 7) (fld u 25 7) (fld u 21 4) (fld u 19 2) (fld u 18 1) (fld u 14 4) (fld u 10 4) (fld u 9 1) (fld u 2 1)) else if fieldIs w 0 3 0 && fieldIs u 3 6 0 && fieldIs u 18 1 0 && fieldIs u 0 2 2 then .ok (.mmasV (fld w 17 7) (fld w 10 7) (fld w 3 7) (fld u 25 7) (fld u 21 4) (fld u 19 2) (fld u 14 4) (fld u 10 4) (fld u 9 1) (fld u 2 1)) else .error (.reservedField w) := rfl

theorem rowED (w u : Word) : decodeRowE w u 13 =
    if fieldIs w 0 10 0 && fieldIs w 17 7 0 && fieldIs u 0 19 0 && fieldIs u 21 11 0 then .ok (.mol (fld w 10 7) (fld u 19 2)) else .error (.reservedField w) := rfl

theorem rowEE (w u : Word) : decodeRowE w u 14 =
    if fieldIs w 0 10 0 && fieldIs w 17 7 0 && fieldIs u 4 15 0 && fieldIs u 21 4 0 then .ok (.mdrn (fld w 10 7) (fld u 25 7) (fld u 19 2) (fld u 0 4)) else .error (.reservedField w) := rfl

theorem rowEF (w u : Word) : decodeRowE w u 15 =
    if fieldIs w 0 17 0 && fieldIs u 1 18 0 && fieldIs u 21 11 0 then .ok (.mstat (fld w 17 7) (fld u 19 2) (fld u 0 1)) else .error (.reservedField w) := rfl

theorem rowF0 (w u : Word) : decodeRowF w u 0 =
    if fieldIs w 0 10 0 && fieldIs u 0 14 0 && fieldIs u 18 7 0 then .ok (.cvtb (fld w 17 7) (fld w 10 7) (fld u 25 7) (fld u 14 4)) else .error (.reservedField w) := rfl

theorem rowF1 (w u : Word) : decodeRowF w u 1 =
    if fieldIs w 0 3 0 && fieldIs u 0 21 0 && fieldIs u 25 7 0 then .ok (.dcorD (fld w 17 7) (fld w 10 7) (fld w 3 7) (fld u 21 4)) else .error (.reservedField w) := rfl

theorem rowF8 (w u : Word) : decodeRowF w u 8 =
    if fieldIs w 12 5 0 then .ok (.mfsr (fld w 17 7) (fld w 0 12)) else .error (.reservedField w) := rfl

theorem rowF9 (w u : Word) : decodeRowF w u 9 =
    if fieldIs w 12 5 0 then .ok (.mtsr (fld w 17 7) (fld w 0 12)) else .error (.reservedField w) := rfl

theorem rowFA (w u : Word) : decodeRowF w u 10 =
    if fieldIs w 16 8 0 then .ok (.trap (fld w 0 16)) else .error (.reservedField w) := rfl

theorem rowFB (w u : Word) : decodeRowF w u 11 =
    if fieldIs w 0 24 0 then .ok (.eret) else .error (.reservedField w) := rfl

theorem rowFC (w u : Word) : decodeRowF w u 12 =
    if fieldIs w 16 8 0 then .ok (.sysc (fld w 0 16)) else .error (.reservedField w) := rfl

theorem rowFF (w u : Word) : decodeRowF w u 15 =
    .ok (.illegal (fld w 0 24)) := rfl

/-! ### The family -/

/-- What the family says of an instruction: its words decode to it, and the first of them gives their number. An
event of the part has no words; an unassigned code is a word as it stands. -/
def RoundTrip.Statement (i : Instr) : Prop :=
  ∀ w ws, encode i = w :: ws → (∀ x, i ≠ .unassignedOpcode x) →
    decode w (ws.headD 0#32) = .ok i ∧ lengthOf w = ws.length + 1

theorem RoundTrip.event (i : Instr) (he : encode i = []) : RoundTrip.Statement i := by
  intro w ws e; rw [he] at e; cases e

theorem RoundTrip.of1 (i : Instr) (n c : Nat) (he : encode i = [BitVec.ofNat 32 n])
    (h : c * 2 ^ 24 ≤ n ∧ n < (c + 1) * 2 ^ 24 ∧ c < 256) (hl : twoWordOps.contains c = false)
    (hd : decode (BitVec.ofNat 32 n) 0#32 = .ok i) : RoundTrip.Statement i := by
  intro w ws e _
  rw [he] at e
  injection e with e1 e2
  subst e1; subst e2
  refine ⟨hd, ?_⟩
  rw [lengthOf, opOf_ofNat n c h, hl]; rfl

theorem RoundTrip.of2 (i : Instr) (n m c : Nat) (he : encode i = [BitVec.ofNat 32 n, BitVec.ofNat 32 m])
    (h : c * 2 ^ 24 ≤ n ∧ n < (c + 1) * 2 ^ 24 ∧ c < 256) (hl : twoWordOps.contains c = true)
    (hd : decode (BitVec.ofNat 32 n) (BitVec.ofNat 32 m) = .ok i) : RoundTrip.Statement i := by
  intro w ws e _
  rw [he] at e
  injection e with e1 e2
  subst e1; subst e2
  refine ⟨hd, ?_⟩
  rw [lengthOf, opOf_ofNat n c h, hl]; rfl

theorem RoundTrip.powerOn (r : SelfTest) : RoundTrip.Statement (.powerOn r) := RoundTrip.event _ rfl

theorem RoundTrip.pcieFundamentalReset (r : SelfTest) : RoundTrip.Statement (.pcieFundamentalReset r) := RoundTrip.event _ rfl

theorem RoundTrip.managementPowerCycle (r : SelfTest) : RoundTrip.Statement (.managementPowerCycle r) := RoundTrip.event _ rfl

theorem RoundTrip.mapRebuild (die : Nat) (failed : List Nat) : RoundTrip.Statement (.mapRebuild die failed) := RoundTrip.event _ rfl

theorem RoundTrip.linkDown (link : Nat) : RoundTrip.Statement (.linkDown link) := RoundTrip.event _ rfl

theorem RoundTrip.linkRetrainEnd (link : Nat) (ok : Bool) : RoundTrip.Statement (.linkRetrainEnd link ok) := RoundTrip.event _ rfl

theorem RoundTrip.bridgeReplay (bridge : Nat) : RoundTrip.Statement (.bridgeReplay bridge) := RoundTrip.event _ rfl

theorem RoundTrip.thermalThrottle (die : Nat) (reading : Nat) : RoundTrip.Statement (.thermalThrottle die reading) := RoundTrip.event _ rfl

theorem RoundTrip.thermalFence (reading : Nat) : RoundTrip.Statement (.thermalFence reading) := RoundTrip.event _ rfl

theorem RoundTrip.thermalReenable (reading : Nat) : RoundTrip.Statement (.thermalReenable reading) := RoundTrip.event _ rfl

theorem RoundTrip.pwrhRefresh (die : Nat) (quad : Nat) (hdrm : BitVec 8) : RoundTrip.Statement (.pwrhRefresh die quad hdrm) := RoundTrip.event _ rfl

theorem RoundTrip.undervoltStep (x : Lowering) : RoundTrip.Statement (.undervoltStep x) := RoundTrip.event _ rfl

theorem RoundTrip.monitorWindowExpiry (dom : Nat) (array : Nat) : RoundTrip.Statement (.monitorWindowExpiry dom array) := RoundTrip.event _ rfl

theorem RoundTrip.undervoltOverride (dom : Nat) (array : Nat) (count : Nat) : RoundTrip.Statement (.undervoltOverride dom array count) := RoundTrip.event _ rfl

theorem RoundTrip.scanStart (core : Nat) : RoundTrip.Statement (.scanStart core) := RoundTrip.event _ rfl

theorem RoundTrip.scanPatternEnd (core : Nat) (pass : Bool) : RoundTrip.Statement (.scanPatternEnd core pass) := RoundTrip.event _ rfl

theorem RoundTrip.scanAbort (core : Nat) : RoundTrip.Statement (.scanAbort core) := RoundTrip.event _ rfl

theorem RoundTrip.pldmSensorRead (q : Sensor) (reading : Nat) : RoundTrip.Statement (.pldmSensorRead q reading) := RoundTrip.event _ rfl

theorem RoundTrip.pldmPowerLimit (watts : Nat) : RoundTrip.Statement (.pldmPowerLimit watts) := RoundTrip.event _ rfl

theorem RoundTrip.undervoltLockClear (dom : Nat) : RoundTrip.Statement (.undervoltLockClear dom) := RoundTrip.event _ rfl

theorem RoundTrip.pldmUpdate (m : Manifest) : RoundTrip.Statement (.pldmUpdate m) := RoundTrip.event _ rfl

theorem RoundTrip.pldmFileRead (file : Nat) : RoundTrip.Statement (.pldmFileRead file) := RoundTrip.event _ rfl

theorem RoundTrip.getMeasurements (index : Nat) : RoundTrip.Statement (.getMeasurements index) := RoundTrip.event _ rfl

theorem RoundTrip.challenge (nonce : Nat) : RoundTrip.Statement (.challenge nonce) := RoundTrip.event _ rfl

theorem RoundTrip.doorbell (part : Nat) (q : Nat) (v : Word) : RoundTrip.Statement (.doorbell part q v) := RoundTrip.event _ rfl

theorem RoundTrip.queueTail (part : Nat) (q : Nat) (v : Word) : RoundTrip.Statement (.queueTail part q v) := RoundTrip.event _ rfl

theorem RoundTrip.queueEnable (part : Nat) (q : Nat) (on : Bool) : RoundTrip.Statement (.queueEnable part q on) := RoundTrip.event _ rfl

theorem RoundTrip.bind (part : Nat) : RoundTrip.Statement (.bind part) := RoundTrip.event _ rfl

theorem RoundTrip.unbind (part : Nat) : RoundTrip.Statement (.unbind part) := RoundTrip.event _ rfl

theorem RoundTrip.drain (part : Nat) (on : Bool) : RoundTrip.Statement (.drain part on) := RoundTrip.event _ rfl

theorem RoundTrip.unfreeze (entry : Nat) : RoundTrip.Statement (.unfreeze entry) := RoundTrip.event _ rfl

theorem RoundTrip.kill (entry : Nat) : RoundTrip.Statement (.kill entry) := RoundTrip.event _ rfl

theorem RoundTrip.skip (entry : Nat) : RoundTrip.Statement (.skip entry) := RoundTrip.event _ rfl

theorem RoundTrip.registerWrite (off : Nat) (v : Word) : RoundTrip.Statement (.registerWrite off v) := RoundTrip.event _ rfl

theorem RoundTrip.hostAccess (x : HostAcc) : RoundTrip.Statement (.hostAccess x) := RoundTrip.event _ rfl

theorem RoundTrip.inval (part : Nat) (die : Nat) : RoundTrip.Statement (.inval part die) := RoundTrip.event _ rfl

theorem RoundTrip.invalall (part : Nat) (die : Nat) : RoundTrip.Statement (.invalall part die) := RoundTrip.event _ rfl

theorem RoundTrip.resize (part : Nat) (die : Nat) : RoundTrip.Statement (.resize part die) := RoundTrip.event _ rfl

theorem RoundTrip.resizeend (part : Nat) (die : Nat) : RoundTrip.Statement (.resizeend part die) := RoundTrip.event _ rfl

theorem RoundTrip.migrate (part : Nat) (die : Nat) : RoundTrip.Statement (.migrate part die) := RoundTrip.event _ rfl

theorem RoundTrip.faultRecordMapped (part : Nat) (die : Nat) (rec : Nat) : RoundTrip.Statement (.faultRecordMapped part die rec) := RoundTrip.event _ rfl

theorem RoundTrip.faultRecordRefused (part : Nat) (die : Nat) (rec : Nat) : RoundTrip.Statement (.faultRecordRefused part die rec) := RoundTrip.event _ rfl

theorem RoundTrip.sliceRequest (r : Req) : RoundTrip.Statement (.sliceRequest r) := RoundTrip.event _ rfl

theorem RoundTrip.tableWalk (part : Nat) (die : Nat) (off : Nat) : RoundTrip.Statement (.tableWalk part die off) := RoundTrip.event _ rfl

theorem RoundTrip.granuleReopen (part : Nat) (die : Nat) (gran : Nat) : RoundTrip.Statement (.granuleReopen part die gran) := RoundTrip.event _ rfl

theorem RoundTrip.sideLogReplay (core : Nat) : RoundTrip.Statement (.sideLogReplay core) := RoundTrip.event _ rfl

theorem RoundTrip.recordStage (part : Nat) (q : Nat) : RoundTrip.Statement (.recordStage part q) := RoundTrip.event _ rfl

theorem RoundTrip.discard (gid : Nat) : RoundTrip.Statement (.discard gid) := RoundTrip.event _ rfl

theorem RoundTrip.restart (idx : Nat) : RoundTrip.Statement (.restart idx) := RoundTrip.event _ rfl

theorem RoundTrip.blockClaim (core : Nat) (space : Nat) (block : Nat) : RoundTrip.Statement (.blockClaim core space block) := RoundTrip.event _ rfl

theorem RoundTrip.watchdogExpiry (part : Nat) (q : Nat) : RoundTrip.Statement (.watchdogExpiry part q) := RoundTrip.event _ rfl

theorem RoundTrip.binTimerExpiry (core : Nat) (bin : Nat) : RoundTrip.Statement (.binTimerExpiry core bin) := RoundTrip.event _ rfl

theorem RoundTrip.binLaunch (core : Nat) (bin : Nat) : RoundTrip.Statement (.binLaunch core bin) := RoundTrip.event _ rfl

theorem RoundTrip.activeMessageArrival (x : AmStep) : RoundTrip.Statement (.activeMessageArrival x) := RoundTrip.event _ rfl

theorem RoundTrip.groupRetire (core : Nat) (idx : Nat) : RoundTrip.Statement (.groupRetire core idx) := RoundTrip.event _ rfl

theorem RoundTrip.resultLanding (gid : Nat) (idx : Nat) : RoundTrip.Statement (.resultLanding gid idx) := RoundTrip.event _ rfl

theorem RoundTrip.headerWait (gid : Nat) : RoundTrip.Statement (.headerWait gid) := RoundTrip.event _ rfl

theorem RoundTrip.loadReplay (gid : Nat) : RoundTrip.Statement (.loadReplay gid) := RoundTrip.event _ rfl

theorem RoundTrip.starvationSwitch (core : Nat) (lix : Nat) : RoundTrip.Statement (.starvationSwitch core lix) := RoundTrip.event _ rfl

theorem RoundTrip.turnLimit (gid : Nat) : RoundTrip.Statement (.turnLimit gid) := RoundTrip.event _ rfl

theorem RoundTrip.cloneReplay (gid : Nat) (first : BitVec 16) (second : BitVec 16) : RoundTrip.Statement (.cloneReplay gid first second) := RoundTrip.event _ rfl

theorem RoundTrip.matrixCheck (core : Nat) (tile : Nat) (ok : Bool) (written : Nat) : RoundTrip.Statement (.matrixCheck core tile ok written) := RoundTrip.event _ rfl

theorem RoundTrip.copyTransferCompletion (core : Nat) (idx : Nat) : RoundTrip.Statement (.copyTransferCompletion core idx) := RoundTrip.event _ rfl

theorem RoundTrip.completionWordWrite (core : Nat) (idx : Nat) : RoundTrip.Statement (.completionWordWrite core idx) := RoundTrip.event _ rfl

theorem RoundTrip.batchWindowExpiry (core : Nat) (entry : Nat) (line : Nat) : RoundTrip.Statement (.batchWindowExpiry core entry line) := RoundTrip.event _ rfl

theorem RoundTrip.updateArrival (core : Nat) (x : Arrival) : RoundTrip.Statement (.updateArrival core x) := RoundTrip.event _ rfl

theorem RoundTrip.contributionArrival (coll : Nat) (rank : Nat) (other : Nat) : RoundTrip.Statement (.contributionArrival coll rank other) := RoundTrip.event _ rfl

theorem RoundTrip.collectiveBoundExpiry (coll : Nat) (rank : Nat) : RoundTrip.Statement (.collectiveBoundExpiry coll rank) := RoundTrip.event _ rfl

theorem RoundTrip.collectiveDelivery (coll : Nat) (x : Arrival) :
    RoundTrip.Statement (.collectiveDelivery coll x) := RoundTrip.event _ rfl

theorem RoundTrip.waitWake (gid : Nat) (idx : Nat) : RoundTrip.Statement (.waitWake gid idx) := RoundTrip.event _ rfl

theorem RoundTrip.waitTimeout (gid : Nat) (idx : Nat) : RoundTrip.Statement (.waitTimeout gid idx) := RoundTrip.event _ rfl

theorem RoundTrip.waitaWake (gid : Nat) (idx : Nat) : RoundTrip.Statement (.waitaWake gid idx) := RoundTrip.event _ rfl

theorem RoundTrip.pwaitReread (gid : Nat) (idx : Nat) : RoundTrip.Statement (.pwaitReread gid idx) := RoundTrip.event _ rfl

theorem RoundTrip.huddleRoundComplete (core : Nat) (h : Nat) : RoundTrip.Statement (.huddleRoundComplete core h) := RoundTrip.event _ rfl

theorem RoundTrip.dcorRound (core : Nat) (h : Nat) : RoundTrip.Statement (.dcorRound core h) := RoundTrip.event _ rfl

theorem RoundTrip.barComplete (gid : Nat) (idx : Nat) : RoundTrip.Statement (.barComplete gid idx) := RoundTrip.event _ rfl

theorem RoundTrip.pitcherStart (core : Nat) : RoundTrip.Statement (.pitcherStart core) := RoundTrip.event _ rfl

theorem RoundTrip.pitcherEnd (core : Nat) : RoundTrip.Statement (.pitcherEnd core) := RoundTrip.event _ rfl

theorem RoundTrip.iadd (d : BitVec 7) (a : BitVec 7) (b : BitVec 7) (m : BitVec 3) : RoundTrip.Statement (.iadd d a b m) := by
  have := d.isLt; have := a.isLt; have := b.isLt; have := m.isLt
  refine RoundTrip.of1 _ _ 0 rfl (by omega) rfl ?_
  rw [decode0_eq _ _ 0 (by omega) (opOf_ofNat _ 0 (by omega)),
    row00,
    fld_ofNat _ 17 d (by omega),
    fld_ofNat _ 10 a (by omega),
    fld_ofNat _ 3 b (by omega),
    fld_ofNat _ 0 m (by omega)]

theorem RoundTrip.isub (d : BitVec 7) (a : BitVec 7) (b : BitVec 7) (m : BitVec 3) : RoundTrip.Statement (.isub d a b m) := by
  have := d.isLt; have := a.isLt; have := b.isLt; have := m.isLt
  refine RoundTrip.of1 _ _ 1 rfl (by omega) rfl ?_
  rw [decode0_eq _ _ 1 (by omega) (opOf_ofNat _ 1 (by omega)),
    row01,
    fld_ofNat _ 17 d (by omega),
    fld_ofNat _ 10 a (by omega),
    fld_ofNat _ 3 b (by omega),
    fld_ofNat _ 0 m (by omega)]

theorem RoundTrip.imul (d : BitVec 7) (a : BitVec 7) (b : BitVec 7) : RoundTrip.Statement (.imul d a b) := by
  have := d.isLt; have := a.isLt; have := b.isLt
  refine RoundTrip.of1 _ _ 2 rfl (by omega) rfl ?_
  rw [decode0_eq _ _ 2 (by omega) (opOf_ofNat _ 2 (by omega)),
    row02,
    fieldIs_ofNat _ 0 3 0 (by omega),
    fld_ofNat _ 17 d (by omega),
    fld_ofNat _ 10 a (by omega),
    fld_ofNat _ 3 b (by omega)]
  simp only [↓reduceIte]

theorem RoundTrip.imulh (d : BitVec 7) (a : BitVec 7) (b : BitVec 7) (m : BitVec 3) : RoundTrip.Statement (.imulh d a b m) := by
  have := d.isLt; have := a.isLt; have := b.isLt; have := m.isLt
  refine RoundTrip.of1 _ _ 3 rfl (by omega) rfl ?_
  rw [decode0_eq _ _ 3 (by omega) (opOf_ofNat _ 3 (by omega)),
    row03,
    fld_ofNat _ 17 d (by omega),
    fld_ofNat _ 10 a (by omega),
    fld_ofNat _ 3 b (by omega),
    fld_ofNat _ 0 m (by omega)]

theorem RoundTrip.imad (d : BitVec 7) (a : BitVec 7) (b : BitVec 7) (c : BitVec 7) : RoundTrip.Statement (.imad d a b c) := by
  have := d.isLt; have := a.isLt; have := b.isLt; have := c.isLt
  refine RoundTrip.of2 _ _ _ 4 rfl (by omega) rfl ?_
  rw [decode0_eq _ _ 4 (by omega) (opOf_ofNat _ 4 (by omega)),
    row04,
    fieldIs_ofNat _ 0 3 0 (by omega),
    fieldIs_ofNat _ 0 25 0 (by omega),
    fld_ofNat _ 17 d (by omega),
    fld_ofNat _ 10 a (by omega),
    fld_ofNat _ 3 b (by omega),
    fld_ofNat _ 25 c (by omega)]
  simp only [Bool.and_true, ↓reduceIte]

theorem RoundTrip.idiv (d : BitVec 7) (a : BitVec 7) (b : BitVec 7) (m : BitVec 3) : RoundTrip.Statement (.idiv d a b m) := by
  have := d.isLt; have := a.isLt; have := b.isLt; have := m.isLt
  refine RoundTrip.of1 _ _ 5 rfl (by omega) rfl ?_
  rw [decode0_eq _ _ 5 (by omega) (opOf_ofNat _ 5 (by omega)),
    row05,
    fld_ofNat _ 17 d (by omega),
    fld_ofNat _ 10 a (by omega),
    fld_ofNat _ 3 b (by omega),
    fld_ofNat _ 0 m (by omega)]

theorem RoundTrip.irem (d : BitVec 7) (a : BitVec 7) (b : BitVec 7) (m : BitVec 3) : RoundTrip.Statement (.irem d a b m) := by
  have := d.isLt; have := a.isLt; have := b.isLt; have := m.isLt
  refine RoundTrip.of1 _ _ 6 rfl (by omega) rfl ?_
  rw [decode0_eq _ _ 6 (by omega) (opOf_ofNat _ 6 (by omega)),
    row06,
    fld_ofNat _ 17 d (by omega),
    fld_ofNat _ 10 a (by omega),
    fld_ofNat _ 3 b (by omega),
    fld_ofNat _ 0 m (by omega)]

theorem RoundTrip.imin (d : BitVec 7) (a : BitVec 7) (b : BitVec 7) (m : BitVec 3) : RoundTrip.Statement (.imin d a b m) := by
  have := d.isLt; have := a.isLt; have := b.isLt; have := m.isLt
  refine RoundTrip.of1 _ _ 7 rfl (by omega) rfl ?_
  rw [decode0_eq _ _ 7 (by omega) (opOf_ofNat _ 7 (by omega)),
    row07,
    fld_ofNat _ 17 d (by omega),
    fld_ofNat _ 10 a (by omega),
    fld_ofNat _ 3 b (by omega),
    fld_ofNat _ 0 m (by omega)]

theorem RoundTrip.imax (d : BitVec 7) (a : BitVec 7) (b : BitVec 7) (m : BitVec 3) : RoundTrip.Statement (.imax d a b m) := by
  have := d.isLt; have := a.isLt; have := b.isLt; have := m.isLt
  refine RoundTrip.of1 _ _ 8 rfl (by omega) rfl ?_
  rw [decode0_eq _ _ 8 (by omega) (opOf_ofNat _ 8 (by omega)),
    row08,
    fld_ofNat _ 17 d (by omega),
    fld_ofNat _ 10 a (by omega),
    fld_ofNat _ 3 b (by omega),
    fld_ofNat _ 0 m (by omega)]

theorem RoundTrip.iabs (d : BitVec 7) (a : BitVec 7) (m : BitVec 3) : RoundTrip.Statement (.iabs d a m) := by
  have := d.isLt; have := a.isLt; have := m.isLt
  refine RoundTrip.of1 _ _ 9 rfl (by omega) rfl ?_
  rw [decode0_eq _ _ 9 (by omega) (opOf_ofNat _ 9 (by omega)),
    row09,
    fieldIs_ofNat _ 3 7 0 (by omega),
    fld_ofNat _ 17 d (by omega),
    fld_ofNat _ 10 a (by omega),
    fld_ofNat _ 0 m (by omega)]
  simp only [↓reduceIte]

theorem RoundTrip.ineg (d : BitVec 7) (a : BitVec 7) (m : BitVec 3) : RoundTrip.Statement (.ineg d a m) := by
  have := d.isLt; have := a.isLt; have := m.isLt
  refine RoundTrip.of1 _ _ 10 rfl (by omega) rfl ?_
  rw [decode0_eq _ _ 10 (by omega) (opOf_ofNat _ 10 (by omega)),
    row0A,
    fieldIs_ofNat _ 3 7 0 (by omega),
    fld_ofNat _ 17 d (by omega),
    fld_ofNat _ 10 a (by omega),
    fld_ofNat _ 0 m (by omega)]
  simp only [↓reduceIte]

theorem RoundTrip.and (d : BitVec 7) (a : BitVec 7) (b : BitVec 7) : RoundTrip.Statement (.and d a b) := by
  have := d.isLt; have := a.isLt; have := b.isLt
  refine RoundTrip.of1 _ _ 11 rfl (by omega) rfl ?_
  rw [decode0_eq _ _ 11 (by omega) (opOf_ofNat _ 11 (by omega)),
    row0B,
    fieldIs_ofNat _ 0 3 0 (by omega),
    fld_ofNat _ 17 d (by omega),
    fld_ofNat _ 10 a (by omega),
    fld_ofNat _ 3 b (by omega)]
  simp only [↓reduceIte]

theorem RoundTrip.or (d : BitVec 7) (a : BitVec 7) (b : BitVec 7) : RoundTrip.Statement (.or d a b) := by
  have := d.isLt; have := a.isLt; have := b.isLt
  refine RoundTrip.of1 _ _ 12 rfl (by omega) rfl ?_
  rw [decode0_eq _ _ 12 (by omega) (opOf_ofNat _ 12 (by omega)),
    row0C,
    fieldIs_ofNat _ 0 3 0 (by omega),
    fld_ofNat _ 17 d (by omega),
    fld_ofNat _ 10 a (by omega),
    fld_ofNat _ 3 b (by omega)]
  simp only [↓reduceIte]

theorem RoundTrip.xor (d : BitVec 7) (a : BitVec 7) (b : BitVec 7) : RoundTrip.Statement (.xor d a b) := by
  have := d.isLt; have := a.isLt; have := b.isLt
  refine RoundTrip.of1 _ _ 13 rfl (by omega) rfl ?_
  rw [decode0_eq _ _ 13 (by omega) (opOf_ofNat _ 13 (by omega)),
    row0D,
    fieldIs_ofNat _ 0 3 0 (by omega),
    fld_ofNat _ 17 d (by omega),
    fld_ofNat _ 10 a (by omega),
    fld_ofNat _ 3 b (by omega)]
  simp only [↓reduceIte]

theorem RoundTrip.andn (d : BitVec 7) (a : BitVec 7) (b : BitVec 7) : RoundTrip.Statement (.andn d a b) := by
  have := d.isLt; have := a.isLt; have := b.isLt
  refine RoundTrip.of1 _ _ 14 rfl (by omega) rfl ?_
  rw [decode0_eq _ _ 14 (by omega) (opOf_ofNat _ 14 (by omega)),
    row0E,
    fieldIs_ofNat _ 0 3 0 (by omega),
    fld_ofNat _ 17 d (by omega),
    fld_ofNat _ 10 a (by omega),
    fld_ofNat _ 3 b (by omega)]
  simp only [↓reduceIte]

theorem RoundTrip.not (d : BitVec 7) (a : BitVec 7) : RoundTrip.Statement (.not d a) := by
  have := d.isLt; have := a.isLt
  refine RoundTrip.of1 _ _ 15 rfl (by omega) rfl ?_
  rw [decode0_eq _ _ 15 (by omega) (opOf_ofNat _ 15 (by omega)),
    row0F,
    fieldIs_ofNat _ 0 10 0 (by omega),
    fld_ofNat _ 17 d (by omega),
    fld_ofNat _ 10 a (by omega)]
  simp only [↓reduceIte]

theorem RoundTrip.shl (d : BitVec 7) (a : BitVec 7) (b : BitVec 7) : RoundTrip.Statement (.shl d a b) := by
  have := d.isLt; have := a.isLt; have := b.isLt
  refine RoundTrip.of1 _ _ 16 rfl (by omega) rfl ?_
  rw [decode1_eq _ _ 0 (by omega) (opOf_ofNat _ 16 (by omega)),
    row10,
    fieldIs_ofNat _ 0 3 0 (by omega),
    fld_ofNat _ 17 d (by omega),
    fld_ofNat _ 10 a (by omega),
    fld_ofNat _ 3 b (by omega)]
  simp only [↓reduceIte]

theorem RoundTrip.shr (d : BitVec 7) (a : BitVec 7) (b : BitVec 7) : RoundTrip.Statement (.shr d a b) := by
  have := d.isLt; have := a.isLt; have := b.isLt
  refine RoundTrip.of1 _ _ 17 rfl (by omega) rfl ?_
  rw [decode1_eq _ _ 1 (by omega) (opOf_ofNat _ 17 (by omega)),
    row11,
    fieldIs_ofNat _ 0 3 0 (by omega),
    fld_ofNat _ 17 d (by omega),
    fld_ofNat _ 10 a (by omega),
    fld_ofNat _ 3 b (by omega)]
  simp only [↓reduceIte]

theorem RoundTrip.sar (d : BitVec 7) (a : BitVec 7) (b : BitVec 7) : RoundTrip.Statement (.sar d a b) := by
  have := d.isLt; have := a.isLt; have := b.isLt
  refine RoundTrip.of1 _ _ 18 rfl (by omega) rfl ?_
  rw [decode1_eq _ _ 2 (by omega) (opOf_ofNat _ 18 (by omega)),
    row12,
    fieldIs_ofNat _ 0 3 0 (by omega),
    fld_ofNat _ 17 d (by omega),
    fld_ofNat _ 10 a (by omega),
    fld_ofNat _ 3 b (by omega)]
  simp only [↓reduceIte]

theorem RoundTrip.rotl (d : BitVec 7) (a : BitVec 7) (b : BitVec 7) : RoundTrip.Statement (.rotl d a b) := by
  have := d.isLt; have := a.isLt; have := b.isLt
  refine RoundTrip.of1 _ _ 19 rfl (by omega) rfl ?_
  rw [decode1_eq _ _ 3 (by omega) (opOf_ofNat _ 19 (by omega)),
    row13,
    fieldIs_ofNat _ 0 3 0 (by omega),
    fld_ofNat _ 17 d (by omega),
    fld_ofNat _ 10 a (by omega),
    fld_ofNat _ 3 b (by omega)]
  simp only [↓reduceIte]

theorem RoundTrip.popc (d : BitVec 7) (a : BitVec 7) : RoundTrip.Statement (.popc d a) := by
  have := d.isLt; have := a.isLt
  refine RoundTrip.of1 _ _ 20 rfl (by omega) rfl ?_
  rw [decode1_eq _ _ 4 (by omega) (opOf_ofNat _ 20 (by omega)),
    row14,
    fieldIs_ofNat _ 0 10 0 (by omega),
    fld_ofNat _ 17 d (by omega),
    fld_ofNat _ 10 a (by omega)]
  simp only [↓reduceIte]

theorem RoundTrip.clz (d : BitVec 7) (a : BitVec 7) : RoundTrip.Statement (.clz d a) := by
  have := d.isLt; have := a.isLt
  refine RoundTrip.of1 _ _ 21 rfl (by omega) rfl ?_
  rw [decode1_eq _ _ 5 (by omega) (opOf_ofNat _ 21 (by omega)),
    row15,
    fieldIs_ofNat _ 0 10 0 (by omega),
    fld_ofNat _ 17 d (by omega),
    fld_ofNat _ 10 a (by omega)]
  simp only [↓reduceIte]

theorem RoundTrip.brev (d : BitVec 7) (a : BitVec 7) : RoundTrip.Statement (.brev d a) := by
  have := d.isLt; have := a.isLt
  refine RoundTrip.of1 _ _ 22 rfl (by omega) rfl ?_
  rw [decode1_eq _ _ 6 (by omega) (opOf_ofNat _ 22 (by omega)),
    row16,
    fieldIs_ofNat _ 0 10 0 (by omega),
    fld_ofNat _ 17 d (by omega),
    fld_ofNat _ 10 a (by omega)]
  simp only [↓reduceIte]

theorem RoundTrip.bfx (d : BitVec 7) (a : BitVec 7) (b : BitVec 7) (m : BitVec 3) (c : BitVec 7) : RoundTrip.Statement (.bfx d a b m c) := by
  have := d.isLt; have := a.isLt; have := b.isLt; have := m.isLt; have := c.isLt
  refine RoundTrip.of2 _ _ _ 23 rfl (by omega) rfl ?_
  rw [decode1_eq _ _ 7 (by omega) (opOf_ofNat _ 23 (by omega)),
    row17,
    fieldIs_ofNat _ 0 25 0 (by omega),
    fld_ofNat _ 17 d (by omega),
    fld_ofNat _ 10 a (by omega),
    fld_ofNat _ 3 b (by omega),
    fld_ofNat _ 0 m (by omega),
    fld_ofNat _ 25 c (by omega)]
  simp only [↓reduceIte]

theorem RoundTrip.bfi (d : BitVec 7) (a : BitVec 7) (b : BitVec 7) (c : BitVec 7) : RoundTrip.Statement (.bfi d a b c) := by
  have := d.isLt; have := a.isLt; have := b.isLt; have := c.isLt
  refine RoundTrip.of2 _ _ _ 24 rfl (by omega) rfl ?_
  rw [decode1_eq _ _ 8 (by omega) (opOf_ofNat _ 24 (by omega)),
    row18,
    fieldIs_ofNat _ 0 3 0 (by omega),
    fieldIs_ofNat _ 0 25 0 (by omega),
    fld_ofNat _ 17 d (by omega),
    fld_ofNat _ 10 a (by omega),
    fld_ofNat _ 3 b (by omega),
    fld_ofNat _ 25 c (by omega)]
  simp only [Bool.and_true, ↓reduceIte]

theorem RoundTrip.sel (d : BitVec 7) (a : BitVec 7) (b : BitVec 7) (p : BitVec 3) : RoundTrip.Statement (.sel d a b p) := by
  have := d.isLt; have := a.isLt; have := b.isLt; have := p.isLt
  refine RoundTrip.of1 _ _ 25 rfl (by omega) rfl ?_
  rw [decode1_eq _ _ 9 (by omega) (opOf_ofNat _ 25 (by omega)),
    row19,
    fld_ofNat _ 17 d (by omega),
    fld_ofNat _ 10 a (by omega),
    fld_ofNat _ 3 b (by omega),
    fld_ofNat _ 0 p (by omega)]

theorem RoundTrip.mov (d : BitVec 7) (a : BitVec 7) : RoundTrip.Statement (.mov d a) := by
  have := d.isLt; have := a.isLt
  refine RoundTrip.of1 _ _ 26 rfl (by omega) rfl ?_
  rw [decode1_eq _ _ 10 (by omega) (opOf_ofNat _ 26 (by omega)),
    row1A,
    fieldIs_ofNat _ 0 10 0 (by omega),
    fld_ofNat _ 17 d (by omega),
    fld_ofNat _ 10 a (by omega)]
  simp only [↓reduceIte]

theorem RoundTrip.movi (d : BitVec 7) (i : BitVec 17) : RoundTrip.Statement (.movi d i) := by
  have := d.isLt; have := i.isLt
  refine RoundTrip.of1 _ _ 27 rfl (by omega) rfl ?_
  rw [decode1_eq _ _ 11 (by omega) (opOf_ofNat _ 27 (by omega)),
    row1B,
    fld_ofNat _ 17 d (by omega),
    fld_ofNat _ 0 i (by omega)]

theorem RoundTrip.movh (d : BitVec 7) (i : BitVec 16) : RoundTrip.Statement (.movh d i) := by
  have := d.isLt; have := i.isLt
  refine RoundTrip.of1 _ _ 28 rfl (by omega) rfl ?_
  rw [decode1_eq _ _ 12 (by omega) (opOf_ofNat _ 28 (by omega)),
    row1C,
    fieldIs_ofNat _ 16 1 0 (by omega),
    fld_ofNat _ 17 d (by omega),
    fld_ofNat _ 0 i (by omega)]
  simp only [↓reduceIte]

theorem RoundTrip.lea (d : BitVec 7) (a : BitVec 7) (b : BitVec 7) (s : BitVec 3) : RoundTrip.Statement (.lea d a b s) := by
  have := d.isLt; have := a.isLt; have := b.isLt; have := s.isLt
  refine RoundTrip.of1 _ _ 29 rfl (by omega) rfl ?_
  rw [decode1_eq _ _ 13 (by omega) (opOf_ofNat _ 29 (by omega)),
    row1D,
    fld_ofNat _ 17 d (by omega),
    fld_ofNat _ 10 a (by omega),
    fld_ofNat _ 3 b (by omega),
    fld_ofNat _ 0 s (by omega)]

theorem RoundTrip.icmp (p : BitVec 7) (a : BitVec 7) (b : BitVec 7) (c : BitVec 3) : RoundTrip.Statement (.icmp p a b c) := by
  have := p.isLt; have := a.isLt; have := b.isLt; have := c.isLt
  refine RoundTrip.of1 _ _ 30 rfl (by omega) rfl ?_
  rw [decode1_eq _ _ 14 (by omega) (opOf_ofNat _ 30 (by omega)),
    row1E,
    fld_ofNat _ 17 p (by omega),
    fld_ofNat _ 10 a (by omega),
    fld_ofNat _ 3 b (by omega),
    fld_ofNat _ 0 c (by omega)]

theorem RoundTrip.iaddD (d : BitVec 7) (a : BitVec 7) (b : BitVec 7) : RoundTrip.Statement (.iaddD d a b) := by
  have := d.isLt; have := a.isLt; have := b.isLt
  refine RoundTrip.of1 _ _ 32 rfl (by omega) rfl ?_
  rw [decode2_eq _ _ 0 (by omega) (opOf_ofNat _ 32 (by omega)),
    row20,
    fieldIs_ofNat _ 0 3 0 (by omega),
    fld_ofNat _ 17 d (by omega),
    fld_ofNat _ 10 a (by omega),
    fld_ofNat _ 3 b (by omega)]
  simp only [↓reduceIte]

theorem RoundTrip.isubD (d : BitVec 7) (a : BitVec 7) (b : BitVec 7) : RoundTrip.Statement (.isubD d a b) := by
  have := d.isLt; have := a.isLt; have := b.isLt
  refine RoundTrip.of1 _ _ 33 rfl (by omega) rfl ?_
  rw [decode2_eq _ _ 1 (by omega) (opOf_ofNat _ 33 (by omega)),
    row21,
    fieldIs_ofNat _ 0 3 0 (by omega),
    fld_ofNat _ 17 d (by omega),
    fld_ofNat _ 10 a (by omega),
    fld_ofNat _ 3 b (by omega)]
  simp only [↓reduceIte]

theorem RoundTrip.imulD (d : BitVec 7) (a : BitVec 7) (b : BitVec 7) : RoundTrip.Statement (.imulD d a b) := by
  have := d.isLt; have := a.isLt; have := b.isLt
  refine RoundTrip.of1 _ _ 34 rfl (by omega) rfl ?_
  rw [decode2_eq _ _ 2 (by omega) (opOf_ofNat _ 34 (by omega)),
    row22,
    fieldIs_ofNat _ 0 3 0 (by omega),
    fld_ofNat _ 17 d (by omega),
    fld_ofNat _ 10 a (by omega),
    fld_ofNat _ 3 b (by omega)]
  simp only [↓reduceIte]

theorem RoundTrip.imadD (d : BitVec 7) (a : BitVec 7) (b : BitVec 7) (c : BitVec 7) : RoundTrip.Statement (.imadD d a b c) := by
  have := d.isLt; have := a.isLt; have := b.isLt; have := c.isLt
  refine RoundTrip.of2 _ _ _ 35 rfl (by omega) rfl ?_
  rw [decode2_eq _ _ 3 (by omega) (opOf_ofNat _ 35 (by omega)),
    row23,
    fieldIs_ofNat _ 0 3 0 (by omega),
    fieldIs_ofNat _ 0 25 0 (by omega),
    fld_ofNat _ 17 d (by omega),
    fld_ofNat _ 10 a (by omega),
    fld_ofNat _ 3 b (by omega),
    fld_ofNat _ 25 c (by omega)]
  simp only [Bool.and_true, ↓reduceIte]

theorem RoundTrip.iminD (d : BitVec 7) (a : BitVec 7) (b : BitVec 7) (m : BitVec 3) : RoundTrip.Statement (.iminD d a b m) := by
  have := d.isLt; have := a.isLt; have := b.isLt; have := m.isLt
  refine RoundTrip.of1 _ _ 36 rfl (by omega) rfl ?_
  rw [decode2_eq _ _ 4 (by omega) (opOf_ofNat _ 36 (by omega)),
    row24,
    fld_ofNat _ 17 d (by omega),
    fld_ofNat _ 10 a (by omega),
    fld_ofNat _ 3 b (by omega),
    fld_ofNat _ 0 m (by omega)]

theorem RoundTrip.imaxD (d : BitVec 7) (a : BitVec 7) (b : BitVec 7) (m : BitVec 3) : RoundTrip.Statement (.imaxD d a b m) := by
  have := d.isLt; have := a.isLt; have := b.isLt; have := m.isLt
  refine RoundTrip.of1 _ _ 37 rfl (by omega) rfl ?_
  rw [decode2_eq _ _ 5 (by omega) (opOf_ofNat _ 37 (by omega)),
    row25,
    fld_ofNat _ 17 d (by omega),
    fld_ofNat _ 10 a (by omega),
    fld_ofNat _ 3 b (by omega),
    fld_ofNat _ 0 m (by omega)]

theorem RoundTrip.andD (d : BitVec 7) (a : BitVec 7) (b : BitVec 7) : RoundTrip.Statement (.andD d a b) := by
  have := d.isLt; have := a.isLt; have := b.isLt
  refine RoundTrip.of1 _ _ 38 rfl (by omega) rfl ?_
  rw [decode2_eq _ _ 6 (by omega) (opOf_ofNat _ 38 (by omega)),
    row26,
    fieldIs_ofNat _ 0 3 0 (by omega),
    fld_ofNat _ 17 d (by omega),
    fld_ofNat _ 10 a (by omega),
    fld_ofNat _ 3 b (by omega)]
  simp only [↓reduceIte]

theorem RoundTrip.orD (d : BitVec 7) (a : BitVec 7) (b : BitVec 7) : RoundTrip.Statement (.orD d a b) := by
  have := d.isLt; have := a.isLt; have := b.isLt
  refine RoundTrip.of1 _ _ 39 rfl (by omega) rfl ?_
  rw [decode2_eq _ _ 7 (by omega) (opOf_ofNat _ 39 (by omega)),
    row27,
    fieldIs_ofNat _ 0 3 0 (by omega),
    fld_ofNat _ 17 d (by omega),
    fld_ofNat _ 10 a (by omega),
    fld_ofNat _ 3 b (by omega)]
  simp only [↓reduceIte]

theorem RoundTrip.xorD (d : BitVec 7) (a : BitVec 7) (b : BitVec 7) : RoundTrip.Statement (.xorD d a b) := by
  have := d.isLt; have := a.isLt; have := b.isLt
  refine RoundTrip.of1 _ _ 40 rfl (by omega) rfl ?_
  rw [decode2_eq _ _ 8 (by omega) (opOf_ofNat _ 40 (by omega)),
    row28,
    fieldIs_ofNat _ 0 3 0 (by omega),
    fld_ofNat _ 17 d (by omega),
    fld_ofNat _ 10 a (by omega),
    fld_ofNat _ 3 b (by omega)]
  simp only [↓reduceIte]

theorem RoundTrip.shlD (d : BitVec 7) (a : BitVec 7) (b : BitVec 7) : RoundTrip.Statement (.shlD d a b) := by
  have := d.isLt; have := a.isLt; have := b.isLt
  refine RoundTrip.of1 _ _ 41 rfl (by omega) rfl ?_
  rw [decode2_eq _ _ 9 (by omega) (opOf_ofNat _ 41 (by omega)),
    row29,
    fieldIs_ofNat _ 0 3 0 (by omega),
    fld_ofNat _ 17 d (by omega),
    fld_ofNat _ 10 a (by omega),
    fld_ofNat _ 3 b (by omega)]
  simp only [↓reduceIte]

theorem RoundTrip.shrD (d : BitVec 7) (a : BitVec 7) (b : BitVec 7) : RoundTrip.Statement (.shrD d a b) := by
  have := d.isLt; have := a.isLt; have := b.isLt
  refine RoundTrip.of1 _ _ 42 rfl (by omega) rfl ?_
  rw [decode2_eq _ _ 10 (by omega) (opOf_ofNat _ 42 (by omega)),
    row2A,
    fieldIs_ofNat _ 0 3 0 (by omega),
    fld_ofNat _ 17 d (by omega),
    fld_ofNat _ 10 a (by omega),
    fld_ofNat _ 3 b (by omega)]
  simp only [↓reduceIte]

theorem RoundTrip.sarD (d : BitVec 7) (a : BitVec 7) (b : BitVec 7) : RoundTrip.Statement (.sarD d a b) := by
  have := d.isLt; have := a.isLt; have := b.isLt
  refine RoundTrip.of1 _ _ 43 rfl (by omega) rfl ?_
  rw [decode2_eq _ _ 11 (by omega) (opOf_ofNat _ 43 (by omega)),
    row2B,
    fieldIs_ofNat _ 0 3 0 (by omega),
    fld_ofNat _ 17 d (by omega),
    fld_ofNat _ 10 a (by omega),
    fld_ofNat _ 3 b (by omega)]
  simp only [↓reduceIte]

theorem RoundTrip.movD (d : BitVec 7) (a : BitVec 7) : RoundTrip.Statement (.movD d a) := by
  have := d.isLt; have := a.isLt
  refine RoundTrip.of1 _ _ 44 rfl (by omega) rfl ?_
  rw [decode2_eq _ _ 12 (by omega) (opOf_ofNat _ 44 (by omega)),
    row2C,
    fieldIs_ofNat _ 0 10 0 (by omega),
    fld_ofNat _ 17 d (by omega),
    fld_ofNat _ 10 a (by omega)]
  simp only [↓reduceIte]

theorem RoundTrip.selD (d : BitVec 7) (a : BitVec 7) (b : BitVec 7) (p : BitVec 3) : RoundTrip.Statement (.selD d a b p) := by
  have := d.isLt; have := a.isLt; have := b.isLt; have := p.isLt
  refine RoundTrip.of1 _ _ 45 rfl (by omega) rfl ?_
  rw [decode2_eq _ _ 13 (by omega) (opOf_ofNat _ 45 (by omega)),
    row2D,
    fld_ofNat _ 17 d (by omega),
    fld_ofNat _ 10 a (by omega),
    fld_ofNat _ 3 b (by omega),
    fld_ofNat _ 0 p (by omega)]

theorem RoundTrip.icmpD (p : BitVec 7) (a : BitVec 7) (b : BitVec 7) (c : BitVec 3) : RoundTrip.Statement (.icmpD p a b c) := by
  have := p.isLt; have := a.isLt; have := b.isLt; have := c.isLt
  refine RoundTrip.of1 _ _ 46 rfl (by omega) rfl ?_
  rw [decode2_eq _ _ 14 (by omega) (opOf_ofNat _ 46 (by omega)),
    row2E,
    fld_ofNat _ 17 p (by omega),
    fld_ofNat _ 10 a (by omega),
    fld_ofNat _ 3 b (by omega),
    fld_ofNat _ 0 c (by omega)]

theorem RoundTrip.fadd (d : BitVec 7) (a : BitVec 7) (b : BitVec 7) (m : BitVec 3) : RoundTrip.Statement (.fadd d a b m) := by
  have := d.isLt; have := a.isLt; have := b.isLt; have := m.isLt
  refine RoundTrip.of1 _ _ 48 rfl (by omega) rfl ?_
  rw [decode3_eq _ _ 0 (by omega) (opOf_ofNat _ 48 (by omega)),
    row30,
    fld_ofNat _ 17 d (by omega),
    fld_ofNat _ 10 a (by omega),
    fld_ofNat _ 3 b (by omega),
    fld_ofNat _ 0 m (by omega)]

theorem RoundTrip.fsub (d : BitVec 7) (a : BitVec 7) (b : BitVec 7) (m : BitVec 3) : RoundTrip.Statement (.fsub d a b m) := by
  have := d.isLt; have := a.isLt; have := b.isLt; have := m.isLt
  refine RoundTrip.of1 _ _ 49 rfl (by omega) rfl ?_
  rw [decode3_eq _ _ 1 (by omega) (opOf_ofNat _ 49 (by omega)),
    row31,
    fld_ofNat _ 17 d (by omega),
    fld_ofNat _ 10 a (by omega),
    fld_ofNat _ 3 b (by omega),
    fld_ofNat _ 0 m (by omega)]

theorem RoundTrip.fmul (d : BitVec 7) (a : BitVec 7) (b : BitVec 7) (m : BitVec 3) : RoundTrip.Statement (.fmul d a b m) := by
  have := d.isLt; have := a.isLt; have := b.isLt; have := m.isLt
  refine RoundTrip.of1 _ _ 50 rfl (by omega) rfl ?_
  rw [decode3_eq _ _ 2 (by omega) (opOf_ofNat _ 50 (by omega)),
    row32,
    fld_ofNat _ 17 d (by omega),
    fld_ofNat _ 10 a (by omega),
    fld_ofNat _ 3 b (by omega),
    fld_ofNat _ 0 m (by omega)]

theorem RoundTrip.ffma (d : BitVec 7) (a : BitVec 7) (b : BitVec 7) (m : BitVec 3) (c : BitVec 7) : RoundTrip.Statement (.ffma d a b m c) := by
  have := d.isLt; have := a.isLt; have := b.isLt; have := m.isLt; have := c.isLt
  refine RoundTrip.of2 _ _ _ 51 rfl (by omega) rfl ?_
  rw [decode3_eq _ _ 3 (by omega) (opOf_ofNat _ 51 (by omega)),
    row33,
    fieldIs_ofNat _ 0 25 0 (by omega),
    fld_ofNat _ 17 d (by omega),
    fld_ofNat _ 10 a (by omega),
    fld_ofNat _ 3 b (by omega),
    fld_ofNat _ 0 m (by omega),
    fld_ofNat _ 25 c (by omega)]
  simp only [↓reduceIte]

theorem RoundTrip.fmin (d : BitVec 7) (a : BitVec 7) (b : BitVec 7) : RoundTrip.Statement (.fmin d a b) := by
  have := d.isLt; have := a.isLt; have := b.isLt
  refine RoundTrip.of1 _ _ 52 rfl (by omega) rfl ?_
  rw [decode3_eq _ _ 4 (by omega) (opOf_ofNat _ 52 (by omega)),
    row34,
    fieldIs_ofNat _ 0 3 0 (by omega),
    fld_ofNat _ 17 d (by omega),
    fld_ofNat _ 10 a (by omega),
    fld_ofNat _ 3 b (by omega)]
  simp only [↓reduceIte]

theorem RoundTrip.fmax (d : BitVec 7) (a : BitVec 7) (b : BitVec 7) : RoundTrip.Statement (.fmax d a b) := by
  have := d.isLt; have := a.isLt; have := b.isLt
  refine RoundTrip.of1 _ _ 53 rfl (by omega) rfl ?_
  rw [decode3_eq _ _ 5 (by omega) (opOf_ofNat _ 53 (by omega)),
    row35,
    fieldIs_ofNat _ 0 3 0 (by omega),
    fld_ofNat _ 17 d (by omega),
    fld_ofNat _ 10 a (by omega),
    fld_ofNat _ 3 b (by omega)]
  simp only [↓reduceIte]

theorem RoundTrip.fabs (d : BitVec 7) (a : BitVec 7) : RoundTrip.Statement (.fabs d a) := by
  have := d.isLt; have := a.isLt
  refine RoundTrip.of1 _ _ 54 rfl (by omega) rfl ?_
  rw [decode3_eq _ _ 6 (by omega) (opOf_ofNat _ 54 (by omega)),
    row36,
    fieldIs_ofNat _ 0 10 0 (by omega),
    fld_ofNat _ 17 d (by omega),
    fld_ofNat _ 10 a (by omega)]
  simp only [↓reduceIte]

theorem RoundTrip.fneg (d : BitVec 7) (a : BitVec 7) : RoundTrip.Statement (.fneg d a) := by
  have := d.isLt; have := a.isLt
  refine RoundTrip.of1 _ _ 55 rfl (by omega) rfl ?_
  rw [decode3_eq _ _ 7 (by omega) (opOf_ofNat _ 55 (by omega)),
    row37,
    fieldIs_ofNat _ 0 10 0 (by omega),
    fld_ofNat _ 17 d (by omega),
    fld_ofNat _ 10 a (by omega)]
  simp only [↓reduceIte]

theorem RoundTrip.fcmp (p : BitVec 7) (a : BitVec 7) (b : BitVec 7) (c : BitVec 3) : RoundTrip.Statement (.fcmp p a b c) := by
  have := p.isLt; have := a.isLt; have := b.isLt; have := c.isLt
  refine RoundTrip.of1 _ _ 56 rfl (by omega) rfl ?_
  rw [decode3_eq _ _ 8 (by omega) (opOf_ofNat _ 56 (by omega)),
    row38,
    fld_ofNat _ 17 p (by omega),
    fld_ofNat _ 10 a (by omega),
    fld_ofNat _ 3 b (by omega),
    fld_ofNat _ 0 c (by omega)]

theorem RoundTrip.fclass (d : BitVec 7) (a : BitVec 7) : RoundTrip.Statement (.fclass d a) := by
  have := d.isLt; have := a.isLt
  refine RoundTrip.of1 _ _ 57 rfl (by omega) rfl ?_
  rw [decode3_eq _ _ 9 (by omega) (opOf_ofNat _ 57 (by omega)),
    row39,
    fieldIs_ofNat _ 0 10 0 (by omega),
    fld_ofNat _ 17 d (by omega),
    fld_ofNat _ 10 a (by omega)]
  simp only [↓reduceIte]

theorem RoundTrip.fscale (d : BitVec 7) (a : BitVec 7) (b : BitVec 7) (m : BitVec 3) : RoundTrip.Statement (.fscale d a b m) := by
  have := d.isLt; have := a.isLt; have := b.isLt; have := m.isLt
  refine RoundTrip.of1 _ _ 58 rfl (by omega) rfl ?_
  rw [decode3_eq _ _ 10 (by omega) (opOf_ofNat _ 58 (by omega)),
    row3A,
    fld_ofNat _ 17 d (by omega),
    fld_ofNat _ 10 a (by omega),
    fld_ofNat _ 3 b (by omega),
    fld_ofNat _ 0 m (by omega)]

theorem RoundTrip.fcvt (d : BitVec 7) (a : BitVec 7) (c : BitVec 7) (m : BitVec 3) : RoundTrip.Statement (.fcvt d a c m) := by
  have := d.isLt; have := a.isLt; have := c.isLt; have := m.isLt
  refine RoundTrip.of1 _ _ 59 rfl (by omega) rfl ?_
  rw [decode3_eq _ _ 11 (by omega) (opOf_ofNat _ 59 (by omega)),
    row3B,
    fld_ofNat _ 17 d (by omega),
    fld_ofNat _ 10 a (by omega),
    fld_ofNat _ 3 c (by omega),
    fld_ofNat _ 0 m (by omega)]

theorem RoundTrip.frnd (d : BitVec 7) (a : BitVec 7) (m : BitVec 3) : RoundTrip.Statement (.frnd d a m) := by
  have := d.isLt; have := a.isLt; have := m.isLt
  refine RoundTrip.of1 _ _ 60 rfl (by omega) rfl ?_
  rw [decode3_eq _ _ 12 (by omega) (opOf_ofNat _ 60 (by omega)),
    row3C,
    fieldIs_ofNat _ 3 7 0 (by omega),
    fld_ofNat _ 17 d (by omega),
    fld_ofNat _ 10 a (by omega),
    fld_ofNat _ 0 m (by omega)]
  simp only [↓reduceIte]

theorem RoundTrip.frcp (d : BitVec 7) (a : BitVec 7) (m : BitVec 3) : RoundTrip.Statement (.frcp d a m) := by
  have := d.isLt; have := a.isLt; have := m.isLt
  refine RoundTrip.of1 _ _ 64 rfl (by omega) rfl ?_
  rw [decode4_eq _ _ 0 (by omega) (opOf_ofNat _ 64 (by omega)),
    row40,
    fieldIs_ofNat _ 3 7 0 (by omega),
    fld_ofNat _ 17 d (by omega),
    fld_ofNat _ 10 a (by omega),
    fld_ofNat _ 0 m (by omega)]
  simp only [↓reduceIte]

theorem RoundTrip.frsq (d : BitVec 7) (a : BitVec 7) : RoundTrip.Statement (.frsq d a) := by
  have := d.isLt; have := a.isLt
  refine RoundTrip.of1 _ _ 65 rfl (by omega) rfl ?_
  rw [decode4_eq _ _ 1 (by omega) (opOf_ofNat _ 65 (by omega)),
    row41,
    fieldIs_ofNat _ 0 10 0 (by omega),
    fld_ofNat _ 17 d (by omega),
    fld_ofNat _ 10 a (by omega)]
  simp only [↓reduceIte]

theorem RoundTrip.fsqrt (d : BitVec 7) (a : BitVec 7) (m : BitVec 3) : RoundTrip.Statement (.fsqrt d a m) := by
  have := d.isLt; have := a.isLt; have := m.isLt
  refine RoundTrip.of1 _ _ 66 rfl (by omega) rfl ?_
  rw [decode4_eq _ _ 2 (by omega) (opOf_ofNat _ 66 (by omega)),
    row42,
    fieldIs_ofNat _ 3 7 0 (by omega),
    fld_ofNat _ 17 d (by omega),
    fld_ofNat _ 10 a (by omega),
    fld_ofNat _ 0 m (by omega)]
  simp only [↓reduceIte]

theorem RoundTrip.fexp2 (d : BitVec 7) (a : BitVec 7) : RoundTrip.Statement (.fexp2 d a) := by
  have := d.isLt; have := a.isLt
  refine RoundTrip.of1 _ _ 67 rfl (by omega) rfl ?_
  rw [decode4_eq _ _ 3 (by omega) (opOf_ofNat _ 67 (by omega)),
    row43,
    fieldIs_ofNat _ 0 10 0 (by omega),
    fld_ofNat _ 17 d (by omega),
    fld_ofNat _ 10 a (by omega)]
  simp only [↓reduceIte]

theorem RoundTrip.flog2 (d : BitVec 7) (a : BitVec 7) : RoundTrip.Statement (.flog2 d a) := by
  have := d.isLt; have := a.isLt
  refine RoundTrip.of1 _ _ 68 rfl (by omega) rfl ?_
  rw [decode4_eq _ _ 4 (by omega) (opOf_ofNat _ 68 (by omega)),
    row44,
    fieldIs_ofNat _ 0 10 0 (by omega),
    fld_ofNat _ 17 d (by omega),
    fld_ofNat _ 10 a (by omega)]
  simp only [↓reduceIte]

theorem RoundTrip.fsin (d : BitVec 7) (a : BitVec 7) : RoundTrip.Statement (.fsin d a) := by
  have := d.isLt; have := a.isLt
  refine RoundTrip.of1 _ _ 69 rfl (by omega) rfl ?_
  rw [decode4_eq _ _ 5 (by omega) (opOf_ofNat _ 69 (by omega)),
    row45,
    fieldIs_ofNat _ 0 10 0 (by omega),
    fld_ofNat _ 17 d (by omega),
    fld_ofNat _ 10 a (by omega)]
  simp only [↓reduceIte]

theorem RoundTrip.fcos (d : BitVec 7) (a : BitVec 7) : RoundTrip.Statement (.fcos d a) := by
  have := d.isLt; have := a.isLt
  refine RoundTrip.of1 _ _ 70 rfl (by omega) rfl ?_
  rw [decode4_eq _ _ 6 (by omega) (opOf_ofNat _ 70 (by omega)),
    row46,
    fieldIs_ofNat _ 0 10 0 (by omega),
    fld_ofNat _ 17 d (by omega),
    fld_ofNat _ 10 a (by omega)]
  simp only [↓reduceIte]

theorem RoundTrip.dadd (d : BitVec 7) (a : BitVec 7) (b : BitVec 7) (m : BitVec 3) : RoundTrip.Statement (.dadd d a b m) := by
  have := d.isLt; have := a.isLt; have := b.isLt; have := m.isLt
  refine RoundTrip.of1 _ _ 80 rfl (by omega) rfl ?_
  rw [decode5_eq _ _ 0 (by omega) (opOf_ofNat _ 80 (by omega)),
    row50,
    fld_ofNat _ 17 d (by omega),
    fld_ofNat _ 10 a (by omega),
    fld_ofNat _ 3 b (by omega),
    fld_ofNat _ 0 m (by omega)]

theorem RoundTrip.dsub (d : BitVec 7) (a : BitVec 7) (b : BitVec 7) (m : BitVec 3) : RoundTrip.Statement (.dsub d a b m) := by
  have := d.isLt; have := a.isLt; have := b.isLt; have := m.isLt
  refine RoundTrip.of1 _ _ 81 rfl (by omega) rfl ?_
  rw [decode5_eq _ _ 1 (by omega) (opOf_ofNat _ 81 (by omega)),
    row51,
    fld_ofNat _ 17 d (by omega),
    fld_ofNat _ 10 a (by omega),
    fld_ofNat _ 3 b (by omega),
    fld_ofNat _ 0 m (by omega)]

theorem RoundTrip.dmul (d : BitVec 7) (a : BitVec 7) (b : BitVec 7) (m : BitVec 3) : RoundTrip.Statement (.dmul d a b m) := by
  have := d.isLt; have := a.isLt; have := b.isLt; have := m.isLt
  refine RoundTrip.of1 _ _ 82 rfl (by omega) rfl ?_
  rw [decode5_eq _ _ 2 (by omega) (opOf_ofNat _ 82 (by omega)),
    row52,
    fld_ofNat _ 17 d (by omega),
    fld_ofNat _ 10 a (by omega),
    fld_ofNat _ 3 b (by omega),
    fld_ofNat _ 0 m (by omega)]

theorem RoundTrip.dfma (d : BitVec 7) (a : BitVec 7) (b : BitVec 7) (m : BitVec 3) (c : BitVec 7) : RoundTrip.Statement (.dfma d a b m c) := by
  have := d.isLt; have := a.isLt; have := b.isLt; have := m.isLt; have := c.isLt
  refine RoundTrip.of2 _ _ _ 83 rfl (by omega) rfl ?_
  rw [decode5_eq _ _ 3 (by omega) (opOf_ofNat _ 83 (by omega)),
    row53,
    fieldIs_ofNat _ 0 25 0 (by omega),
    fld_ofNat _ 17 d (by omega),
    fld_ofNat _ 10 a (by omega),
    fld_ofNat _ 3 b (by omega),
    fld_ofNat _ 0 m (by omega),
    fld_ofNat _ 25 c (by omega)]
  simp only [↓reduceIte]

theorem RoundTrip.ddiv (d : BitVec 7) (a : BitVec 7) (b : BitVec 7) (m : BitVec 3) : RoundTrip.Statement (.ddiv d a b m) := by
  have := d.isLt; have := a.isLt; have := b.isLt; have := m.isLt
  refine RoundTrip.of1 _ _ 84 rfl (by omega) rfl ?_
  rw [decode5_eq _ _ 4 (by omega) (opOf_ofNat _ 84 (by omega)),
    row54,
    fld_ofNat _ 17 d (by omega),
    fld_ofNat _ 10 a (by omega),
    fld_ofNat _ 3 b (by omega),
    fld_ofNat _ 0 m (by omega)]

theorem RoundTrip.dsqrt (d : BitVec 7) (a : BitVec 7) (m : BitVec 3) : RoundTrip.Statement (.dsqrt d a m) := by
  have := d.isLt; have := a.isLt; have := m.isLt
  refine RoundTrip.of1 _ _ 85 rfl (by omega) rfl ?_
  rw [decode5_eq _ _ 5 (by omega) (opOf_ofNat _ 85 (by omega)),
    row55,
    fieldIs_ofNat _ 3 7 0 (by omega),
    fld_ofNat _ 17 d (by omega),
    fld_ofNat _ 10 a (by omega),
    fld_ofNat _ 0 m (by omega)]
  simp only [↓reduceIte]

theorem RoundTrip.dcmp (p : BitVec 7) (a : BitVec 7) (b : BitVec 7) (c : BitVec 3) : RoundTrip.Statement (.dcmp p a b c) := by
  have := p.isLt; have := a.isLt; have := b.isLt; have := c.isLt
  refine RoundTrip.of1 _ _ 86 rfl (by omega) rfl ?_
  rw [decode5_eq _ _ 6 (by omega) (opOf_ofNat _ 86 (by omega)),
    row56,
    fld_ofNat _ 17 p (by omega),
    fld_ofNat _ 10 a (by omega),
    fld_ofNat _ 3 b (by omega),
    fld_ofNat _ 0 c (by omega)]

theorem RoundTrip.dcvt (d : BitVec 7) (a : BitVec 7) (c : BitVec 7) (m : BitVec 3) : RoundTrip.Statement (.dcvt d a c m) := by
  have := d.isLt; have := a.isLt; have := c.isLt; have := m.isLt
  refine RoundTrip.of1 _ _ 87 rfl (by omega) rfl ?_
  rw [decode5_eq _ _ 7 (by omega) (opOf_ofNat _ 87 (by omega)),
    row57,
    fld_ofNat _ 17 d (by omega),
    fld_ofNat _ 10 a (by omega),
    fld_ofNat _ 3 c (by omega),
    fld_ofNat _ 0 m (by omega)]

theorem RoundTrip.hadd2 (d : BitVec 7) (a : BitVec 7) (b : BitVec 7) (m : BitVec 3) : RoundTrip.Statement (.hadd2 d a b m) := by
  have := d.isLt; have := a.isLt; have := b.isLt; have := m.isLt
  refine RoundTrip.of1 _ _ 88 rfl (by omega) rfl ?_
  rw [decode5_eq _ _ 8 (by omega) (opOf_ofNat _ 88 (by omega)),
    row58,
    fld_ofNat _ 17 d (by omega),
    fld_ofNat _ 10 a (by omega),
    fld_ofNat _ 3 b (by omega),
    fld_ofNat _ 0 m (by omega)]

theorem RoundTrip.hmul2 (d : BitVec 7) (a : BitVec 7) (b : BitVec 7) (m : BitVec 3) : RoundTrip.Statement (.hmul2 d a b m) := by
  have := d.isLt; have := a.isLt; have := b.isLt; have := m.isLt
  refine RoundTrip.of1 _ _ 89 rfl (by omega) rfl ?_
  rw [decode5_eq _ _ 9 (by omega) (opOf_ofNat _ 89 (by omega)),
    row59,
    fld_ofNat _ 17 d (by omega),
    fld_ofNat _ 10 a (by omega),
    fld_ofNat _ 3 b (by omega),
    fld_ofNat _ 0 m (by omega)]

theorem RoundTrip.hfma2 (d : BitVec 7) (a : BitVec 7) (b : BitVec 7) (m : BitVec 3) (c : BitVec 7) : RoundTrip.Statement (.hfma2 d a b m c) := by
  have := d.isLt; have := a.isLt; have := b.isLt; have := m.isLt; have := c.isLt
  refine RoundTrip.of2 _ _ _ 90 rfl (by omega) rfl ?_
  rw [decode5_eq _ _ 10 (by omega) (opOf_ofNat _ 90 (by omega)),
    row5A,
    fieldIs_ofNat _ 0 25 0 (by omega),
    fld_ofNat _ 17 d (by omega),
    fld_ofNat _ 10 a (by omega),
    fld_ofNat _ 3 b (by omega),
    fld_ofNat _ 0 m (by omega),
    fld_ofNat _ 25 c (by omega)]
  simp only [↓reduceIte]

theorem RoundTrip.pand (d : BitVec 7) (a : BitVec 7) (b : BitVec 7) (n : BitVec 2) : RoundTrip.Statement (.pand d a b n) := by
  have := d.isLt; have := a.isLt; have := b.isLt; have := n.isLt
  refine RoundTrip.of1 _ _ 96 rfl (by omega) rfl ?_
  rw [decode6_eq _ _ 0 (by omega) (opOf_ofNat _ 96 (by omega)),
    row60,
    fieldIs_ofNat _ 2 1 0 (by omega),
    fld_ofNat _ 17 d (by omega),
    fld_ofNat _ 10 a (by omega),
    fld_ofNat _ 3 b (by omega),
    fld_ofNat _ 0 n (by omega)]
  simp only [↓reduceIte]

theorem RoundTrip.por (d : BitVec 7) (a : BitVec 7) (b : BitVec 7) (n : BitVec 2) : RoundTrip.Statement (.por d a b n) := by
  have := d.isLt; have := a.isLt; have := b.isLt; have := n.isLt
  refine RoundTrip.of1 _ _ 97 rfl (by omega) rfl ?_
  rw [decode6_eq _ _ 1 (by omega) (opOf_ofNat _ 97 (by omega)),
    row61,
    fieldIs_ofNat _ 2 1 0 (by omega),
    fld_ofNat _ 17 d (by omega),
    fld_ofNat _ 10 a (by omega),
    fld_ofNat _ 3 b (by omega),
    fld_ofNat _ 0 n (by omega)]
  simp only [↓reduceIte]

theorem RoundTrip.pxor (d : BitVec 7) (a : BitVec 7) (b : BitVec 7) (n : BitVec 2) : RoundTrip.Statement (.pxor d a b n) := by
  have := d.isLt; have := a.isLt; have := b.isLt; have := n.isLt
  refine RoundTrip.of1 _ _ 98 rfl (by omega) rfl ?_
  rw [decode6_eq _ _ 2 (by omega) (opOf_ofNat _ 98 (by omega)),
    row62,
    fieldIs_ofNat _ 2 1 0 (by omega),
    fld_ofNat _ 17 d (by omega),
    fld_ofNat _ 10 a (by omega),
    fld_ofNat _ 3 b (by omega),
    fld_ofNat _ 0 n (by omega)]
  simp only [↓reduceIte]

theorem RoundTrip.pnot (d : BitVec 7) (a : BitVec 7) : RoundTrip.Statement (.pnot d a) := by
  have := d.isLt; have := a.isLt
  refine RoundTrip.of1 _ _ 99 rfl (by omega) rfl ?_
  rw [decode6_eq _ _ 3 (by omega) (opOf_ofNat _ 99 (by omega)),
    row63,
    fieldIs_ofNat _ 0 10 0 (by omega),
    fld_ofNat _ 17 d (by omega),
    fld_ofNat _ 10 a (by omega)]
  simp only [↓reduceIte]

theorem RoundTrip.pmov (d : BitVec 7) (a : BitVec 7) : RoundTrip.Statement (.pmov d a) := by
  have := d.isLt; have := a.isLt
  refine RoundTrip.of1 _ _ 100 rfl (by omega) rfl ?_
  rw [decode6_eq _ _ 4 (by omega) (opOf_ofNat _ 100 (by omega)),
    row64,
    fieldIs_ofNat _ 0 10 0 (by omega),
    fld_ofNat _ 17 d (by omega),
    fld_ofNat _ 10 a (by omega)]
  simp only [↓reduceIte]

theorem RoundTrip.pset (d : BitVec 7) (a : BitVec 7) : RoundTrip.Statement (.pset d a) := by
  have := d.isLt; have := a.isLt
  refine RoundTrip.of1 _ _ 101 rfl (by omega) rfl ?_
  rw [decode6_eq _ _ 5 (by omega) (opOf_ofNat _ 101 (by omega)),
    row65,
    fieldIs_ofNat _ 0 10 0 (by omega),
    fld_ofNat _ 17 d (by omega),
    fld_ofNat _ 10 a (by omega)]
  simp only [↓reduceIte]

theorem RoundTrip.xchg (d : BitVec 7) (a : BitVec 7) (b : BitVec 7) (m : BitVec 3) : RoundTrip.Statement (.xchg d a b m) := by
  have := d.isLt; have := a.isLt; have := b.isLt; have := m.isLt
  refine RoundTrip.of1 _ _ 104 rfl (by omega) rfl ?_
  rw [decode6_eq _ _ 8 (by omega) (opOf_ofNat _ 104 (by omega)),
    row68,
    fld_ofNat _ 17 d (by omega),
    fld_ofNat _ 10 a (by omega),
    fld_ofNat _ 3 b (by omega),
    fld_ofNat _ 0 m (by omega)]

theorem RoundTrip.xbcast (d : BitVec 7) (a : BitVec 7) (b : BitVec 7) : RoundTrip.Statement (.xbcast d a b) := by
  have := d.isLt; have := a.isLt; have := b.isLt
  refine RoundTrip.of1 _ _ 105 rfl (by omega) rfl ?_
  rw [decode6_eq _ _ 9 (by omega) (opOf_ofNat _ 105 (by omega)),
    row69,
    fieldIs_ofNat _ 0 3 0 (by omega),
    fld_ofNat _ 17 d (by omega),
    fld_ofNat _ 10 a (by omega),
    fld_ofNat _ 3 b (by omega)]
  simp only [↓reduceIte]

theorem RoundTrip.xscan (d : BitVec 7) (a : BitVec 7) (b : BitVec 7) (m : BitVec 3) : RoundTrip.Statement (.xscan d a b m) := by
  have := d.isLt; have := a.isLt; have := b.isLt; have := m.isLt
  refine RoundTrip.of1 _ _ 106 rfl (by omega) rfl ?_
  rw [decode6_eq _ _ 10 (by omega) (opOf_ofNat _ 106 (by omega)),
    row6A,
    fld_ofNat _ 17 d (by omega),
    fld_ofNat _ 10 a (by omega),
    fld_ofNat _ 3 b (by omega),
    fld_ofNat _ 0 m (by omega)]

theorem RoundTrip.xred (d : BitVec 7) (a : BitVec 7) (m : BitVec 3) : RoundTrip.Statement (.xred d a m) := by
  have := d.isLt; have := a.isLt; have := m.isLt
  refine RoundTrip.of1 _ _ 107 rfl (by omega) rfl ?_
  rw [decode6_eq _ _ 11 (by omega) (opOf_ofNat _ 107 (by omega)),
    row6B,
    fieldIs_ofNat _ 3 7 0 (by omega),
    fld_ofNat _ 17 d (by omega),
    fld_ofNat _ 10 a (by omega),
    fld_ofNat _ 0 m (by omega)]
  simp only [↓reduceIte]

theorem RoundTrip.vote (d : BitVec 7) (a : BitVec 7) (m : BitVec 3) : RoundTrip.Statement (.vote d a m) := by
  have := d.isLt; have := a.isLt; have := m.isLt
  refine RoundTrip.of1 _ _ 108 rfl (by omega) rfl ?_
  rw [decode6_eq _ _ 12 (by omega) (opOf_ofNat _ 108 (by omega)),
    row6C,
    fieldIs_ofNat _ 3 7 0 (by omega),
    fld_ofNat _ 17 d (by omega),
    fld_ofNat _ 10 a (by omega),
    fld_ofNat _ 0 m (by omega)]
  simp only [↓reduceIte]

theorem RoundTrip.bra (o : BitVec 24) : RoundTrip.Statement (.bra o) := by
  have := o.isLt
  refine RoundTrip.of1 _ _ 112 rfl (by omega) rfl ?_
  rw [decode7_eq _ _ 0 (by omega) (opOf_ofNat _ 112 (by omega)),
    row70,
    fld_ofNat _ 0 o (by omega)]

theorem RoundTrip.brx (a : BitVec 7) : RoundTrip.Statement (.brx a) := by
  have := a.isLt
  refine RoundTrip.of1 _ _ 113 rfl (by omega) rfl ?_
  rw [decode7_eq _ _ 1 (by omega) (opOf_ofNat _ 113 (by omega)),
    row71,
    fieldIs_ofNat _ 0 10 0 (by omega),
    fieldIs_ofNat _ 17 7 0 (by omega),
    fld_ofNat _ 10 a (by omega)]
  simp only [Bool.and_true, ↓reduceIte]

theorem RoundTrip.call (o : BitVec 24) : RoundTrip.Statement (.call o) := by
  have := o.isLt
  refine RoundTrip.of1 _ _ 114 rfl (by omega) rfl ?_
  rw [decode7_eq _ _ 2 (by omega) (opOf_ofNat _ 114 (by omega)),
    row72,
    fld_ofNat _ 0 o (by omega)]

theorem RoundTrip.callx (a : BitVec 7) : RoundTrip.Statement (.callx a) := by
  have := a.isLt
  refine RoundTrip.of1 _ _ 115 rfl (by omega) rfl ?_
  rw [decode7_eq _ _ 3 (by omega) (opOf_ofNat _ 115 (by omega)),
    row73,
    fieldIs_ofNat _ 0 10 0 (by omega),
    fieldIs_ofNat _ 17 7 0 (by omega),
    fld_ofNat _ 10 a (by omega)]
  simp only [Bool.and_true, ↓reduceIte]

theorem RoundTrip.loop (cnt : BitVec 7) (len : BitVec 5) (id : BitVec 4) (ia : BitVec 4) (ib : BitVec 4) (ic : BitVec 4) (it : BitVec 2) (io : BitVec 14) : RoundTrip.Statement (.loop cnt len id ia ib ic it io) := by
  have := cnt.isLt; have := len.isLt; have := id.isLt; have := ia.isLt; have := ib.isLt; have := ic.isLt; have := it.isLt; have := io.isLt
  refine RoundTrip.of2 _ _ _ 118 rfl (by omega) rfl ?_
  rw [decode7_eq _ _ 6 (by omega) (opOf_ofNat _ 118 (by omega)),
    row76,
    fieldIs_ofNat _ 0 12 0 (by omega),
    fld_ofNat _ 17 cnt (by omega),
    fld_ofNat _ 12 len (by omega),
    fld_ofNat _ 28 id (by omega),
    fld_ofNat _ 24 ia (by omega),
    fld_ofNat _ 20 ib (by omega),
    fld_ofNat _ 16 ic (by omega),
    fld_ofNat _ 14 it (by omega),
    fld_ofNat _ 0 io (by omega)]
  simp only [↓reduceIte]

theorem RoundTrip.spawn (c : BitVec 7) (a : BitVec 7) (b : BitVec 7) : RoundTrip.Statement (.spawn c a b) := by
  have := c.isLt; have := a.isLt; have := b.isLt
  refine RoundTrip.of1 _ _ 120 rfl (by omega) rfl ?_
  rw [decode7_eq _ _ 8 (by omega) (opOf_ofNat _ 120 (by omega)),
    row78,
    fieldIs_ofNat _ 0 3 0 (by omega),
    fld_ofNat _ 17 c (by omega),
    fld_ofNat _ 10 a (by omega),
    fld_ofNat _ 3 b (by omega)]
  simp only [↓reduceIte]

theorem RoundTrip.launch (a : BitVec 7) : RoundTrip.Statement (.launch a) := by
  have := a.isLt
  refine RoundTrip.of1 _ _ 121 rfl (by omega) rfl ?_
  rw [decode7_eq _ _ 9 (by omega) (opOf_ofNat _ 121 (by omega)),
    row79,
    fieldIs_ofNat _ 0 10 0 (by omega),
    fieldIs_ofNat _ 17 7 0 (by omega),
    fld_ofNat _ 10 a (by omega)]
  simp only [Bool.and_true, ↓reduceIte]

theorem RoundTrip.rgn (a : BitVec 7) : RoundTrip.Statement (.rgn a) := by
  have := a.isLt
  refine RoundTrip.of1 _ _ 125 rfl (by omega) rfl ?_
  rw [decode7_eq _ _ 13 (by omega) (opOf_ofNat _ 125 (by omega)),
    row7D,
    fieldIs_ofNat _ 0 10 0 (by omega),
    fieldIs_ofNat _ 17 7 0 (by omega),
    fld_ofNat _ 10 a (by omega)]
  simp only [Bool.and_true, ↓reduceIte]

theorem RoundTrip.dead (f : BitVec 7) (m : BitVec 16) : RoundTrip.Statement (.dead f m) := by
  have := f.isLt; have := m.isLt
  refine RoundTrip.of1 _ _ 126 rfl (by omega) rfl ?_
  rw [decode7_eq _ _ 14 (by omega) (opOf_ofNat _ 126 (by omega)),
    row7E,
    fieldIs_ofNat _ 16 1 0 (by omega),
    fld_ofNat _ 17 f (by omega),
    fld_ofNat _ 0 m (by omega)]
  simp only [↓reduceIte]

theorem RoundTrip.ld (d : BitVec 7) (a : BitVec 7) (f : BitVec 4) (o : BitVec 3) (v : BitVec 3) : RoundTrip.Statement (.ld d a f o v) := by
  have := d.isLt; have := a.isLt; have := f.isLt; have := o.isLt; have := v.isLt
  refine RoundTrip.of1 _ _ 144 rfl (by omega) rfl ?_
  rw [decode9_eq _ _ 0 (by omega) (opOf_ofNat _ 144 (by omega)),
    row90,
    fld_ofNat _ 17 d (by omega),
    fld_ofNat _ 10 a (by omega),
    fld_ofNat _ 6 f (by omega),
    fld_ofNat _ 3 o (by omega),
    fld_ofNat _ 0 v (by omega)]

theorem RoundTrip.lda (d : BitVec 7) (a : BitVec 7) (f : BitVec 4) (o : BitVec 3) (v : BitVec 3) : RoundTrip.Statement (.lda d a f o v) := by
  have := d.isLt; have := a.isLt; have := f.isLt; have := o.isLt; have := v.isLt
  refine RoundTrip.of1 _ _ 145 rfl (by omega) rfl ?_
  rw [decode9_eq _ _ 1 (by omega) (opOf_ofNat _ 145 (by omega)),
    row91,
    fld_ofNat _ 17 d (by omega),
    fld_ofNat _ 10 a (by omega),
    fld_ofNat _ 6 f (by omega),
    fld_ofNat _ 3 o (by omega),
    fld_ofNat _ 0 v (by omega)]

theorem RoundTrip.ldw (d : BitVec 7) (a : BitVec 7) (f : BitVec 4) (o : BitVec 3) (v : BitVec 3) : RoundTrip.Statement (.ldw d a f o v) := by
  have := d.isLt; have := a.isLt; have := f.isLt; have := o.isLt; have := v.isLt
  refine RoundTrip.of1 _ _ 146 rfl (by omega) rfl ?_
  rw [decode9_eq _ _ 2 (by omega) (opOf_ofNat _ 146 (by omega)),
    row92,
    fld_ofNat _ 17 d (by omega),
    fld_ofNat _ 10 a (by omega),
    fld_ofNat _ 6 f (by omega),
    fld_ofNat _ 3 o (by omega),
    fld_ofNat _ 0 v (by omega)]

theorem RoundTrip.st (d : BitVec 7) (a : BitVec 7) (f : BitVec 4) (o : BitVec 3) (v : BitVec 3) : RoundTrip.Statement (.st d a f o v) := by
  have := d.isLt; have := a.isLt; have := f.isLt; have := o.isLt; have := v.isLt
  refine RoundTrip.of1 _ _ 148 rfl (by omega) rfl ?_
  rw [decode9_eq _ _ 4 (by omega) (opOf_ofNat _ 148 (by omega)),
    row94,
    fld_ofNat _ 17 d (by omega),
    fld_ofNat _ 10 a (by omega),
    fld_ofNat _ 6 f (by omega),
    fld_ofNat _ 3 o (by omega),
    fld_ofNat _ 0 v (by omega)]

theorem RoundTrip.sta (d : BitVec 7) (a : BitVec 7) (f : BitVec 4) (o : BitVec 3) (v : BitVec 3) : RoundTrip.Statement (.sta d a f o v) := by
  have := d.isLt; have := a.isLt; have := f.isLt; have := o.isLt; have := v.isLt
  refine RoundTrip.of1 _ _ 149 rfl (by omega) rfl ?_
  rw [decode9_eq _ _ 5 (by omega) (opOf_ofNat _ 149 (by omega)),
    row95,
    fld_ofNat _ 17 d (by omega),
    fld_ofNat _ 10 a (by omega),
    fld_ofNat _ 6 f (by omega),
    fld_ofNat _ 3 o (by omega),
    fld_ofNat _ 0 v (by omega)]

theorem RoundTrip.stw (d : BitVec 7) (a : BitVec 7) (f : BitVec 4) (o : BitVec 3) (v : BitVec 3) : RoundTrip.Statement (.stw d a f o v) := by
  have := d.isLt; have := a.isLt; have := f.isLt; have := o.isLt; have := v.isLt
  refine RoundTrip.of1 _ _ 150 rfl (by omega) rfl ?_
  rw [decode9_eq _ _ 6 (by omega) (opOf_ofNat _ 150 (by omega)),
    row96,
    fld_ofNat _ 17 d (by omega),
    fld_ofNat _ 10 a (by omega),
    fld_ofNat _ 6 f (by omega),
    fld_ofNat _ 3 o (by omega),
    fld_ofNat _ 0 v (by omega)]

theorem RoundTrip.stP (d : BitVec 7) (a : BitVec 7) (f : BitVec 4) (o : BitVec 3) (v : BitVec 3) : RoundTrip.Statement (.stP d a f o v) := by
  have := d.isLt; have := a.isLt; have := f.isLt; have := o.isLt; have := v.isLt
  refine RoundTrip.of1 _ _ 152 rfl (by omega) rfl ?_
  rw [decode9_eq _ _ 8 (by omega) (opOf_ofNat _ 152 (by omega)),
    row98,
    fld_ofNat _ 17 d (by omega),
    fld_ofNat _ 10 a (by omega),
    fld_ofNat _ 6 f (by omega),
    fld_ofNat _ 3 o (by omega),
    fld_ofNat _ 0 v (by omega)]

theorem RoundTrip.staP (d : BitVec 7) (a : BitVec 7) (f : BitVec 4) (o : BitVec 3) (v : BitVec 3) : RoundTrip.Statement (.staP d a f o v) := by
  have := d.isLt; have := a.isLt; have := f.isLt; have := o.isLt; have := v.isLt
  refine RoundTrip.of1 _ _ 153 rfl (by omega) rfl ?_
  rw [decode9_eq _ _ 9 (by omega) (opOf_ofNat _ 153 (by omega)),
    row99,
    fld_ofNat _ 17 d (by omega),
    fld_ofNat _ 10 a (by omega),
    fld_ofNat _ 6 f (by omega),
    fld_ofNat _ 3 o (by omega),
    fld_ofNat _ 0 v (by omega)]

theorem RoundTrip.stwP (d : BitVec 7) (a : BitVec 7) (f : BitVec 4) (o : BitVec 3) (v : BitVec 3) : RoundTrip.Statement (.stwP d a f o v) := by
  have := d.isLt; have := a.isLt; have := f.isLt; have := o.isLt; have := v.isLt
  refine RoundTrip.of1 _ _ 154 rfl (by omega) rfl ?_
  rw [decode9_eq _ _ 10 (by omega) (opOf_ofNat _ 154 (by omega)),
    row9A,
    fld_ofNat _ 17 d (by omega),
    fld_ofNat _ 10 a (by omega),
    fld_ofNat _ 6 f (by omega),
    fld_ofNat _ 3 o (by omega),
    fld_ofNat _ 0 v (by omega)]

theorem RoundTrip.atom (d : BitVec 7) (a : BitVec 7) (f : BitVec 4) (o : BitVec 3) (v : BitVec 3) : RoundTrip.Statement (.atom d a f o v) := by
  have := d.isLt; have := a.isLt; have := f.isLt; have := o.isLt; have := v.isLt
  refine RoundTrip.of1 _ _ 156 rfl (by omega) rfl ?_
  rw [decode9_eq _ _ 12 (by omega) (opOf_ofNat _ 156 (by omega)),
    row9C,
    fld_ofNat _ 17 d (by omega),
    fld_ofNat _ 10 a (by omega),
    fld_ofNat _ 6 f (by omega),
    fld_ofNat _ 3 o (by omega),
    fld_ofNat _ 0 v (by omega)]

theorem RoundTrip.atoma (d : BitVec 7) (a : BitVec 7) (f : BitVec 4) (o : BitVec 3) (v : BitVec 3) : RoundTrip.Statement (.atoma d a f o v) := by
  have := d.isLt; have := a.isLt; have := f.isLt; have := o.isLt; have := v.isLt
  refine RoundTrip.of1 _ _ 157 rfl (by omega) rfl ?_
  rw [decode9_eq _ _ 13 (by omega) (opOf_ofNat _ 157 (by omega)),
    row9D,
    fld_ofNat _ 17 d (by omega),
    fld_ofNat _ 10 a (by omega),
    fld_ofNat _ 6 f (by omega),
    fld_ofNat _ 3 o (by omega),
    fld_ofNat _ 0 v (by omega)]

theorem RoundTrip.red (d : BitVec 7) (a : BitVec 7) (f : BitVec 4) (o : BitVec 3) (v : BitVec 3) : RoundTrip.Statement (.red d a f o v) := by
  have := d.isLt; have := a.isLt; have := f.isLt; have := o.isLt; have := v.isLt
  refine RoundTrip.of1 _ _ 158 rfl (by omega) rfl ?_
  rw [decode9_eq _ _ 14 (by omega) (opOf_ofNat _ 158 (by omega)),
    row9E,
    fld_ofNat _ 17 d (by omega),
    fld_ofNat _ 10 a (by omega),
    fld_ofNat _ 6 f (by omega),
    fld_ofNat _ 3 o (by omega),
    fld_ofNat _ 0 v (by omega)]

theorem RoundTrip.ldOff (d : BitVec 7) (a : BitVec 7) (f : BitVec 4) (o : BitVec 3) (v : BitVec 3) : RoundTrip.Statement (.ldOff d a f o v) := by
  have := d.isLt; have := a.isLt; have := f.isLt; have := o.isLt; have := v.isLt
  refine RoundTrip.of1 _ _ 176 rfl (by omega) rfl ?_
  rw [decodeB_eq _ _ 0 (by omega) (opOf_ofNat _ 176 (by omega)),
    rowB0,
    fld_ofNat _ 17 d (by omega),
    fld_ofNat _ 10 a (by omega),
    fld_ofNat _ 6 f (by omega),
    fld_ofNat _ 3 o (by omega),
    fld_ofNat _ 0 v (by omega)]

theorem RoundTrip.ldaOff (d : BitVec 7) (a : BitVec 7) (f : BitVec 4) (o : BitVec 3) (v : BitVec 3) : RoundTrip.Statement (.ldaOff d a f o v) := by
  have := d.isLt; have := a.isLt; have := f.isLt; have := o.isLt; have := v.isLt
  refine RoundTrip.of1 _ _ 177 rfl (by omega) rfl ?_
  rw [decodeB_eq _ _ 1 (by omega) (opOf_ofNat _ 177 (by omega)),
    rowB1,
    fld_ofNat _ 17 d (by omega),
    fld_ofNat _ 10 a (by omega),
    fld_ofNat _ 6 f (by omega),
    fld_ofNat _ 3 o (by omega),
    fld_ofNat _ 0 v (by omega)]

theorem RoundTrip.ldwOff (d : BitVec 7) (a : BitVec 7) (f : BitVec 4) (o : BitVec 3) (v : BitVec 3) : RoundTrip.Statement (.ldwOff d a f o v) := by
  have := d.isLt; have := a.isLt; have := f.isLt; have := o.isLt; have := v.isLt
  refine RoundTrip.of1 _ _ 178 rfl (by omega) rfl ?_
  rw [decodeB_eq _ _ 2 (by omega) (opOf_ofNat _ 178 (by omega)),
    rowB2,
    fld_ofNat _ 17 d (by omega),
    fld_ofNat _ 10 a (by omega),
    fld_ofNat _ 6 f (by omega),
    fld_ofNat _ 3 o (by omega),
    fld_ofNat _ 0 v (by omega)]

theorem RoundTrip.stOff (d : BitVec 7) (a : BitVec 7) (f : BitVec 4) (o : BitVec 3) (v : BitVec 3) : RoundTrip.Statement (.stOff d a f o v) := by
  have := d.isLt; have := a.isLt; have := f.isLt; have := o.isLt; have := v.isLt
  refine RoundTrip.of1 _ _ 180 rfl (by omega) rfl ?_
  rw [decodeB_eq _ _ 4 (by omega) (opOf_ofNat _ 180 (by omega)),
    rowB4,
    fld_ofNat _ 17 d (by omega),
    fld_ofNat _ 10 a (by omega),
    fld_ofNat _ 6 f (by omega),
    fld_ofNat _ 3 o (by omega),
    fld_ofNat _ 0 v (by omega)]

theorem RoundTrip.staOff (d : BitVec 7) (a : BitVec 7) (f : BitVec 4) (o : BitVec 3) (v : BitVec 3) : RoundTrip.Statement (.staOff d a f o v) := by
  have := d.isLt; have := a.isLt; have := f.isLt; have := o.isLt; have := v.isLt
  refine RoundTrip.of1 _ _ 181 rfl (by omega) rfl ?_
  rw [decodeB_eq _ _ 5 (by omega) (opOf_ofNat _ 181 (by omega)),
    rowB5,
    fld_ofNat _ 17 d (by omega),
    fld_ofNat _ 10 a (by omega),
    fld_ofNat _ 6 f (by omega),
    fld_ofNat _ 3 o (by omega),
    fld_ofNat _ 0 v (by omega)]

theorem RoundTrip.stwOff (d : BitVec 7) (a : BitVec 7) (f : BitVec 4) (o : BitVec 3) (v : BitVec 3) : RoundTrip.Statement (.stwOff d a f o v) := by
  have := d.isLt; have := a.isLt; have := f.isLt; have := o.isLt; have := v.isLt
  refine RoundTrip.of1 _ _ 182 rfl (by omega) rfl ?_
  rw [decodeB_eq _ _ 6 (by omega) (opOf_ofNat _ 182 (by omega)),
    rowB6,
    fld_ofNat _ 17 d (by omega),
    fld_ofNat _ 10 a (by omega),
    fld_ofNat _ 6 f (by omega),
    fld_ofNat _ 3 o (by omega),
    fld_ofNat _ 0 v (by omega)]

theorem RoundTrip.stPOff (d : BitVec 7) (a : BitVec 7) (f : BitVec 4) (o : BitVec 3) (v : BitVec 3) : RoundTrip.Statement (.stPOff d a f o v) := by
  have := d.isLt; have := a.isLt; have := f.isLt; have := o.isLt; have := v.isLt
  refine RoundTrip.of1 _ _ 184 rfl (by omega) rfl ?_
  rw [decodeB_eq _ _ 8 (by omega) (opOf_ofNat _ 184 (by omega)),
    rowB8,
    fld_ofNat _ 17 d (by omega),
    fld_ofNat _ 10 a (by omega),
    fld_ofNat _ 6 f (by omega),
    fld_ofNat _ 3 o (by omega),
    fld_ofNat _ 0 v (by omega)]

theorem RoundTrip.staPOff (d : BitVec 7) (a : BitVec 7) (f : BitVec 4) (o : BitVec 3) (v : BitVec 3) : RoundTrip.Statement (.staPOff d a f o v) := by
  have := d.isLt; have := a.isLt; have := f.isLt; have := o.isLt; have := v.isLt
  refine RoundTrip.of1 _ _ 185 rfl (by omega) rfl ?_
  rw [decodeB_eq _ _ 9 (by omega) (opOf_ofNat _ 185 (by omega)),
    rowB9,
    fld_ofNat _ 17 d (by omega),
    fld_ofNat _ 10 a (by omega),
    fld_ofNat _ 6 f (by omega),
    fld_ofNat _ 3 o (by omega),
    fld_ofNat _ 0 v (by omega)]

theorem RoundTrip.stwPOff (d : BitVec 7) (a : BitVec 7) (f : BitVec 4) (o : BitVec 3) (v : BitVec 3) : RoundTrip.Statement (.stwPOff d a f o v) := by
  have := d.isLt; have := a.isLt; have := f.isLt; have := o.isLt; have := v.isLt
  refine RoundTrip.of1 _ _ 186 rfl (by omega) rfl ?_
  rw [decodeB_eq _ _ 10 (by omega) (opOf_ofNat _ 186 (by omega)),
    rowBA,
    fld_ofNat _ 17 d (by omega),
    fld_ofNat _ 10 a (by omega),
    fld_ofNat _ 6 f (by omega),
    fld_ofNat _ 3 o (by omega),
    fld_ofNat _ 0 v (by omega)]

theorem RoundTrip.atomOff (d : BitVec 7) (a : BitVec 7) (f : BitVec 4) (o : BitVec 3) (v : BitVec 3) : RoundTrip.Statement (.atomOff d a f o v) := by
  have := d.isLt; have := a.isLt; have := f.isLt; have := o.isLt; have := v.isLt
  refine RoundTrip.of1 _ _ 188 rfl (by omega) rfl ?_
  rw [decodeB_eq _ _ 12 (by omega) (opOf_ofNat _ 188 (by omega)),
    rowBC,
    fld_ofNat _ 17 d (by omega),
    fld_ofNat _ 10 a (by omega),
    fld_ofNat _ 6 f (by omega),
    fld_ofNat _ 3 o (by omega),
    fld_ofNat _ 0 v (by omega)]

theorem RoundTrip.atomaOff (d : BitVec 7) (a : BitVec 7) (f : BitVec 4) (o : BitVec 3) (v : BitVec 3) : RoundTrip.Statement (.atomaOff d a f o v) := by
  have := d.isLt; have := a.isLt; have := f.isLt; have := o.isLt; have := v.isLt
  refine RoundTrip.of1 _ _ 189 rfl (by omega) rfl ?_
  rw [decodeB_eq _ _ 13 (by omega) (opOf_ofNat _ 189 (by omega)),
    rowBD,
    fld_ofNat _ 17 d (by omega),
    fld_ofNat _ 10 a (by omega),
    fld_ofNat _ 6 f (by omega),
    fld_ofNat _ 3 o (by omega),
    fld_ofNat _ 0 v (by omega)]

theorem RoundTrip.redOff (d : BitVec 7) (a : BitVec 7) (f : BitVec 4) (o : BitVec 3) (v : BitVec 3) : RoundTrip.Statement (.redOff d a f o v) := by
  have := d.isLt; have := a.isLt; have := f.isLt; have := o.isLt; have := v.isLt
  refine RoundTrip.of1 _ _ 190 rfl (by omega) rfl ?_
  rw [decodeB_eq _ _ 14 (by omega) (opOf_ofNat _ 190 (by omega)),
    rowBE,
    fld_ofNat _ 17 d (by omega),
    fld_ofNat _ 10 a (by omega),
    fld_ofNat _ 6 f (by omega),
    fld_ofNat _ 3 o (by omega),
    fld_ofNat _ 0 v (by omega)]

theorem RoundTrip.fence (o : BitVec 3) (v : BitVec 3) : RoundTrip.Statement (.fence o v) := by
  have := o.isLt; have := v.isLt
  refine RoundTrip.of1 _ _ 160 rfl (by omega) rfl ?_
  rw [decodeA_eq _ _ 0 (by omega) (opOf_ofNat _ 160 (by omega)),
    rowA0,
    fieldIs_ofNat _ 6 18 0 (by omega),
    fld_ofNat _ 3 o (by omega),
    fld_ofNat _ 0 v (by omega)]
  simp only [↓reduceIte]

theorem RoundTrip.fencex (p : BitVec 7) (q : BitVec 7) (o : BitVec 3) (v : BitVec 3) : RoundTrip.Statement (.fencex p q o v) := by
  have := p.isLt; have := q.isLt; have := o.isLt; have := v.isLt
  refine RoundTrip.of1 _ _ 161 rfl (by omega) rfl ?_
  rw [decodeA_eq _ _ 1 (by omega) (opOf_ofNat _ 161 (by omega)),
    rowA1,
    fieldIs_ofNat _ 6 4 0 (by omega),
    fld_ofNat _ 17 p (by omega),
    fld_ofNat _ 10 q (by omega),
    fld_ofNat _ 3 o (by omega),
    fld_ofNat _ 0 v (by omega)]
  simp only [↓reduceIte]

theorem RoundTrip.watch (a : BitVec 7) (f : BitVec 4) : RoundTrip.Statement (.watch a f) := by
  have := a.isLt; have := f.isLt
  refine RoundTrip.of1 _ _ 162 rfl (by omega) rfl ?_
  rw [decodeA_eq _ _ 2 (by omega) (opOf_ofNat _ 162 (by omega)),
    rowA2,
    fieldIs_ofNat _ 0 6 0 (by omega),
    fieldIs_ofNat _ 17 7 0 (by omega),
    fld_ofNat _ 10 a (by omega),
    fld_ofNat _ 6 f (by omega)]
  simp only [Bool.and_true, ↓reduceIte]

theorem RoundTrip.wait (d : BitVec 7) (a : BitVec 7) : RoundTrip.Statement (.wait d a) := by
  have := d.isLt; have := a.isLt
  refine RoundTrip.of1 _ _ 163 rfl (by omega) rfl ?_
  rw [decodeA_eq _ _ 3 (by omega) (opOf_ofNat _ 163 (by omega)),
    rowA3,
    fieldIs_ofNat _ 0 10 0 (by omega),
    fld_ofNat _ 17 d (by omega),
    fld_ofNat _ 10 a (by omega)]
  simp only [↓reduceIte]

theorem RoundTrip.waita (d : BitVec 7) (a : BitVec 7) : RoundTrip.Statement (.waita d a) := by
  have := d.isLt; have := a.isLt
  refine RoundTrip.of1 _ _ 164 rfl (by omega) rfl ?_
  rw [decodeA_eq _ _ 4 (by omega) (opOf_ofNat _ 164 (by omega)),
    rowA4,
    fieldIs_ofNat _ 0 10 256 (by omega),
    fld_ofNat _ 17 d (by omega),
    fld_ofNat _ 10 a (by omega)]
  simp only [↓reduceIte]

theorem RoundTrip.prf (a : BitVec 7) : RoundTrip.Statement (.prf a) := by
  have := a.isLt
  refine RoundTrip.of1 _ _ 165 rfl (by omega) rfl ?_
  rw [decodeA_eq _ _ 5 (by omega) (opOf_ofNat _ 165 (by omega)),
    rowA5,
    fieldIs_ofNat _ 0 10 0 (by omega),
    fieldIs_ofNat _ 17 7 0 (by omega),
    fld_ofNat _ 10 a (by omega)]
  simp only [Bool.and_true, ↓reduceIte]

theorem RoundTrip.harm (a : BitVec 7) (h : BitVec 4) : RoundTrip.Statement (.harm a h) := by
  have := a.isLt; have := h.isLt
  refine RoundTrip.of1 _ _ 192 rfl (by omega) rfl ?_
  rw [decodeC_eq _ _ 0 (by omega) (opOf_ofNat _ 192 (by omega)),
    rowC0,
    fieldIs_ofNat _ 0 6 0 (by omega),
    fieldIs_ofNat _ 17 7 0 (by omega),
    fld_ofNat _ 10 a (by omega),
    fld_ofNat _ 6 h (by omega)]
  simp only [Bool.and_true, ↓reduceIte]

theorem RoundTrip.hsign (h : BitVec 4) : RoundTrip.Statement (.hsign h) := by
  have := h.isLt
  refine RoundTrip.of1 _ _ 193 rfl (by omega) rfl ?_
  rw [decodeC_eq _ _ 1 (by omega) (opOf_ofNat _ 193 (by omega)),
    rowC1,
    fieldIs_ofNat _ 0 6 0 (by omega),
    fieldIs_ofNat _ 10 14 0 (by omega),
    fld_ofNat _ 6 h (by omega)]
  simp only [Bool.and_true, ↓reduceIte]

theorem RoundTrip.hpoll (d : BitVec 7) (h : BitVec 4) : RoundTrip.Statement (.hpoll d h) := by
  have := d.isLt; have := h.isLt
  refine RoundTrip.of1 _ _ 194 rfl (by omega) rfl ?_
  rw [decodeC_eq _ _ 2 (by omega) (opOf_ofNat _ 194 (by omega)),
    rowC2,
    fieldIs_ofNat _ 0 6 0 (by omega),
    fieldIs_ofNat _ 10 7 0 (by omega),
    fld_ofNat _ 17 d (by omega),
    fld_ofNat _ 6 h (by omega)]
  simp only [Bool.and_true, ↓reduceIte]

theorem RoundTrip.bar (c : BitVec 1) (n : BitVec 3) : RoundTrip.Statement (.bar c n) := by
  have := c.isLt; have := n.isLt
  refine RoundTrip.of1 _ _ 196 rfl (by omega) rfl ?_
  rw [decodeC_eq _ _ 4 (by omega) (opOf_ofNat _ 196 (by omega)),
    rowC4,
    fieldIs_ofNat _ 3 2 0 (by omega),
    fieldIs_ofNat _ 6 18 0 (by omega),
    fld_ofNat _ 5 c (by omega),
    fld_ofNat _ 0 n (by omega)]
  simp only [Bool.and_true, ↓reduceIte]

theorem RoundTrip.parr (a : BitVec 7) : RoundTrip.Statement (.parr a) := by
  have := a.isLt
  refine RoundTrip.of1 _ _ 197 rfl (by omega) rfl ?_
  rw [decodeC_eq _ _ 5 (by omega) (opOf_ofNat _ 197 (by omega)),
    rowC5,
    fieldIs_ofNat _ 0 10 0 (by omega),
    fieldIs_ofNat _ 17 7 0 (by omega),
    fld_ofNat _ 10 a (by omega)]
  simp only [Bool.and_true, ↓reduceIte]

theorem RoundTrip.pwait (d : BitVec 7) (a : BitVec 7) : RoundTrip.Statement (.pwait d a) := by
  have := d.isLt; have := a.isLt
  refine RoundTrip.of1 _ _ 198 rfl (by omega) rfl ?_
  rw [decodeC_eq _ _ 6 (by omega) (opOf_ofNat _ 198 (by omega)),
    rowC6,
    fieldIs_ofNat _ 0 10 0 (by omega),
    fld_ofNat _ 17 d (by omega),
    fld_ofNat _ 10 a (by omega)]
  simp only [↓reduceIte]

theorem RoundTrip.cpyGa (d : BitVec 7) (a : BitVec 7) (b : BitVec 7) (t : BitVec 3) : RoundTrip.Statement (.cpyGa d a b t) := by
  have := d.isLt; have := a.isLt; have := b.isLt; have := t.isLt
  refine RoundTrip.of1 _ _ 208 rfl (by omega) rfl ?_
  rw [decodeD_eq _ _ 0 (by omega) (opOf_ofNat _ 208 (by omega)),
    rowD0,
    fld_ofNat _ 17 d (by omega),
    fld_ofNat _ 10 a (by omega),
    fld_ofNat _ 3 b (by omega),
    fld_ofNat _ 0 t (by omega)]

theorem RoundTrip.cpyAg (d : BitVec 7) (a : BitVec 7) (b : BitVec 7) (t : BitVec 3) : RoundTrip.Statement (.cpyAg d a b t) := by
  have := d.isLt; have := a.isLt; have := b.isLt; have := t.isLt
  refine RoundTrip.of1 _ _ 209 rfl (by omega) rfl ?_
  rw [decodeD_eq _ _ 1 (by omega) (opOf_ofNat _ 209 (by omega)),
    rowD1,
    fld_ofNat _ 17 d (by omega),
    fld_ofNat _ 10 a (by omega),
    fld_ofNat _ 3 b (by omega),
    fld_ofNat _ 0 t (by omega)]

theorem RoundTrip.cpyw (t : BitVec 3) : RoundTrip.Statement (.cpyw t) := by
  have := t.isLt
  refine RoundTrip.of1 _ _ 210 rfl (by omega) rfl ?_
  rw [decodeD_eq _ _ 2 (by omega) (opOf_ofNat _ 210 (by omega)),
    rowD2,
    fieldIs_ofNat _ 3 21 0 (by omega),
    fld_ofNat _ 0 t (by omega)]
  simp only [↓reduceIte]

theorem RoundTrip.cpyt (d : BitVec 7) (t : BitVec 3) : RoundTrip.Statement (.cpyt d t) := by
  have := d.isLt; have := t.isLt
  refine RoundTrip.of1 _ _ 211 rfl (by omega) rfl ?_
  rw [decodeD_eq _ _ 3 (by omega) (opOf_ofNat _ 211 (by omega)),
    rowD3,
    fieldIs_ofNat _ 3 14 0 (by omega),
    fld_ofNat _ 17 d (by omega),
    fld_ofNat _ 0 t (by omega)]
  simp only [↓reduceIte]

theorem RoundTrip.bcpy (a : BitVec 7) (b : BitVec 7) (c : BitVec 7) : RoundTrip.Statement (.bcpy a b c) := by
  have := a.isLt; have := b.isLt; have := c.isLt
  refine RoundTrip.of2 _ _ _ 212 rfl (by omega) rfl ?_
  rw [decodeD_eq _ _ 4 (by omega) (opOf_ofNat _ 212 (by omega)),
    rowD4,
    fieldIs_ofNat _ 0 3 0 (by omega),
    fieldIs_ofNat _ 17 7 0 (by omega),
    fieldIs_ofNat _ 0 25 0 (by omega),
    fld_ofNat _ 10 a (by omega),
    fld_ofNat _ 3 b (by omega),
    fld_ofNat _ 25 c (by omega)]
  simp only [Bool.and_true, ↓reduceIte]

theorem RoundTrip.coll (d : BitVec 7) (a : BitVec 7) : RoundTrip.Statement (.coll d a) := by
  have := d.isLt; have := a.isLt
  refine RoundTrip.of1 _ _ 213 rfl (by omega) rfl ?_
  rw [decodeD_eq _ _ 5 (by omega) (opOf_ofNat _ 213 (by omega)),
    rowD5,
    fieldIs_ofNat _ 0 10 0 (by omega),
    fld_ofNat _ 17 d (by omega),
    fld_ofNat _ 10 a (by omega)]
  simp only [↓reduceIte]

theorem RoundTrip.subs (n : BitVec 7) (a : BitVec 7) : RoundTrip.Statement (.subs n a) := by
  have := n.isLt; have := a.isLt
  refine RoundTrip.of1 _ _ 214 rfl (by omega) rfl ?_
  rw [decodeD_eq _ _ 6 (by omega) (opOf_ofNat _ 214 (by omega)),
    rowD6,
    fieldIs_ofNat _ 0 10 0 (by omega),
    fld_ofNat _ 17 n (by omega),
    fld_ofNat _ 10 a (by omega)]
  simp only [↓reduceIte]

theorem RoundTrip.subsSync (n : BitVec 7) (a : BitVec 7) : RoundTrip.Statement (.subsSync n a) := by
  have := n.isLt; have := a.isLt
  refine RoundTrip.of1 _ _ 215 rfl (by omega) rfl ?_
  rw [decodeD_eq _ _ 7 (by omega) (opOf_ofNat _ 215 (by omega)),
    rowD7,
    fieldIs_ofNat _ 0 10 0 (by omega),
    fld_ofNat _ 17 n (by omega),
    fld_ofNat _ 10 a (by omega)]
  simp only [↓reduceIte]

theorem RoundTrip.subx (n : BitVec 7) (a : BitVec 7) : RoundTrip.Statement (.subx n a) := by
  have := n.isLt; have := a.isLt
  refine RoundTrip.of1 _ _ 216 rfl (by omega) rfl ?_
  rw [decodeD_eq _ _ 8 (by omega) (opOf_ofNat _ 216 (by omega)),
    rowD8,
    fieldIs_ofNat _ 0 10 0 (by omega),
    fld_ofNat _ 17 n (by omega),
    fld_ofNat _ 10 a (by omega)]
  simp only [↓reduceIte]

theorem RoundTrip.subf (d : BitVec 7) (n : BitVec 7) : RoundTrip.Statement (.subf d n) := by
  have := d.isLt; have := n.isLt
  refine RoundTrip.of1 _ _ 217 rfl (by omega) rfl ?_
  rw [decodeD_eq _ _ 9 (by omega) (opOf_ofNat _ 217 (by omega)),
    rowD9,
    fieldIs_ofNat _ 0 10 0 (by omega),
    fld_ofNat _ 17 d (by omega),
    fld_ofNat _ 10 n (by omega)]
  simp only [↓reduceIte]

theorem RoundTrip.subfSrc (d : BitVec 7) : RoundTrip.Statement (.subfSrc d) := by
  have := d.isLt
  refine RoundTrip.of1 _ _ 217 rfl (by omega) rfl ?_
  rw [decodeD_eq _ _ 9 (by omega) (opOf_ofNat _ 217 (by omega)),
    rowD9,
    fieldIs_not _ 0 10 0 (by omega),
    fieldIs_ofNat _ 0 17 1 (by omega),
    fld_ofNat _ 17 d (by omega)]
  simp only [Bool.false_eq_true, ↓reduceIte]

theorem RoundTrip.amsg (d : BitVec 7) (a : BitVec 7) (b : BitVec 7) (t : BitVec 3) (c : BitVec 7) : RoundTrip.Statement (.amsg d a b t c) := by
  have := d.isLt; have := a.isLt; have := b.isLt; have := t.isLt; have := c.isLt
  refine RoundTrip.of2 _ _ _ 218 rfl (by omega) rfl ?_
  rw [decodeD_eq _ _ 10 (by omega) (opOf_ofNat _ 218 (by omega)),
    rowDA,
    fieldIs_ofNat _ 0 25 0 (by omega),
    fld_ofNat _ 17 d (by omega),
    fld_ofNat _ 10 a (by omega),
    fld_ofNat _ 3 b (by omega),
    fld_ofNat _ 0 t (by omega),
    fld_ofNat _ 25 c (by omega)]
  simp only [↓reduceIte]

theorem RoundTrip.qpush (q : BitVec 7) (a : BitVec 7) : RoundTrip.Statement (.qpush q a) := by
  have := q.isLt; have := a.isLt
  refine RoundTrip.of1 _ _ 219 rfl (by omega) rfl ?_
  rw [decodeD_eq _ _ 11 (by omega) (opOf_ofNat _ 219 (by omega)),
    rowDB,
    fieldIs_ofNat _ 0 10 0 (by omega),
    fld_ofNat _ 17 q (by omega),
    fld_ofNat _ 10 a (by omega)]
  simp only [↓reduceIte]

theorem RoundTrip.pitch (d : BitVec 7) (a : BitVec 7) (b : BitVec 7) (c : BitVec 7) : RoundTrip.Statement (.pitch d a b c) := by
  have := d.isLt; have := a.isLt; have := b.isLt; have := c.isLt
  refine RoundTrip.of2 _ _ _ 220 rfl (by omega) rfl ?_
  rw [decodeD_eq _ _ 12 (by omega) (opOf_ofNat _ 220 (by omega)),
    rowDC,
    fieldIs_ofNat _ 0 3 0 (by omega),
    fieldIs_ofNat _ 0 25 0 (by omega),
    fld_ofNat _ 17 d (by omega),
    fld_ofNat _ 10 a (by omega),
    fld_ofNat _ 3 b (by omega),
    fld_ofNat _ 25 c (by omega)]
  simp only [Bool.and_true, ↓reduceIte]

theorem RoundTrip.mcfg (a : BitVec 7) (tile : BitVec 2) (m : BitVec 4) : RoundTrip.Statement (.mcfg a tile m) := by
  have := a.isLt; have := tile.isLt; have := m.isLt
  refine RoundTrip.of2 _ _ _ 232 rfl (by omega) rfl ?_
  rw [decodeE_eq _ _ 8 (by omega) (opOf_ofNat _ 232 (by omega)),
    rowE8,
    fieldIs_ofNat _ 0 10 0 (by omega),
    fieldIs_ofNat _ 17 7 0 (by omega),
    fieldIs_ofNat _ 4 15 0 (by omega),
    fieldIs_ofNat _ 21 11 0 (by omega),
    fld_ofNat _ 10 a (by omega),
    fld_ofNat _ 19 tile (by omega),
    fld_ofNat _ 0 m (by omega)]
  simp only [Bool.and_true, ↓reduceIte]

theorem RoundTrip.mzero (tile : BitVec 2) : RoundTrip.Statement (.mzero tile) := by
  have := tile.isLt
  refine RoundTrip.of2 _ _ _ 233 rfl (by omega) rfl ?_
  rw [decodeE_eq _ _ 9 (by omega) (opOf_ofNat _ 233 (by omega)),
    rowE9,
    fieldIs_ofNat _ 0 24 0 (by omega),
    fieldIs_ofNat _ 0 19 0 (by omega),
    fieldIs_ofNat _ 21 11 0 (by omega),
    fld_ofNat _ 19 tile (by omega)]
  simp only [Bool.and_true, ↓reduceIte]

theorem RoundTrip.gath (d : BitVec 7) (a : BitVec 7) (b : BitVec 7) (c : BitVec 7) (lat : BitVec 1) (fa : BitVec 4) (mx : BitVec 1) (m : BitVec 2) : RoundTrip.Statement (.gath d a b c lat fa mx m) := by
  have := d.isLt; have := a.isLt; have := b.isLt; have := c.isLt; have := lat.isLt; have := fa.isLt; have := mx.isLt; have := m.isLt
  refine RoundTrip.of2 _ _ _ 234 rfl (by omega) rfl ?_
  rw [decodeE_eq _ _ 10 (by omega) (opOf_ofNat _ 234 (by omega)),
    rowEA,
    fieldIs_ofNat _ 0 3 0 (by omega),
    fieldIs_ofNat _ 2 7 0 (by omega),
    fieldIs_ofNat _ 10 4 0 (by omega),
    fieldIs_ofNat _ 19 6 0 (by omega),
    fld_ofNat _ 17 d (by omega),
    fld_ofNat _ 10 a (by omega),
    fld_ofNat _ 3 b (by omega),
    fld_ofNat _ 25 c (by omega),
    fld_ofNat _ 18 lat (by omega),
    fld_ofNat _ 14 fa (by omega),
    fld_ofNat _ 9 mx (by omega),
    fld_ofNat _ 0 m (by omega)]
  simp only [Bool.and_true, ↓reduceIte]

theorem RoundTrip.mma (d : BitVec 7) (a : BitVec 7) (b : BitVec 7) (c : BitVec 7) (h : BitVec 4) (tile : BitVec 2) (lat : BitVec 1) (fa : BitVec 4) (fb : BitVec 4) (mx : BitVec 1) (m : BitVec 2) : RoundTrip.Statement (.mma d a b c h tile lat fa fb mx m) := by
  have := d.isLt; have := a.isLt; have := b.isLt; have := c.isLt; have := h.isLt; have := tile.isLt; have := lat.isLt; have := fa.isLt; have := fb.isLt; have := mx.isLt; have := m.isLt
  refine RoundTrip.of2 _ _ _ 235 rfl (by omega) rfl ?_
  rw [decodeE_eq _ _ 11 (by omega) (opOf_ofNat _ 235 (by omega)),
    rowEB,
    fieldIs_ofNat _ 0 3 0 (by omega),
    fieldIs_ofNat _ 2 7 0 (by omega),
    fld_ofNat _ 17 d (by omega),
    fld_ofNat _ 10 a (by omega),
    fld_ofNat _ 3 b (by omega),
    fld_ofNat _ 25 c (by omega),
    fld_ofNat _ 21 h (by omega),
    fld_ofNat _ 19 tile (by omega),
    fld_ofNat _ 18 lat (by omega),
    fld_ofNat _ 14 fa (by omega),
    fld_ofNat _ 10 fb (by omega),
    fld_ofNat _ 9 mx (by omega),
    fld_ofNat _ 0 m (by omega)]
  simp only [Bool.and_true, ↓reduceIte]

theorem RoundTrip.mmasS (d : BitVec 7) (a : BitVec 7) (b : BitVec 7) (c : BitVec 7) (h : BitVec 4) (tile : BitVec 2) (lat : BitVec 1) (fa : BitVec 4) (fb : BitVec 4) (mx : BitVec 1) (lr : BitVec 1) : RoundTrip.Statement (.mmasS d a b c h tile lat fa fb mx lr) := by
  have := d.isLt; have := a.isLt; have := b.isLt; have := c.isLt; have := h.isLt; have := tile.isLt; have := lat.isLt; have := fa.isLt; have := fb.isLt; have := mx.isLt; have := lr.isLt
  refine RoundTrip.of2 _ _ _ 236 rfl (by omega) rfl ?_
  rw [decodeE_eq _ _ 12 (by omega) (opOf_ofNat _ 236 (by omega)),
    rowEC,
    fieldIs_ofNat _ 0 3 0 (by omega),
    fieldIs_ofNat _ 3 6 0 (by omega),
    fieldIs_ofNat _ 0 2 1 (by omega),
    fld_ofNat _ 17 d (by omega),
    fld_ofNat _ 10 a (by omega),
    fld_ofNat _ 3 b (by omega),
    fld_ofNat _ 25 c (by omega),
    fld_ofNat _ 21 h (by omega),
    fld_ofNat _ 19 tile (by omega),
    fld_ofNat _ 18 lat (by omega),
    fld_ofNat _ 14 fa (by omega),
    fld_ofNat _ 10 fb (by omega),
    fld_ofNat _ 9 mx (by omega),
    fld_ofNat _ 2 lr (by omega)]
  simp only [Bool.and_true, ↓reduceIte]

theorem RoundTrip.mmasV (d : BitVec 7) (a : BitVec 7) (b : BitVec 7) (c : BitVec 7) (h : BitVec 4) (tile : BitVec 2) (fa : BitVec 4) (fb : BitVec 4) (mx : BitVec 1) (lr : BitVec 1) : RoundTrip.Statement (.mmasV d a b c h tile fa fb mx lr) := by
  have := d.isLt; have := a.isLt; have := b.isLt; have := c.isLt; have := h.isLt; have := tile.isLt; have := fa.isLt; have := fb.isLt; have := mx.isLt; have := lr.isLt
  refine RoundTrip.of2 _ _ _ 236 rfl (by omega) rfl ?_
  rw [decodeE_eq _ _ 12 (by omega) (opOf_ofNat _ 236 (by omega)),
    rowEC,
    fieldIs_not _ 0 2 1 (by omega),
    fieldIs_ofNat _ 0 3 0 (by omega),
    fieldIs_ofNat _ 3 6 0 (by omega),
    fieldIs_ofNat _ 18 1 0 (by omega),
    fieldIs_ofNat _ 0 2 2 (by omega),
    fld_ofNat _ 17 d (by omega),
    fld_ofNat _ 10 a (by omega),
    fld_ofNat _ 3 b (by omega),
    fld_ofNat _ 25 c (by omega),
    fld_ofNat _ 21 h (by omega),
    fld_ofNat _ 19 tile (by omega),
    fld_ofNat _ 14 fa (by omega),
    fld_ofNat _ 10 fb (by omega),
    fld_ofNat _ 9 mx (by omega),
    fld_ofNat _ 2 lr (by omega)]
  simp only [Bool.and_true, Bool.and_false, Bool.false_eq_true, ↓reduceIte]

theorem RoundTrip.mol (a : BitVec 7) (tile : BitVec 2) : RoundTrip.Statement (.mol a tile) := by
  have := a.isLt; have := tile.isLt
  refine RoundTrip.of2 _ _ _ 237 rfl (by omega) rfl ?_
  rw [decodeE_eq _ _ 13 (by omega) (opOf_ofNat _ 237 (by omega)),
    rowED,
    fieldIs_ofNat _ 0 10 0 (by omega),
    fieldIs_ofNat _ 17 7 0 (by omega),
    fieldIs_ofNat _ 0 19 0 (by omega),
    fieldIs_ofNat _ 21 11 0 (by omega),
    fld_ofNat _ 10 a (by omega),
    fld_ofNat _ 19 tile (by omega)]
  simp only [Bool.and_true, ↓reduceIte]

theorem RoundTrip.mdrn (a : BitVec 7) (c : BitVec 7) (tile : BitVec 2) (m : BitVec 4) : RoundTrip.Statement (.mdrn a c tile m) := by
  have := a.isLt; have := c.isLt; have := tile.isLt; have := m.isLt
  refine RoundTrip.of2 _ _ _ 238 rfl (by omega) rfl ?_
  rw [decodeE_eq _ _ 14 (by omega) (opOf_ofNat _ 238 (by omega)),
    rowEE,
    fieldIs_ofNat _ 0 10 0 (by omega),
    fieldIs_ofNat _ 17 7 0 (by omega),
    fieldIs_ofNat _ 4 15 0 (by omega),
    fieldIs_ofNat _ 21 4 0 (by omega),
    fld_ofNat _ 10 a (by omega),
    fld_ofNat _ 25 c (by omega),
    fld_ofNat _ 19 tile (by omega),
    fld_ofNat _ 0 m (by omega)]
  simp only [Bool.and_true, ↓reduceIte]

theorem RoundTrip.mstat (d : BitVec 7) (tile : BitVec 2) (clr : BitVec 1) : RoundTrip.Statement (.mstat d tile clr) := by
  have := d.isLt; have := tile.isLt; have := clr.isLt
  refine RoundTrip.of2 _ _ _ 239 rfl (by omega) rfl ?_
  rw [decodeE_eq _ _ 15 (by omega) (opOf_ofNat _ 239 (by omega)),
    rowEF,
    fieldIs_ofNat _ 0 17 0 (by omega),
    fieldIs_ofNat _ 1 18 0 (by omega),
    fieldIs_ofNat _ 21 11 0 (by omega),
    fld_ofNat _ 17 d (by omega),
    fld_ofNat _ 19 tile (by omega),
    fld_ofNat _ 0 clr (by omega)]
  simp only [Bool.and_true, ↓reduceIte]

theorem RoundTrip.cvtb (d : BitVec 7) (a : BitVec 7) (c : BitVec 7) (fa : BitVec 4) : RoundTrip.Statement (.cvtb d a c fa) := by
  have := d.isLt; have := a.isLt; have := c.isLt; have := fa.isLt
  refine RoundTrip.of2 _ _ _ 240 rfl (by omega) rfl ?_
  rw [decodeF_eq _ _ 0 (by omega) (opOf_ofNat _ 240 (by omega)),
    rowF0,
    fieldIs_ofNat _ 0 10 0 (by omega),
    fieldIs_ofNat _ 0 14 0 (by omega),
    fieldIs_ofNat _ 18 7 0 (by omega),
    fld_ofNat _ 17 d (by omega),
    fld_ofNat _ 10 a (by omega),
    fld_ofNat _ 25 c (by omega),
    fld_ofNat _ 14 fa (by omega)]
  simp only [Bool.and_true, ↓reduceIte]

theorem RoundTrip.dcorD (d : BitVec 7) (a : BitVec 7) (b : BitVec 7) (h : BitVec 4) : RoundTrip.Statement (.dcorD d a b h) := by
  have := d.isLt; have := a.isLt; have := b.isLt; have := h.isLt
  refine RoundTrip.of2 _ _ _ 241 rfl (by omega) rfl ?_
  rw [decodeF_eq _ _ 1 (by omega) (opOf_ofNat _ 241 (by omega)),
    rowF1,
    fieldIs_ofNat _ 0 3 0 (by omega),
    fieldIs_ofNat _ 0 21 0 (by omega),
    fieldIs_ofNat _ 25 7 0 (by omega),
    fld_ofNat _ 17 d (by omega),
    fld_ofNat _ 10 a (by omega),
    fld_ofNat _ 3 b (by omega),
    fld_ofNat _ 21 h (by omega)]
  simp only [Bool.and_true, ↓reduceIte]

theorem RoundTrip.mfsr (d : BitVec 7) (c : BitVec 12) : RoundTrip.Statement (.mfsr d c) := by
  have := d.isLt; have := c.isLt
  refine RoundTrip.of1 _ _ 248 rfl (by omega) rfl ?_
  rw [decodeF_eq _ _ 8 (by omega) (opOf_ofNat _ 248 (by omega)),
    rowF8,
    fieldIs_ofNat _ 12 5 0 (by omega),
    fld_ofNat _ 17 d (by omega),
    fld_ofNat _ 0 c (by omega)]
  simp only [↓reduceIte]

theorem RoundTrip.mtsr (a : BitVec 7) (c : BitVec 12) : RoundTrip.Statement (.mtsr a c) := by
  have := a.isLt; have := c.isLt
  refine RoundTrip.of1 _ _ 249 rfl (by omega) rfl ?_
  rw [decodeF_eq _ _ 9 (by omega) (opOf_ofNat _ 249 (by omega)),
    rowF9,
    fieldIs_ofNat _ 12 5 0 (by omega),
    fld_ofNat _ 17 a (by omega),
    fld_ofNat _ 0 c (by omega)]
  simp only [↓reduceIte]

theorem RoundTrip.trap (n : BitVec 16) : RoundTrip.Statement (.trap n) := by
  have := n.isLt
  refine RoundTrip.of1 _ _ 250 rfl (by omega) rfl ?_
  rw [decodeF_eq _ _ 10 (by omega) (opOf_ofNat _ 250 (by omega)),
    rowFA,
    fieldIs_ofNat _ 16 8 0 (by omega),
    fld_ofNat _ 0 n (by omega)]
  simp only [↓reduceIte]

theorem RoundTrip.sysc (n : BitVec 16) : RoundTrip.Statement (.sysc n) := by
  have := n.isLt
  refine RoundTrip.of1 _ _ 252 rfl (by omega) rfl ?_
  rw [decodeF_eq _ _ 12 (by omega) (opOf_ofNat _ 252 (by omega)),
    rowFC,
    fieldIs_ofNat _ 16 8 0 (by omega),
    fld_ofNat _ 0 n (by omega)]
  simp only [↓reduceIte]

theorem RoundTrip.illegal (x : BitVec 24) : RoundTrip.Statement (.illegal x) := by
  have := x.isLt
  refine RoundTrip.of1 _ _ 255 rfl (by omega) rfl ?_
  rw [decodeF_eq _ _ 15 (by omega) (opOf_ofNat _ 255 (by omega)),
    rowFF,
    fld_ofNat _ 0 x (by omega)]

theorem RoundTrip.unassignedOpcode (w : Word) : RoundTrip.Statement (.unassignedOpcode w) := fun _ _ _ h => absurd rfl (h _)

theorem RoundTrip.hardwareEnd (ag : Agent) : RoundTrip.Statement (.hardwareEnd ag) := RoundTrip.event _ rfl

theorem RoundTrip.sourceEntryRequest (core : Nat) (idx : Nat) : RoundTrip.Statement (.sourceEntryRequest core idx) := RoundTrip.event _ rfl

theorem RoundTrip.pldmDiscovery : RoundTrip.Statement (.pldmDiscovery) := RoundTrip.event _ rfl

theorem RoundTrip.schedulerCycle : RoundTrip.Statement (.schedulerCycle) := RoundTrip.event _ rfl

theorem RoundTrip.ret : RoundTrip.Statement (.ret) := by
  refine RoundTrip.of1 _ _ 116 rfl (by omega) rfl ?_
  rw [decode7_eq _ _ 4 (by omega) (opOf_ofNat _ 116 (by omega)),
    row74,
    fieldIs_ofNat _ 0 24 0 (by omega)]
  simp only [↓reduceIte]

theorem RoundTrip.join : RoundTrip.Statement (.join) := by
  refine RoundTrip.of1 _ _ 117 rfl (by omega) rfl ?_
  rw [decode7_eq _ _ 5 (by omega) (opOf_ofNat _ 117 (by omega)),
    row75,
    fieldIs_ofNat _ 0 24 0 (by omega)]
  simp only [↓reduceIte]

theorem RoundTrip.tail : RoundTrip.Statement (.tail) := by
  refine RoundTrip.of1 _ _ 122 rfl (by omega) rfl ?_
  rw [decode7_eq _ _ 10 (by omega) (opOf_ofNat _ 122 (by omega)),
    row7A,
    fieldIs_ofNat _ 0 24 0 (by omega)]
  simp only [↓reduceIte]

theorem RoundTrip.yield : RoundTrip.Statement (.yield) := by
  refine RoundTrip.of1 _ _ 123 rfl (by omega) rfl ?_
  rw [decode7_eq _ _ 11 (by omega) (opOf_ofNat _ 123 (by omega)),
    row7B,
    fieldIs_ofNat _ 0 24 0 (by omega)]
  simp only [↓reduceIte]

theorem RoundTrip.nop : RoundTrip.Statement (.nop) := by
  refine RoundTrip.of1 _ _ 124 rfl (by omega) rfl ?_
  rw [decode7_eq _ _ 12 (by omega) (opOf_ofNat _ 124 (by omega)),
    row7C,
    fieldIs_ofNat _ 0 24 0 (by omega)]
  simp only [↓reduceIte]

theorem RoundTrip.qdrn : RoundTrip.Statement (.qdrn) := by
  refine RoundTrip.of1 _ _ 221 rfl (by omega) rfl ?_
  rw [decodeD_eq _ _ 13 (by omega) (opOf_ofNat _ 221 (by omega)),
    rowDD,
    fieldIs_ofNat _ 0 24 0 (by omega)]
  simp only [↓reduceIte]

theorem RoundTrip.eret : RoundTrip.Statement (.eret) := by
  refine RoundTrip.of1 _ _ 251 rfl (by omega) rfl ?_
  rw [decodeF_eq _ _ 11 (by omega) (opOf_ofNat _ 251 (by omega)),
    rowFB,
    fieldIs_ofNat _ 0 24 0 (by omega)]
  simp only [↓reduceIte]

theorem RoundTrip.clauseHeader : RoundTrip.Statement (.clauseHeader) := RoundTrip.event _ rfl

end Sys2Proof.Laws
end

