-- ==== Sys2Proof/Laws/Reach.lean ====
section
/-! SUPPORT. What the checks of an access leave alone (R302): the issuing path, the groups but for what their watches latch,
the launches and queues, and the canonical form of memory; and the same of reading a thread's sources (R265). -/

namespace Sys2Proof.Machine

open Sys2Proof

/-- The groups without what their watches latched. -/
def unwatched (gs : List (Nat × Group)) : List (Nat × Group) :=
  gs.map fun e => (e.1, { e.2 with threads := e.2.threads.map fun t => { t with watch := none } })

/-- The checks of accesses changed neither the issuing path nor the launches, queues and helds, nor of the groups anything but
what the writes of fault records latch in watches (R312); a memory in its canonical form stays in it. -/
structure Checked (s u : State) : Prop where
  cur      : u.cur = s.cur
  groups   : unwatched u.groups = unwatched s.groups
  launches : u.launches = s.launches
  queues   : u.queues = s.queues
  helds    : u.helds = s.helds
  traps    : u.sweep.traps = s.sweep.traps
  stays    : u.sweep.stays = s.sweep.stays
  mem      : s.mem.wf = true → u.mem.wf = true

theorem Checked.refl (s : State) : Checked s s := ⟨rfl, rfl, rfl, rfl, rfl, rfl, rfl, id⟩

theorem Checked.trans {s u v : State} (a : Checked s u) (b : Checked u v) : Checked s v :=
  ⟨b.cur.trans a.cur, b.groups.trans a.groups, b.launches.trans a.launches, b.queues.trans a.queues,
    b.helds.trans a.helds, b.traps.trans a.traps, b.stays.trans a.stays, fun h => b.mem (a.mem h)⟩

theorem checked_ite {α : Type} (s : State) (c : Prop) [Decidable c] (x y : State × α) (hx : Checked s x.1)
    (hy : Checked s y.1) : Checked s (if c then x else y).1 := by
  split
  · exact hx
  · exact hy

theorem checked_if (s : State) (c : Prop) [Decidable c] (x y : State) (hx : Checked s x) (hy : Checked s y) :
    Checked s (if c then x else y) := by
  split
  · exact hx
  · exact hy

theorem State.updX_checked (s : State) (n : Nat) (f : Xlat → Xlat) : Checked s (s.updX n f) :=
  ⟨rfl, rfl, rfl, rfl, rfl, rfl, rfl, id⟩

theorem State.updCore_checked (s : State) (n : Nat) (f : Core → Core) : Checked s (s.updCore n f) :=
  ⟨rfl, rfl, rfl, rfl, rfl, rfl, rfl, id⟩

theorem State.dev_checked (s : State) (d : Device) : Checked s { s with dev := d } :=
  ⟨rfl, rfl, rfl, rfl, rfl, rfl, rfl, id⟩

/-- A write of memory in its canonical form, and what the watches see of it. -/
theorem State.seen_checked (s : State) (m : Memory) (old : Memory) (key len : Nat) (h : s.mem.wf = true → m.wf = true) :
    Checked s (({ s with mem := m } : State).watchesSee old key len) := by
  refine ⟨rfl, ?_, rfl, rfl, rfl, rfl, rfl, h⟩
  unfold State.watchesSee unwatched
  simp only [List.map_map]
  congr 1
  funext e
  simp only [Function.comp]
  split
  · rfl
  · simp only [List.map_map]
    rfl

theorem State.upset_checked (s : State) (u : Upset) : Checked s (s.upset u) := by
  unfold State.upset
  have h : s.mem.wf = true → (s.mem.poisonSector u.sector).wf = true := fun h => Memory.wf_setBand _ _ _ h
  dsimp only
  split
  · split
    · exact s.dev_checked _
    · exact .refl _
  · exact ⟨rfl, rfl, rfl, rfl, rfl, rfl, rfl, h⟩
  · exact ⟨rfl, rfl, rfl, rfl, rfl, rfl, rfl, h⟩
  · exact .refl _

theorem State.upsets_checked (us : List Upset) (s : State) : Checked s (us.foldl State.upset s) := by
  induction us generalizing s with
  | nil => exact .refl _
  | cons u us ih => exact (s.upset_checked u).trans (ih _)

theorem State.classify_checked (s : State) (key len : Nat) : Checked s (s.classify key len) := by
  unfold State.classify
  dsimp only
  split
  · exact .refl _
  · exact (s.dev_checked _).trans (State.upsets_checked _ _)

/-- A fold of checks is one. -/
theorem checked_fold {α : Type} (f : State → α → State) (h : ∀ s a, Checked s (f s a)) (l : List α) (s : State) :
    Checked s (l.foldl f s) := by
  induction l generalizing s with
  | nil => exact .refl _
  | cons a l ih => exact (h s a).trans (ih _)

theorem State.walkReads_checked (s : State) (x : Xlat) (die off : Nat) : Checked s (s.walkReads x die off) := by
  unfold State.walkReads
  split
  · exact .refl _
  · split
    · exact .refl _
    · refine checked_fold _ (fun s size => ?_) _ _
      split
      · exact .refl _
      · exact checked_fold _ (fun s k => s.classify_checked k 64) _ _

theorem State.translate_checked (s : State) (ctx die off : Nat) : Checked s (s.translate ctx die off).1 := by
  unfold State.translate
  split
  · exact .refl _
  · rename_i x _
    split
    · exact .refl _
    · have h := s.walkReads_checked x die off
      dsimp only
      generalize s.walkReads x die off = u at h ⊢
      split
      · exact h
      · split
        · exact h.trans ⟨rfl, rfl, rfl, rfl, rfl, rfl, rfl, id⟩
        · exact h

theorem State.closeGran_checked (s u : State) (ctx die gran kind : Nat) (h : s.closeGran ctx die gran kind = some u) :
    Checked s u := by
  unfold State.closeGran at h
  cases hx : s.xlat? ctx with
  | none => simp [hx] at h
  | some x =>
    cases hd : x.dies[die]? with
    | none => simp [hx, hd] at h
    | some d =>
      simp only [hx, hd, bind, Option.bind, pure] at h
      split at h
      · cases h
      · have hc := s.seen_checked (((s.mem.store (d.frKey die d.faults) (leBytes 4 (kind * 2 ^ 8 + 1)) false false 0).store
            (d.frKey die d.faults + 8) (leBytes 8 (0xFF * 2 ^ 52 + die * 2 ^ 50 + gran * 2 ^ 16)) false false 0).store
            (d.frKey die d.faults + 16) (leBytes 4 0) false false 0) s.mem (d.frKey die d.faults) 20 fun hm =>
          Memory.wf_store _ _ _ _ _ _ (Memory.wf_store _ _ _ _ _ _ (Memory.wf_store _ _ _ _ _ _ hm))
        split at h <;> cases h
        · exact hc.trans (State.updX_checked ..)
        · exact (hc.trans (State.updX_checked ..)).trans (State.dev_checked ..)

theorem State.refuse_checked (s : State) (ctx die gran : Nat) (a : Agent) (w : Option Agent) :
    Checked s (s.refuse ctx die gran a w) := by
  unfold State.refuse
  split
  · exact .refl _
  · split
    · rename_i g d _ _
      dsimp only
      have h : ∀ (m : Memory) (b : Bool), (s.mem.wf = true → m.wf = true) → Checked s (if b then s else
          ({ s with mem := m } : State).watchesSee s.mem (d.frKey die g.rec_ + 16) 4) := fun m b hm => by
        cases b
        · exact s.seen_checked _ _ _ _ hm
        · exact .refl _
      cases w with
      | none => exact h _ _ fun hm => Memory.wf_store _ _ _ _ _ _ hm
      | some a => exact (h _ _ fun hm => Memory.wf_store _ _ _ _ _ _ hm).trans (State.updX_checked ..)
    · exact .refl _

theorem State.aMap_checked (s : State) (core lid off : Nat) : Checked s (s.aMap core lid off).1 := by
  unfold State.aMap
  repeat' (first | exact Checked.refl _ | exact State.updCore_checked _ _ _ | split | dsimp only)
  exact ⟨rfl, rfl, rfl, rfl, rfl, rfl, rfl, fun h => Memory.wf_clear _ _ _ h⟩

theorem State.meet_checked (s : State) (w : Who) (a : Acc) (key attr : Nat) (tr : Bool) :
    Checked s (s.meet w a key attr tr).1 := by
  unfold State.meet
  refine checked_ite _ _ _ _ (.refl _) (checked_ite _ _ _ _ (s.classify_checked _ _) (checked_ite _ _ _ _ (.refl _)
    (checked_ite _ _ _ _ (.refl _) ?_)))
  have h1 : Checked s (if (tr && a.sync) = true then s.endMet w.agent key a.len else s) :=
    checked_if _ _ _ _ ⟨rfl, rfl, rfl, rfl, rfl, rfl, rfl, id⟩ (.refl _)
  generalize (if (tr && a.sync) = true then s.endMet w.agent key a.len else s) = u at h1 ⊢
  dsimp only
  have h2 : Checked s (if (a.rd || a.ex) = true then u.classify key a.len else u) :=
    checked_if _ _ _ _ (h1.trans (u.classify_checked _ _)) h1
  generalize (if (a.rd || a.ex) = true then u.classify key a.len else u) = v at h2 ⊢
  refine checked_ite _ _ _ _ h2 (h2.trans ?_)
  exact checked_if _ _ _ _ ⟨rfl, rfl, rfl, rfl, rfl, rfl, rfl, id⟩ (.refl _)

theorem State.usedUp_checked (s : State) (a : Agent) : Checked s (s.usedUp a) :=
  checked_if _ _ _ _ ⟨rfl, rfl, rfl, rfl, rfl, rfl, rfl, id⟩ (.refl _)

/-- An answer is taken with its flit, and its trap stands. -/
theorem State.takeFlit_checked (s : State) (a b : Agent) : Checked s ((s.takeFlit a).usedUp b) :=
  (s.dev_checked _).trans (State.usedUp_checked _ _)

theorem State.reachRemote_checked (s : State) (w : Who) (a : Acc) : Checked s (s.reachRemote w a).1 := by
  unfold State.reachRemote State.unheld
  dsimp only
  repeat' (first
    | exact Checked.refl _
    | exact s.dev_checked _
    | exact (s.dev_checked _).trans (State.usedUp_checked _ _)
    | exact (s.dev_checked _).trans (State.takeFlit_checked _ _ _)
    | split)

theorem State.reachFrame_checked (s : State) (w : Who) (a : Acc) (key attr : Nat) :
    Checked s (s.reachFrame w a key attr).1 := by
  unfold State.reachFrame
  exact checked_ite _ _ _ _ (.refl _) (checked_ite _ _ _ _ (.refl _) (checked_ite _ _ _ _ (s.takeFlit_checked _ _)
    (s.meet_checked _ _ _ _ _)))

theorem State.reachGlobal_checked (s : State) (w : Who) (a : Acc) : Checked s (s.reachGlobal w a).1 := by
  unfold State.reachGlobal
  dsimp only
  refine checked_ite _ _ _ _ (.refl _) (checked_ite _ _ _ _ (s.reachRemote_checked w a) ?_)
  have ht := s.translate_checked w.ctx (vaDie a.addr) (vaOff a.addr)
  generalize s.translate w.ctx (vaDie a.addr) (vaOff a.addr) = r at ht ⊢
  obtain ⟨u, tr⟩ := r
  dsimp only at ht ⊢
  refine checked_ite _ _ _ _ ht (checked_ite _ _ _ _ ht (checked_ite _ _ _ _
    (ht.trans ((u.updX_checked _ _).trans (State.usedUp_checked _ _)))
    (checked_ite _ _ _ _ (ht.trans (u.refuse_checked _ _ _ _ _)) (checked_ite _ _ _ _ ht ?_))))
  cases tr with
  | ok host pa attr =>
    dsimp only
    exact checked_ite _ _ _ _ (checked_ite _ _ _ _ ht (checked_ite _ _ _ _ (ht.trans (u.takeFlit_checked _ _)) ht))
      (ht.trans (u.reachFrame_checked _ _ _ _))
  | _ =>
    dsimp only
    cases hc : u.closeGran w.ctx (vaDie a.addr) (vaOff a.addr / 2 ^ 16) (a.kind % 5) with
    | none => exact ht
    | some v => exact ht.trans ((u.closeGran_checked v _ _ _ _ hc).trans (v.refuse_checked _ _ _ _ _))

theorem State.reach_checked (s : State) (w : Who) (a : Acc) : Checked s (s.reach w a).1 := by
  unfold State.reach
  refine checked_ite _ _ _ _ (.refl _) ?_
  split
  · exact s.reachGlobal_checked w a
  · unfold State.reachA
    refine checked_ite _ _ _ _ (.refl _) (checked_ite _ _ _ _ (.refl _) (checked_ite _ _ _ _ (.refl _) ?_))
    have h := s.aMap_checked w.core w.lid a.addr
    generalize s.aMap w.core w.lid a.addr = r at h
    obtain ⟨u, k⟩ := r
    cases k with
    | none => exact h
    | some k => exact h.trans (u.meet_checked _ _ _ _ _)
  · unfold State.reachW
    exact checked_ite _ _ _ _ (.refl _) (s.meet_checked _ _ _ _ _)

theorem State.readOp_checked (s : State) (gid t : Nat) (o : Operand) : Checked s (s.readOp gid t o).1 := by
  unfold State.readOp
  dsimp only
  split
  · repeat' (first | exact Checked.refl _ | split)
  split
  · unfold State.readWin
    cases s.winAddr gid t (o.code.toNat - 112) with
    | error e => exact .refl _
    | ok e =>
      dsimp only
      have h := s.reach_checked (s.who gid t) (Acc.read .A e.1 4)
      generalize s.reach (s.who gid t) (Acc.read .A e.1 4) = r at h
      obtain ⟨u, k⟩ := r
      cases k <;> exact h
  · repeat' (first | exact Checked.refl _ | split)

/-- Reading the sources of a thread changes nothing that `Checked` names. -/
theorem State.readOps_checked (s : State) (gid t : Nat) (os : List Operand) (v : Vals) :
    Checked s (s.readOps gid t os v).1 := by
  induction os generalizing s v with
  | nil => exact .refl _
  | cons o os ih =>
    unfold State.readOps
    split
    · exact ih s v
    · have h := s.readOp_checked gid t o
      generalize s.readOp gid t o = r at h
      obtain ⟨u, k⟩ := r
      cases k with
      | ok x p => exact h.trans (ih u _)
      | _ => exact h

theorem State.readOps_cur (s u : State) (gid t : Nat) (os : List Operand) (v : Vals) (r : Except Rd Vals)
    (h : s.readOps gid t os v = (u, r)) : u.cur = s.cur := by
  have := (s.readOps_checked gid t os v).cur
  rwa [h] at this

end Sys2Proof.Machine
end

