-- ==== Sys2Proof/Tests/Slice0.lean ====
section
/-! SUPPORT. Small states in which a given instruction issues, tests of single steps, the ill-formed terms that the
checks refuse, and words written out from the spec's encodings. -/

namespace Sys2Proof.Tests

open Sys2Proof Sys2Proof.Machine

set_option Elab.async false

/-! ### Small states -/

/-- A clause of the one instruction `i` with its literal words. -/
def clauseWith (i : Instr) (lits : List Word) : List Word :=
  BitVec.ofNat 32 (2 ^ 28 + opClass (opOf ((encode i).headD 0#32)) * 2 ^ 25) :: encode i ++ lits

/-- The state after reset with one group of one live thread that stands at `i`, changed by `f` and `h`, at the moment
at which it issues. -/
def at_ (i : Instr) (lits : List Word := []) (f : Group → Group := id) (h : State → State := id) : State :=
  (h ((State.reset.withClause (clauseWith i lits)).updGrp 0 f)).move.2

/-- A register of thread 0. -/
def setX (n : Nat) (v : Nat) (p : Bool := false) (g : Group) : Group :=
  g.updThr 0 fun x => { x with x := x.x.set n ⟨BitVec.ofNat 32 v, p⟩ }

/-- A launch of that group's number, and its launch space. -/
def setCtl (f : Ctl → Ctl) (g : Group) : Group := { g with ctl := f g.ctl }

/-- The step that runs `i` there. -/
def run (i : Instr) (s : State) : State :=
  match exec i s with
  | .next t => t
  | _ => s

/-- A register of thread 0 of slot 0 after the step. -/
def x_ (s : State) (n : Nat) : Nat := ((s.thr 0 0).x.getD n Reg.zero).v.toNat

def issuesB (s : State) (i : Instr) : Bool :=
  let g := s.cg
  (kfind s.groups s.cur.gid).isSome && g.kind ≠ .pitcher && s.sweep = Sweep.reset && roleOk g.role i && legal g.regs i
    && g.threads.length = 16 && s.cur.mask ≠ [] && decide s.cur.mask.Nodup && decide s.cur.path.Nodup
    && (s.cur.mask.all fun t => s.cur.path.contains t) && (s.cur.path.all fun t => t < 16)
    && (s.cur.mask.all fun t => (g.thr t).life = .live) && g.toFreeze = none

theorem issues_of {s : State} {i : Instr} (h : issuesB s i = true) : s.Issues i s.cg := by
  simp only [issuesB, Bool.and_eq_true, decide_eq_true_eq, List.all_eq_true, List.contains_iff_mem] at h
  obtain ⟨⟨⟨⟨⟨⟨⟨⟨⟨⟨⟨⟨hg, hk⟩, hs⟩, hr⟩, hl⟩, hn⟩, hm⟩, hd⟩, hp⟩, hb⟩, ht⟩, hv⟩, hz⟩ := h
  refine ⟨?_, hk, hs, hr, hl, hn, hm, hd, hp, hb, ht, hv, hz⟩
  obtain ⟨g, hg⟩ := Option.isSome_iff_exists.1 hg
  rw [hg, State.cg, State.grp_of_kfind s _ g hg]

/-- The sources of `i` read plainly for thread 0, and what is read meets `c`. -/
def reads (s : State) (i : Instr) (c : State → Vals → Bool) : Bool :=
  match s.readOps s.cur.gid 0 (operands i) Vals.zero with
  | (u, .ok v) => c u v
  | _ => false

/-- What thread 0 reads. -/
def valsOf (s : State) (i : Instr) : Vals :=
  match s.readOps s.cur.gid 0 (operands i) Vals.zero with
  | (_, .ok v) => v
  | _ => Vals.zero

theorem readOps_of {s : State} {i : Instr} (h : reads s i (fun u _ => u = s) = true) :
    s.readOps s.cur.gid 0 (operands i) Vals.zero = (s, .ok (valsOf s i)) := by
  unfold reads at h
  unfold valsOf
  split at h
  · rename_i u v hr
    rw [hr]
    simpa using h
  · simp at h

theorem reads_of {s : State} {i : Instr} (hm : s.cur.mask = [0]) (h : reads s i (fun u _ => u = s) = true) :
    s.Reads i fun _ => valsOf s i := by
  intro t ht
  rw [hm, List.mem_singleton] at ht
  subst ht
  exact readOps_of h

/-- The instruction issues and names no queue, and thread 0 reads sources that meet `c`. -/
def Turn (i : Instr) (s : State) (c : State → Vals → Bool) : Prop :=
  ∃ g u v, s.Issues i g ∧ popNames i = [] ∧ s.readOps s.cur.gid 0 (operands i) Vals.zero = (u, .ok v) ∧ c u v = true

theorem turn_of {i : Instr} {s : State} {c : State → Vals → Bool}
    (h : (issuesB s i && decide (popNames i = []) && reads s i c) = true) : Turn i s c := by
  simp only [Bool.and_eq_true, decide_eq_true_eq] at h
  obtain ⟨⟨hi, hp⟩, hr⟩ := h
  unfold reads at hr
  split at hr
  · rename_i u v hv
    exact ⟨s.cg, u, v, issues_of hi, hp, hv, hr⟩
  · simp at hr

/-- A global address of the part itself (R150). -/
def va (off : Nat) : Nat := 0xFF * 2 ^ 52 + off

/-- Context 0 is bound, and the first GiB of its die 0 is cached readable, writable and executable (R160). -/
def mapped (s : State) : State :=
  let die : DieX := ⟨List.replicate 3 ⟨0, 0, none⟩, 0, 0, 0, 0, 0, 0, 0⟩
  { s with
    parts := s.parts.set 0 { Part.reset with bound := true, x := some ⟨0, 0, 0, 0, List.replicate 4 die, [], []⟩ }
    tlb := [⟨0, 0, 2, 0, 0x0E⟩] }

/-- Two registers that hold a global address. -/
def setVa (n off : Nat) (g : Group) : Group := setX (n + 1) (va off / 2 ^ 32) false (setX n (va off % 2 ^ 32) false g)

/-- A running launch 0 of one group of 16 threads on one core. -/
def launch0 : Launch :=
  { lid := 0, ctx := 0, queue := 0, srcq := 0
    f := ⟨0, false, false, 0, 3, 0, 0, 0, 0, 0, 0, 0, 0, [⟨1, 3, 3⟩, ⟨16, 1, 1⟩], [⟨0, 0, 1, 80, 0⟩], []⟩
    addr := 0, malformed := false, prio := 3, waits := [], predFail := false, started := true, placed := 1, passed := 0
    since := 0, threads := 16, trapped := 0, fault := false }

/-- The group runs in that launch. -/
def launched (s : State) : State := { s with launches := [launch0] }

/-- The checks of an access pass. -/
def isOk : Res → Bool
  | .ok _ _ => true
  | _ => false
/-! ### Register instructions -/

/-- A register instruction of a table issues, reads plain sources and raises no enabled flag: the premises of a result
statement, for an instruction that is uniform or not. -/
def AluWitness (row : Instr → Option AluRow) (u : Bool) : Prop :=
  ∃ (i : Instr) (r : AluRow) (s : State) (g : Group) (v : Nat → Vals), row i = some r ∧ s.Issues i g ∧ PlainSources i ∧ s.Reads i v ∧ isUniform i = u
    ∧ (r.d.toNat < 80 ∨ r.d.toNat = 120 ∨ (u = true ∧ r.d.toNat < 112))
    ∧ (∀ t ∈ s.cur.mask, (g.opOf r.ps r.f (v t) t).fl &&& g.ctl.ten = 0) ∧ s.cur.mask.head? = some 0

def plainB (i : Instr) : Bool :=
  (operands i).all fun o => !o.form.isSrc || o.code.toNat < 112 || (120 ≤ o.code.toNat && o.code.toNat < 124)

theorem plain_of {i : Instr} (h : plainB i = true) : PlainSources i := by
  intro o ho hs
  have := List.all_eq_true.1 h o ho
  simp only [hs, Bool.not_true, Bool.false_or, Bool.or_eq_true, Bool.and_eq_true, decide_eq_true_eq] at this
  exact this

def aluB (row : Instr → Option AluRow) (u : Bool) (i : Instr) (s : State) : Bool :=
  match row i with
  | none => false
  | some r => issuesB s i && plainB i && decide (s.cur.mask = [0]) && reads s i (fun t _ => t = s) && isUniform i == u
    && (r.d.toNat < 80 || r.d.toNat = 120 || (u && r.d.toNat < 112))
    && (s.cg.opOf r.ps r.f (valsOf s i) 0).fl &&& s.cg.ctl.ten = 0

theorem alu_of {row : Instr → Option AluRow} {u : Bool} {i : Instr} {s : State} (h : aluB row u i s = true) :
    AluWitness row u := by
  unfold aluB at h
  split at h
  · simp at h
  · rename_i r hr
    simp only [Bool.and_eq_true, decide_eq_true_eq, beq_iff_eq, Bool.or_eq_true] at h
    obtain ⟨⟨⟨⟨⟨⟨hi, hp⟩, hm⟩, hv⟩, hu⟩, hd⟩, hf⟩ := h
    refine ⟨i, r, s, s.cg, _, hr, issues_of hi, plain_of hp, reads_of hm hv, hu, ?_, ?_, by rw [hm]; rfl⟩
    · rcases hd with (h | h) | ⟨h, k⟩
      · exact .inl h
      · exact .inr (.inl (by simp [h]))
      · exact .inr (.inr ⟨h, k⟩)
    · intro t ht
      rw [hm, List.mem_singleton] at ht
      rw [ht]
      exact hf

theorem witness_IntegerWordResults : AluWitness intRow false ∧ AluWitness intRow true :=
  ⟨alu_of (i := .iadd 5#7 3#7 4#7 2#3) (s := at_ (.iadd 5#7 3#7 4#7 2#3)) (by decide +kernel),
   alu_of (i := .idiv 80#7 81#7 120#7 0#3) (s := at_ (.idiv 80#7 81#7 120#7 0#3)) (by decide +kernel)⟩

theorem witness_IntegerPairResults : AluWitness pairIntRow false ∧ AluWitness pairIntRow true :=
  ⟨alu_of (i := .iaddD 78#7 2#7 4#7) (s := at_ (.iaddD 78#7 2#7 4#7)) (by decide +kernel),
   alu_of (i := .lea 110#7 82#7 81#7 5#3) (s := at_ (.lea 110#7 82#7 81#7 5#3)) (by decide +kernel)⟩

theorem witness_Fp32Results : AluWitness fltRow false ∧ AluWitness fltRow true :=
  ⟨alu_of (i := .fadd 5#7 3#7 4#7 4#3) (s := at_ (.fadd 5#7 3#7 4#7 4#3)) (by decide +kernel),
   alu_of (i := .fclass 80#7 120#7) (s := at_ (.fclass 80#7 120#7)) (by decide +kernel)⟩

theorem witness_SpecialFunctionResults : AluWitness specialRow false ∧ AluWitness specialRow true :=
  ⟨alu_of (i := .fsqrt 5#7 3#7 0#3) (s := at_ (.fsqrt 5#7 3#7 0#3)) (by decide +kernel),
   alu_of (i := .frcp 80#7 81#7 0#3) (s := at_ (.frcp 80#7 81#7 0#3)) (by decide +kernel)⟩

theorem witness_WideAndConvertResults : AluWitness wideRow false ∧ AluWitness wideRow true :=
  ⟨alu_of (i := .dadd 2#7 4#7 6#7 0#3) (s := at_ (.dadd 2#7 4#7 6#7 0#3)) (by decide +kernel),
   alu_of (i := .fcvt 80#7 81#7 0#7 0#3) (s := at_ (.fcvt 80#7 81#7 0#7 0#3)) (by decide +kernel)⟩

/-- A compare and a predicate instruction issue with their sources read. -/
theorem witness_PredicateResults : ∃ (i : Instr) (x : Nat × List Nat × (List Bool → Vals → Bool)) (s : State) (g : Group) (v : Nat → Vals), predRow i = some x ∧ s.Issues i g ∧ PlainSources i ∧ s.Reads i v
    ∧ isUniform i = false :=
  ⟨.icmp 1#7 3#7 4#7 0#3, _, at_ (.icmp 1#7 3#7 4#7 0#3), _, _, rfl, issues_of (by decide +kernel),
    plain_of (by decide +kernel), reads_of (by decide +kernel) (by decide +kernel), by decide +kernel⟩

theorem witness_SnapshotResults :
    (∃ (s : State) (g : Group) (v : Nat → Vals), s.Issues (.hpoll 5#7 15#4) g ∧ s.Reads (.hpoll 5#7 15#4) v)
    ∧ ∃ (s : State) (g : Group) (v : Nat → Vals), s.Issues (.cpyt 5#7 7#3) g ∧ s.Reads (.cpyt 5#7 7#3) v :=
  ⟨⟨at_ (.hpoll 5#7 15#4), _, _, issues_of (by decide +kernel), reads_of (by decide +kernel) (by decide +kernel)⟩,
   ⟨at_ (.cpyt 5#7 7#3), _, _, issues_of (by decide +kernel), reads_of (by decide +kernel) (by decide +kernel)⟩⟩


/-! ### Operands and exchange -/

/-- A window operand w0 whose window holds one word, at index `n`. -/
def winState (i : Instr) (n : Nat) : State :=
  at_ i [] fun g => setX 79 n false (setCtl (fun c => { c with wlen := c.wlen.set 0 (CReg.of 4) }) g)

theorem witness_EveryOperandForm : let i : Instr := .iadd 5#7 112#7 121#7 1#3
    (anyRow i).isSome = true ∧ Turn i (winState i 0) (fun _ _ => true)
    ∧ (winState i 0).popCheck 0 ((winState i 0).popNeeds i) = .ready ∧ (winState i 0).cur.gid = 0
    ∧ (winState i 0).turns i = [(0, [0])] :=
  ⟨by decide +kernel, turn_of (by decide +kernel), by decide +kernel, by decide +kernel, by decide +kernel⟩

/-- The clauses of an instruction's turn meet: the destination is ready, and a flag is raised that is enabled or not. -/
def flagB (i : Instr) (s : State) (enabled : Bool) : Bool :=
  reads s i fun u v => match u.dstReady u.cur.gid 0 i, anyRow i with
    | (w, .ok _), some r => decide (((w.grp w.cur.gid).opOf r.ps r.f v 0).fl &&& (w.grp w.cur.gid).ctl.ten ≠ 0) == enabled
    | _, _ => false

/-- A source that traps, and a destination window that does. -/
theorem witness_EveryOperandForm_fails :
    (let i : Instr := .iadd 5#7 112#7 4#7 0#3
    (match ((winState i 1).readOps 0 0 (operands i) Vals.zero).2 with
      | .error e => decide (e = Rd.trap 0x11 4)
      | .ok _ => false) = true)
    ∧ let i : Instr := .iadd 112#7 3#7 4#7 0#3
    (match ((winState i 1).dstReady 0 0 i).2 with
      | .error e => decide (e = Rd.trap 0x11 4)
      | .ok _ => false) = true := by decide +kernel

theorem witness_EveryOperandForm_turn : let i : Instr := .frcp 5#7 3#7 1#3
    flagB i (at_ i) false = true
    ∧ flagB i (at_ i [] (setCtl fun c => { c with fpctl := CReg.of (31 * 2 ^ 11) })) true = true := by decide +kernel

/-- The premises of the clauses for x and g codes, single at the last code and in a pair at the last even one. -/
theorem witness_SourceCodes : let g := (at_ .nop).grp 0
    g.isDead 0 111 = false ∧ g.pendOn 0 111 = none ∧ g.isDead 0 110 = false ∧ g.pendOn 0 110 = none
    ∧ g.isDead 0 79 = false ∧ g.pendOn 0 79 = none := by decide +kernel

def deadState (d : Nat) : State :=
  at_ .nop [] fun g => (setCtl (fun c => { c with deadm := CReg.of d }) g).updThr 0 fun x => { x with dead := [79] }

theorem witness_SourceCodes_dead : ((deadState 1).grp 0).isDead 0 79 = true ∧ ((deadState 1).grp 0).ctl.trapd = true
    ∧ ((deadState 0).grp 0).isDead 0 79 = true ∧ ((deadState 0).grp 0).ctl.trapd = false := by decide +kernel

/-- A register with a write in flight; pairs of which one half is dead, with TRAPD and without; and x79 alike. -/
theorem witness_SourceCodes_pending :
    (let g := (at_ .nop [] fun g => { g with pend := [⟨0, 5, [⟨7#32, true⟩], 0, none, [], none⟩] }).grp 0
    g.isDead 0 5 = false ∧ ∃ p, g.pendOn 0 5 = some p ∧ p.regs.getD (5 - p.code) Reg.zero = ⟨7#32, true⟩ ∧ g.settled 0 5 = Reg.zero)
    ∧ ∀ d ∈ [0, 1], let g := (deadState d).grp 0
      g.isDead 0 78 = false ∧ g.isDead 0 79 = true ∧ g.ctl.trapd = decide (d = 1)
        ∧ (match (deadState d).winAddr 0 0 0 with
          | .error (c, a) => d = 1 && c = 0x02 && a = 0
          | .ok _ => d = 0 && false) = decide (d = 1) := by
  refine ⟨⟨by decide +kernel, _, rfl, by decide +kernel, by decide +kernel⟩, by decide +kernel⟩

/-- A window at its last word, one word past it, and at the end of the space. -/
theorem witness_SourceCodes_window : let i : Instr := .mov 5#7 112#7
    ((winState i 0).grp 0).ctl.len 0 = 1 ∧ ((winState i 0).grp 0).isDead 0 79 = false
    ∧ ((winState i 0).grp 0).pendOn 0 79 = none
    ∧ (((winState i 0).reach ((winState i 0).who 0 0) (Acc.read .A 0 4)).2 = .ok (aKey 0 0 0) 0)
    ∧ 2 ^ 23 < (4 * (setCtl (fun c => { c with wbase := c.wbase.set 0 (CReg.of (2 ^ 23 - 4)) }) ((winState i 0).grp 0)).ctl.base 0
        + 4 * 1) + 4 := by decide +kernel

/-- An element that a queue has given for its code. -/
theorem witness_SourceCodes_queue : let s := at_ .nop [] fun g => g.updThr 0 fun x => { x with popped := [(3, ⟨7#32, false⟩)] }
    kfind (s.thr 0 0).popped (127 - 124) = some ⟨7#32, false⟩ := by decide +kernel

theorem witness_ExchangeResults : let i : Instr := .xchg 5#7 3#7 4#7 1#3
    ∃ f o, exchForm i = some f ∧ Turn i (at_ i) (fun _ _ => true)
      ∧ (operands i).find? (fun o => o.fld = .A) = some o ∧ (at_ i).turns i = [(0, [0])]
      ∧ (match ((at_ i).dstReady 0 0 i).2 with
        | .ok _ => true
        | _ => false) = true :=
  ⟨_, ⟨.A, .src, 3#7⟩, rfl, turn_of (by decide +kernel), by decide +kernel, by decide +kernel, by decide +kernel⟩

/-- A uniform exchange, by one thread or by two. -/
theorem witness_ExchangeResults_uniform : let i : Instr := .xchg 80#7 81#7 120#7 0#3
    (exchForm i).isSome = true ∧ isUniform i = true ∧ issuesB (at_ i) i = true ∧ (at_ i).exActive = [0]
    ∧ (operands i).find? (fun o => o.fld = .A) = some ⟨.A, .src, 81#7⟩
    ∧ (match ((at_ i).readOp 0 0 ⟨.A, .src, 81#7⟩).2 with
      | .ok _ _ => true
      | _ => false) = true := by decide +kernel

/-- An exchange whose sum overflows raises a flag. -/
theorem witness_ExchangeResults_flags : let i : Instr := .xred 5#7 3#7 6#3
    (exchForm i).isSome = true ∧ issuesB (at_ i) i = true ∧ issuesB (at_ i [] (setCtl fun c => { c with fpctl := CReg.of (31 * 2 ^ 11) })) i = true := by
  decide +kernel

/-! ### Sweeps and traps -/

/-- A group of 16 live threads, two of which are on the path and one of these active, at the end of a sweep. -/
def swept (f : Sweep → Sweep) (g : Group → Group) : State :=
  let s := at_ .nop [] (fun x => { (g x) with threads := (startThreads 0 0 16).map fun t => { t with pos := ⟨0, 1⟩ } })
  { s with cur := { s.cur with path := [0, 1], mask := [0, 1] }, sweep := f s.sweep }

def noTraps (s : State) : Bool :=
  s.sweep.traps = [] && s.sweep.viols = [] && s.sweep.holds = [] && s.sweep.loads = [] && s.sweep.stays = [] && decide s.cur.path.Nodup
    && (s.cur.path.all fun t => t < 16) && s.cg.threads.length = 16 && (kfind s.groups s.cur.gid).isSome
    && (s.cg.thr 0).life = .live && s.cg.toFreeze = none

theorem witness_SweepEnds : let s := swept (fun w => { w with moved := [1] }) id
    noTraps s = true ∧ 0 ∈ s.cur.path ∧ s.sweep.moved.contains 0 = false ∧ (s.cg.thr 0).loop = none
    ∧ 1 ∈ s.cur.path ∧ s.sweep.moved.contains 1 = true ∧ 2 ∉ s.cur.path := by decide +kernel

theorem witness_LoopPasses : let l : LoopSt := ⟨8, 16, 2, 0, []⟩
    let c := { Cur.reset with n := 1, pos := ⟨8, 1⟩, nextHdr := 16 }
    c.n ≤ c.pos.k ∧ c.nextHdr = l.stop ∧ l.pass + 1 < l.count ∧ { l with pass := 1 }.count ≤ 1 + 1
    ∧ { c with nextHdr := 12 }.nextHdr ≠ l.stop := by decide +kernel

/-- R287: `FADD x8, x8, x10` in the passes of a loop that steps B: B reads x10 to x13; past x79, and past g31, no instruction is
left. A tile steps within 0 to 3. -/
theorem witness_LoopPasses_steps : let l := fun (k : Nat) => (⟨0, 8, 100, k, [0, 0, 1, 0, 1, 0]⟩ : LoopSt)
    decode 0x30102050#32 0#32 = .ok (.fadd 8#7 8#7 10#7 0#3)
    ∧ (stepWords (l 3) 0x30102050#32 0#32).map (fun x => rawField x.1 x.2 2) = some 13
    ∧ (stepWords (l 69) 0x30102050#32 0#32).isSome = true ∧ stepWords (l 70) 0x30102050#32 0#32 = none
    ∧ decode 0x30102378#32 0#32 = .ok (.fadd 8#7 8#7 111#7 0#3)
    ∧ stepWords (l 1) 0x30102378#32 0#32 = none
    ∧ stepWords (l 9) 0x301023C8#32 0#32 = some (0x301023C8#32, 0#32)
    ∧ decode 0xE9000000#32 0x00100000#32 = .ok (.mzero 2#2)
    ∧ (stepWords (l 1) 0xE9000000#32 0x00100000#32).map (fun x => x.2.toNat / 2 ^ 19 % 4) = some 3
    ∧ stepWords (l 2) 0xE9000000#32 0x00100000#32 = none := by
  refine ⟨rfl, ?_, ?_, ?_, rfl, ?_, ?_, rfl, ?_, ?_⟩ <;> decide +kernel

/-- A loop that goes on in its clause, and one whose thread has no pass left. -/
theorem witness_SweepEnds_loop : ∀ p ∈ [0, 1], let s := swept id fun g => g
    let u := s.updThr 0 0 fun x => { x with loop := some ⟨8, 16, 2, p, []⟩ }
    noTraps u = true ∧ 0 ∈ u.cur.path ∧ u.sweep.moved.contains 0 = false ∧ (u.thr 0 0).loop = some ⟨8, 16, 2, p, []⟩ := by
  decide +kernel

/-- Threads 0 to 3 are on the path, the last of them by its guard alone. Thread 0 traps with the lowest code, thread 1 with another,
whose cause is used up or not, and thread 2 does not trap; SYSC or not. -/
def trapState (f sysc : Bool) : State :=
  let s := swept (fun w => { w with traps := [(0, 8, 5), (1, 9, 7)], firm := if f then [1] else [], sysc := sysc })
    (setCtl fun c => { c with trapvec := CReg.of 64 })
  { s with cur := { s.cur with path := [0, 1, 2, 3], mask := [0, 1, 2] } }

theorem witness_TrapsAreTaken : ∀ f ∈ [true, false], ∀ c ∈ [true, false], let s := trapState f c
    let g := s.cg
    kfind s.groups s.cur.gid = some g ∧ g.kind ≠ .pitcher ∧ g.threads.length = 16 ∧ s.cur.path.Nodup ∧ (∀ t ∈ s.cur.path, t < 16)
    ∧ (∀ e ∈ s.sweep.traps, e.1 ∈ s.cur.path ∧ (g.thr e.1).life = .live ∧ 8 ≤ e.2.1) ∧ (s.sweep.traps.map Prod.fst).Nodup
    ∧ (∃ e ∈ s.sweep.traps, e.2.1 = 8) ∧ s.sweep.viols = [] ∧ s.sweep.holds = [] ∧ s.sweep.loads = [] ∧ s.sweep.stays = []
    ∧ g.ctl.trapvec.n ≠ 0 ∧ g.ctl.inh = false ∧ g.toFreeze = none ∧ s.sweep.sysc = c
    ∧ (1, 9, 7) ∈ s.sweep.traps ∧ s.sweep.firm.contains 1 = f ∧ 3 ∈ s.cur.path ∧ s.trapped 3 = false ∧ 4 ∉ s.cur.path := by
  decide +kernel

theorem witness_TrapsWithoutHandler : let s := launched (swept id id)
    let u := swept id (setCtl fun c => { c with tcause := CReg.of (2 ^ 31) })
    kfind s.groups 0 = some s.cg ∧ s.cg.threads.length = 16 ∧ s.cg.ctl.trapvec.n = 0 ∧ s.launch? s.cg.lid = some launch0
    ∧ kfind u.groups 0 = some u.cg ∧ u.cg.threads.length = 16 ∧ u.cg.ctl.inh = true := by decide +kernel

theorem witness_TrapInstructions :
    (at_ (.trap 255#16)).Issues (.trap 255#16) (at_ (.trap 255#16)).cg ∧ (at_ (.sysc 0#16)).Issues (.sysc 0#16) (at_ (.sysc 0#16)).cg :=
  ⟨issues_of (by decide +kernel), issues_of (by decide +kernel)⟩

/-- A register past the group's count, and a role that may not use the instruction. -/
theorem witness_ChecksBeforeExecution : let i : Instr := .mov 79#7 3#7
    let s := at_ i [] fun g => { g with regs := 16 }
    let u := at_ (.mol 96#7 0#2) [] fun g => { g with role := 0 }
    encode i ≠ [] ∧ kfind s.groups s.cur.gid = some s.cg ∧ legal s.cg.regs i = false
    ∧ encode (.mol 96#7 0#2) ≠ [] ∧ kfind u.groups u.cur.gid = some u.cg ∧ roleOk u.cg.role (.mol 96#7 0#2) = false := by decide +kernel

/-- A handler's group at ERET, with EPC at the second instruction of its clause, past it, or of a clause that is gone. -/
def eretAt (inh epc : Nat) (hdr : Option Nat) (f : Thread → Thread := id) : State :=
  at_ .eret [] fun g => { (setCtl (fun c => { c with tcause := CReg.of (2 ^ 31 * inh), tmask := CReg.of 1, epc := CReg.of epc }) g).updThr 0 f with
    trapHdr := hdr }

theorem witness_ReturnFromTrap :
    (eretAt 0 4 none).Issues .eret (eretAt 0 4 none).cg ∧ (eretAt 0 4 none).cg.ctl.inh = false
    ∧ (eretAt 1 4 none).Issues .eret (eretAt 1 4 none).cg ∧ (eretAt 1 4 none).cg.ctl.inh = true
    ∧ (eretAt 1 4 none).cg.ctl.tmask.n / 2 ^ 0 % 2 = 1 ∧ ((eretAt 1 4 none).cg.thr 0).life = .live :=
  ⟨issues_of (by decide +kernel), by decide +kernel, issues_of (by decide +kernel), by decide +kernel, by decide +kernel,
    by decide +kernel⟩

theorem witness_ReturnFromTrap_place :
    (eretAt 1 4 none).cg.trapHdr = none ∧ (eretAt 1 4 none).cg.ctl.epc.n / 4 * 4 = 4
    ∧ (eretAt 1 4 (some 64)).cg.trapHdr = some 64 ∧ kfind (eretAt 1 4 (some 64)).cg.clauses 64 = none
    ∧ ((kfind (eretAt 1 4 (some 0)).cg.clauses 0).bind fun ws => findInstr ws 0 4) = some 1
    ∧ (kfind (eretAt 1 64 (some 0)).cg.clauses 0).map (fun ws => findInstr ws 0 64) = some none
    ∧ ((eretAt 1 4 (some 0) fun x => { x with saved := some ⟨0, 8, 2, 1, []⟩ }).cg.thr 0).saved = some ⟨0, 8, 2, 1, []⟩
    ∧ ((eretAt 1 4 none).cg.thr 0).saved = none := by decide +kernel

/-! ### Control flow -/

/-- The group's thread stands at a header in memory at 64: `h`, and then words of NOP. -/
def atHeader (h : Word) (g : Group → Group) : State :=
  let f := fun (x : Group) => (g x).updThr 0 fun t => { t with pos := ⟨va 64, 0⟩ }
  at_ .nop [] f fun s =>
    let m := mapped s
    { m with mem := m.mem.store (globalKey 0 64) (leBytes 4 h.toNat ++ leBytes 4 ((encode .nop).headD 0#32).toNat) false false 0 }

def headerB (s : State) (c : State → Word → Bool) : Bool :=
  let g := s.cg
  let g0 := g.updThr 0 fun x => { x with taint := x.taint.dropWhile fun e => e.pc = s.cur.pos.hdr && e.depth = x.depth }
  let s0 := s.setGrp s.cur.gid g0
  (kfind s.groups s.cur.gid).isSome && g.kind ≠ .pitcher && g.argsDue = false && s.cur.path = [0] && s.sweep = Sweep.reset
    && g.toFreeze = none && g.threads.length = 16 && (g.thr 0).life = .live
    && match s0.fetchClause (s0.who s.cur.gid 0) s.cur.pos.hdr false with
      | (s1, .ok ws) => s1.cg = g0 && s1.cur = s.cur && s1.sweep = Sweep.reset
        && c { s1 with cur := { s.cur with mask := s.cur.path, iaddr := s.cur.pos.hdr, sw := 0 } } (ws.headD 0#32)
      | _ => false

/-- A clause of one NOP of the control class: entered; refused as malformed with no instruction; and waiting for a load. -/
theorem witness_ClauseHeaders :
    headerB (atHeader 0x10000000#32 id) (fun c h => !hdrBad h && c.waitsDone 0 (hdrWait h) && c.cg.deferred = [] && !hdrGen h)
      = true
    ∧ headerB (atHeader 0x00000000#32 id) (fun _ h => hdrBad h) = true
    ∧ headerB (atHeader 0x10000001#32 fun g => { g with pend := [⟨0, 5, [Reg.zero], 0, none, [], none⟩] })
      (fun c h => !hdrBad h && !c.waitsDone 0 (hdrWait h)) = true := by decide +kernel

/-- A guard of p1 whose predicate is as given. -/
def guardB (v p : Bool) (w : Word) : Bool :=
  headerB (atHeader w fun g => g.updThr 0 fun x => { x with pr := x.pr.set 1 ⟨v, p⟩ }) fun c h =>
    !hdrBad h && c.waitsDone 0 (hdrWait h) && c.cg.deferred = [] && hdrGen h && hdrPred h = 1 && !hdrNeg h
      && (c.cg.readPred 0 1).v = v && (c.cg.readPred 0 1).p = p

/-- Guarded headers: a thread that is active; none, so that the clause is skipped; and none at a clause that ends in a branch, whose
guard is a proposal. -/
theorem witness_ClauseHeaders_guards :
    guardB true false 0x10000220#32 = true ∧ guardB false false 0x10000220#32 = true ∧ guardB false true 0x10000220#32 = true
    ∧ endsInBranch [0x10000220#32, (encode .nop).headD 0#32] = false
    ∧ endsInBranch [0x10000220#32, (encode (.bra 0#24)).headD 0#32] = true := by decide +kernel

/-- The taint entries of a header's PC and depth pop; one of another PC stands. -/
theorem witness_ClauseHeaders_taint :
    headerB (atHeader 0x10000000#32 fun g => g.updThr 0 fun x => { x with taint := [⟨va 64, 0⟩, ⟨va 64, 0⟩, ⟨8, 0⟩] })
      (fun c h => !hdrBad h && c.waitsDone 0 (hdrWait h) && c.cg.deferred = [] && (c.cg.thr 0).taint = [⟨8, 0⟩]) = true := by
  decide +kernel

/-- What every branch clause asks of the thread. -/
def branchB (s : State) (i : Instr) (target : Option Nat) (call : Bool) : Bool :=
  issuesB s i && s.branchForm i = some (target, call) && s.cur.mask.contains 0 && s.cur.gid = 0

/-- A branch back to its own header, a call, and branches to a register that holds a multiple of 4 or not. -/
theorem witness_BranchesAndCalls :
    branchB (at_ (.bra 0#24)) (.bra 0#24) (some 0) false = true ∧ branchB (at_ (.call 2#24)) (.call 2#24) (some 8) true = true
    ∧ branchB (at_ (.brx 4#7)) (.brx 4#7) none false = true
    ∧ reads (at_ (.brx 4#7) [] (setX 4 6)) (.brx 4#7) (fun u v => u = at_ (.brx 4#7) [] (setX 4 6) && !v.p && v.a.toNat % 4 ≠ 0) = true
    ∧ branchB (at_ (.callx 4#7)) (.callx 4#7) none true = true
    ∧ reads (at_ (.callx 4#7)) (.callx 4#7) (fun u v => u = at_ (.callx 4#7) && !v.p && v.a.toNat % 4 = 0) = true := by
  decide +kernel

/-- The return stack at its last free entry and full, without a spill area. -/
theorem witness_BranchesAndCalls_depth :
    let s := fun n => at_ (.call 2#24) [] fun g => g.updThr 0 fun x => { x with ret := List.replicate n ⟨0, false⟩ }
    8 + ((s 8).spillAt 0 0).2 ≤ ((s 8).thr 0 0).depth ∧ ((s 7).thr 0 0).ret.length < 8
    ∧ ((s 7).thr 0 0).depth < 8 + ((s 7).spillAt 0 0).2 ∧ (s 7).trapped 0 = false ∧ (s 7).violated 0 = false
    ∧ (s 7).sweep.stays.contains 0 = false ∧ (s 7).sweep.holds.contains 0 = false := by decide +kernel

/-- The launch has a spill area of 16 entries for each thread, of which some are used. -/
def spilling (s : State) : State :=
  { s with launches := [{ launch0 with f := { launch0.f with rsbase := 4096, rsdepth := 16 } }] }

/-- A full set of hardware entries with room in the spill area, which the store reaches. -/
theorem witness_BranchesAndCalls_spill :
    let s := at_ (.call 2#24) [] (fun g => g.updThr 0 fun x => { x with ret := List.replicate 7 ⟨0, false⟩ ++ [⟨8, true⟩], spilled := 3 })
      spilling
    branchB s (.call 2#24) (some 8) true = true ∧ 8 ≤ (s.thr 0 0).ret.length ∧ (s.thr 0 0).ret.getLast? = some ⟨8, true⟩
    ∧ (s.thr 0 0).depth < 8 + (s.spillAt 0 0).2
    ∧ isOk (s.reach (s.who 0 0) (Acc.write .A ((s.spillAt 0 0).1 + 8 * 3) 8 false)).2 = true
    ∧ isOk ((spilling (at_ .nop)).reach ((spilling (at_ .nop)).who 0 0) (Acc.write .A (2 ^ 23) 8 false)).2 = false := by
  decide +kernel

/-- A guard that is a proposal, with PBRT set or not: of an active thread and of an inactive one; and an active thread's target. -/
theorem witness_BranchesAndCalls_pbranch : ∀ b ∈ [true, false], ∀ on ∈ [true, false],
    let s := at_ (.brx 4#7) [] fun g => { setX 4 8 true (setCtl (fun c => { c with pctl := CReg.of (if b then 1 else 0) }) g) with
      threads := ((startThreads 0 0 2).map fun t => { t with pos := ⟨0, 1⟩, gbp := true }).set 1
        { (startThreads 0 0 2).getD 1 Thread.absent with pos := ⟨0, 1⟩, gact := false, gbp := on } }
    issuesB s (.brx 4#7) = true ∧ s.branchForm (.brx 4#7) = some (none, false) ∧ 0 ∈ s.cur.mask ∧ (s.thr 0 0).gbp = true
    ∧ 1 ∈ s.cur.path ∧ 1 ∉ s.cur.mask ∧ (s.thr 0 1).gbp = on ∧ s.cg.ctl.pbrt = b
    ∧ s.trapped 1 = false ∧ s.violated 1 = false ∧ s.sweep.stays.contains 1 = false ∧ s.sweep.holds.contains 1 = false := by
  decide +kernel

def retAt (r : List RetEnt) (gbp pbrt on : Bool) : State :=
  at_ .ret [] fun g => (setCtl (fun c => { c with pctl := CReg.of (if pbrt then 1 else 0) }) g).updThr 0 fun x =>
    { x with ret := r, gbp := gbp, gact := on }

theorem witness_Returns :
    (retAt [] false false true).Issues .ret (retAt [] false false true).cg
    ∧ ((retAt [] false false true).thr 0 0).ret = [] ∧ ((retAt [] false false true).thr 0 0).spilled = 0
    ∧ (retAt [⟨8, false⟩] false true true).Issues .ret (retAt [⟨8, false⟩] false true true).cg
    ∧ ((⟨8, false⟩ : RetEnt).p || ((retAt [⟨8, false⟩] false true true).thr 0 0).gbp) = false
    ∧ (retAt [⟨8, true⟩] false true true).Issues .ret (retAt [⟨8, true⟩] false true true).cg
    ∧ ((⟨8, true⟩ : RetEnt).p || ((retAt [⟨8, true⟩] false true true).thr 0 0).gbp) = true
    ∧ (retAt [⟨8, true⟩] false true true).cg.ctl.pbrt = true :=
  ⟨issues_of (by decide +kernel), by decide +kernel, by decide +kernel, issues_of (by decide +kernel), by decide +kernel,
    issues_of (by decide +kernel), by decide +kernel, by decide +kernel⟩

/-- An entry or a guard that is a proposal, and no PBRT; and no entry in hardware, but some in the spill area. -/
theorem witness_Returns_more :
    (∀ p ∈ [true, false], let s := retAt [⟨8, p⟩] (!p) false true
      issuesB s .ret = true ∧ ((⟨8, p⟩ : RetEnt).p || (s.thr 0 0).gbp) = true ∧ s.cg.ctl.pbrt = false)
    ∧ (let s := at_ .ret [] (fun g => g.updThr 0 fun x => { x with spilled := 3 }) spilling
      issuesB s .ret = true ∧ (s.thr 0 0).ret = [] ∧ 0 < (s.thr 0 0).spilled ∧ s.hasGrp 0 = true ∧ 0 < (s.grp 0).threads.length
        ∧ (match (s.reach (s.who 0 0) (Acc.read .A ((s.spillAt 0 0).1 + 8 * 2) 8)).2 with
          | .ok _ _ => true
          | _ => false) = true
        ∧ s.trapped 0 = false ∧ s.violated 0 = false ∧ s.sweep.stays.contains 0 = false ∧ s.sweep.holds.contains 0 = false) := by
  decide +kernel

/-- Two threads at a RET, of which the guard leaves the second inactive. -/
theorem witness_Returns_inactive : ∀ b ∈ [true, false],
    let s := at_ .ret [] fun g => { setCtl (fun c => { c with pctl := CReg.of 1 }) g with
      threads := ((startThreads 0 0 2).map fun t => { t with pos := ⟨0, 1⟩ }).set 1
        { (startThreads 0 0 2).getD 1 Thread.absent with pos := ⟨0, 1⟩, gact := false, gbp := b } }
    issuesB s .ret = true ∧ 1 ∈ s.cur.path ∧ 1 ∉ s.cur.mask ∧ (s.thr 0 1).gbp = b ∧ s.cg.ctl.pbrt = true
    ∧ s.trapped 1 = false ∧ s.violated 1 = false ∧ s.sweep.stays.contains 1 = false ∧ s.sweep.holds.contains 1 = false := by
  decide +kernel

/-- A loop over one clause of one instruction, and one over a clause that reaches past the body. -/
def loopAt (h n : Nat) : State :=
  at_ (.loop 83#7 0#5 0#4 0#4 0#4 0#4 0#2 0#14) [] (fun g =>
      { g with g := g.g.set 3 ⟨BitVec.ofNat 32 n, false⟩, threads := g.threads.map (fun t => { t with pos := ⟨va 64, 1⟩ }), clauses := [(va 64, clauseWith (.loop 83#7 0#5 0#4 0#4 0#4 0#4 0#2 0#14) [])] }) fun s =>
    let m := mapped s
    { m with mem := m.mem.store (globalKey 0 76) (leBytes 4 h ++ leBytes 4 ((encode (.mov 5#7 3#7)).headD 0#32).toNat) false false 0 }

def loopB (s : State) (ok : Bool) : Bool :=
  let i : Instr := .loop 83#7 0#5 0#4 0#4 0#4 0#4 0#2 0#14
  issuesB s i && popNames i = [] && match s.bodyEnd (s.who s.cur.gid (s.cur.mask.headD 0)) s.cur.nextHdr 1 33 with
    | (_, .ok (some _)) => ok
    | (_, .ok none) => !ok
    | _ => false

theorem witness_Loops : loopB (loopAt 0x20000000 2) false = true ∧ loopB (loopAt 0x10000000 2) true = true
    ∧ reads (loopAt 0x10000000 2) (.loop 83#7 0#5 0#4 0#4 0#4 0#4 0#2 0#14) (fun _ v => v.d.lo = 2#32) = true
    ∧ reads (loopAt 0x10000000 0) (.loop 83#7 0#5 0#4 0#4 0#4 0#4 0#2 0#14) (fun _ v => v.d.lo = 0#32) = true := by decide +kernel

theorem witness_Tails : (at_ .tail).Issues .tail (at_ .tail).cg ∧ 0 ∈ (at_ .tail).cur.mask ∧ 1 ∉ (at_ .tail).cur.mask :=
  ⟨issues_of (by decide +kernel), by decide +kernel, by decide +kernel⟩

/-- A refused write of the thread that tails, or none; and a monitor entry that only its watch uses. -/
theorem witness_Tails_refused : ∀ r ∈ [[], [((State.reset).agent 0 0, (64, 9))]],
    let s := at_ .tail [] (fun g => g.updThr 0 fun x => { x with watch := some ⟨64, 4, none, true⟩ }) fun s =>
      (launched s).updCore 0 fun k => { k with sideRef := r, mons := [⟨0, 1, 0⟩] }
    issuesB s .tail = true ∧ s.launch? s.cg.lid = some launch0
    ∧ ((s.cur.mask.filter fun t => (s.core 0).sideRef.any fun e => e.1 = s.agent 0 t) = [] ↔ r = [])
    ∧ ((s.endThreads 0 [0]).core 0).mons = [] := by decide +kernel

theorem witness_HintsAndRegions : (at_ .nop).Issues .nop (at_ .nop).cg ∧ Turn (.prf 4#7) (at_ (.prf 4#7)) (fun _ _ => true)
    ∧ (at_ .join).Issues .join (at_ .join).cg ∧ (at_ .yield).Issues .yield (at_ .yield).cg
    ∧ Turn (.rgn 3#7) (at_ (.rgn 3#7)) (fun _ _ => true)
    ∧ (at_ (.rgn 3#7)).popCheck 0 ((at_ (.rgn 3#7)).popNeeds (.rgn 3#7)) = .ready
    ∧ (at_ (.dead 64#7 0x8001#16)).Issues (.dead 64#7 0x8001#16) (at_ (.dead 64#7 0x8001#16)).cg :=
  ⟨issues_of (by decide +kernel), turn_of (by decide +kernel), issues_of (by decide +kernel), issues_of (by decide +kernel),
    turn_of (by decide +kernel), by decide +kernel, issues_of (by decide +kernel)⟩

/-! ### Special registers -/

theorem witness_ReadsOfControlRegisters : let i : Instr := .mfsr 5#7 0x012#12
    (at_ i).Issues i (at_ i).cg
    ∧ (match ((at_ i).dstReady 0 0 i).2 with
      | .ok _ => true
      | _ => false) = true
    ∧ ((at_ i).core 0).space? 0 = some ⟨0, 0, 0, CReg.of 0x200, [], false, 0⟩ ∧ (at_ i).phys 0 = some 0 :=
  ⟨issues_of (by decide +kernel), by decide +kernel, by decide +kernel, by decide +kernel⟩

/-- At its release, and later. -/
theorem witness_ReadsOfControlRegisters_cycles :
    (at_ (.mfsr 5#7 0#12)).now = ((at_ (.mfsr 5#7 0#12)).core 0).released
    ∧ ({ State.reset with now := 9 } : State).cores = State.reset.cores ∧ State.reset.now ≤ 9 := by decide +kernel

def mtsr (n c : Nat) : State := at_ (.mtsr 3#7 (BitVec.ofNat 12 c)) [] (setX 3 n)

/-- Writes of NBV that are legal or not, of FPCTL at the last legal mode and past it, and of BINT. -/
theorem witness_WritesBySoftware :
    Turn (.mtsr 3#7 1#12) (mtsr 2 1) (fun _ v => v.d.lo.toNat % 4 ≠ 0 && v.d.lo.toNat % 4 ≠ 3)
    ∧ Turn (.mtsr 3#7 1#12) (mtsr 3 1) (fun _ v => v.d.lo.toNat % 4 = 3)
    ∧ Turn (.mtsr 3#7 7#12) (mtsr 4 7) (fun _ v => v.d.lo.toNat % 8 < 5)
    ∧ Turn (.mtsr 3#7 7#12) (mtsr 5 7) (fun _ v => 5 ≤ v.d.lo.toNat % 8)
    ∧ Turn (.mtsr 3#7 16#12) (mtsr 9 16) (fun _ _ => true)
    ∧ ((mtsr 4 7).turns (.mtsr 3#7 7#12)).foldl (State.mtsrTurn (.mtsr 3#7 7#12) 7) (mtsr 4 7, []) = (mtsr 4 7, [(4, false)])
    ∧ (((mtsr 5 7).turns (.mtsr 3#7 7#12)).foldl (State.mtsrTurn (.mtsr 3#7 7#12) 7) (mtsr 5 7, [])).2 = [] :=
  ⟨turn_of (by decide +kernel), turn_of (by decide +kernel), turn_of (by decide +kernel), turn_of (by decide +kernel),
    turn_of (by decide +kernel), by decide +kernel, by decide +kernel⟩

/-! ### Memory -/

theorem witness_StoredBytes : ∃ (m : Memory) (bs : List Byte), m.wf = true ∧ bs ≠ [] ∧ m.byte 40 = 7#8 :=
  ⟨Memory.empty.store 40 [7#8] true false 3, [0#8], by decide +kernel, by decide +kernel, by decide +kernel⟩

/-- How the checks of an access end. -/
def reachIs (u : State) (w : Who) (a : Acc) (c : State → Res → Bool) : Bool :=
  let r := u.reach w a
  c r.1 r.2

/-- A global load of a word at `a`, into `d`. -/
def ldAt (d : BitVec 7) (a : Nat) (h : State → State) : State :=
  at_ (.ld d 4#7 4#4 0#3 0#3) [] (setVa 4 a) fun s => h (launched (mapped s))

def ldB (d : BitVec 7) (off : Nat) (h : State → State) (algn : Bool) (c : Res → Bool) : Bool :=
  let i : Instr := .ld d 4#7 4#4 0#3 0#3
  let s := ldAt d off h
  issuesB s i && popNames i = [] && (s.cg.levels s 0 0).isSome && reads s i fun u x =>
    let a := u.memAddr .global false x.a
    u.cg.kind ≠ .pitcher && (a % 4 = 0) == algn
      && reachIs u (u.who u.cur.gid 0) { Acc.read .global a 4 with sync := false } fun _ r => c r

/-- A granule of die 0 that is closed. -/
def closed0 (s : State) : State :=
  s.updX 0 fun x => { x with closed := [⟨0, 0, 0, false, false, [], []⟩] }

/-- The offset of `va` that makes it an address of device 5. -/
def dev5 : Nat := 64 + 2 ^ 60 - 250 * 2 ^ 52

/-- The one Ryuzin link of a device, in a state. -/
def link0 (l : LinkSt) (s : State) : State := { s with dev := { s.dev with links := [l] } }

/-- Pages without the right to read, and with a tag that an untagged address does not carry. -/
def attrs (n : Nat) (s : State) : State := { s with tlb := [⟨0, 0, 2, 0, n⟩] }

theorem witness_Loads :
    ldB 5#7 64 id true isOk = true ∧ ldB 120#7 64 id true isOk = true ∧ ldB 5#7 66 id false isOk = true
    ∧ ldB 5#7 64 (attrs 0x0C) true (fun r => r = .viol 0x0A) = true
    ∧ ldB 5#7 64 closed0 true (fun r => r = .closed) = true
    ∧ ldB 5#7 64 (fun s => s.updX 0 fun x => { x with refused := [((s.who 0 0).agent, 0)] }) true (fun r => r = .trap 0x09) = true
    ∧ ldB 5#7 dev5 (link0 .retraining) true (fun r => r = .waits) = true
    ∧ ldB 5#7 dev5 (link0 .trained) true (fun r => r = .outside 0) = true
    ∧ ldB 5#7 dev5 (fun s => { s with dev := { s.dev with linkLost := [⟨0, s.agent 0 0, s.lineOf (5 * 2 ^ 52 + 64)⟩] } }) true
      (fun r => r = .lost) = true := by
  decide +kernel

/-- The forms with an offset, in the A and the W space, and an acquire. -/
theorem witness_Loads_forms :
    (let i : Instr := .ldaOff 5#7 3#7 4#4 5#3 1#3
    (loadForm i).isSome = true ∧ Turn i (at_ i [4#32] id launched) (fun u _ => (u.cg.levels u 5 1).isSome))
    ∧ let i : Instr := .ldw 6#7 3#7 5#4 0#3 1#3
    (loadForm i).isSome = true ∧ Turn i (at_ i [] id launched) (fun u _ => (u.cg.levels u 0 1).isSome) :=
  ⟨⟨by decide +kernel, turn_of (by decide +kernel)⟩, by decide +kernel, turn_of (by decide +kernel)⟩

/-- A store of one word of x6 at `off`. -/
def stAt (f o : Nat) (off : Nat) (g : Group → Group) (h : State → State) : State :=
  at_ (.st 6#7 4#7 (BitVec.ofNat 4 f) (BitVec.ofNat 3 o) (BitVec.ofNat 3 (o / 6))) [] (fun x => g (setX 6 0x7F7FFFFF false (setVa 4 off x)))
    fun s => h (launched (mapped s))

def stB (f o off : Nat) (g : Group → Group) (h : State → State) (c : State → Nat → Nat → Res → Bool) : Bool :=
  let i : Instr := .st 6#7 4#7 (BitVec.ofNat 4 f) (BitVec.ofNat 3 o) (BitVec.ofNat 3 (o / 6))
  let s := stAt f o off g h
  issuesB s i && popNames i = [] && (o = 0 || s.scopeDom s.cg.lid (scopeLvl o (o / 6)) ≠ none) && reads s i fun u x =>
    match u.storeVals u.cur.gid 0 f 6 (memCnt o (o / 6)) x.d x.p with
    | .error _ => false
    | .ok (vs, xp) =>
      let a := u.memAddr .global false x.a
      let cc := u.cg.ctl
      let us := (storeDraws f cc.rm (memCnt o (o / 6)) (u.thr u.cur.gid 0).gen).1
      let rs := (vs.zip us).map fun e => narrow f cc.rm e.2 e.1
      let fl := rs.foldl (fun a r => a ||| r.flags) 0
      let p := xp || u.ambient [0] || narrowFmt f
      let v := u.raiseFlags fl
      reachIs v (u.who u.cur.gid 0) { Acc.write .global a (memLen f o (o / 6)) (p && cc.pstop) with sync := o ≠ 0 }
        fun _ r => c v (a % memLen f o (o / 6)) (fl &&& cc.ten) r

/-- A store that performs; one that is misaligned; one whose conversion raises an enabled flag; a release that performs,
and one that waits for the side log; and one that the page stops. -/
theorem witness_Stores :
    stB 4 0 64 id id (fun _ m e r => m = 0 && e = 0 && isOk r) = true
    ∧ stB 4 0 66 id id (fun _ m _ _ => m ≠ 0) = true
    ∧ stB 6 0 64 (setCtl fun c => { c with fpctl := CReg.of (31 * 2 ^ 11) }) id (fun _ m e _ => m = 0 && e ≠ 0) = true
    ∧ stB 4 6 64 id id (fun u m e r => m = 0 && e = 0 && isOk r && u.syncReady (u.who 0 0) = .go) = true
    ∧ stB 4 6 64 id (fun s => s.updCore 0 fun k => { k with side := [⟨(s.who 0 0).agent, 0, 0, 1, va 128, [1#8], false, false, none, false, false, false⟩] })
      (fun u m e _ => m = 0 && e = 0 && u.syncReady (u.who 0 0) = .waits) = true
    ∧ stB 4 0 64 (fun g => setX 6 1 true (setCtl (fun c => { c with pctl := CReg.of 2 }) g)) (attrs 0x2E) (fun _ m e r => m = 0 && e = 0 && r = .trap 0x05) = true := by
  decide +kernel

def atomB (ctl : Nat) (red : Bool) (f off : Nat) (c : State → AtomArgs → Nat → Bool) : Bool :=
  let i : Instr := if red then .red 8#7 4#7 (BitVec.ofNat 4 f) 4#3 1#3 else .atom 8#7 4#7 (BitVec.ofNat 4 f) 4#3 1#3
  let s := at_ i [] (fun x => setX 8 ctl false (setVa 4 off x)) fun s => launched (mapped s)
  issuesB s i && popNames i = [] && s.scopeDom s.cg.lid (scopeLvl 4 1) ≠ none && reads s i fun u x =>
    match u.atomArgs u.cur.gid 0 8 (f = 5 || f = 9) red with
    | none => false
    | some b => c u b (u.memAddr .global false x.a)

theorem witness_Atomics :
    atomB 2 false 4 64 (fun u b a => b.ctl ≤ 9 && a % 4 = 0 && u.syncReady (u.who 0 0) = .go
      && (reachIs u (u.who 0 0) ⟨.global, a, 4, true, true, false, true, false, 0⟩ fun _ r => isOk r)
      && (atomNew 4 b.ctl 0 b.x b.cmp).isSome) = true
    ∧ atomB 10 false 4 64 (fun _ b _ => 9 < b.ctl) = true ∧ atomB 1 true 4 64 (fun _ b _ => b.ctl < 2) = true
    ∧ atomB 9 false 4 66 (fun _ b a => b.ctl ≤ 9 && a % 4 ≠ 0) = true ∧ atomB 5 false 8 64 (fun _ b _ => 5 ≤ b.ctl) = true := by
  decide +kernel

/-- A compare that fails. -/
theorem witness_Atomics_compare :
    atomB 1 false 4 64 (fun u b a => b.ctl ≤ 9 && (reachIs u (u.who 0 0) ⟨.global, a, 4, true, true, false, true, false, 0⟩ fun v r =>
      match r with
        | .ok key _ => decide (atomNew 4 b.ctl (v.mem.num key 4) b.x 7 = none) && b.cmp = 0
        | _ => false)) = true
    ∧ (at_ (.atom 8#7 4#7 4#4 4#3 1#3)).stopped 0 = false := by decide +kernel

def fenceAt (i : Instr) (f : Core → Core) : State := at_ i [] id fun s => (launched s).updCore 0 f

/-- A fence: ready, held back by the side log, and refused. -/
theorem witness_Fences : let i : Instr := .fence 4#3 1#3
    (let s := fenceAt i id
    issuesB s i = true ∧ (s.scopeDom s.cg.lid (scopeLvl 4 1)).isSome = true ∧ s.syncReady (s.who 0 0) = .go)
    ∧ (let s := fenceAt i fun k => { k with side := [⟨⟨.T, 0, 0, 0⟩, 0, 0, 0, va 128, [1#8], false, false, none, false, false, false⟩] }
      issuesB s i = true ∧ s.syncReady (s.who 0 0) = .waits)
    ∧ let s := fenceAt i fun k => { k with sideRef := [(⟨.T, 0, 0, 0⟩, 64, 9)] }
      issuesB s i = true ∧ s.syncReady (s.who 0 0) = .refused 64 9 := by decide +kernel

/-- FENCEX from threads, from an engine, and from the matrix engine, with nothing before it; and one that holds agents. -/
theorem witness_Fences_paths :
    (∀ i ∈ [Instr.fencex 0#7 1#7 4#3 1#3, .fencex 1#7 4#7 4#3 1#3, .fencex 3#7 4#7 4#3 1#3], let s := fenceAt i id
      issuesB s i = true ∧ s.syncReady (s.who 0 0) = .go ∧ s.cg.parks = [] ∧ s.inFlight 0 .P = [] ∧ s.inFlight 0 .G = []
      ∧ ∀ h ∈ (s.core s.cg.core).huddles, h.issues s.cur.gid s.cg.uid = false)
    ∧ (let r : ParkRec := ⟨[0], .fencex [3] .P .K 1 5⟩
      let u := (fenceAt .nop id).updGrp 0 fun g => { g with parks := [r] }
      ∃ h, (0, h) ∈ u.groups ∧ h.core = 0 ∧ r ∈ h.parks ∧ r.mask ≠ [] ∧ 5 ≤ 6) := by
  refine ⟨by decide +kernel, _, List.mem_singleton.2 rfl, by decide +kernel, by decide +kernel, by decide +kernel, by decide⟩

/-- A transfer of tag 1 of the group in slot 0 that has been issued. -/
def xfer0 : Xfer := ⟨9, 0, 0, 0, 0, 0, 1, 1, true, va 64, 0, 32, false, false, [0], false, 0, 0, none⟩

/-- FENCEX from the copies' path while a copy is in flight. -/
theorem witness_Fences_waits :
    let h := fun (s : State) => (launched s).updCore 0 fun k => { k with xfers := [{ xfer0 with uid := (s.grp 0).uid }] }
    let s := at_ (.fencex 2#7 0#7 4#3 1#3) [] id h
    s.Issues (.fencex 2#7 0#7 4#3 1#3) s.cg ∧ s.inFlight 0 (pathOf 2) ≠ [] ∧ s.syncReady (s.who 0 0) = .go ∧ s.cg.parks = [] :=
  ⟨issues_of (by decide +kernel), by decide +kernel, by decide +kernel, by decide +kernel⟩

def watchAt (off : Nat) : State := at_ (.watch 4#7 4#4) [] (setVa 4 off) fun s => launched (mapped s)

def waitAt (w : Option Watch) (n : Nat) : State :=
  at_ (.wait 5#7 3#7) [] (fun g => setX 3 n false (g.updThr 0 fun x => { x with watch := w }))

def waitaAt (old off : Nat) : State := at_ (.waita 5#7 3#7) [] (fun g => setX 5 old false (setX 3 off false g)) launched

/-- A watch on an aligned word and on a misaligned one; WAIT without a watch, with an event, and with and without a
bound; WAITA on a word that equals D and on one that does not. -/
theorem witness_MonitorsAndWaits :
    (Turn (.watch 4#7 4#4) (watchAt 64) fun u x => let a := u.memAddr .global false x.a;
      a % 4 = 0 && u.hasGrp 0 && 0 < u.cg.threads.length
        && reachIs u (u.who 0 0) { Acc.read .global a 4 with kind := 5 } fun _ r => isOk r)
    ∧ (Turn (.watch 4#7 4#4) (watchAt 66) fun u x => u.memAddr .global false x.a % 4 ≠ 0)
    ∧ (Turn (.wait 5#7 3#7) (waitAt none 0) fun u _ => (u.thr 0 0).watch = none)
    ∧ (Turn (.wait 5#7 3#7) (waitAt (some ⟨64, 4, some 2, true⟩) 0) fun u _ => (u.thr 0 0).watch = some ⟨64, 4, some 2, true⟩)
    ∧ (Turn (.wait 5#7 3#7) (waitAt (some ⟨64, 4, none, true⟩) 0) fun _ x => x.a.lo = 0#32)
    ∧ (Turn (.wait 5#7 3#7) (waitAt (some ⟨64, 4, none, true⟩) 1) fun _ x => x.a.lo ≠ 0#32)
    ∧ (Turn (.waita 5#7 3#7) (waitaAt 0 64) fun u x => ((waitaAt 0 64).cg.source 0 0 5).map (·.v) = some 0#32
      && reachIs u (u.who 0 0) (Acc.read .A (u.memAddr .A false x.a) 4).synced fun t r => match r with
        | .ok k _ => t.mem.num k 4 = 0
        | _ => false)
    ∧ (Turn (.waita 5#7 3#7) (waitaAt 1 64) fun u x => ((waitaAt 1 64).cg.source 0 0 5).map (·.v) = some 1#32
      && reachIs u (u.who 0 0) (Acc.read .A (u.memAddr .A false x.a) 4).synced fun t r => match r with
        | .ok k _ => t.mem.num k 4 = 0
        | _ => false) :=
  ⟨turn_of (by decide +kernel), turn_of (by decide +kernel), turn_of (by decide +kernel), turn_of (by decide +kernel),
    turn_of (by decide +kernel), turn_of (by decide +kernel), turn_of (by decide +kernel), turn_of (by decide +kernel)⟩

/-- A watch at a closed granule. -/
theorem witness_MonitorsAndWaits_held : (Turn (.watch 4#7 4#4) (at_ (.watch 4#7 4#4) [] (setVa 4 64) fun s => closed0 (launched (mapped s)))
    fun u x => u.memAddr .global false x.a % 4 = 0
      && reachIs u (u.who 0 0) { Acc.read .global (u.memAddr .global false x.a) 4 with kind := 5 } fun _ r => r = .closed) :=
  turn_of (by decide +kernel)

/-- The largest element of each width. -/
theorem witness_ElementValues : 255 < 2 ^ 8 ∧ 65535 < 2 ^ 16 ∧ 4294967295 < 2 ^ 32 ∧ 18446744073709551615 < 2 ^ 64 := by
  decide

/-! ### Huddles, barriers and phase words -/

def harmAt (n : Nat) (h : Huddle) : State :=
  at_ (.harm 3#7 15#4) [] (setX 3 n) fun s => (launched s).updHuddle 0 15 fun _ => h

def sig0 (s : State) (tix kind : Nat) : Sig := ⟨0, (s.grp 0).uid, tix, kind, 0#32, 0#32, [], [], false, 0⟩

def hsignAt (h : State → Huddle) (t : Option (Nat × Nat)) : State :=
  at_ (.hsign 15#4) [] (fun g => g.updThr 0 fun x => { x with owed := t }) fun s =>
    (launched s).updHuddle 0 15 fun _ => h s

/-- A refused side-logged write is taken at a signature. -/
theorem witness_ArmingAndSigning_refused :
    let s := at_ (.hsign 15#4) [] id fun s => (launched s).updCore 0 fun k => { k with sideRef := [(⟨.T, 0, 0, 0⟩, 64, 9)] }
    issuesB s (.hsign 15#4) = true ∧ (s.thr 0 0).owed = none ∧ s.sideRefused (s.who 0 0) = some (64, 9) := by decide +kernel

/-- HARM at the ends of its range and past them, and while a round has signatures; HSIGN at an armed huddle, at a full
one, at one that is disarmed, and with a trap owed. -/
theorem witness_ArmingAndSigning :
    (Turn (.harm 3#7 15#4) (harmAt 1 Huddle.reset) fun u x => x.a.lo.toNat = 1 && ((u.core 0).huddle 15).signed = 0)
    ∧ (Turn (.harm 3#7 15#4) (harmAt 256 Huddle.reset) fun u x => x.a.lo.toNat = 256 && ((u.core 0).huddle 15).signed = 0)
    ∧ (Turn (.harm 3#7 15#4) (harmAt 257 Huddle.reset) fun _ x => x.a.lo.toNat = 257)
    ∧ (Turn (.harm 3#7 15#4) (harmAt 1 ⟨some 0, 2, 1, 0, 0, 0, []⟩) fun u _ => ((u.core 0).huddle 15).signed ≠ 0)
    ∧ (let s := hsignAt (fun _ => ⟨some 0, 2, 0, 0, 0, 0, []⟩) none
      s.Issues (.hsign 15#4) s.cg ∧ (s.thr 0 0).owed = none ∧ s.sideRefused (s.who 0 0) = none
        ∧ ((s.core 0).huddle 15).owner = some s.cg.lid ∧ ((s.core 0).huddle 15).signed < ((s.core 0).huddle 15).count)
    ∧ (let s := hsignAt (fun _ => ⟨some 0, 1, 1, 0, 0, 0, []⟩) none
      s.Issues (.hsign 15#4) s.cg ∧ ((s.core 0).huddle 15).count ≤ ((s.core 0).huddle 15).signed)
    ∧ (let s := hsignAt (fun _ => Huddle.reset) none
      s.Issues (.hsign 15#4) s.cg ∧ ((s.core 0).huddle 15).count = 0)
    ∧ let s := hsignAt (fun _ => Huddle.reset) (some (0x10, 0))
      s.Issues (.hsign 15#4) s.cg ∧ (s.thr 0 0).owed = some (0x10, 0) :=
  ⟨turn_of (by decide +kernel), turn_of (by decide +kernel), turn_of (by decide +kernel), turn_of (by decide +kernel),
    ⟨issues_of (by decide +kernel), by decide +kernel, by decide +kernel, by decide +kernel, by decide +kernel⟩,
    ⟨issues_of (by decide +kernel), by decide +kernel⟩, ⟨issues_of (by decide +kernel), by decide +kernel⟩,
    issues_of (by decide +kernel), by decide +kernel⟩

/-- HSIGN behind a full round, and where none is. -/
theorem witness_ArmingAndSigning_full :
    (hsignAt (fun s => ⟨some 0, 1, 1, 0, 0, 0, [sig0 s 0 0]⟩) none).roundFull 15 = true
    ∧ (hsignAt (fun _ => ⟨some 0, 2, 0, 0, 0, 0, []⟩) none).roundFull 15 = false
    ∧ (hsignAt (fun _ => Huddle.reset) none).roundFull 15 = false ∧ (hsignAt (fun _ => Huddle.reset) (some (0x10, 0))).roundFull 15 = false := by
  decide +kernel

/-- A huddle round of two signers that is full. -/
def roundState (sigs : State → List Sig) (h : State → State) : State :=
  let s := h (launched ((State.reset.withClause (clauseWith .nop [])).updGrp 0 fun g => { g with
    threads := startThreads 0 0 16, parks := [⟨[0, 1], .huddle 3⟩] }))
  s.updHuddle 0 3 fun _ => ⟨some 0, 2, 2, 3, 0, 0, sigs s⟩

theorem witness_SignedRounds : let s := roundState (fun s => [sig0 s 0 0, sig0 s 1 0]) id
    let hd := (s.core 0).huddle 3
    (s.core 0).huddles.length = 16 ∧ hd.sigs ≠ [] ∧ hd.signed = hd.count ∧ 0 < hd.count
    ∧ (∀ x ∈ hd.sigs, x.kind = 0 ∧ s.undrained (s.agent x.gid x.tix) = false ∧ s.sideRefused (s.who x.gid x.tix) = none
      ∧ s.hasGrp x.gid = true ∧ (s.grp x.gid).uid = x.uid)
    ∧ ((s.core 0).huddle 4).sigs = []
    ∧ (⟨[0, 1], .huddle 3⟩ : ParkRec) ∈ (s.grp 0).parks := by decide +kernel

/-- A full round of different signatures. -/
theorem witness_SignedRounds_mismatch : let s := roundState (fun s => [sig0 s 0 0, sig0 s 1 1]) id
    let hd := (s.core 0).huddle 3
    hd.sigs.head? = some (sig0 s 0 0) ∧ hd.signed = hd.count ∧ 0 < hd.count ∧ (∃ x ∈ hd.sigs, x.kind ≠ 0)
    ∧ ∀ x ∈ hd.sigs, s.undrained (s.agent x.gid x.tix) = false := by decide +kernel

def gangAt (n : Nat) : State :=
  at_ (.bar 1#1 (BitVec.ofNat 3 n)) [] (fun g => { g with kind := .gang 0 }) launched

/-- BAR in a gang at a scope within it and at a wider one, and outside a gang; a barrier at which every thread has
arrived, and one that a thread of the launch has not reached. -/
theorem witness_Barriers :
    (let s := gangAt 1
    s.Issues (.bar 1#1 1#3) s.cg ∧ s.scopeDom s.cg.lid (some 1) = some 1 ∧ s.cg.kind.isGang = true
      ∧ 1 ≤ gangDom (s.levels s.cg.lid) ∧ (s.thr 0 0).owed = none ∧ s.sideRefused (s.who 0 0) = none)
    ∧ (let s := gangAt 2
      s.Issues (.bar 1#1 2#3) s.cg ∧ s.scopeDom s.cg.lid (some 2) = none)
    ∧ ∀ ts ∈ [[0], [0, 1]], let u := launched ((State.reset.withClause (clauseWith .nop [])).updGrp 0 fun g => { g with
        kind := .gang 0, threads := startThreads 0 0 2, parks := [⟨ts, .bar 0 1⟩] })
      u.parkAt 0 0 = some ⟨ts, .bar 0 1⟩ ∧ u.heldOut 0 1 (u.agent 0 0) = false ∧ u.updatesOut 1 0 = false
      ∧ ((∀ e ∈ u.barThreads 0 1 (u.agent 0 0), u.atBar 0 1 e = true ∧ u.undrained (u.agent e.1 e.2) = false) ↔ ts = [0, 1])
      ∧ ((∃ e ∈ u.barThreads 0 1 (u.agent 0 0), u.atBar 0 1 e = false) ↔ ts = [0]) :=
  ⟨⟨issues_of (by decide +kernel), by decide +kernel, by decide +kernel, by decide +kernel, by decide +kernel, by decide +kernel⟩,
    ⟨issues_of (by decide +kernel), by decide +kernel⟩, by decide +kernel⟩

def parrAt (i : Instr) (off : Nat) : State := at_ i [] (setX 3 off) launched

/-- The last expected arrival and an earlier one; PARR and PWAIT at an aligned word and at a misaligned one; a parked
PWAIT whose re-read finds either phase. -/
theorem witness_PhaseWords :
    (0 + 1 < max 2 1 ∧ max 2 1 ≤ 1 + 1)
    ∧ (Turn (.parr 3#7) (parrAt (.parr 3#7) 64) fun u x => let a := u.memAddr .A false x.a;
      a % 4 = 0 && u.syncReady (u.who 0 0) = .go
        && reachIs u (u.who 0 0) ⟨.A, a, 4, true, true, false, true, false, 0⟩ fun _ r => isOk r)
    ∧ (Turn (.parr 3#7) (parrAt (.parr 3#7) 65) fun u x => u.memAddr .A false x.a % 4 ≠ 0)
    ∧ (Turn (.pwait 5#7 3#7) (parrAt (.pwait 5#7 3#7) 64) fun u x => let a := u.memAddr .A false x.a;
      a % 4 = 0 && reachIs u (u.who 0 0) { Acc.read .A a 4 with sync := true } fun _ r => isOk r)
    ∧ (Turn (.pwait 5#7 3#7) (parrAt (.pwait 5#7 3#7) 66) fun u x => u.memAddr .A false x.a % 4 ≠ 0)
    ∧ ∀ ph ∈ [true, false], let u := launched ((State.reset.withClause (clauseWith .nop [])).updGrp 0 fun g => { g with
        parks := [⟨[0], .pwait 64 ph⟩] })
      u.parkAt 0 0 = some ⟨[0], .pwait 64 ph⟩
      ∧ isOk (u.reach (u.who 0 0) { Acc.read .A 64 4 with sync := true }).2 = true :=
  ⟨by decide, turn_of (by decide +kernel), turn_of (by decide +kernel), turn_of (by decide +kernel), turn_of (by decide +kernel),
    by decide +kernel⟩

/-- A DCOR.D whose descriptor g0 to g7 holds row, stride, n, x and b; the round limit is `lim`. -/
def dcorAt (row stride n lim : Nat) (h : Huddle) (x : Nat := va 64) (y : Nat := va 64) (divst : Nat := 0) : State :=
  let d := [row, row / 2 ^ 32, stride, n, x, x / 2 ^ 32, y, y / 2 ^ 32]
  let f := fun (g : Group) => { setCtl (fun c => { c with dclim := CReg.of lim, pctl := CReg.of divst }) g with
    g := d.map (fun n => ⟨BitVec.ofNat 32 (n % 2 ^ 32), false⟩) ++ g.g.drop 8 }
  at_ (.dcorD 6#7 3#7 80#7 2#4) [] f fun s => (launched (mapped s)).updHuddle 0 2 fun _ => h

def dcorB (s : State) (c : State → Vals → Nat → Nat → Bool) : Bool :=
  let i : Instr := .dcorD 6#7 3#7 80#7 2#4
  issuesB s i && popNames i = [] && !s.roundFull 2 && (s.thr 0 0).owed = none && s.sideRefused (s.who 0 0) = none && reads s i fun u v =>
    let r := fun (k : Nat) => u.descReg 0 80 k
    c u v ((r 0).v.toNat + 2 ^ 32 * (r 1).v.toNat) (r 3).v.toNat

/-- A DCOR.D within its limits and past each of them, and at a huddle that is disarmed. -/
theorem witness_DefectCorrection :
    dcorB (dcorAt (va 64) 8 (2 ^ 24) 16 ⟨some 0, 2, 0, 0, 0, 0, []⟩) (fun u _ row n => n ≤ 2 ^ 24 && row % 8 = 0
      && (u.descReg 0 80 2).v.toNat % 8 = 0 && ((u.core 0).huddle 2).owner = some u.cg.lid
      && ((u.core 0).huddle 2).signed < ((u.core 0).huddle 2).count
      && ((u.core 0).huddle 2).rounds < (if u.cg.ctl.dclim.n % 256 = 0 then 256 else u.cg.ctl.dclim.n % 256)) = true
    ∧ dcorB (dcorAt (va 64) 8 (2 ^ 24 + 1) 16 Huddle.reset) (fun _ _ _ n => 2 ^ 24 < n) = true
    ∧ dcorB (dcorAt (va 68) 8 (2 ^ 24) 16 Huddle.reset) (fun _ _ row n => n ≤ 2 ^ 24 && row % 8 ≠ 0) = true
    ∧ dcorB (dcorAt (va 64) 8 0 0 Huddle.reset) (fun u _ row n => n ≤ 2 ^ 24 && row % 8 = 0
      && ((u.core 0).huddle 2).count = 0) = true := by decide +kernel

/-- A descriptor's value of 64 bits at a register. -/
def desc2 (u : State) (k : Nat) : Nat := (u.descReg 0 80 k).v.toNat + 2 ^ 32 * (u.descReg 0 80 (k + 1)).v.toNat

/-- A misaligned stride, x and b; the round limit with and without DIVST; and a full round. -/
theorem witness_DefectCorrection_more :
    dcorB (dcorAt (va 64) 12 1 16 Huddle.reset) (fun u _ row n => n ≤ 2 ^ 24 && row % 8 = 0 && (u.descReg 0 80 2).v.toNat % 8 ≠ 0) = true
    ∧ dcorB (dcorAt (va 64) 8 1 16 Huddle.reset (va 68)) (fun u _ row _ => row % 8 = 0 && (u.descReg 0 80 2).v.toNat % 8 = 0
      && desc2 u 4 % 8 ≠ 0) = true
    ∧ dcorB (dcorAt (va 64) 8 1 16 Huddle.reset (va 64) (va 68)) (fun u _ row _ => row % 8 = 0 && (u.descReg 0 80 2).v.toNat % 8 = 0
      && desc2 u 4 % 8 = 0 && desc2 u 6 % 8 ≠ 0) = true
    ∧ (∀ d ∈ [0, 4], dcorB (dcorAt (va 64) 8 1 16 ⟨some 0, 2, 0, 0, 16, 0, []⟩ (va 64) (va 64) d) (fun u _ row n =>
      n ≤ 2 ^ 24 && row % 8 = 0 && (u.descReg 0 80 2).v.toNat % 8 = 0 && desc2 u 4 % 8 = 0 && desc2 u 6 % 8 = 0
        && ((u.core 0).huddle 2).owner = some u.cg.lid && ((u.core 0).huddle 2).signed < ((u.core 0).huddle 2).count
        && (if u.cg.ctl.dclim.n % 256 = 0 then 256 else u.cg.ctl.dclim.n % 256) ≤ ((u.core 0).huddle 2).rounds
        && (u.cg.ctl.divst == decide (d ≠ 0))) = true)
    ∧ (dcorAt (va 64) 8 1 16 ⟨some 0, 1, 1, 0, 0, 0, []⟩).roundFull 2 = true := by decide +kernel

/-- A round of one DCOR.D of one column, over zeros: its rows pass. -/
def dcorSig (s : State) (b : Nat) : Sig := ⟨0, (s.grp 0).uid, 0, 3, 0#32, 0#32, [], [6, 0, va 64, 8, 1, va 128, b, 0x3CD0000000000000], false, 0⟩

def dcorRoundState (b : Nat) : State :=
  let s := launched (mapped ((State.reset.withClause (clauseWith .nop [])).updGrp 0 fun g => { g with parks := [⟨[0], .huddle 2⟩] }))
  let t := { s with mem := s.mem.store (globalKey 0 256) (leBytes 8 0x3FF0000000000000) false false 0 }
  t.updHuddle 0 2 fun _ => ⟨some 0, 1, 1, 0, 0, 0, [dcorSig t b]⟩

def dcorRoundB (s : State) (pass : Bool) : Bool :=
  let hd := (s.core 0).huddle 2
  match hd.sigs with
  | [a] => 0 < hd.count && hd.signed = hd.count && a.kind = 3 && !s.undrained (s.agent a.gid a.tix) && !s.fencexHolds 0 .G a.id
    && match s.roundRes ⟨⟨.G, 0, a.gid, a.uid⟩, 0, hd.owner.getD 0, (s.grp a.gid).ctx⟩ hd.sigs with
      | (_, some rs) => (rs.all fun e => match e.2 with
          | .ok r => r.pass
          | .error _ => false) == pass
      | _ => false
  | _ => false

/-- A signer's group, and the last pair of registers of its thread. -/
theorem witness_DefectCorrection_end : let s := dcorRoundState (va 192)
    let x : Sig := { dcorSig s (va 192) with vals := [78] }
    s.hasGrp x.gid = true ∧ (s.grp x.gid).uid = x.uid ∧ (s.grp x.gid).threads.length = 16 ∧ x.tix < 16
    ∧ (s.thr x.gid x.tix).x.length = 80 ∧ x.vals.getD 0 0 + 1 < 80 := by decide +kernel

/-- A right side of 0 passes, and one of 1 does not. -/
theorem witness_DefectCorrection_round :
    dcorRoundB (dcorRoundState (va 192)) true = true ∧ dcorRoundB (dcorRoundState (va 256)) false = true := by decide +kernel

/-! ### Engine commands -/

/-- The group's state outside any instruction, in a launch, with its first GiB mapped. -/
def idle (f : Group → Group := id) : State :=
  launched (mapped ((State.reset.withClause (clauseWith .nop [])).updGrp 0 f))

def cpyAt (v off len : Nat) : State :=
  at_ (.cpyGa 3#7 4#7 6#7 7#3) [] (fun g => setX 3 off false (setX 6 len false (setVa 4 v g))) fun s => launched (mapped s)

def cpywAt (t : Tag) (xs : List Xfer) : State :=
  at_ (.cpyw 1#3) [] (fun g => { g with tags := g.tags.set 1 t }) fun s =>
    (launched s).updCore 0 fun k => { k with xfers := xs.map fun x => { x with uid := (s.grp 0).uid } }

def xferState (x : Xfer) : State := (idle).updCore 0 fun k => { k with xfers := [x] }

theorem witness_Copies :
    (Turn (.cpyGa 3#7 4#7 6#7 7#3) (cpyAt 64 32 32) fun u v => v.b.lo.toNat ≤ 32 && v.a.toNat % 32 = 0 && v.d.lo.toNat % 32 = 0
      && (u.core 0).xfers.length + ((cpyAt 64 32 32).turns (.cpyGa 3#7 4#7 6#7 7#3)).length ≤ 1024)
    ∧ (Turn (.cpyGa 3#7 4#7 6#7 7#3) (cpyAt 64 32 33) fun _ v => 32 < v.b.lo.toNat)
    ∧ (Turn (.cpyGa 3#7 4#7 6#7 7#3) (cpyAt 80 32 0) fun _ v => v.b.lo.toNat ≤ 32 && v.a.toNat % 32 ≠ 0)
    ∧ (Turn (.cpyGa 3#7 4#7 6#7 7#3) (cpyAt 64 8 32) fun _ v => v.b.lo.toNat ≤ 32 && v.a.toNat % 32 = 0 && v.d.lo.toNat % 32 ≠ 0)
    ∧ (let s := cpywAt ⟨1, 0, 0, 0⟩ []
      s.Issues (.cpyw 1#3) s.cg ∧ s.cg.parks = [] ∧ s.xfersOf 0 1 = [] ∧ (s.cg.tag 1).err = 0)
    ∧ (let s := cpywAt ⟨1, 0x14, 0, 1⟩ []
      s.Issues (.cpyw 1#3) s.cg ∧ s.cg.parks = [] ∧ s.xfersOf 0 1 = [] ∧ (s.cg.tag 1).err ≠ 0)
    ∧ (let s := cpywAt ⟨1, 0, 0, 0⟩ [xfer0]
      s.Issues (.cpyw 1#3) s.cg ∧ s.cg.parks = [] ∧ ∃ x ∈ s.xfersOf 0 1, x.seq = (s.cg.tag 1).issued) :=
  ⟨turn_of (by decide +kernel), turn_of (by decide +kernel), turn_of (by decide +kernel), turn_of (by decide +kernel),
    ⟨issues_of (by decide +kernel), by decide +kernel, by decide +kernel, by decide +kernel⟩,
    ⟨issues_of (by decide +kernel), by decide +kernel, by decide +kernel, by decide +kernel⟩,
    issues_of (by decide +kernel), by decide +kernel, by decide +kernel⟩

/-- A copy engine that has no room for the path, and the largest address and offset of a transfer. -/
theorem witness_Copies_full :
    (let s := at_ (.cpyGa 3#7 4#7 6#7 7#3) [] id fun s => (launched s).updCore 0 fun k => { k with xfers := List.replicate 1024 xfer0 }
    issuesB s (.cpyGa 3#7 4#7 6#7 7#3) = true ∧ 1024 < (s.core s.cg.core).xfers.length + (s.turns (.cpyGa 3#7 4#7 6#7 7#3)).length)
    ∧ 2 ^ 31 ≤ ((2 ^ 32 - 1) + 2 ^ 32 - 0) % 2 ^ 32 := by decide +kernel

/-- A transfer that completes. -/
theorem witness_Copies_transfer : let s := xferState xfer0
    let w : Who := ⟨⟨.C, 0, xfer0.gid, xfer0.id⟩, 0, xfer0.lid, xfer0.ctx⟩
    (s.core 0).xfers[0]? = some xfer0 ∧ s.engHeld 0 xfer0.ctx .C xfer0.id = false ∧ s.xferBehind 0 xfer0 = false
    ∧ xfer0.logged = false ∧ xfer0.got = none ∧ 0 < xfer0.len ∧ xfer0.va + xfer0.len ≤ spcSize .global ∧ xfer0.off + 32 ≤ spcSize .A
    ∧ (match s.engFetch w 3 .global xfer0.va xfer0.len with
      | (s2, .ok bs p) => match (s2.updXfer 0 xfer0.id fun y => { y with got := some (bs, p, false) }).engWrite1 w xfer0.uid
          ⟨.A, xfer0.off, (bs ++ List.replicate 32 0#8).take 32, xfer0.p || p, false, false⟩ xfer0.pstop with
        | (s3, .ok _ _) => !s3.sideWaits w
        | _ => false
      | _ => false) = true := by decide +kernel

/-- The commands' instructions, at aligned addresses and at a misaligned one; SUBF on an entry that has lapsed. -/
def landed (st : LandSt) (s : State) : State := s.updCore 0 fun k => { k with lands := [⟨3, 0, st, 0, 0, 1, ⟨1, 0, 64, 0, 0⟩, none⟩] }

theorem witness_EngineCommands :
    (Turn (.bcpy 3#7 6#7 4#7) (at_ (.bcpy 3#7 6#7 4#7) [] (fun g => setVa 4 64 (setX 3 64 false g))) fun _ v =>
      match cmdRow v (.bcpy 3#7 6#7 4#7) with
      | some r => r.algn.all fun e => e.1 % e.2 = 0
      | none => false)
    ∧ (Turn (.coll 5#7 3#7) (at_ (.coll 5#7 3#7) [] (setX 3 32)) fun _ v =>
      match cmdRow v (.coll 5#7 3#7) with
      | some r => r.algn.any fun e => e.1 % e.2 ≠ 0
      | none => false)
    ∧ (Turn (.subf 5#7 3#7) (at_ (.subf 5#7 3#7) [] id (landed .live)) fun u _ => ((u.core 0).land? 3).map LandEnt.st = some .live)
    ∧ (Turn (.subf 5#7 3#7) (at_ (.subf 5#7 3#7) [] id (landed .lapsed)) fun u _ => ((u.core 0).land? 3).map LandEnt.st = some .lapsed)
    ∧ (cmdRow Vals.zero (.subfSrc 120#7)).isSome = true :=
  ⟨turn_of (by decide +kernel), turn_of (by decide +kernel), turn_of (by decide +kernel), turn_of (by decide +kernel),
    by decide⟩

def amsgAt (entry w : Nat) : State :=
  at_ (.amsg 5#7 2#7 6#7 1#3 7#7) [] (fun g => setX 2 entry false (setX 6 w false g)) launched

def pitchAt (w : Nat) : State := at_ (.pitch 5#7 2#7 6#7 8#7) [] (setX 6 w) launched

/-- A program with queue 0 bound to the group in slot 0. -/
def prog0 : Prog := ⟨7, 0, 0, 0, 0, 0, 0, 1, List.replicate 8 Reg.zero, List.replicate 32 Reg.zero, CReg.of 0, [0], false, 0, 0⟩

def pitching (n : Nat) (s : State) : State :=
  s.updCore 0 fun k => { k with run := some prog0, pqs := k.pqs.set 0 ⟨some (0, 0, 0), List.replicate n [], 7, none⟩ }

/-- The pitcher's group stands at a QPUSH with its queue at a length. -/
def qpushAt (n : Nat) : State :=
  at_ (.qpush 0#7 3#7) [] (fun g => { g with kind := .pitcher }) (pitching n)

def qpushB (s : State) (c : PQ → Bool) : Bool :=
  let i : Instr := .qpush 0#7 3#7
  (kfind s.groups s.cur.gid).isSome && s.cg.kind = .pitcher && s.sweep = Sweep.reset && s.cur.mask = [0]
    && reads s i (fun u _ => u = s) && legal s.cg.regs i && (s.core 0).run = some prog0 && prog0.queues.contains 0
    && c ((s.core 0).pqs.getD 0 PQ.reset)

theorem witness_MessagesAndPrograms :
    (Turn (.amsg 5#7 2#7 6#7 1#3 7#7) (amsgAt 4 0) fun u v => (u.payload 0 7 1).isSome && v.a.toNat = 4
      && v.b.lo.toNat / 2 ^ 16 % 2 ^ 15 = 0 && u.syncReady (u.who 0 0) = .go)
    ∧ (Turn (.amsg 5#7 2#7 6#7 1#3 7#7) (amsgAt 0 0) fun u v => (u.payload 0 7 1).isSome && v.a.toNat = 0)
    ∧ (Turn (.amsg 5#7 2#7 6#7 1#3 7#7) (amsgAt 2 0) fun u v => (u.payload 0 7 1).isSome && v.a.toNat % 4 ≠ 0)
    ∧ (Turn (.pitch 5#7 2#7 6#7 8#7) (pitchAt 8) fun u v => (u.payload 0 8 8).isSome && u.bindOk 0 0 v.b.lo.toNat
      && (u.core 0).starts.length < 8)
    ∧ (Turn (.pitch 5#7 2#7 6#7 8#7) (pitchAt 0x88) fun u v => !u.bindOk 0 0 v.b.lo.toNat)
    ∧ qpushB (qpushAt 63) (fun e => e.entries.length < 64 && e.bound.isSome && e.prog = prog0.id) = true
    ∧ qpushB (qpushAt 64) (fun e => 64 ≤ e.entries.length) = true
    ∧ (let s := at_ .qdrn [] id (pitching 0)
      s.Issues .qdrn s.cg ∧ (s.core 0).run = some prog0 ∧ prog0.gid = 0)
    ∧ (let s := at_ .qdrn
      s.Issues .qdrn s.cg ∧ (s.core 0).run = none)
    ∧ (let s := (idle).updCore 0 fun k => { k with starts := [prog0] }
      (s.core 0).run = none ∧ (s.core 0).starts = [prog0])
    ∧ let s := (idle).updCore 0 fun k => { k with run := some prog0 }
      (s.core 0).run = some prog0 ∧ prog0.queues ≠ [] ∧ ∀ q ∈ prog0.queues, ((s.core 0).pqs.getD q PQ.reset).bound = none :=
  ⟨turn_of (by decide +kernel), turn_of (by decide +kernel), turn_of (by decide +kernel), turn_of (by decide +kernel),
    turn_of (by decide +kernel), by decide +kernel, by decide +kernel, ⟨issues_of (by decide +kernel), by decide +kernel, by decide +kernel⟩,
    ⟨issues_of (by decide +kernel), by decide +kernel⟩, by decide +kernel, by decide +kernel⟩

/-- A command of the group in slot 0. -/
def cmd0 (k : CmdKind) (stage : Nat) (word : Option (Spc × Nat)) : Cmd :=
  ⟨9, 0, 0, 0, 0, 0, .C, k, stage, 1, 3, [], [], word, none, true, false, [], 0, [], 0, 0, none, []⟩

def cmdState (c : Cmd) (f : Core → Core) : State := (idle).updCore 0 fun k => f { k with cmds := [c] }

def land0 (st : LandSt) (lid : Nat) : LandEnt := ⟨3, lid, st, 0, 0, 1, ⟨1, 0, 64, 0, 0⟩, none⟩
def upd0 : Upd := ⟨8, 1, 0, 3, 0, 1, [(0, 7#8, false, false)]⟩
def src0 : SrcEnt := ⟨0, 0, 64, 5, [(0, 3)], [(0, [⟨[(4, 0#8), (5, 0#8)], [(0, false, false)], 1⟩])]⟩

/-- Commands whose outcome stands, with and without a word; a core's landing entries; a batch; and an update. -/
theorem witness_CommandEvents :
    (∀ wd ∈ [none, some (Spc.global, va 64)], let c := cmd0 (.subx 3) 3 wd
    let s := cmdState c id
    (s.core 0).cmds[0]? = some c ∧ s.engHeld 0 c.ctx c.path c.id = false ∧ c.unchecked = false ∧ s.sideRefused (c.who 0) = none
      ∧ s.sideWaits (c.who 0) = false ∧ (∀ a ∈ c.word, s.lineBehind 0 c a.1 a.2 = false)
      ∧ isOk (s.reach (c.who 0) { Acc.write .global (va 64) 4 false with kind := 4, sync := true }).2 = true)
    ∧ (∀ k ∈ [CmdKind.subf 3, .subx 3], ∀ l ∈ [none, some (land0 .live 0), some (land0 .lapsed 0), some (land0 .binding 0)],
      let s := cmdState (cmd0 k 0 none) fun k => { k with lands := l.toList, srcs := [src0] }
      (s.core 0).cmds[0]? = some (cmd0 k 0 none) ∧ (s.core 0).land? 3 = l ∧ s.srcOf 0 (land0 .live 0) = some 0)
    ∧ (let s := (idle).updCore 0 fun k => { k with srcs := [src0] }
      (s.core 0).srcs[0]? = some src0 ∧ (kfind src0.open_ 0).isSome = true)
    ∧ (∀ l ∈ [none, some (land0 .live 0), some (land0 .live 1), some (land0 .lapsed 0)],
      let s := (idle).updCore 0 fun k => { k with upds := [upd0], lands := l.toList }
      (s.core 0).upds[0]? = some upd0 ∧ (s.core 0).land? upd0.n = l) := by decide +kernel

/-- A command whose result goes to a g register behind an earlier one of its sweep; a SUBX whose word does not fit; and an entry
that takes an update, by its binding or by that of a copy on its way, or does not. -/
theorem witness_CommandEvents_more :
    (let c := { cmd0 (.subx 3) 3 none with dst := some ⟨80, none, false⟩ }
    let b := { c with id := 8, stage := 1 }
    let s := (idle).updCore 0 fun k => { k with cmds := [b, c] }
    (s.core 0).cmds[1]? = some c ∧ s.resultBehind 0 c = true ∧ s.sideRefused (c.who 0) = none ∧ s.engHeld 0 c.ctx c.path c.id = false)
    ∧ (let c := { cmd0 (.subx 3) 3 (some (.global, va 64)) with dst := some ⟨80, none, false⟩ }
    let b := { c with id := 8, stage := 1, word := none }
    let s := (idle).updCore 0 fun k => { k with cmds := [b, c] }
    (s.core 0).cmds[1]? = some c ∧ s.lineBehind 0 c .global (va 64) = false ∧ s.sideWaits (c.who 0) = false ∧ c.unchecked = false
      ∧ s.engHeld 0 c.ctx c.path c.id = false ∧ s.sideRefused (c.who 0) = none
      ∧ (match s.reach (c.who 0) { Acc.write .global (va 64) 4 false with kind := 4, sync := true } with
        | (u, .ok key _) => (u.put (c.who 0) { Acc.write .global (va 64) 4 false with kind := 4, sync := true } key
            (leBytes 4 (2 ^ 24 + 3)) c.p false true).resultBehind 0 c
        | _ => false) = true)
    ∧ (2 ^ 23 < (2 ^ 23 - 3) + 4)
    ∧ (∀ l ∈ [land0 .live 0, { land0 .lapsed 0 with sync := some ⟨1, 0, 64, 0, 0⟩ }], l.lid = upd0.lid
      ∧ ((l.st ≠ .lapsed ∧ l.b.bid = upd0.bid) ∨ (l.sync.map Binding.bid) = some upd0.bid))
    ∧ ((land0 .live 0).b.bid = upd0.bid ∧ (land0 .lapsed 0).st = .lapsed ∧ (land0 .lapsed 0).sync = none) := by decide +kernel

/-- SUBS of a record at 64 of the A space for 64 bytes of core 1. -/
def subsState : State :=
  let s := cmdState (cmd0 (.subs false 3 64) 0 none) fun k =>
    { k with spaces := k.spaces.map fun x => { x with blocks := [(0, .phys 0)] } }
  let s := s.updCore 1 fun k => { k with spaces := [⟨0, 0, 0, CReg.of 0x200, [], false, 0⟩] }
  { s with mem := s.mem.store (aKey 0 0 64) (leBytes 4 0 ++ leBytes 4 64 ++ leBytes 4 1 ++ leBytes 20 0) false false 0 }

theorem witness_CommandEvents_bind : let c := cmd0 (.subs false 3 64) 0 none
    (subsState.core 0).cmds[0]? = some c ∧ subsState.engHeld 0 c.ctx c.path c.id = false
    ∧ (match (subsState.updCmd 0 c.id fun x => { x with seen := 0 }).engRead (c.who 0) .A 64 32 with
      | (s2, .ok bs p) => match SubRec.parse bs with
        | some r => let u := s2.updCmd 0 c.id fun x => { x with word := some (.A, recW bs 16), p := x.p || p }
          recW bs 16 % 4 = 0 && recW bs 16 + 4 ≤ 2 ^ 23 && u.subsOk 0 c.lid 3 false r && (u.entryFor c.lid r).isSome
        | none => false
      | _ => false) = true := by decide +kernel

/-- Two ranks of a sum of one element, of which one has arrived. -/
def mem0 (r : Nat) (cmd : Option Nat) (table : List Nat) (got : Bool) : Member :=
  ⟨r, [0, 0, 0, 4, 8, 0, 1, 1, 0], table, 0, cmd, 0, 0, 0, [⟨1, false, false⟩], 0, got, false, .global, va 64, 4⟩
def coll0 (table : List Nat) (ms : List Member) (refused : Nat) : Coll := ⟨1, 0, 0, ms.map fun m => { m with table := table }, [], refused⟩

/-- The command 9 is a COLL in a stage, and its collective is `c`. -/
def collState (stage : Nat) (c : Coll) : State := { cmdState (cmd0 (.coll 64) stage none) id with colls := [c] }

theorem witness_CommandEvents_collective :
    (∀ u ∈ [0, 9], let c := { coll0 [0, 0] [mem0 0 (some 9) [] false] 0 with members := [{ mem0 0 (some 9) [0, 0] false with until_ := u }] }
    let s := collState 1 c
    s.colls[0]? = some c ∧ c.rank? 0 = some { mem0 0 (some 9) [0, 0] false with until_ := u } ∧ c.members.length ≠ [0, 0].length
      ∧ s.cmd? 0 9 = some (cmd0 (.coll 64) 1 none) ∧ (s.now < u ↔ u = 9))
    ∧ (let c := coll0 [0] [mem0 0 (some 9) [] false] 0
    let s := collState 1 c
    s.colls[0]? = some c ∧ c.rank? 0 = some (mem0 0 (some 9) [0] false) ∧ s.cmd? 0 9 = some (cmd0 (.coll 64) 1 none)
      ∧ c.members.length = [0].length ∧ s.engHeld 0 0 .C 9 = false)
    ∧ (let c := coll0 [0] [mem0 0 none [] false] 0
    (collState 1 c).colls[0]? = some c ∧ c.rank? 0 = some (mem0 0 none [0] false) ∧ c.members.length = [0].length) := by decide +kernel

/-- Collectives of which every rank has its destination, one was refused, or one still waits. -/
theorem witness_CommandEvents_settled : ∀ r ∈ [0, 1], ∀ g ∈ [true, false],
    let c := coll0 [0, 0] [mem0 0 (some 9) [] true, mem0 1 none [] g] r
    let s := collState 6 c
    let x := cmd0 (.coll 64) 6 none
    (s.core 0).cmds[0]? = some x ∧ s.engHeld 0 x.ctx x.path x.id = false ∧ s.sideRefused (x.who 0) = none
    ∧ s.collOf 0 9 = some (c, mem0 0 (some 9) [0, 0] true) ∧ ((∃ y ∈ c.members, y.got = false) ↔ g = false)
    ∧ c.refused = r ∧ (mem0 0 (some 9) [0, 0] true).rank = 0 := by decide +kernel

/-- A rank on another device whose delivery finds no link, one that holds its traffic, and one that is trained. -/
theorem witness_CommandEvents_far : let m : Member := { mem0 0 none [0] false with daddr := 5 * 2 ^ 52 }
    let c := coll0 [0] [m] 0
    ∀ ls ∈ [[], [LinkSt.retraining], [LinkSt.trained]], let s := { collState 1 c with dev := { (collState 1 c).dev with links := ls } }
    s.colls[0]? = some c ∧ c.rank? 0 = some m ∧ m.got = false ∧ c.members.length = m.table.length ∧ m.cmd = none
      ∧ (s.linkOf m.daddr = none ↔ ls = []) ∧ ((s.linkOf m.daddr).map s.link = some .trained ↔ ls = [.trained]) := by decide +kernel

/-! ### The matrix engine -/

def tileAt (i : Instr) (f : Group → Group := id) (h : State → State := id) (lits : List Word := []) : State :=
  at_ i lits f fun s => h (launched (mapped s))

/-- A round of matrix operations that is full stands before the tile. -/
def roundDue (s : State) : State :=
  s.updHuddle 0 1 fun _ => ⟨some 0, 1, 1, 0, 0, 0, [{ sig0 s 0 1 with w := (encode mma0).headD 0#32, u := (encode mma0).getD 1 0#32 }]⟩
where mma0 : Instr := .mma 84#7 85#7 86#7 0#7 1#4 0#2 0#1 10#4 10#4 0#1 0#2

/-- No full round stands before the instruction, and nothing holds the engine's stream. -/
def matrixFree (s : State) : Bool := !s.roundDue 0 && !s.engHeld 0 s.cg.ctx .G s.nextId

theorem witness_TileCommands :
    (let s := tileAt (.mzero 3#2)
    s.Issues (.mzero 3#2) s.cg ∧ matrixFree s = true ∧ ((s.core 0).tile 3).due = false)
    ∧ (let s := tileAt (.mzero 3#2) id roundDue
      s.Issues (.mzero 3#2) s.cg ∧ s.roundDue 0 = true)
    ∧ (let s := tileAt (.mzero 3#2) id fun s => s.updCore 0 fun k => { k with engFrozen := [0] }
      s.Issues (.mzero 3#2) s.cg ∧ s.roundDue 0 = false ∧ s.engHeld 0 s.cg.ctx .G s.nextId = true)
    ∧ (∀ n ∈ [16, 512, 513], let i : Instr := .mcfg 80#7 3#2 1#4
      let s := tileAt i fun g => { g with g := g.g.set 0 ⟨BitVec.ofNat 32 n, false⟩ }
      issuesB s i = true ∧ popNames i = [] ∧ matrixFree s = true ∧ ((s.core 0).tile 3).smx = none
        ∧ reads s i (fun u v => u = s && v.a.lo.toNat = n) = true)
    ∧ (let i : Instr := .mcfg 0#7 3#2 0#4
      let s := tileAt i
      issuesB s i = true ∧ popNames i = [] ∧ matrixFree s = true ∧ reads s i (fun u _ => u = s) = true)
    ∧ (let i : Instr := .mol 80#7 3#2
      let s := tileAt i
      s.Issues i s.cg ∧ popNames i = [] ∧ matrixFree s = true ∧ reads s i (fun u _ => u = s) = true)
    ∧ (let i : Instr := .mstat 5#7 3#2 1#1
      let s := tileAt i
      s.Issues i s.cg ∧ popNames i = [] ∧ matrixFree s = true) :=
  ⟨⟨issues_of (by decide +kernel), by decide +kernel, by decide +kernel⟩, ⟨issues_of (by decide +kernel), by decide +kernel⟩,
    ⟨issues_of (by decide +kernel), by decide +kernel, by decide +kernel⟩,
    by decide +kernel, by decide +kernel,
    ⟨issues_of (by decide +kernel), by decide +kernel, by decide +kernel, by decide +kernel⟩,
    issues_of (by decide +kernel), by decide +kernel, by decide +kernel⟩

/-- GATH of 64 rows at `base`. -/
def gath0 : Instr := .gath 0#7 80#7 81#7 8#7 0#1 10#4 0#1 0#2
def gathAt (base : Nat) : State :=
  tileAt gath0 fun g => { g with g := (g.g.set 0 ⟨BitVec.ofNat 32 base, false⟩).set 1 ⟨64#32, false⟩ }

/-- The 64 indices of the threads, which are all 0. -/
def gathB (s : State) (ok : Bool) : Bool :=
  issuesB s gath0 && popNames gath0 = [] && matrixFree s
    && ((List.range 64).map (s.indexReg 8)).all (fun r => r = some Reg.zero)
    && match s.readOps s.cur.gid (s.cur.mask.headD 0) ((operands gath0).filter fun o => o.fld ≠ .C) Vals.zero with
      | (s1, .ok v) => match (s1.latchRows (fun s n => s.plainRow (s1.matrixWho s.cur.gid) .A 10 v.a.lo.toNat v.b.lo.toNat v.d.lo.toNat false n)
          (List.replicate 64 0)).2 with
        | .ok _ => ok
        | .error (.fault _ _) => !ok
        | .error _ => false
      | _ => false

/-- GATH at an aligned base and at one that no row may have; CVTB of zeros, and at misaligned addresses. -/
theorem witness_GathersAndBlocks : gathB (gathAt 0) true = true ∧ gathB (gathAt 4) false = true := by decide +kernel

def cvtbAt (src dst : Nat) : State := tileAt (.cvtb 2#7 3#7 4#7 10#4) fun g => setX 2 dst false (setX 3 src false (setX 4 512 false g))

theorem witness_GathersAndBlocks_cvtb :
    (Turn (.cvtb 2#7 3#7 4#7 10#4) (cvtbAt 0 256) fun u v => v.a.lo.toNat % 4 = 0 && v.d.lo.toNat % 32 = 0
      && match u.threadReads (u.who 0 0) (chunks v.a.lo.toNat 128) with
        | (s3, .ok bs) =>
          let x := mxEncode 10 s3.cg.ctl.rm (List.replicate 32 0) (unpack 0x8 32 bs)
          let fl := x.flags ||| (if x.isNan then 16 else 0) ||| (if x.isUf then 2 else 0)
          let s6 := s3.raiseFlags fl
          s3.cg.ctl.rm ≠ 4 && (fl &&& s3.cg.ctl.ten) = 0
            && match s6.reach (s6.who 0 0) (Acc.write .A v.d.lo.toNat (pack 10 x.codes).length false) with
              | (s4, .ok _ _) => isOk (s4.reach (s6.who 0 0) (Acc.write .A v.c.lo.toNat 1 false)).2
              | _ => false
        | _ => false)
    ∧ (Turn (.cvtb 2#7 3#7 4#7 10#4) (cvtbAt 2 256) fun _ v => v.a.lo.toNat % 4 ≠ 0)
    ∧ (Turn (.cvtb 2#7 3#7 4#7 10#4) (cvtbAt 0 16) fun _ v => v.a.lo.toNat % 4 = 0 && v.d.lo.toNat % 32 ≠ 0) :=
  ⟨turn_of (by decide +kernel), turn_of (by decide +kernel), turn_of (by decide +kernel)⟩

def mma0 : Instr := .mma 84#7 85#7 86#7 0#7 1#4 0#2 0#1 10#4 10#4 0#1 0#2

/-- An MMA of N = 16 that issues, with its huddle armed for two signatures or disarmed, and the operand B at `b`. -/
def mmaAt (hd : Huddle) (b : Nat) : State :=
  tileAt mma0 (fun g => { g with g := ((g.g.set 4 ⟨16#32, false⟩).set 5 ⟨BitVec.ofNat 32 b, false⟩).set 6 ⟨32#32, false⟩ }) fun s =>
    s.updHuddle 0 1 fun _ => hd

/-- A full round of a matrix instruction with N columns. -/
def matRound (i : Instr) (kind n b : Nat) : State :=
  let s := idle fun g => { g with role := 2 }
  let x : Sig := { sig0 s 0 kind with w := (encode i).headD 0#32, u := (encode i).getD 1 0#32, vals := [n, b, 2 * n, 0, 2, 0] }
  (s.updCore 0 fun k => { k with latches := [⟨List.replicate 64 (List.replicate 64 0x38#8), [], 64, false, false, false⟩] }).updHuddle 0 1
    fun _ => ⟨some 0, 1, 1, 0, 0, 0, [x]⟩

def mmaRoundState (b : Nat) : State := matRound mma0 1 16 b

/-- MMAS.V of 16 columns on tile 0, a SOFTMAX tile whose scores are tile 1. -/
def mmas0 : Instr := .mmasV 84#7 85#7 86#7 0#7 1#4 0#2 10#4 10#4 0#1 0#1

def mmasRoundState (due : Bool) : State :=
  ((matRound mmas0 2 16 0).updTile 0 0 fun t => { t with smx := some (1, 16) }).updTile 0 1 fun t => { t with held := true, due := due }

def mmaRoundB (s : State) (ok : Bool) : Bool :=
  let hd := (s.core 0).huddle 1
  match hd.sigs with
  | [z] =>
    let w : Who := ⟨⟨.G, 0, z.gid, s.nextId⟩, 0, hd.owner.getD 0, (s.grp z.gid).ctx⟩
    let o := mopOf z.w z.u
    let n := fun (j : Nat) => z.vals.getD j 0
    0 < hd.count && hd.signed = hd.count && (z.kind = 1 || z.kind = 2) && !s.undrained (s.agent z.gid z.tix) && !s.engHeld 0 (s.grp z.gid).ctx .G z.id && !((s.core 0).tile o.tile).due
      && (match ((s.core 0).tile o.tile).smx with
        | some e => o.form = 2 && !((s.core 0).tile e.1).due
        | none => o.form = 0) && !(s.core 0).draining
      && match (s.mmaRound w o (n 0) (n 1) (n 2) (n 3) (n 4) (n 5 = 1 || hd.sigs.any Sig.p)).2 with
        | .ok () => ok
        | .error (.fault _ _) => !ok
        | .error _ => false
  | _ => false

/-- MMA at an armed huddle and at one that is disarmed; and rounds that run and that fault at a misaligned B. -/
theorem witness_MatrixRounds :
    (∀ hd ∈ [⟨some 0, 2, 0, 0, 0, 0, []⟩, Huddle.reset], let s := mmaAt hd 0
      issuesB s mma0 = true ∧ popNames mma0 = [] ∧ matrixFree s = true ∧ reads s mma0 (fun u v => v.d.lo.toNat = 16
        && u.syncReady (u.who 0 0) = .go && (u.core 0).huddle 1 = hd) = true)
    ∧ mmaRoundB (mmaRoundState 0) true = true ∧ mmaRoundB (mmaRoundState 16) false = true := by decide +kernel

/-- A round on a SOFTMAX tile; and one of two signatures that disagree. -/
theorem witness_MatrixRounds_more : mmaRoundB (mmasRoundState false) true = true ∧ mmaRoundB (mmasRoundState true) true = false
    ∧ let s := matRound mma0 1 16 0
      let u := s.updHuddle 0 1 fun h => { h with count := 2, signed := 2, sigs := h.sigs ++ [sig0 s 0 0] }
      ((u.core 0).huddle 1).sigs.head?.map Sig.kind = some 1 ∧ ((u.core 0).huddle 1).sigs.getLast? = some (sig0 s 0 0)
        ∧ ((u.core 0).huddle 1).signed = ((u.core 0).huddle 1).count ∧ (∃ x ∈ ((u.core 0).huddle 1).sigs, x.kind ≠ 1)
        ∧ (∀ x ∈ ((u.core 0).huddle 1).sigs, u.undrained (u.agent x.gid x.tix) = false)
        ∧ u.engHeld 0 (u.grp 0).ctx .G (sig0 s 0 0).id = false := by decide +kernel

/-- MMA behind a full round of its huddle. -/
theorem witness_MatrixRounds_full : let s := mmaAt ⟨some 0, 1, 1, 0, 0, 0, []⟩ 0
    issuesB s mma0 = true ∧ matrixFree s = true ∧ s.roundFull 1 = true ∧ (mmaAt ⟨some 0, 2, 0, 0, 0, 0, []⟩ 0).roundFull 1 = false := by
  decide +kernel

/-- A drain descriptor at 64 of the A space: `ncol` columns of FP32 to the A space from 4096 on, in rows of 64 bytes. -/
def drainDesc (ncol : Nat) : List Byte :=
  leBytes 4 (2 ^ 28 + 2 ^ 26 + 8 * 2 ^ 22) ++ leBytes 4 ncol ++ leBytes 8 0 ++ leBytes 8 4096 ++ leBytes 4 64 ++ leBytes 36 0

def mdrn0 : Instr := .mdrn 3#7 4#7 0#2 0#4

def mdrnAt (desc word ncol : Nat) (f : Tile → Tile) : State :=
  tileAt mdrn0 (fun g => setVa 4 word (setX 3 desc false g)) fun s =>
    let m := s.mem.store (aKey 0 0 64) (drainDesc ncol) false false 0
    (State.updCore { s with mem := m } 0 fun k =>
      { k with spaces := k.spaces.map fun x => { x with blocks := [(0, .phys 0)] } }).updTile 0 0 f

def drainB (s : State) (c : State → Except Nat Unit → Bool) : Bool :=
  reads s mdrn0 fun u v =>
    let p := v.p || u.ambient [0]
    let x := u.cmdOf 0 ⟨[], .G, .mdrn 0, some (.global, v.c.toNat), none⟩ none p
    match u.drainDesc (x.who 0) v.a.lo.toNat with
    | (y, dp, .ok bs) => match y.drainPlan (x.who 0) 0 0 bs dp p with
      | (t, .ok _) => c t (.ok ())
      | (t, .error (.code n)) => c t (.error n)
      | _ => false
    | _ => false

/-- MDRN of a good descriptor, of a bad one, and of a tile whose operands were poisoned; at a misaligned descriptor
and at a misaligned word. -/
theorem witness_Drains :
    issuesB (mdrnAt 64 64 16 id) mdrn0 = true ∧ popNames mdrn0 = [] ∧ matrixFree (mdrnAt 64 64 16 id) = true
    ∧ reads (mdrnAt 64 64 16 id) mdrn0 (fun _ v => v.a.lo.toNat % 64 = 0 && v.c.toNat % 4 = 0) = true
    ∧ reads (mdrnAt 68 64 16 id) mdrn0 (fun _ v => v.a.lo.toNat % 64 ≠ 0) = true
    ∧ reads (mdrnAt 64 66 16 id) mdrn0 (fun _ v => v.a.lo.toNat % 64 = 0 && v.c.toNat % 4 ≠ 0) = true
    ∧ drainB (mdrnAt 64 64 16 id) (fun _ r => match r with
      | .ok _ => true
      | _ => false) = true
    ∧ drainB (mdrnAt 64 64 17 id) (fun _ r => match r with
      | .error n => n = 0x13
      | _ => false) = true
    ∧ drainB (mdrnAt 64 64 16 fun t => { t with poison := true }) (fun _ r => match r with
      | .error n => n = 0x10
      | _ => false) = true := by decide +kernel

/-- A tile whose check is outstanding. -/
theorem witness_Drains_check : let s := (idle).updTile 0 3 fun t => { t with due := true }
    ((s.core 0).tile 3).due = true ∧ (kfind s.cores 0).isSome = true ∧ 3 < (s.core 0).tiles.length := by decide +kernel

/-- A core on which another drain has writes to make, and one on which none has. -/
theorem witness_Drains_draining : ∀ n ∈ [1, 2],
    (((idle).updCore 0 fun k => { k with cmds := [cmd0 (.mdrn 0) n none] }).core 0).draining = decide (n = 2) := by decide +kernel

/-- The descriptors that the three tiles' drains read. -/
def drainReadB (s : State) (good : Bool) : Bool :=
  match s.engRead (s.who 0 0) .A 64 64 with
  | (s2, .ok bs _) => let d := Drain.read 0 bs
    (d.ok bs ((s2.core 0).tile 0).smx.isSome && d.fits) = good
  | _ => false

theorem witness_Drains_read : drainReadB (mdrnAt 64 64 16 id) true = true ∧ drainReadB (mdrnAt 64 64 17 id) false = true
    ∧ drainReadB (mdrnAt 64 64 16 fun t => { t with poison := true }) true = true := by decide +kernel

/-! ### Spawns, launches and bins -/

/-- A record of one gang of one group on one core (R71 to R73). -/
def record0 (hdr : Nat) : List Byte :=
  leBytes 4 hdr ++ leBytes 44 0 ++ leBytes 4 1 ++ leBytes 4 (2 ^ 31 + 0x33) ++ leBytes 56 0 ++ leBytes 4 0
    ++ leBytes 4 (2 ^ 31 + 2 ^ 6) ++ leBytes 136 0

def spawnAt (entry : Nat) (f : Core → Core) : State := at_ (.spawn 2#7 4#7 8#7) [] (setX 4 entry) fun s => s.updCore 0 f

/-- A bin of another entry. -/
def bin0 (n : Nat) : Bin := ⟨0, 0, n, [[]], 0, 0, 80, 0, false, false, false⟩

def launchAt (off hdr : Nat) (h : State → State) : State :=
  at_ (.launch 4#7) [] (setVa 4 off) fun s =>
    let m := launched (mapped s)
    h { m with mem := m.mem.store (globalKey 0 256) (record0 hdr) false false 0 }

theorem witness_SpawnsAndLaunches :
    (Turn (.spawn 2#7 4#7 8#7) (spawnAt 64 id) fun u v => v.a.toNat = 64 && ((u.core 0).binFor u.cg.lid 64).isSome
      && ((List.range 2).map fun k => u.cg.source u.free 0 (8 + k)).all Option.isSome)
    ∧ (Turn (.spawn 2#7 4#7 8#7) (spawnAt 64 fun k => { k with bins := (List.range 16).map fun n => bin0 (4 * n + 128) }) fun u v =>
      v.a.toNat = 64 && (u.core 0).binFor u.cg.lid 64 = none)
    ∧ (Turn (.spawn 2#7 4#7 8#7) (spawnAt 0 id) fun _ v => v.a.toNat = 0)
    ∧ (Turn (.spawn 2#7 4#7 8#7) (spawnAt 6 id) fun _ v => v.a.toNat % 4 ≠ 0)
    ∧ (Turn (.launch 4#7) (launchAt 256 (2 ^ 28) id) fun u v => v.a.toNat % 256 = 0 && (u.pool 0).length < 32
      && match u.recordLoad (u.who 0 0) (chunks v.a.toNat 256) with
        | (_, .ok bs) => recordOk bs
        | _ => false)
    ∧ (Turn (.launch 4#7) (launchAt 256 0 id) fun u v => v.a.toNat % 256 = 0 && (u.pool 0).length < 32
      && match u.recordLoad (u.who 0 0) (chunks v.a.toNat 256) with
        | (_, .ok bs) => !recordOk bs
        | _ => false)
    ∧ (Turn (.launch 4#7) (launchAt 128 0 id) fun _ v => v.a.toNat % 256 ≠ 0)
    ∧ (Turn (.launch 4#7) (launchAt 256 0 fun s => { s with launches := (List.range 32).map fun n => { launch0 with lid := n, queue := 64, started := false } })
      fun u v => v.a.toNat % 256 = 0 && 32 ≤ (u.pool 0).length) :=
  ⟨turn_of (by decide +kernel), turn_of (by decide +kernel), turn_of (by decide +kernel), turn_of (by decide +kernel),
    turn_of (by decide +kernel), turn_of (by decide +kernel), turn_of (by decide +kernel), turn_of (by decide +kernel)⟩

/-- LAUNCH of a record in a closed granule. -/
theorem witness_SpawnsAndLaunches_held : Turn (.launch 4#7) (launchAt 256 (2 ^ 28) closed0) fun u v => v.a.toNat % 256 = 0
    && (u.pool 0).length < 32 && match u.recordLoad (u.who 0 0) (chunks v.a.toNat 256) with
      | (_, .error (.closed, _)) => true
      | _ => false := turn_of (by decide +kernel)

def binState (b : Bin) (h : Core → Core) : State := (idle).updCore 0 fun k => h { k with bins := [b] }

def fullBin : Bin := { bin0 64 with threads := List.replicate 16 [⟨7#32, false⟩] }

theorem witness_BinsAndRetirement :
    (let s := binState fullBin id
    (s.core 0).bins[0]? = some fullBin ∧ (s.core 0).scan = false ∧ s.spaceOk 0 fullBin.lid = true
        ∧ fullBin.threads.length = 16 ∧ (s.binLane 0 fullBin.regs).isSome = true)
    ∧ (∀ n ∈ [0x200, 0x1FF], let s := { binState (bin0 64) id with now := n }
    ((s.core 0).space? (bin0 64).lid).map (fun p => decide ((bin0 64).since + max p.bint.n 1 ≤ s.now)) = some (n == 0x200))
    ∧ (∀ n ∈ [0, 1], let s := (idle).updCore 0 fun k => { k with spaces := k.spaces.map fun x => { x with bint := CReg.of 0 } }
    ((s.core 0).space? (bin0 64).lid).map (fun p => decide ((bin0 64).since + max p.bint.n 1 ≤ n)) = some (n == 1))
    ∧ (let s := { (idle).updPart 0 fun p => { p with quadmask := 1 } with dev := { (idle).dev with links := [.trained] } }
    s.link 0 = .trained ∧ (s.phys 0).isSome = true ∧ s.coreCtx 0 = some 0 ∧ (s.core 0).roomFor false = true)
    ∧ (let b := { bin0 64 with due := true }
      let s := binState b id
    (s.core 0).bins[0]? = some b ∧ b.due = true ∧ (s.binLane 0 b.regs).isSome = true)
    ∧ (let s := binState (bin0 64) id
    (s.core 0).bins[0]? = some (bin0 64) ∧ (bin0 64).threads.length < 16 ∧ (bin0 64).due = false)
    ∧ (let s := (idle).updCore 0 fun k => { k with inq := [⟨0, 64, [], false⟩] }
    (s.core 0).inq = [⟨0, 64, [], false⟩] ∧ (s.core 0).binFor (messageLid 0) 64 = some 0)
    ∧ (let s := (idle).updCore 0 fun k => { k with tracker := [⟨5, 9, 0, true⟩] }
    (s.core 0).tracker[0]? = some ⟨5, 9, 0, true⟩ ∧ s.drained 0 ⟨5, 9, 0, true⟩ = true
        ∧ (s.groups.filter fun e => e.2.core = 0 && e.2.liveTids.isEmpty) = [])
    ∧ let s := (idle).updCore 0 fun k => { k with tracker := [⟨0, 0, 0, true⟩], xfers := [xfer0] }
    (s.core 0).tracker[0]? = some ⟨0, 0, 0, true⟩ ∧ s.drained 0 ⟨0, 0, 0, true⟩ = false := by decide +kernel

/-- A message for a core's queue that is full for its class; one that another waits before; and one that waits while there is room,
with nothing behind it. -/
def msg0 (reply : Bool) : InMsg := ⟨0, 0, 64, [], reply, 0⟩

def msgState (n : Nat) (ms : List (Nat × Instr)) : State :=
  let s := ({ (idle).updPart 0 fun p => { p with quadmask := 1 } with dev := { (idle).dev with links := [.trained], linkIn := ms } } : State)
  s.updCore 0 fun k => { k with inq := List.replicate n ⟨0, 64, [], false⟩ }

theorem witness_BinsAndRetirement_late :
    (∀ e ∈ [(55, false), (56, false), (63, true), (64, true)], let s := msgState e.1 []
      s.link 0 = .trained ∧ (s.phys 0).isSome = true ∧ s.coreCtx 0 = some 0 ∧ (s.core 0).roomFor e.2 = decide (e.1 = 55 ∨ e.1 = 63))
    ∧ (let s := msgState 0 [(0, .activeMessageArrival (.far (msg0 false)))]
      (∃ x ∈ s.dev.linkIn, ∃ y, x.2 = .activeMessageArrival (.far y) ∧ y.core = 0 ∧ y.reply = false)
      ∧ s.dev.linkIn.find? (s.lateFor 0) = some (0, .activeMessageArrival (.far (msg0 false)))
      ∧ (s.updDev fun d => { d with linkIn := d.linkIn.erase (0, .activeMessageArrival (.far (msg0 false))) }).dev.linkIn = []) := by
  refine ⟨by decide +kernel, ⟨_, List.mem_singleton.2 rfl, _, rfl, rfl, rfl⟩, by decide +kernel, by decide +kernel⟩

/-- A bin of messages, whose role is the record's, while the message space has not opened; and the states of a link at which a
message does not arrive. -/
theorem witness_BinsAndRetirement_messages : let b := { bin0 64 with lid := messageLid 0, message := true, record := true }
    let s := binState b id
    (s.core 0).bins[0]? = some b ∧ (s.core 0).space? b.lid = none ∧ ((s.core 0).amRec b.ctx).regs = 16
    ∧ (s.binLane 0 16).isSome = true ∧ (s.core 0).scan = false
    ∧ ∀ l ∈ [LinkSt.untrained, .fenced, .retraining, .frozen], ({ s with dev := { s.dev with links := [l] } } : State).link 0 = l := by
  decide +kernel

/-! ### The scheduler -/

/-- Context 0 is bound and mapped, and its queue 0 holds the record at 256. -/
def queued (hdr : Nat) : State :=
  let m := mapped (State.reset.withClause (clauseWith .nop []))
  ({ m with mem := m.mem.store (globalKey 0 256) (record0 hdr) false false 0, groups := [] }).updQueue 0 0 fun q =>
    { q with ringbase := va 256, enable := true, tail := 1 }

theorem witness_SchedulerEvents_stage : ∀ h ∈ [2 ^ 28, 0], let s := queued h
    s.dev.safe = false ∧ s.dev.fenced = false ∧ (s.parts.getD 0 Part.reset).bound = true
    ∧ (s.parts.getD 0 Part.reset).drain = false ∧ (s.queue 0 0).enable = true ∧ (s.queue 0 0).frozen = false
    ∧ (s.queue 0 0).stage = none ∧ (s.queue 0 0).head ≠ (s.queue 0 0).tail
    ∧ (match (s.hwRead (hwWho 0 0) (((s.queue 0 0).ringbase + 256 * ((s.queue 0 0).head % (s.queue 0 0).ring)) % 2 ^ 64) 256).2 with
      | .ok bs _ => recordOk bs == (h != 0)
      | _ => false) = true := by decide +kernel

/-- An instance that is marked, and whose threads are in open regions. -/
def markedState : State := idle fun g => { g with
  kind := .spawned, marked := some ⟨3, none⟩
  threads := g.threads.map fun t => { t with region := ⟨true, 0, Reg.zero⟩ } }

def held0 : Held := ⟨0, 0, 0, 0, [⟨0, 0, 16, 0, 0, 64, [⟨.live, 64, ⟨7#32, false⟩⟩] ++ List.replicate 15 ⟨.ended, 0, Reg.zero⟩⟩], 0, 0⟩

def heldState (drain : Bool) : State :=
  let s := (idle)
  { s with groups := [], helds := [held0] }.updPart 0 fun p => { p with drain := drain }

/-- The context's save area lies in another device, to which no link is up. -/
def farSave (s : State) : State := s.updX 0 fun x => { x with savebase := 3 * 2 ^ 52 }

/-- The instance needs a block that is saved there. -/
def lostState : State := farSave ((heldState false).updCore 0 fun k => { k with
  spaces := [⟨0, 0, 0, CReg.of 0x200, [(0, .saved 0)], true, 0⟩] })

theorem witness_SchedulerEvents :
    (markedState.grp 0).marked.isSome = true ∧ markedState.restartable (markedState.instOf 0) = true
    ∧ ((idle).grp 0).marked = none
    ∧ (heldState false).helds[0]? = some held0 ∧ (heldState false).restartDue held0 = true
    ∧ ((heldState false).restartHeld held0).2 = true
    ∧ lostState.helds[0]? = some held0 ∧ lostState.restartDue held0 = true ∧ (lostState.restartHeld held0).2 = false
    ∧ (heldState true).helds[0]? = some held0 ∧ (heldState true).restartDue held0 = false
    ∧ (⟨.live, 64, ⟨7#32, false⟩⟩ : HeldThread).life = .live := by decide +kernel

/-- A first touch that waits while a held space of another launch holds every block. -/
def wantState : State := farSave ((idle).updCore 0 fun k => { k with
  want := true, spaces := k.spaces ++ [⟨3, 0, 1, CReg.of 0, (List.range 128).map fun n => (n, .phys n), true, 0⟩] })

theorem witness_SchedulerEvents_claim : (wantState.core 0).want = true ∧ (wantState.core 0).freeBlock? = none
    ∧ wantState.claimChoice 0 none = some (3, 127, 127, 1) ∧ (wantState.claim 0 3 127 1 127).2 ≠ .waits := by decide +kernel

/-- A restart that is placed, and one whose instance is abandoned where its block is lost. -/
theorem witness_SchedulerEvents_abandoned :
    ((heldState false).placeCand (.restart held0)).2 = true
    ∧ lostState.barred 0 (.restart held0) = false ∧ lostState.lapsedCand (.restart held0) = false
    ∧ (lostState.placeCand (.restart held0)).2 = false
    ∧ (lostState.placeCand (.restart held0)).1.lapsedCand (.restart held0) = true := by decide +kernel

/-- A watchdog at its budget, and one step before. -/
theorem witness_SchedulerEvents_watchdog : ∀ n ∈ [4, 3], let s := { (idle) with
      launches := [{ launch0 with f := { launch0.f with wdog := 4 } }] }.updQueue 0 0 fun q => { q with counter := n, wdog := 4 }
    s.budget 0 0 = 4 ∧ (s.queue 0 0).counter = n := by decide +kernel

/-- A gang that can be placed, one that asks for more lanes than there are, and a staged record while 256 run; the last
two of a partition that is bound and open. -/
def stagedState (l : Launch) : State :=
  { queued 0 with launches := [l] }.updPart 0 fun p => { p with quadmask := 1 }

def staged0 : Launch := { launch0 with placed := 0, started := false }

theorem witness_SchedulerEvents_cycle :
    (∀ n, n < 16 → (State.reset.parts.getD n Part.reset).bound = false)
    ∧ (let s := stagedState staged0
      let p := s.parts.getD 0 Part.reset
      p.bound = true ∧ p.drain = false ∧ s.dev.safe = false ∧ s.dev.fenced = false ∧ (s.effPrio 0 : Int) = 3
        ∧ s.barred 0 (.gang 0) = false ∧ (s.placeCand (.gang 0)).2 = true)
    ∧ (∀ n ∈ [0, 63], let s := stagedState { staged0 with passed := n, f := { staged0.f with roles := [⟨0, 0, 5, 80, 0⟩] } }
      let t := (s.placeCand (.gang 0)).1
      s.barred 0 (.gang 0) = false ∧ (s.placeCand (.gang 0)).2 = false
        ∧ (64 ≤ ((if t.fits (.gang 0) then t else t.preempt 0 (.gang 0)).pass (.gang 0)).2 ↔ n = 63)) := by decide +kernel

theorem witness_SchedulerEvents_full : let s := stagedState staged0
    let t := { s with launches := staged0 :: (List.range 256).map fun n => { launch0 with lid := n + 1 } }
    s.lapsedCand (.gang 0) = false ∧ s.lapsedCand (.restart held0) = true ∧ s.barred 0 (.restart held0) = false
    ∧ (heldState false).lapsedCand (.restart held0) = false ∧ ((-1 : Int) ≤ (t.effPrio 0 : Int)) ∧ t.barred 0 (.gang 0) = true ∧ ¬ ((4 : Int) ≤ (s.effPrio 0 : Int)) := by decide +kernel

/-! ### The host -/

/-- Context 0 is bound, and its queue 0 has room for a ring of 16 records. -/
def hostState (p : Part → Part) (q : Queue → Queue) : State := (State.reset.updPart 0 p).updQueue 0 0 q

/-- A tail that the ring holds, one past it, a tail behind the last, and a partition that drains. -/
theorem witness_HostEvents_doorbell :
    (let s := hostState (fun p => { p with bound := true }) id
    s.dev.safe = false ∧ s.dev.silent = false ∧ (s.parts.getD 0 Part.reset).bound = true
      ∧ (s.parts.getD 0 Part.reset).drain = false
      ∧ (s.queue 0 0).ring = 16 ∧ (16 + 2 ^ 32 - (s.queue 0 0).head) % 2 ^ 32 ≤ (s.queue 0 0).ring
      ∧ ¬ (17 + 2 ^ 32 - (s.queue 0 0).head) % 2 ^ 32 ≤ (s.queue 0 0).ring ∧ (16 + 2 ^ 32 - (s.queue 0 0).tail) % 2 ^ 32 < 2 ^ 31)
    ∧ (let s := hostState (fun p => { p with bound := true }) fun q => { q with tail := 5 }
      ¬ (4 + 2 ^ 32 - (s.queue 0 0).tail) % 2 ^ 32 < 2 ^ 31)
    ∧ (let s := hostState (fun p => { p with bound := true, drain := true }) id
      (s.parts.getD 0 Part.reset).drain = true) := by decide +kernel

/-- A block of context records whose tables and rings are present. -/
def bindMem (s : State) : State :=
  let k := globalKey 0 0x100000
  let tab := leBytes 8 (2 ^ 35) ++ leBytes 4 6 ++ leBytes 4 0
  let die := tab ++ tab ++ tab ++ leBytes 8 (2 ^ 35) ++ leBytes 4 6 ++ leBytes 4 0 ++ leBytes 8 (2 ^ 35) ++ leBytes 4 6
    ++ leBytes 52 0
  { s with mem := (s.mem.store (k + 0x40) (die ++ die ++ die ++ die) false false 0) }

theorem witness_HostEvents_bind :
    (let s := (State.reset.updPart 0 fun p => { p with quadmask := 1 }).updPart 1 fun p => { p with quadmask := 3, bound := true }
    (s.parts.getD 0 Part.reset).bound = false ∧ s.quadTaken 0 (s.parts.getD 0 Part.reset).quadmask = true)
    ∧ (let s := bindMem (State.reset.updPart 0 fun p => { p with quadmask := 1, xlatReg := 0x100000 })
      (s.parts.getD 0 Part.reset).bound = false ∧ s.quadTaken 0 1 = false ∧ (s.readXlat 0x100000).isSome = true ∧ s.xlatReads 0x100000 = s)
    ∧ (let s := State.reset.updPart 0 fun p => { p with bound := true, drain := true }
      (s.parts.getD 0 Part.reset).bound = true ∧ s.isDrained 0 = true)
    ∧ State.reset.isDrained 0 = false := by decide +kernel

def frozen (master : Nat) : State := { (idle) with flog := [⟨5, master, 0, 0x0A, 1, 0, 0, 64⟩] }

/-- Entries of each kind of master; the port of a link is frozen, or fenced already. -/
theorem witness_HostEvents_link : ((frozen 4).setLink 0 .frozen).dev.links.getD 0 .untrained = .frozen
    ∧ (frozen 4).dev.silent = false := by decide +kernel

/-- Slots that hold an entry and that hold none. -/
theorem witness_HostEvents_reads : (frozen 1).dev.silent = false ∧ ((frozen 1).flogAt 5).isSome = true
    ∧ (frozen 1).flogAt 63 = none ∧ (0x2000 + 16 * 63) % 4 = 0 := by decide +kernel

theorem witness_HostEvents_freeze : ∀ m ∈ [1, 2, 3, 4], (frozen m).flogAt 5 = some ⟨5, m, 0, 0x0A, 1, 0, 0, 64⟩ := by
  decide +kernel

/-- A second entry of the group of the first, and none. -/
theorem witness_HostEvents_second : ∀ fs ∈ [[], [(⟨6, 1, 0, 0x0A, 2, 0, 0, 96⟩ : Freeze)]],
    let s := { frozen 1 with flog := ⟨5, 1, 0, 0x0A, 1, 0, 0, 64⟩ :: fs }
    s.flogAt 5 = some ⟨5, 1, 0, 0x0A, 1, 0, 0, 64⟩
    ∧ ((∃ f ∈ s.flog.filter (fun x => x.slot ≠ 5), f.master = 1 ∧ f.core = 0 ∧ f.unit = 0) ↔ fs ≠ []) := by decide +kernel

/-- An access that ends with its sector in memory that is present, and one that is not. -/
theorem witness_HostEvents_access : (State.reset.parts.getD 0 Part.reset).bound = false ∧ 48 % 32 + 16 ≤ 32 ∧ 48 + 16 ≤ 2 ^ 37
    ∧ State.reset.dev.silent = false ∧ State.reset.dev.upsets = [] ∧ (∀ k, k < 16 → State.reset.pendingOf k = [])
    ∧ State.reset.paPresent 3 48 = true ∧ State.reset.paPresent 3 0xA0000010 = false ∧ 0xA0000010 % 32 + 16 ≤ 32 := by
  decide +kernel

/-! ### Translation -/

/-- A die 0 with a command in its ring at 4096, and a 64 KiB page at offset 0 in its table at 65536. -/
def xState (op size off addr nlog : Nat) (t : Table) : State :=
  let die : DieX := ⟨[⟨0x10000, 6, none⟩, t, ⟨0x30000, 6, none⟩], 4096, 6, 512, 0, 8192, 6, 0⟩
  let m := Memory.empty.store 512 (leBytes 4 1) false false 0
  let m := m.store 4096 (leBytes 4 (op + size * 2 ^ 16) ++ leBytes 4 0 ++ leBytes 8 off ++ leBytes 8 addr ++ leBytes 4 nlog) false false 0
  let m := m.store 0x10000 (leBytes 8 (2 ^ 63) ++ leBytes 8 (2 ^ 35 + 0x0E)) false false 0
  { State.reset with
    mem := m
    parts := State.reset.parts.set 0 { Part.reset with bound := true, x := some ⟨0, 0, 0, 0, List.replicate 4 die, [], []⟩ } }

def cmdB (s : State) (c : XCmd → DieX → Bool) : Bool :=
  match (s.cmdReads 0 0).nextCmd 0 0, (s.cmdReads 0 0).dieX? 0 0 with
  | some x, some d => x.size ≠ 3 && c x d
  | _, _ => false

def tab1 (n : Option (Nat × Nat)) : Table := ⟨0x20000, 6, n⟩

theorem witness_TranslationEvents_commands :
    cmdB (xState 1 0 (2 ^ 16) 0 0 (tab1 none)) (fun c _ => c.op = 1 && c.off % 2 ^ pageLog c.size = 0) = true
    ∧ cmdB (xState 1 0 1 0 0 (tab1 none)) (fun c _ => c.op = 1 && c.off % 2 ^ pageLog c.size ≠ 0) = true
    ∧ cmdB (xState 2 0 0 0 0 (tab1 none)) (fun c _ => c.op = 2) = true
    ∧ cmdB (xState 3 1 0 (2 ^ 35) 7 (tab1 none)) (fun c d => c.op = 3 && (d.table c.size).new_ = none && (d.table c.size).log < c.nlog
      && c.nlog ≤ 24 && c.addr % 64 = 0 && (xState 3 1 0 (2 ^ 35) 7 (tab1 none)).present 0 c.addr (128 * 2 ^ c.nlog)) = true
    ∧ cmdB (xState 4 1 0 0 0 (tab1 none)) (fun c d => c.op = 4 && (d.table c.size).new_ = none) = true
    ∧ cmdB (xState 4 1 0 0 0 (tab1 (some (2 ^ 35, 7)))) (fun c d => c.op = 4 && (d.table c.size).new_ = some (2 ^ 35, 7)) = true := by
  decide +kernel

def migState : State := xState 5 0 0 (2 ^ 35 + 2 ^ 16) 0 (tab1 none)

theorem witness_TranslationEvents_migrate :
    cmdB migState (fun c _ => c.op = 5 && c.size = 0 && c.off % 2 ^ 16 = 0 && c.addr % 2 ^ 16 = 0 && migState.paPresent 0 c.addr
      && match migState.xlat? 0 with
        | none => false
        | some x => match migState.walk x 0 c.off with
          | some (size, k) => size = 0 && migState.frameOk 0 0 (migState.mem.num k 8) (migState.mem.num (k + 8) 8)
            && migState.mem.num (k + 8) 8 / 2 ^ 8 % 2 = 0
          | none => false) = true := by decide +kernel

/-- Closed granules: one whose page is in the table and one whose page is not, each as its flags stand. -/
def granState (gran : Nat) (mapped denied : Bool) (side : List SideEnt) : State :=
  ((xState 0 0 0 0 0 (tab1 none)).updX 0 fun x => { x with closed := [⟨0, gran, 0, mapped, denied, [], []⟩] }).updCore 0 fun k =>
    { k with side := side }

def side0 (off : Nat) : SideEnt := ⟨⟨.T, 0, 0, 0⟩, 0, 0, 0, va off, [1#8], false, false, none, false, false, false⟩

theorem witness_TranslationEvents_granules :
    (∀ n ∈ [0, 5], let s := granState n false false []
      s.granOf 0 0 0 = some ⟨0, n, 0, false, false, [], []⟩
        ∧ (let m := s.recStatus 0 ⟨0, n, 0, false, false, [], []⟩ 2
          (m.xlat? 0).isSome = true ∧ ((m.xlat? 0).bind fun x => m.walk x 0 (n * 2 ^ 16)).isSome = (n == 0)))
    ∧ (∀ e ∈ [[], [side0 0]], let s := granState 0 true false e
      ((s.xlat? 0).bind fun x => x.closed.find? fun g => g.die = 0 && g.gran = 0 && (g.mapped || g.denied)).isSome = true
        ∧ ((∃ k ∈ s.cores, ∃ e ∈ k.2.side, e.stuck = false ∧ e.inGran 0 ⟨0, 0, 0, true, false, [], []⟩ = true) ↔ e = [side0 0]))
    ∧ (∀ g ∈ [(true, false), (false, true), (false, false)], let s := granState 0 g.1 g.2 [side0 0]
      (s.core 0).side = [side0 0] ∧ s.sideNext [side0 0] = some 0
        ∧ (((s.xlat? 0).map Xlat.closed).getD []).find? ((side0 0).inGran 0) = some ⟨0, 0, 0, g.1, g.2, [], []⟩)
    ∧ (let s := granState 5 false false [side0 0]
      (((s.xlat? 0).map Xlat.closed).getD []).find? ((side0 0).inGran 0) = none)
    ∧ (let s := granState 5 false false [{ side0 0 with stuck := true }]
      s.sideNext (s.core 0).side = none)
    ∧ (let s := granState 5 false false [{ side0 0 with stuck := true }, side0 4, side0 64]
      s.sideNext (s.core 0).side = some 2) := by decide +kernel

theorem witness_TranslationEvents_walks : let s := xState 0 0 0 0 0 (tab1 none)
    (s.xlat? 0).isSome = true ∧ s.isClosed 0 0 0 = false
    ∧ (match (s.translate 0 0 0).2 with
      | .ok _ _ _ => true
      | _ => false) = true
    ∧ (match (s.translate 0 0 (5 * 2 ^ 16)).2 with
      | .miss => true
      | _ => false) = true := by decide +kernel

/-- A request at its owner slice. -/
def req0 (k : ReqKind) (p : Option Nat) : Req :=
  ⟨p, 0, ⟨.T, 0, 0, 0⟩, k, BitVec.ofNat 64 (va 64), 4, [1#8], false, false, (6, 0), 0, 0, false⟩

theorem witness_TranslationEvents_request : ∀ k ∈ [ReqKind.store, .reduce, .load],
    let s := xState 0 0 0 0 0 (tab1 none)
    let r := req0 k none
    r.port = none ∧ r.synd = 0 ∧ r.flit = false ∧ (s.xlat? r.ctx).isSome = true
    ∧ isOk (((s.translate 0 0 64).1.reachGlobal ⟨r.agent, 0, 0, 0⟩ (reqAcc r)).2) = true := by decide +kernel

/-- The ports that a request may come in at. -/
theorem witness_TranslationEvents_ports : (req0 .load (some 17)).port = some 17
    ∧ (∀ l ∈ [LinkSt.retraining, .frozen, .untrained, .fenced], (State.reset.setLink 17 l).dev.links.getD 17 .untrained = l)
    ∧ (let s := State.reset.setLink 17 .trained
      s.dev.links.getD 17 .untrained = .trained ∧ s.xlat? 0 = none) := by decide +kernel

/-! ### What ends a park -/

def pend0 (n : Nat) (win : Option Nat) (beaten : List Nat) : Pend := ⟨0, n, [⟨7#32, false⟩], 0, win, beaten, none⟩

/-- Results for a register, for one written meanwhile, for a window's word, and for a g register behind another. -/
theorem witness_WakeEvents_landing :
    (∀ p ∈ [pend0 5 none [], pend0 5 none [5], pend0 64 (some 64) []],
      ((idle fun g => { g with pend := [p] }).grp 0).pend[0]? = some p
        ∧ (∀ q ∈ ((idle fun g => { g with pend := [p] }).grp 0).pend.take 0, p.overlaps q = false))
    ∧ (let g := (idle fun g => { g with pend := [pend0 81 none [], pend0 81 none []] }).grp 0
      g.pend[1]? = some (pend0 81 none []) ∧ g.pend[0]? = some (pend0 81 none [])
        ∧ (pend0 81 none []).overlaps (pend0 81 none []) = true) := by decide +kernel

theorem witness_WakeEvents :
    (∀ p ∈ [[], [pend0 5 none []]], let s := idle fun g => { g with gpark := some (.header 1), pend := p }
      (s.grp 0).gpark = some (.header 1) ∧ s.waitsDone 0 1 = p.isEmpty)
    ∧ (∀ n ∈ [2047, 2048], let s := { (idle) with now := n }
      (s.grp 0).last = 0 ∧ ((s.laneGids 0).filter fun x => s.isReady x && s.starves x && some x ≠ s.laneHolds 0)
        = if n = 2048 then [0] else [])
    ∧ (let s := idle fun g => { g with turn := 256 }
      kfind s.groups 0 = some (s.grp 0) ∧ (s.grp 0).turn = 256)
    ∧ (∀ e ∈ ((idle).core 0).side, e.agent ≠ ⟨.T, 0, 0, 0⟩)
    ∧ ((idle).undrained ⟨.T, 0, 0, 0⟩ = false)
    ∧ (((idle).updCore 0 fun k => { k with side := [side0 0] }).undrained ⟨.T, 0, 0, 0⟩ = true)
    ∧ (∀ n ∈ [0, 1], let s := idle fun g => { g with parks := [⟨[0], .waita 5 64 false (BitVec.ofNat 32 n)⟩] }
      s.parkAt 0 0 = some ⟨[0], .waita 5 64 false (BitVec.ofNat 32 n)⟩
      ∧ (match s.reach (s.who 0 0) (Acc.read .A 64 4).synced with
        | (u, .ok key _) => decide (u.mem.num key 4 = 0)
        | _ => false) = true) := by decide +kernel

/-- A park of WAIT before its bound and at it, with no watch, with one that has latched nothing, and with an event. -/
theorem witness_WakeEvents_wait : ∀ w ∈ [none, some (⟨64, 4, none, true⟩ : Watch), some (⟨64, 4, some 1, true⟩ : Watch),
      some (⟨2 ^ 64 + 64, 4, none, true⟩ : Watch)],
    let s := idle fun g => { g.updThr 0 (fun x => { x with watch := w }) with parks := [⟨[0], .wait 5 (some 9)⟩] }
    s.parkAt 0 0 = some ⟨[0], .wait 5 (some 9)⟩ ∧ (s.thr 0 0).watch = w ∧ s.now < 9 ∧ 9 ≤ { s with now := 9 }.now := by
  decide +kernel

/-- A group whose next instruction the clone check compares, and one whose next it does not. -/
theorem witness_WakeEvents_clone : ∀ i ∈ [Instr.iadd 5#7 3#7 4#7 0#3, .nop],
    let s := launched (mapped (State.reset.withClause (clauseWith i [])))
    ((tidsOf (1#16).toNat).filter fun t => (s.nextPath 0).1.contains t && ((s.grp 0).thr t).gact) ≠ [] ∧ (s.grp 0).kind ≠ .pitcher
      ∧ (s.core (s.grp 0).core).replays.length < 32 ∧ s.nextInstr 0 = some i ∧ cloneChecked i = decide (i ≠ .nop) := by
  decide +kernel

/-! ### The device -/

def test0 (id sig : Bool) : SelfTest := ⟨true, id, { Manifest.reset with signed := sig }, [], [], [], [], List.replicate 18 none⟩

theorem witness_DeviceEvents :
    (∀ sig ∈ [true, false], (test0 true sig).identityOk = true
      ∧ (State.reset.dev.pendingUpdate.getD (test0 true sig).manifest).signed = sig)
    ∧ (test0 true true).romOk = true ∧ { test0 true true with romOk := false }.romOk = false
    ∧ manifestOk (test0 true true).manifest = true ∧ (test0 false true).identityOk = false
    ∧ State.reset.dieQuiet 3 = true ∧ (idle).dieQuiet 0 = false
    ∧ (let s := State.reset.setLink 17 .trained
      s.dev.links.getD 17 .untrained = .trained ∧ (s.setLink 17 .retraining).dev.links.getD 17 .untrained = .retraining)
    ∧ State.reset.dev.silent = false ∧ State.reset.scanBehind 239 = false ∧ (idle).idle 0 = false ∧ (idle).scanBehind 0 = false
    ∧ State.reset.dev.hot.contains 3 = false
    ∧ (let s := State.reset.updDev fun d => d.setDomain { d.domain 255 with steps := 1 }
      (s.dev.domain 255).lock = false ∧ 0 < (s.dev.domain 255).steps
        ∧ ∀ e ∈ (s.dev.domain 255).counts, e.2 < s.dev.manifest.threshold)
    ∧ (let s := State.reset.updDev fun d => d.setDomain { d.domain 255 with lock := true }
      (s.dev.domain 255).lock = true)
    ∧ (∀ n ∈ [[], [3]], let s := State.reset.updDev fun d => d.setDomain { d.domain 255 with counts := [(3, 256)], told := n }
      (s.dev.domain 255).told.contains 3 = !n.isEmpty ∧ 256 = kget 0 (s.dev.domain 255).counts 3 ∧ s.dev.manifest.threshold < 256)
    ∧ kget 0 (State.reset.dev.domain 255).counts 3 ≤ State.reset.dev.manifest.threshold
    ∧ (State.reset.phys 239 = some 251 ∧ (State.reset.core 239).scan = false ∧ State.reset.idle 239 = true)
    ∧ (let s := State.reset.updCore 239 fun c => { c with scan := true }
      s.phys 239 = some 251 ∧ (s.core 239).scan = true)
    ∧ State.reset.dev.identity = true ∧ 800 ≤ State.reset.dev.manifest.limitW := by decide +kernel

/-- Every core of a quad is in its scan, and a launch of priority 6 waits for one. -/
theorem witness_DeviceEvents_abort :
    let s := { queued 0 with launches := [{ launch0 with placed := 0, started := false, prio := 6 }] }.updPart 0 fun p => { p with quadmask := 1 }
    ((List.range 60).foldl (fun s k => s.updCore k fun c => { c with scan := true }) s).aborts 0 = true := by decide +kernel

/-- The same while the cores drain. -/
theorem witness_DeviceEvents_drain :
    let s := { queued 0 with launches := [{ launch0 with placed := 0, started := false, prio := 6 }] }.updPart 0 fun p => { p with quadmask := 1 }
    let t := (List.range 60).foldl (fun s k => s.updCore k fun c => { c with drains := true }) s
    (t.core 0).scan = false ∧ (t.core 0).drains = true ∧ t.aborts 0 = true := by decide +kernel

/-! ### The machine as a whole -/

theorem witness_StepsKeepTheInvariant : State.reset.Inv ∧ ∃ t, step State.reset = .next t :=
  ⟨(by decide +kernel : State.reset.mem.wf = true), _, rfl⟩

theorem witness_WordsOfInstructions : encode (.rgn 3#7) = [0x7D000C00#32] ∧ (∀ x, Instr.rgn 3#7 ≠ .unassignedOpcode x) :=
  ⟨by decide +kernel, fun _ h => by cases h⟩

theorem witness_InstructionsOfWords : decode 0x7D000C00#32 0#32 = .ok (.rgn 3#7) ∧ lengthOf 0x7D000C00#32 = 1
    ∧ decode 0xE9000000#32 0x00100000#32 = .ok (.mzero 2#2) ∧ lengthOf 0xE9000000#32 = 2 :=
  ⟨rfl, by decide, rfl, by decide⟩

/-- A path that is ready, at a header and at an instruction of its clause; and an event on the agenda. -/
def readyB (s : State) (c : State → Cur → Bool) : Bool :=
  s.agenda = [] && s.now % 2 = 0 && match s.nextLane with
    | none => false
    | some lane => match s.laneNext lane with
      | none => false
      | some (gid, chose) =>
        let g := s.grp gid
        let path := (s.nextPath gid).1
        let x := g.thr (path.headD 0)
        let u := s.chosen gid (s.nextPath gid).2 chose
        g.kind ≠ .pitcher && (!(s.nextPath gid).2 || g.turn < 256)
          && (u.core (u.grp gid).core).replays = [] && (u.core g.core).replays = []
          && c u (u.curAt gid x.pos path (path.filter fun t => (g.thr t).gact && !(g.thr t).done))

theorem witness_StepsRunWhatIsDecoded :
    readyB (idle) (fun u c => c.pos.k ≠ 0 && (match decode c.w c.u with
        | .ok i => decide (i = .nop)
        | _ => false)
      && opClass (opOf c.w) = 5 && c.pos.k = c.n && (u.grp 0).clauses.length = 1) = true
    ∧ readyB (idle fun g => g.updThr 0 fun t => { t with pos := ⟨0, 0⟩ }) (fun _ c => c.pos.k = 0) = true
    ∧ ({ State.reset with agenda := [.thermalFence 120] }.agenda = [.thermalFence 120] ∧ encode (.thermalFence 120) = []) := by
  decide +kernel

/-- In a loop: a pass whose words are those of an instruction, and one of which a code leaves its file. -/
theorem witness_StepsRunWhatIsDecoded_loop : ∀ k ∈ [3, 70],
    let s := (((State.reset.withClause (clauseWith (.fadd 8#7 8#7 10#7 0#3) [])).updGrp 0 fun g => g.updThr 0 fun t =>
      { t with loop := some ⟨0, 8, 100, k, [0, 0, 1, 0, 0, 4]⟩ }))
    readyB s (fun u c => c.pos.k ≠ 0 && (u.thr 0 0).loop = some ⟨0, 8, 100, k, [0, 0, 1, 0, 0, 4]⟩
      && (match stepWords ⟨0, 8, 100, k, [0, 0, 1, 0, 0, 4]⟩ c.w c.u with
        | some (w, v) => k = 3 && (match decode w v with
          | .ok i => decide (i = .fadd 8#7 8#7 13#7 0#3)
          | _ => false) && opClass (opOf w) ≠ 5 && opClass (opOf w) = hdrCls (((kfind (u.grp 0).clauses 0).getD []).headD 0#32)
        | none => k = 70)) = true := by decide +kernel

/-- A thread that owes a trap at an instruction that takes it itself, and at one that does not. -/
theorem witness_StepsRunWhatIsDecoded_owed : ∀ i ∈ [Instr.nop, .hsign 3#4],
    let s := ((State.reset.withClause (clauseWith i [])).updGrp 0 fun g => g.updThr 0 fun t => { t with owed := some (0x10, 64) })
    readyB s (fun u c => c.pos.k ≠ 0 && (match decode c.w c.u with
        | .ok j => decide (j = i)
        | _ => false)
      && (c.mask.filterMap fun t => ((u.grp 0).thr t).owed.map fun e => (t, e)) = [(0, 0x10, 64)]
      && takesOwed i == decide (i ≠ .nop)) = true
    ∧ kfind s.groups s.cur.gid = some s.cg ∧ s.cg.threads.length = 16 := by decide +kernel

/-! ### Words, written out from the formats of R249 and the opcodes of R257

One instruction or more of each family; the words in hexadecimal are the spec's own examples. -/

/-- Format R: opcode, D, A, B and M. -/
def wordR (op : BitVec 8) (d a b : Code) (m : BitVec 3) : Word := op ++ d ++ a ++ b ++ m
/-- Format M: opcode, D, A, FMT, ORD and VC. -/
def wordM (op : BitVec 8) (d a : Code) (f : BitVec 4) (o v : BitVec 3) : Word := op ++ d ++ a ++ f ++ o ++ v
/-- The second word of format X. -/
def wordX (c : Code) (h : BitVec 4) (t : BitVec 2) (l : BitVec 1) (fa fb : BitVec 4) (mx : BitVec 1) (m : BitVec 9) : Word :=
  c ++ h ++ t ++ l ++ fa ++ fb ++ mx ++ m

theorem test_decode_integer :
    decode (wordR 0x00#8 5#7 3#7 4#7 1#3) 0#32 = .ok (.iadd 5#7 3#7 4#7 1#3)
    ∧ decode (wordR 0x01#8 5#7 3#7 4#7 2#3) 0#32 = .ok (.isub 5#7 3#7 4#7 2#3)
    ∧ decode (wordR 0x04#8 5#7 3#7 4#7 0#3) (9#7 ++ 0#25 : Word) = .ok (.imad 5#7 3#7 4#7 9#7)
    ∧ decode (wordR 0x17#8 5#7 3#7 4#7 1#3) (9#7 ++ 0#25 : Word) = .ok (.bfx 5#7 3#7 4#7 1#3 9#7)
    ∧ decode 0x1B03FFFF#32 0#32 = .ok (.movi 1#7 0x1FFFF#17)
    ∧ decode (wordR 0x1D#8 4#7 6#7 3#7 5#3) 0#32 = .ok (.lea 4#7 6#7 3#7 5#3)
    ∧ decode (wordR 0x22#8 4#7 6#7 8#7 0#3) 0#32 = .ok (.imulD 4#7 6#7 8#7) := by
  refine ⟨?_, ?_, ?_, ?_, ?_, ?_, ?_⟩ <;> rfl

theorem test_decode_predicate :
    decode 0x1E01EAA6#32 0#32 = .ok (.icmp 0#7 122#7 84#7 6#3)
    ∧ decode (wordR 0x19#8 5#7 3#7 4#7 7#3) 0#32 = .ok (.sel 5#7 3#7 4#7 7#3)
    ∧ decode (wordR 0x60#8 1#7 2#7 3#7 2#3) 0#32 = .ok (.pand 1#7 2#7 3#7 2#2)
    ∧ decode (wordR 0x65#8 1#7 2#7 0#7 0#3) 0#32 = .ok (.pset 1#7 2#7) := by
  refine ⟨?_, ?_, ?_, ?_⟩ <;> rfl

theorem test_decode_float :
    decode (wordR 0x30#8 5#7 3#7 4#7 4#3) 0#32 = .ok (.fadd 5#7 3#7 4#7 4#3)
    ∧ decode (wordR 0x33#8 5#7 3#7 4#7 0#3) (9#7 ++ 0#25 : Word) = .ok (.ffma 5#7 3#7 4#7 0#3 9#7)
    ∧ decode (wordR 0x3B#8 5#7 3#7 13#7 0#3) 0#32 = .ok (.fcvt 5#7 3#7 13#7 0#3)
    ∧ decode (wordR 0x40#8 5#7 3#7 0#7 1#3) 0#32 = .ok (.frcp 5#7 3#7 1#3)
    ∧ decode (wordR 0x54#8 4#7 6#7 8#7 0#3) 0#32 = .ok (.ddiv 4#7 6#7 8#7 0#3)
    ∧ decode (wordR 0x58#8 5#7 3#7 4#7 0#3) 0#32 = .ok (.hadd2 5#7 3#7 4#7 0#3) := by
  refine ⟨?_, ?_, ?_, ?_, ?_, ?_⟩ <;> rfl

theorem test_decode_exchange :
    decode (wordR 0x68#8 5#7 3#7 4#7 3#3) 0#32 = .ok (.xchg 5#7 3#7 4#7 3#3)
    ∧ decode (wordR 0x6A#8 5#7 3#7 1#7 6#3) 0#32 = .ok (.xscan 5#7 3#7 1#7 6#3)
    ∧ decode (wordR 0x6C#8 5#7 3#7 0#7 2#3) 0#32 = .ok (.vote 5#7 3#7 2#3) := by
  refine ⟨?_, ?_, ?_⟩ <;> rfl

theorem test_decode_control :
    decode (0x70#8 ++ 0xFFFFFE#24 : Word) 0#32 = .ok (.bra 0xFFFFFE#24)
    ∧ decode (wordR 0x73#8 0#7 4#7 0#7 0#3) 0#32 = .ok (.callx 4#7)
    ∧ decode (0x76#8 ++ 83#7 ++ 31#5 ++ 0#12 : Word) (1#4 ++ 15#4 ++ 0#4 ++ 8#4 ++ 3#2 ++ 0x3FF0#14 : Word)
      = .ok (.loop 83#7 31#5 1#4 15#4 0#4 8#4 3#2 0x3FF0#14)
    ∧ decode (0x7A#8 ++ 0#24 : Word) 0#32 = .ok .tail
    ∧ decode 0x7E10000F#32 0#32 = .ok (.dead 8#7 0x000F#16)
    ∧ decode (wordR 0x78#8 2#7 4#7 8#7 0#3) 0#32 = .ok (.spawn 2#7 4#7 8#7) := by
  refine ⟨?_, ?_, ?_, ?_, ?_, ?_⟩ <;> rfl

theorem test_decode_memory :
    decode (wordM 0x90#8 5#7 4#7 0x4#4 0#3 2#3) 0#32 = .ok (.ld 5#7 4#7 0x4#4 0#3 2#3)
    ∧ decode (wordM 0xB6#8 5#7 3#7 0x0#4 6#3 1#3) 0#32 = .ok (.stwOff 5#7 3#7 0x0#4 6#3 1#3)
    ∧ decode (wordM 0x98#8 5#7 4#7 0x4#4 0#3 0#3) 0#32 = .ok (.stP 5#7 4#7 0x4#4 0#3 0#3)
    ∧ decode (wordM 0x9D#8 8#7 3#7 0x9#4 4#3 3#3) 0#32 = .ok (.atoma 8#7 3#7 0x9#4 4#3 3#3)
    ∧ decode 0xA1000C23#32 0#32 = .ok (.fencex 0#7 3#7 4#3 3#3)
    ∧ decode 0xA307E000#32 0#32 = .ok (.wait 3#7 120#7) := by
  refine ⟨?_, ?_, ?_, ?_, ?_, ?_⟩ <;> rfl

theorem test_decode_synchronisation :
    decode 0xC001E440#32 0#32 = .ok (.harm 121#7 1#4) ∧ decode 0xC20C0040#32 0#32 = .ok (.hpoll 6#7 1#4)
    ∧ decode 0xC4000023#32 0#32 = .ok (.bar 1#1 3#3) ∧ decode 0xC5000800#32 0#32 = .ok (.parr 2#7)
    ∧ decode 0xC60A0800#32 0#32 = .ok (.pwait 5#7 2#7) := by
  refine ⟨?_, ?_, ?_, ?_, ?_⟩ <;> rfl

theorem test_decode_engine :
    decode 0xD2000002#32 0#32 = .ok (.cpyw 2#3) ∧ decode 0xD3060001#32 0#32 = .ok (.cpyt 3#7 1#3)
    ∧ decode 0xD5135000#32 0#32 = .ok (.coll 9#7 84#7) ∧ decode 0xD6060800#32 0#32 = .ok (.subs 3#7 2#7)
    ∧ decode 0xDA134013#32 0x14000000#32 = .ok (.amsg 9#7 80#7 2#7 3#3 10#7) ∧ decode 0xDB040C00#32 0#32 = .ok (.qpush 2#7 3#7)
    ∧ decode (wordR 0xDC#8 5#7 2#7 6#7 0#3) (8#7 ++ 0#25 : Word) = .ok (.pitch 5#7 2#7 6#7 8#7) := by
  refine ⟨?_, ?_, ?_, ?_, ?_, ?_, ?_⟩ <;> rfl

theorem test_decode_matrix :
    decode 0xECF356B0#32 0x002AA801#32 = .ok (.mmasS 121#7 85#7 86#7 0#7 1#4 1#2 0#1 10#4 10#4 0#1 0#1)
    ∧ decode (wordR 0xEC#8 84#7 85#7 86#7 0#3) (wordX 0#7 15#4 3#2 0#1 12#4 12#4 1#1 6#9)
      = .ok (.mmasV 84#7 85#7 86#7 0#7 15#4 3#2 12#4 12#4 1#1 1#1)
    ∧ decode 0xEE017000#32 0xBC080004#32 = .ok (.mdrn 92#7 94#7 1#2 4#4)
    ∧ decode 0xF109EAC0#32 0x00400000#32 = .ok (.dcorD 4#7 122#7 88#7 2#4) := by
  refine ⟨?_, ?_, ?_, ?_⟩ <;> rfl

theorem test_decode_system :
    decode 0xFA000042#32 0#32 = .ok (.trap 0x42#16)
    ∧ decode (0xF8#8 ++ 5#7 ++ 0#5 ++ 0x012#12 : Word) 0#32 = .ok (.mfsr 5#7 0x012#12)
    ∧ decode (0xF9#8 ++ 3#7 ++ 0#5 ++ 0x007#12 : Word) 0#32 = .ok (.mtsr 3#7 0x007#12)
    ∧ decode (0xFB#8 ++ 0#24 : Word) 0#32 = .ok .eret ∧ decode (0xFC#8 ++ 0#8 ++ 9#16 : Word) 0#32 = .ok (.sysc 9#16) := by
  refine ⟨?_, ?_, ?_, ?_, ?_⟩ <;> rfl

/-- An opcode that R257 leaves unassigned is the illegal instruction of that word; a reserved bit or code that is set is refused. -/
theorem test_decode_refuses :
    decode 0x77000000#32 0#32 = .ok (.unassignedOpcode 0x77000000#32) ∧ (∃ e, decode (wordR 0x60#8 1#7 2#7 3#7 4#3) 0#32 = .error e)
    ∧ ∃ e, decode (wordR 0x04#8 5#7 3#7 4#7 0#3) (9#7 ++ 1#25 : Word) = .error e :=
  ⟨rfl, ⟨_, rfl⟩, ⟨_, rfl⟩⟩

/-- What the host asks: the first word is the low word. -/
theorem test_decodeTableWord : decodeTableWord 64 (0x0022A800 * 2 ^ 32 + 0xEBA956B0) =
    some (.mma 84#7 85#7 86#7 0#7 1#4 0#2 0#1 10#4 10#4 0#1 0#2) ∧ decodeTableWord 32 0x7D000C00 = some (.rgn 3#7) := by decide +kernel

/-! ### Ill-formed terms that the checks refuse (R250, R251, R259) -/

theorem smoke_registers :
    WellFormed (.mov 120#7 127#7) = true ∧ WellFormed (.mov 122#7 3#7) = false ∧ WellFormed (.iaddD 3#7 4#7 6#7) = false
    ∧ WellFormed (.iaddD 4#7 5#7 6#7) = false ∧ WellFormed (.iaddD 4#7 124#7 6#7) = false ∧ WellFormed (.dadd 4#7 7#7 6#7 0#3) = false
    ∧ WellFormed (.bfi 120#7 3#7 4#7 5#7) = false ∧ WellFormed (.movh 121#7 0#16) = false ∧ WellFormed (.xbcast 5#7 3#7 4#7) = false
    ∧ WellFormed (.loop 3#7 0#5 0#4 0#4 0#4 0#4 0#2 0#14) = false ∧ WellFormed (.callx 5#7) = false := by decide +kernel

theorem smoke_memory :
    WellFormed (.ld 5#7 3#7 4#4 0#3 0#3) = false ∧ WellFormed (.lda 5#7 121#7 4#4 0#3 0#3) = false
    ∧ WellFormed (.ld 77#7 4#7 4#4 0#3 2#3) = false ∧ WellFormed (.ld 5#7 4#7 5#4 0#3 0#3) = false
    ∧ WellFormed (.ld 5#7 4#7 4#4 2#3 0#3) = false ∧ WellFormed (.ld 5#7 4#7 12#4 0#3 0#3) = false
    ∧ WellFormed (.st 5#7 4#7 4#4 1#3 0#3) = false ∧ WellFormed (.st 79#7 4#7 4#4 0#3 1#3) = false
    ∧ WellFormed (.atom 6#7 4#7 4#4 4#3 3#3) = false ∧ WellFormed (.atom 8#7 4#7 6#4 4#3 3#3) = false
    ∧ WellFormed (.red 4#7 4#7 4#4 0#3 1#3) = false ∧ WellFormed (.fence 1#3 0#3) = false
    ∧ WellFormed (.fencex 5#7 0#7 0#3 0#3) = false ∧ WellFormed (.watch 4#7 6#4) = false ∧ WellFormed (.wait 121#7 3#7) = false
    ∧ WellFormed (.waita 120#7 3#7) = false := by decide +kernel

theorem smoke_numbers :
    WellFormed (.iadd 5#7 3#7 4#7 3#3) = false ∧ WellFormed (.imulh 5#7 3#7 4#7 2#3) = false ∧ WellFormed (.icmp 8#7 3#7 4#7 0#3) = false
    ∧ WellFormed (.fadd 5#7 3#7 4#7 5#3) = false ∧ WellFormed (.fcvt 5#7 3#7 14#7 0#3) = false ∧ WellFormed (.dcvt 5#7 4#7 8#7 0#3) = false
    ∧ WellFormed (.pand 8#7 0#7 0#7 0#2) = false ∧ WellFormed (.vote 5#7 3#7 4#3) = false ∧ WellFormed (.xscan 5#7 3#7 2#7 0#3) = false
    ∧ WellFormed (.spawn 17#7 4#7 8#7) = false ∧ WellFormed (.dead 79#7 2#16) = false ∧ WellFormed (.mfsr 5#7 0x005#12) = false
    ∧ WellFormed (.illegal 0#24) = false ∧ WellFormed (.unassignedOpcode 0x77000000#32) = false := by decide +kernel

theorem smoke_engines :
    WellFormed (.bar 0#1 1#3) = false ∧ WellFormed (.subs 32#7 2#7) = false ∧ WellFormed (.amsg 5#7 2#7 6#7 6#3 8#7) = false
    ∧ WellFormed (.amsg 5#7 2#7 6#7 0#3 8#7) = false ∧ WellFormed (.qpush 8#7 3#7) = false ∧ WellFormed (.bcpy 3#7 6#7 5#7) = false
    ∧ WellFormed (.pitch 5#7 2#7 6#7 73#7) = false ∧ WellFormed (.mcfg 80#7 1#2 5#4) = false ∧ WellFormed (.mcfg 3#7 1#2 1#4) = false
    ∧ WellFormed (.gath 0#7 90#7 91#7 9#7 0#1 10#4 0#1 0#2) = false ∧ WellFormed (.mma 84#7 85#7 86#7 0#7 1#4 0#2 0#1 10#4 12#4 0#1 0#2) = false
    ∧ WellFormed (.mdrn 92#7 94#7 1#2 8#4) = false ∧ WellFormed (.cvtb 2#7 3#7 4#7 11#4) = false
    ∧ WellFormed (.dcorD 80#7 3#7 88#7 2#4) = false ∧ WellFormed (.dcorD 4#7 3#7 89#7 2#4) = false
    ∧ WellFormed (.dcorD 4#7 3#7 88#7 8#4) = false ∧ WellFormed (.mstat 121#7 0#2 0#1) = false := by decide +kernel

/-! ### Single steps

Expected values are the spec's worked examples, or calculated by hand from the rule that each test names. -/

/-- The word of the first write in flight. -/
def pend_ (s : State) : Option Nat := ((s.grp 0).pend.head?.bind fun p => p.regs.head?).map fun r => r.v.toNat

/-- R267: the sum wraps, or is the nearest signed word. -/
theorem test_iadd : x_ (run (.iadd 5#7 3#7 4#7 0#3) (at_ (.iadd 5#7 3#7 4#7 0#3) [] fun g => setX 3 0xFFFFFFFF false (setX 4 1 false g))) 5 = 0
    ∧ x_ (run (.iadd 5#7 3#7 4#7 1#3) (at_ (.iadd 5#7 3#7 4#7 1#3) [] fun g => setX 3 0x7FFFFFFF false (setX 4 1 false g))) 5
      = 0x7FFFFFFF := by decide +kernel

/-- R267: the destination is a source, and a literal is read. -/
theorem test_isub : x_ (run (.isub 5#7 121#7 5#7 0#3) (at_ (.isub 5#7 121#7 5#7 0#3) [10] (setX 5 3))) 5 = 7 := by decide +kernel

/-- R268: a shift by the width or more. -/
theorem test_shifts : x_ (run (.shl 5#7 3#7 4#7) (at_ (.shl 5#7 3#7 4#7) [] fun g => setX 3 1 false (setX 4 32 false g))) 5 = 0
    ∧ x_ (run (.sar 5#7 3#7 4#7) (at_ (.sar 5#7 3#7 4#7) [] fun g => setX 3 0x80000000 false (setX 4 40 false g))) 5 = 0xFFFFFFFF := by
  decide +kernel

/-- R269: division by zero, as a result in flight. -/
theorem test_idiv : pend_ (run (.idiv 5#7 3#7 4#7 0#3) (at_ (.idiv 5#7 3#7 4#7 0#3) [] (setX 3 9))) = some 0xFFFFFFFF
    ∧ pend_ (run (.irem 5#7 3#7 4#7 1#3) (at_ (.irem 5#7 3#7 4#7 1#3) [] (setX 3 9))) = some 9 := by decide +kernel

/-- The listing `scale8`: the reciprocal of 4.0, and the product with element 0. -/
theorem test_listing : pend_ (run (.frcp 86#7 85#7 0#3) (at_ (.frcp 86#7 85#7 0#3) [] fun g => { g with g := g.g.set 5 ⟨0x40800000#32, false⟩ }))
      = some 0x3E800000
    ∧ x_ (run (.fmul 8#7 3#7 86#7 0#3) (at_ (.fmul 8#7 3#7 86#7 0#3) [] fun g =>
      setX 3 0x447A0000 false { g with g := g.g.set 6 ⟨0x3E800000#32, false⟩ })) 8 = 0x437A0000 := by decide +kernel

/-- The listing's stores in E4M3. -/
theorem test_listing_stores : ([0x3F800000, 0x40600000, 0x437A0000, 0xBF400000, 0x3D99999A].map fun x =>
    (narrow 0xA 0 0 (BitVec.ofNat 64 x)).bits) = [0x38, 0x46, 0x78, 0xB4, 0x1A] := by decide +kernel

/-- R206, R209: the worked example of stochastic rounding of 0.3 to E4M3. -/
theorem test_stochastic : (narrow 0xA 4 0x8000 (BitVec.ofNat 64 0x3E99999A)).bits = 0x2A
    ∧ (narrow 0xA 4 0xC000 (BitVec.ofNat 64 0x3E99999A)).bits = 0x29 := by decide +kernel

/-- R57: 1 + 2^-24 is a tie, to even. -/
theorem test_fadd : x_ (run (.fadd 5#7 3#7 4#7 0#3) (at_ (.fadd 5#7 3#7 4#7 0#3) [] fun g =>
    setX 3 0x3F800000 false (setX 4 0x33800000 false g))) 5 = 0x3F800000 := by decide +kernel

/-- R158: the buckets of the worked translation. -/
theorem test_buckets : bucketOf 1 0 10 = 632 ∧ bucketOf 1 1 10 = 0 := by decide +kernel

/-- R144: the trap of the misaligned load. -/
theorem test_trap : let s := run (.ld 5#7 4#7 4#4 0#3 0#3) (at_ (.ld 5#7 4#7 4#4 0#3 0#3) [] (fun g =>
      setCtl (fun c => { c with trapvec := CReg.of 0x4800 }) (setX 4 2 false g)) fun s => launched (mapped s))
    (s.grp 0).ctl.tcause.n = 0x80000008 ∧ (s.grp 0).ctl.tmask.n = 1 ∧ (s.grp 0).ctl.taddr.n = 2 ∧ (s.thr 0 0).pos = ⟨0x4800, 0⟩ := by
  decide +kernel

/-- R71 to R73: the worked launch record. -/
theorem test_record :
    let w := fun (n : Nat) => leBytes 4 n
    let bs := w 0x10001304 ++ w 1 ++ w 0x4000 ++ w 0x0FF00000 ++ w 0x20000 ++ w 0x0FF00000 ++ w 0x18 ++ w 0 ++ w 0x20080 ++ w 0x0FF00000
      ++ w 0 ++ w 0 ++ w 0x10 ++ w 0x80000000 ++ w 1 ++ w 0x80000011 ++ w 1 ++ w 0x80000022 ++ w 1 ++ w 0x80000033 ++ leBytes 32 0
      ++ w 0 ++ w 0x80000440 ++ leBytes 136 0
    bs.length = 256 ∧ recordOk bs = true ∧ (LFields.parse bs).irq = true ∧ (LFields.parse bs).rlvl = 3 ∧ (LFields.parse bs).prio = 4
      ∧ (LFields.parse bs).entry = 0x0FF0000000004000 ∧ (LFields.parse bs).roles = [⟨0, 2, 1, 16, 0⟩] := by decide +kernel

/-- R301, R252: a store with an offset in the A space writes four bytes, lowest first. -/
theorem test_sta : let i : Instr := .staOff 5#7 3#7 4#4 0#3 0#3
    let s := run i (at_ i [0xFFFFFFFC#32] (fun g => setX 5 0x11223344 false (setX 3 8 false g)) launched)
    s.mem.read (aKey 0 0 4) 4 = [0x44#8, 0x33#8, 0x22#8, 0x11#8] ∧ s.mem.byte (aKey 0 0 8) = 0#8 := by decide +kernel

/-- R282: a count of the threads whose entry is not 0. -/
theorem test_vote : pend_ (run (.vote 5#7 3#7 3#3) (at_ (.vote 5#7 3#7 3#3) [] (setX 3 9))) = some 1 := by decide +kernel

/-- R294, R261: NBV resets to 2, and reads back as written. -/
theorem test_special : x_ (run (.mfsr 5#7 1#12) (at_ (.mfsr 5#7 1#12))) 5 = 2
    ∧ ((run (.mtsr 3#7 1#12) (at_ (.mtsr 3#7 1#12) [] (setX 3 1))).grp 0).ctl.nbv.n = 1 := by decide +kernel

end Sys2Proof.Tests
end

section
/-! SUPPORT. The side bands of every sector after a store (R172 to R174), and the statement about stored bytes. -/

namespace Sys2Proof.Machine
open Sys2Proof

/-! ### Sectors -/

theorem mem_sectors (a n sec : Nat) (h : n ≠ 0) : sec ∈ sectors a n ↔ a / 32 ≤ sec ∧ sec ≤ (a + n - 1) / 32 := by
  simp only [sectors, if_neg h, List.mem_map, List.mem_range]
  constructor
  · rintro ⟨i, hi, rfl⟩; omega
  · rintro ⟨h1, h2⟩; exact ⟨sec - a / 32, by omega, by omega⟩

theorem sectors_nodup (a n : Nat) : (sectors a n).Nodup := by
  unfold sectors
  split
  · exact List.nodup_nil
  · exact List.pairwise_map.2 (List.nodup_range.imp fun h => by omega)

theorem covers_iff (a n sec : Nat) : covers a n sec = true ↔ a ≤ 32 * sec ∧ 32 * sec + 32 ≤ a + n := by
  simp only [covers, Bool.and_eq_true, decide_eq_true_eq]

/-! ### Bands after a store -/

/-- Each band of a list of different sectors is replaced once, by a function of what it held; every other band stands. -/
theorem Memory.band_setBands (f : Nat → Band → Band) (l : List Nat) (hl : l.Nodup) (m : Memory) (k : Nat) :
    (l.foldl (fun m sec => m.setBand sec (f sec (m.band sec))) m).band k = if k ∈ l then f k (m.band k) else m.band k := by
  induction l generalizing m with
  | nil => simp
  | cons x l ih =>
    obtain ⟨hx, hl⟩ := List.nodup_cons.1 hl
    rw [List.foldl_cons, ih hl, Memory.band_setBand]
    by_cases hk : k = x
    · subst hk; simp [hx]
    · simp [hk]

/-- R173, R174: the band of every sector after a store. -/
theorem Memory.band_store (m : Memory) (a : Nat) (bs : List Byte) (p poison : Bool) (tag sec : Nat) :
    (m.store a bs p poison tag).band sec = if sec ∈ sectors a bs.length
      then (m.band sec).put (covers a bs.length sec) p poison tag else m.band sec :=
  Memory.band_setBands (fun sec b => b.put (covers a bs.length sec) p poison tag) _ (sectors_nodup ..) _ _

theorem Band.put_tag (b : Band) (full p poison : Bool) (tag : Nat) : (b.put full p poison tag).tag = tag := rfl

theorem Band.put_p (b : Band) (full p poison : Bool) (tag : Nat) :
    (b.put full p poison tag).p = true ↔ p = true ∨ (b.p = true ∧ ¬ full = true) := by
  simp [Band.put, and_comm]

theorem Band.put_poison (b : Band) (full p poison : Bool) (tag : Nat) :
    (b.put full p poison tag).poison = true ↔ poison = true ∨ (b.poison = true ∧ ¬ full = true) := by
  simp [Band.put, and_comm]

/-- Settles O27: bytes by reading after a write, bands by the one update of each touched sector. -/
theorem storedBytes : Obligations.StoredBytes := by
  unfold Obligations.StoredBytes
  intro m key bs p poison tag hwf hbs
  have hn : bs.length ≠ 0 := fun h => hbs (List.length_eq_zero_iff.1 h)
  refine ⟨Memory.wf_store _ _ _ _ _ _ hwf, fun k => ?_, fun sec hsec => ?_, fun sec hlo hhi => ?_⟩
  · split
    next hk =>
      have := Memory.byte_store_in m key bs p poison tag (k - key) (by omega)
      rwa [show key + (k - key) = k by omega] at this
    next hk => exact Memory.byte_store_out _ _ _ _ _ _ _ (by omega)
  · refine Memory.band_store_out _ _ _ _ _ _ _ ?_
    rw [mem_sectors _ _ _ hn]
    omega
  · rw [Memory.band_store, if_pos ((mem_sectors _ _ _ hn).2 ⟨hlo, hhi⟩), Band.put_p, Band.put_poison, covers_iff]
    exact ⟨Band.put_tag .., .rfl, .rfl⟩

end Sys2Proof.Machine
end

section
/-! SUPPORT. The events of the host (R66 to R70, R81, R154): one equation per operation and case, and the statement that
is assembled from them. -/

namespace Sys2Proof.Machine
open Sys2Proof

/-- Two states that are one end an event alike; each event below is reduced by it to its operation on the state. -/
theorem next_tick {u v : State} (h : u = v) : (Host.Outcome.next u.tick : Out) = .next v.tick := by rw [h]

/-! ### Doorbells and queues (R69, R70) -/

/-- R70: a doorbell of a bound partition moves TAIL where the queue may take it, and else sets OVF. -/
theorem State.doorbell_eq (s : State) (part q : Nat) (v : Word) (hpart : part < 16) (hq : q < 64)
    (hsafe : s.dev.safe = false) (hsilent : s.dev.silent = false)
    (hbound : (s.parts.getD part Part.reset).bound = true) :
    s.doorbell part q v =
      if (s.parts.getD part Part.reset).drain = false
        ∧ (v.toNat + 2 ^ 32 - (s.queue part q).head) % 2 ^ 32 ≤ (s.queue part q).ring
        ∧ (v.toNat + 2 ^ 32 - (s.queue part q).tail) % 2 ^ 32 < 2 ^ 31
      then s.updQueue part q fun y => { y with tail := v.toNat }
      else s.updQueue part q fun y => { y with ovf := true } := by
  have hp : ¬ 16 ≤ part := by omega
  have hq : ¬ 64 ≤ q := by omega
  simp only [State.doorbell, hsafe, hsilent, hbound, hp, hq, decide_false, Bool.or_self, Bool.not_true, Bool.false_eq_true,
    if_false, Bool.or_eq_true, decide_eq_true_eq]
  split
  next h =>
    rw [if_neg]
    rintro ⟨hdrain, hhead, htail⟩
    rcases h with (h | h) | h
    · rw [hdrain] at h; cases h
    · omega
    · omega
  next h =>
    rw [if_pos]
    simp only [not_or, Bool.not_eq_true, Nat.not_lt, Nat.not_le] at h
    obtain ⟨⟨hdrain, hhead⟩, htail⟩ := h
    exact ⟨hdrain, hhead, htail⟩

theorem State.setEnable_eq (s : State) (part q : Nat) (on : Bool) (hpart : part < 16) (hq : q < 64)
    (hsilent : s.dev.silent = false) : s.setEnable part q on = s.updQueue part q fun y => { y with enable := on } := by
  simp [State.setEnable, hpart, hq, hsilent]

/-! ### Partitions (R67, R68) -/

theorem State.setDrain_eq (s : State) (part : Nat) (on : Bool) (hsilent : s.dev.silent = false) :
    s.setDrain part on = s.updPart part fun p => { p with drain := on } := by
  simp [State.setDrain, hsilent]

/-- A code word that is read changes nothing outside the device and the memory (R171). -/
theorem State.upset_frame (s : State) (u : Upset) : ∃ d m, s.upset u = { s with dev := d, mem := m } := by
  unfold State.upset
  dsimp only
  split
  · split
    · exact ⟨_, _, rfl⟩
    · exact ⟨s.dev, s.mem, rfl⟩
  · exact ⟨_, _, rfl⟩
  · exact ⟨s.dev, _, rfl⟩
  · exact ⟨s.dev, s.mem, rfl⟩

theorem State.upsets_frame (us : List Upset) (s : State) : ∃ d m, us.foldl State.upset s = { s with dev := d, mem := m } := by
  induction us generalizing s with
  | nil => exact ⟨s.dev, s.mem, rfl⟩
  | cons u us ih =>
    obtain ⟨d, m, hu⟩ := s.upset_frame u
    obtain ⟨d', m', hus⟩ := ih (s.upset u)
    exact ⟨d', m', by rw [List.foldl_cons, hus, hu]⟩

theorem State.classify_frame (s : State) (key len : Nat) : ∃ d m, s.classify key len = { s with dev := d, mem := m } := by
  unfold State.classify
  dsimp only
  split
  · exact ⟨s.dev, s.mem, rfl⟩
  · exact State.upsets_frame _ _

theorem State.classify_of_no_upsets (s : State) (key len : Nat) (h : s.dev.upsets = []) : s.classify key len = s := by
  simp [State.classify, h]

theorem State.xlatReads_frame (s : State) (v : Nat) : ∃ d m, s.xlatReads v = { s with dev := d, mem := m } := by
  unfold State.xlatReads
  split
  · exact ⟨s.dev, s.mem, rfl⟩
  · exact s.classify_frame _ _

/-- Clearing the W buffers of a partition's cores (R147) changes memory alone. -/
theorem State.clearW_frame (ks : List Nat) (s : State) :
    ∃ m, ks.foldl (fun s k => { s with mem := s.mem.clear (wKey k 0) (2 ^ 24) }) s = { s with mem := m } := by
  induction ks generalizing s with
  | nil => exact ⟨s.mem, rfl⟩
  | cons k ks ih =>
    obtain ⟨m, h⟩ := ih { s with mem := s.mem.clear (wKey k 0) (2 ^ 24) }
    exact ⟨m, h⟩

section
variable (s : State) (part : Nat) (p : Part) (hp : s.parts.getD part Part.reset = p) (hpart : part < 16)
  (hsilent : s.dev.silent = false) (hbound : p.bound = false)
include hp hpart hsilent hbound

/-- R68: a bind is refused where a quad is taken or the descriptor is bad. -/
theorem State.bindPart_refused (h : (s.xlatReads p.xlatReg).quadTaken part p.quadmask = true
      ∨ (s.xlatReads p.xlatReg).readXlat p.xlatReg = none) :
    s.bindPart part = (s.xlatReads p.xlatReg).updPart part fun p => { p with binderr := true } := by
  have hin : ¬ 16 ≤ part := by omega
  simp only [State.bindPart, hp, hin, hbound, hsilent, decide_false, Bool.or_self, Bool.false_eq_true, if_false]
  split
  next => rfl
  next hq => rw [h.resolve_left hq]

/-- R68: a bind that is taken writes its partition's entry; all else that it changes is in the device and the memory. -/
theorem State.bindPart_taken (x : Xlat) (hq : (s.xlatReads p.xlatReg).quadTaken part p.quadmask = false)
    (hx : (s.xlatReads p.xlatReg).readXlat p.xlatReg = some x) :
    ∃ m d, s.bindPart part = { s.updPart part (fun p => { p with bound := true, x := some x }) with dev := d, mem := m } := by
  have hin : ¬ 16 ≤ part := by omega
  simp only [State.bindPart, hp, hin, hbound, hsilent, hq, hx, decide_false, Bool.or_self, Bool.false_eq_true, if_false]
  obtain ⟨d, m, hv⟩ := s.xlatReads_frame p.xlatReg
  exact (State.clearW_frame _ _).imp fun m' hw => ⟨d, hw.trans (by rw [hv]; rfl)⟩

end

/-- R68: an unbind of a drained partition. -/
theorem State.unbindPart_drained (s : State) (part : Nat) (hbound : (s.parts.getD part Part.reset).bound = true)
    (hdrained : s.isDrained part = true) :
    s.unbindPart part = { s.updPart part (fun p => { p with bound := false, x := none }) with
      tlb := s.tlb.filter fun t => t.ctx ≠ part } := by
  simp only [State.unbindPart, hbound, hdrained, Bool.not_true, Bool.or_self, Bool.false_eq_true, if_false]
  rfl

theorem State.unbindPart_undrained (s : State) (part : Nat) (h : s.isDrained part = false) : s.unbindPart part = s := by
  simp [State.unbindPart, h]

/-! ### Freeze controls (R81) -/

section
variable {s : State} {n : Nat} {e : Freeze} (he : s.flogAt n = some e) (hsilent : s.dev.silent = false)
include he hsilent

theorem State.fctl_unfreeze : s.fctl 1 n = (s.dropFreeze n).thaw e := by
  simp [State.fctl, he, hsilent]

theorem State.fctl_kill (hm : e.master ≠ 4) : s.fctl 2 n = s.kill e.ctx := by
  simp [State.fctl, he, hsilent]

theorem State.fctl_killLink (hm : e.master = 4) : s.fctl 2 n = (s.dropFreeze n).fenceLink e.unit := by
  simp [State.fctl, he, hsilent, hm]

theorem State.fctl_skip (hm : e.master = 3) : s.fctl 3 n = (s.dropFreeze n).skipStage e.ctx e.unit := by
  simp [State.fctl, he, hsilent, hm]

end

/-- The side-logged writes that `f` picks may replay again. -/
def Core.freeSide (f : SideEnt → Bool) (c : Core) : Core :=
  { c with side := c.side.map fun x => if f x then { x with stuck := false } else x }

theorem State.thaw_group (u : State) (e : Freeze) (hm : e.master = 1)
    (h : ∀ f ∈ u.flog, f.master = 1 → f.core = e.core → f.unit ≠ e.unit) :
    u.thaw e = (u.updCore e.core (Core.freeSide fun x => x.agent.path = .T && x.agent.gid = 512 * e.core + e.unit)).updGrp
      (512 * e.core + e.unit) fun g => { g with frozen := false } := by
  have hany : (u.flog.any fun f => f.master = 1 && f.core = e.core && f.unit = e.unit) = false := by
    rw [List.any_eq_false]
    intro f hf
    simp only [Bool.and_eq_true, decide_eq_true_eq, not_and]
    exact fun ⟨h1, h2⟩ => h f hf h1 h2
  unfold State.thaw
  simp only [hm, hany, Bool.false_eq_true, if_false]
  rfl

theorem State.thaw_group_held (u : State) (e : Freeze) (hm : e.master = 1)
    (h : ∃ f ∈ u.flog, f.master = 1 ∧ f.core = e.core ∧ f.unit = e.unit) : u.thaw e = u := by
  have hany : (u.flog.any fun f => f.master = 1 && f.core = e.core && f.unit = e.unit) = true := by
    obtain ⟨f, hf, h1, h2, h3⟩ := h
    exact List.any_eq_true.2 ⟨f, hf, by simp [h1, h2, h3]⟩
  unfold State.thaw
  simp only [hm, hany, if_true]

theorem State.thaw_engines (u : State) (e : Freeze) (hm : e.master = 2) :
    u.thaw e = u.updCore e.core fun c => Core.freeSide (fun x => x.agent.path ≠ .T && x.ctx = e.ctx)
      { c with engFrozen := c.engFrozen.filter (· ≠ e.ctx) } := by
  unfold State.thaw
  simp only [hm]
  rfl

theorem State.thaw_queue (u : State) (e : Freeze) (hm : e.master = 3) : u.thaw e = u.recheck e.ctx e.unit := by
  unfold State.thaw
  simp only [hm]

theorem State.thaw_link (u : State) (e : Freeze) (hm : e.master = 4) (h : u.link e.unit = .frozen) :
    u.thaw e = u.openLink e.unit := by
  unfold State.thaw
  simp only [hm, h, if_true]

/-! ### Registers (R66) -/

section
variable {s : State} (hsilent : s.dev.silent = false)
include hsilent

/-- A register write to `FCTL` (R81). -/
theorem State.barWrite_fctl (w : Word) : s.barWrite 0x10 w = s.fctl (w.toNat / 2 ^ 30) (w.toNat % 64) := by
  simp [State.barWrite, hsilent]

/-- A register write to `FSTAT` (R80). -/
theorem State.barWrite_fstat (w : Word) :
    s.barWrite 0x14 w = if w.toNat / 2 ^ 31 = 1 then { s with logovf := false } else s := by
  simp [State.barWrite, hsilent]

/-- A register write to a doorbell's page (R70). -/
theorem State.barWrite_doorbell (part q : Nat) (w : Word) (hpart : part < 16) (hq : q < 64) :
    s.barWrite (0x20000 + 0x1000 * part + 4 * q) w = s.doorbell part q w := by
  generalize hoff : 0x20000 + 0x1000 * part + 4 * q = off
  have h : off % 4 = 0 ∧ off ≠ 0x10 ∧ off ≠ 0x14 ∧ ¬ off < 0x1200 ∧ ¬ off < 0x18000 ∧ 0x20000 ≤ off ∧ off < 0x30000
    ∧ off % 0x1000 < 0x100 ∧ (off - 0x20000) / 0x1000 = part ∧ off % 0x1000 / 4 = q := by omega
  obtain ⟨h0, h1, h2, h3, h4, h5, h6, h7, h8, h9⟩ := h
  simp [State.barWrite, *]

/-- A register write to a queue's TAIL (R69). -/
theorem State.barWrite_tail (part q : Nat) (w : Word) (hpart : part < 16) (hq : q < 64) :
    s.barWrite (0x10000 + 0x800 * part + 32 * q + 0x14) w = s.doorbell part q w := by
  generalize hoff : 0x10000 + 0x800 * part + 32 * q + 0x14 = off
  have h : off % 4 = 0 ∧ off ≠ 0x10 ∧ off ≠ 0x14 ∧ ¬ off < 0x1200 ∧ 0x10000 ≤ off ∧ off < 0x18000
    ∧ (off - 0x10000) / 0x800 = part ∧ (off - 0x10000) % 0x800 / 32 = q ∧ off % 32 = 0x14 := by omega
  obtain ⟨h0, h1, h2, h3, h4, h5, h6, h7, h8⟩ := h
  simp [State.barWrite, State.writeQueue, *]

omit hsilent in
theorem State.barWrite_unaligned (off : Nat) (w : Word) (h : off % 4 ≠ 0) : s.barWrite off w = s := by
  simp [State.barWrite, h]

omit hsilent in
theorem State.barRead_fctl : s.barRead 0x10 = 0 := by simp [State.barRead]

theorem State.barRead_fstat : s.barRead 0x14 = (if s.logovf then 2 ^ 31 else 0) + s.flog.length := by
  simp [State.barRead, State.fstat, bit, hsilent]

/-- A word of a freeze-log slot (R80). -/
theorem State.barRead_slot (off slot k : Nat) (hoff : off = 0x2000 + 16 * slot + 4 * k) (hslot : slot < 64) (hk : k < 4) :
    s.barRead off = (s.freezeWords slot).getD k 0 := by
  have h : off % 4 = 0 ∧ off ≠ 0x14 ∧ ¬ off < 0x1200 ∧ 0x2000 ≤ off ∧ off < 0x2400
    ∧ (off - 0x2000) / 16 = slot ∧ off % 16 / 4 = k := by omega
  clear hoff
  obtain ⟨h0, h1, h2, h3, h4, h5, h6⟩ := h
  simp [State.barRead, *]

/-- The status word of the mailbox (R37). -/
theorem State.barRead_mail : s.barRead 0xF000 = (if s.dev.safe then 2 ^ 31 else 0) + (if s.dev.ready then 2 ^ 30 else 0)
    + s.dev.stage * 2 ^ 8 + s.dev.mail.length := by
  simp [State.barRead, Device.mailStatus, bit, hsilent]

end

theorem State.freezeWords_some {s : State} {slot : Nat} {e : Freeze} (he : s.flogAt slot = some e) :
    s.freezeWords slot = [e.master * 2 ^ 28 + e.ctx * 2 ^ 24 + e.cause * 2 ^ 16 + e.seq, e.core * 2 ^ 9 + e.unit,
      e.addr % 2 ^ 32, e.addr / 2 ^ 32] := by
  simp only [State.freezeWords, he]

theorem State.freezeWords_none {s : State} {slot : Nat} (he : s.flogAt slot = none) :
    s.freezeWords slot = [0, 0, 0, 0] := by
  simp only [State.freezeWords, he]

theorem State.barBytes_word (s : State) (off : Nat) (h : off % 4 = 0) :
    s.barBytes off 4 = (List.range 4).map fun i => s.barRead off / 2 ^ (8 * i) % 256 := by
  refine List.map_congr_left fun i hi => ?_
  have hi := List.mem_range.1 hi
  rw [show (off + i) / 4 * 4 = off by omega, show (off + i) % 4 = i by omega]

/-! ### Accesses of the host (R154) -/

/-- R33, R66: a device that enumerates answers an access to its registers. -/
theorem execHostAccess_reg (x : HostAcc) (s : State) (hsilent : s.dev.silent = false) (hreg : x.reg = true) :
    exec (.hostAccess x) s = .next (s.hostReg x).tick :=
  next_tick ((if_neg (by simp [hsilent])).trans (if_pos hreg))

/-- R33, R154: a device that enumerates answers an access to its memory. -/
theorem execHostAccess_mem (x : HostAcc) (s : State) (hsilent : s.dev.silent = false) (hreg : x.reg = false) :
    exec (.hostAccess x) s = .next (s.hostMem x).tick :=
  next_tick ((if_neg (by simp [hsilent])).trans (if_neg (by simp [hreg])))

/-- An access inside one sector is made in one part. -/
theorem chunks_one (a n : Nat) (hn : 0 < n) (h : a % 32 + n ≤ 32) : chunks a n = [(a, n)] := by
  have h1 : min n (32 - a % 32) = n := by omega
  have h2 : (n - n + 31) / 32 = 0 := by omega
  simp only [chunks, if_neg (show n ≠ 0 by omega), h1, h2, List.range_zero, List.map_nil]

/-- R154: while partition 0 is unbound the host reaches physical memory. -/
theorem State.hostKey_unbound (s : State) (die a : Nat) (wr : Bool) (hdie : die < 4) (ha : a < 2 ^ 37)
    (hbound : (s.parts.getD 0 Part.reset).bound = false) :
    s.hostKey (die * 2 ^ 37 + a) wr = (s, if s.paPresent die a then some (globalKey die a) else none) := by
  have h1 : (die * 2 ^ 37 + a) / 2 ^ 37 % 4 = die := by omega
  have h2 : (die * 2 ^ 37 + a) % 2 ^ 37 = a := by omega
  have h3 : ¬ 2 ^ 39 ≤ die * 2 ^ 37 + a := by omega
  simp only [State.hostKey, h1, h2, h3, hbound, if_false, Bool.not_false, if_true]

/-- The host's bytes are stored as settled data, with tag 0 (R173); the partitions stand. -/
theorem State.put_host (s : State) (key n : Nat) (bs : List Byte) :
    let u := s.put (hwWho 0 0) (Acc.write .global 0 n false) key bs false false false
    u.mem = s.mem.store key bs false false 0 ∧ u.parts = s.parts := by
  simp [State.put, State.watchesSee, Acc.write, vaTag]

/-- Where no record is pending, the monitors do nothing. -/
theorem State.recsAct_of_none_pending (s : State) (h : ∀ k, k < 16 → s.pendingOf k = []) : s.recsAct = s := by
  unfold State.recsAct
  refine List.foldlRecOn (List.range 16) _ (motive := fun u => u = s) rfl fun u hu n hn => ?_
  rw [hu, h n (List.mem_range.1 hn)]
  rfl

theorem State.pendingOf_congr {s u : State} (h : u.parts = s.parts) (n : Nat) : u.pendingOf n = s.pendingOf n := by
  simp only [State.pendingOf, State.xlat?, h]

section
variable (s : State) (cxl : Bool) (off n : Nat) (hn : 0 < n) (hsec : off % 32 + n ≤ 32)
include hn hsec

/-- A write of the host inside a sector stores its bytes at the key that it reaches. -/
theorem State.hostMem_write (d : List Byte) (key : Nat) (hkey : s.hostKey off true = (s, some key)) (hlen : d.length = n)
    (hpending : ∀ k, k < 16 → s.pendingOf k = []) :
    (s.hostMem ⟨false, cxl, true, off, n, d⟩).mem = s.mem.store key d false false 0 := by
  have htake : d.take n = d := List.take_of_length_le (by omega)
  obtain ⟨hmem, hparts⟩ := s.put_host key n d
  have hbytes : hostBytes ⟨false, cxl, true, off, n, d⟩ = d := by simp [hostBytes, hlen]
  simp only [State.hostMem, if_true, chunks_one off n hn hsec, hbytes, State.hostWriteList, hkey, htake]
  rw [State.recsAct_of_none_pending, hmem]
  intro k hk
  rw [State.pendingOf_congr hparts, hpending k hk]

/-- A read of the host inside a sector gives the bytes at the key that it reaches. -/
theorem State.hostMem_read (key : Nat) (hkey : s.hostKey off false = (s, some key)) (hupsets : s.dev.upsets = []) :
    s.hostMem ⟨false, cxl, false, off, n, []⟩ = s.reply 0 ((s.mem.read key n).map BitVec.toNat) := by
  simp only [State.hostMem, chunks_one off n hn hsec, State.hostReadList, hkey,
    State.classify_of_no_upsets s _ _ hupsets, Bool.false_eq_true, if_false, List.append_nil]

/-- A read of the host that reaches no memory gives zeros (log entry 31). -/
theorem State.hostMem_read_absent (hkey : s.hostKey off false = (s, none)) :
    s.hostMem ⟨false, cxl, false, off, n, []⟩ = s.reply 0 (List.replicate n 0) := by
  simp only [State.hostMem, chunks_one off n hn hsec, State.hostReadList, hkey, Bool.false_eq_true, if_false,
    List.append_nil, List.map_replicate]
  rfl

end

/-! ### The events -/

/-- Settles O51: each clause is the equation of its event. -/
theorem hostEvents : Obligations.HostEvents := by
  unfold Obligations.HostEvents
  refine ⟨?doorbells, ?partitions, ?freezes, ?writes, ?reads, ?accesses⟩
  case doorbells =>
    intro s part q v hpart hq hsafe hsilent hbound
    have hdoor := s.doorbell_eq part q v hpart hq hsafe hsilent hbound
    refine ⟨fun hok => ?_, fun hbad => ?_, fun on => next_tick (s.setEnable_eq part q on hpart hq hsilent)⟩
    · rw [if_pos hok] at hdoor
      exact ⟨next_tick hdoor, next_tick hdoor⟩
    · rw [if_neg hbad] at hdoor
      exact ⟨next_tick hdoor, next_tick hdoor⟩
  case partitions =>
    intro s part hpart hsilent
    refine ⟨fun on => next_tick (s.setDrain_eq part on hsilent),
      fun hbound h => next_tick (s.bindPart_refused part _ rfl hpart hsilent hbound h), fun x hbound hq hx => ?_,
      fun hbound hdrained => ?_, fun h => next_tick (s.unbindPart_undrained part h)⟩
    · obtain ⟨m, d, h⟩ := s.bindPart_taken part _ rfl hpart hsilent hbound x hq hx
      exact ⟨_, next_tick h, rfl, rfl, rfl⟩
    · exact ⟨_, next_tick (s.unbindPart_drained part hbound hdrained), rfl, rfl, rfl⟩
  case freezes =>
    intro s n e he hsilent
    have hun := State.fctl_unfreeze he hsilent
    refine ⟨fun hm => ⟨fun h => next_tick (hun.trans ?_), fun h => next_tick (hun.trans ?_)⟩,
      fun hm => next_tick (hun.trans ?_), fun hm => ⟨next_tick (hun.trans ?_), next_tick ?_⟩,
      fun hm => next_tick ?_, fun hm => next_tick ?_, fun hm hlink => next_tick (hun.trans ?_)⟩
    · exact State.thaw_group _ e hm h
    · exact State.thaw_group_held _ e hm h
    · exact State.thaw_engines _ e hm
    · exact State.thaw_queue _ e hm
    · exact State.fctl_skip he hsilent hm
    · exact State.fctl_kill he hsilent hm
    · exact State.fctl_killLink he hsilent hm
    · exact State.thaw_link _ e hm hlink
  case writes =>
    intro s v hsilent
    exact ⟨next_tick (State.barWrite_fctl hsilent v), next_tick (State.barWrite_fstat hsilent v),
      fun part q hpart hq => next_tick (State.barWrite_doorbell hsilent part q v hpart hq),
      fun part q hpart hq => next_tick (State.barWrite_tail hsilent part q v hpart hq),
      fun off hoff => next_tick (State.barWrite_unaligned off v hoff)⟩
  case reads =>
    intro s cxl off hsilent hoff
    have hevent := execHostAccess_reg ⟨true, cxl, false, off, 4, []⟩ s hsilent rfl
    refine ⟨hevent.trans (next_tick (congrArg (s.reply 0) (s.barBytes_word off hoff))), State.barRead_fctl,
      State.barRead_fstat hsilent, fun slot e hslot he => ?_, fun slot hslot he => ?_, State.barRead_mail hsilent⟩
    · have hword := fun off k => State.barRead_slot hsilent off slot k
      rw [State.freezeWords_some he] at hword
      exact ⟨hword _ 0 (by omega) hslot (by omega), hword _ 1 (by omega) hslot (by omega),
        hword _ 2 (by omega) hslot (by omega), hword _ 3 (by omega) hslot (by omega)⟩
    · have hword := State.barRead_slot hsilent (0x2000 + 16 * slot) slot 0 (by omega) hslot (by omega)
      rwa [State.freezeWords_none he] at hword
  case accesses =>
    intro s cxl die a n d hdie hsec hn ha hbound hsilent hupsets hpending
    have hkey := fun wr => s.hostKey_unbound die a wr hdie (by omega) hbound
    have hevent := fun x hx => execHostAccess_mem x s hsilent hx
    have hsec : (die * 2 ^ 37 + a) % 32 + n ≤ 32 := by omega
    generalize die * 2 ^ 37 + a = off at hkey hsec
    refine ⟨fun hpresent hlen => ⟨⟨_, hevent _ rfl, ?_⟩, (hevent _ rfl).trans (next_tick ?_)⟩,
      fun habsent => (hevent _ rfl).trans (next_tick ?_)⟩
    · rw [if_pos hpresent] at hkey
      rw [State.tick_mem]
      exact s.hostMem_write cxl off n hn hsec d _ (hkey true) hlen hpending
    · rw [if_pos hpresent] at hkey
      exact s.hostMem_read cxl off n hn hsec _ (hkey false) hupsets
    · rw [habsent] at hkey
      exact s.hostMem_read_absent cxl off n hn hsec (hkey false)

end Sys2Proof.Machine
end

section
/-! SUPPORT. The events of translation (R151, R159, R163 to R170): one equation per operation and case, and the statement
that is assembled from them. -/

namespace Sys2Proof.Machine
open Sys2Proof

/-! ### Commands of a die's ring (R163 to R166) -/

section
variable {s0 s : State} {part die : Nat} {c : XCmd} {d : DieX} (hs : s0.cmdReads part die = s)
  (hcmd : s.nextCmd part die = some c) (hdie : s.dieX? part die = some d)
include hs hcmd hdie

/-- R163: a command in its turn runs as its operation says, and its STATUS is 1 where it is done and 2 where it is malformed. -/
theorem State.runCmd_turn (hsize : c.size ≠ 3) {op : Nat} (hop : c.op = op) (hpos : 0 < op) (hmax : op ≤ 5)
    (f : State → XCmd → DieX → State × Bool) {t : State} {ok : Bool} (hf : f s c d = (t, ok)) :
    s0.runCmd part die op f = t.cmdStatus part die c (if ok then 1 else 2) := by
  have hok : ¬ (c.op = 0 || 5 < c.op || (c.op = op && c.size = 3)) = true := by
    simp only [Bool.or_eq_true, Bool.and_eq_true, decide_eq_true_eq, not_or, not_and]
    exact ⟨⟨by omega, by omega⟩, fun _ => hsize⟩
  simp only [State.runCmd, hs, hcmd, hdie]
  rw [if_neg hok, if_neg (fun h => h hop), hf]
  cases ok <;> rfl

end

/-! ### Fault records (R167, R168) -/

@[simp] theorem State.devStore_parts (s : State) (key : Nat) (bs : List Byte) : (s.devStore key bs).parts = s.parts := rfl
@[simp] theorem State.devStore_mem (s : State) (key : Nat) (bs : List Byte) :
    (s.devStore key bs).mem = s.mem.store key bs false false 0 := rfl

theorem Memory.num_store_byte (m : Memory) (key : Nat) (b : Byte) (p poison : Bool) (tag : Nat) :
    (m.store key [b] p poison tag).num key 1 = b.toNat := by
  have hbyte := m.byte_store_in key [b] p poison tag 0 (by simp)
  simp only [Nat.add_zero] at hbyte
  simp [Memory.num, Memory.read, leNat, hbyte]

theorem State.die_of_granOf {s : State} {part die n : Nat} {g : Gran} (h : s.granOf part die n = some g) : g.die = die := by
  unfold State.granOf at h
  split at h
  · have hg := List.find?_some h
    simp only [Bool.and_eq_true, decide_eq_true_eq] at hg
    obtain ⟨⟨hdie, -⟩, -⟩ := hg
    exact hdie
  · cases h

/-- A granule that waits on a record of a bound die has a record. -/
theorem State.recKey_of_granOf {s : State} {part die n : Nat} {g : Gran} (h : s.granOf part die n = some g) :
    ∃ k, s.recKey part g = some k := by
  have hdie := State.die_of_granOf h
  unfold State.granOf at h
  split at h
  next x d _ hd => exact ⟨d.frKey g.die g.rec_, by rw [State.recKey, hdie, hd]; rfl⟩
  next => cases h

theorem State.recStatus_of_recKey {s : State} {part k : Nat} {g : Gran} (hk : s.recKey part g = some k) (v : Nat) :
    s.recStatus part g v = s.devStore k [BitVec.ofNat 8 v] := by
  simp only [State.recStatus, hk]

/-- The monitor of a record reads the STATUS that was written there. -/
theorem State.recKey_status {s : State} {part k : Nat} {g : Gran} (hk : s.recKey part g = some k) (v : Nat) (hv : v < 256) :
    ((s.recStatus part g v).recKey part g).map (fun k => (s.recStatus part g v).mem.num k 1) = some v := by
  rw [State.recStatus_of_recKey hk]
  have hk' : (s.devStore k [BitVec.ofNat 8 v]).recKey part g = some k := hk
  rw [hk', Option.map_some, State.devStore_mem, Memory.num_store_byte, BitVec.toNat_ofNat, Nat.mod_eq_of_lt hv]

/-- R167: a record that the host has mapped has its granule walked again. -/
theorem State.hostStatus_mapped {s : State} {part die n : Nat} {g : Gran} (h : s.granOf part die n = some g) :
    s.hostStatus part die n 2 = (s.recStatus part g 2).recMapped part g := by
  obtain ⟨k, hk⟩ := State.recKey_of_granOf h
  simp only [State.hostStatus, h, State.recActs, State.recKey_status hk 2 (by omega)]

/-- R168: a record that the host has refused ends its held reads. -/
theorem State.hostStatus_refused {s : State} {part die n : Nat} {g : Gran} (h : s.granOf part die n = some g) :
    s.hostStatus part die n 3 = (s.recStatus part g 3).recRefused part g := by
  obtain ⟨k, hk⟩ := State.recKey_of_granOf h
  simp only [State.hostStatus, h, State.recActs, State.recKey_status hk 3 (by omega)]

/-- Steps that change the device and the memory alone make up one that does. -/
theorem State.fold_frame {α : Type} (f : State → α → State) (h : ∀ s a, ∃ d m, f s a = { s with dev := d, mem := m })
    (l : List α) (s : State) : ∃ d m, l.foldl f s = { s with dev := d, mem := m } := by
  induction l generalizing s with
  | nil => exact ⟨s.dev, s.mem, rfl⟩
  | cons a l ih =>
    obtain ⟨d, m, ha⟩ := h s a
    obtain ⟨d', m', hl⟩ := ih (f s a)
    exact ⟨d', m', by rw [List.foldl_cons, hl, ha]⟩

theorem State.walkReads_frame (s : State) (x : Xlat) (die off : Nat) :
    ∃ d m, s.walkReads x die off = { s with dev := d, mem := m } := by
  unfold State.walkReads
  split
  · exact ⟨s.dev, s.mem, rfl⟩
  · split
    · exact ⟨s.dev, s.mem, rfl⟩
    · refine State.fold_frame _ (fun s size => ?_) _ _
      split
      · exact ⟨s.dev, s.mem, rfl⟩
      · exact State.fold_frame _ (fun s k => s.classify_frame k 64) _ _

theorem State.walkReads_xlat? (s : State) (x : Xlat) (die off part : Nat) :
    (s.walkReads x die off).xlat? part = s.xlat? part := by
  obtain ⟨d, m, h⟩ := s.walkReads_frame x die off
  rw [h]
  rfl

section
variable {m : State} {part : Nat} {g : Gran} {x : Xlat} (hx : m.xlat? part = some x)
include hx

/-- R167: the walk of a mapped record's granule finds its page. -/
theorem State.recMapped_found {w : Nat × Nat}
    (hw : (m.walkReads x g.die (g.gran * 2 ^ 16)).walk x g.die (g.gran * 2 ^ 16) = some w) :
    m.recMapped part g = ((m.walkReads x g.die (g.gran * 2 ^ 16)).recStatus part g 0).updGran part g fun h =>
      { h with mapped := true } := by
  simp only [State.recMapped, hx, State.walkReads_xlat?, Option.bind_some, hw]

/-- R167: the walk of a mapped record's granule misses again. -/
theorem State.recMapped_missed
    (hw : (m.walkReads x g.die (g.gran * 2 ^ 16)).walk x g.die (g.gran * 2 ^ 16) = none) :
    m.recMapped part g = ((m.walkReads x g.die (g.gran * 2 ^ 16)).recStatus part g 1).signalF part := by
  simp only [State.recMapped, hx, State.walkReads_xlat?, Option.bind_some, hw]

end

/-! ### Closed granules and side logs (R168 to R170) -/

/-- Some side log holds a write for a granule that may replay. -/
theorem State.anySide_iff (s : State) (part : Nat) (g : Gran) :
    (s.cores.any fun k => k.2.side.any fun e => !e.stuck && e.inGran part g) = true ↔
      ∃ k ∈ s.cores, ∃ e ∈ k.2.side, e.stuck = false ∧ e.inGran part g = true := by
  simp only [List.any_eq_true, Bool.and_eq_true, Bool.not_eq_true']

section
variable {s : State} {part die gran : Nat} {x : Xlat} {g : Gran} (hx : s.xlat? part = some x)
  (hg : (x.closed.find? fun g => g.die = die && g.gran = gran && (g.mapped || g.denied)) = some g)
include hx hg

/-- R168: a granule that is done with its record reopens once no side log holds a write for it that may replay. -/
theorem execGranuleReopen_eq : execGranuleReopen part die gran s =
    .next (if s.cores.any fun k => k.2.side.any fun e => !e.stuck && e.inGran part g then s
      else s.updX part fun x => { x with closed := x.closed.filter fun h => !h.is g }).tick := by
  simp only [execGranuleReopen, hx, hg]
  split <;> rfl

end

/-- R169: the entry that replays next is not stuck, and no entry before it is in its line. -/
theorem State.sideNext_spec {s : State} {es : List SideEnt} {i : Nat} {e : SideEnt} (hi : s.sideNext es = some i)
    (he : es[i]? = some e) :
    e.stuck = false ∧ ∀ f ∈ es.take i, f.ctx = e.ctx → s.lineOf f.va ≠ s.lineOf e.va := by
  have hpick := List.find?_some hi
  simp only [he, Bool.and_eq_true, Bool.not_eq_true', List.any_eq_false, decide_eq_true_eq, not_and] at hpick
  exact hpick

theorem execSideLogReplay_none {s : State} {core : Nat} (hi : s.sideNext (s.core core).side = none) :
    execSideLogReplay core s = .next s.tick := by
  simp [execSideLogReplay, hi]

section
variable {s : State} {core i : Nat} {e : SideEnt} (hi : s.sideNext (s.core core).side = some i)
  (he : (s.core core).side[i]? = some e)
include hi he

/-- R169: the next entry is replayed where its granule is open. -/
theorem execSideLogReplay_open (hg : (((s.xlat? e.ctx).map Xlat.closed).getD []).find? (e.inGran e.ctx) = none) :
    execSideLogReplay core s = .next (s.sideReplay core ((s.core core).side.take i) e
      ((s.core core).side.drop (i + 1))).drainFrozen.tick := by
  simp only [execSideLogReplay, hi, Option.getD_some, he, hg]

section
variable {g : Gran} (hg : (((s.xlat? e.ctx).map Xlat.closed).getD []).find? (e.inGran e.ctx) = some g)
include hg

/-- R168: it is replayed where its granule's record ended mapped. -/
theorem execSideLogReplay_mapped (hmapped : g.mapped = true) (hdenied : g.denied = false) :
    execSideLogReplay core s = .next (s.sideReplay core ((s.core core).side.take i) e
      ((s.core core).side.drop (i + 1))).drainFrozen.tick := by
  simp only [execSideLogReplay, hi, Option.getD_some, he, hg, hdenied, hmapped, Bool.false_eq_true, if_false, if_true]

/-- R170: it is dropped where the record ended refused. -/
theorem execSideLogReplay_denied (hdenied : g.denied = true) : execSideLogReplay core s =
    .next ((s.updCore core fun c => { c with side := (s.core core).side.take i ++ (s.core core).side.drop (i + 1) }).sideFails
      core e 0x09).drainFrozen.tick := by
  simp only [execSideLogReplay, hi, Option.getD_some, he, hg, hdenied, if_true]

/-- R168: it waits where the record is pending. -/
theorem execSideLogReplay_waits (hdenied : g.denied = false) (hmapped : g.mapped = false) :
    execSideLogReplay core s = .next s.tick := by
  simp only [execSideLogReplay, hi, Option.getD_some, he, hg, hdenied, hmapped, Bool.false_eq_true, if_false]

end

end

/-! ### Walks (R159) and requests at a slice (R151, R171) -/

/-- R159: a walk goes ahead where the context is bound and the granule is open. -/
theorem execTableWalk_open {s : State} {part die off : Nat} (hx : (s.xlat? part).isSome = true)
    (hopen : s.isClosed part die (off / 2 ^ 16) = false) :
    execTableWalk part die off s = match s.translate part die off with
      | (t, .miss) => .next ((t.closeGran part die (off / 2 ^ 16) 0).getD t).tick
      | (t, _) => .next t.tick := by
  have hgo : ¬ ((s.xlat? part).isNone || s.isClosed part die (off / 2 ^ 16)) = true := by
    rw [hopen, Bool.or_false, Option.isNone_iff_eq_none]
    exact Option.isSome_iff_ne_none.1 hx
  exact if_neg hgo

/-- A request of this device is for the address that it names. -/
theorem reqAcc_addr (r : Req) (hport : r.port = none) : { reqAcc r with addr := reqAddr r } = reqAcc r := by
  have haddr : reqAddr r = r.va.toNat := by simp [reqAddr, hport]
  rw [haddr]
  unfold reqAcc
  cases r.kind <;> rfl

/-- A request whose sector shows nothing leaves the upsets as they were. -/
theorem State.reqMarks_of_no_synd (s : State) (r : Req) (key : Nat) (hsynd : r.synd = 0) : s.reqMarks r key = s := by
  simp [State.reqMarks, hsynd]

/-- R151: a request of this device is translated, checked and performed. -/
theorem State.serve_ok {s s2 : State} {r : Req} {key attr : Nat} (hport : r.port = none) (hsynd : r.synd = 0)
    (hx : (s.xlat? r.ctx).isSome = true)
    (h : (s.translate r.ctx (vaDie r.va.toNat) (vaOff r.va.toNat)).1.reachGlobal ⟨r.agent, r.agent.core, 0, r.ctx⟩ (reqAcc r)
      = (s2, .ok key attr)) :
    s.serve r = s2.reqPerform ⟨r.agent, r.agent.core, 0, r.ctx⟩ r (reqAcc r) key attr := by
  have haddr : reqAddr r = r.va.toNat := by simp [reqAddr, hport]
  have hwho : reqWho r = ⟨r.agent, r.agent.core, 0, r.ctx⟩ := by simp [reqWho, hport]
  have hsome : ¬ (s.xlat? r.ctx).isNone = true := by simp [Option.isSome_iff_ne_none.1 hx]
  have hacc := reqAcc_addr r hport
  rw [haddr] at hacc
  simp only [State.serve, if_neg hsome, hacc, haddr, hwho, State.reqMarks_of_no_synd _ _ _ hsynd, ite_self]
  generalize s.translate r.ctx (vaDie r.va.toNat) (vaOff r.va.toNat) = tr at h ⊢
  obtain ⟨u, res⟩ := tr
  rcases res with ⟨_ | _, pa, a⟩ | _ | _ <;> simp only [h]

/-- A request whose context is not bound violates (R151, R175). -/
theorem State.serve_unbound {s : State} {r : Req} (hx : s.xlat? r.ctx = none) : s.serve r = s.reqViol r 0x0A := by
  simp [State.serve, hx]

section
variable {s : State} {r : Req} {n : Nat} (hport : r.port = some n)
include hport

/-- R32, R81: a port that holds its traffic keeps the request. -/
theorem execSliceRequest_held (h : s.link n = .retraining ∨ s.link n = .frozen) : execSliceRequest r s =
    .next (s.updDev fun d => { d with linkIn := d.linkIn ++ [(n, .sliceRequest r)] }).tick := by
  rcases h with h | h <;> simp only [execSliceRequest, hport, h, State.linkKeeps] <;> rfl

theorem execSliceRequest_lost (h : s.link n = .untrained ∨ s.link n = .fenced) : execSliceRequest r s = .next s.tick := by
  rcases h with h | h <;> simp only [execSliceRequest, hport, h, State.linkKeeps] <;> rfl

theorem execSliceRequest_arrives (h : s.link n = .trained) : execSliceRequest r s = .next (s.serve r).tick := by
  simp only [execSliceRequest, hport, h, if_true]

end

theorem execSliceRequest_here {s : State} {r : Req} (hport : r.port = none) :
    execSliceRequest r s = .next ((s.serve r).flit r).tick := by
  simp only [execSliceRequest, hport]

/-! ### The events -/

/-- Settles O52: each clause is the equation of its event. -/
theorem translationEvents : Obligations.TranslationEvents := by
  unfold Obligations.TranslationEvents
  refine ⟨?commands, ?records, ?reopens, fun s core h => execSideLogReplay_none h, ?replays, ?walks, ?requests, ?ports⟩
  case commands =>
    intro s0 part die c d s hcmd hdie hsize done t p
    have hs : s0.cmdReads part die = s := rfl
    clear_value s
    have hturn := fun op hop hpos hmax f t ok hf =>
      next_tick (State.runCmd_turn hs hcmd hdie hsize (op := op) hop hpos hmax f (t := t) (ok := ok) hf)
    refine ⟨fun hop => ?inval, fun hop => ?invalall, fun hop hnew hlog hmax haddr hpresent => ?resize,
      fun hop hnew => ?noResize, fun b l hop hnew => ?resizeend,
      fun x k hop hzero hoff haddr hpresent hx => ?migrate⟩
    case inval =>
      by_cases hoff : c.off % 2 ^ p ≠ 0
      · rw [if_pos hoff]
        exact hturn 1 hop (by omega) (by omega) _ s false (if_pos hoff)
      · rw [if_neg hoff]
        exact hturn 1 hop (by omega) (by omega) _ _ true (if_neg hoff)
    case invalall => exact hturn 2 hop (by omega) (by omega) _ _ true rfl
    case resize =>
      refine hturn 3 hop (by omega) (by omega) _ _ true (if_neg ?_)
      change (t.new_.isSome || c.nlog ≤ t.log || 24 < c.nlog || c.addr % 64 ≠ 0
        || !s.present die c.addr (128 * 2 ^ c.nlog)) ≠ true
      simp only [hnew, hpresent, Bool.or_eq_true, decide_eq_true_eq, not_or, Option.isSome_none, Bool.not_true,
        Bool.false_eq_true, not_false_eq_true, and_true, true_and, ne_eq]
      omega
    case noResize =>
      refine hturn 4 hop (by omega) (by omega) _ s false ?_
      have hnew : (d.table c.size).new_ = none := hnew
      simp only [hnew]
    case resizeend =>
      refine hturn 4 hop (by omega) (by omega) _ _ true ?_
      have hnew : (d.table c.size).new_ = some (b, l) := hnew
      simp only [hnew]
    case migrate =>
      intro v hwalk fw hframe hhost old r m
      refine hturn 5 hop (by omega) (by omega) _ m true ((if_neg ?_).trans ?_)
      · change (c.size ≠ 0 || c.off % 2 ^ 16 ≠ 0 || c.addr % 2 ^ 16 ≠ 0 || !s.paPresent die c.addr) ≠ true
        rw [hzero, hoff, haddr, hpresent]
        decide
      · have hwalk : (s.walkReads x die c.off).walk x die c.off = some (0, k) := hwalk
        simp only [hx, hwalk]
        refine if_neg ?_
        change (!v.frameOk die 0 (v.mem.num k 8) fw || fw / 2 ^ 8 % 2 = 1) ≠ true
        rw [hframe, hhost]
        decide
  case records =>
    intro s part die n g hg m
    have hdie := State.die_of_granOf hg
    subst hdie
    refine ⟨fun x w hx hw => next_tick ?_, fun x hx hw => next_tick ?_, next_tick ?_⟩
    · exact (State.hostStatus_mapped hg).trans (State.recMapped_found hx hw)
    · exact (State.hostStatus_mapped hg).trans (State.recMapped_missed hx hw)
    · exact State.hostStatus_refused hg
  case reopens =>
    intro s part die gran x g hx hg
    have hevent := execGranuleReopen_eq hx hg
    refine ⟨fun hnone => hevent.trans (next_tick (if_neg ?_)), fun hsome => hevent.trans (next_tick (if_pos ?_))⟩
    · rw [State.anySide_iff]
      rintro ⟨k, hk, e, he, hstuck, hin⟩
      rcases hnone k hk e he with h | h
      · rw [hstuck] at h; cases h
      · rw [hin] at h; cases h
    · exact (s.anySide_iff part g).2 hsome
  case replays =>
    intro s core i e es hi he g
    obtain ⟨hstuck, hline⟩ := State.sideNext_spec hi he
    refine ⟨hstuck, hline, ?_, fun h hg hdenied => ?_, fun h hg hdenied hmapped => ?_⟩
    · rintro (hg | ⟨h, hg, hmapped, hdenied⟩)
      · exact execSideLogReplay_open hi he hg
      · exact execSideLogReplay_mapped hi he hg hmapped hdenied
    · exact execSideLogReplay_denied hi he hg hdenied
    · exact execSideLogReplay_waits hi he hg hdenied hmapped
  case walks =>
    intro s s2 part die off hx hopen
    have hevent := execTableWalk_open hx hopen
    exact ⟨fun host pa a h => by rw [h] at hevent; exact hevent, fun h => by rw [h] at hevent; exact hevent⟩
  case requests =>
    intro s s2 r key attr hport hsynd hx w va s1 hreach
    refine (execSliceRequest_here hport).trans ?_
    rw [State.serve_ok hport hsynd hx hreach]
    refine next_tick (congrArg (State.flit · r) ?_)
    cases hkind : r.kind <;> simp only [State.reqPerform, hkind, hport, Option.isSome_none, Bool.false_eq_true, if_false] <;> rfl
  case ports =>
    intro s r n hport
    refine ⟨execSliceRequest_held hport, execSliceRequest_lost hport, fun hlink hx => ?_⟩
    refine (execSliceRequest_arrives hport hlink).trans (next_tick ?_)
    rw [State.serve_unbound hx, State.reqViol, hport]

end Sys2Proof.Machine
end

section
/-! SUPPORT. The parts of the device that accesses and kills leave alone (R110, R302). -/

namespace Sys2Proof.Machine
open Sys2Proof

/-! ### What accesses leave alone in the device -/

/-- The device without its monitors' counts, its notices, the messages and requests of its links, and its code words. -/
def Device.still (d : Device) : Device :=
  { d with domains := [], events := [], msix := [], outbox := [], linkHeld := [], linkLost := [], linkOut := [], flits := []
           upsets := [] }

/-- The device stands but for what traffic changes in it. -/
structure StillDevice (s u : State) : Prop where
  dev : u.dev.still = s.dev.still

theorem StillDevice.of_dev {s u : State} (h : u.dev = s.dev) : StillDevice s u := ⟨congrArg Device.still h⟩

theorem StillDevice.refl (s : State) : StillDevice s s := ⟨rfl⟩

theorem StillDevice.trans {s u v : State} (a : StillDevice s u) (b : StillDevice u v) : StillDevice s v :=
  ⟨b.dev.trans a.dev⟩

theorem StillDevice.fenced {s u : State} (h : StillDevice s u) : u.dev.fenced = s.dev.fenced := by
  change u.dev.still.fenced = s.dev.still.fenced
  rw [h.dev]

theorem StillDevice.fold {α : Type} {f : State → α → State} (h : ∀ s a, StillDevice s (f s a)) (l : List α) (s : State) :
    StillDevice s (l.foldl f s) :=
  foldl_keeps (StillDevice s) f (fun u a hu => hu.trans (h u a)) l s (.refl s)

theorem StillDevice.ite {s x y : State} (c : Prop) [Decidable c] (hx : StillDevice s x) (hy : StillDevice s y) :
    StillDevice s (if c then x else y) := by
  split
  · exact hx
  · exact hy

theorem StillDevice.ite_fst {α : Type} {s : State} {x y : State × α} (c : Prop) [Decidable c] (hx : StillDevice s x.1)
    (hy : StillDevice s y.1) : StillDevice s (if c then x else y).1 := by
  split
  · exact hx
  · exact hy

theorem State.signal_still (s : State) (v : Nat) : StillDevice s (s.signal v) := ⟨rfl⟩

theorem State.updX_still (s : State) (n : Nat) (f : Xlat → Xlat) : StillDevice s (s.updX n f) := .of_dev rfl

/-- What watches see of a write is no concern of the device's. -/
theorem State.seen_still (s : State) (m old : Memory) (key len : Nat) :
    StillDevice s (({ s with mem := m } : State).watchesSee old key len) := .of_dev rfl

theorem State.upset_still (s : State) (u : Upset) : StillDevice s (s.upset u) := by
  unfold State.upset
  dsimp only
  split
  · split <;> exact ⟨rfl⟩
  all_goals exact ⟨rfl⟩

/-- Code words that have shown are taken from the device. -/
theorem State.upsets_still (s : State) (us : List Upset) :
    StillDevice s { s with dev := { s.dev with upsets := us } } := ⟨rfl⟩

theorem State.classify_still (s : State) (key len : Nat) : StillDevice s (s.classify key len) := by
  unfold State.classify
  dsimp only
  split
  · exact .refl s
  · exact (s.upsets_still _).trans (.fold State.upset_still _ _)

theorem State.walkReads_still (s : State) (x : Xlat) (die off : Nat) : StillDevice s (s.walkReads x die off) := by
  unfold State.walkReads
  split
  · exact .refl s
  · split
    · exact .refl s
    · refine .fold (fun s size => ?_) _ _
      split
      · exact .refl s
      · exact .fold (fun s k => s.classify_still k 64) _ _

theorem State.translate_still (s : State) (ctx die off : Nat) : StillDevice s (s.translate ctx die off).1 := by
  unfold State.translate
  split
  · exact .refl s
  next x _ =>
    split
    · exact .refl s
    · have h := s.walkReads_still x die off
      dsimp only
      generalize s.walkReads x die off = u at h ⊢
      split
      · exact h
      · split
        · exact h.trans (.of_dev rfl)
        · exact h

theorem State.closeGran_still {s u : State} {ctx die gran kind : Nat} (h : s.closeGran ctx die gran kind = some u) :
    StillDevice s u := by
  unfold State.closeGran at h
  cases hx : s.xlat? ctx with
  | none => simp [hx] at h
  | some x =>
    cases hd : x.dies[die]? with
    | none => simp [hx, hd] at h
    | some d =>
      simp only [hx, hd, bind, Option.bind, pure] at h
      split at h
      · cases h
      · split at h <;> cases h
        · exact (s.seen_still _ _ _ _).trans (State.updX_still _ _ _)
        · exact ((s.seen_still _ _ _ _).trans (State.updX_still _ _ _)).trans (State.signal_still _ _)

theorem State.refuse_still (s : State) (ctx die gran : Nat) (a : Agent) (w : Option Agent) :
    StillDevice s (s.refuse ctx die gran a w) := by
  unfold State.refuse
  split
  · exact .refl s
  · split
    · dsimp only
      cases w with
      | none => exact .ite _ (.refl s) (s.seen_still _ _ _ _)
      | some a =>
        refine StillDevice.trans ?_ (State.updX_still _ _ _)
        exact .ite _ (.refl s) (s.seen_still _ _ _ _)
    · exact .refl s

theorem State.meet_still (s : State) (w : Who) (a : Acc) (key attr : Nat) (tr : Bool) :
    StillDevice s (s.meet w a key attr tr).1 := by
  unfold State.meet
  refine .ite_fst _ (.refl s) (.ite_fst _ (s.classify_still _ _) (.ite_fst _ (.refl s) (.ite_fst _ (.refl s) ?_)))
  have h1 : StillDevice s (if (tr && a.sync) = true then s.endMet w.agent key a.len else s) :=
    .ite _ (.of_dev rfl) (.refl s)
  generalize (if (tr && a.sync) = true then s.endMet w.agent key a.len else s) = u at h1 ⊢
  have h2 : StillDevice s (if (a.rd || a.ex) = true then u.classify key a.len else u) :=
    .ite _ (h1.trans (u.classify_still _ _)) h1
  dsimp only
  generalize (if (a.rd || a.ex) = true then u.classify key a.len else u) = v at h2 ⊢
  exact .ite_fst _ h2 (h2.trans (.ite _ (.of_dev rfl) (.refl _)))

theorem State.usedUp_still (s : State) (a : Agent) : StillDevice s (s.usedUp a) :=
  .ite _ (.of_dev rfl) (.refl s)

theorem State.takeFlit_still (s : State) (a b : Agent) : StillDevice s ((s.takeFlit a).usedUp b) :=
  StillDevice.trans (u := s.takeFlit a) ⟨rfl⟩ (State.usedUp_still _ _)

theorem State.unheld_still (s : State) (a : Agent) (line : Nat) : StillDevice s (s.unheld a line) := ⟨rfl⟩

theorem State.linkLost_still (s : State) (ls : List LinkReq) :
    StillDevice s { s with dev := { s.dev with linkLost := ls } } := ⟨rfl⟩

theorem State.linkHeld_still (s : State) (ls : List LinkReq) :
    StillDevice s { s with dev := { s.dev with linkHeld := ls } } := ⟨rfl⟩

theorem State.reachRemote_still (s : State) (w : Who) (a : Acc) : StillDevice s (s.reachRemote w a).1 := by
  unfold State.reachRemote
  refine .ite_fst _ ((s.linkLost_still _).trans (State.usedUp_still _ _)) ?_
  split
  · exact .refl s
  · have h := s.unheld_still w.agent (s.lineOf a.addr)
    exact .ite_fst _ (.ite_fst _ (.refl s) (.ite_fst _ (h.trans (State.takeFlit_still _ _ _)) h))
      (s.linkHeld_still _)

theorem State.reachFrame_still (s : State) (w : Who) (a : Acc) (key attr : Nat) :
    StillDevice s (s.reachFrame w a key attr).1 :=
  .ite_fst _ (.refl s) (.ite_fst _ (.refl s) (.ite_fst _ (s.takeFlit_still _ _) (s.meet_still _ _ _ _ _)))

theorem State.reachGlobal_still (s : State) (w : Who) (a : Acc) : StillDevice s (s.reachGlobal w a).1 := by
  unfold State.reachGlobal
  dsimp only
  refine .ite_fst _ (.refl s) (.ite_fst _ (s.reachRemote_still w a) ?_)
  have ht := s.translate_still w.ctx (vaDie a.addr) (vaOff a.addr)
  generalize s.translate w.ctx (vaDie a.addr) (vaOff a.addr) = r at ht ⊢
  obtain ⟨u, tr⟩ := r
  dsimp only at ht ⊢
  refine .ite_fst _ ht (.ite_fst _ ht (.ite_fst _ (ht.trans ?_) (.ite_fst _ (ht.trans (u.refuse_still _ _ _ _ _))
    (.ite_fst _ ht ?_))))
  · exact (u.updX_still _ _).trans (State.usedUp_still _ _)
  · cases tr with
    | ok host pa attr =>
      exact .ite_fst _ (.ite_fst _ ht (.ite_fst _ (ht.trans (u.takeFlit_still _ _)) ht)) (ht.trans (u.reachFrame_still _ _ _ _))
    | _ =>
      dsimp only
      cases hc : u.closeGran w.ctx (vaDie a.addr) (vaOff a.addr / 2 ^ 16) (a.kind % 5) with
      | none => exact ht
      | some v => exact ht.trans ((State.closeGran_still hc).trans (v.refuse_still _ _ _ _ _))

/-! ### A kill (R110, R111) -/

theorem State.put_still (s : State) (w : Who) (a : Acc) (key : Nat) (bs : List Byte) (p poison : Bool) :
    StillDevice s (s.put w a key bs p poison false) := .of_dev rfl

theorem State.emit_still (s : State) (m : OutMsg) : StillDevice s (s.emit m) := .ite _ ⟨rfl⟩ ⟨rfl⟩

theorem State.killWord_still (s : State) (cores : List Nat) (w : Who) (a : Nat) (p ps : Bool) :
    StillDevice s (s.killWord cores w a p ps) := by
  unfold State.killWord
  dsimp only
  have h := s.reachGlobal_still w { Acc.write .global a 4 ps with kind := 4, sync := true }
  generalize s.reachGlobal w { Acc.write .global a 4 ps with kind := 4, sync := true } = r at h ⊢
  obtain ⟨u, res⟩ := r
  cases res with
  | ok key attr => exact h.trans (u.put_still _ _ _ _ _ _)
  | outside attr => exact h.trans ((u.emit_still _).trans (.of_dev rfl))
  | closed => exact h.trans (.of_dev rfl)
  | waits => exact h.trans (u.emit_still _)
  | _ => exact h

theorem State.killWords_still (s : State) (ctx : Nat) (cores : List Nat) : StillDevice s (s.killWords ctx cores) :=
  .fold (fun s (e : Who × Nat × Bool × Bool) => s.killWord_still cores e.1 e.2.1 e.2.2.1 e.2.2.2) _ _

theorem State.leaves_still (s : State) (flog : List Freeze) (f : Agent → Bool) :
    StillDevice s { s with flog := flog, dev := s.dev.leaves f } := ⟨rfl⟩

/-- R110, R111: a kill leaves of the device all but what its context has in traffic, and its notices. -/
theorem State.kill_still (s : State) (ctx : Nat) : StillDevice s (s.kill ctx) := by
  unfold State.kill
  have hsides : ∀ (s : State) (ks : List Nat) (f : Core → Core),
      StillDevice s (ks.foldl (fun s k => s.updCore k f) s) :=
    fun s ks f => .fold (f := fun s k => s.updCore k f) (fun s k => .of_dev (State.updCore_dev s k f)) _ _
  have hclear : ∀ (s : State) (ks : List Nat), StillDevice s (ks.foldl State.clearCore s) :=
    fun s ks => .fold (f := State.clearCore) (fun s k => .of_dev (State.setCore_dev ..)) _ _
  refine StillDevice.trans ?_ (.fold (fun s q => .ite _ (s.signal_still _) (.refl s)) _ _)
  refine StillDevice.trans ?_ (State.signal_still _ _)
  refine StillDevice.trans ?_ (State.leaves_still _ _ _)
  refine StillDevice.trans (StillDevice.trans ?_ (hclear _ _)) (.of_dev rfl)
  refine StillDevice.trans (StillDevice.trans ?_ (State.killWords_still _ _ _)) (.of_dev rfl)
  refine StillDevice.trans ?_ (hsides _ _ _)
  exact .of_dev rfl

end Sys2Proof.Machine
end

section
/-! SUPPORT. The events of the device (R22, R23, R32 to R39, R83, R98, R236 to R241): one equation per operation and case,
and the statement that is assembled from them. -/

namespace Sys2Proof.Machine
open Sys2Proof

/-! ### Tables -/

theorem kfind_append {α : Type} (a b : List (Nat × α)) (k : Nat) : kfind (a ++ b) k = (kfind a k).or (kfind b k) := by
  induction a with
  | nil => rfl
  | cons e a ih =>
    simp only [List.cons_append, kfind, ih]
    split <;> rfl

/-- A filter that looks at keys alone leaves of a table the keys that it takes. -/
theorem kfind_filter {α : Type} (p : Nat → Bool) (m : List (Nat × α)) (k : Nat) :
    kfind (m.filter fun e => p e.1) k = if p k then kfind m k else none := by
  induction m with
  | nil => simp [kfind]
  | cons e m ih =>
    by_cases hk : e.1 = k
    · subst hk
      cases hp : p e.1 <;> simp [kfind, hp, ih]
    · cases hp : p e.1 <;> simp [kfind, hp, ih, hk]

/-- A table whose keys are numbered from `a`. -/
theorem kfind_numbered {α : Type} (n a k : Nat) (vs : List α) :
    kfind ((List.range' a n).zip vs) k = if a ≤ k ∧ k < a + n then vs[k - a]? else none := by
  induction n generalizing a vs with
  | zero => exact (if_neg (by omega)).symm
  | succ n ih =>
    cases vs with
    | nil => simp [kfind]
    | cons v vs =>
      simp only [List.range'_succ, List.zip_cons_cons, kfind, ih]
      by_cases hk : a = k
      · subst hk; simp
      · rw [if_neg hk]
        by_cases hin : a + 1 ≤ k ∧ k < a + 1 + n
        · rw [if_pos hin, if_pos (by omega), show k - a = k - (a + 1) + 1 by omega, List.getElem?_cons_succ]
        · rw [if_neg hin, if_neg (by omega)]

/-! ### Power-on (R33 to R36) -/

theorem Device.boot_silent (d : Device) (r : SelfTest) (m : Manifest) (hrom : r.romOk = false) :
    d.boot r m = { d with silent := true } := by
  simp [Device.boot, hrom]

section
variable {r : SelfTest} (hrom : r.romOk = true)
include hrom

theorem Device.boot_unidentified (d : Device) (m : Manifest) (hid : r.identityOk = false) :
    d.boot r m = ({ d with identity := false }.list [mailWord 7 0 0 5]).unsafe_ 2 := by
  simp [Device.boot, hrom, hid]

variable (hid : r.identityOk = true) {m : Manifest}
include hid

theorem Device.boot_unsigned (d : Device) (hsigned : m.signed = false) :
    d.boot r m = (d.list [mailWord 6 0 0 3]).unsafe_ 3 := by
  simp [Device.boot, hrom, hid, hsigned]

theorem Device.boot_manifest (d : Device) (hsigned : m.signed = true) (hok : manifestOk m = true) :
    d.boot r m = { d with manifest := m }.testCores r := by
  simp [Device.boot, hrom, hid, hsigned, hok]

end

theorem enoughCores_all : enoughCores (List.range 256) = true := by decide +kernel

/-- Where no part is listed as failed, none is found failed. -/
theorem filter_contains_nil (l : List Nat) : l.filter ([] : List Nat).contains = [] :=
  List.filter_eq_nil_iff.2 fun a _ => by simp

/-- Where no part is listed as failed, every one passes. -/
theorem filter_not_contains_nil (l : List Nat) : (l.filter fun a => !([] : List Nat).contains a) = l :=
  List.filter_eq_self.2 fun a _ => by simp

/-- Stages 4 and 5 where every core and its column pass. -/
theorem Device.testCores_pass (d : Device) {r : SelfTest} (hcolumns : r.badColumns = []) (hcores : r.badCores = []) :
    ∃ e : Device, d.testCores r = e.train r ∧ e.manifest = d.manifest
    ∧ e.coreMap = buildMap (List.range 256) := by
  simp only [Device.testCores, hcolumns, hcores, filter_not_contains_nil, enoughCores_all, Bool.not_true, Bool.false_eq_true,
    if_false]
  exact ⟨_, rfl, rfl, rfl⟩

/-- Stages 6 to 9 where every bridge and channel passes. -/
theorem Device.train_pass (d : Device) {r : SelfTest} (hbridges : r.badBridges = []) (hchans : r.badChans = []) :
    let u := d.train r
    u.safe = false ∧ u.ready = true ∧ u.stage = 9 ∧ u.limitW = d.manifest.limitW ∧ u.manifest = d.manifest
      ∧ u.coreMap = d.coreMap := by
  simp only [Device.train, hbridges, hchans, filter_contains_nil, List.isEmpty_nil, Bool.not_true, Bool.false_eq_true,
    if_false]
  exact ⟨trivial, trivial, trivial, rfl, rfl, rfl⟩

/-! ### The core map (R22, R23) -/

/-- The places of one die in a map. -/
theorem kfind_die (d k : Nat) (ps : List Nat) :
    kfind (((List.range 60).zip ps).map fun e => (60 * d + e.1, 64 * d + e.2)) k =
      if 60 * d ≤ k ∧ k < 60 * d + 60 then (ps[k - 60 * d]?).map fun c => 64 * d + c else none := by
  have h : ((List.range 60).zip ps).map (fun e => (60 * d + e.1, 64 * d + e.2)) =
      (List.range' (60 * d) 60).zip (ps.map fun c => 64 * d + c) := by
    rw [List.range'_eq_map_range, List.zip_map]
    rfl
  rw [h, kfind_numbered, List.getElem?_map]

/-- The places of several dies: those of the die that a key lies on. -/
theorem kfind_dies (ps : Nat → List Nat) (dies : List Nat) (die n : Nat) (hn : n < 60) :
    kfind (dies.flatMap fun d => ((List.range 60).zip (ps d)).map fun e => (60 * d + e.1, 64 * d + e.2)) (60 * die + n) =
      if die ∈ dies then ((ps die)[n]?).map fun c => 64 * die + c else none := by
  induction dies with
  | nil => rfl
  | cons d dies ih =>
    rw [List.flatMap_cons, kfind_append, kfind_die, ih]
    by_cases hd : die = d
    · subst hd
      rw [if_pos (by omega), if_pos (List.mem_cons_self ..), Nat.add_sub_cancel_left]
      split
      · exact Option.or_self
      · exact Option.or_none
    · rw [if_neg (by omega), Option.none_or]
      simp only [List.mem_cons, hd, false_or]

/-- R22: a number of the map stands for the usable core of its place on its die. -/
theorem kfind_buildMap (usable : List Nat) (die n : Nat) (hdie : die < 4) (hn : n < 60) :
    kfind (buildMap usable) (60 * die + n) =
      (((List.range 64).filter fun c => usable.contains (64 * die + c))[n]?).map fun c => 64 * die + c :=
  (kfind_dies _ _ die n hn).trans (if_pos (List.mem_range.2 hdie))

/-- R22: where every core is usable, the map skips the last four of each die. -/
theorem kfind_buildMap_all (k : Nat) (hk : k < 240) :
    kfind (buildMap (List.range 256)) k = some (64 * (k / 60) + k % 60) := by
  have hall : ((List.range 64).filter fun c => (List.range 256).contains (64 * (k / 60) + c)) = List.range 64 := by
    refine List.filter_eq_self.2 fun c hc => ?_
    have hc := List.mem_range.1 hc
    exact List.contains_iff_mem.2 (List.mem_range.2 (by omega))
  have h := kfind_buildMap (List.range 256) (k / 60) (k % 60) (by omega) (by omega)
  rwa [show 60 * (k / 60) + k % 60 = k by omega, hall, List.getElem?_range (by omega)] at h

/-- R23: a rebuild changes the places of its die alone. -/
theorem Device.kfind_rebuild (d : Device) (die : Nat) (failed : List Nat) (k : Nat) :
    kfind (d.rebuild die failed).coreMap k =
      if dieOf k = die then kfind (buildMap (d.rebuild die failed).usable) k else kfind d.coreMap k := by
  have hmap := kfind_filter (fun k => dieOf k = die) (buildMap (d.rebuild die failed).usable) k
  have hlow := kfind_filter (fun k => dieOf k < die) d.coreMap k
  have hhigh := kfind_filter (fun k => die < dieOf k) d.coreMap k
  have hparts : kfind (d.rebuild die failed).coreMap k = ((kfind (d.coreMap.filter fun e => dieOf e.1 < die) k).or
      (kfind ((buildMap (d.rebuild die failed).usable).filter fun e => dieOf e.1 = die) k)).or
        (kfind (d.coreMap.filter fun e => die < dieOf e.1) k) := by
    rw [← kfind_append, ← kfind_append]
    rfl
  rw [hparts, hmap, hlow, hhigh]
  rcases Nat.lt_trichotomy (dieOf k) die with h | h | h
  · simp [h, Nat.ne_of_lt h, Nat.lt_asymm h]
  · simp [h]
  · simp [h, Nat.ne_of_gt h, Nat.lt_asymm h]

/-- R23: the cores of a die that its rebuild keeps. -/
theorem Device.usable_rebuild (d : Device) (die c : Nat) (failed : List Nat) (hc : c < 64) :
    (d.rebuild die failed).usable.contains (64 * die + c) = (d.usable.contains (64 * die + c) && !failed.contains c) := by
  have hdiv : (64 * die + c) / 64 = die := by omega
  have hmod : (64 * die + c) % 64 = c := by omega
  rw [Bool.eq_iff_iff]
  simp only [Device.rebuild, List.contains_iff_mem, List.mem_filter, hdiv, hmod, decide_true, Bool.true_and, Bool.and_eq_true]

/-- R23: the map of a rebuilt die. -/
theorem Device.kfind_rebuild_die (d : Device) (die n : Nat) (failed : List Nat) (hdie : die < 4) (hn : n < 60) :
    kfind (d.rebuild die failed).coreMap (60 * die + n) = (((List.range 64).filter fun c =>
      d.usable.contains (64 * die + c) && !failed.contains c)[n]?).map fun c => 64 * die + c := by
  have hk : dieOf (60 * die + n) = die := by unfold dieOf; omega
  have hcores : ((List.range 64).filter fun c => (d.rebuild die failed).usable.contains (64 * die + c)) =
      (List.range 64).filter fun c => d.usable.contains (64 * die + c) && !failed.contains c :=
    List.filter_congr fun c hc => d.usable_rebuild die c failed (List.mem_range.1 hc)
  rw [Device.kfind_rebuild, if_pos hk, kfind_buildMap _ die n hdie hn, hcores]

/-- R37: mailbox entries change nothing but the mailbox and the notices. -/
theorem State.mailEntry_frame (s : State) (w : Nat) :
    ∃ mail msix, s.mailEntry w = { s with dev := { s.dev with mail := mail, msix := msix } } := by
  unfold State.mailEntry
  split
  · exact ⟨_, _, rfl⟩
  · exact ⟨s.dev.mail, s.dev.msix, rfl⟩

theorem State.mailEntries_frame (ws : List Nat) (s : State) :
    ∃ mail msix, ws.foldl State.mailEntry s = { s with dev := { s.dev with mail := mail, msix := msix } } := by
  induction ws generalizing s with
  | nil => exact ⟨s.dev.mail, s.dev.msix, rfl⟩
  | cons w ws ih =>
    obtain ⟨mail, msix, hw⟩ := s.mailEntry_frame w
    obtain ⟨mail', msix', hws⟩ := ih (s.mailEntry w)
    exact ⟨mail', msix', by rw [List.foldl_cons, hws, hw]⟩

theorem State.loseCores_frame (ks : List Nat) (s : State) :
    (ks.foldl State.loseCore s).dev = s.dev ∧ (ks.foldl State.loseCore s).parts = s.parts :=
  foldl_keeps (fun u : State => u.dev = s.dev ∧ u.parts = s.parts) State.loseCore (fun _ _ h => h) ks s ⟨rfl, rfl⟩

theorem execMapRebuild_busy {s : State} {die : Nat} (failed : List Nat) (h : s.dieQuiet die = false) :
    execMapRebuild die failed s = .next s.tick := by
  simp [execMapRebuild, h]

/-- R23: the rebuild of a quiet die gives the device its new map; the partitions stand. -/
theorem execMapRebuild_quiet {s : State} {die : Nat} (failed : List Nat) (hdie : die < 4) (h : s.dieQuiet die = true) :
    ∃ u, execMapRebuild die failed s = .next u ∧ u.parts = s.parts
      ∧ u.dev.coreMap = (s.dev.rebuild die failed).coreMap := by
  have hgo : ¬ (4 ≤ die || !s.dieQuiet die) = true := by
    rw [h, Bool.not_true, Bool.or_false, decide_eq_true_eq]
    omega
  unfold execMapRebuild
  rw [if_neg hgo]
  dsimp only
  obtain ⟨mail, msix, hmail⟩ := State.mailEntries_frame (((List.range 64).filter fun c =>
    failed.contains c && s.dev.usable.contains (64 * die + c)).map fun c => mailWord 1 die c 1)
      (s.updDev fun d => d.rebuild die failed)
  rw [hmail]
  obtain ⟨hdev, hparts⟩ := State.loseCores_frame _ _
  refine ⟨_, rfl, hparts, ?_⟩
  rw [State.tick_dev, hdev]
  rfl

/-! ### Links (R32, R81) -/

theorem execLinkDown_trained {s : State} {n : Nat} (h : s.link n = .trained) :
    execLinkDown n s = .next (s.setLink n .retraining).tick := next_tick (if_pos h)

theorem execLinkRetrainEnd_eq {s : State} {n : Nat} (ok : Bool) (h : s.link n = .retraining) :
    execLinkRetrainEnd n ok s = .next (if ok then s.openLink n else s.fenceLink n).tick := if_neg fun hne => hne h

/-- R32: the traffic of a link that is fenced is lost, and every other link's stands. -/
theorem State.fenceLink_dev (s : State) (n : Nat) : let d := (s.fenceLink n).dev
    d.links = s.dev.links.set n .fenced
      ∧ d.linkLost = s.dev.linkLost ++ s.dev.linkHeld.filter (fun q => q.link = n)
      ∧ d.linkHeld = s.dev.linkHeld.filter (fun q => q.link ≠ n)
      ∧ d.linkOut = s.dev.linkOut.filter (fun m => m.link ≠ some n)
      ∧ d.linkIn = s.dev.linkIn.filter (fun e => e.1 ≠ n) := by
  unfold State.fenceLink
  dsimp only
  obtain ⟨mail, msix, hmail⟩ := State.mailEntry_frame { s.setLink n .fenced with dev := { (s.setLink n .fenced).dev with
    linkLost := (s.setLink n .fenced).dev.linkLost ++ (s.setLink n .fenced).dev.linkHeld.filter (fun (q : LinkReq) => q.link = n)
    linkHeld := (s.setLink n .fenced).dev.linkHeld.filter fun q => q.link ≠ n
    linkOut := (s.setLink n .fenced).dev.linkOut.filter fun m => m.link ≠ some n
    linkIn := (s.setLink n .fenced).dev.linkIn.filter fun e => e.1 ≠ n } } (mailWord 5 (linkDie n) n 2)
  rw [hmail]
  exact ⟨rfl, rfl, rfl, rfl, rfl⟩

/-! ### Heat (R39, R98) -/

/-- R39: the headroom of a die's quads that are set in turn. -/
theorem Device.setHdrms (die q : Nat) (v : BitVec 8) (qs : List Nat) (d : Device) :
    kget 0#8 (qs.foldl (fun d q => d.setHdrm die q v) d).hdrm (16 * die + q) =
      if q ∈ qs then v else kget 0#8 d.hdrm (16 * die + q) := by
  induction qs generalizing d with
  | nil => rfl
  | cons p qs ih =>
    rw [List.foldl_cons, ih]
    by_cases hp : q = p
    · subst hp
      simp [Device.setHdrm]
    · simp [Device.setHdrm, kget_kset_ne _ _ _ _ _ (show 16 * die + q ≠ 16 * die + p by omega), hp]

section
variable (s : State) {die t : Nat} (hdie : die < 4)
include hdie

theorem execThermalThrottle_cool (ht : t < 100) : execThermalThrottle die t s =
    .next (s.updDev fun d => { d with hot := d.hot.filter (· ≠ die) }).tick := by
  simp only [execThermalThrottle, if_neg (show ¬ 4 ≤ die by omega), if_neg (show ¬ 105 ≤ t by omega), if_pos ht]

theorem execThermalThrottle_hot (ht : 105 ≤ t) : execThermalThrottle die t s = .next (s.updDev fun d =>
    { (List.range 16).foldl (fun d q => d.setHdrm die q 0x80#8) d with hot := (die :: d.hot).eraseDups }).tick := by
  simp only [execThermalThrottle, if_neg (show ¬ 4 ≤ die by omega), if_pos ht]

theorem execPwrhRefresh_cool {quad : Nat} (h : BitVec 8) (hquad : quad < 16) (hhot : s.dev.hot.contains die = false) :
    execPwrhRefresh die quad h s = .next (s.updDev fun d => d.setHdrm die quad h).tick := by
  have hin : ¬ (4 ≤ die || 16 ≤ quad) = true := by
    simp only [Bool.or_eq_true, decide_eq_true_eq]
    omega
  simp only [execPwrhRefresh, if_neg hin, State.updDev, hhot, Bool.false_eq_true, if_false]

end

/-- R39: the kills of a thermal fence leave the device fenced. -/
theorem execThermalFence_fenced (s : State) {t : Nat} (ht : 115 ≤ t) :
    ∃ u, execThermalFence t s = .next u ∧ u.dev.fenced = true := by
  unfold execThermalFence
  rw [if_neg (show ¬ t < 115 by omega)]
  refine ⟨_, rfl, ?_⟩
  rw [State.tick_dev]
  exact ((StillDevice.fold State.kill_still _ _).trans (State.signal_still _ _)).fenced

/-! ### Array monitors (R236, R237) -/

theorem Device.domain_dom (d : Device) (dom : Nat) : (d.domain dom).dom = dom := by
  unfold Device.domain
  cases h : d.domains.find? fun x => x.dom = dom with
  | none => rfl
  | some x =>
    have hx := List.find?_some h
    exact of_decide_eq_true hx

theorem Device.domain_setDomain (d : Device) {x : Domain} {dom : Nat} (h : x.dom = dom) : (d.setDomain x).domain dom = x := by
  subst h
  simp [Device.domain, Device.setDomain]

section
variable {s : State} {dom : Nat} {x : Domain} (hx : s.dev.domain dom = x)
include hx

/-- R236: a domain below its thresholds takes one step down. -/
theorem execUndervoltStep_lower (weak : List Upset) (hdom : dom < 256) (hlock : x.lock = false) (hsteps : 0 < x.steps)
    (hsteady : ∀ e ∈ x.counts, e.2 < s.dev.manifest.threshold) :
    execUndervoltStep ⟨dom, weak⟩ s = .next (s.lower dom weak).tick := by
  have hbelow : s.dev.steady x = true := List.all_eq_true.2 fun e he => decide_eq_true (hsteady e he)
  refine next_tick (if_neg ?_)
  change ¬ (256 ≤ dom || (s.dev.domain dom).lock || (s.dev.domain dom).steps = 0 || !s.dev.steady (s.dev.domain dom)) = true
  rw [hx, hlock, hbelow]
  simp only [Bool.or_eq_true, decide_eq_true_eq, Bool.not_true, Bool.false_eq_true, or_false]
  omega

theorem execUndervoltStep_locked (weak : List Upset) (hlock : x.lock = true) :
    execUndervoltStep ⟨dom, weak⟩ s = .next s.tick := by
  refine next_tick (if_pos ?_)
  change (256 ≤ dom || (s.dev.domain dom).lock || (s.dev.domain dom).steps = 0 || !s.dev.steady (s.dev.domain dom)) = true
  rw [hx, hlock]
  simp

/-- R171: the upsets that a step down brings are some of the weak code words. -/
theorem State.lower_dev (weak : List Upset) : ∃ hit, (∀ e ∈ hit, e ∈ weak)
    ∧ s.lower dom weak = s.updDev fun d => { d.setDomain { x with steps := x.steps - 1 } with upsets := d.upsets ++ hit } := by
  subst hx
  exact ⟨_, fun e he => (List.mem_filter.1 he).1, rfl⟩

/-- R237: an array whose count exceeds its threshold first steps its domain up and locks it. -/
theorem execUndervoltOverride_first {a n : Nat} (htold : x.told.contains a = false) (hn : n = kget 0 x.counts a)
    (hover : s.dev.manifest.threshold < n) : execUndervoltOverride dom a n s =
    .next ((s.updDev fun d => d.setDomain { x with
        steps := min (x.steps + 1) s.dev.manifest.floor, lock := true, told := x.told ++ [a] }).reliability
      (relWord 1 dom a (min (x.steps + 1) s.dev.manifest.floor) n)).tick := by
  have hgo : ¬ (x.told.contains a || n ≠ kget 0 x.counts a || n ≤ s.dev.manifest.threshold) = true := by
    rw [htold]
    simp only [Bool.or_eq_true, decide_eq_true_eq, Bool.false_eq_true, false_or]
    omega
  subst hx
  exact if_neg hgo

theorem execUndervoltOverride_no {a n : Nat} (h : x.told.contains a = true ∨ kget 0 x.counts a ≤ s.dev.manifest.threshold) :
    execUndervoltOverride dom a n s = .next s.tick := by
  have hstop : (x.told.contains a || n ≠ kget 0 x.counts a || n ≤ s.dev.manifest.threshold) = true := by
    simp only [Bool.or_eq_true, decide_eq_true_eq]
    rcases h with h | h
    · exact .inl (.inl h)
    · omega
  subst hx
  exact if_pos hstop

end

/-! ### The in-field scan (R239 to R241) -/

section
variable {s : State} {core p : Nat} (hp : s.phys core = some p)
include hp

/-- R239: a scan that is due begins on an idle core, and else the core drains. -/
theorem execScanStart_eq (hscan : (s.core core).scan = false) (hbehind : s.scanBehind core = false) :
    execScanStart core s = .next (if s.idle core then s.updCore core fun c => { c with scan := true, drains := false }
      else s.updCore core fun c => { c with drains := true }).tick := by
  refine next_tick (if_neg ?_)
  rw [hp, Option.isNone_some, hscan, hbehind]
  decide

/-- R241: a core that fails its scan leaves the map and is reported. -/
theorem execScanPatternEnd_fail (hscan : (s.core core).scan = true) : ∃ u, execScanPatternEnd core false s = .next u
    ∧ u.dev.coreMap = kdel s.dev.coreMap core ∧ u.dev.usable = s.dev.usable.filter (· ≠ p)
    ∧ u.dev.events = s.dev.events ++ [relWord 4 p 0 0 0] ∧ u.mem = s.mem := by
  unfold execScanPatternEnd
  simp only [hscan, hp, Bool.not_true, Bool.false_eq_true, if_false, Option.getD_some]
  obtain ⟨mail, msix, hmail⟩ := ((s.scanClear core false).updDev fun d => { d with
    coreMap := kdel d.coreMap core, usable := d.usable.filter (· ≠ p) }).mailEntry_frame (mailWord 1 (p / 64) (p % 64) 7)
  rw [hmail]
  exact ⟨_, rfl, rfl, rfl, rfl, rfl⟩

end

/-- R240: a core that passes its scan is clear. -/
theorem execScanPatternEnd_pass {s : State} {core : Nat} (hscan : (s.core core).scan = true) :
    execScanPatternEnd core true s = .next (s.scanClear core false).tick := by
  simp only [execScanPatternEnd, hscan, Bool.not_true, Bool.false_eq_true, if_false, if_true]

section
variable {s : State} {core : Nat} (haborts : s.aborts core = true)
include haborts

/-- R241: an abort of a pattern run clears the core, and the scan stays due. -/
theorem execScanAbort_scan (hscan : (s.core core).scan = true) :
    execScanAbort core s = .next (s.scanClear core true).tick := by
  simp only [execScanAbort, hscan, haborts, Bool.true_or, Bool.not_true, Bool.or_self, Bool.false_eq_true, if_false, if_true]

/-- R240, R241: an abort in the drain phase clears nothing. -/
theorem execScanAbort_drain (hscan : (s.core core).scan = false) (hdrains : (s.core core).drains = true) :
    execScanAbort core s = .next (s.updCore core fun c => { c with drains := false, scanDue := true }).tick := by
  simp only [execScanAbort, hscan, hdrains, haborts, Bool.or_true, Bool.not_true, Bool.or_self, Bool.false_eq_true, if_false]

end

/-! ### Management (R83) -/

/-- R83: a device that enumerates answers a management request. -/
theorem State.manage_eq {s : State} (hsilent : s.dev.silent = false) {t u : State} (h : t = u) :
    s.manage t = .next u.tick := by
  simp only [State.manage, hsilent, Bool.false_eq_true, if_false, h]

/-! ### The events -/

/-- Settles O54: each clause is the equation of its event. -/
theorem deviceEvents : Obligations.DeviceEvents := by
  unfold Obligations.DeviceEvents
  refine ⟨?powers, ?maps, ?links, ?heat, ?monitors, ?scans, ?management⟩
  case powers =>
    intro s r m
    have hdev : (s.powerOn r).tick.dev = s.dev.cold.boot r m := rfl
    refine ⟨(s.powerOn r).tick, rfl, rfl, rfl, rfl, rfl, rfl, rfl, rfl, rfl, rfl, rfl, fun hrom => ?_, fun hrom hid => ?_,
      fun hrom hid hsigned => ?_, fun hrom hid hsigned hok hcolumns hcores hbridges hchans => ?_⟩
    · rw [hdev, Device.boot_silent _ _ _ hrom]
      exact ⟨rfl, rfl, rfl, rfl⟩
    · rw [hdev, Device.boot_unidentified hrom _ _ hid]
      exact ⟨rfl, rfl, rfl, rfl⟩
    · rw [hdev, Device.boot_unsigned hrom hid _ hsigned]
      exact ⟨rfl, rfl, rfl⟩
    · obtain ⟨e, htest, hmanifest, hmap⟩ := Device.testCores_pass { s.dev.cold with manifest := m } hcolumns hcores
      obtain ⟨hsafe, hready, hstage, hlimit, hm, hcoreMap⟩ := e.train_pass hbridges hchans
      rw [hdev, Device.boot_manifest hrom hid _ hsigned hok, htest]
      refine ⟨hsafe, hready, hstage, hlimit.trans (congrArg Manifest.limitW hmanifest), hm.trans hmanifest, fun k hk => ?_⟩
      rw [hcoreMap, hmap, kfind_buildMap_all k hk]
  case maps =>
    intro s die failed
    refine ⟨execMapRebuild_busy failed, fun hdie hquiet => ?_⟩
    obtain ⟨u, hu, hparts, hmap⟩ := execMapRebuild_quiet failed hdie hquiet
    refine ⟨u, hu, hparts, fun n hn => ?_, fun k hk => ?_⟩
    · rw [hmap, Device.kfind_rebuild_die _ _ _ _ hdie hn]
    · rw [hmap, Device.kfind_rebuild, if_neg hk]
  case links =>
    intro s n
    obtain ⟨hlinks, hlost, hheld, hout, hin⟩ := s.fenceLink_dev n
    refine ⟨execLinkDown_trained, fun h => ⟨execLinkRetrainEnd_eq true h, execLinkRetrainEnd_eq false h⟩,
      ⟨rfl, rfl, rfl, fun m hm => ?_, fun e he => ?_, rfl⟩,
      ⟨hlinks, fun q hq hn => ?_, fun q hq => ?_, fun m hm => ?_, fun e he => ?_⟩, rfl⟩
    · exact of_decide_eq_true (List.mem_filter.1 hm).2
    · exact of_decide_eq_true (List.mem_filter.1 he).2
    · rw [hlost]
      exact List.mem_append_right _ (List.mem_filter.2 ⟨hq, decide_eq_true hn⟩)
    · rw [hheld] at hq
      exact of_decide_eq_true (List.mem_filter.1 hq).2
    · rw [hout] at hm
      exact of_decide_eq_true (List.mem_filter.1 hm).2
    · rw [hin] at he
      exact of_decide_eq_true (List.mem_filter.1 he).2
  case heat =>
    intro s die quad t h hdie hquad
    refine ⟨execThermalThrottle_cool s hdie, fun ht => ⟨_, execThermalThrottle_hot s hdie ht, ?_, fun q hq => ?_⟩,
      execPwrhRefresh_cool s hdie h hquad, execThermalFence_fenced s, fun ht => next_tick (if_pos ht),
      fun ht => next_tick (if_neg (by omega))⟩
    · exact List.mem_eraseDups.2 (List.mem_cons_self ..)
    · simp only [State.tick_dev, State.updDev]
      rw [Device.setHdrms, if_pos (List.mem_range.2 hq)]
  case monitors =>
    intro s dom a n weak hdom x
    have hx : s.dev.domain dom = x := rfl
    have hxdom : x.dom = dom := s.dev.domain_dom dom
    refine ⟨fun hlock hsteps hsteady => ⟨?_, ?_⟩, execUndervoltStep_locked hx weak,
      next_tick (if_neg (by omega)), execUndervoltOverride_first hx, execUndervoltOverride_no hx,
      fun hsilent => State.manage_eq hsilent rfl⟩
    · refine (execUndervoltStep_lower hx [] hdom hlock hsteps hsteady).trans (next_tick ?_)
      simp [State.lower, State.updDev, Device.setDomain, hx]
    · obtain ⟨hit, hhit, hlower⟩ := State.lower_dev hx weak
      refine ⟨_, execUndervoltStep_lower hx weak hdom hlock hsteps hsteady, ?_, ?_, fun e he => ?_⟩
      · rw [hlower]
        exact Device.domain_setDomain { s.dev with upsets := s.dev.upsets ++ hit } hxdom
      · rw [hlower]; rfl
      · rw [hlower] at he
        exact (List.mem_append.1 he).imp_right (hhit e)
  case scans =>
    intro s core p hp c
    refine ⟨fun hscan hbehind => ⟨fun hidle => ?_, fun hidle => ?_⟩, fun hscan => ⟨execScanPatternEnd_pass hscan,
      execScanPatternEnd_fail hp hscan, fun haborts => execScanAbort_scan haborts hscan⟩,
      fun hscan hdrains haborts => execScanAbort_drain haborts hscan hdrains⟩
    · exact (execScanStart_eq hp hscan hbehind).trans (next_tick (if_pos hidle))
    · exact (execScanStart_eq hp hscan hbehind).trans (next_tick (if_neg (by rw [hidle]; decide)))
  case management =>
    intro s n m hsilent
    refine ⟨State.manage_eq hsilent rfl, fun die => State.manage_eq hsilent rfl, fun hmin hmax => ?limit,
      State.manage_eq hsilent rfl, State.manage_eq hsilent rfl, fun hid hpos hmax => ?measurement, fun hid => ?challenge,
      State.manage_eq hsilent rfl⟩
    case limit => exact State.manage_eq hsilent (if_pos (by simp [hmin, hmax]))
    case measurement =>
      refine State.manage_eq hsilent ((if_neg ?_).trans (if_neg ?_))
      · simp only [Bool.or_eq_true, decide_eq_true_eq]
        omega
      · rw [hid]
        decide
    case challenge => exact State.manage_eq hsilent (congrArg (s.reply 4) (if_pos hid))

end Sys2Proof.Machine
end

section
/-! SUPPORT. The events of the queue scheduler (R70, R76, R85, R89, R101 to R103, R105, R106, R109): one equation per operation
and case, the order of the candidates, and the statement that is assembled from them. -/

namespace Sys2Proof.Machine
open Sys2Proof

/-! ### Staging (R70, R76, R85) -/

/-- R70, R76, R85: the record at HEAD of an open queue is staged, and a malformed one freezes the queue. -/
theorem execRecordStage_read {s s2 : State} {part q : Nat} {bs : List Byte} {p : Bool} (hsafe : s.dev.safe = false)
    (hfenced : s.dev.fenced = false) (hbound : (s.parts.getD part Part.reset).bound = true)
    (hdrain : (s.parts.getD part Part.reset).drain = false) (henable : (s.queue part q).enable = true)
    (hfrozen : (s.queue part q).frozen = false) (hstage : (s.queue part q).stage = none)
    (hring : (s.queue part q).head ≠ (s.queue part q).tail) {va : Nat}
    (hva : ((s.queue part q).ringbase + 256 * ((s.queue part q).head % (s.queue part q).ring)) % 2 ^ 64 = va)
    (hread : s.hwRead (hwWho part q) va 256 = (s2, .ok bs p)) :
    let s3 := (s2.updQueue part q fun y => { y with head := (y.head + 1) % 2 ^ 32, stage := some s2.nextId }).addLaunch
      part q q va bs (s.queue part q).priocap
    execRecordStage part q s = .next (if recordOk bs then s3 else s3.freezeQueue part q 0x20 va).tick := by
  subst hva
  simp only [execRecordStage, hsafe, hfenced, hbound, hdrain, henable, hfrozen, hstage, hring, hread, Option.isSome_none,
    Bool.not_true, Bool.or_self, decide_false, Bool.false_eq_true, if_false]

/-! ### Discard (R101, R103) -/

theorem execDiscard_restartable {s : State} {gid : Nat} (hmarked : (s.grp gid).marked.isSome = true)
    (hopen : s.restartable (s.instOf gid) = true) :
    execDiscard gid s = .next (s.discardInst (s.instOf gid)).tick := by
  refine if_neg ?_
  rw [Option.isNone_eq_false_iff.2 hmarked, hopen]
  decide

theorem execDiscard_unmarked {s : State} {gid : Nat} (hmarked : (s.grp gid).marked = none) :
    execDiscard gid s = .next s.tick := by
  refine if_pos ?_
  rw [hmarked, Option.isNone_none, Bool.true_or]

/-! ### Restart (R89, R103, R106) -/

theorem State.restartReady_of_canRestart {s : State} {h : Held} (hcan : s.canRestart h = true) :
    s.restartReady h = true :=
  (Bool.and_eq_true_iff.1 hcan).1

/-- R89: a restart that is due is the first candidate of its partition, and can be placed. -/
theorem State.restartDue_first {s : State} {h : Held} (hdue : s.restartDue h = true) :
    (s.candidates h.ctx).head? = some (.restart h) ∧ s.canRestart h = true := by
  simp only [State.restartDue, Bool.and_eq_true, decide_eq_true_eq] at hdue
  obtain ⟨⟨_, hfirst⟩, hcan⟩ := hdue
  exact ⟨hfirst, hcan⟩

section
variable {s : State} {n : Nat} {h : Held} (hheld : s.helds[n]? = some h)
include hheld

theorem execRestart_undue (hdue : s.restartDue h = false) : execRestart n s = .next s.tick := by
  simp only [execRestart, hheld, hdue, Bool.false_eq_true, if_false]

/-- A restart that is placed is the last placement of its partition, from which R89 rotates. -/
theorem execRestart_placed {t : State} (hdue : s.restartDue h = true) (hplaced : s.restartHeld h = (t, true)) :
    execRestart n s = .next (t.updPart h.ctx fun p => { p with lastq := ((s.launch? h.lid).map Launch.queue).getD 0 }).tick := by
  simp only [execRestart, hheld, hdue, hplaced, if_true]

theorem execRestart_unplaced {t : State} (hdue : s.restartDue h = true) (hplaced : s.restartHeld h = (t, false)) :
    execRestart n s = .next t.tick := by
  simp only [execRestart, hheld, hdue, hplaced, if_true]

end

/-- R103: a thread that had not tailed starts again at its region, with the region's word in x0. -/
theorem HeldThread.start_live {t : HeldThread} (hlive : t.life = .live) (lix tix : Nat) :
    t.start lix tix = { Thread.start t.pc (genSeed 0 lix tix) with
      x := t.word :: List.replicate 79 Reg.zero, region := ⟨true, t.pc, t.word⟩ } := by
  obtain ⟨life, pc, word⟩ := t
  cases hlive
  rfl

/-! ### Claims (R105) -/

/-- R105: a first touch that waits takes the block that the rule chooses, and waits no more. -/
theorem execBlockClaim_claimed {s s2 : State} {core lid blk phys slot : Nat} {r : Moved} (hwant : (s.core core).want = true)
    (hfree : (s.core core).freeBlock? = none) (hchoice : s.claimChoice core none = some (lid, blk, phys, slot))
    (hclaim : s.claim core lid blk slot phys = (s2, r)) (hmoved : r ≠ .waits) :
    execBlockClaim core slot phys s = .next (s2.updCore core fun c => { c with want := false }).tick := by
  cases r with
  | waits => exact absurd rfl hmoved
  | done | lost =>
    simp only [execBlockClaim, hwant, hfree, hchoice, hclaim, Option.isSome_none, Bool.not_true, Bool.or_self, ne_eq,
      not_true_eq_false, decide_false, Bool.false_eq_true, if_false]

/-! ### Watchdogs (R109, R110) -/

section
variable {s : State} {part q : Nat}

theorem execWatchdogExpiry_expired (hbudget : s.budget part q ≠ 0) (hover : s.budget part q ≤ (s.queue part q).counter) :
    execWatchdogExpiry part q s = .next (s.kill part).tick := by
  refine next_tick (if_neg ?_)
  simp only [Bool.or_eq_true, decide_eq_true_eq]
  omega

theorem execWatchdogExpiry_running (h : s.budget part q = 0 ∨ (s.queue part q).counter < s.budget part q) :
    execWatchdogExpiry part q s = .next s.tick := by
  refine next_tick (if_pos ?_)
  simpa only [Bool.or_eq_true, decide_eq_true_eq] using h

end

/-! ### The order of candidates (R89) -/

theorem insertBy_perm {α : Type} (before : α → α → Bool) (x : α) (xs : List α) : (insertBy before x xs).Perm (x :: xs) := by
  induction xs with
  | nil => exact .refl _
  | cons y ys ih =>
    unfold insertBy
    split
    · exact .refl _
    · exact (ih.cons y).trans (.swap x y ys)

section
variable {α : Type} {before : α → α → Bool} {key : α → Nat} (hyes : ∀ a b, before a b = true → key b ≤ key a)
  (hno : ∀ a b, before a b = false → key a ≤ key b)
include hyes hno

/-- An insertion keeps a list falling by a key that `before` never goes against. -/
theorem insertBy_falling (x : α) {xs : List α} (hxs : xs.Pairwise fun a b => key b ≤ key a) :
    (insertBy before x xs).Pairwise fun a b => key b ≤ key a := by
  induction xs with
  | nil => exact List.pairwise_singleton _ _
  | cons y ys ih =>
    obtain ⟨hy, hys⟩ := List.pairwise_cons.1 hxs
    unfold insertBy
    split
    next hb =>
      have hxy := hyes x y hb
      exact List.pairwise_cons.2 ⟨List.forall_mem_cons.2 ⟨hxy, fun z hz => Nat.le_trans (hy z hz) hxy⟩, hxs⟩
    next hb =>
      have hyx := hno x y (Bool.eq_false_iff.2 hb)
      have hall : ∀ z ∈ x :: ys, key z ≤ key y := List.forall_mem_cons.2 ⟨hyx, hy⟩
      exact List.pairwise_cons.2 ⟨fun z hz => hall z ((insertBy_perm before x ys).mem_iff.1 hz), ih hys⟩

theorem sortBy_falling (xs : List α) : (sortBy before xs).Pairwise fun a b => key b ≤ key a :=
  List.foldlRecOn xs _ (motive := fun acc : List α => acc.Pairwise fun a b => key b ≤ key a) .nil
    fun _ hacc x _ => insertBy_falling hyes hno x hacc

end

/-- R89: candidates stand by falling effective priority; restarts, age and rotation order only those of one priority. -/
theorem State.candidates_falling (s : State) (ctx : Nat) :
    (s.candidates ctx).Pairwise fun a b => s.effPrio b.lid ≤ s.effPrio a.lid := by
  refine sortBy_falling (key := fun c : Cand => s.effPrio c.lid) (fun a b h => ?_) (fun a b h => ?_) _
  · simp only [Bool.or_eq_true, Bool.and_eq_true, decide_eq_true_eq] at h
    omega
  · simp only [Bool.or_eq_false_iff, decide_eq_false_iff_not] at h
    omega

/-! ### The cycle (R89) -/

/-- The part of a scheduler cycle that serves one partition; `execSchedulerCycle_eq` makes the cycle out of it. -/
def State.servePart (s : State) (n : Nat) : State :=
  let p := s.parts.getD n Part.reset
  if !p.bound || p.drain || s.dev.safe || s.dev.fenced then s
  else
    let s := (s.installs n).skips n
    s.placeLoop n (-1) (s.candidates n)

theorem execSchedulerCycle_eq (s : State) :
    execSchedulerCycle s = .next (((List.range 16).foldl State.servePart s).completions.countDogs).tick := rfl

section
variable {s : State} {n : Nat}

/-- R67, R89: nothing is placed for a partition that is not bound or drains, nor on a device in the safe state or fenced. -/
theorem State.servePart_closed (h : (s.parts.getD n Part.reset).bound = false ∨ (s.parts.getD n Part.reset).drain = true
    ∨ s.dev.safe = true ∨ s.dev.fenced = true) : s.servePart n = s := by
  refine if_pos ?_
  simpa only [Bool.or_eq_true, Bool.not_eq_true', or_assoc] using h

theorem State.servePart_open (hbound : (s.parts.getD n Part.reset).bound = true)
    (hdrain : (s.parts.getD n Part.reset).drain = false) (hsafe : s.dev.safe = false) (hfenced : s.dev.fenced = false) :
    let u := (s.installs n).skips n
    s.servePart n = u.placeLoop n (-1) (u.candidates n) := by
  refine if_neg ?_
  rw [hbound, hdrain, hsafe, hfenced]
  decide

end

/-! ### The loop over the candidates (R89) -/

section
variable {s : State} {b : Int} {c : Cand} (ctx : Nat) (cs : List Cand)

/-- Nothing is placed past a candidate of higher priority that was blocked. -/
theorem State.placeLoop_blocked (h : (s.effPrio c.lid : Int) < b) : s.placeLoop ctx b (c :: cs) = s := by
  rw [State.placeLoop, if_pos h]

variable (hb : b ≤ (s.effPrio c.lid : Int))
include hb

theorem State.placeLoop_skip (h : s.barred ctx c = true ∨ s.lapsedCand c = true) :
    s.placeLoop ctx b (c :: cs) = s.placeLoop ctx b cs := by
  rw [State.placeLoop, if_neg (Int.not_lt.2 hb), if_pos (Bool.or_eq_true_iff.2 h)]

variable {t : State} (hbarred : s.barred ctx c = false) (hlapsed : s.lapsedCand c = false)
include hbarred hlapsed

theorem State.placeLoop_placed (h : s.placeCand c = (t, true)) : s.placeLoop ctx b (c :: cs) =
    (t.updPart ctx fun p => { p with lastq := ((s.launch? c.lid).map Launch.queue).getD 0 }).placeLoop ctx b cs := by
  simp only [State.placeLoop, if_neg (Int.not_lt.2 hb), hbarred, hlapsed, h, Bool.or_self, Bool.false_eq_true, if_false]

/-- R105: a restart that was abandoned where it was to be placed blocks nothing. -/
theorem State.placeLoop_abandoned (h : s.placeCand c = (t, false)) (hgone : t.lapsedCand c = true) :
    s.placeLoop ctx b (c :: cs) = t.placeLoop ctx b cs := by
  simp only [State.placeLoop, if_neg (Int.not_lt.2 hb), hbarred, hlapsed, h, hgone, Bool.or_self, Bool.false_eq_true, if_false,
    if_true]

/-- A candidate that is passed over blocks those of lower priority, and all others from its 64th pass on. -/
theorem State.placeLoop_passed (h : s.placeCand c = (t, false)) (hstays : t.lapsedCand c = false) :
    let u := (if t.fits c then t else t.preempt ctx c).pass c
    s.placeLoop ctx b (c :: cs) = if 64 ≤ u.2 then u.1 else u.1.placeLoop ctx (u.1.effPrio c.lid) cs := by
  simp only [State.placeLoop, if_neg (Int.not_lt.2 hb), hbarred, hlapsed, h, hstays, Bool.or_self, Bool.false_eq_true, if_false]

end

/-! ### The events -/

/-- Settles O50: each clause is the equation of its event, and the candidates fall by priority because they are sorted by it. -/
theorem schedulerEvents : Obligations.SchedulerEvents := by
  unfold Obligations.SchedulerEvents
  refine ⟨?stage, ?discard, ?restart, ?starts, ?claim, ?watchdog, ?cycle, State.candidates_falling, ?loop⟩
  case stage =>
    intro s s2 part q bs p pt x hsafe hfenced hbound hdrain henable hfrozen hstage hring va hread
    exact execRecordStage_read hsafe hfenced hbound hdrain henable hfrozen hstage hring rfl hread
  case discard => exact fun s gid => ⟨execDiscard_restartable, execDiscard_unmarked⟩
  case restart =>
    intro s n h hheld
    exact ⟨execRestart_undue hheld, fun hdue => (State.restartDue_first hdue).imp_right State.restartReady_of_canRestart,
      fun t => execRestart_placed hheld, fun t => execRestart_unplaced hheld⟩
  case starts =>
    intro t lix tix hlive x
    have hx : x = { Thread.start t.pc (genSeed 0 lix tix) with
      x := t.word :: List.replicate 79 Reg.zero, region := ⟨true, t.pc, t.word⟩ } := HeldThread.start_live hlive lix tix
    rw [hx]
    exact ⟨rfl, rfl, rfl, rfl, rfl, rfl⟩
  case claim => exact fun s s2 core lid blk phys slot r => execBlockClaim_claimed
  case watchdog => exact fun s part q => ⟨execWatchdogExpiry_expired, execWatchdogExpiry_running⟩
  case cycle =>
    exact ⟨State.servePart, execSchedulerCycle_eq, fun s n => ⟨State.servePart_closed, State.servePart_open⟩⟩
  case loop =>
    intro s t ctx b c cs
    exact ⟨State.placeLoop_blocked ctx cs, State.placeLoop_skip ctx cs, fun hb hbarred hlapsed =>
      ⟨State.placeLoop_placed ctx cs hb hbarred hlapsed, State.placeLoop_abandoned ctx cs hb hbarred hlapsed,
        State.placeLoop_passed ctx cs hb hbarred hlapsed⟩⟩

end Sys2Proof.Machine
end

section
/-! SUPPORT. The events of spawn bins, of active messages and of a group's end (R50 to R52, R78, R93 to R95, R107): one
equation per operation and case, and the statement that is assembled from them. -/

namespace Sys2Proof.Machine
open Sys2Proof

/-! ### Timers of bins (R93, R95) -/

/-- The BINT of a bin's space, or its reset value while that space is not open. -/
def Core.bintOf (c : Core) (lid bint : Nat) : Prop :=
  (∃ p, c.space? lid = some p ∧ bint = p.bint.n) ∨ c.space? lid = none ∧ bint = 0x200

theorem Core.binDue_iff {c : Core} {b : Bin} {bint : Nat} (hbint : c.bintOf b.lid bint) (now : Nat) :
    c.binDue now b = true ↔ b.since + max bint 1 ≤ now := by
  unfold Core.binDue
  rcases hbint with ⟨p, hp, rfl⟩ | ⟨hp, rfl⟩
  · rw [hp]; exact decide_eq_true_iff
  · rw [hp]; exact decide_eq_true_iff

section
variable {s : State} {core n bint : Nat} {b : Bin} (hb : (s.core core).bins[n]? = some b)
  (hbint : (s.core core).bintOf b.lid bint)
include hb hbint

theorem execBinTimerExpiry_due (h : b.since + max bint 1 ≤ s.now) : execBinTimerExpiry core n s =
    .next (s.updCore core fun c => { c with bins := c.bins.set n { b with due := true } }).tick := by
  simp only [execBinTimerExpiry, hb, (Core.binDue_iff hbint s.now).2 h, if_true]

theorem execBinTimerExpiry_early (h : s.now < b.since + max bint 1) : execBinTimerExpiry core n s = .next s.tick := by
  have hnot : ¬ (s.core core).binDue s.now b = true := fun hdue => by
    have := (Core.binDue_iff hbint s.now).1 hdue
    omega
  simp only [execBinTimerExpiry, hb, if_neg hnot]

end

/-! ### The group of a bin (R52, R94) -/

@[simp] theorem State.putGroup_mem (s : State) (core lix slot lid ctx : Nat) (kind : GKind) (role regs eclass entry : Nat)
    (threads : List Thread) : (s.putGroup core lix slot lid ctx kind role regs eclass entry threads).mem = s.mem := rfl

theorem State.putGroup_kfind (s : State) (core lix slot lid ctx : Nat) (kind : GKind) (role regs eclass entry : Nat)
    (threads : List Thread) :
    kfind (s.putGroup core lix slot lid ctx kind role regs eclass entry threads).groups (gidOf core lix slot) =
      some { Group.fresh s.nextId core lix slot lid ctx kind role regs eclass entry threads with last := s.now } :=
  kfind_kset_self ..

@[simp] theorem State.ensureSpace_mem (s : State) (core lid ctx : Nat) : (s.ensureSpace core lid ctx).mem = s.mem := by
  unfold State.ensureSpace
  split <;> rfl

/-- R52: the thread of a bin's place has its argument registers, and zeros after them. -/
theorem Bin.start_filled {b : Bin} {t : Nat} {rs : List Reg} (lix : Nat) (ht : t < 16) (hrs : b.threads[t]? = some rs) :
    (b.start lix).getD t Thread.absent =
      { Thread.start b.entry (genSeed 0 lix t) with x := (rs ++ List.replicate 80 Reg.zero).take 80 } := by
  simp [Bin.start, List.getD_eq_getElem?_getD, ht, hrs]

/-- R94: the threads past those of the bin are inactive. -/
theorem Bin.start_unfilled {b : Bin} {t : Nat} (lix : Nat) (ht : t < 16) (hlen : b.threads.length ≤ t) :
    (b.start lix).getD t Thread.absent = Thread.absent := by
  simp [Bin.start, List.getD_eq_getElem?_getD, ht, List.getElem?_eq_none hlen]

theorem Core.binRole_threads (c : Core) (b : Bin) : (c.binRole b).threads = b.threads := by
  unfold Core.binRole
  dsimp only
  split <;> rfl

theorem Core.binRole_due (c : Core) (b : Bin) : (c.binRole b).due = b.due := by
  unfold Core.binRole
  dsimp only
  split <;> rfl

/-- What stands before a bin's group is placed: the bin is gone, its space is open, and its launch counts the threads. -/
def State.binTaken (s : State) (core n : Nat) (b : Bin) : State :=
  ((s.updCore core fun c => { c with bins := c.bins.eraseIdx n }).ensureSpace core b.lid b.ctx).updLaunch b.lid
    fun l => { l with threads := l.threads + b.threads.length }

@[simp] theorem State.binTaken_mem (s : State) (core n : Nat) (b : Bin) : (s.binTaken core n b).mem = s.mem := by
  simp [State.binTaken]

section
variable {s : State} {core n : Nat} {e : Bin} (he : (s.core core).bins[n]? = some e)
include he

/-- R94: a bin that is full or due, and whose space is open or can open, places its group on the lane of fewest groups. -/
theorem execBinLaunch_placed {b : Bin} (hb : (s.core core).binRole e = b) {lix : Nat} (hscan : (s.core core).scan = false)
    (hroom : b.message = true ∨ s.spaceOk core b.lid = true) (hready : b.threads.length = 16 ∨ b.due = true)
    (hlane : s.binLane core b.regs = some lix) :
    execBinLaunch core n s = .next ((s.binTaken core n b).putGroup core lix ((s.freeHomes core lix).headD 0) b.lid b.ctx
      (if b.message then .message else .spawned) b.role b.regs b.eclass b.entry (b.start lix)).tick := by
  have hroom' : (if b.message = true then true else s.spaceOk core b.lid) = true := by
    split
    · rfl
    next hm => exact hroom.resolve_left hm
  have hready' : (decide (b.threads.length < 16) && !b.due) = false := by
    rcases hready with h | h <;> simp [h]
  simp only [execBinLaunch, he, Option.map_some, hb, hscan, hroom', hready', hlane, Bool.not_true, Bool.or_self,
    Bool.false_eq_true, if_false, State.binTaken]

/-- R94: a bin with places left keeps its threads until it is due. -/
theorem execBinLaunch_kept (hlen : e.threads.length < 16) (hdue : e.due = false) :
    execBinLaunch core n s = .next s.tick := by
  simp only [execBinLaunch, he, Option.map_some, Core.binRole_threads, Core.binRole_due, hlen, hdue, decide_true,
    Bool.not_false, Bool.and_self, Bool.or_true, if_true]

end

/-! ### Active messages (R50, R51, R78) -/

theorem lateMsg_eq_some {x : Nat × Instr} {m : InMsg} :
    lateMsg x = some m ↔ x.2 = .activeMessageArrival (.far m) := by
  unfold lateMsg
  constructor
  · intro h
    split at h
    next heq => rw [heq, Option.some.inj h]
    next => cases h
  · intro h
    rw [h]

/-- Where no message that waited may enter the queue, its head goes on alone. -/
theorem State.amsgLate_none {s : State} {core : Nat} (h : ∀ x ∈ s.dev.linkIn, s.lateFor core x = false) :
    s.amsgLate core = s := by
  have hnone : s.dev.linkIn.find? (s.lateFor core) = none :=
    List.find?_eq_none.2 fun x hx => Bool.eq_false_iff.1 (h x hx)
  simp only [State.amsgLate, hnone]

theorem State.amsgOk_iff (s : State) (m : InMsg) :
    s.amsgOk m = true ↔ (s.phys m.core).isSome = true ∧ s.coreCtx m.core = some m.ctx := by
  simp only [State.amsgOk, Bool.and_eq_true, decide_eq_true_eq]

/-- R51: the first message that waited for room joins the queue of its core. -/
theorem State.amsgLate_takes {s : State} {core l : Nat} {m : InMsg}
    (hfirst : s.dev.linkIn.find? (s.lateFor core) = some (l, .activeMessageArrival (.far m))) (hok : s.amsgOk m = true) :
    s.amsgLate core =
      (s.updDev fun d => { d with linkIn := d.linkIn.erase (l, .activeMessageArrival (.far m)) }).amsgTakes m := by
  unfold State.amsgLate
  rw [hfirst]
  exact if_pos hok

/-- A core's event looks first for messages that waited: it goes on from the state in which they have been looked for. -/
theorem State.amsgBin_of_late {s u : State} {core : Nat} (h : s.amsgLate core = u) (hu : u.amsgLate core = u) :
    s.amsgBin core = u.amsgBin core := by
  unfold State.amsgBin
  rw [h, hu]

/-- R51, R78: the head of a core's queue enters the bin of its entry. -/
theorem State.amsgBin_head {s : State} {core k : Nat} {q : Msg} {ms : List Msg}
    (hlate : ∀ x ∈ s.dev.linkIn, s.lateFor core x = false) (hq : (s.core core).inq = q :: ms)
    (hbin : (s.core core).binFor (messageLid q.ctx) q.entry = some k) :
    let a := (s.core core).amRec q.ctx
    s.amsgBin core = s.updCore core fun c => { c.enterBin k
      ⟨messageLid q.ctx, q.ctx, q.entry, [], s.now, a.role, a.regs, a.eclass, true, true, false⟩ q.regs with inq := ms } := by
  simp only [State.amsgBin, State.amsgLate_none hlate, hq, hbin]

/-- R51: some message of its class and core waits at a port before it. -/
def State.amsgBehindLate (s : State) (m : InMsg) : Prop :=
  ∃ x ∈ s.dev.linkIn, ∃ y, x.2 = .activeMessageArrival (.far y) ∧ y.core = m.core ∧ y.reply = m.reply

theorem State.amsgBehindLate_iff (s : State) (m : InMsg) :
    ((s.dev.linkIn.filterMap lateMsg).any fun x => x.core = m.core && x.reply = m.reply) = true ↔ s.amsgBehindLate m := by
  simp only [State.amsgBehindLate, List.any_eq_true, List.mem_filterMap, lateMsg_eq_some, Bool.and_eq_true,
    decide_eq_true_eq]
  constructor
  · rintro ⟨y, ⟨x, hx, hy⟩, hcore, hreply⟩
    exact ⟨x, hx, y, hy, hcore, hreply⟩
  · rintro ⟨x, hx, y, hy, hcore, hreply⟩
    exact ⟨y, ⟨x, hx, hy⟩, hcore, hreply⟩

section
variable {s : State} {m : InMsg}

/-- R32: nothing arrives over a link that does not work. -/
theorem State.amsgIn_lost (h : s.link m.link = .untrained ∨ s.link m.link = .fenced) : s.amsgIn m = s := by
  rcases h with h | h <;> simp [State.amsgIn, State.linkKeeps, h, LinkSt.holds]

/-- R32, R81: a link that holds its traffic keeps the message. -/
theorem State.amsgIn_held (h : s.link m.link = .retraining ∨ s.link m.link = .frozen) :
    s.amsgIn m = s.updDev fun d => { d with linkIn := d.linkIn ++ [(m.link, .activeMessageArrival (.far m))] } := by
  rcases h with h | h <;> simp [State.amsgIn, State.linkKeeps, h, LinkSt.holds, State.updDev]

variable (hlink : s.link m.link = .trained) (hok : s.amsgOk m = true)
include hlink hok

theorem State.amsgIn_takes (hroom : (s.core m.core).roomFor m.reply = true) (hfirst : ¬ s.amsgBehindLate m) :
    s.amsgIn m = s.amsgTakes m := by
  have hany := Bool.eq_false_iff.2 (mt (s.amsgBehindLate_iff m).1 hfirst)
  simp [State.amsgIn, hlink, hok, hroom, hany]

/-- R51: a message waits in the network where the queue is full for its class, or others of its class wait before it. -/
theorem State.amsgIn_waits (h : (s.core m.core).roomFor m.reply = false ∨ s.amsgBehindLate m) : s.amsgIn m =
    s.updDev fun d => { d with linkIn := d.linkIn ++ [(m.link, .activeMessageArrival (.far m))] } := by
  have hwaits : (((s.dev.linkIn.filterMap lateMsg).any fun x => x.core = m.core && x.reply = m.reply)
      || !(s.core m.core).roomFor m.reply) = true := by
    rcases h with h | h
    · rw [h, Bool.not_false, Bool.or_true]
    · rw [(s.amsgBehindLate_iff m).2 h, Bool.true_or]
  simp only [State.amsgIn, hlink, hok, ne_eq, not_true_eq_false, Bool.not_true, Bool.false_eq_true, if_false]
  exact if_pos hwaits

end

/-! ### The end of a group (R107) -/

section
variable {s : State} {core n : Nat} {t : Track} (ht : (s.core core).tracker[n]? = some t)
include ht

theorem execGroupRetire_outstanding (h : s.drained core t = false) : execGroupRetire core n s = .next s.tick := by
  simp only [execGroupRetire, ht, h, Bool.not_false, if_true]

/-- R107: the entry of a drained group frees; here no group waits for one. -/
theorem execGroupRetire_drained {u : State} (h : s.drained core t = true)
    (hu : (s.updCore core fun c => { c with tracker := c.tracker.eraseIdx n }).dropIvs
      (fun a => a.path = .T && a.gid / 2 ^ 21 = t.uid + 1) = u)
    (hnone : (u.groups.filter fun e => e.2.core = core && e.2.liveTids.isEmpty) = []) :
    execGroupRetire core n s = .next ((u.settleSpace core t.lid).completions).tick := by
  simp only [execGroupRetire, ht, h, hu, hnone, Bool.not_true, Bool.false_eq_true, if_false, List.map_nil, List.take_nil,
    List.foldl_nil]

end

/-! ### The events -/

/-- Settles O49: each clause is the equation of its event, and a placed group is the fresh one of its bin. -/
theorem binsAndRetirement : Obligations.BinsAndRetirement := by
  unfold Obligations.BinsAndRetirement
  intro s core n
  refine ⟨?timer, ?placed, fun b => execBinLaunch_kept, ?head, ?late, ?links, ?arrives, ?retire⟩
  case timer => exact fun b bint hb hbint => ⟨execBinTimerExpiry_due hb hbint, execBinTimerExpiry_early hb hbint⟩
  case placed =>
    intro e b lix he a hb hscan hroom hready hlane gid
    refine ⟨_, _, execBinLaunch_placed he hb.symm hscan hroom hready hlane, State.putGroup_kfind .., rfl, rfl, rfl, rfl, rfl, rfl,
      s.binTaken_mem .., fun t rs ht hrs => ?_, fun t ht hlen => ?_⟩
    · have hthr := Bin.start_filled lix ht hrs
      exact ⟨congrArg Thread.life hthr, congrArg Thread.pos hthr, congrArg Thread.x hthr⟩
    · exact congrArg Thread.life (Bin.start_unfilled lix ht hlen)
  case head => exact fun m ms k hlate hq hbin => next_tick (State.amsgBin_head hlate hq hbin)
  case late =>
    intro l m e hfirst hphys hctx u hlate
    have htakes := State.amsgLate_takes hfirst ((s.amsgOk_iff m).2 ⟨hphys, hctx⟩)
    exact next_tick (State.amsgBin_of_late htakes (State.amsgLate_none hlate))
  case links => exact fun m => ⟨fun h => next_tick (State.amsgIn_lost h), fun h => next_tick (State.amsgIn_held h)⟩
  case arrives =>
    intro m hlink hphys hctx e behind
    have hok := (s.amsgOk_iff m).2 ⟨hphys, hctx⟩
    exact ⟨fun hroom hfirst => next_tick (State.amsgIn_takes hlink hok hroom hfirst),
      fun h => next_tick (State.amsgIn_waits hlink hok h)⟩
  case retire => exact fun t ht => ⟨execGroupRetire_outstanding ht, fun h => execGroupRetire_drained ht h rfl⟩

end Sys2Proof.Machine
end

section
/-! SUPPORT. A window's word that lands in the region of a source entry is read at once for its subscribers' update (R345), and
that read classifies the code words of its line (R171). A word that shows uncorrectable data there is poisoned, so that the memory
after the landing is not the store alone. -/

namespace Sys2Proof.Machine
open Sys2Proof

/-! ### A pending word of a forwarded region (R134, R345) -/

/-- The word at offset 64 of the launch's A space, in block 0 of core 0. -/
def forwardedKey : Nat := aKey 0 0 64

/-- A zero that is pending on that word. -/
def forwardedPend : Pend := ⟨0, 64, [Reg.zero], 0, some forwardedKey, [], none⟩

/-- The group of the pending word. -/
def forwardedGroup : Group :=
  { Group.fresh 1 0 0 0 0 0 (.gang 0) 0 16 0 64 (startThreads 64 0 16) with pend := [forwardedPend] }

/-- Core 0 forwards the word to landing entry 0 of core 1, and the word's sector holds uncorrectable data. -/
def forwardedState : State :=
  { State.reset with
    dev := { Device.reset with upsets := [⟨forwardedKey / 32, 3, 0⟩] }
    groups := [(0, forwardedGroup)]
    cores := [
      (0, { Core.reset with
        spaces := [⟨0, 0, 0, CReg.of 0x200, [(0, .phys 0)], false, 0⟩]
        srcs := [⟨0, 64, 4, 0, [(1, 0)], []⟩] }),
      (1, { Core.reset with
        spaces := [⟨0, 0, 0, CReg.of 0x200, [(0, .phys 0)], false, 0⟩]
        lands := [⟨0, 0, .live, 0, 512, 0, ⟨0, 64, 4, 0, 64⟩, none⟩] })]
    nextId := 2 }

/-- The state in which the pending word lands. -/
def forwardedLanding : State := forwardedState.updGrp 0 fun g => { g with pend := g.pend.eraseIdx 0 }

/-- R171, R345: the landing poisons the word's sector, whose code word it reads for the update. -/
theorem landWin_poisons_forwarded :
    ((forwardedLanding.landWin 0 forwardedPend forwardedKey).mem.band (forwardedKey / 32)).poison = true := by
  decide +kernel

/-- R174: a store of data that are not poisoned leaves a clean sector clean. -/
theorem Memory.clean_store {m : Memory} {sec : Nat} (h : (m.band sec).poison = false) (a : Nat) (bs : List Byte) (p : Bool)
    (tag : Nat) : ((m.store a bs p false tag).band sec).poison = false := by
  rw [Memory.band_store]
  split
  · simp [Band.put, h]
  · exact h

/-! ### The refutation -/

/-- Refutes O53: the memory after a window's word has landed is claimed to be that of the store. In `forwardedState` the word lies
in a forwarded region and its sector holds uncorrectable data, so the landing also poisons the sector, which the store leaves
clean. -/
theorem not_wakeEvents : ¬ Obligations.WakeEvents := by
  unfold Obligations.WakeEvents
  rintro ⟨hlanding, _⟩
  obtain ⟨_, _, hwindow⟩ := hlanding forwardedState 0 0 forwardedPend rfl fun q hq => absurd hq List.not_mem_nil
  obtain ⟨_, hmem⟩ := hwindow forwardedKey rfl
  have hpoison := landWin_poisons_forwarded
  rw [forwardedLanding, hmem, Memory.clean_store rfl] at hpoison
  cases hpoison

end Sys2Proof.Machine
end

section
/-! SUPPORT. The operations that every instruction and event is made of keep memory in its canonical form (R173, R174): those
of the state, the checks of an access (R302), what a write sets off, and the reads and writes of operands. -/

namespace Sys2Proof.Machine

open Sys2Proof

/-! ### The invariant and the shapes of the operations

`State.Inv.f` says that operation `f` keeps the invariant, so that a composition of operations keeps it by the same composition of
lemmas: `h.updCore.signal.tick` for `((s.updCore k f).signal v).tick`. -/

/-- The next state of an outcome, where it has one, is one of the invariant. -/
def Out.Inv : Out → Prop
  | .next t => t.Inv
  | _ => True

/-- The invariant speaks of the memory alone. -/
theorem State.Inv.frame {s : State} (h : s.Inv) {dev parts queues flog flogSeq logovf launches helds tlb ivs groups cores
    colls agenda cur sweep now free nextId} :
    (State.mk dev parts queues flog flogSeq logovf launches helds s.mem tlb ivs groups cores colls agenda cur sweep now free
      nextId).Inv := h

/-- The state of an answer that is known by an equation. -/
theorem State.Inv.of_eq {α : Type} {p : State × α} {u : State} {r : α} (h : p.1.Inv) (e : p = (u, r)) : u.Inv := by
  subst e
  exact h

/-- A fold of operations that keep the invariant keeps it. -/
theorem State.Inv.foldl {α : Type} {s : State} {f : State → α → State} {l : List α} (h : s.Inv)
    (hf : ∀ u a, u.Inv → (f u a).Inv) : (l.foldl f s).Inv :=
  foldl_keeps State.Inv f hf l s h

theorem State.Inv.foldlFst {α β : Type} {p : State × β} {f : State × β → α → State × β} {l : List α} (h : p.1.Inv)
    (hf : ∀ u a, u.1.Inv → (f u a).1.Inv) : (l.foldl f p).1.Inv :=
  foldl_keeps (fun u => u.1.Inv) f hf l p h

theorem State.Inv.ite {c : Prop} [Decidable c] {t u : State} (ht : t.Inv) (hu : u.Inv) : (if c then t else u).Inv := by
  split
  · exact ht
  · exact hu

theorem State.Inv.iteFst {α : Type} {c : Prop} [Decidable c] {p q : State × α} (hp : p.1.Inv) (hq : q.1.Inv) :
    (if c then p else q).1.Inv := by
  split
  · exact hp
  · exact hq

/-! ### The operations that write memory (R173, R174) -/

theorem State.Inv.memStore {s : State} (h : s.Inv) {a bs p poison tag} :
    ({ s with mem := s.mem.store a bs p poison tag } : State).Inv := Memory.wf_store _ _ _ _ _ _ h

theorem State.Inv.memClear {s : State} (h : s.Inv) {a n} : ({ s with mem := s.mem.clear a n } : State).Inv :=
  Memory.wf_clear _ _ _ h

theorem State.Inv.memSetBand {s : State} (h : s.Inv) {sec b} : ({ s with mem := s.mem.setBand sec b } : State).Inv :=
  Memory.wf_setBand _ _ _ h

theorem State.Inv.memWriteBand {s : State} (h : s.Inv) {a bs sec b} :
    ({ s with mem := (s.mem.write a bs).setBand sec b } : State).Inv := Memory.wf_setBand _ _ _ (Memory.wf_write _ _ _ h)

theorem State.Inv.memMoveSectors {s : State} (h : s.Inv) {src dst n} :
    ({ s with mem := s.mem.moveSectors src dst n } : State).Inv := Memory.wf_moveSectors _ _ _ _ h

section
variable {s : State}

/-! ### Operations over the state -/

theorem State.Inv.setCore (h : s.Inv) {k c} : (s.setCore k c).Inv := h

theorem State.Inv.updCore (h : s.Inv) {k f} : (s.updCore k f).Inv := h

theorem State.Inv.setGrp (h : s.Inv) {gid g} : (s.setGrp gid g).Inv := h

theorem State.Inv.updGrp (h : s.Inv) {gid f} : (s.updGrp gid f).Inv := by
  unfold State.updGrp
  split
  · exact h.setGrp
  · exact h

theorem State.Inv.updThr (h : s.Inv) {gid t f} : (s.updThr gid t f).Inv := h.updGrp

theorem State.Inv.updLaunch (h : s.Inv) {lid f} : (s.updLaunch lid f).Inv := h

theorem State.Inv.signal (h : s.Inv) {v} : (s.signal v).Inv := h

theorem State.Inv.mailEntry (h : s.Inv) {w} : (s.mailEntry w).Inv := by
  unfold State.mailEntry
  split
  · exact h.frame.signal
  · exact h

theorem State.Inv.reliability (h : s.Inv) {w} : (s.reliability w).Inv := h

theorem State.Inv.classify (h : s.Inv) {key len} : (s.classify key len).Inv := (State.classify_checked ..).mem h

theorem State.Inv.logFreeze (h : s.Inv) {master ctx cause core unit addr} :
    (s.logFreeze master ctx cause core unit addr).Inv := by
  unfold State.logFreeze
  dsimp only
  split <;> exact h.signal.frame

theorem State.Inv.closeIv (h : s.Inv) {a dom} : (s.closeIv a dom).Inv := h

theorem State.Inv.dropIvs (h : s.Inv) {f} : (s.dropIvs f).Inv := h

theorem State.Inv.trap (h : s.Inv) {t code addr} : (s.trap t code addr).Inv := h

theorem State.Inv.trapAll (h : s.Inv) {tids code addr} : (s.trapAll tids code addr).Inv := h

theorem State.Inv.violAll (h : s.Inv) {tids cause addr} : (s.violAll tids cause addr).Inv := h

theorem State.Inv.holdAll (h : s.Inv) {tids ld reg} : (s.holdAll tids ld reg).Inv := h

theorem State.Inv.stayAll (h : s.Inv) {tids} : (s.stayAll tids).Inv := h

theorem State.Inv.movedAll (h : s.Inv) {tids} : (s.movedAll tids).Inv := h

theorem State.Inv.raiseFlags (h : s.Inv) {f} : (s.raiseFlags f).Inv := h

theorem State.Inv.endTurn (h : s.Inv) : s.endTurn.Inv := h

theorem State.Inv.firmAll (h : s.Inv) {tids} : (s.firmAll tids).Inv := h

theorem State.Inv.aMap (h : s.Inv) {core lid off} : (s.aMap core lid off).1.Inv := (State.aMap_checked ..).mem h

theorem State.Inv.watchesSee (h : s.Inv) {old key len} : (s.watchesSee old key len).Inv := h

theorem State.Inv.lineRead (h : s.Inv) {core lid line} : (s.lineRead core lid line).Inv := by
  unfold State.lineRead
  split
  · exact h.classify
  · exact h

theorem State.Inv.forwardLine (h : s.Inv) {core lid ent line runs to_} : (s.forwardLine core lid ent line runs to_).Inv := by
  unfold State.forwardLine
  split
  · exact h
  refine h.foldl fun _ _ h => ?_
  split
  · exact h
  dsimp only
  split
  · exact h
  · exact h.updCore.frame

theorem State.Inv.forward (h : s.Inv) {core lid off len} : (s.forward core lid off len).Inv := by
  unfold State.forward
  refine h.foldl fun _ _ h => ?_
  split
  · exact h
  split
  · exact h
  dsimp only
  refine h.foldl fun _ _ h => ?_
  split
  · exact h.lineRead.forwardLine
  · exact h.lineRead.updCore

theorem State.Inv.winStore (h : s.Inv) {core lid off key r} : (s.winStore core lid off key r).Inv :=
  h.memStore.watchesSee.forward

theorem State.Inv.landWin (h : s.Inv) {gid p key} : (s.landWin gid p key).Inv := h.winStore

theorem State.Inv.landWins (h : s.Inv) {gid} : (s.landWins gid).Inv := by
  unfold State.landWins
  refine h.foldl fun _ _ h => ?_
  split
  · exact h.landWin
  · exact h

theorem State.Inv.pruneMons (h : s.Inv) {k} : (s.pruneMons k).Inv := h

theorem State.Inv.unbind (h : s.Inv) {k gid} : (s.unbind k gid).Inv := h

theorem State.Inv.ghosts (h : s.Inv) {core gid uid} : (s.ghosts core gid uid).Inv := h

theorem State.Inv.holdSpace (h : s.Inv) {core lid} : (s.holdSpace core lid).Inv := by
  unfold State.holdSpace
  split
  · exact h.updCore
  · exact h

theorem State.Inv.closeGroup (h : s.Inv) {gid} : (s.closeGroup gid).Inv := by
  unfold State.closeGroup
  dsimp only
  split
  · exact h
  split
  · exact h.unbind
  refine .holdSpace (.pruneMons (.frame (.ghosts (.updCore (.unbind ?_)))))
  split
  · exact h.landWins
  · exact h.landWins.updLaunch

theorem State.Inv.endProgram (h : s.Inv) {core code addr} : (s.endProgram core code addr).Inv := by
  unfold State.endProgram
  split
  · exact h
  dsimp only
  exact h.updCore.dropIvs.frame

theorem State.Inv.countTrapped (h : s.Inv) {gid n} : (s.countTrapped gid n).Inv := h

theorem State.Inv.dropRefs (h : s.Inv) {gid tids} : (s.dropRefs gid tids).Inv := h

theorem State.Inv.sideTails (h : s.Inv) {gid tids} : (s.sideTails gid tids).Inv := by
  unfold State.sideTails
  dsimp only
  split
  · exact h
  · exact h.dropRefs.countTrapped

theorem State.Inv.threadsOver (h : s.Inv) {gid tids} : (s.threadsOver gid tids).Inv := h.updGrp.pruneMons

theorem State.Inv.endThreads (h : s.Inv) {gid tids} : (s.endThreads gid tids).Inv := h.sideTails.threadsOver

theorem State.Inv.trapEnds (h : s.Inv) {gid tids} : (s.trapEnds gid tids).Inv := h.dropRefs.threadsOver.countTrapped

theorem State.Inv.takeTrap (h : s.Inv) {gid tids code addr epc hdr sysc} :
    (s.takeTrap gid tids code addr epc hdr sysc).Inv := by
  unfold State.takeTrap
  dsimp only
  split
  · exact h.trapEnds
  · exact h.updGrp

theorem State.Inv.unmark (h : s.Inv) {gid} : (s.unmark gid).Inv := by
  unfold State.unmark
  dsimp only
  split
  · exact h.updGrp.updGrp
  · exact h.updGrp

theorem State.Inv.moveOn (h : s.Inv) : s.moveOn.Inv := h.updGrp

theorem State.Inv.oweTraps (h : s.Inv) {es} : (s.oweTraps es).Inv := h.updGrp

theorem State.Inv.trapsTaken (h : s.Inv) : s.trapsTaken.Inv := by
  unfold State.trapsTaken
  dsimp only
  split
  · split
    · exact h
    · exact h.oweTraps
  split
  · exact h.endProgram
  · exact h.oweTraps.takeTrap

theorem State.Inv.drainFrozen (h : s.Inv) : s.drainFrozen.Inv := h

theorem State.Inv.freezeStream (h : s.Inv) {core ctx cause addr} : (s.freezeStream core ctx cause addr).Inv :=
  h.updCore.drainFrozen.logFreeze

theorem State.Inv.freezeNow (h : s.Inv) {gid cause addr} : (s.freezeNow gid cause addr).Inv :=
  h.landWins.updGrp.unmark.drainFrozen.logFreeze

theorem State.Inv.freezeGroup (h : s.Inv) {gid cause addr} : (s.freezeGroup gid cause addr).Inv := by
  unfold State.freezeGroup
  dsimp only
  split
  · exact h.freezeStream
  split
  · exact h.updGrp
  · exact h.freezeNow

theorem State.Inv.freezeDue (h : s.Inv) {gid} : (s.freezeDue gid).Inv := by
  unfold State.freezeDue
  dsimp only
  split
  · split
    · exact h
    · exact h.freezeNow
  · exact h

theorem State.Inv.violsTaken (h : s.Inv) : s.violsTaken.Inv := by
  unfold State.violsTaken
  split
  · exact h
  · exact h.freezeGroup

theorem State.Inv.joinIvs (h : s.Inv) : s.joinIvs.Inv := h

theorem State.Inv.settleGroup (h : s.Inv) : s.settleGroup.Inv := h.updGrp.updGrp

theorem State.Inv.dropHeld (h : s.Inv) {core id} : (s.dropHeld core id).Inv := h

theorem State.Inv.linkOver (h : s.Inv) : s.linkOver.Inv := h

theorem State.Inv.sweepOver (h : s.Inv) : s.sweepOver.Inv := h

theorem State.Inv.finish (h : s.Inv) : s.finish.Inv :=
  h.joinIvs.moveOn.trapsTaken.violsTaken.freezeDue.settleGroup.linkOver.closeGroup.sweepOver

theorem State.Inv.illegal (h : s.Inv) : s.illegal.Inv := h.trapAll.finish

theorem State.Inv.tick (h : s.Inv) : s.tick.Inv := h

/-! ### Accesses (R302) and fetches (R248) -/

theorem State.Inv.linkKeeps (h : s.Inv) {n i} : (s.linkKeeps n i).Inv := by
  unfold State.linkKeeps
  split <;> exact h

theorem State.Inv.emit (h : s.Inv) {m} : (s.emit m).Inv := by
  unfold State.emit
  split <;> exact h

theorem State.Inv.walkReads (h : s.Inv) {x die off} : (s.walkReads x die off).Inv := (State.walkReads_checked ..).mem h

theorem State.Inv.translate (h : s.Inv) {ctx die off} : (s.translate ctx die off).1.Inv := (State.translate_checked ..).mem h

theorem State.Inv.updPart (h : s.Inv) {n f} : (s.updPart n f).Inv := h

theorem State.Inv.updX (h : s.Inv) {n f} : (s.updX n f).Inv := h

theorem State.Inv.closeGran {u : State} (h : s.Inv) {ctx die gran kind}
    (e : s.closeGran ctx die gran kind = some u) : u.Inv := (s.closeGran_checked u _ _ _ _ e).mem h

theorem State.Inv.stall (h : s.Inv) {ctx die gran a full} : (s.stall ctx die gran a full).Inv := h

theorem State.Inv.reachRemote (h : s.Inv) {w a} : (s.reachRemote w a).1.Inv := (State.reachRemote_checked ..).mem h

theorem State.Inv.reachGlobal (h : s.Inv) {w a} : (s.reachGlobal w a).1.Inv := (State.reachGlobal_checked ..).mem h

theorem State.Inv.reach (h : s.Inv) {w a} : (s.reach w a).1.Inv := (State.reach_checked ..).mem h

theorem State.Inv.put (h : s.Inv) {w a key bs p poison fwd} : (s.put w a key bs p poison fwd).Inv := by
  unfold State.put
  dsimp only
  split
  · exact h.memStore.watchesSee.forward
  · exact h.memStore.watchesSee

theorem State.Inv.send (h : s.Inv) {ctx va bs p} : (s.send ctx va bs p).Inv := h.emit

theorem State.Inv.sideTakes {u : State} (h : s.Inv) {w uid va l} (e : s.sideTakes w uid va l = some u) : u.Inv := by
  simp only [State.sideTakes, Option.ite_none_left_eq_some, Option.some.injEq] at e
  obtain ⟨-, rfl⟩ := e
  exact h.updCore

theorem State.Inv.sideLog (h : s.Inv) {w uid va l} : (s.sideLog w uid va l).1.Inv := by
  unfold State.sideLog
  dsimp only
  split
  next e => exact h.stall.sideTakes e
  · exact h.stall

theorem State.Inv.dropSideRef (h : s.Inv) {w} : (s.dropSideRef w).Inv := h

theorem State.Inv.fetchWord (h : s.Inv) {w va} : (s.fetchWord w va).1.Inv := by
  unfold State.fetchWord
  split
  next e =>
    have h := h.reachGlobal.of_eq e
    split <;> exact h
  all_goals next e => exact h.reachGlobal.of_eq e

theorem State.Inv.fetchRest (h : s.Inv) {w va n lits acc k} : (s.fetchRest w va n lits acc k).1.Inv := by
  induction k generalizing s va n lits acc with
  | zero => exact h
  | succ k ih =>
    unfold State.fetchRest
    split
    · exact h
    split
    next e => exact h.fetchWord.of_eq e
    next e =>
      have h := h.fetchWord.of_eq e
      split
      · exact ih h
      split
      · exact ih h
      split
      next e => exact h.fetchWord.of_eq e
      next e => exact ih (h.fetchWord.of_eq e)

theorem State.Inv.fetchClause (h : s.Inv) {w va whole} : (s.fetchClause w va whole).1.Inv := by
  unfold State.fetchClause
  split
  next e => exact h.fetchWord.of_eq e
  next e =>
    have h := h.fetchWord.of_eq e
    split
    · exact h
    · exact h.fetchRest

/-! ### Operands, pops and the sweep of an ALU instruction -/

theorem State.Inv.readOp (h : s.Inv) {gid t o} : (s.readOp gid t o).1.Inv := (State.readOp_checked ..).mem h

theorem State.Inv.readOps (h : s.Inv) {gid t os v} : (s.readOps gid t os v).1.Inv := (State.readOps_checked ..).mem h

theorem State.Inv.dstOp (h : s.Inv) {gid t o} : (s.dstOp gid t o).1.Inv := by
  unfold State.dstOp
  dsimp only
  split
  · exact h
  split
  · split
    · exact h
    split
    all_goals next e => exact h.reach.of_eq e
  · exact h

theorem State.Inv.writeDst (h : s.Inv) {gid t d v p kind} : (s.writeDst gid t d v p kind).Inv := by
  unfold State.writeDst
  dsimp only
  split
  · exact h
  · split <;> exact h.updGrp
  split
  · exact h.put
  · exact h.updGrp

theorem State.Inv.unnote (h : s.Inv) {gid t d} : (s.unnote gid t d).Inv := by
  unfold State.unnote
  split <;> exact h

theorem State.Inv.popAll (h : s.Inv) {gid ns} : (s.popAll gid ns).Inv := by
  unfold State.popAll
  refine h.foldl fun _ _ h => ?_
  dsimp only
  split
  · exact h
  · exact h.updCore.frame

theorem State.Inv.gate (h : s.Inv) {i k} (hk : ∀ u : State, u.Inv → (k u).Inv) : (s.gate i k).Inv := by
  unfold State.gate
  dsimp only
  split
  · exact h.illegal
  · split
    · exact h.finish
    · split
      · exact h.trapAll.finish
      · exact h.stayAll.finish
      · exact hk _ h.popAll

theorem State.Inv.failRd (h : s.Inv) {tt r} : (s.failRd tt r).Inv := by
  unfold State.failRd
  split
  · exact h.trapAll
  · exact h.violAll
  · exact h.stayAll

theorem State.Inv.firmOf (h : s.Inv) {tt} : (s.firmOf tt).Inv := by
  unfold State.firmOf
  split
  · exact h.firmAll
  · exact h

theorem State.Inv.failRes (h : s.Inv) {tt r addr} : (s.failRes tt r addr).Inv := by
  unfold State.failRes
  split
  · exact h.firmOf.trapAll
  · exact h.violAll
  · exact h.holdAll
  · exact h.firmOf.trapAll
  · exact h.stayAll

theorem State.Inv.dstReady (h : s.Inv) {gid t i} : (s.dstReady gid t i).1.Inv := by
  unfold State.dstReady
  split
  · exact h.dstOp
  · exact h

theorem State.Inv.aluWrite (h : s.Inv) {kind ps pd f u v d} : (s.aluWrite kind ps pd f u v d).Inv := by
  unfold State.aluWrite
  dsimp only
  split
  · exact h.raiseFlags.unnote.trapAll
  split
  · exact h.raiseFlags.updThr.updGrp
  · exact h.raiseFlags.updThr.writeDst

theorem State.Inv.aluTurn (h : s.Inv) {i kind ps pd f u} : (s.aluTurn i kind ps pd f u).Inv := by
  unfold State.aluTurn
  split
  next e => exact (h.readOps.of_eq e).failRd
  next e =>
    have h := h.readOps.of_eq e
    split
    next e => exact (h.dstReady.of_eq e).failRd
    next e => exact (h.dstReady.of_eq e).aluWrite

theorem State.Inv.alu (h : s.Inv) {i kind ps pd f} : (s.alu i kind ps pd f).Inv :=
  h.gate fun _ h => (h.foldl fun _ _ h => h.aluTurn).finish

end

end Sys2Proof.Machine
end

section
/-! SUPPORT. The instructions of a thread keep memory in its canonical form: control, loads, stores and atomics, and
synchronisation. -/

namespace Sys2Proof.Machine

open Sys2Proof

section
variable {s : State}

/-! ### Clause headers, branches and loops -/

theorem State.Inv.resume (h : s.Inv) {gid tids} : (s.resume gid tids).Inv := h.updGrp

theorem State.Inv.unpark (h : s.Inv) {gid idx} : (s.unpark gid idx).Inv := h.updGrp

theorem State.Inv.park (h : s.Inv) {tids k} : (s.park tids k).Inv := h.updGrp.stayAll

theorem State.Inv.enterClause (h : s.Inv) {ws} : (s.enterClause ws).Inv := h.frame.updGrp.movedAll.finish

theorem State.Inv.pitchHeader (h : s.Inv) {p ws} : (s.pitchHeader p ws).Inv := by
  unfold State.pitchHeader
  dsimp only
  split
  · split
    · exact h.endProgram.frame
    · exact h.updCore.updGrp.movedAll.finish
  split
  · exact h.trapAll.finish
  · exact h.updCore.enterClause

theorem State.Inv.deferredTaken (h : s.Inv) {bits} : (s.deferredTaken bits).Inv := by
  unfold State.deferredTaken
  dsimp only
  split
  · exact h
  · exact h.updGrp.frame

theorem State.Inv.argWords (h : s.Inv) {gid va n} : (s.argWords gid va n).1.Inv := by
  induction n generalizing s va with
  | zero => exact h
  | succ n ih =>
    unfold State.argWords
    dsimp only
    split
    next e =>
      have h := h.reachGlobal.of_eq e
      split
      next e => exact (ih h).of_eq e
      · exact ih h
    next e =>
      have h := h.reachGlobal.of_eq e
      split
      next e => exact (ih h).of_eq e
      · exact ih h
    next e => exact h.reachGlobal.of_eq e

theorem State.Inv.fetchArgs (h : s.Inv) {gid} : (s.fetchArgs gid).1.Inv := by
  unfold State.fetchArgs
  split
  · exact h
  dsimp only
  split
  next e => exact h.argWords.of_eq e
  next e => exact (h.argWords.of_eq e).updGrp

theorem State.Inv.headerFails (h : s.Inv) {r va} : (s.headerFails r va).Inv := by
  unfold State.headerFails
  dsimp only
  split
  · exact h.frame.violAll.finish
  · exact h.frame.trapAll.finish
  · exact h.frame.trapAll.finish
  · exact h.frame.stayAll.finish

theorem State.Inv.headerReached (h : s.Inv) : s.headerReached.Inv := by
  unfold State.headerReached
  dsimp only
  split
  next e => exact (h.updGrp.fetchClause.of_eq e).headerFails
  next e =>
    have h := h.updGrp.fetchClause.of_eq e
    split
    · exact h.frame.pitchHeader
    split
    · exact h.frame.trapAll.finish
    split
    · exact h.frame.updGrp.stayAll.finish
    split
    · exact h.frame.deferredTaken.enterClause
    · exact h.frame.deferredTaken.stayAll.finish

theorem execClauseHeader_inv (h : s.Inv) : (execClauseHeader s).Inv := by
  unfold execClauseHeader
  split
  · exact h.tick
  split
  next e => exact (h.fetchArgs.of_eq e).headerFails
  next e => exact (h.fetchArgs.of_eq e).headerReached

theorem State.Inv.spill (h : s.Inv) {t} : (s.spill t).Inv := by
  unfold State.spill
  dsimp only
  split
  · exact h
  split
  · exact h
  split
  next e => exact (h.reach.of_eq e).put.updThr
  next e => exact (h.reach.of_eq e).failRes

theorem State.Inv.branchThread (h : s.Inv) {b rcv call} : (s.branchThread b rcv call).Inv := by
  unfold State.branchThread
  dsimp only
  split
  · exact h.trap
  split
  · exact h.trap
  split
  · exact h.trap
  refine .ite ?_ ?_
  · split
    · exact h.spill
    · exact h
  refine .movedAll (.updThr ?_)
  split
  · exact h.spill
  · exact h

theorem State.Inv.splitEnds (h : s.Inv) : s.splitEnds.Inv := by
  unfold State.splitEnds
  dsimp only
  split
  · exact h
  · exact h.endTurn

theorem State.Inv.branch (h : s.Inv) {i target call} : (s.branch i target call).Inv := by
  unfold State.branch
  dsimp only
  split
  · exact h.illegal
  refine (h.foldl fun _ _ h => ?_).splitEnds.finish
  split
  · exact h.branchThread
  split
  · exact h.branchThread
  split
  next e => exact (h.readOps.of_eq e).branchThread
  next e => exact (h.readOps.of_eq e).failRd

theorem State.Inv.refill (h : s.Inv) {t} : (s.refill t).Inv := by
  unfold State.refill
  dsimp only
  split
  · exact h
  split
  next e => exact (h.reach.of_eq e).updThr
  next e => exact (h.reach.of_eq e).failRes

theorem State.Inv.retThread (h : s.Inv) {t} : (s.retThread t).Inv := by
  unfold State.retThread
  dsimp only
  split
  · exact h.refill
  split
  · exact h.refill.trap
  split
  · exact h.refill.trap
  · exact h.refill.updThr.movedAll

theorem State.Inv.retOne (h : s.Inv) {t} : (s.retOne t).Inv := by
  unfold State.retOne
  split
  · exact h.retThread
  split
  · exact h.trap
  · exact h

theorem execRet_inv (h : s.Inv) : (execRet s).Inv := by
  unfold execRet
  split
  · exact h.illegal
  · exact (h.foldl fun _ _ h => h.retOne).splitEnds.finish

theorem execJoin_inv (h : s.Inv) : (execJoin s).Inv := by
  unfold execJoin
  split
  · exact h.illegal
  refine .finish ?_
  split
  · exact h.endTurn
  · exact h

theorem State.Inv.bodyEnd (h : s.Inv) {w va n k} : (s.bodyEnd w va n k).1.Inv := by
  induction k generalizing s va n with
  | zero => exact h
  | succ k ih =>
    unfold State.bodyEnd
    split
    · exact h
    split
    next e => exact h.fetchClause.of_eq e
    next e =>
      have h := h.fetchClause.of_eq e
      dsimp only
      split
      · exact h
      split
      · exact h
      · exact ih h

theorem execLoop_inv (h : s.Inv) {cnt len id ia ib ic it io} : (execLoop cnt len id ia ib ic it io s).Inv := by
  unfold execLoop
  refine h.gate fun _ h => ?_
  dsimp only
  split
  next e => exact (h.bodyEnd.of_eq e).violAll.finish
  next e => exact (h.bodyEnd.of_eq e).trapAll.finish
  next e => exact (h.bodyEnd.of_eq e).trapAll.finish
  next e => exact (h.bodyEnd.of_eq e).stayAll.finish
  next e => exact (h.bodyEnd.of_eq e).illegal
  next e =>
    have h := h.bodyEnd.of_eq e
    refine (h.foldl fun _ _ h => ?_).splitEnds.finish
    split
    next e => exact (h.readOps.of_eq e).failRd
    next e => exact (h.readOps.of_eq e).updThr.movedAll

theorem execTail_inv (h : s.Inv) : (execTail s).Inv := by
  unfold execTail
  split
  · exact h.illegal
  · exact h.endThreads.movedAll.finish

theorem State.Inv.yields (h : s.Inv) {gid} : (s.yields gid).Inv := h.updGrp

theorem execYield_inv (h : s.Inv) : (execYield s).Inv := by
  unfold execYield
  split
  · exact h.illegal
  · exact h.endTurn.finish.yields

theorem execNop_inv (h : s.Inv) : (execNop s).Inv := by
  unfold execNop
  split
  · exact h.illegal
  · exact h.finish

theorem execRgn_inv (h : s.Inv) {a} : (execRgn a s).Inv := by
  unfold execRgn
  refine h.gate fun _ h => (h.foldl fun _ _ h => ?_).finish
  split
  next e => exact (h.readOps.of_eq e).failRd
  next e => exact (h.readOps.of_eq e).updThr

theorem execDead_inv (h : s.Inv) {f m} : (execDead f m s).Inv := by
  unfold execDead
  refine h.gate fun _ h => ?_
  dsimp only
  exact h.updGrp.finish

/-! ### Control registers, traps and returns -/

theorem State.Inv.writeCtl (h : s.Inv) {n v p} : (s.writeCtl n v p).Inv := by
  unfold State.writeCtl
  split
  · dsimp only
    exact h.updCore
  · exact h.updGrp

theorem execMfsr_inv (h : s.Inv) {d c} : (execMfsr d c s).Inv := by
  unfold execMfsr
  refine h.gate fun _ h => (h.foldl fun _ _ h => ?_).finish
  split
  · exact h
  split
  next e => exact (h.dstOp.of_eq e).failRd
  next e =>
    have h := h.dstOp.of_eq e
    dsimp only
    exact h.writeDst

theorem State.Inv.mtsrTurn {i n u} {sv : State × List (Nat × Bool)} (h : sv.1.Inv) :
    (State.mtsrTurn i n sv u).1.Inv := by
  obtain ⟨s, ws⟩ := sv
  unfold State.mtsrTurn
  dsimp only
  split
  next e => exact (State.Inv.of_eq (State.Inv.readOps h) e).failRd
  next e =>
    have h := State.Inv.of_eq (State.Inv.readOps h) e
    generalize (if ctlPair n = true then _ else _) = x
    split
    · exact h.trapAll
    · exact h

theorem execMtsr_inv (h : s.Inv) {a c} : (execMtsr a c s).Inv := by
  unfold execMtsr
  refine h.gate fun _ h => ?_
  split
  next e =>
    have h := (h.foldlFst fun _ _ h => h.mtsrTurn).of_eq e
    dsimp only
    refine .finish ?_
    split
    · exact (h.foldl fun _ _ h => h.writeCtl).updGrp
    · exact h.foldl fun _ _ h => h.writeCtl

theorem execSysc_inv (h : s.Inv) {n} : (execSysc n s).Inv := by
  unfold execSysc
  refine h.gate fun _ h => ?_
  dsimp only
  exact h.trapAll.frame.finish

theorem execEret_inv (h : s.Inv) : (execEret s).Inv := by
  unfold execEret
  refine h.gate fun _ h => ?_
  split
  · exact h.illegal
  · exact h.updGrp.movedAll.endTurn.finish

/-! ### Loads, stores, atomics, fences and watches -/

theorem State.Inv.closeRegions (h : s.Inv) {tids} : (s.closeRegions tids).Inv := h.updGrp

theorem State.Inv.whenReady (h : s.Inv) {t tt k} (hk : ∀ u : State, u.Inv → (k u).Inv) :
    (s.whenReady t tt k).Inv := by
  unfold State.whenReady
  dsimp only
  split
  · exact h.dropSideRef.firmAll.trapAll
  · exact h.stayAll
  · exact hk _ h

theorem State.Inv.sendStore (h : s.Inv) {ctx va bs p} : (s.sendStore ctx va bs p).Inv := h.send.frame

theorem State.Inv.pendRegs (h : s.Inv) {gid t code rs kind} : (s.pendRegs gid t code rs kind).Inv := by
  unfold State.pendRegs
  split
  · exact h
  · split <;> exact h.updGrp

theorem State.Inv.loadTurn (h : s.Inv) {i spc off d f o v u} : (s.loadTurn i spc off d f o v u).Inv := by
  unfold State.loadTurn
  dsimp only
  split
  next e => exact (h.readOps.of_eq e).failRd
  next e =>
    have h := h.readOps.of_eq e
    split
    · exact h.trapAll
    split
    next e => exact (h.reach.of_eq e).pendRegs
    next e => exact (h.reach.of_eq e).pendRegs
    next e =>
      have h := h.reach.of_eq e
      split
      · exact h.stayAll
      · exact h.holdAll
    next e => exact (h.reach.of_eq e).failRes

theorem State.Inv.load (h : s.Inv) {i spc off d f o v} : (s.load i spc off d f o v).Inv := by
  unfold State.load
  refine h.gate fun _ h => ?_
  split
  · exact h.illegal
  · exact (h.foldl fun _ _ h => h.loadTurn).finish

theorem State.Inv.storeAt (h : s.Inv) {t tt acc bs p rel dom} : (s.storeAt t tt acc bs p rel dom).Inv := by
  unfold State.storeAt
  dsimp only
  split
  next e =>
    have h := h.reach.of_eq e
    split
    · exact h.put.closeIv
    · exact h.put
  next e =>
    have h := h.reach.of_eq e
    split
    · exact h.sendStore.closeIv
    · exact h.sendStore
  next e =>
    have h := h.reach.of_eq e
    split
    next e =>
      have h := h.sideLog.of_eq e
      split
      · exact h.closeIv
      · exact h
    next e => exact (h.sideLog.of_eq e).holdAll
  next e => exact (h.reach.of_eq e).failRes

theorem State.Inv.storeTurn (h : s.Inv) {i spc off prop d f o v dom u} : (s.storeTurn i spc off prop d f o v dom u).Inv := by
  unfold State.storeTurn
  dsimp only
  split
  next e => exact (h.readOps.of_eq e).failRd
  next e =>
    have h := h.readOps.of_eq e
    split
    · exact h.failRd
    split
    · exact h.trapAll
    split
    · exact h.raiseFlags.trapAll
    split
    · refine h.raiseFlags.whenReady fun _ h => ?_
      split
      · exact h.storeAt
      · exact h.storeAt.updThr
    split
    · exact h.raiseFlags.storeAt
    · exact h.raiseFlags.storeAt.updThr

theorem State.Inv.store (h : s.Inv) {i spc off prop d f o v} : (s.store i spc off prop d f o v).Inv := by
  unfold State.store
  refine h.gate fun _ h => ?_
  split
  · exact h.illegal
  · exact (h.foldl fun _ _ h => h.storeTurn).finish

theorem State.Inv.atomResult (h : s.Inv) {gid t d f red old p} : (s.atomResult gid t d f red old p).Inv := by
  unfold State.atomResult
  split
  · exact h
  · exact h.pendRegs

theorem State.Inv.atomAt (h : s.Inv) {w t tt acc key attr d f dom red a p} :
    (s.atomAt w t tt acc key attr d f dom red a p).Inv := by
  unfold State.atomAt
  dsimp only
  split
  · exact h.closeIv.atomResult
  split
  · exact h.trapAll
  · exact h.put.closeIv.atomResult

theorem State.Inv.atomOut (h : s.Inv) {w t tt addr attr d f dom red a p} :
    (s.atomOut w t tt addr attr d f dom red a p).Inv := by
  unfold State.atomOut
  dsimp only
  split
  · exact h.closeIv.atomResult
  split
  · exact h.trapAll
  · exact h.sendStore.closeIv.atomResult

theorem State.Inv.atomTurn (h : s.Inv) {i spc off red d f dom u} : (s.atomTurn i spc off red d f dom u).Inv := by
  unfold State.atomTurn
  dsimp only
  split
  next e => exact (h.readOps.of_eq e).failRd
  next e =>
    have h := h.readOps.of_eq e
    split
    · exact h.trapAll
    split
    · exact h.trapAll
    split
    · exact h.trapAll
    refine h.whenReady fun _ h => ?_
    split
    next e =>
      have h := h.reach.of_eq e
      exact .ite h.atomAt h.atomAt.closeRegions
    next e =>
      have h := h.reach.of_eq e
      split
      · exact h.atomOut
      · exact h.atomOut.closeRegions
    next e =>
      have h := h.reach.of_eq e
      split
      · split
        next e => exact (h.sideLog.of_eq e).closeIv.closeRegions
        next e => exact (h.sideLog.of_eq e).holdAll
      · exact h.holdAll
    next e => exact (h.reach.of_eq e).failRes

theorem State.Inv.atomic (h : s.Inv) {i spc off red d f o v} : (s.atomic i spc off red d f o v).Inv := by
  unfold State.atomic
  refine h.gate fun _ h => ?_
  split
  · exact h.illegal
  · exact (h.foldl fun _ _ h => h.atomTurn).finish

theorem State.Inv.fence (h : s.Inv) {dom} : (s.fence dom).Inv :=
  (h.foldl fun _ _ h => h.whenReady fun _ h => h.closeIv).finish

theorem execFence_inv (h : s.Inv) {o v} : (execFence o v s).Inv := by
  unfold execFence
  refine h.gate fun _ h => ?_
  split
  · exact h.illegal
  · exact h.fence

theorem State.Inv.fencexEnd (h : s.Inv) {gid t a b dom} : (s.fencexEnd gid t a b dom).Inv := by
  unfold State.fencexEnd
  dsimp only
  split
  · exact h.closeIv.frame
  · exact h.closeIv

theorem execFencex_inv (h : s.Inv) {p q o v} : (execFencex p q o v s).Inv := by
  unfold execFencex
  refine h.gate fun _ h => ?_
  split
  · exact h.illegal
  split
  · exact h.fence
  dsimp only
  refine (h.foldl fun _ _ h => ?_).finish
  split
  · exact h.updGrp.dropSideRef.firmAll.trap
  refine .ite ?_ ?_
  · exact h.updGrp.fencexEnd
  split
  · exact h.stayAll
  · exact h.park.frame

theorem State.Inv.armLine (h : s.Inv) {k ctx line} : (s.armLine k ctx line).Inv := by
  unfold State.armLine
  dsimp only
  split
  · exact h.setCore
  split
  · exact h.setCore
  split
  · exact h
  · exact h.setCore.frame

theorem State.Inv.watchTurn (h : s.Inv) {i n u} : (s.watchTurn i n u).Inv := by
  unfold State.watchTurn
  dsimp only
  split
  next e => exact (h.readOps.of_eq e).failRd
  next e =>
    have h := h.readOps.of_eq e
    split
    · exact h.trapAll
    split
    next e => exact (h.reach.of_eq e).updThr.pruneMons.armLine.updThr
    next e => exact (h.reach.of_eq e).updThr.pruneMons.armLine.updThr
    next e => exact (h.reach.of_eq e).holdAll
    next e => exact (h.reach.of_eq e).failRes

theorem State.Inv.overtakes (h : s.Inv) {gid t dst} : (s.overtakes gid t dst).Inv := by
  unfold State.overtakes
  dsimp only
  split
  · exact h
  · exact h.updGrp

theorem State.Inv.waitResult (h : s.Inv) {gid tt dst code} : (s.waitResult gid tt dst code).Inv :=
  h.updThr.overtakes.pendRegs

theorem State.Inv.waitTurn (h : s.Inv) {i d u} : (s.waitTurn i d u).Inv := by
  unfold State.waitTurn
  dsimp only
  split
  next e => exact (h.readOps.of_eq e).failRd
  next e =>
    have h := h.readOps.of_eq e
    split
    · exact h.waitResult
    split
    · exact h.waitResult
    · exact h.park

theorem State.Inv.waitaTurn (h : s.Inv) {i d u} : (s.waitaTurn i d u).Inv := by
  unfold State.waitaTurn
  dsimp only
  split
  · exact h.trapAll
  split
  next e => exact (h.readOps.of_eq e).failRd
  next e =>
    have h := h.readOps.of_eq e
    split
    · exact h.trapAll
    split
    next e =>
      have h := h.reach.of_eq e
      split
      · exact h.overtakes.pendRegs
      · exact h.park
    next e => exact (h.reach.of_eq e).failRes

/-! ### Huddles, barriers and phases -/

theorem State.Inv.owes {u : State} (h : s.Inv) {t c a} (e : s.owes t = some (u, c, a)) : u.Inv := by
  unfold State.owes at e
  split at e
  · cases e
    exact h.updThr.firmAll
  · obtain ⟨r, _, e⟩ := Option.map_eq_some_iff.1 e
    cases e
    exact h.dropSideRef.firmAll

theorem State.Inv.updHuddle (h : s.Inv) {k x f} : (s.updHuddle k x f).Inv := h

theorem execHarm_inv (h : s.Inv) {a x} : (execHarm a x s).Inv := by
  unfold execHarm
  refine h.gate fun _ h => (h.foldl fun _ _ h => ?_).finish
  split
  next e => exact (h.readOps.of_eq e).failRd
  next e =>
    have h := h.readOps.of_eq e
    dsimp only
    split
    · exact h.trapAll
    · exact h.updHuddle

theorem State.Inv.sign (h : s.Inv) {k x lid g} : (s.sign k x lid g).1.Inv := by
  unfold State.sign
  dsimp only
  split
  · exact h
  split
  · exact h
  · exact h.updHuddle

theorem State.Inv.signThread (h : s.Inv) {t x kind vals p} : (s.signThread t x kind vals p).1.Inv := h.sign

theorem State.Inv.signs (h : s.Inv) {hd k} (hk : ∀ (u : State) t, u.Inv → (k u t).Inv) :
    (s.signs hd k).Inv := by
  unfold State.signs
  split
  · exact h.stayAll.finish
  · exact (h.foldl hk).finish

theorem execHsign_inv (h : s.Inv) {x} : (execHsign x s).Inv := by
  unfold execHsign
  refine h.gate fun _ h => h.signs fun _ _ h => ?_
  split
  next e => exact (h.owes e).trap
  split
  next e => exact (h.signThread.of_eq e).trap
  next e => exact (h.signThread.of_eq e).stayAll
  next e => exact (h.signThread.of_eq e).park

theorem execBar_inv (h : s.Inv) {c n} : (execBar c n s).Inv := by
  unfold execBar
  refine h.gate fun _ h => ?_
  split
  · exact h.illegal
  dsimp only
  split
  · exact h.illegal
  refine (h.foldl fun _ _ h => ?_).finish
  split
  next e => exact (h.owes e).trap
  · exact h.park

theorem State.Inv.parrTurn (h : s.Inv) {i u} : (s.parrTurn i u).Inv := by
  unfold State.parrTurn
  dsimp only
  split
  next e => exact (h.readOps.of_eq e).failRd
  next e =>
    have h := h.readOps.of_eq e
    split
    · exact h.trapAll
    refine h.whenReady fun _ h => ?_
    split
    next e => exact (h.reach.of_eq e).put.closeIv
    next e => exact (h.reach.of_eq e).failRes

theorem State.Inv.pwaitTurn (h : s.Inv) {i u} : (s.pwaitTurn i u).Inv := by
  unfold State.pwaitTurn
  dsimp only
  split
  next e => exact (h.readOps.of_eq e).failRd
  next e =>
    have h := h.readOps.of_eq e
    split
    · exact h.trapAll
    split
    next e =>
      have h := h.reach.of_eq e
      split
      · exact h
      · exact h.park
    next e => exact (h.reach.of_eq e).failRes

/-! ### Exchanges -/

theorem State.Inv.deposit (h : s.Inv) {i o act} : (s.deposit i o act).1.Inv := by
  unfold State.deposit
  dsimp only
  refine h.foldlFst fun _ _ h => ?_
  split
  next e => exact h.readOp.of_eq e
  next e => exact (h.readOp.of_eq e).failRd

theorem State.Inv.exTurn (h : s.Inv) {i bs f u} : (s.exTurn i bs f u).Inv := by
  unfold State.exTurn
  dsimp only
  split
  · exact h
  · split
    next e => exact (h.readOps.of_eq e).failRd
    next v e =>
      have h := h.readOps.of_eq e
      split
      next e => exact (State.Inv.of_eq h.dstReady e).failRd
      next e =>
        have h := State.Inv.of_eq h.dstReady e
        split
        · exact h.raiseFlags.unnote.trapAll
        · exact h.raiseFlags.writeDst

theorem State.Inv.exWaits (h : s.Inv) {t} : (s.exWaits t).Inv := h

theorem State.Inv.exchange (h : s.Inv) {i f} : (s.exchange i f).Inv := by
  unfold State.exchange
  refine h.gate fun _ h => ?_
  split
  · exact h.finish
  dsimp only
  refine .finish ?_
  split
  · split
    · exact h.deposit.foldl fun _ _ h => h.exTurn
    · exact h.exWaits
  · exact h.exWaits

end

end Sys2Proof.Machine
end

section
/-! SUPPORT. The commands of the engines keep memory in its canonical form: their accesses, transfers, subscriptions,
collectives and messages. -/

namespace Sys2Proof.Machine

open Sys2Proof

section
variable {s : State}

/-! ### Accesses of engines and of units of the part -/

theorem State.Inv.engFetch (h : s.Inv) {w kind spc addr n} : (s.engFetch w kind spc addr n).1.Inv := by
  unfold State.engFetch
  split
  · exact h
  split
  all_goals next e => exact h.reach.of_eq e

theorem State.Inv.updCmd (h : s.Inv) {core id f} : (s.updCmd core id f).Inv := h

theorem State.Inv.engRead1 (h : s.Inv) {w spc addr n} : (s.engRead1 w spc addr n).1.Inv := by
  unfold State.engRead1
  split
  · exact h.engFetch
  split
  · exact h.updCmd
  split
  · exact h
  split
  next e => exact (h.engFetch.of_eq e).updCmd
  · exact h.engFetch

theorem State.Inv.cmdRead (h : s.Inv) {core id f} (hf : ∀ u : State, u.Inv → (f u).Inv) :
    (s.cmdRead core id f).Inv := (hf _ h.updCmd).updCmd

theorem State.Inv.recP (h : s.Inv) {w p} : (s.recP w p).Inv := by
  unfold State.recP
  split
  · exact h.updCmd
  · exact h

theorem State.Inv.engReadList (h : s.Inv) {w spc l} : (s.engReadList w spc l).1.Inv := by
  induction l generalizing s with
  | nil => exact h
  | cons c l ih =>
    unfold State.engReadList
    split
    next e =>
      have h := h.engRead1.of_eq e
      split
      next e => exact (ih h.recP).of_eq e
      · exact ih h.recP
    · exact h.engRead1

theorem State.Inv.engRead (h : s.Inv) {w spc addr n} : (s.engRead w spc addr n).1.Inv := by
  unfold State.engRead
  split
  · exact h
  · exact h.engReadList

theorem State.Inv.engWrite1 (h : s.Inv) {w uid c pstop} : (s.engWrite1 w uid c pstop).1.Inv := by
  unfold State.engWrite1
  split
  · exact h
  split
  · exact h
  dsimp only
  split
  next e => exact (h.reach.of_eq e).put
  next e => exact (h.reach.of_eq e).sendStore
  next e =>
    have h := h.reach.of_eq e
    split
    all_goals next e => exact h.sideLog.of_eq e
  next e => exact h.reach.of_eq e

theorem State.Inv.hwReadList (h : s.Inv) {w l} : (s.hwReadList w l).1.Inv := by
  induction l generalizing s with
  | nil => exact h
  | cons c l ih =>
    unfold State.hwReadList
    split
    next e =>
      have h := h.reachGlobal.of_eq e
      split
      next e => exact (ih h).of_eq e
      · exact ih h
    next e =>
      have h := h.reachGlobal.of_eq e
      split
      next e => exact (ih h).of_eq e
      · exact ih h
    next e => exact h.reachGlobal.of_eq e

theorem State.Inv.hwRead (h : s.Inv) {w va n} : (s.hwRead w va n).1.Inv := h.hwReadList

theorem State.Inv.hwWrite (h : s.Inv) {w va bs} : (s.hwWrite w va bs).1.Inv := by
  unfold State.hwWrite
  dsimp only
  split
  next e => exact (h.reachGlobal.of_eq e).put
  next e => exact (h.reachGlobal.of_eq e).sendStore
  next e => exact (h.reachGlobal.of_eq e).stall
  next e => exact h.reachGlobal.of_eq e

theorem State.Inv.faultLaunch (h : s.Inv) {lid n} : (s.faultLaunch lid n).Inv := h

/-! ### Commands and transfers -/

theorem State.Inv.issueCmd (h : s.Inv) {tt c} : (s.issueCmd tt c).Inv := h.frame.updCore.closeRegions

theorem State.Inv.cmdTurn (h : s.Inv) {i res chk mk u} : (s.cmdTurn i res chk mk u).Inv := by
  unfold State.cmdTurn
  dsimp only
  split
  next e => exact (h.readOps.of_eq e).failRd
  next e =>
    have h := h.readOps.of_eq e
    split
    · exact h.trapAll
    split
    · exact h.issueCmd
    split
    next e => exact (h.dstOp.of_eq e).failRd
    next e => exact (h.dstOp.of_eq e).issueCmd

theorem State.Inv.command (h : s.Inv) {i res chk mk} : (s.command i res chk mk).Inv :=
  h.gate fun _ h => (h.foldl fun _ _ h => h.cmdTurn).finish

theorem State.Inv.cpyTurn (h : s.Inv) {i toA n u} : (s.cpyTurn i toA n u).Inv := by
  unfold State.cpyTurn
  dsimp only
  split
  next e => exact (h.readOps.of_eq e).failRd
  next e =>
    have h := h.readOps.of_eq e
    split
    · exact h.trapAll
    split
    · exact h.trapAll
    split
    · exact h.trapAll
    · exact h.updGrp.frame.updCore.closeRegions

theorem State.Inv.cpy (h : s.Inv) {i toA n} : (s.cpy i toA n).Inv := by
  unfold State.cpy
  refine h.gate fun _ h => ?_
  split
  · exact h.stayAll.finish
  · exact (h.foldl fun _ _ h => h.cpyTurn).finish

theorem execCpyw_inv (h : s.Inv) {t} : (execCpyw t s).Inv := by
  unfold execCpyw
  refine h.gate fun _ h => ?_
  extract_lets gid n g seqOf ready fresh old u v
  have hu : u.Inv := .ite h h.park
  have hv : v.Inv := .ite hu hu.stayAll
  clear_value u v
  split
  · exact hv.finish
  · exact State.Inv.finish (.ite hv.updGrp hv.updGrp.trapAll)

theorem State.Inv.xferEnd (h : s.Inv) {core x err addr} : (s.xferEnd core x err addr).Inv := by
  unfold State.xferEnd
  dsimp only
  split
  · exact h.updCore.dropIvs.dropHeld
  split
  · exact h.updCore.dropIvs.dropHeld.updGrp
  split
  · exact h.updCore.dropIvs.dropHeld.updLaunch
  · exact h.updCore.dropIvs.dropHeld

theorem State.Inv.updXfer (h : s.Inv) {core id f} : (s.updXfer core id f).Inv := h

theorem State.Inv.xferWrite (h : s.Inv) {core x bs p poison} : (s.xferWrite core x bs p poison).Inv := by
  unfold State.xferWrite
  dsimp only
  split
  next e =>
    have h := h.engWrite1.of_eq e
    split
    · exact h.updXfer
    · exact h.xferEnd
  next e => exact (h.engWrite1.of_eq e).xferEnd
  next e => exact (h.engWrite1.of_eq e).freezeStream
  next e => exact h.engWrite1.of_eq e

theorem State.Inv.xferRead (h : s.Inv) {core x} : (s.xferRead core x).1.Inv := by
  unfold State.xferRead
  split
  · exact h
  split
  · exact h
  split
  · exact h
  split
  next e => exact h.engFetch.of_eq e
  next e =>
    have h := h.engFetch.of_eq e
    split
    all_goals next e => exact h.engFetch.of_eq e
  next e => exact h.engFetch.of_eq e

theorem State.Inv.xferRun (h : s.Inv) {core x} : (s.xferRun core x).Inv := by
  unfold State.xferRun
  dsimp only
  split
  · split
    · exact h.dropSideRef.xferEnd
    split
    · exact h
    · exact h.xferEnd
  split
  · exact h.xferEnd
  split
  next e => exact (h.xferRead.of_eq e).updXfer.xferWrite
  next e => exact (h.xferRead.of_eq e).xferEnd
  next e => exact (h.xferRead.of_eq e).freezeStream
  next e => exact h.xferRead.of_eq e

theorem execCopyTransferCompletion_inv (h : s.Inv) {core idx} : (execCopyTransferCompletion core idx s).Inv := by
  unfold execCopyTransferCompletion
  split
  · exact h.tick
  refine .tick ?_
  split
  · exact h
  · exact h.xferRun

theorem State.Inv.amsgTurn (h : s.Inv) {i k c u} : (s.amsgTurn i k c u).Inv := by
  unfold State.amsgTurn
  dsimp only
  split
  next e => exact (h.readOps.of_eq e).failRd
  next e =>
    have h := h.readOps.of_eq e
    split
    · exact h.trapAll
    split
    · exact h.trapAll
    split
    · exact h
    refine h.whenReady fun _ h => ?_
    split
    · exact h.dstOp.failRd
    next e => exact (h.closeIv.dstOp.of_eq e).issueCmd

theorem State.Inv.collGot (h : s.Inv) {core id} : (s.collGot core id).Inv := h

theorem State.Inv.cmdEnds (h : s.Inv) {core id code count} : (s.cmdEnds core id code count).Inv := h

theorem State.Inv.cmdWordless (h : s.Inv) {core c code} : (s.cmdWordless core c code).Inv := h

theorem State.Inv.cmdFails (h : s.Inv) {core c r count} : (s.cmdFails core c r count).Inv := by
  unfold State.cmdFails
  split
  · exact h.cmdEnds
  · exact h.freezeStream
  · exact h

theorem State.Inv.cmdResult (h : s.Inv) {core c v} : (s.cmdResult core c v).Inv := by
  unfold State.cmdResult
  split
  · exact h
  dsimp only
  split
  · exact h.updGrp
  split
  · exact h.winStore
  · exact h

theorem State.Inv.cmdGone (h : s.Inv) {core c} : (s.cmdGone core c).Inv := h

theorem State.Inv.cmdOver (h : s.Inv) {core c code} : (s.cmdOver core c code).Inv := by
  unfold State.cmdOver
  split
  · exact h.updCmd.dropIvs
  · exact h.cmdGone.cmdResult.unmark

theorem State.Inv.cmdUntold (h : s.Inv) {core c code} : (s.cmdUntold core c code).Inv := h.faultLaunch.cmdOver

theorem State.Inv.cmdWord (h : s.Inv) {core c spc a} : (s.cmdWord core c spc a).Inv := by
  unfold State.cmdWord
  dsimp only
  split
  · exact h
  split
  next e => exact (h.reach.of_eq e).put.cmdOver
  next e => exact (h.reach.of_eq e).sendStore.cmdOver
  next e => exact (h.reach.of_eq e).freezeStream
  next e =>
    have h := h.reach.of_eq e
    split
    next e => exact (h.sideLog.of_eq e).updCmd
    next e => exact h.sideLog.of_eq e
  next e => exact (h.reach.of_eq e).cmdUntold
  next e => exact (h.reach.of_eq e).cmdUntold
  next e => exact h.reach.of_eq e

theorem State.Inv.cmdRefused (h : s.Inv) {core c} : (s.cmdRefused core c).Inv := h

theorem State.Inv.cmdFinish (h : s.Inv) {core c} : (s.cmdFinish core c).Inv := by
  unfold State.cmdFinish
  dsimp only
  split
  · exact h.cmdRefused
  split
  · exact h
  split
  · exact h.cmdOver
  split
  · exact h
  · exact h.cmdWord

theorem State.Inv.cmdLogged (h : s.Inv) {core c} : (s.cmdLogged core c).Inv := by
  unfold State.cmdLogged
  dsimp only
  split
  · exact h.dropSideRef.cmdUntold
  split
  · exact h
  · exact h.cmdOver

theorem State.Inv.cmdWritten (h : s.Inv) {core c count} : (s.cmdWritten core c count).Inv := by
  unfold State.cmdWritten
  split
  · exact h.collGot.updCmd
  · exact h.updCmd

theorem State.Inv.cmdWrites (h : s.Inv) {core c x l} : (s.cmdWrites core c x l).Inv := by
  induction l generalizing s x with
  | nil =>
    unfold State.cmdWrites
    exact h.cmdWritten
  | cons x l ih =>
    unfold State.cmdWrites
    split
    · exact h.updCmd
    split
    next e => exact ih (h.engWrite1.of_eq e)
    next e => exact (h.engWrite1.of_eq e).updCmd.cmdEnds
    next e => exact (h.engWrite1.of_eq e).updCmd.freezeStream
    next e => exact (h.engWrite1.of_eq e).updCmd

theorem State.Inv.cmdAfter (h : s.Inv) {core c l} : (s.cmdAfter core c l).Inv := by
  induction l generalizing s with
  | nil =>
    unfold State.cmdAfter
    exact h.updCmd
  | cons x l ih =>
    unfold State.cmdAfter
    dsimp only
    split
    · exact h.updCmd
    split
    next e =>
      have h := h.engWrite1.of_eq e
      refine ih ?_
      split
      · exact h.closeIv
      · exact h
    next e => exact (h.engWrite1.of_eq e).cmdEnds
    next e => exact (h.engWrite1.of_eq e).updCmd.freezeStream
    next e => exact (h.engWrite1.of_eq e).updCmd

theorem State.Inv.engBytes (h : s.Inv) {w rec_ spc l} : (s.engBytes w rec_ spc l).1.Inv := by
  induction l generalizing s with
  | nil => exact h
  | cons c l ih =>
    unfold State.engBytes
    split
    next e =>
      have h := h.engRead1.of_eq e
      split
      next e => exact (ih h.recP).of_eq e
      · exact ih h.recP
    next e => exact h.engRead1.of_eq e

theorem State.Inv.bcpyRows (h : s.Inv) {w b p l} : (s.bcpyRows w b p l).1.Inv := by
  induction l generalizing s with
  | nil => exact h
  | cons i l ih =>
    unfold State.bcpyRows
    dsimp only
    split
    next e => exact h.engBytes.of_eq e
    next e =>
      have h := h.engBytes.of_eq e
      split
      next e => exact (ih h).of_eq e
      · exact ih h

theorem State.Inv.bcpyLayout (h : s.Inv) {w b flag p} : (s.bcpyLayout w b flag p).1.Inv := by
  unfold State.bcpyLayout
  split
  · exact h
  split
  next e => exact h.engBytes.of_eq e
  next e =>
    have h := h.engBytes.of_eq e
    dsimp only
    split
    · exact h
    split
    next e => exact h.engBytes.of_eq e
    next e =>
      have h := h.engBytes.of_eq e
      split
      all_goals next e => exact h.engBytes.of_eq e

theorem State.Inv.bcpyStart (h : s.Inv) {core c desc flag} : (s.bcpyStart core c desc flag).Inv := by
  unfold State.bcpyStart
  dsimp only
  split
  next e =>
    have h := h.engRead.of_eq e
    split
    · exact h.cmdEnds
    split
    · exact h.cmdEnds
    split
    · split
      next e => exact (h.bcpyLayout.of_eq e).updCmd
      next e => exact (h.bcpyLayout.of_eq e).cmdFails
    split
    · exact h.cmdEnds
    split
    next e => exact (h.bcpyRows.of_eq e).updCmd
    next e => exact (h.bcpyRows.of_eq e).cmdFails
  next e => exact (h.engRead.of_eq e).cmdFails

/-! ### Subscriptions, collectives and messages -/

theorem State.Inv.mapCores (h : s.Inv) {f} : (s.mapCores f).Inv := h

theorem State.Inv.dropSub (h : s.Inv) {sub} : (s.dropSub sub).Inv := h

theorem State.Inv.flushEntry (h : s.Inv) {core ent} : (s.flushEntry core ent).Inv := by
  unfold State.flushEntry
  split
  · exact h
  dsimp only
  exact h.updCore.foldl fun _ _ h => h.forwardLine

theorem State.Inv.lastUpdates (h : s.Inv) {sub} : (s.lastUpdates sub).Inv := by
  unfold State.lastUpdates
  refine h.foldl fun _ _ h => h.foldl fun _ _ h => ?_
  dsimp only
  split
  · exact h.foldl fun _ _ h => h.forwardLine
  · exact h

theorem State.Inv.freeLand (h : s.Inv) {core n} : (s.freeLand core n).Inv := h

theorem State.Inv.flushLaunch (h : s.Inv) {core lid} : (s.flushLaunch core lid).Inv := by
  unfold State.flushLaunch
  refine h.foldl fun _ _ h => ?_
  split
  · exact h.flushEntry
  · exact h

theorem State.Inv.updLand (h : s.Inv) {core n f} : (s.updLand core n f).Inv := h

theorem State.Inv.subDone (h : s.Inv) {core c} : (s.subDone core c).Inv := by
  unfold State.subDone
  split
  · exact h.freeLand.cmdEnds
  · dsimp only
    exact h.updCore.cmdEnds
  · exact h.updLand.cmdEnds
  · exact h.cmdEnds

theorem State.Inv.subsSettle (h : s.Inv) : s.subsSettle.Inv := h.foldl fun _ _ h => h.subDone

theorem State.Inv.updsOver (h : s.Inv) {ids} : (s.updsOver ids).Inv := h.mapCores.subsSettle

theorem State.Inv.cmdWaits (h : s.Inv) {core c ids count} : (s.cmdWaits core c ids count).Inv := h.updCmd.subsSettle

theorem State.Inv.bindSub (h : s.Inv) {core c sync n ent r} : (s.bindSub core c sync n ent r).Inv := by
  unfold State.bindSub
  dsimp only
  split
  · exact h.lastUpdates.dropSub.frame.updCore.updLand
  · exact h.lastUpdates.dropSub.frame.updCore.updCore

theorem State.Inv.regionReads (h : s.Inv) {core lid off len} : (s.regionReads core lid off len).Inv := by
  unfold State.regionReads
  split
  · exact h
  · exact h.foldl fun _ _ h => h.lineRead

theorem State.Inv.subsStart (h : s.Inv) {core c sync n desc} : (s.subsStart core c sync n desc).Inv := by
  unfold State.subsStart
  dsimp only
  split
  next e =>
    have h := h.engRead.of_eq e
    split
    · exact h.cmdWordless
    split
    · exact h.updCmd.cmdEnds
    split
    · exact h.updCmd.cmdEnds
    split
    · exact h.updCmd.cmdEnds
    split
    · exact h.updCmd.bindSub.cmdEnds
    split
    · exact h.updCmd.regionReads
    · exact h.updCmd.regionReads.bindSub.updCore.frame.cmdWaits
  next e =>
    have h := h.engRead.of_eq e
    split
    · split
      · exact h.updCmd.cmdEnds
      · exact h.cmdWordless
    · exact h.cmdWordless
  next e => exact (h.engRead.of_eq e).cmdFails

theorem State.Inv.sourceRequest (h : s.Inv) {core c} : (s.sourceRequest core c).Inv := by
  unfold State.sourceRequest
  split
  · exact h.cmdRead fun _ h => h.subsStart
  · split
    · exact h.cmdWordless
    split
    · exact h.cmdEnds
    split
    · exact h.cmdEnds
    split
    · exact h.lastUpdates.freeLand.cmdEnds
    split
    · exact h.cmdWaits
    dsimp only
    exact h.flushEntry.dropSub.cmdWaits
  · split
    · exact h.cmdEnds
    split
    · exact h.cmdEnds
    split
    · exact h.cmdEnds
    dsimp only
    refine .cmdWaits ?_
    split
    · exact h
    · exact h.flushEntry
  · dsimp only
    exact h.flushLaunch.cmdWaits
  · exact h

theorem execSourceEntryRequest_inv (h : s.Inv) {core idx} : (execSourceEntryRequest core idx s).Inv := by
  unfold execSourceEntryRequest
  split
  · exact h.tick
  refine .tick ?_
  split
  · exact h
  · exact h.sourceRequest

theorem execBatchWindowExpiry_inv (h : s.Inv) {core entry line} : (execBatchWindowExpiry core entry line s).Inv := by
  unfold execBatchWindowExpiry
  split
  · exact h.tick
  split
  · exact h.tick
  · exact h.updCore.forwardLine.tick

theorem State.Inv.unsync (h : s.Inv) {core n bid} : (s.unsync core n bid).Inv := by
  unfold State.unsync
  split
  · exact h
  split
  · exact h.freeLand
  · exact h.updLand

theorem State.Inv.updRefused (h : s.Inv) {core u conflict} : (s.updRefused core u conflict).Inv := by
  unfold State.updRefused
  dsimp only
  split
  · exact h.updCore.updsOver
  · exact h.updCore.unsync.cmdEnds.updsOver

theorem State.Inv.updKeys (h : s.Inv) {core lid l} : (s.updKeys core lid l).1.Inv := by
  induction l generalizing s with
  | nil => exact h
  | cons r l ih =>
    unfold State.updKeys
    split
    next e => exact h.aMap.of_eq e
    next e =>
      have h := h.aMap.of_eq e
      split
      all_goals next e => exact (ih h).of_eq e

theorem State.Inv.updApply (h : s.Inv) {core u flit} : (s.updApply core u flit).Inv := by
  unfold State.updApply
  dsimp only
  split
  next e => exact h.updKeys.of_eq e
  next e =>
    have h := h.updKeys.of_eq e
    split
    · exact h.updRefused
    · exact (h.foldl fun _ _ h => h.put).updsOver

theorem execUpdateArrival_inv (h : s.Inv) {core x} : (execUpdateArrival core x s).Inv := by
  unfold execUpdateArrival
  dsimp only
  split
  · exact h.tick
  split
  · exact h.tick
  split
  · exact h.updRefused.tick
  split
  · exact h.updApply.tick
  · exact h.updRefused.tick

theorem State.Inv.updColl (h : s.Inv) {id f} : (s.updColl id f).Inv := h

theorem State.Inv.checkColl (h : s.Inv) {id} : (s.checkColl id).Inv := by
  unfold State.checkColl
  split
  · exact h
  split
  · exact h
  dsimp only
  refine h.updColl.foldl fun _ _ h => ?_
  split
  · exact h.cmdEnds
  · exact h

theorem State.Inv.joinColl (h : s.Inv) {core c d table es} : (s.joinColl core c d table es).Inv := by
  unfold State.joinColl
  split
  · dsimp only
    split
    · exact h.updCmd.updColl.checkColl
    · exact h.updCmd.frame

theorem State.Inv.collSource (h : s.Inv) {core c desc d table p} : (s.collSource core c desc d table p).Inv := by
  unfold State.collSource
  dsimp only
  split
  · exact h.updCmd.cmdEnds
  split
  next e => exact (h.updCmd.engBytes.of_eq e).cmdFails
  next e =>
    have h := h.updCmd.engBytes.of_eq e
    split
    · exact h.updCmd.updCmd
    · exact h.updCmd.joinColl

theorem State.Inv.collStart (h : s.Inv) {core c desc} : (s.collStart core c desc).Inv := by
  unfold State.collStart
  split
  next e =>
    have h := h.engRead.of_eq e
    dsimp only
    split
    · exact h.cmdWordless
    split
    · exact h.updCmd.cmdEnds
    split
    · exact h.updCmd.updCmd
    split
    next e =>
      have h := h.updCmd.engRead.of_eq e
      split
      · exact h.cmdEnds
      · exact h.updCmd.collSource
    next e => exact (h.updCmd.engRead.of_eq e).cmdFails
  next e =>
    have h := h.engRead.of_eq e
    split
    · split
      · exact h.updCmd.cmdEnds
      · exact h.cmdWordless
    · exact h.cmdWordless
  next e => exact (h.engRead.of_eq e).cmdFails

theorem State.Inv.remoteMember (h : s.Inv) {c rank} : (s.remoteMember c rank).Inv := by
  unfold State.remoteMember
  split
  · exact h
  dsimp only
  split
  · exact h
  · exact h.updColl

theorem execContributionArrival_inv (h : s.Inv) {coll rank other} : (execContributionArrival coll rank other s).Inv := by
  unfold execContributionArrival
  split
  · exact h.tick
  split
  · exact h.remoteMember.tick
  dsimp only
  exact h.tick.frame

theorem execCollectiveBoundExpiry_inv (h : s.Inv) {coll rank} : (execCollectiveBoundExpiry coll rank s).Inv := by
  unfold execCollectiveBoundExpiry
  split
  · exact h.tick
  split
  · exact h.tick
  split
  · exact h.tick
  dsimp only
  split
  · exact h.tick
  · exact h.updCmd.collGot.tick

theorem State.Inv.collDeliver (h : s.Inv) {c m x desc flit} : (s.collDeliver c m x desc flit).Inv := h

theorem State.Inv.farDeliver (h : s.Inv) {coll c m} : (s.farDeliver coll c m).Inv := by
  unfold State.farDeliver
  dsimp only
  split
  · exact h
  split
  · exact h
  · exact (h.foldl fun _ _ h => h.emit).frame

theorem execCollectiveDelivery_inv (h : s.Inv) {coll x} : (execCollectiveDelivery coll x s).Inv := by
  unfold execCollectiveDelivery
  split
  · exact h.tick
  split
  · exact h.tick
  split
  · exact h.tick
  dsimp only
  split
  · exact h.frame.farDeliver.tick
  split
  · exact h.frame.tick
  split
  · refine .tick ?_
    exact .ite h h.frame.collDeliver
  · exact h.frame.tick

theorem State.Inv.collRefuse (h : s.Inv) {core c} : (s.collRefuse core c).Inv := by
  unfold State.collRefuse
  split
  · exact h.cmdEnds
  dsimp only
  exact h.updColl.collGot.updCmd

theorem State.Inv.collSettled (h : s.Inv) {core c} : (s.collSettled core c).Inv := by
  unfold State.collSettled
  split
  · exact h.updCmd
  split
  · exact h
  dsimp only
  exact h.updCmd

theorem State.Inv.amsgFar (h : s.Inv) {core c m k} : (s.amsgFar core c m k).Inv := by
  unfold State.amsgFar
  split
  next e => exact (h.reachRemote.of_eq e).freezeStream
  next e => exact (h.reachRemote.of_eq e).cmdEnds
  next e =>
    have h := h.reachRemote.of_eq e
    dsimp only
    split
    · exact h.emit.cmdEnds
    split
    · exact h.emit.cmdEnds
    · exact h.emit.freezeStream
  next e => exact h.reachRemote.of_eq e

theorem State.Inv.amsgSend (h : s.Inv) {core c m dst} : (s.amsgSend core c m dst).Inv := by
  unfold State.amsgSend
  dsimp only
  split
  · exact h
  split
  · exact h.freezeStream
  split
  · exact h.amsgFar
  split
  · exact h.cmdEnds
  split
  · exact h.freezeStream
  split
  · exact h
  · exact h.updCore.cmdEnds

theorem State.Inv.cmdData (h : s.Inv) {core c} : (s.cmdData core c).Inv := by
  unfold State.cmdData
  split
  · split
    · exact h.collRefuse
    · exact h.cmdWrites
  · exact h.cmdWrites

theorem State.Inv.cmdStep (h : s.Inv) {core c} : (s.cmdStep core c).Inv := by
  unfold State.cmdStep
  split
  · split
    · exact h.cmdRead fun _ h => h.bcpyStart
    · exact h.cmdRead fun _ h => h.collStart
    · exact h.amsgSend
    · exact h
  · exact h
  · split
    · exact h
    · exact h.cmdFinish
  · exact h.cmdLogged
  · exact h.cmdOver
  split
  · exact h.cmdRefused
  split
  · exact h.cmdData
  split
  · exact h.collSettled
  split
  · exact h
  · exact h.cmdAfter

theorem execCompletionWordWrite_inv (h : s.Inv) {core idx} : (execCompletionWordWrite core idx s).Inv := by
  unfold execCompletionWordWrite
  split
  · exact h.tick
  refine .tick ?_
  split
  · exact h
  · exact h.cmdStep

end

end Sys2Proof.Machine
end

section
/-! SUPPORT. The matrix engine, its drains and the defect correction keep memory in its canonical form. -/

namespace Sys2Proof.Machine

open Sys2Proof

section
variable {s : State}

/-! ### The matrix engine -/

theorem State.Inv.mreadList (h : s.Inv) {w spc l} : (s.mreadList w spc l).1.Inv := by
  induction l generalizing s with
  | nil => exact h
  | cons c l ih =>
    unfold State.mreadList
    split
    next e =>
      have h := h.reach.of_eq e
      split
      next e => exact (ih h).of_eq e
      · exact ih h
    all_goals next e => exact h.reach.of_eq e

theorem State.Inv.mread (h : s.Inv) {w spc a n} : (s.mread w spc a n).1.Inv := by
  unfold State.mread
  split
  · exact h
  · exact h.mreadList

theorem State.Inv.blockAt (h : s.Inv) {w spc l p q a} : (s.blockAt w spc l p q a).1.Inv := by
  unfold State.blockAt
  split
  · exact h
  split
  next e => exact h.mread.of_eq e
  next e =>
    have h := h.mread.of_eq e
    dsimp only
    split
    · exact h
    split
    all_goals next e => exact h.mread.of_eq e

theorem State.Inv.groupBlock (h : s.Inv) {w spc l p q a n} : (s.groupBlock w spc l p q a n).1.Inv := by
  induction n generalizing s p q a with
  | zero =>
    unfold State.groupBlock
    split
    all_goals next e => exact h.blockAt.of_eq e
  | succ n ih =>
    unfold State.groupBlock
    split
    next e => exact h.blockAt.of_eq e
    next e => exact ih (h.blockAt.of_eq e)

theorem State.Inv.layoutAt (h : s.Inv) {w spc a} : (s.layoutAt w spc a).1.Inv := by
  unfold State.layoutAt
  split
  · exact h
  split
  next e => exact h.mread.of_eq e
  next e =>
    have h := h.mread.of_eq e
    split <;> exact h

theorem State.Inv.rowBlocks (h : s.Inv) {w spc a l row ls} : (s.rowBlocks w spc a l row ls).1.Inv := by
  induction ls generalizing s with
  | nil => exact h
  | cons j ls ih =>
    unfold State.rowBlocks
    dsimp only
    split
    next e => exact h.mread.of_eq e
    next e =>
      have h := h.mread.of_eq e
      split
      next e => exact h.groupBlock.of_eq e
      next e =>
        have h := h.groupBlock.of_eq e
        split
        next e => exact (ih h).of_eq e
        · exact ih h

theorem State.Inv.plainRow (h : s.Inv) {w spc f base pitch sbase mx i} :
    (s.plainRow w spc f base pitch sbase mx i).1.Inv := by
  unfold State.plainRow
  dsimp only
  split
  · exact h
  split
  next e => exact h.mread.of_eq e
  next e =>
    have h := h.mread.of_eq e
    split
    · exact h
    split
    all_goals next e => exact h.mread.of_eq e

theorem State.Inv.tensorRow (h : s.Inv) {w spc f base i} : (s.tensorRow w spc f base i).1.Inv := by
  unfold State.tensorRow
  split
  next e => exact h.layoutAt.of_eq e
  next e =>
    have h := h.layoutAt.of_eq e
    split
    · exact h
    split
    all_goals next e => exact h.rowBlocks.of_eq e

theorem State.Inv.latchRows (h : s.Inv) {row is} (hr : ∀ (u : State) i, u.Inv → (row u i).1.Inv) :
    (s.latchRows row is).1.Inv := by
  induction is generalizing s with
  | nil => exact h
  | cons i is ih =>
    unfold State.latchRows
    split
    next e => exact (hr _ _ h).of_eq e
    next e =>
      have h := (hr _ _ h).of_eq e
      split
      next e => exact (ih h).of_eq e
      next => exact ih h

theorem State.Inv.matrixEnd (h : s.Inv) {w} : (s.matrixEnd w).Inv := h

theorem State.Inv.defer (h : s.Inv) {gid tids code addr} : (s.defer gid tids code addr).Inv := h.updGrp

theorem State.Inv.matrixGate (h : s.Inv) {i k} (hk : ∀ u : State, u.Inv → (k u).Inv) :
    (s.matrixGate i k).Inv := by
  unfold State.matrixGate
  refine h.gate fun _ h => ?_
  split
  · exact h.stayAll.finish
  · exact hk _ h

theorem State.Inv.gathRow (h : s.Inv) {p : Prop} [Decidable p] {w spc f a b pitch mx i} :
    (if p then s.tensorRow w spc f a i else s.plainRow w spc f a b pitch mx i).1.Inv := by
  split
  · exact h.tensorRow
  · exact h.plainRow

theorem execGath_inv (h : s.Inv) {d a b c lat fa mx m} : (execGath d a b c lat fa mx m s).Inv := by
  unfold execGath
  refine h.matrixGate fun _ h => ?_
  dsimp only
  split
  · exact h.trapAll.finish
  · split
    next e => exact (h.readOps.of_eq e).failRd.finish
    next e =>
      have h := h.readOps.of_eq e
      split
      next e => exact ((h.latchRows fun _ _ h => h.gathRow).of_eq e).matrixEnd.stayAll.finish
      next e => exact ((h.latchRows fun _ _ h => h.gathRow).of_eq e).matrixEnd.defer.finish
      next e => exact ((h.latchRows fun _ _ h => h.gathRow).of_eq e).matrixEnd.updCore.finish

theorem State.Inv.updTile (h : s.Inv) {core n f} : (s.updTile core n f).Inv := h

theorem execMzero_inv (h : s.Inv) {tile} : (execMzero tile s).Inv := by
  unfold execMzero
  refine h.matrixGate fun _ h => ?_
  dsimp only
  split
  · exact h.stayAll.finish
  · exact h.updTile.finish

theorem execMcfg_inv (h : s.Inv) {a tile m} : (execMcfg a tile m s).Inv := by
  unfold execMcfg
  refine h.matrixGate fun _ h => ?_
  split
  next e => exact (h.readOps.of_eq e).failRd.finish
  next e =>
    have h := h.readOps.of_eq e
    dsimp only
    split
    · exact h.trapAll.finish
    refine .finish (.updTile ?_)
    split
    · exact h.updTile
    · exact h

theorem execMol_inv (h : s.Inv) {a tile} : (execMol a tile s).Inv := by
  unfold execMol
  refine h.matrixGate fun _ h => ?_
  split
  next e => exact (h.readOps.of_eq e).failRd.finish
  next e => exact (h.readOps.of_eq e).updTile.finish

theorem execMstat_inv (h : s.Inv) {d tile clr} : (execMstat d tile clr s).Inv := by
  unfold execMstat
  refine h.matrixGate fun _ h => ?_
  dsimp only
  refine .finish ?_
  split
  · refine (h.foldl fun _ _ h => ?_).updTile
    split
    · exact h
    split
    next e => exact (h.dstOp.of_eq e).failRd
    next e => exact (h.dstOp.of_eq e).writeDst
  refine h.foldl fun _ _ h => ?_
  split
  · exact h
  split
  next e => exact (h.dstOp.of_eq e).failRd
  next e => exact (h.dstOp.of_eq e).writeDst

theorem State.Inv.bPlain (h : s.Inv) {w fb n bsrc pitch l} : (s.bPlain w fb n bsrc pitch l).1.Inv := by
  induction l generalizing s with
  | nil => exact h
  | cons k l ih =>
    unfold State.bPlain
    split
    next e => exact h.mread.of_eq e
    next e =>
      have h := h.mread.of_eq e
      split
      next e => exact (ih h).of_eq e
      · exact ih h

theorem State.Inv.bTensor (h : s.Inv) {w a l n row ls} : (s.bTensor w a l n row ls).1.Inv := by
  induction ls generalizing s with
  | nil => exact h
  | cons k ls ih =>
    unfold State.bTensor
    split
    next e => exact h.rowBlocks.of_eq e
    next e =>
      have h := h.rowBlocks.of_eq e
      split
      next e => exact (ih h).of_eq e
      · exact ih h

theorem State.Inv.bOperand (h : s.Inv) {w o n bsrc pitch sbase} : (s.bOperand w o n bsrc pitch sbase).1.Inv := by
  unfold State.bOperand
  split
  · split
    next e => exact h.layoutAt.of_eq e
    next e =>
      have h := h.layoutAt.of_eq e
      split
      · exact h
      split
      all_goals next e => exact h.bTensor.of_eq e
  split
  · exact h
  split
  next e => exact h.bPlain.of_eq e
  next e =>
    have h := h.bPlain.of_eq e
    split
    · exact h
    split
    all_goals next e => exact h.mread.of_eq e

theorem State.Inv.sideA (h : s.Inv) {w asd us} : (s.sideA w asd us).1.Inv := by
  unfold State.sideA
  split
  · split
    all_goals next e => exact h.mread.of_eq e
  · exact h

theorem State.Inv.sideB (h : s.Inv) {w bsd n l} : (s.sideB w bsd n l).1.Inv := by
  induction l generalizing s with
  | nil => exact h
  | cons u l ih =>
    unfold State.sideB
    split
    next e => exact h.mread.of_eq e
    next e =>
      have h := h.mread.of_eq e
      split
      next e => exact (ih h).of_eq e
      · exact ih h

theorem State.Inv.outliers (h : s.Inv) {w o fused n} : (s.outliers w o fused n).1.Inv := by
  unfold State.outliers
  split
  · exact h
  split
  · exact h
  split
  next e => exact h.mread.of_eq e
  next e =>
    have h := h.mread.of_eq e
    dsimp only
    split
    · exact h
    split
    next e => exact h.sideA.of_eq e
    next e =>
      have h := h.sideA.of_eq e
      split
      all_goals next e => exact h.sideB.of_eq e

theorem State.Inv.mmaRound (h : s.Inv) {w o n bsrc pitch sbase nbv p} : (s.mmaRound w o n bsrc pitch sbase nbv p).1.Inv := by
  unfold State.mmaRound
  dsimp only
  split
  · exact h
  split
  next e => exact h.bOperand.of_eq e
  next e =>
    have h := h.bOperand.of_eq e
    split
    next e => exact h.outliers.of_eq e
    next e =>
      have h := h.outliers.of_eq e
      split
      · exact h.updTile.updTile.updTile
      · exact h.updTile.updTile
      · exact h.updTile

theorem State.Inv.release (h : s.Inv) {g x owed} : (s.release g x owed).Inv := by
  unfold State.release
  dsimp only
  split
  · exact h.closeIv
  split
  · exact h.closeIv.updGrp.updThr
  · exact h.closeIv.updGrp.resume

theorem State.Inv.releaseReady (h : s.Inv) {g x} : (s.releaseReady g x).Inv := by
  unfold State.releaseReady
  split
  · split
    · exact h.dropSideRef.release
    · exact h.release
  · exact h.release

theorem State.Inv.mismatch (h : s.Inv) {core x} : (s.mismatch core x).Inv := by
  unfold State.mismatch
  dsimp only
  refine h.updHuddle.foldl fun _ _ h => ?_
  split
  · exact h.release
  · exact h.defer

theorem State.Inv.matrixRound (h : s.Inv) {core x gs z} : (s.matrixRound core x gs z).Inv := by
  unfold State.matrixRound
  dsimp only
  refine .ite ?_ ?_
  · exact h
  split
  next e => exact (h.mmaRound.of_eq e).matrixEnd
  next e =>
    have h := h.mmaRound.of_eq e
    exact h.matrixEnd.updHuddle.foldl fun _ _ h => h.defer
  next e => exact (h.mmaRound.of_eq e).matrixEnd.updHuddle

theorem execHuddleRoundComplete_inv (h : s.Inv) {core x} : (execHuddleRoundComplete core x s).Inv := by
  unfold execHuddleRoundComplete
  dsimp only
  split
  · split
    · exact h.tick
    split
    · split
      · exact (h.updHuddle.foldl fun _ _ h => h.releaseReady).tick
      · exact h.mismatch.tick
    split
    · exact h.tick
    split
    · exact h.matrixRound.tick
    · exact h.mismatch.tick
  · exact h.tick

theorem State.Inv.mmaSign (h : s.Inv) {i x kind} : (s.mmaSign i x kind).Inv := by
  unfold State.mmaSign
  refine h.matrixGate fun _ h => ?_
  split
  next e => exact (h.readOps.of_eq e).failRd.finish
  next e =>
    have h := h.readOps.of_eq e
    dsimp only
    refine h.signs fun _ _ h => h.whenReady fun _ h => ?_
    split
    next e => exact (h.signThread.of_eq e).trap
    next e => exact (h.signThread.of_eq e).stayAll
    next e => exact (h.signThread.of_eq e).closeIv

theorem State.Inv.threadReads (h : s.Inv) {w l} : (s.threadReads w l).1.Inv := by
  induction l generalizing s with
  | nil => exact h
  | cons c l ih =>
    unfold State.threadReads
    split
    next e =>
      have h := h.reach.of_eq e
      split
      next e => exact (ih h).of_eq e
      · exact ih h
    next e => exact h.reach.of_eq e

theorem State.Inv.cvtbWrite (h : s.Inv) {w tt d c codes x} : (s.cvtbWrite w tt d c codes x).Inv := by
  unfold State.cvtbWrite
  dsimp only
  split
  next e =>
    have h := h.reach.of_eq e
    split
    next e => exact (h.reach.of_eq e).put.put
    next e => exact (h.reach.of_eq e).frame.failRes
  next e => exact (h.reach.of_eq e).failRes

theorem State.Inv.cvtbTurn (h : s.Inv) {i f u} : (s.cvtbTurn i f u).Inv := by
  unfold State.cvtbTurn
  dsimp only
  split
  next e => exact (h.readOps.of_eq e).failRd
  next e =>
    have h := h.readOps.of_eq e
    split
    · exact h.trapAll
    refine .ite ?_ ?_
    · exact h.trapAll
    split
    next e => exact (h.threadReads.of_eq e).failRes
    next e =>
      have h := h.threadReads.of_eq e
      exact .ite h.raiseFlags.trapAll (.ite h.raiseFlags.cvtbWrite h.raiseFlags.cvtbWrite.updThr)

/-! ### Drains -/

theorem State.Inv.drainTab (h : s.Inv) {w on a n} : (s.drainTab w on a n).1.Inv := by
  unfold State.drainTab
  split
  · exact h
  split
  all_goals next e => exact h.engRead.of_eq e

theorem State.Inv.drainDesc (h : s.Inv) {w desc} : (s.drainDesc w desc).1.Inv := by
  unfold State.drainDesc
  split
  next e =>
    have h := h.engRead.of_eq e
    split
    all_goals next e => exact h.engRead.of_eq e
  next e => exact h.engRead.of_eq e

theorem State.Inv.drainPlan (h : s.Inv) {w tile m bs dp p} : (s.drainPlan w tile m bs dp p).1.Inv := by
  unfold State.drainPlan
  dsimp only
  split
  · exact h
  split
  · exact h
  split
  next e => exact h.drainTab.of_eq e
  next e =>
    have h := h.drainTab.of_eq e
    split
    next e => exact h.drainTab.of_eq e
    next e =>
      have h := h.drainTab.of_eq e
      split
      all_goals next e => exact h.drainTab.of_eq e

theorem State.Inv.mdrnTurn (h : s.Inv) {i tile m u} : (s.mdrnTurn i tile m u).Inv := by
  unfold State.mdrnTurn
  extract_lets k
  split
  next e => exact (h.readOps.of_eq e).failRd
  next e =>
    have h := h.readOps.of_eq e
    extract_lets desc
    split
    · exact h.trapAll
    · split
      · exact h.trapAll
      · split
        · exact h.stayAll
        · split
          next bs e =>
            have h := h.drainDesc.of_eq e
            extract_lets c
            split
            next u plan e =>
              have h : u.Inv := by
                cases bs with
                | ok bs => exact h.drainPlan.of_eq e
                | error r => exact State.Inv.of_eq (r := plan) h e
              cases plan with
              | ok r => exact h.updTile.issueCmd
              | error r =>
                cases r with
                | waits => exact h.dropIvs.stayAll
                | viol n a => exact h.dropIvs.stayAll.freezeStream
                | code n => exact h.issueCmd
                | ok bs p => exact h.issueCmd

theorem State.Inv.poisonWrites (h : s.Inv) {core c l} : (s.poisonWrites core c l).1.Inv := by
  induction l generalizing s with
  | nil => exact h
  | cons x l ih =>
    unfold State.poisonWrites
    split
    next e =>
      have h := h.engWrite1.of_eq e
      dsimp only
      exact ih h
    next e => exact h.engWrite1.of_eq e

theorem State.Inv.drainFails (h : s.Inv) {core tile c ws} : (s.drainFails core tile c ws).Inv := by
  unfold State.drainFails
  dsimp only
  split
  · exact h.updCmd
  split
  · exact h.updCmd.updCmd.cmdEnds
  · exact h.updCmd.poisonWrites.updTile.cmdEnds

theorem execMatrixCheck_inv (h : s.Inv) {core tile ok written} : (execMatrixCheck core tile ok written s).Inv := by
  unfold execMatrixCheck
  split
  · exact h.tick
  refine (h.updTile.foldl fun _ _ h => ?_).tick
  split
  · exact h.drainFails
  · exact h.updCmd

/-! ### Defect correction -/

theorem State.Inv.atLimit (h : s.Inv) {t d x} : (s.atLimit t d x).Inv := by
  unfold State.atLimit
  split
  · exact h.trap
  · exact h.updHuddle.writeDst

theorem State.Inv.dcorSign (h : s.Inv) {i d b x t} : (s.dcorSign i d b x t).Inv := by
  unfold State.dcorSign
  split
  next e => exact (h.owes e).trap
  split
  next e => exact (h.readOps.of_eq e).failRd
  next e =>
    have h := h.readOps.of_eq e
    dsimp only
    split
    · exact h.trap
    split
    · exact h.trap
    split
    · exact h.stayAll
    split
    · exact h.atLimit
    split
    next e => exact (h.signThread.of_eq e).trap
    next e => exact (h.signThread.of_eq e).stayAll
    next e => exact (h.signThread.of_eq e).park

theorem State.Inv.read64 (h : s.Inv) {w va} : (s.read64 w va).1.Inv := by
  unfold State.read64
  dsimp only
  split
  all_goals next e => exact h.reach.of_eq e

theorem State.Inv.residual (h : s.Inv) {w row x j r p n} : (s.residual w row x j r p n).1.Inv := by
  induction n generalizing s j r p with
  | zero => exact h
  | succ n ih =>
    unfold State.residual
    split
    next e => exact h.read64.of_eq e
    next e =>
      have h := h.read64.of_eq e
      split
      next e => exact h.read64.of_eq e
      next e => exact ih (h.read64.of_eq e)

theorem State.Inv.signerRes (h : s.Inv) {w g} : (s.signerRes w g).1.Inv := by
  unfold State.signerRes
  dsimp only
  split
  next e => exact h.read64.of_eq e
  next e =>
    have h := h.read64.of_eq e
    split
    all_goals next e => exact h.residual.of_eq e

theorem State.Inv.roundRes (h : s.Inv) {w l} : (s.roundRes w l).1.Inv := by
  induction l generalizing s w with
  | nil => exact h
  | cons g l ih =>
    unfold State.roundRes
    split
    next e =>
      have h := h.signerRes.of_eq e
      dsimp only
      exact ih h
    next e =>
      have h := h.signerRes.of_eq e
      split
      all_goals next e => exact (ih h).of_eq e

theorem State.Inv.roundEnd (h : s.Inv) {w gs} : (s.roundEnd w gs).Inv := h

theorem State.Inv.roundWaits (h : s.Inv) {old w gs} : (s.roundWaits old w gs).Inv := h

theorem State.Inv.clearX (h : s.Inv) {w x n} : (s.clearX w x n).Inv := by
  unfold State.clearX
  split
  · exact h
  refine h.foldl fun _ _ h => ?_
  split
  next e => exact (h.reach.of_eq e).memSetBand
  next e => exact h.reach.of_eq e

theorem State.Inv.closeSigner (h : s.Inv) {g} : (s.closeSigner g).Inv := h.updThr

theorem State.Inv.dcorEnd (h : s.Inv) {ctx x settled e} : (s.dcorEnd ctx x settled e).Inv := by
  unfold State.dcorEnd
  dsimp only
  split
  · split
    · exact h.logFreeze
    · exact h
  split
  · exact h.closeSigner.updGrp.releaseReady
  · exact h.closeSigner.release
  · exact h.closeSigner.release.freezeGroup
  · exact h.closeSigner

theorem State.Inv.dcorDone (h : s.Inv) {w core x gs rs} : (s.dcorDone w core x gs rs).Inv := by
  unfold State.dcorDone
  dsimp only
  refine .foldl (.updHuddle (.roundEnd ?_)) fun _ _ h => h.dcorEnd
  split
  · exact h.clearX
  · exact h

theorem execDcorRound_inv (h : s.Inv) {core x} : (execDcorRound core x s).Inv := by
  unfold execDcorRound
  dsimp only
  split
  · split
    · exact h.tick
    split
    · exact (h.mismatch.foldl fun _ _ h => h.closeSigner).tick
    split
    next e => exact (h.roundRes.of_eq e).roundWaits.tick
    next e => exact (h.roundRes.of_eq e).dcorDone.tick
  · exact h.tick

end

end Sys2Proof.Machine
end

section
/-! SUPPORT. Launches, the queue scheduler and the events that end a park keep memory in its canonical form. -/

namespace Sys2Proof.Machine

open Sys2Proof

section
variable {s : State}

/-! ### Launches, spawns and bins -/

theorem State.Inv.countMissed (h : s.Inv) {core lid} : (s.countMissed core lid).Inv := h.foldl fun _ _ h => h.updRefused

theorem State.Inv.lastMissed (h : s.Inv) {core lid} : (s.lastMissed core lid).Inv :=
  (h.foldl fun _ _ h => h.lastUpdates).countMissed

theorem State.Inv.closeSpace (h : s.Inv) {core lid} : (s.closeSpace core lid).Inv := by
  unfold State.closeSpace
  dsimp only
  exact (h.flushLaunch.lastMissed.foldl fun _ _ h => h.freeLand).updsOver.updCore

theorem State.Inv.settleSpace (h : s.Inv) {core lid} : (s.settleSpace core lid).Inv := by
  unfold State.settleSpace
  split
  · exact h
  split
  · exact h.holdSpace
  split
  · exact h
  · exact h.closeSpace

theorem State.Inv.putGroup (h : s.Inv) {core lix slot lid ctx kind role regs eclass entry threads} :
    (s.putGroup core lix slot lid ctx kind role regs eclass entry threads).Inv := h

theorem State.Inv.updQueue (h : s.Inv) {part q f} : (s.updQueue part q f).Inv := h

theorem State.Inv.dropMarks (h : s.Inv) {gone} : (s.dropMarks gone).Inv := h

theorem State.Inv.launchGone (h : s.Inv) {l code irq} : (s.launchGone l code irq).Inv := by
  unfold State.launchGone
  dsimp only
  refine .ite ?_ ?_
  · refine .signal (.dropMarks (.frame (.updQueue ?_)))
    split
    · exact h.updQueue
    · exact h
  refine .dropMarks (.frame (.updQueue ?_))
  split
  · exact h.updQueue
  · exact h

theorem State.Inv.freezeQueue (h : s.Inv) {part q cause addr} : (s.freezeQueue part q cause addr).Inv := h.updQueue.logFreeze

theorem State.Inv.completeLaunch (h : s.Inv) {l code count} : (s.completeLaunch l code count).Inv := by
  unfold State.completeLaunch
  split
  · exact h.launchGone
  split
  · exact h
  split
  next e => exact (h.hwWrite.of_eq e).launchGone
  next e => exact (h.hwWrite.of_eq e).freezeQueue
  next e => exact (h.hwWrite.of_eq e).launchGone
  next e => exact h.hwWrite.of_eq e

theorem State.Inv.completions (h : s.Inv) : s.completions.Inv := by
  unfold State.completions
  refine h.foldl fun _ _ h => ?_
  split
  · exact h
  split
  · exact h
  · split <;> exact h.completeLaunch

theorem execGroupRetire_inv (h : s.Inv) {core idx} : (execGroupRetire core idx s).Inv := by
  unfold execGroupRetire
  split
  · exact h.tick
  split
  · exact h.tick
  · exact (h.updCore.dropIvs.foldl fun _ _ h => h.closeGroup).settleSpace.completions.tick

theorem State.Inv.spawnTurn (h : s.Inv) {i b n u} : (s.spawnTurn i b n u).Inv := by
  unfold State.spawnTurn
  dsimp only
  split
  next e => exact (h.readOps.of_eq e).failRd
  next e =>
    have h := h.readOps.of_eq e
    split
    · exact h.trapAll
    split
    · exact h.trapAll
    split
    · exact h.stayAll
    · exact h.updCore.closeRegions

theorem execSpawn_inv (h : s.Inv) {c a b} : (execSpawn c a b s).Inv := by
  unfold execSpawn
  refine h.gate fun _ h => (h.foldl fun _ _ h => ?_).finish
  split
  · exact h.spawnTurn
  · exact h.stayAll

theorem execBinTimerExpiry_inv (h : s.Inv) {core bin} : (execBinTimerExpiry core bin s).Inv := by
  unfold execBinTimerExpiry
  split
  · exact h.tick
  refine .tick ?_
  split
  · exact h.updCore
  · exact h

theorem State.Inv.ensureSpace (h : s.Inv) {core lid ctx} : (s.ensureSpace core lid ctx).Inv := by
  unfold State.ensureSpace
  split
  · exact h.updCore
  dsimp only
  exact h.updCore

theorem execBinLaunch_inv (h : s.Inv) {core bin} : (execBinLaunch core bin s).Inv := by
  unfold execBinLaunch
  dsimp only
  split
  · exact h.tick
  split
  · split
    · exact h.tick
    split
    · exact h.tick
    · exact h.updCore.ensureSpace.updLaunch.putGroup.tick
  split
  · exact h.tick
  split
  · exact h.tick
  · exact h.updCore.ensureSpace.updLaunch.putGroup.tick

theorem State.Inv.amsgTakes (h : s.Inv) {m} : (s.amsgTakes m).Inv := h

theorem State.Inv.amsgIn (h : s.Inv) {m} : (s.amsgIn m).Inv := by
  unfold State.amsgIn
  dsimp only
  split
  · exact h.linkKeeps
  split
  · exact h
  split
  · exact h
  · exact h.amsgTakes

theorem State.Inv.amsgLate (h : s.Inv) {core} : (s.amsgLate core).Inv := by
  unfold State.amsgLate
  split
  · exact h
  dsimp only
  split
  · split
    · exact h.frame.amsgTakes
    · exact h
  · exact h

theorem State.Inv.amsgBin (h : s.Inv) {core} : (s.amsgBin core).Inv := by
  unfold State.amsgBin
  dsimp only
  split
  · exact h.amsgLate
  split
  · exact h.amsgLate
  · exact h.amsgLate.updCore

theorem execActiveMessageArrival_inv (h : s.Inv) {x} : (execActiveMessageArrival x s).Inv := by
  unfold execActiveMessageArrival
  refine .tick ?_
  split
  · exact h.amsgIn
  · exact h.amsgBin

theorem State.Inv.addLaunch (h : s.Inv) {ctx queue srcq addr bs cap} : (s.addLaunch ctx queue srcq addr bs cap).Inv := h

theorem State.Inv.recordLoad (h : s.Inv) {w l} : (s.recordLoad w l).1.Inv := by
  induction l generalizing s with
  | nil => exact h
  | cons c l ih =>
    unfold State.recordLoad
    dsimp only
    split
    next e =>
      have h := h.reach.of_eq e
      split
      next e => exact (ih h).of_eq e
      · exact ih h
    next e =>
      have h := h.reach.of_eq e
      split
      next e => exact (ih h).of_eq e
      · exact ih h
    next e => exact h.reach.of_eq e

theorem State.Inv.launchTurn (h : s.Inv) {i u} : (s.launchTurn i u).Inv := by
  unfold State.launchTurn
  dsimp only
  split
  next e => exact (h.readOps.of_eq e).failRd
  next e =>
    have h := h.readOps.of_eq e
    split
    · exact h.trapAll
    split
    · exact h.stayAll
    split
    next e => exact (h.recordLoad.of_eq e).holdAll
    next e => exact (h.recordLoad.of_eq e).failRes
    next e =>
      have h := h.recordLoad.of_eq e
      split
      · exact h.violAll
      · exact h.addLaunch.closeRegions

/-! ### Pitch queues and programs -/

theorem State.Inv.pitchTurn (h : s.Inv) {i c u} : (s.pitchTurn i c u).Inv := by
  unfold State.pitchTurn
  dsimp only
  split
  next e => exact (h.readOps.of_eq e).failRd
  next e =>
    have h := h.readOps.of_eq e
    split
    · exact h.trapAll
    split
    · exact h.trapAll
    split
    · exact h.stayAll
    · exact h.frame.updCore.closeRegions

theorem execQpush_inv (h : s.Inv) {q a} : (execQpush q a s).Inv := by
  unfold execQpush
  refine h.gate fun _ h => ?_
  split
  · dsimp only
    split
    · exact h.trapAll.finish
    split
    · exact h.stayAll.finish
    refine .finish ?_
    refine .ite ?_ ?_
    · refine (h.foldlFst fun _ _ h => ?_).updCore
      split
      next e => exact h.readOps.of_eq e
      next e => exact (h.readOps.of_eq e).failRd
    refine h.foldlFst fun _ _ h => ?_
    split
    next e => exact h.readOps.of_eq e
    next e => exact (h.readOps.of_eq e).failRd
  · exact h.illegal

theorem execQdrn_inv (h : s.Inv) : (execQdrn s).Inv := by
  unfold execQdrn
  refine h.gate fun _ h => ?_
  dsimp only
  refine .finish (.closeRegions ?_)
  exact .ite h.unbind.endProgram h.unbind

theorem execPitcherStart_inv (h : s.Inv) {core} : (execPitcherStart core s).Inv := by
  unfold execPitcherStart
  dsimp only
  split
  · split
    · exact h.tick
    refine .tick ?_
    split
    · exact h.updCore.endProgram
    · exact h.updCore.setGrp
  · exact h.tick

theorem execPitcherEnd_inv (h : s.Inv) {core} : (execPitcherEnd core s).Inv := by
  unfold execPitcherEnd
  refine .tick ?_
  split
  · exact h.endProgram
  · exact h

/-! ### The queue scheduler -/

theorem State.Inv.startRole (h : s.Inv) {l place core lix r} : (s.startRole l place core lix r).Inv := by
  unfold State.startRole
  refine h.foldl fun _ _ h => ?_
  dsimp only
  exact h.putGroup.updGrp

theorem State.Inv.startGang (h : s.Inv) {l place} : (s.startGang l place).Inv := by
  unfold State.startGang
  dsimp only
  refine .dropMarks ?_
  split
  · refine .updQueue (.updLaunch (.foldl ?_ fun _ _ h => h.ensureSpace.foldl fun _ _ h => h.foldl fun _ _ h => h.startRole))
    split
    · exact h.updQueue
    · exact h
  refine .updLaunch (.foldl ?_ fun _ _ h => h.ensureSpace.foldl fun _ _ h => h.foldl fun _ _ h => h.startRole)
  split
  · exact h.updQueue
  · exact h

theorem State.Inv.saveSectors (h : s.Inv) {ctx va key x n} : (s.saveSectors ctx va key x n).1.Inv := by
  induction n generalizing s x with
  | zero => exact h
  | succ n ih =>
    unfold State.saveSectors
    dsimp only
    split
    next e => exact ih (h.reachGlobal.of_eq e).put
    next e => exact ih (h.reachGlobal.of_eq e).send
    all_goals next e => exact h.reachGlobal.of_eq e

theorem State.Inv.restoreSectors (h : s.Inv) {ctx va key i k} : (s.restoreSectors ctx va key i k).1.Inv := by
  induction k generalizing s i with
  | zero => exact h
  | succ k ih =>
    unfold State.restoreSectors
    split
    next e => exact ih (h.reachGlobal.of_eq e).memWriteBand
    next e => exact ih (h.reachGlobal.of_eq e).memWriteBand
    next e => exact h.reachGlobal.of_eq e
    next e => exact h.reachGlobal.of_eq e
    next e => exact h.reachGlobal.of_eq e

theorem State.Inv.faultProgs (h : s.Inv) {core lid} : (s.faultProgs core lid).Inv := by
  unfold State.faultProgs
  dsimp only
  split
  · exact h.updCore.endProgram
  · exact h.updCore

theorem State.Inv.faultCmds (h : s.Inv) {lid} : (s.faultCmds lid).Inv := by
  unfold State.faultCmds
  refine h.foldl fun _ _ h => ?_
  dsimp only
  exact (h.faultProgs.foldl fun _ _ h => h.xferEnd).foldl fun _ _ h => h.cmdEnds

theorem State.Inv.abandon (h : s.Inv) {lid mine} : (s.abandon lid mine).Inv :=
  (h.faultCmds.dropMarks.frame.faultLaunch.foldl fun _ _ h => h.settleSpace).completions

theorem State.Inv.lapseLands (h : s.Inv) {core lid blk} : (s.lapseLands core lid blk).Inv :=
  h.updCore.foldl fun _ _ h => h.freeLand

theorem State.Inv.claim (h : s.Inv) {core lid blk slot phys} : (s.claim core lid blk slot phys).1.Inv := by
  unfold State.claim
  dsimp only
  split
  next e => exact (h.flushLaunch.lapseLands.classify.saveSectors.of_eq e).updCore
  next e => exact h.flushLaunch.lapseLands.classify.saveSectors.of_eq e
  next e => exact (h.flushLaunch.lapseLands.classify.saveSectors.of_eq e).updCore.abandon

theorem execBlockClaim_inv (h : s.Inv) {core space block} : (execBlockClaim core space block s).Inv := by
  unfold execBlockClaim
  dsimp only
  split
  · exact h.tick
  split
  · exact h.tick
  split
  · exact h.tick
  split
  next e => exact (h.claim.of_eq e).tick
  next e => exact (h.claim.of_eq e).updCore.tick

theorem State.Inv.takeBlock (h : s.Inv) {core lid} : (s.takeBlock core lid).1.Inv := by
  unfold State.takeBlock
  split
  · exact h
  split
  · exact h
  split
  all_goals next e => exact h.claim.of_eq e

theorem State.Inv.restoreBlocks (h : s.Inv) {core lid ctx l} : (s.restoreBlocks core lid ctx l).1.Inv := by
  induction l generalizing s with
  | nil => exact h
  | cons b l ih =>
    obtain ⟨blk, slot⟩ := b
    rw [State.restoreBlocks]
    split
    next e => exact h.takeBlock.of_eq e
    next e =>
      have h := h.takeBlock.of_eq e
      split
      next e => exact ih (h.restoreSectors.of_eq e).updCore
      next => exact h.restoreSectors

theorem State.Inv.resetHuddles (h : s.Inv) {core lid gone} : (s.resetHuddles core lid gone).Inv := by
  unfold State.resetHuddles
  dsimp only
  refine h.updCore.foldl fun _ _ h => ?_
  split
  · exact h
  split
  · split
    · exact h
    · exact h.updThr.updGrp
  · exact h.updGrp

theorem State.Inv.dropGroup (h : s.Inv) {gid} : (s.dropGroup gid).Inv :=
  h.landWins.dropIvs.frame.unbind.updCore.ghosts.frame.pruneMons

theorem State.Inv.discardInst (h : s.Inv) {gids} : (s.discardInst gids).Inv := by
  unfold State.discardInst
  split
  · exact h
  dsimp only
  exact (((h.foldl fun _ _ h => h.resetHuddles).foldl fun _ _ h => h.dropGroup).foldl
    fun _ _ h => h.updCore).frame.foldl fun _ _ h => h.settleSpace

theorem execDiscard_inv (h : s.Inv) {gid} : (execDiscard gid s).Inv := by
  unfold execDiscard
  dsimp only
  split
  · exact h.tick
  · exact h.discardInst.tick

theorem State.Inv.restartGroup (h : s.Inv) {x g} : (s.restartGroup x g).Inv := h.putGroup.updGrp

theorem State.Inv.takeSlot (h : s.Inv) {core lid} : (s.takeSlot core lid).Inv := h

theorem State.Inv.restoreAll (h : s.Inv) {x l} : (s.restoreAll x l).1.Inv := by
  induction l generalizing s with
  | nil => exact h
  | cons k l ih =>
    unfold State.restoreAll
    extract_lets u
    have hu : u.Inv := .ite h.takeSlot h
    clear_value u
    split
    next e => exact ih (hu.restoreBlocks.of_eq e)
    next e => exact hu.restoreBlocks.of_eq e
    next e => exact (hu.restoreBlocks.of_eq e).abandon

theorem State.Inv.restartHeld (h : s.Inv) {x} : (s.restartHeld x).1.Inv := by
  unfold State.restartHeld
  split
  next e =>
    have h := h.restoreAll.of_eq e
    dsimp only
    exact (((h.foldl fun _ _ h => h.ensureSpace).foldl fun _ _ h => h.restartGroup).frame.foldl
      fun _ _ h => h.updCore).dropMarks
  next e => exact h.restoreAll.of_eq e

theorem State.Inv.choose (h : s.Inv) {m gids} : (s.choose m gids).Inv := by
  unfold State.choose
  split
  · exact h.discardInst
  split
  · exact h
  dsimp only
  exact h.foldl fun _ _ h => h.updGrp

theorem State.Inv.preempt (h : s.Inv) {ctx c} : (s.preempt ctx c).Inv := by
  unfold State.preempt
  dsimp only
  split
  · exact h
  split
  · exact h
  · exact h.foldl fun _ _ h => h.choose

theorem State.Inv.placeCand (h : s.Inv) {c} : (s.placeCand c).1.Inv := by
  unfold State.placeCand
  split
  · split
    · exact h
    split
    · exact h.startGang
    · exact h
  split
  · exact h.restartHeld
  · exact h

theorem execRestart_inv (h : s.Inv) {idx} : (execRestart idx s).Inv := by
  unfold execRestart
  split
  · exact h.tick
  split
  · dsimp only
    split
    next e => exact (h.restartHeld.of_eq e).updPart.tick
    next e => exact (h.restartHeld.of_eq e).tick
  · exact h.tick

theorem State.Inv.pass (h : s.Inv) {c} : (s.pass c).1.Inv := by
  unfold State.pass
  split
  · dsimp only
    exact h.updLaunch
  · exact h

theorem State.Inv.placeLoop (h : s.Inv) {ctx blockP l} : (s.placeLoop ctx blockP l).Inv := by
  induction l generalizing s blockP with
  | nil => exact h
  | cons c l ih =>
    unfold State.placeLoop
    split
    · exact h
    split
    · exact ih h
    dsimp only
    split
    next e => exact ih (h.placeCand.of_eq e).updPart
    next e =>
      have h := h.placeCand.of_eq e
      split
      · exact ih h
      refine .ite ?_ ?_
      · refine .pass ?_
        split
        · exact h
        · exact h.preempt
      refine ih (.pass ?_)
      split
      · exact h
      · exact h.preempt

theorem State.Inv.skips (h : s.Inv) {ctx} : (s.skips ctx).Inv := by
  unfold State.skips
  refine h.foldl fun _ _ h => ?_
  split
  · exact h.completeLaunch
  · exact h

theorem State.Inv.installs (h : s.Inv) {ctx} : (s.installs ctx).Inv := by
  unfold State.installs
  refine h.foldl fun _ _ h => ?_
  split
  · exact h
  dsimp only
  exact (h.foldl fun _ _ h => h.updCore).completeLaunch

theorem State.Inv.countDogs (h : s.Inv) : s.countDogs.Inv := h.foldl fun _ _ h => h.updQueue

theorem execSchedulerCycle_inv (h : s.Inv) : (execSchedulerCycle s).Inv := by
  unfold execSchedulerCycle
  refine (h.foldl fun _ _ h => ?_).completions.countDogs.tick
  dsimp only
  split
  · exact h
  · exact h.installs.skips.placeLoop

theorem execRecordStage_inv (h : s.Inv) {part q} : (execRecordStage part q s).Inv := by
  unfold execRecordStage
  dsimp only
  split
  · exact h.tick
  split
  next e => exact (h.hwRead.of_eq e).freezeQueue.tick
  next e =>
    have h := h.hwRead.of_eq e
    refine .tick ?_
    split
    · exact h.updQueue.addLaunch
    · exact h.updQueue.addLaunch.freezeQueue
  next e => exact (h.hwRead.of_eq e).tick

theorem State.Inv.killWord (h : s.Inv) {cores w a p ps} : (s.killWord cores w a p ps).Inv := by
  unfold State.killWord
  dsimp only
  split
  next e => exact (h.reachGlobal.of_eq e).put
  next e => exact (h.reachGlobal.of_eq e).sendStore
  next e => exact (h.reachGlobal.of_eq e).updCore
  next e => exact (h.reachGlobal.of_eq e).send
  next e => exact h.reachGlobal.of_eq e

theorem State.Inv.killWords (h : s.Inv) {ctx cores} : (s.killWords ctx cores).Inv := h.foldl fun _ _ h => h.killWord

theorem State.Inv.clearCore (h : s.Inv) {core} : (s.clearCore core).Inv := h.memClear.setCore

theorem State.Inv.kill (h : s.Inv) {ctx} : (s.kill ctx).Inv := by
  unfold State.kill
  dsimp only
  refine ((h.updPart.frame.dropIvs.frame.foldl fun _ _ h => h.updCore).killWords.frame.foldl
    fun _ _ h => h.clearCore).updX.frame.signal.foldl fun _ _ h => ?_
  split
  · exact h.signal
  · exact h

theorem execWatchdogExpiry_inv (h : s.Inv) {part q} : (execWatchdogExpiry part q s).Inv := by
  unfold execWatchdogExpiry
  refine .tick ?_
  split
  · exact h
  · exact h.kill

/-! ### What ends a park -/

theorem execResultLanding_inv (h : s.Inv) {gid idx} : (execResultLanding gid idx s).Inv := by
  unfold execResultLanding
  dsimp only
  split
  · exact h.tick
  refine .tick (.unmark ?_)
  split
  · exact h.updGrp.landWin.drainFrozen
  · exact h.updGrp.updGrp

theorem execHeaderWait_inv (h : s.Inv) {gid} : (execHeaderWait gid s).Inv := by
  unfold execHeaderWait
  split
  · split
    · exact h.updGrp.tick
    · exact h.tick
  · exact h.tick

theorem execStarvationSwitch_inv (h : s.Inv) {core lix} : (execStarvationSwitch core lix s).Inv := by
  unfold execStarvationSwitch
  dsimp only
  split
  · exact h.tick
  · exact (h.foldl fun _ _ h => h.updGrp).updGrp.tick

theorem execCloneReplay_inv (h : s.Inv) {gid first second} : (execCloneReplay gid first second s).Inv := by
  unfold execCloneReplay
  dsimp only
  split
  · exact h.tick
  split
  · exact h.tick
  · exact h.reliability.updCore.tick

theorem execHardwareEnd_inv (h : s.Inv) {ag} : (execHardwareEnd ag s).Inv := by
  unfold execHardwareEnd
  split
  · exact h.tick
  · exact h.closeIv.tick

theorem State.Inv.wake (h : s.Inv) {gid idx r} : (s.wake gid idx r).Inv := h.unpark.resume.unmark

theorem execWaitWake_inv (h : s.Inv) {gid idx} : (execWaitWake gid idx s).Inv := by
  unfold execWaitWake
  split
  · split
    · split
      · exact h.waitResult.wake.tick
      · exact h.tick
    · exact h.tick
  · exact h.tick

theorem execWaitTimeout_inv (h : s.Inv) {gid idx} : (execWaitTimeout gid idx s).Inv := by
  unfold execWaitTimeout
  split
  · split
    · exact h.tick
    · exact h.waitResult.wake.tick
  · exact h.tick

theorem execWaitaWake_inv (h : s.Inv) {gid idx} : (execWaitaWake gid idx s).Inv := by
  unfold execWaitaWake
  split
  · dsimp only
    split
    next e =>
      have h := h.reach.of_eq e
      split
      · exact h.tick
      · exact h.overtakes.pendRegs.wake.tick
    next e => exact (h.reach.of_eq e).unpark.tick
    next e => exact (h.reach.of_eq e).tick
  · exact h.tick

theorem execPwaitReread_inv (h : s.Inv) {gid idx} : (execPwaitReread gid idx s).Inv := by
  unfold execPwaitReread
  split
  · split
    next e =>
      have h := h.reach.of_eq e
      split
      · exact h.wake.tick
      · exact h.tick
    next e => exact (h.reach.of_eq e).unpark.tick
    next e => exact (h.reach.of_eq e).tick
  · exact h.tick

theorem State.Inv.leaveBar (h : s.Inv) {lvl dom e} : (s.leaveBar lvl dom e).Inv := by
  unfold State.leaveBar
  dsimp only
  split
  · exact h.closeIv.updGrp.dropSideRef.updThr
  · exact h.closeIv.updGrp.resume

theorem execBarComplete_inv (h : s.Inv) {gid idx} : (execBarComplete gid idx s).Inv := by
  unfold execBarComplete
  split
  · dsimp only
    split
    · exact (h.foldl fun _ _ h => h.leaveBar).tick
    · exact h.tick
  · exact h.tick

end

end Sys2Proof.Machine
end

section
/-! SUPPORT. The host, translation and the device keep memory in its canonical form. -/

namespace Sys2Proof.Machine

open Sys2Proof

section
variable {s : State}

/-! ### The host -/

theorem State.Inv.doorbell (h : s.Inv) {part q v} : (s.doorbell part q v).Inv := by
  unfold State.doorbell
  dsimp only
  split
  · exact h
  · split <;> exact h.updQueue

theorem State.Inv.setEnable (h : s.Inv) {part q on} : (s.setEnable part q on).Inv := by
  unfold State.setEnable
  split
  · exact h.updQueue
  · exact h

theorem State.Inv.xlatReads (h : s.Inv) {v} : (s.xlatReads v).Inv := by
  unfold State.xlatReads
  split
  · exact h
  · exact h.classify

theorem State.Inv.bindPart (h : s.Inv) {part} : (s.bindPart part).Inv := by
  unfold State.bindPart
  dsimp only
  split
  · exact h
  split
  · exact h.xlatReads.updPart
  split
  · exact h.xlatReads.updPart
  · exact h.xlatReads.updPart.foldl fun _ _ h => h.memClear

theorem State.Inv.unbindPart (h : s.Inv) {part} : (s.unbindPart part).Inv := by
  unfold State.unbindPart
  split
  · exact h
  dsimp only
  exact h.updPart.frame

theorem State.Inv.setDrain (h : s.Inv) {part on} : (s.setDrain part on).Inv := by
  unfold State.setDrain
  split
  · exact h
  · exact h.updPart

theorem State.Inv.dropFreeze (h : s.Inv) {entry} : (s.dropFreeze entry).Inv := h

theorem State.Inv.setLink (h : s.Inv) {n l} : (s.setLink n l).Inv := h

theorem State.Inv.recheck (h : s.Inv) {part q} : (s.recheck part q).Inv := by
  unfold State.recheck
  dsimp only
  split
  · exact h.updQueue
  split
  · split
    · exact h.updQueue.freezeQueue
    · exact h.updQueue
  · exact h.updQueue

theorem State.Inv.openLink (h : s.Inv) {n} : (s.openLink n).Inv := h

theorem State.Inv.thaw (h : s.Inv) {e} : (s.thaw e).Inv := by
  unfold State.thaw
  dsimp only
  split
  · split
    · exact h
    · exact h.updCore.updGrp
  · exact h.updCore
  · exact h.recheck
  split
  · exact h.openLink
  · exact h

theorem State.Inv.fenceLink (h : s.Inv) {n} : (s.fenceLink n).Inv := h.setLink.frame.mailEntry

theorem State.Inv.skipStage (h : s.Inv) {part q} : (s.skipStage part q).Inv := by
  unfold State.skipStage
  dsimp only
  split
  · exact h.updQueue
  · exact h.updQueue.frame.dropMarks

theorem State.Inv.fctl (h : s.Inv) {action entry} : (s.fctl action entry).Inv := by
  unfold State.fctl
  split
  · exact h
  split
  · exact h
  split
  · exact h.dropFreeze.thaw
  · exact h.dropFreeze.fenceLink
  · exact h.kill
  · exact h.dropFreeze.skipStage
  · exact h

theorem State.Inv.writePart (h : s.Inv) {n o v} : (s.writePart n o v).Inv := by
  unfold State.writePart
  dsimp only
  split
  · split
    · exact h
    · exact h.updPart
  · split
    · exact h
    · exact h.updPart
  · split
    · exact h
    · exact h.updPart
  · split
    · exact h
    · exact h.updPart
  · split
    · refine .bindPart (.setDrain ?_)
      split
      · exact h.updPart
      · exact h
    refine .unbindPart (.setDrain ?_)
    split
    · exact h.updPart
    · exact h
  · exact h

theorem State.Inv.writeQueue (h : s.Inv) {n q o w} : (s.writeQueue n q o w).Inv := by
  unfold State.writeQueue
  dsimp only
  split
  · exact h.updQueue
  · exact h.updQueue
  · exact h.updQueue
  · exact h.updQueue
  · exact h.doorbell
  · exact h

theorem State.Inv.barWrite (h : s.Inv) {off w} : (s.barWrite off w).Inv := by
  unfold State.barWrite
  dsimp only
  split
  · exact h
  split
  · exact h.fctl
  split
  · split <;> exact h
  split
  · exact h.writePart
  split
  · exact h.writeQueue
  split
  · exact h.doorbell
  · exact h

theorem State.Inv.barWrites (h : s.Inv) {off l} : (s.barWrites off l).Inv := by
  induction l generalizing s off with
  | nil => exact h
  | cons w l ih =>
    unfold State.barWrites
    exact ih h.barWrite

theorem State.Inv.devStore (h : s.Inv) {key bs} : (s.devStore key bs).Inv := h.memStore.watchesSee

theorem State.Inv.updGran (h : s.Inv) {part g f} : (s.updGran part g f).Inv := h

theorem State.Inv.recStatus (h : s.Inv) {part g v} : (s.recStatus part g v).Inv := by
  unfold State.recStatus
  split
  · exact h.devStore
  · exact h

theorem State.Inv.signalF (h : s.Inv) {part} : (s.signalF part).Inv := by
  unfold State.signalF
  split
  · split
    · exact h
    · exact h.signal
  · exact h

theorem State.Inv.recMapped (h : s.Inv) {part g} : (s.recMapped part g).Inv := by
  unfold State.recMapped
  dsimp only
  split
  · refine .signalF (.recStatus ?_)
    split
    · exact h.walkReads
    · exact h
  refine .updGran (.recStatus ?_)
  split
  · exact h.walkReads
  · exact h

theorem State.Inv.recRefused (h : s.Inv) {part g} : (s.recRefused part g).Inv := h.recStatus.updGran.updX

theorem State.Inv.recActs (h : s.Inv) {part g} : (s.recActs part g).Inv := by
  unfold State.recActs
  split
  · exact h.recMapped
  · exact h.recRefused
  · exact h

theorem State.Inv.recsAct (h : s.Inv) : s.recsAct.Inv := h.foldl fun _ _ h => h.foldl fun _ _ h => h.recActs

theorem State.Inv.reply (h : s.Inv) {kind data} : (s.reply kind data).Inv := h

theorem State.Inv.hostKey (h : s.Inv) {off wr} : (s.hostKey off wr).1.Inv := by
  unfold State.hostKey
  dsimp only
  split
  · exact h
  split
  · exact h
  split
  next e =>
    have h := h.translate.of_eq e
    exact .iteFst h h
  next e => exact h.translate.of_eq e

theorem State.Inv.hostWriteList (h : s.Inv) {l x} : (s.hostWriteList l x).Inv := by
  induction l generalizing s x with
  | nil => exact h
  | cons c l ih =>
    unfold State.hostWriteList
    dsimp only
    refine ih ?_
    split
    next e => exact h.hostKey.of_eq e
    next e => exact (h.hostKey.of_eq e).put

theorem State.Inv.hostReadList (h : s.Inv) {l} : (s.hostReadList l).1.Inv := by
  induction l generalizing s with
  | nil => exact h
  | cons c l ih =>
    unfold State.hostReadList
    cases e : s.hostKey c.1 false with
    | mk u k =>
      have h := h.hostKey.of_eq e
      cases k with
      | none => exact ih h
      | some k => exact ih h.classify

theorem State.Inv.hostReg (h : s.Inv) {x} : (s.hostReg x).Inv := by
  unfold State.hostReg
  split
  · exact h.barWrites
  · exact h.reply

theorem State.Inv.hostMem (h : s.Inv) {x} : (s.hostMem x).Inv := by
  unfold State.hostMem
  dsimp only
  split
  · exact h.hostWriteList.recsAct
  · exact h.hostReadList.reply

theorem execHostAccess_inv (h : s.Inv) {x} : (execHostAccess x s).Inv := by
  unfold execHostAccess
  refine .tick ?_
  split
  · exact h
  split
  · exact h.hostReg
  · exact h.hostMem

/-! ### Translation and side logs -/

theorem State.Inv.updDie (h : s.Inv) {part die f} : (s.updDie part die f).Inv := h

theorem State.Inv.cmdStatus (h : s.Inv) {part die c status} : (s.cmdStatus part die c status).Inv := h.devStore.updDie

theorem State.Inv.cmdReads (h : s.Inv) {part die} : (s.cmdReads part die).Inv := by
  unfold State.cmdReads
  split
  · exact h
  dsimp only
  split
  · exact h.classify
  · exact h.classify.classify

theorem State.Inv.runCmd (h : s.Inv) {part die op f} (hf : ∀ (u : State) c d, u.Inv → (f u c d).1.Inv) :
    (s.runCmd part die op f).Inv := by
  unfold State.runCmd
  dsimp only
  split
  · split
    · exact h.cmdReads.cmdStatus
    · split
      · exact h.cmdReads
      · split
        next e => exact ((hf _ _ _ h.cmdReads).of_eq e).cmdStatus
        next e => exact ((hf _ _ _ h.cmdReads).of_eq e).cmdStatus
  · exact h.cmdReads

theorem State.Inv.dropTlb (h : s.Inv) {part die f} : (s.dropTlb part die f).Inv := h

theorem execInval_inv (h : s.Inv) {part die} : (execInval part die s).Inv := by
  unfold execInval
  refine (h.runCmd fun _ _ _ h => ?_).tick
  split
  · exact h
  · exact h.dropTlb

theorem execInvalall_inv (h : s.Inv) {part die} : (execInvalall part die s).Inv := (h.runCmd fun _ _ _ h => h.dropTlb).tick

theorem execResize_inv (h : s.Inv) {part die} : (execResize part die s).Inv := by
  unfold execResize
  refine (h.runCmd fun _ _ _ h => ?_).tick
  dsimp only
  split
  · exact h
  · exact h.updDie

theorem execResizeend_inv (h : s.Inv) {part die} : (execResizeend part die s).Inv := by
  unfold execResizeend
  refine (h.runCmd fun _ _ _ h => ?_).tick
  split
  · exact h
  dsimp only
  exact h.devStore.devStore.updDie

theorem State.Inv.rekey (h : s.Inv) {old new} : (s.rekey old new).Inv := h

theorem execMigrate_inv (h : s.Inv) {part die} : (execMigrate part die s).Inv := by
  unfold execMigrate
  refine (h.runCmd fun _ _ _ h => ?_).tick
  split
  · exact h
  split
  · exact h
  dsimp only
  split
  · split
    · exact h.walkReads
    · exact h.walkReads.classify.memMoveSectors.rekey.devStore.dropTlb
  · exact h.walkReads

theorem State.Inv.hostStatus (h : s.Inv) {part die rec_ v} : (s.hostStatus part die rec_ v).Inv := by
  unfold State.hostStatus
  split
  · exact h.recStatus.recActs
  · exact h

theorem execGranuleReopen_inv (h : s.Inv) {part die gran} : (execGranuleReopen part die gran s).Inv := by
  unfold execGranuleReopen
  split
  · exact h.tick
  split
  · exact h.tick
  split
  · exact h.tick
  · exact h.updX.tick

theorem State.Inv.sideFails (h : s.Inv) {core e code} : (s.sideFails core e code).Inv := by
  unfold State.sideFails
  dsimp only
  refine .ite ?_ ?_
  · exact h.updCore
  split
  · exact h.faultLaunch
  · exact h

theorem State.Inv.sidePerform (h : s.Inv) {w e acc key attr} : (s.sidePerform w e acc key attr).Inv := by
  unfold State.sidePerform
  split
  · split
    · exact h.sideFails
    · exact h.put
  · exact h

theorem State.Inv.sideSend (h : s.Inv) {core e attr} : (s.sideSend core e attr).Inv := by
  unfold State.sideSend
  split
  · split
    · exact h.sideFails
    · exact h.sendStore
  · exact h

theorem State.Inv.sideClose (h : s.Inv) {e} : (s.sideClose e).Inv := by
  unfold State.sideClose
  split
  · exact h.closeIv
  · exact h

theorem State.Inv.sideViol (h : s.Inv) {core e cause put} (hp : ∀ es (u : State), u.Inv → (put es u).Inv) :
    (s.sideViol core e cause put).Inv := by
  unfold State.sideViol
  split
  · exact (hp _ _ h).freezeStream
  · split
    · exact (hp _ _ h).freezeGroup
    · exact (hp _ _ h).logFreeze

theorem State.Inv.sideReplay (h : s.Inv) {core pre e post} : (s.sideReplay core pre e post).Inv := by
  unfold State.sideReplay
  dsimp only
  split
  next e => exact (h.updX.updCore.reachGlobal.of_eq e).updX.updCore.sidePerform.sideClose
  next e => exact (h.updX.updCore.reachGlobal.of_eq e).updX.updCore.sideSend.sideClose
  next e =>
    have h := h.updX.updCore.reachGlobal.of_eq e
    exact h.updX.sideViol fun _ _ h => h.updCore
  next e => exact (h.updX.updCore.reachGlobal.of_eq e).updX.updCore.sideFails
  next e => exact (h.updX.updCore.reachGlobal.of_eq e).updX.updCore.sideFails
  next e => exact (h.updX.updCore.reachGlobal.of_eq e).updCore
  · exact h

theorem execSideLogReplay_inv (h : s.Inv) {core} : (execSideLogReplay core s).Inv := by
  unfold execSideLogReplay
  dsimp only
  split
  · exact h.tick
  split
  · exact h.sideReplay.drainFrozen.tick
  split
  · exact h.updCore.sideFails.drainFrozen.tick
  split
  · exact h.sideReplay.drainFrozen.tick
  · exact h.tick

theorem execTableWalk_inv (h : s.Inv) {part die off} : (execTableWalk part die off s).Inv := by
  unfold execTableWalk
  split
  · exact h.tick
  · split
    next u e =>
      have h := h.translate.of_eq e
      refine State.Inv.tick ?_
      cases e : u.closeGran part die (off / 2 ^ 16) 0 with
      | none => exact h
      | some v => exact h.closeGran e
    next e => exact (h.translate.of_eq e).tick

theorem State.Inv.reqMarks (h : s.Inv) {r key} : (s.reqMarks r key).Inv := h

theorem State.Inv.answer (h : s.Inv) {ctx va bs p} : (s.answer ctx va bs p).Inv := h.emit

theorem State.Inv.reqPerform (h : s.Inv) {w r a key attr} : (s.reqPerform w r a key attr).Inv := by
  unfold State.reqPerform
  split
  · exact h.put
  · exact h.put
  · split
    · exact h.put
    · exact h
  split
  · exact h.answer
  · exact h

theorem State.Inv.reqViol (h : s.Inv) {r cause} : (s.reqViol r cause).Inv := by
  unfold State.reqViol
  split
  · exact h.setLink.logFreeze
  split
  · exact h.freezeStream
  split
  · exact h.freezeGroup
  · exact h.logFreeze

theorem State.Inv.serve (h : s.Inv) {r} : (s.serve r).Inv := by
  unfold State.serve
  split
  · exact h.reqViol
  · extract_lets w a b u
    have hu : u.Inv := by
      unfold u
      split
      next e =>
        have h := h.translate.of_eq e
        split
        · exact h.reqMarks
        · exact h
      next e => exact h.translate.of_eq e
    clear_value u
    split
    next e => exact (hu.reachGlobal.of_eq e).reqPerform
    next e => exact (hu.reachGlobal.of_eq e).reqViol
    next e => exact hu.reachGlobal.of_eq e

theorem State.Inv.flit (h : s.Inv) {r} : (s.flit r).Inv := by
  unfold State.flit
  split <;> exact h

theorem execSliceRequest_inv (h : s.Inv) {r} : (execSliceRequest r s).Inv := by
  unfold execSliceRequest
  split
  · exact h.serve.flit.tick
  split
  · exact h.serve.tick
  · exact h.linkKeeps.tick

/-! ### The device -/

theorem State.Inv.updDev (h : s.Inv) {f} : (s.updDev f).Inv := h

theorem State.powerOn_inv {r} : (s.powerOn r).Inv := Memory.wf_empty

theorem State.Inv.loseCore (h : s.Inv) {k} : (s.loseCore k).Inv := h.memClear.memClear.setCore

theorem execMapRebuild_inv (h : s.Inv) {die failed} : (execMapRebuild die failed s).Inv := by
  unfold execMapRebuild
  split
  · exact h.tick
  · exact ((h.updDev.foldl fun _ _ h => h.mailEntry).foldl fun _ _ h => h.loseCore).tick

theorem execLinkDown_inv (h : s.Inv) {link} : (execLinkDown link s).Inv := by
  unfold execLinkDown
  refine .tick ?_
  split
  · exact h.setLink
  · exact h

theorem execLinkRetrainEnd_inv (h : s.Inv) {link ok} : (execLinkRetrainEnd link ok s).Inv := by
  unfold execLinkRetrainEnd
  split
  · exact h.tick
  refine .tick ?_
  split
  · exact h.openLink
  · exact h.fenceLink

theorem execThermalThrottle_inv (h : s.Inv) {die reading} : (execThermalThrottle die reading s).Inv := by
  unfold execThermalThrottle
  split
  · exact h.tick
  split
  · exact h.updDev.tick
  split
  · exact h.updDev.tick
  · exact h.tick

theorem execPwrhRefresh_inv (h : s.Inv) {die quad hdrm} : (execPwrhRefresh die quad hdrm s).Inv := by
  unfold execPwrhRefresh
  split
  · exact h.tick
  · exact h.updDev.tick

theorem execThermalFence_inv (h : s.Inv) {reading} : (execThermalFence reading s).Inv := by
  unfold execThermalFence
  split
  · exact h.tick
  · exact (h.updDev.foldl fun _ _ h => h.kill).signal.tick

theorem execThermalReenable_inv (h : s.Inv) {reading} : (execThermalReenable reading s).Inv := by
  unfold execThermalReenable
  refine .tick ?_
  split
  · exact h.updDev
  · exact h

theorem State.Inv.lower (h : s.Inv) {dom weak} : (s.lower dom weak).Inv := h

theorem execUndervoltStep_inv (h : s.Inv) {x} : (execUndervoltStep x s).Inv := by
  unfold execUndervoltStep
  refine .tick ?_
  split
  · exact h
  · exact h.lower

theorem execMonitorWindowExpiry_inv (h : s.Inv) {dom array} : (execMonitorWindowExpiry dom array s).Inv := by
  unfold execMonitorWindowExpiry
  refine .tick ?_
  split
  · exact h
  · exact h.updDev

theorem execUndervoltOverride_inv (h : s.Inv) {dom array count} : (execUndervoltOverride dom array count s).Inv := by
  unfold execUndervoltOverride
  dsimp only
  split
  · exact h.tick
  · exact h.updDev.reliability.tick

theorem execScanStart_inv (h : s.Inv) {core} : (execScanStart core s).Inv := by
  unfold execScanStart
  refine .tick ?_
  split
  · exact h
  · split <;> exact h.updCore

theorem State.Inv.scanClear (h : s.Inv) {core due} : (s.scanClear core due).Inv := h

theorem execScanPatternEnd_inv (h : s.Inv) {core pass} : (execScanPatternEnd core pass s).Inv := by
  unfold execScanPatternEnd
  split
  · exact h.tick
  split
  · exact h.scanClear.tick
  · exact h.scanClear.updDev.mailEntry.reliability.tick

theorem execScanAbort_inv (h : s.Inv) {core} : (execScanAbort core s).Inv := by
  unfold execScanAbort
  refine .tick ?_
  split
  · exact h
  split
  · exact h.scanClear
  · exact h.updCore

theorem execPldmSensorRead_inv (h : s.Inv) {q reading} : (execPldmSensorRead q reading s).Inv := by
  unfold execPldmSensorRead
  refine .tick ?_
  split
  · exact h
  · exact h.reply

theorem execPldmPowerLimit_inv (h : s.Inv) {watts} : (execPldmPowerLimit watts s).Inv := by
  unfold execPldmPowerLimit
  refine .tick ?_
  split
  · exact h
  split
  · exact h.updDev
  · exact h

theorem execUndervoltLockClear_inv (h : s.Inv) {dom} : (execUndervoltLockClear dom s).Inv := by
  unfold execUndervoltLockClear
  refine .tick ?_
  split
  · exact h
  · exact h.updDev

theorem execPldmUpdate_inv (h : s.Inv) {m} : (execPldmUpdate m s).Inv := by
  unfold execPldmUpdate
  refine .tick ?_
  split
  · exact h
  · exact h.updDev

theorem execPldmFileRead_inv (h : s.Inv) {file} : (execPldmFileRead file s).Inv := by
  unfold execPldmFileRead
  refine .tick ?_
  split
  · exact h
  split
  · exact h.reply
  · exact h.reply
  · exact h

theorem execGetMeasurements_inv (h : s.Inv) {index} : (execGetMeasurements index s).Inv := by
  unfold execGetMeasurements
  refine .tick ?_
  split
  · exact h
  split
  · exact h
  · split <;> exact h.reply

theorem execChallenge_inv (h : s.Inv) {nonce} : (execChallenge nonce s).Inv := by
  unfold execChallenge
  refine .tick ?_
  split
  · exact h
  · exact h.reply

theorem execPldmDiscovery_inv (h : s.Inv) : (execPldmDiscovery s).Inv := by
  unfold execPldmDiscovery
  refine .tick ?_
  split
  · exact h
  · exact h.reply

end

end Sys2Proof.Machine
end

section
/-! SUPPORT. The meaning of every instruction and event keeps memory in its canonical form, and so does a step; with it, the
statement about the invariant. -/

namespace Sys2Proof.Machine

open Sys2Proof

section
variable {s : State}

/-! ### The meanings -/

/-- Every meaning answers a state of the invariant. -/
theorem exec_inv (h : s.Inv) (i : Instr) : Out.Inv (exec i s) := by
  cases i with
  | iadd | isub | imul | imulh | imad | idiv | irem | imin | imax | iabs | ineg | and | or | xor | andn | not | shl
  | shr | sar | rotl | popc | clz | brev | bfx | bfi | sel | mov | movi | movh | lea | icmp | iaddD | isubD | imulD
  | imadD | iminD | imaxD | andD | orD | xorD | shlD | shrD | sarD | movD | selD | icmpD | hpoll | cpyt | fadd | fsub
  | fmul | ffma | dadd | dsub | dmul | dfma | fmin | fmax | fabs | fneg | fcmp | fclass | fscale | fcvt | frnd | frcp
  | frsq | fsqrt | fexp2 | flog2 | fsin | fcos | ddiv | dsqrt | dcmp | dcvt | hadd2 | hmul2 | hfma2 | pand | por
  | pxor | pnot | pmov | pset => exact h.alu
  | clauseHeader => exact execClauseHeader_inv h
  | bra | brx | call | callx => exact h.branch
  | ret => exact execRet_inv h
  | join => exact execJoin_inv h
  | loop => exact execLoop_inv h
  | tail => exact execTail_inv h
  | yield => exact execYield_inv h
  | nop => exact execNop_inv h
  | rgn => exact execRgn_inv h
  | dead => exact execDead_inv h
  | mfsr => exact execMfsr_inv h
  | mtsr => exact execMtsr_inv h
  | trap => exact h.gate fun _ h => h.trapAll.finish
  | sysc => exact execSysc_inv h
  | eret => exact execEret_inv h
  | illegal | unassignedOpcode => exact h.illegal
  | ld | ldOff | lda | ldaOff | ldw | ldwOff => exact h.load
  | st | stOff | stP | stPOff | sta | staOff | staP | staPOff | stw | stwOff | stwP | stwPOff => exact h.store
  | atom | atomOff | atoma | atomaOff | red | redOff => exact h.atomic
  | fence => exact execFence_inv h
  | fencex => exact execFencex_inv h
  | watch => exact h.gate fun _ h => (h.foldl fun _ _ h => h.watchTurn).finish
  | wait => exact h.gate fun _ h => (h.foldl fun _ _ h => h.waitTurn).finish
  | waita => exact h.gate fun _ h => (h.foldl fun _ _ h => h.waitaTurn).finish
  | prf => exact h.gate fun _ h => h.finish
  | harm => exact execHarm_inv h
  | hsign => exact execHsign_inv h
  | bar => exact execBar_inv h
  | parr => exact h.gate fun _ h => (h.foldl fun _ _ h => h.parrTurn).finish
  | pwait => exact h.gate fun _ h => (h.foldl fun _ _ h => h.pwaitTurn).finish
  | cpyGa | cpyAg => exact h.cpy
  | cpyw => exact execCpyw_inv h
  | copyTransferCompletion => exact execCopyTransferCompletion_inv h
  | bcpy | coll | subs | subsSync | subx | subf | subfSrc => exact h.command
  | amsg => exact h.gate fun _ h => (h.foldl fun _ _ h => h.amsgTurn).finish
  | sourceEntryRequest => exact execSourceEntryRequest_inv h
  | batchWindowExpiry => exact execBatchWindowExpiry_inv h
  | updateArrival => exact execUpdateArrival_inv h
  | contributionArrival => exact execContributionArrival_inv h
  | collectiveBoundExpiry => exact execCollectiveBoundExpiry_inv h
  | collectiveDelivery => exact execCollectiveDelivery_inv h
  | completionWordWrite => exact execCompletionWordWrite_inv h
  | gath => exact execGath_inv h
  | mzero => exact execMzero_inv h
  | mcfg => exact execMcfg_inv h
  | mol => exact execMol_inv h
  | mstat => exact execMstat_inv h
  | huddleRoundComplete => exact execHuddleRoundComplete_inv h
  | mma | mmasS | mmasV => exact h.mmaSign
  | cvtb => exact h.gate fun _ h => (h.foldl fun _ _ h => h.cvtbTurn).finish
  | mdrn => exact h.matrixGate fun _ h => (h.foldl fun _ _ h => h.mdrnTurn).finish
  | matrixCheck => exact execMatrixCheck_inv h
  | dcorD => exact h.gate fun _ h => h.signs fun _ _ h => h.dcorSign
  | dcorRound => exact execDcorRound_inv h
  | groupRetire => exact execGroupRetire_inv h
  | spawn => exact execSpawn_inv h
  | binTimerExpiry => exact execBinTimerExpiry_inv h
  | binLaunch => exact execBinLaunch_inv h
  | activeMessageArrival => exact execActiveMessageArrival_inv h
  | launch => exact h.gate fun _ h => (h.foldl fun _ _ h => h.launchTurn).finish
  | pitch => exact h.gate fun _ h => (h.foldl fun _ _ h => h.pitchTurn).finish
  | qpush => exact execQpush_inv h
  | qdrn => exact execQdrn_inv h
  | pitcherStart => exact execPitcherStart_inv h
  | pitcherEnd => exact execPitcherEnd_inv h
  | blockClaim => exact execBlockClaim_inv h
  | discard => exact execDiscard_inv h
  | restart => exact execRestart_inv h
  | schedulerCycle => exact execSchedulerCycle_inv h
  | recordStage => exact execRecordStage_inv h
  | watchdogExpiry => exact execWatchdogExpiry_inv h
  | resultLanding => exact execResultLanding_inv h
  | headerWait => exact execHeaderWait_inv h
  | loadReplay => exact (h.foldl fun _ _ h => h.updThr).tick
  | starvationSwitch => exact execStarvationSwitch_inv h
  | turnLimit => exact h.updGrp.tick
  | cloneReplay => exact execCloneReplay_inv h
  | hardwareEnd => exact execHardwareEnd_inv h
  | waitWake => exact execWaitWake_inv h
  | waitTimeout => exact execWaitTimeout_inv h
  | waitaWake => exact execWaitaWake_inv h
  | pwaitReread => exact execPwaitReread_inv h
  | barComplete => exact execBarComplete_inv h
  | doorbell | queueTail => exact h.doorbell.tick
  | queueEnable => exact h.setEnable.tick
  | bind => exact h.bindPart.tick
  | unbind => exact h.unbindPart.tick
  | drain => exact h.setDrain.tick
  | unfreeze | kill | skip => exact h.fctl.tick
  | registerWrite => exact h.barWrite.tick
  | hostAccess => exact execHostAccess_inv h
  | inval => exact execInval_inv h
  | invalall => exact execInvalall_inv h
  | resize => exact execResize_inv h
  | resizeend => exact execResizeend_inv h
  | migrate => exact execMigrate_inv h
  | faultRecordMapped | faultRecordRefused => exact h.hostStatus.tick
  | granuleReopen => exact execGranuleReopen_inv h
  | sideLogReplay => exact execSideLogReplay_inv h
  | tableWalk => exact execTableWalk_inv h
  | sliceRequest => exact execSliceRequest_inv h
  | powerOn | pcieFundamentalReset | managementPowerCycle => exact State.powerOn_inv.tick
  | mapRebuild => exact execMapRebuild_inv h
  | linkDown => exact execLinkDown_inv h
  | linkRetrainEnd => exact execLinkRetrainEnd_inv h
  | bridgeReplay => exact h
  | thermalThrottle => exact execThermalThrottle_inv h
  | pwrhRefresh => exact execPwrhRefresh_inv h
  | thermalFence => exact execThermalFence_inv h
  | thermalReenable => exact execThermalReenable_inv h
  | undervoltStep => exact execUndervoltStep_inv h
  | monitorWindowExpiry => exact execMonitorWindowExpiry_inv h
  | undervoltOverride => exact execUndervoltOverride_inv h
  | scanStart => exact execScanStart_inv h
  | scanPatternEnd => exact execScanPatternEnd_inv h
  | scanAbort => exact execScanAbort_inv h
  | pldmSensorRead => exact execPldmSensorRead_inv h
  | pldmPowerLimit => exact execPldmPowerLimit_inv h
  | undervoltLockClear => exact execUndervoltLockClear_inv h
  | pldmUpdate => exact execPldmUpdate_inv h
  | pldmFileRead => exact execPldmFileRead_inv h
  | getMeasurements => exact execGetMeasurements_inv h
  | challenge => exact execChallenge_inv h
  | pldmDiscovery => exact execPldmDiscovery_inv h
  | xchg | xbcast | xscan | xred | vote => exact h.exchange

/-! ### What a step runs -/

theorem State.Inv.trapFirst (h : s.Inv) {es} : (s.trapFirst es).Inv := h.updGrp.frame

theorem State.Inv.cloneTaken (h : s.Inv) {gid i} : (s.cloneTaken gid i).Inv := h.updCore.trapFirst

theorem State.Inv.owedTaken (h : s.Inv) {gid i} : (s.owedTaken gid i).Inv := by
  unfold State.owedTaken
  dsimp only
  split
  · exact h
  · exact h.trapFirst

theorem State.Inv.chosen (h : s.Inv) {gid goesOn chose} : (s.chosen gid goesOn chose).Inv := by
  unfold State.chosen
  dsimp only
  split
  · exact State.Inv.foldl (.ite h h.updGrp) fun _ _ h => h.updGrp
  · exact .ite h h.updGrp

theorem State.Inv.issue (h : s.Inv) {gid chose} : (s.issue gid chose).2.Inv := by
  unfold State.issue
  dsimp only
  split
  · exact h
  split
  · exact h
  split
  · exact h.chosen.frame
  refine .owedTaken ?_
  split
  · exact h.chosen.frame
  · exact h.chosen.frame.cloneTaken

theorem State.Inv.pathMove (h : s.Inv) : ∀ x ∈ s.pathMove, x.2.Inv := by
  intro x hx
  obtain ⟨l, -, hx⟩ := Option.bind_eq_some_iff.1 hx
  obtain ⟨g, -, rfl⟩ := Option.map_eq_some_iff.1 hx
  exact h.issue

/-- An event is looked for in the state, which stays as it is (log entry 1). -/
theorem State.Inv.eventMove (h : s.Inv) : ∀ x ∈ s.nextEvent.map fun e => (e, s), x.2.Inv := by
  intro x hx
  obtain ⟨e, -, rfl⟩ := Option.map_eq_some_iff.1 hx
  exact h

/-- The first of two moves, or else a scheduler cycle. -/
theorem State.Inv.firstMove (h : s.Inv) {o p : Option (Instr × State)} (ho : ∀ x ∈ o, x.2.Inv) (hp : ∀ x ∈ p, x.2.Inv) :
    ((o.or p).getD (.schedulerCycle, s)).2.Inv := by
  cases o with
  | some x => exact ho x rfl
  | none =>
    cases p with
    | some x => exact hp x rfl
    | none => exact h

theorem State.Inv.move (h : s.Inv) : s.move.2.Inv := by
  unfold State.move
  split
  · exact h
  dsimp only
  split
  · exact h.firstMove h.pathMove h.eventMove
  · exact h.firstMove h.eventMove h.pathMove

theorem step_inv (h : s.Inv) : Out.Inv (step s) := exec_inv h.move _

end

/-- Settles O56: a step is the meaning of an instruction or event in the state that its move gives, and each operation of the
model that writes memory goes through a store, a clear or a change of one sector's band, which keep the canonical form. -/
theorem stepsKeepTheInvariant : Obligations.StepsKeepTheInvariant := by
  intro s t h hs
  have ht := step_inv h
  rwa [hs] at ht

end Sys2Proof.Machine
end

section
/-! SUPPORT. Barriers (R321, R322): the turn of a thread at `BAR`, when the whole instruction is refused, and when the event that
completes a barrier lets its participants go. -/

namespace Sys2Proof.Machine
open Sys2Proof

/-! ### The arrival (R321, R322) -/

theorem State.owes_eq_none_iff (s : State) (t : Nat) :
    s.owes t = none ↔ (s.thr s.cur.gid t).owed = none ∧ s.sideRefused (s.who s.cur.gid t) = none := by
  unfold State.owes
  cases (s.thr s.cur.gid t).owed <;> simp

/-- The turn of one thread at a `BAR` that its scope admits: a trap that it owes is taken there, and else it parks. -/
def State.barTurn (lvl dom : Nat) (s : State) (t : Nat) : State :=
  match s.owes t with
  | some (s, c, a) => s.trap t c a
  | none => s.park [t] (.bar lvl dom)

theorem State.barTurn_parks {s : State} {t : Nat} (lvl dom : Nat) (howed : (s.thr s.cur.gid t).owed = none)
    (hside : s.sideRefused (s.who s.cur.gid t) = none) : s.barTurn lvl dom t = s.park [t] (.bar lvl dom) := by
  unfold State.barTurn
  rw [(s.owes_eq_none_iff t).2 ⟨howed, hside⟩]

section
variable {s : State} {g : Group} {c : BitVec 1} {n : BitVec 3}

/-- `BAR` names no queue, and so goes on to its scope at once. -/
theorem exec_bar_eq (hI : s.Issues (.bar c n) g) : exec (.bar c n) s = .next
    (match s.scopeDom g.lid (if c = 1#1 then some n.toNat else none) with
    | none => s.illegal
    | some dom =>
      if !g.kind.isGang || gangDom (s.levels g.lid) < dom then s.illegal
      else (s.cur.mask.foldl
        (State.barTurn (if c = 1#1 then n.toNat else (s.levels g.lid).length - 1) dom) s).finish) := by
  rw [← s.cg_eq g hI.group]
  exact congrArg _ (s.gate_noQueue _ g hI rfl _)

/-- R322: a scope that the launch does not have. -/
theorem exec_bar_noScope (hI : s.Issues (.bar c n) g)
    (hscope : s.scopeDom g.lid (if c = 1#1 then some n.toNat else none) = none) :
    exec (.bar c n) s = .next s.illegal := by
  rw [exec_bar_eq hI, hscope]

/-- R322: a scope wider than the gang, or a thread that is no gang's. -/
theorem exec_bar_refused {dom : Nat} (hI : s.Issues (.bar c n) g)
    (hscope : s.scopeDom g.lid (if c = 1#1 then some n.toNat else none) = some dom)
    (hok : ¬ (g.kind.isGang = true ∧ dom ≤ gangDom (s.levels g.lid))) :
    exec (.bar c n) s = .next s.illegal := by
  have hguard : (!g.kind.isGang || decide (gangDom (s.levels g.lid) < dom)) = true := by
    rw [Bool.or_eq_true, Bool.not_eq_true', decide_eq_true_eq]
    cases hgang : g.kind.isGang with
    | false => exact .inl rfl
    | true => exact .inr (Nat.lt_of_not_le fun hdom => hok ⟨hgang, hdom⟩)
  rw [exec_bar_eq hI, hscope]
  exact congrArg _ (if_pos hguard)

/-- R321: a scope within the gang, at whose barrier each active thread takes its turn. -/
theorem exec_bar_arrives {dom : Nat} (hI : s.Issues (.bar c n) g)
    (hscope : s.scopeDom g.lid (if c = 1#1 then some n.toNat else none) = some dom)
    (hgang : g.kind.isGang = true) (hdom : dom ≤ gangDom (s.levels g.lid)) :
    exec (.bar c n) s = .next (s.cur.mask.foldl
      (State.barTurn (if c = 1#1 then n.toNat else (s.levels g.lid).length - 1) dom) s).finish := by
  have hguard : ¬ (!g.kind.isGang || decide (gangDom (s.levels g.lid) < dom)) = true := by
    rw [hgang, Bool.not_true, Bool.false_or, decide_eq_true_eq]
    exact Nat.not_lt.2 hdom
  rw [exec_bar_eq hI, hscope]
  exact congrArg _ (if_neg hguard)

end

/-! ### The completion (R194, R321) -/

/-- What completes a barrier: each participant has arrived with its earlier writes in memory, no held instance is still to
arrive, and no update between the cores of the scope is still to be applied. -/
def State.barOpens (u : State) (gid l dom : Nat) (a : Agent) : Bool :=
  (u.barThreads (u.grp gid).lid dom a).all (fun e => u.atBar l dom e && !u.undrained (u.agent e.1 e.2))
    && !u.heldOut (u.grp gid).lid dom a && !u.updatesOut dom (u.grp gid).core

theorem State.barOpens_iff (u : State) (gid l dom : Nat) (a : Agent) : u.barOpens gid l dom a = true ↔
    (∀ e ∈ u.barThreads (u.grp gid).lid dom a, u.atBar l dom e = true ∧ u.undrained (u.agent e.1 e.2) = false)
      ∧ u.heldOut (u.grp gid).lid dom a = false ∧ u.updatesOut dom (u.grp gid).core = false := by
  simp [State.barOpens, and_assoc]

section
variable {u : State} {gid idx l dom : Nat} {mask : List Nat}

theorem exec_barComplete_eq (hpark : u.parkAt gid idx = some ⟨mask, .bar l dom⟩) :
    exec (.barComplete gid idx) u =
      if u.barOpens gid l dom (u.agent gid (mask.headD 0)) then
        .next ((u.barThreads (u.grp gid).lid dom (u.agent gid (mask.headD 0))).foldl
          (fun v e => v.leaveBar l dom e) u).tick
      else .next u.tick := by
  change execBarComplete gid idx u = _
  unfold execBarComplete
  rw [hpark]
  rfl

/-- R321: the last arrival lets the participants go. -/
theorem exec_barComplete_opens (hpark : u.parkAt gid idx = some ⟨mask, .bar l dom⟩)
    (hopen : u.barOpens gid l dom (u.agent gid (mask.headD 0)) = true) :
    exec (.barComplete gid idx) u =
      .next ((u.barThreads (u.grp gid).lid dom (u.agent gid (mask.headD 0))).foldl
        (fun v e => v.leaveBar l dom e) u).tick := by
  rw [exec_barComplete_eq hpark, if_pos hopen]

/-- R321: a barrier that a participant has not reached keeps its threads parked. -/
theorem exec_barComplete_waits (hpark : u.parkAt gid idx = some ⟨mask, .bar l dom⟩) {e : Nat × Nat}
    (he : e ∈ u.barThreads (u.grp gid).lid dom (u.agent gid (mask.headD 0))) (hout : u.atBar l dom e = false) :
    exec (.barComplete gid idx) u = .next u.tick := by
  have hshut : ¬ u.barOpens gid l dom (u.agent gid (mask.headD 0)) = true := by
    intro hopen
    obtain ⟨hall, -, -⟩ := (u.barOpens_iff ..).1 hopen
    exact absurd (hall e he).1 (by simp [hout])
  rw [exec_barComplete_eq hpark, if_neg hshut]

end

/-! ### The statement -/

/-- Settles O36: `BAR` is refused as a whole or gives each active thread a turn, which parks a thread that owes no trap, and the
event that completes a barrier opens it exactly where the conditions of R194 and R321 hold. -/
theorem barriers : Obligations.Barriers := by
  intro s g c n hI
  refine ⟨?refused, ?arrives, ?completes⟩
  case refused =>
    rintro (hnone | ⟨dom, hscope, hok⟩)
    · exact exec_bar_noScope hI hnone
    · exact exec_bar_refused hI hscope hok
  case arrives =>
    rintro dom hscope ⟨hgang, hdom⟩
    exact ⟨State.barTurn _ dom, exec_bar_arrives hI hscope hgang hdom, fun _ _ => State.barTurn_parks _ dom⟩
  case completes =>
    intro u gid idx l dom mask hpark
    refine ⟨fun hheld hupd hall => ?_, ?_⟩
    · exact exec_barComplete_opens hpark ((u.barOpens_iff ..).2 ⟨hall, hheld, hupd⟩)
    · rintro ⟨e, he, hout⟩
      exact exec_barComplete_waits hpark he hout

end Sys2Proof.Machine
end

section
/-! SUPPORT. Branches and calls (R224, R225, R283, R284): the turn of a thread at a branch clause's last instruction, case by
case, and the spill of its oldest return address (R75). -/

namespace Sys2Proof.Machine
open Sys2Proof

/-! ### Reading a target leaves the thread as it was (R265) -/

theorem kget_map {α β : Type} (f : α → β) (d : α) (m : List (Nat × α)) (n : Nat) :
    kget (f d) (m.map fun e => (e.1, f e.2)) n = f (kget d m n) := by
  induction m with
  | nil => rfl
  | cons e m ih =>
    simp only [List.map_cons, kget]
    split
    · rfl
    · exact ih

/-- A group without what its watches latched, as `unwatched` leaves it. -/
def Group.unwatched (g : Group) : Group := { g with threads := g.threads.map fun x => { x with watch := none } }

theorem Group.unwatched_gbp (g : Group) (t : Nat) : (g.unwatched.thr t).gbp = (g.thr t).gbp := by
  simp only [Group.unwatched, Group.thr, List.getD_eq_getElem?_getD, List.getElem?_map]
  cases g.threads[t]? <;> rfl

theorem kget_unwatched (gs : List (Nat × Group)) (gid : Nat) :
    kget Group.absent (unwatched gs) gid = (kget Group.absent gs gid).unwatched :=
  kget_map Group.unwatched Group.absent gs gid

theorem Checked.gbp {s u : State} (h : Checked s u) (gid t : Nat) : (u.thr gid t).gbp = (s.thr gid t).gbp := by
  have hgroup : (u.grp gid).unwatched = (s.grp gid).unwatched := by
    unfold State.grp
    rw [← kget_unwatched, ← kget_unwatched, h.groups]
  calc (u.thr gid t).gbp = ((u.grp gid).unwatched.thr t).gbp := (Group.unwatched_gbp ..).symm
    _ = ((s.grp gid).unwatched.thr t).gbp := by rw [hgroup]
    _ = (s.thr gid t).gbp := Group.unwatched_gbp ..

theorem State.readOps_gbp {s u : State} {gid t : Nat} {os : List Operand} {v : Vals} {r : Except Rd Vals}
    (h : s.readOps gid t os v = (u, r)) (k n : Nat) : (u.thr k n).gbp = (s.thr k n).gbp := by
  have hchecked := s.readOps_checked gid t os v
  rw [h] at hchecked
  exact hchecked.gbp k n

/-! ### The thread's state after the branch (R224, R283, R284) -/

theorem State.updThr_congr {s : State} {gid t : Nat} {f k : Thread → Thread} (h : f (s.thr gid t) = k (s.thr gid t)) :
    s.updThr gid t f = s.updThr gid t k := by
  unfold State.updThr State.updGrp
  cases hg : kfind s.groups gid with
  | none => rfl
  | some g =>
    rw [State.thr, State.grp, kget_of_kfind _ _ _ _ hg] at h
    simp only [Group.updThr, h]

theorem State.updThr_movedAll_congr {s : State} {gid t : Nat} {f k : Thread → Thread} (tids : List Nat)
    (h : f (s.thr gid t) = k (s.thr gid t)) : (s.updThr gid t f).movedAll tids = (s.updThr gid t k).movedAll tids := by
  rw [State.updThr_congr h]

/-- The taint stack after a branch that depends on a proposal or not (R224). -/
def Thread.taintedBy (x : Thread) (dep : Bool) (rcv : Nat) : List Taint :=
  if dep then pushTaint ⟨rcv, x.depth⟩ x.taint else x.taint

section
variable (x : Thread) (c : Cur) (t a rcv : Nat) (dep call : Bool)

theorem Thread.branch_untaken : x.branch c ⟨t, false, a, dep⟩ (some rcv) call =
    Thread.advance { x with taint := x.taintedBy dep rcv } c := by
  cases dep <;> rfl

theorem Thread.branch_jump : x.branch c ⟨t, true, a, dep⟩ (some rcv) false =
    { x with taint := x.taintedBy dep rcv, pos := ⟨a, 0⟩, loop := none } := by
  cases dep <;> rfl

theorem Thread.branch_call : x.branch c ⟨t, true, a, dep⟩ (some rcv) true =
    { x with
      taint := x.taintedBy dep rcv, pos := ⟨a, 0⟩, loop := none
      ret := ⟨c.nextHdr, !(x.taintedBy dep rcv).isEmpty⟩ :: x.ret } := by
  cases dep <;> rfl

end

/-! ### Threads that the sweep has stopped -/

theorem State.stopped_eq_false {s : State} {t : Nat} (htrap : s.trapped t = false) (hviol : s.violated t = false)
    (hstay : s.sweep.stays.contains t = false) (hhold : s.sweep.holds.contains t = false) : s.stopped t = false := by
  simp only [State.stopped, htrap, hviol, hstay, hhold, Bool.or_false]

theorem State.trapAll_stopped (s : State) (t code addr : Nat) : (s.trapAll [t] code addr).stopped t = true := by
  simp [State.stopped, State.trapped, State.trapAll]

/-- An access that does not perform stops its thread, whatever the reason. -/
theorem State.failRes_stopped (s : State) (t : Nat) (r : Res) (addr : Nat) : (s.failRes [t] r addr).stopped t = true := by
  cases r with
  | trap code => exact State.trapAll_stopped ..
  | lost => exact State.trapAll_stopped ..
  | viol cause => simp [State.stopped, State.failRes, State.violated, State.violAll]
  | closed => simp [State.stopped, State.failRes, State.holdAll]
  | ok key attr => simp [State.stopped, State.failRes, State.stayAll]
  | waits => simp [State.stopped, State.failRes, State.stayAll]
  | outside attr => simp [State.stopped, State.failRes, State.stayAll]

/-! ### The spill of the oldest return address (R75, R284) -/

section
variable {s u : State} {t : Nat}

theorem State.spill_room (h : (s.thr s.cur.gid t).ret.length < 8) : s.spill t = s := if_pos h

section
variable {e : RetEnt} {r : Res} (hfull : 8 ≤ (s.thr s.cur.gid t).ret.length)
  (hlast : (s.thr s.cur.gid t).ret.getLast? = some e)
  (hreach : s.reach (s.who s.cur.gid t)
    (Acc.write .A ((s.spillAt s.cur.gid t).1 + 8 * (s.thr s.cur.gid t).spilled) 8 false) = (u, r))
include hfull hlast hreach

theorem State.spill_fails (hfail : ∀ key attr, r ≠ .ok key attr) :
    s.spill t = u.failRes [t] r ((s.spillAt s.cur.gid t).1 + 8 * (s.thr s.cur.gid t).spilled) := by
  unfold State.spill
  simp only [if_neg (Nat.not_lt.2 hfull), hlast, hreach]

theorem State.spill_stores {key attr : Nat} (hok : r = .ok key attr) :
    s.spill t = (u.put (u.who s.cur.gid t)
        (Acc.write .A ((s.spillAt s.cur.gid t).1 + 8 * (s.thr s.cur.gid t).spilled) 8 false) key (leBytes 8 e.pc) e.p false
        false).updThr s.cur.gid t fun x => { x with ret := x.ret.dropLast, spilled := x.spilled + 1 } := by
  subst hok
  unfold State.spill
  simp only [if_neg (Nat.not_lt.2 hfull), hlast, hreach]

end

/-! ### One thread at a branch (R224, R225, R283, R284) -/

section
variable {b : Turn} {rcv : Option Nat} {call : Bool}

/-- R225: the branch depends on a proposal, and PCTL.PBRT is set. -/
theorem State.branchThread_proposal (hdep : b.dep = true) (hpbrt : s.cg.ctl.pbrt = true) :
    s.branchThread b rcv call = s.trap b.t 0x04 0 :=
  if_pos (by rw [hdep, hpbrt, Bool.and_self])

section
variable (hdep : b.dep = true → s.cg.ctl.pbrt = false)
include hdep

theorem State.not_proposal : ¬ (b.dep && s.cg.ctl.pbrt) = true := by
  rw [Bool.and_eq_true]
  rintro ⟨hb, hpbrt⟩
  exact absurd (hdep hb) (by rw [hpbrt]; decide)

theorem State.branchThread_misaligned (htaken : b.taken = true) (htarget : b.target % 4 ≠ 0) :
    s.branchThread b rcv call = s.trap b.t 0x01 0 :=
  (if_neg (State.not_proposal hdep)).trans (if_pos (by simp [htaken, htarget]))

theorem State.branchThread_full (htaken : b.taken = true) (htarget : b.target % 4 = 0)
    (hfull : 8 + (s.spillAt s.cur.gid b.t).2 ≤ (s.thr s.cur.gid b.t).depth) :
    s.branchThread b rcv true = s.trap b.t 0x12 0 :=
  (if_neg (State.not_proposal hdep)).trans <| (if_neg (by simp [htarget])).trans (if_pos (by simp [htaken, hfull]))

/-- A branch that raises no trap, of a thread that the sweep has not stopped: a call's spill comes first. -/
theorem State.branchThread_spills (htarget : b.taken = true → b.target % 4 = 0)
    (hroom : b.taken = true → call = true →
      (s.thr s.cur.gid b.t).depth < 8 + (s.spillAt s.cur.gid b.t).2) {v : State}
    (hv : (if b.taken && call then s.spill b.t else s) = v) :
    s.branchThread b rcv call = if v.stopped b.t then v
      else (v.updThr s.cur.gid b.t fun x => x.branch v.cur b rcv call).movedAll [b.t] := by
  subst hv
  refine (if_neg (State.not_proposal hdep)).trans <| (if_neg ?_).trans (if_neg ?_)
  · rw [Bool.and_eq_true, decide_eq_true_eq]
    exact fun h => h.2 (htarget h.1)
  · rw [Bool.and_eq_true, Bool.and_eq_true, decide_eq_true_eq]
    exact fun h => Nat.not_le.2 (hroom h.1.1 h.1.2) h.2

end
end

section
variable {a rcv : Nat} {dep call : Bool}

/-- A thread that the guard leaves inactive goes on. -/
theorem State.branchThread_untaken (hdep : dep = true → s.cg.ctl.pbrt = false) (hgoes : s.stopped t = false) :
    s.branchThread ⟨t, false, a, dep⟩ (some rcv) call =
      (s.updThr s.cur.gid t fun x => Thread.advance { x with taint := x.taintedBy dep rcv } s.cur).movedAll [t] := by
  rw [State.branchThread_spills (b := ⟨t, false, a, dep⟩) hdep nofun nofun rfl]
  simp [hgoes, Thread.branch_untaken]

section
variable (hdep : dep = true → s.cg.ctl.pbrt = false) (htarget : a % 4 = 0)
include hdep htarget

theorem State.branchThread_jumps (hgoes : s.stopped t = false) :
    s.branchThread ⟨t, true, a, dep⟩ (some rcv) false =
      (s.updThr s.cur.gid t fun x =>
        { x with taint := x.taintedBy dep rcv, pos := ⟨a, 0⟩, loop := none }).movedAll [t] := by
  rw [State.branchThread_spills (b := ⟨t, true, a, dep⟩) (call := false) hdep (fun _ => htarget) nofun rfl]
  simp [hgoes, Thread.branch_jump]

section
variable (hroom : (s.thr s.cur.gid t).depth < 8 + (s.spillAt s.cur.gid t).2)
include hroom

/-- A call whose spill was stored, or that needed none. -/
theorem State.branchThread_calls {v : State} (hspill : s.spill t = v) (hgoes : v.stopped t = false) :
    s.branchThread ⟨t, true, a, dep⟩ (some rcv) true =
      (v.updThr s.cur.gid t fun x => { x with
        taint := x.taintedBy dep rcv, pos := ⟨a, 0⟩, loop := none
        ret := ⟨v.cur.nextHdr, !(x.taintedBy dep rcv).isEmpty⟩ :: x.ret }).movedAll [t] := by
  rw [State.branchThread_spills (b := ⟨t, true, a, dep⟩) (call := true) hdep (fun _ => htarget) (fun _ _ => hroom) hspill]
  simp [hgoes, Thread.branch_call]

/-- A call whose spill did not perform. -/
theorem State.branchThread_stops {v : State} (hspill : s.spill t = v) (hstop : v.stopped t = true) :
    s.branchThread ⟨t, true, a, dep⟩ (some rcv) true = v := by
  rw [State.branchThread_spills (b := ⟨t, true, a, dep⟩) (call := true) hdep (fun _ => htarget) (fun _ _ => hroom) hspill]
  exact if_pos hstop

end
end
end
end

/-! ### The turns of the path's threads -/

/-- The turn of a thread of the path at a branch: what it wants to do with the thread, whose target may be in a register. -/
def State.branchTurn (i : Instr) (target : Option Nat) (call : Bool) (rcv : Nat) (s : State) (t : Nat) : State :=
  if !s.cur.mask.contains t then s.branchThread ⟨t, false, 0, (s.thr s.cur.gid t).gbp⟩ (some rcv) call
  else match target with
    | some a => s.branchThread ⟨t, true, a, (s.thr s.cur.gid t).gbp⟩ (some rcv) call
    | none => match s.readOps s.cur.gid t (operands i) Vals.zero with
      | (u, .ok v) => u.branchThread ⟨t, true, v.a.toNat, (s.thr s.cur.gid t).gbp || v.p⟩ (some rcv) call
      | (u, .error r) => u.failRd [t] r

section
variable {s : State} {i : Instr} {g : Group} {target : Option Nat} {call : Bool}

theorem State.branchTurn_inactive {rcv t : Nat} (h : t ∉ s.cur.mask) : s.branchTurn i target call rcv t =
    s.branchThread ⟨t, false, 0, (s.thr s.cur.gid t).gbp⟩ (some rcv) call :=
  if_pos (by simp [h])

theorem State.branchTurn_active {u : State} {rcv t a : Nat} {dep : Bool} (h : t ∈ s.cur.mask)
    (hsrc : (target = some a ∧ u = s ∧ dep = (s.thr s.cur.gid t).gbp)
      ∨ ∃ v, target = none ∧ s.readOps s.cur.gid t (operands i) Vals.zero = (u, .ok v) ∧ v.a.toNat = a
        ∧ dep = ((u.thr u.cur.gid t).gbp || v.p)) :
    s.branchTurn i target call rcv t = u.branchThread ⟨t, true, a, dep⟩ (some rcv) call := by
  refine (if_neg (by simp [h])).trans ?_
  rcases hsrc with ⟨rfl, rfl, rfl⟩ | ⟨v, rfl, hread, rfl, rfl⟩
  · rfl
  · rw [hread, State.readOps_gbp hread, State.readOps_cur _ _ _ _ _ _ _ hread]

/-- The sign bit is set from half of the range on, in both spellings of the condition. -/
theorem lt_half_iff {n v : Nat} (h : v < 2 ^ n) : v < 2 ^ (n - 1) ↔ 2 * v < 2 ^ n := by
  cases n with
  | zero =>
    rw [Nat.pow_zero] at h ⊢
    omega
  | succ n =>
    rw [Nat.add_sub_cancel, Nat.pow_succ]
    omega

theorem signOf_toNat {n : Nat} (o : BitVec n) : signOf n o.toNat = o.toInt := by
  rw [signOf, BitVec.toInt_eq_toNat_cond, Nat.mod_eq_of_lt o.isLt]
  by_cases h : o.toNat < 2 ^ (n - 1)
  · rw [if_pos h, if_pos ((lt_half_iff o.isLt).1 h)]
  · rw [if_neg h, if_neg (mt (lt_half_iff o.isLt).2 h), Int.natCast_pow]
    rfl

theorem State.relTarget_eq (s : State) (o : BitVec 24) :
    s.relTarget o = (((s.cur.pos.hdr : Int) + 4 * o.toInt) % 2 ^ 64).toNat := by
  rw [State.relTarget, signOf_toNat]

theorem exec_branchForm (h : s.branchForm i = some (target, call)) : exec i s = .next (s.branch i target call) := by
  unfold State.branchForm at h
  split at h
  next o => cases h; rw [← s.relTarget_eq o]; rfl
  next o => cases h; rw [← s.relTarget_eq o]; rfl
  next => cases h; rfl
  next => cases h; rfl
  next => cases h

/-- Where the group's registers allow the instruction, each thread of the path takes its turn. -/
theorem State.branch_turns (hI : s.Issues i g) : s.branch i target call =
    (s.cur.path.foldl (State.branchTurn i target call
      (((s.cur.pos.hdr : Int) + 4 * signOf 32 (s.cur.lit 5)) % 2 ^ 64).toNat) s).splitEnds.finish := by
  unfold State.branch
  rw [s.cg_eq g hI.group]
  exact if_neg (by simp [hI.legal, hI.home])

end

/-! ### The statement -/

/-- Settles O19: the instruction gives each thread of the path its turn, and each clause is the case of that turn which its
conditions name. -/
theorem branchesAndCalls : Obligations.BranchesAndCalls := by
  intro s i g target call hI hform
  refine ⟨State.branchTurn i target call _, (exec_branchForm hform).trans (congrArg _ (State.branch_turns hI)), ?_⟩
  intro s1 s2 t hcur
  refine ⟨?guardTraps, ?goesOn, ?active⟩
  case guardTraps =>
    intro hmem hgbp hpbrt
    rw [← hcur] at hmem
    exact (State.branchTurn_inactive hmem).trans (State.branchThread_proposal hgbp hpbrt)
  case goesOn =>
    intro hmem hguard htrap hviol hstay hhold
    rw [← hcur] at hmem
    exact (State.branchTurn_inactive hmem).trans <|
      (State.branchThread_untaken hguard (State.stopped_eq_false htrap hviol hstay hhold)).trans
        (State.updThr_movedAll_congr [t] rfl)
  case active =>
    intro a dep hmem hsrc
    rw [← hcur] at hmem
    have hturn := fun rcv => State.branchTurn_active (call := call) (rcv := rcv) hmem hsrc
    refine ⟨fun hdep hpbrt => (hturn _).trans (State.branchThread_proposal hdep hpbrt), fun hdep => ⟨?_, ?_, ?_⟩⟩
    · exact fun htarget => (hturn _).trans (State.branchThread_misaligned hdep rfl htarget)
    · rintro htarget rfl hfull
      exact (hturn _).trans (State.branchThread_full hdep rfl htarget hfull)
    intro htarget htrap hviol hstay hhold
    have hgoes := State.stopped_eq_false htrap hviol hstay hhold
    refine ⟨?jumps, ?calls, ?spills⟩
    case jumps =>
      rintro rfl
      exact (hturn _).trans <| (State.branchThread_jumps hdep htarget hgoes).trans
        (State.updThr_movedAll_congr [t] rfl)
    case calls =>
      rintro rfl hlen hroom
      exact (hturn _).trans <| (State.branchThread_calls hdep htarget hroom (State.spill_room hlen) hgoes).trans
        (State.updThr_movedAll_congr [t] rfl)
    case spills =>
      rintro e s3 r rfl hlen hlast hroom
      refine fun hreach => ⟨fun hfail => ?_, fun key attr hok htrap hviol hstay hhold => ?_⟩
      · exact (hturn _).trans (State.branchThread_stops hdep htarget hroom
          (State.spill_fails hlen hlast hreach hfail) (State.failRes_stopped ..))
      · exact (hturn _).trans (State.branchThread_calls hdep htarget hroom
          (State.spill_stores hlen hlast hreach hok) (State.stopped_eq_false htrap hviol hstay hhold))

end Sys2Proof.Machine
end


section
/-! SUPPORT. Words and instructions (R246 to R250, R257, R258): the round trip of every instruction that has words,
and the words of every decoded instruction, format by format. -/

namespace Sys2Proof.Laws
open Sys2Proof

/-! ### From an instruction to its words and back -/

theorem RoundTrip.all (i : Instr) : RoundTrip.Statement i := by
  cases i with
  | powerOn | pcieFundamentalReset | managementPowerCycle | mapRebuild | linkDown | linkRetrainEnd | bridgeReplay
  | thermalThrottle | thermalFence | thermalReenable | pwrhRefresh | undervoltStep | monitorWindowExpiry
  | undervoltOverride | scanStart | scanPatternEnd | scanAbort | pldmSensorRead | pldmPowerLimit | undervoltLockClear
  | pldmUpdate | pldmFileRead | getMeasurements | challenge | doorbell | queueTail | queueEnable | bind | unbind
  | drain | unfreeze | kill | skip | registerWrite | hostAccess | inval | invalall | resize | resizeend | migrate
  | faultRecordMapped | faultRecordRefused | sliceRequest | tableWalk | granuleReopen | sideLogReplay | recordStage
  | discard | restart | blockClaim | watchdogExpiry | binTimerExpiry | binLaunch | activeMessageArrival | groupRetire
  | resultLanding | headerWait | loadReplay | starvationSwitch | turnLimit | cloneReplay | matrixCheck
  | copyTransferCompletion | completionWordWrite | batchWindowExpiry | updateArrival | contributionArrival | collectiveDelivery
  | collectiveBoundExpiry | waitWake | waitTimeout | waitaWake | pwaitReread | huddleRoundComplete | dcorRound
  | barComplete | pitcherStart | pitcherEnd | hardwareEnd | sourceEntryRequest | pldmDiscovery | schedulerCycle
  | clauseHeader => exact RoundTrip.event _ rfl
  | iadd => exact RoundTrip.iadd _ _ _ _
  | isub => exact RoundTrip.isub _ _ _ _
  | imul => exact RoundTrip.imul _ _ _
  | imulh => exact RoundTrip.imulh _ _ _ _
  | imad => exact RoundTrip.imad _ _ _ _
  | idiv => exact RoundTrip.idiv _ _ _ _
  | irem => exact RoundTrip.irem _ _ _ _
  | imin => exact RoundTrip.imin _ _ _ _
  | imax => exact RoundTrip.imax _ _ _ _
  | iabs => exact RoundTrip.iabs _ _ _
  | ineg => exact RoundTrip.ineg _ _ _
  | and => exact RoundTrip.and _ _ _
  | or => exact RoundTrip.or _ _ _
  | xor => exact RoundTrip.xor _ _ _
  | andn => exact RoundTrip.andn _ _ _
  | not => exact RoundTrip.not _ _
  | shl => exact RoundTrip.shl _ _ _
  | shr => exact RoundTrip.shr _ _ _
  | sar => exact RoundTrip.sar _ _ _
  | rotl => exact RoundTrip.rotl _ _ _
  | popc => exact RoundTrip.popc _ _
  | clz => exact RoundTrip.clz _ _
  | brev => exact RoundTrip.brev _ _
  | bfx => exact RoundTrip.bfx _ _ _ _ _
  | bfi => exact RoundTrip.bfi _ _ _ _
  | sel => exact RoundTrip.sel _ _ _ _
  | mov => exact RoundTrip.mov _ _
  | movi => exact RoundTrip.movi _ _
  | movh => exact RoundTrip.movh _ _
  | lea => exact RoundTrip.lea _ _ _ _
  | icmp => exact RoundTrip.icmp _ _ _ _
  | iaddD => exact RoundTrip.iaddD _ _ _
  | isubD => exact RoundTrip.isubD _ _ _
  | imulD => exact RoundTrip.imulD _ _ _
  | imadD => exact RoundTrip.imadD _ _ _ _
  | iminD => exact RoundTrip.iminD _ _ _ _
  | imaxD => exact RoundTrip.imaxD _ _ _ _
  | andD => exact RoundTrip.andD _ _ _
  | orD => exact RoundTrip.orD _ _ _
  | xorD => exact RoundTrip.xorD _ _ _
  | shlD => exact RoundTrip.shlD _ _ _
  | shrD => exact RoundTrip.shrD _ _ _
  | sarD => exact RoundTrip.sarD _ _ _
  | movD => exact RoundTrip.movD _ _
  | selD => exact RoundTrip.selD _ _ _ _
  | icmpD => exact RoundTrip.icmpD _ _ _ _
  | fadd => exact RoundTrip.fadd _ _ _ _
  | fsub => exact RoundTrip.fsub _ _ _ _
  | fmul => exact RoundTrip.fmul _ _ _ _
  | ffma => exact RoundTrip.ffma _ _ _ _ _
  | fmin => exact RoundTrip.fmin _ _ _
  | fmax => exact RoundTrip.fmax _ _ _
  | fabs => exact RoundTrip.fabs _ _
  | fneg => exact RoundTrip.fneg _ _
  | fcmp => exact RoundTrip.fcmp _ _ _ _
  | fclass => exact RoundTrip.fclass _ _
  | fscale => exact RoundTrip.fscale _ _ _ _
  | fcvt => exact RoundTrip.fcvt _ _ _ _
  | frnd => exact RoundTrip.frnd _ _ _
  | frcp => exact RoundTrip.frcp _ _ _
  | frsq => exact RoundTrip.frsq _ _
  | fsqrt => exact RoundTrip.fsqrt _ _ _
  | fexp2 => exact RoundTrip.fexp2 _ _
  | flog2 => exact RoundTrip.flog2 _ _
  | fsin => exact RoundTrip.fsin _ _
  | fcos => exact RoundTrip.fcos _ _
  | dadd => exact RoundTrip.dadd _ _ _ _
  | dsub => exact RoundTrip.dsub _ _ _ _
  | dmul => exact RoundTrip.dmul _ _ _ _
  | dfma => exact RoundTrip.dfma _ _ _ _ _
  | ddiv => exact RoundTrip.ddiv _ _ _ _
  | dsqrt => exact RoundTrip.dsqrt _ _ _
  | dcmp => exact RoundTrip.dcmp _ _ _ _
  | dcvt => exact RoundTrip.dcvt _ _ _ _
  | hadd2 => exact RoundTrip.hadd2 _ _ _ _
  | hmul2 => exact RoundTrip.hmul2 _ _ _ _
  | hfma2 => exact RoundTrip.hfma2 _ _ _ _ _
  | pand => exact RoundTrip.pand _ _ _ _
  | por => exact RoundTrip.por _ _ _ _
  | pxor => exact RoundTrip.pxor _ _ _ _
  | pnot => exact RoundTrip.pnot _ _
  | pmov => exact RoundTrip.pmov _ _
  | pset => exact RoundTrip.pset _ _
  | xchg => exact RoundTrip.xchg _ _ _ _
  | xbcast => exact RoundTrip.xbcast _ _ _
  | xscan => exact RoundTrip.xscan _ _ _ _
  | xred => exact RoundTrip.xred _ _ _
  | vote => exact RoundTrip.vote _ _ _
  | bra => exact RoundTrip.bra _
  | brx => exact RoundTrip.brx _
  | call => exact RoundTrip.call _
  | callx => exact RoundTrip.callx _
  | loop => exact RoundTrip.loop _ _ _ _ _ _ _ _
  | spawn => exact RoundTrip.spawn _ _ _
  | launch => exact RoundTrip.launch _
  | rgn => exact RoundTrip.rgn _
  | dead => exact RoundTrip.dead _ _
  | ld => exact RoundTrip.ld _ _ _ _ _
  | lda => exact RoundTrip.lda _ _ _ _ _
  | ldw => exact RoundTrip.ldw _ _ _ _ _
  | st => exact RoundTrip.st _ _ _ _ _
  | sta => exact RoundTrip.sta _ _ _ _ _
  | stw => exact RoundTrip.stw _ _ _ _ _
  | stP => exact RoundTrip.stP _ _ _ _ _
  | staP => exact RoundTrip.staP _ _ _ _ _
  | stwP => exact RoundTrip.stwP _ _ _ _ _
  | atom => exact RoundTrip.atom _ _ _ _ _
  | atoma => exact RoundTrip.atoma _ _ _ _ _
  | red => exact RoundTrip.red _ _ _ _ _
  | ldOff => exact RoundTrip.ldOff _ _ _ _ _
  | ldaOff => exact RoundTrip.ldaOff _ _ _ _ _
  | ldwOff => exact RoundTrip.ldwOff _ _ _ _ _
  | stOff => exact RoundTrip.stOff _ _ _ _ _
  | staOff => exact RoundTrip.staOff _ _ _ _ _
  | stwOff => exact RoundTrip.stwOff _ _ _ _ _
  | stPOff => exact RoundTrip.stPOff _ _ _ _ _
  | staPOff => exact RoundTrip.staPOff _ _ _ _ _
  | stwPOff => exact RoundTrip.stwPOff _ _ _ _ _
  | atomOff => exact RoundTrip.atomOff _ _ _ _ _
  | atomaOff => exact RoundTrip.atomaOff _ _ _ _ _
  | redOff => exact RoundTrip.redOff _ _ _ _ _
  | fence => exact RoundTrip.fence _ _
  | fencex => exact RoundTrip.fencex _ _ _ _
  | watch => exact RoundTrip.watch _ _
  | wait => exact RoundTrip.wait _ _
  | waita => exact RoundTrip.waita _ _
  | prf => exact RoundTrip.prf _
  | harm => exact RoundTrip.harm _ _
  | hsign => exact RoundTrip.hsign _
  | hpoll => exact RoundTrip.hpoll _ _
  | bar => exact RoundTrip.bar _ _
  | parr => exact RoundTrip.parr _
  | pwait => exact RoundTrip.pwait _ _
  | cpyGa => exact RoundTrip.cpyGa _ _ _ _
  | cpyAg => exact RoundTrip.cpyAg _ _ _ _
  | cpyw => exact RoundTrip.cpyw _
  | cpyt => exact RoundTrip.cpyt _ _
  | bcpy => exact RoundTrip.bcpy _ _ _
  | coll => exact RoundTrip.coll _ _
  | subs => exact RoundTrip.subs _ _
  | subsSync => exact RoundTrip.subsSync _ _
  | subx => exact RoundTrip.subx _ _
  | subf => exact RoundTrip.subf _ _
  | subfSrc => exact RoundTrip.subfSrc _
  | amsg => exact RoundTrip.amsg _ _ _ _ _
  | qpush => exact RoundTrip.qpush _ _
  | pitch => exact RoundTrip.pitch _ _ _ _
  | mcfg => exact RoundTrip.mcfg _ _ _
  | mzero => exact RoundTrip.mzero _
  | gath => exact RoundTrip.gath _ _ _ _ _ _ _ _
  | mma => exact RoundTrip.mma _ _ _ _ _ _ _ _ _ _ _
  | mmasS => exact RoundTrip.mmasS _ _ _ _ _ _ _ _ _ _ _
  | mmasV => exact RoundTrip.mmasV _ _ _ _ _ _ _ _ _ _
  | mol => exact RoundTrip.mol _ _
  | mdrn => exact RoundTrip.mdrn _ _ _ _
  | mstat => exact RoundTrip.mstat _ _ _
  | cvtb => exact RoundTrip.cvtb _ _ _ _
  | dcorD => exact RoundTrip.dcorD _ _ _ _
  | mfsr => exact RoundTrip.mfsr _ _
  | mtsr => exact RoundTrip.mtsr _ _
  | trap => exact RoundTrip.trap _
  | sysc => exact RoundTrip.sysc _
  | illegal => exact RoundTrip.illegal _
  | unassignedOpcode => exact RoundTrip.unassignedOpcode _
  | ret => exact RoundTrip.ret
  | join => exact RoundTrip.join
  | tail => exact RoundTrip.tail
  | yield => exact RoundTrip.yield
  | nop => exact RoundTrip.nop
  | qdrn => exact RoundTrip.qdrn
  | eret => exact RoundTrip.eret

/-- Settles O57: the round trip of each constructor, an event having no words. -/
theorem wordsOfInstructions : Obligations.WordsOfInstructions := by
  intro i w ws hwords hassigned
  exact RoundTrip.all i w ws hwords hassigned

/-! ### A word from its fields (R249)

A format is read from the opcode down to bit 0: each of its fields adds its own value at its place, and a reserved field adds
nothing. -/

/-- The number `n` has the bits of `w` from bit `lo` up, and the constant `r` below it. -/
def Spells (w : Word) (lo r n : Nat) : Prop := n = w.toNat / 2 ^ lo * 2 ^ lo + r

section
variable {w : Word} {c lo k r n : Nat}

/-- What a field adds to the bits above it. -/
theorem bits_add_field (a lo k : Nat) :
    a / 2 ^ (lo + k) * 2 ^ (lo + k) + a / 2 ^ lo % 2 ^ k * 2 ^ lo = a / 2 ^ lo * 2 ^ lo := by
  rw [Nat.pow_add, ← Nat.div_div_eq_div_mul, Nat.mul_comm (2 ^ lo) (2 ^ k), ← Nat.mul_assoc, ← Nat.add_mul,
    Nat.div_add_mod']

theorem fld_toNat (w : Word) (lo k : Nat) : (fld w lo k).toNat = w.toNat / 2 ^ lo % 2 ^ k := by
  simp only [fld, BitVec.toNat_ofNat]

theorem fieldIs_eq {v : Nat} (h : fieldIs w lo k v = true) : w.toNat / 2 ^ lo % 2 ^ k = v := by
  simpa only [fieldIs, beq_iff_eq] using h

/-- Above bit 31 a word has nothing. -/
theorem Spells.start (w : Word) (r : Nat) : Spells w 32 r r := by
  rw [Spells, Nat.div_eq_of_lt w.isLt, Nat.zero_mul, Nat.zero_add]

theorem Spells.opcodeWith (r : Nat) (h : opOf w = c) : Spells w 24 r (c * 16777216 + r) := by
  subst h
  exact Eq.refl (opOf w * 16777216 + r)

theorem Spells.opcode (h : opOf w = c) : Spells w 24 0 (c * 16777216) := by
  simpa only [Nat.add_zero] using Spells.opcodeWith 0 h

theorem Spells.field (lo k : Nat) (h : Spells w (lo + k) r n) : Spells w lo r (n + (fld w lo k).toNat * 2 ^ lo) := by
  rw [Spells] at h ⊢
  rw [h, fld_toNat, ← bits_add_field _ lo k]
  omega

/-- The topmost field of a word that has no opcode. -/
theorem Spells.lead (lo k : Nat) (h : Spells w (lo + k) 0 0) : Spells w lo 0 ((fld w lo k).toNat * 2 ^ lo) := by
  simpa only [Nat.zero_add] using h.field lo k

theorem Spells.reserved (h : Spells w (lo + k) r n) (hzero : fieldIs w lo k 0 = true) : Spells w lo r n := by
  rw [Spells] at h ⊢
  rw [h, ← bits_add_field _ lo k, fieldIs_eq hzero, Nat.zero_mul, Nat.add_zero]

/-- A field that ends at bit 0. -/
theorem Spells.last (k : Nat) (h : Spells w k 0 n) : BitVec.ofNat 32 (n + (fld w 0 k).toNat) = w := by
  rw [Spells] at h
  rw [h, fld_toNat, Nat.pow_zero, Nat.div_one, Nat.add_zero, Nat.div_add_mod', BitVec.ofNat_toNat, BitVec.setWidth_eq]

/-- A fixed part that ends at bit 0: the constant of the format. -/
theorem Spells.rest (h : Spells w k r n) (hfixed : fieldIs w 0 k r = true) : BitVec.ofNat 32 n = w := by
  have hr := fieldIs_eq hfixed
  rw [Nat.pow_zero, Nat.div_one] at hr
  rw [Spells] at h
  rw [h, ← hr, Nat.div_add_mod', BitVec.ofNat_toNat, BitVec.setWidth_eq]

/-! ### The formats, by the fields that they hold (R249) -/

theorem word_dabm (h : opOf w = c) :
    BitVec.ofNat 32 (c * 16777216 + (fld w 17 7).toNat * 131072 + (fld w 10 7).toNat * 1024
        + (fld w 3 7).toNat * 8 + (fld w 0 3).toNat) = w :=
  ((((Spells.opcode h).field 17 7).field 10 7).field 3 7).last 3

theorem word_dab (h : opOf w = c) (h0 : fieldIs w 0 3 0 = true) :
    BitVec.ofNat 32 (c * 16777216 + (fld w 17 7).toNat * 131072 + (fld w 10 7).toNat * 1024
        + (fld w 3 7).toNat * 8) = w :=
  ((((Spells.opcode h).field 17 7).field 10 7).field 3 7).rest h0

theorem word2_c (h0 : fieldIs w 0 25 0 = true) :
    BitVec.ofNat 32 ((fld w 25 7).toNat * 33554432) = w :=
  ((Spells.start w 0).lead 25 7).rest h0

theorem word_dam (h : opOf w = c) (h3 : fieldIs w 3 7 0 = true) :
    BitVec.ofNat 32 (c * 16777216 + (fld w 17 7).toNat * 131072 + (fld w 10 7).toNat * 1024
        + (fld w 0 3).toNat) = w :=
  ((((Spells.opcode h).field 17 7).field 10 7).reserved h3).last 3

theorem word_da (h : opOf w = c) (h0 : fieldIs w 0 10 0 = true) :
    BitVec.ofNat 32 (c * 16777216 + (fld w 17 7).toNat * 131072 + (fld w 10 7).toNat * 1024) = w :=
  (((Spells.opcode h).field 17 7).field 10 7).rest h0

theorem word_dImm17 (h : opOf w = c) :
    BitVec.ofNat 32 (c * 16777216 + (fld w 17 7).toNat * 131072 + (fld w 0 17).toNat) = w :=
  ((Spells.opcode h).field 17 7).last 17

theorem word_dImm16 (h : opOf w = c) (h16 : fieldIs w 16 1 0 = true) :
    BitVec.ofNat 32 (c * 16777216 + (fld w 17 7).toNat * 131072 + (fld w 0 16).toNat) = w :=
  (((Spells.opcode h).field 17 7).reserved h16).last 16

theorem word_dabn (h : opOf w = c) (h2 : fieldIs w 2 1 0 = true) :
    BitVec.ofNat 32 (c * 16777216 + (fld w 17 7).toNat * 131072 + (fld w 10 7).toNat * 1024
        + (fld w 3 7).toNat * 8 + (fld w 0 2).toNat) = w :=
  (((((Spells.opcode h).field 17 7).field 10 7).field 3 7).reserved h2).last 2

theorem word_off (h : opOf w = c) :
    BitVec.ofNat 32 (c * 16777216 + (fld w 0 24).toNat) = w :=
  (Spells.opcode h).last 24

theorem word_a (h : opOf w = c) (h17 : fieldIs w 17 7 0 = true) (h0 : fieldIs w 0 10 0 = true) :
    BitVec.ofNat 32 (c * 16777216 + (fld w 10 7).toNat * 1024) = w :=
  (((Spells.opcode h).reserved h17).field 10 7).rest h0

theorem word_none (h : opOf w = c) (h0 : fieldIs w 0 24 0 = true) :
    BitVec.ofNat 32 (c * 16777216) = w :=
  (Spells.opcode h).rest h0

theorem word_loop (h : opOf w = c) (h0 : fieldIs w 0 12 0 = true) :
    BitVec.ofNat 32 (c * 16777216 + (fld w 17 7).toNat * 131072 + (fld w 12 5).toNat * 4096) = w :=
  (((Spells.opcode h).field 17 7).field 12 5).rest h0

theorem word2_steps  :
    BitVec.ofNat 32 ((fld w 28 4).toNat * 268435456 + (fld w 24 4).toNat * 16777216
        + (fld w 20 4).toNat * 1048576 + (fld w 16 4).toNat * 65536 + (fld w 14 2).toNat * 16384
        + (fld w 0 14).toNat) = w :=
  ((((((Spells.start w 0).lead 28 4).field 24 4).field 20 4).field 16 4).field 14 2).last 14

theorem word_dafov (h : opOf w = c) :
    BitVec.ofNat 32 (c * 16777216 + (fld w 17 7).toNat * 131072 + (fld w 10 7).toNat * 1024
        + (fld w 6 4).toNat * 64 + (fld w 3 3).toNat * 8 + (fld w 0 3).toNat) = w :=
  (((((Spells.opcode h).field 17 7).field 10 7).field 6 4).field 3 3).last 3

theorem word_ov (h : opOf w = c) (h6 : fieldIs w 6 18 0 = true) :
    BitVec.ofNat 32 (c * 16777216 + (fld w 3 3).toNat * 8 + (fld w 0 3).toNat) = w :=
  (((Spells.opcode h).reserved h6).field 3 3).last 3

theorem word_daov (h : opOf w = c) (h6 : fieldIs w 6 4 0 = true) :
    BitVec.ofNat 32 (c * 16777216 + (fld w 17 7).toNat * 131072 + (fld w 10 7).toNat * 1024
        + (fld w 3 3).toNat * 8 + (fld w 0 3).toNat) = w :=
  (((((Spells.opcode h).field 17 7).field 10 7).reserved h6).field 3 3).last 3

theorem word_af (h : opOf w = c) (h17 : fieldIs w 17 7 0 = true) (h0 : fieldIs w 0 6 0 = true) :
    BitVec.ofNat 32 (c * 16777216 + (fld w 10 7).toNat * 1024 + (fld w 6 4).toNat * 64) = w :=
  ((((Spells.opcode h).reserved h17).field 10 7).field 6 4).rest h0

theorem word_waita (h : opOf w = c) (h0 : fieldIs w 0 10 256 = true) :
    BitVec.ofNat 32 (c * 16777216 + 256 + (fld w 17 7).toNat * 131072 + (fld w 10 7).toNat * 1024) = w :=
  (((Spells.opcodeWith 256 h).field 17 7).field 10 7).rest h0

theorem word_h (h : opOf w = c) (h10 : fieldIs w 10 14 0 = true) (h0 : fieldIs w 0 6 0 = true) :
    BitVec.ofNat 32 (c * 16777216 + (fld w 6 4).toNat * 64) = w :=
  (((Spells.opcode h).reserved h10).field 6 4).rest h0

theorem word_dh (h : opOf w = c) (h10 : fieldIs w 10 7 0 = true) (h0 : fieldIs w 0 6 0 = true) :
    BitVec.ofNat 32 (c * 16777216 + (fld w 17 7).toNat * 131072 + (fld w 6 4).toNat * 64) = w :=
  ((((Spells.opcode h).field 17 7).reserved h10).field 6 4).rest h0

theorem word_bar (h : opOf w = c) (h6 : fieldIs w 6 18 0 = true) (h3 : fieldIs w 3 2 0 = true) :
    BitVec.ofNat 32 (c * 16777216 + (fld w 5 1).toNat * 32 + (fld w 0 3).toNat) = w :=
  ((((Spells.opcode h).reserved h6).field 5 1).reserved h3).last 3

theorem word_t (h : opOf w = c) (h3 : fieldIs w 3 21 0 = true) :
    BitVec.ofNat 32 (c * 16777216 + (fld w 0 3).toNat) = w :=
  ((Spells.opcode h).reserved h3).last 3

theorem word_dt (h : opOf w = c) (h3 : fieldIs w 3 14 0 = true) :
    BitVec.ofNat 32 (c * 16777216 + (fld w 17 7).toNat * 131072 + (fld w 0 3).toNat) = w :=
  (((Spells.opcode h).field 17 7).reserved h3).last 3

theorem word_ab (h : opOf w = c) (h17 : fieldIs w 17 7 0 = true) (h0 : fieldIs w 0 3 0 = true) :
    BitVec.ofNat 32 (c * 16777216 + (fld w 10 7).toNat * 1024 + (fld w 3 7).toNat * 8) = w :=
  ((((Spells.opcode h).reserved h17).field 10 7).field 3 7).rest h0

theorem word2_mcfg (h21 : fieldIs w 21 11 0 = true) (h4 : fieldIs w 4 15 0 = true) :
    BitVec.ofNat 32 ((fld w 19 2).toNat * 524288 + (fld w 0 4).toNat) = w :=
  ((((Spells.start w 0).reserved h21).lead 19 2).reserved h4).last 4

theorem word2_tile (h21 : fieldIs w 21 11 0 = true) (h0 : fieldIs w 0 19 0 = true) :
    BitVec.ofNat 32 ((fld w 19 2).toNat * 524288) = w :=
  (((Spells.start w 0).reserved h21).lead 19 2).rest h0

theorem word2_gath (h19 : fieldIs w 19 6 0 = true) (h10 : fieldIs w 10 4 0 = true) (h2 : fieldIs w 2 7 0 = true) :
    BitVec.ofNat 32 ((fld w 25 7).toNat * 33554432 + (fld w 18 1).toNat * 262144 + (fld w 14 4).toNat * 16384
        + (fld w 9 1).toNat * 512 + (fld w 0 2).toNat) = w :=
  ((((((((Spells.start w 0).lead 25 7).reserved h19).field 18 1).field
    14 4).reserved h10).field 9 1).reserved h2).last 2

theorem word2_mma (h2 : fieldIs w 2 7 0 = true) :
    BitVec.ofNat 32 ((fld w 25 7).toNat * 33554432 + (fld w 21 4).toNat * 2097152
        + (fld w 19 2).toNat * 524288 + (fld w 18 1).toNat * 262144 + (fld w 14 4).toNat * 16384
        + (fld w 10 4).toNat * 1024 + (fld w 9 1).toNat * 512 + (fld w 0 2).toNat) = w :=
  (((((((((Spells.start w 0).lead 25 7).field 21 4).field 19 2).field 18 1).field
    14 4).field 10 4).field 9 1).reserved h2).last 2

theorem word2_mmasS (h3 : fieldIs w 3 6 0 = true) (h0 : fieldIs w 0 2 1 = true) :
    BitVec.ofNat 32 (1 + (fld w 25 7).toNat * 33554432 + (fld w 21 4).toNat * 2097152
        + (fld w 19 2).toNat * 524288 + (fld w 18 1).toNat * 262144 + (fld w 14 4).toNat * 16384
        + (fld w 10 4).toNat * 1024 + (fld w 9 1).toNat * 512 + (fld w 2 1).toNat * 4) = w :=
  ((((((((((Spells.start w 1).field 25 7).field 21 4).field 19 2).field 18 1).field
    14 4).field 10 4).field 9 1).reserved h3).field 2 1).rest h0

theorem word2_mdrn (h21 : fieldIs w 21 4 0 = true) (h4 : fieldIs w 4 15 0 = true) :
    BitVec.ofNat 32 ((fld w 25 7).toNat * 33554432 + (fld w 19 2).toNat * 524288 + (fld w 0 4).toNat) = w :=
  (((((Spells.start w 0).lead 25 7).reserved h21).field 19 2).reserved h4).last 4

theorem word_d (h : opOf w = c) (h0 : fieldIs w 0 17 0 = true) :
    BitVec.ofNat 32 (c * 16777216 + (fld w 17 7).toNat * 131072) = w :=
  ((Spells.opcode h).field 17 7).rest h0

theorem word2_mstat (h21 : fieldIs w 21 11 0 = true) (h1 : fieldIs w 1 18 0 = true) :
    BitVec.ofNat 32 ((fld w 19 2).toNat * 524288 + (fld w 0 1).toNat) = w :=
  ((((Spells.start w 0).reserved h21).lead 19 2).reserved h1).last 1

theorem word2_cvtb (h18 : fieldIs w 18 7 0 = true) (h0 : fieldIs w 0 14 0 = true) :
    BitVec.ofNat 32 ((fld w 25 7).toNat * 33554432 + (fld w 14 4).toNat * 16384) = w :=
  ((((Spells.start w 0).lead 25 7).reserved h18).field 14 4).rest h0

theorem word2_dcor (h25 : fieldIs w 25 7 0 = true) (h0 : fieldIs w 0 21 0 = true) :
    BitVec.ofNat 32 ((fld w 21 4).toNat * 2097152) = w :=
  (((Spells.start w 0).reserved h25).lead 21 4).rest h0

theorem word_dCtl (h : opOf w = c) (h12 : fieldIs w 12 5 0 = true) :
    BitVec.ofNat 32 (c * 16777216 + (fld w 17 7).toNat * 131072 + (fld w 0 12).toNat) = w :=
  (((Spells.opcode h).field 17 7).reserved h12).last 12

theorem word_num (h : opOf w = c) (h16 : fieldIs w 16 8 0 = true) :
    BitVec.ofNat 32 (c * 16777216 + (fld w 0 16).toNat) = w :=
  ((Spells.opcode h).reserved h16).last 16

theorem word_subfSrc (h : opOf w = c) (h0 : fieldIs w 0 17 1 = true) :
    BitVec.ofNat 32 (c * 16777216 + 1 + (fld w 17 7).toNat * 131072) = w :=
  ((Spells.opcodeWith 1 h).field 17 7).rest h0

theorem word2_mmasV (h18 : fieldIs w 18 1 0 = true) (h3 : fieldIs w 3 6 0 = true) (h0 : fieldIs w 0 2 2 = true) :
    BitVec.ofNat 32 (2 + (fld w 25 7).toNat * 33554432 + (fld w 21 4).toNat * 2097152
        + (fld w 19 2).toNat * 524288 + (fld w 14 4).toNat * 16384 + (fld w 10 4).toNat * 1024
        + (fld w 9 1).toNat * 512 + (fld w 2 1).toNat * 4) = w :=
  ((((((((((Spells.start w 2).field 25 7).field 21 4).field 19 2).reserved h18).field
    14 4).field 10 4).field 9 1).reserved h3).field 2 1).rest h0

end

/-! ### From words to an instruction and back -/

/-- The words that an instruction is decoded from: the second only where the opcode has one (R249). -/
def wordsUsed (w u : Word) : List Word := if twoWordOps.contains (opOf w) then [w, u] else [w]

/-- A decoding that gives an instruction loses none of the words that it used. -/
def Faithful (w u : Word) (r : Except DecErr Instr) : Prop := ∀ i, r = .ok i → encode i = wordsUsed w u

/-- Reserved fields are asked of a word together. -/
theorem both {a b : Bool} {P : Prop} (h : a = true → b = true → P) (hab : (a && b) = true) : P :=
  h (Bool.and_eq_true_iff.1 hab).1 (Bool.and_eq_true_iff.1 hab).2

section
variable {w u : Word} {c k n m : Nat} {i : Instr}

theorem Faithful.one (hop : opOf w = c) (hlen : twoWordOps.contains c = false) (hw : BitVec.ofNat 32 n = w)
    (hwords : encode i = [BitVec.ofNat 32 n]) : Faithful w u (.ok i) := by
  rintro _ ⟨⟩
  rw [hwords, hw, wordsUsed, hop, hlen]
  rfl

theorem Faithful.two (hop : opOf w = c) (hlen : twoWordOps.contains c = true) (hw : BitVec.ofNat 32 n = w)
    (hu : BitVec.ofNat 32 m = u) (hwords : encode i = [BitVec.ofNat 32 n, BitVec.ofNat 32 m]) :
    Faithful w u (.ok i) := by
  rintro _ ⟨⟩
  rw [hwords, hw, hu, wordsUsed, hop, hlen]
  rfl

/-- R259: an unassigned opcode is one word as it stands. -/
theorem Faithful.unassigned (hlen : twoWordOps.contains (opOf w) = false) : Faithful w u (.ok (.unassignedOpcode w)) := by
  rintro _ ⟨⟩
  rw [wordsUsed, hlen]
  rfl

theorem Faithful.error {e : DecErr} : Faithful w u (.error e) := by
  intro i h
  cases h

theorem Faithful.ite {b : Bool} {x y : Except DecErr Instr} (hx : b = true → Faithful w u x) (hy : Faithful w u y) :
    Faithful w u (if b then x else y) := by
  cases b with
  | true => exact hx rfl
  | false => exact hy

/-- R250: reserved bits that are set make a word no instruction. -/
theorem Faithful.guard {b : Bool} {x : Except DecErr Instr} {e : DecErr} (hx : b = true → Faithful w u x) :
    Faithful w u (if b then x else .error e) :=
  .ite hx .error

theorem faithful_row0 (hk : k < 16) (hop : opOf w = 0 + k) : Faithful w u (decodeRow0 w u k) := by
  unfold decodeRow0
  split
  case h_1 | h_2 | h_4 | h_6 | h_7 | h_8 | h_9 => exact .one hop rfl (word_dabm hop) rfl
  case h_3 | h_12 | h_13 | h_14 | h_15 => exact .guard fun h => .one hop rfl (word_dab hop h) rfl
  case h_5 => exact .guard (both fun h1 h2 => .two hop rfl (word_dab hop h1) (word2_c h2) rfl)
  case h_10 | h_11 => exact .guard fun h => .one hop rfl (word_dam hop h) rfl
  case h_16 => exact .guard fun h => .one hop rfl (word_da hop h) rfl
  case h_17 =>
    simp only [imp_false] at *
    exact .unassigned (by rw [hop]; simp [twoWordOps]; omega)

theorem faithful_row1 (hk : k < 16) (hop : opOf w = 16 + k) : Faithful w u (decodeRow1 w u k) := by
  unfold decodeRow1
  split
  case h_1 | h_2 | h_3 | h_4 => exact .guard fun h => .one hop rfl (word_dab hop h) rfl
  case h_5 | h_6 | h_7 | h_11 => exact .guard fun h => .one hop rfl (word_da hop h) rfl
  case h_8 => exact .guard fun h => .two hop rfl (word_dabm hop) (word2_c h) rfl
  case h_9 => exact .guard (both fun h1 h2 => .two hop rfl (word_dab hop h1) (word2_c h2) rfl)
  case h_10 | h_14 | h_15 => exact .one hop rfl (word_dabm hop) rfl
  case h_12 => exact .one hop rfl (word_dImm17 hop) rfl
  case h_13 => exact .guard fun h => .one hop rfl (word_dImm16 hop h) rfl
  case h_16 =>
    simp only [imp_false] at *
    exact .unassigned (by rw [hop]; simp [twoWordOps]; omega)

theorem faithful_row2 (hk : k < 16) (hop : opOf w = 32 + k) : Faithful w u (decodeRow2 w u k) := by
  unfold decodeRow2
  split
  case h_1 | h_2 | h_3 | h_7 | h_8 | h_9 | h_10 | h_11 | h_12 =>
    exact .guard fun h => .one hop rfl (word_dab hop h) rfl
  case h_4 => exact .guard (both fun h1 h2 => .two hop rfl (word_dab hop h1) (word2_c h2) rfl)
  case h_5 | h_6 | h_14 | h_15 => exact .one hop rfl (word_dabm hop) rfl
  case h_13 => exact .guard fun h => .one hop rfl (word_da hop h) rfl
  case h_16 =>
    simp only [imp_false] at *
    exact .unassigned (by rw [hop]; simp [twoWordOps]; omega)

theorem faithful_row3 (hk : k < 16) (hop : opOf w = 48 + k) : Faithful w u (decodeRow3 w u k) := by
  unfold decodeRow3
  split
  case h_1 | h_2 | h_3 | h_9 | h_11 | h_12 => exact .one hop rfl (word_dabm hop) rfl
  case h_4 => exact .guard fun h => .two hop rfl (word_dabm hop) (word2_c h) rfl
  case h_5 | h_6 => exact .guard fun h => .one hop rfl (word_dab hop h) rfl
  case h_7 | h_8 | h_10 => exact .guard fun h => .one hop rfl (word_da hop h) rfl
  case h_13 => exact .guard fun h => .one hop rfl (word_dam hop h) rfl
  case h_14 =>
    simp only [imp_false] at *
    exact .unassigned (by rw [hop]; simp [twoWordOps]; omega)

theorem faithful_row4 (hk : k < 16) (hop : opOf w = 64 + k) : Faithful w u (decodeRow4 w u k) := by
  unfold decodeRow4
  split
  case h_1 | h_3 => exact .guard fun h => .one hop rfl (word_dam hop h) rfl
  case h_2 | h_4 | h_5 | h_6 | h_7 => exact .guard fun h => .one hop rfl (word_da hop h) rfl
  case h_8 =>
    simp only [imp_false] at *
    exact .unassigned (by rw [hop]; simp [twoWordOps]; omega)

theorem faithful_row5 (hk : k < 16) (hop : opOf w = 80 + k) : Faithful w u (decodeRow5 w u k) := by
  unfold decodeRow5
  split
  case h_1 | h_2 | h_3 | h_5 | h_7 | h_8 | h_9 | h_10 => exact .one hop rfl (word_dabm hop) rfl
  case h_4 | h_11 => exact .guard fun h => .two hop rfl (word_dabm hop) (word2_c h) rfl
  case h_6 => exact .guard fun h => .one hop rfl (word_dam hop h) rfl
  case h_12 =>
    simp only [imp_false] at *
    exact .unassigned (by rw [hop]; simp [twoWordOps]; omega)

theorem faithful_row6 (hk : k < 16) (hop : opOf w = 96 + k) : Faithful w u (decodeRow6 w u k) := by
  unfold decodeRow6
  split
  case h_1 | h_2 | h_3 => exact .guard fun h => .one hop rfl (word_dabn hop h) rfl
  case h_4 | h_5 | h_6 => exact .guard fun h => .one hop rfl (word_da hop h) rfl
  case h_7 | h_9 => exact .one hop rfl (word_dabm hop) rfl
  case h_8 => exact .guard fun h => .one hop rfl (word_dab hop h) rfl
  case h_10 | h_11 => exact .guard fun h => .one hop rfl (word_dam hop h) rfl
  case h_12 =>
    simp only [imp_false] at *
    exact .unassigned (by rw [hop]; simp [twoWordOps]; omega)

theorem faithful_row7 (hk : k < 16) (hop : opOf w = 112 + k) : Faithful w u (decodeRow7 w u k) := by
  unfold decodeRow7
  split
  case h_1 | h_3 => exact .one hop rfl (word_off hop) rfl
  case h_2 | h_4 | h_9 | h_13 => exact .guard (both fun h1 h2 => .one hop rfl (word_a hop h2 h1) rfl)
  case h_5 | h_6 | h_10 | h_11 | h_12 => exact .guard fun h => .one hop rfl (word_none hop h) rfl
  case h_7 => exact .guard fun h => .two hop rfl (word_loop hop h) word2_steps rfl
  case h_8 => exact .guard fun h => .one hop rfl (word_dab hop h) rfl
  case h_14 => exact .guard fun h => .one hop rfl (word_dImm16 hop h) rfl
  case h_15 =>
    simp only [imp_false] at *
    exact .unassigned (by rw [hop]; simp [twoWordOps]; omega)

theorem faithful_row9 (hk : k < 16) (hop : opOf w = 144 + k) : Faithful w u (decodeRow9 w u k) := by
  unfold decodeRow9
  split
  case h_1 | h_2 | h_3 | h_4 | h_5 | h_6 | h_7 | h_8 | h_9 | h_10 | h_11 | h_12 =>
    exact .one hop rfl (word_dafov hop) rfl
  case h_13 =>
    simp only [imp_false] at *
    exact .unassigned (by rw [hop]; simp [twoWordOps]; omega)

theorem faithful_rowA (hk : k < 16) (hop : opOf w = 160 + k) : Faithful w u (decodeRowA w u k) := by
  unfold decodeRowA
  split
  case h_1 => exact .guard fun h => .one hop rfl (word_ov hop h) rfl
  case h_2 => exact .guard fun h => .one hop rfl (word_daov hop h) rfl
  case h_3 => exact .guard (both fun h1 h2 => .one hop rfl (word_af hop h2 h1) rfl)
  case h_4 => exact .guard fun h => .one hop rfl (word_da hop h) rfl
  case h_5 => exact .guard fun h => .one hop rfl (word_waita hop h) rfl
  case h_6 => exact .guard (both fun h1 h2 => .one hop rfl (word_a hop h2 h1) rfl)
  case h_7 =>
    simp only [imp_false] at *
    exact .unassigned (by rw [hop]; simp [twoWordOps]; omega)

theorem faithful_rowB (hk : k < 16) (hop : opOf w = 176 + k) : Faithful w u (decodeRowB w u k) := by
  unfold decodeRowB
  split
  case h_1 | h_2 | h_3 | h_4 | h_5 | h_6 | h_7 | h_8 | h_9 | h_10 | h_11 | h_12 =>
    exact .one hop rfl (word_dafov hop) rfl
  case h_13 =>
    simp only [imp_false] at *
    exact .unassigned (by rw [hop]; simp [twoWordOps]; omega)

theorem faithful_rowC (hk : k < 16) (hop : opOf w = 192 + k) : Faithful w u (decodeRowC w u k) := by
  unfold decodeRowC
  split
  case h_1 => exact .guard (both fun h1 h2 => .one hop rfl (word_af hop h2 h1) rfl)
  case h_2 => exact .guard (both fun h1 h2 => .one hop rfl (word_h hop h2 h1) rfl)
  case h_3 => exact .guard (both fun h1 h2 => .one hop rfl (word_dh hop h2 h1) rfl)
  case h_4 => exact .guard (both fun h1 h2 => .one hop rfl (word_bar hop h2 h1) rfl)
  case h_5 => exact .guard (both fun h1 h2 => .one hop rfl (word_a hop h2 h1) rfl)
  case h_6 => exact .guard fun h => .one hop rfl (word_da hop h) rfl
  case h_7 =>
    simp only [imp_false] at *
    exact .unassigned (by rw [hop]; simp [twoWordOps]; omega)

theorem faithful_rowD (hk : k < 16) (hop : opOf w = 208 + k) : Faithful w u (decodeRowD w u k) := by
  unfold decodeRowD
  split
  case h_1 | h_2 => exact .one hop rfl (word_dabm hop) rfl
  case h_3 => exact .guard fun h => .one hop rfl (word_t hop h) rfl
  case h_4 => exact .guard fun h => .one hop rfl (word_dt hop h) rfl
  case h_5 => exact .guard (both (both fun h1 h2 h3 => .two hop rfl (word_ab hop h2 h1) (word2_c h3) rfl))
  case h_6 | h_7 | h_8 | h_9 | h_12 => exact .guard fun h => .one hop rfl (word_da hop h) rfl
  case h_10 =>
    exact .ite (fun h => .one hop rfl (word_da hop h) rfl)
      (.guard fun h => .one hop rfl (word_subfSrc hop h) rfl)
  case h_11 => exact .guard fun h => .two hop rfl (word_dabm hop) (word2_c h) rfl
  case h_13 => exact .guard (both fun h1 h2 => .two hop rfl (word_dab hop h1) (word2_c h2) rfl)
  case h_14 => exact .guard fun h => .one hop rfl (word_none hop h) rfl
  case h_15 =>
    simp only [imp_false] at *
    exact .unassigned (by rw [hop]; simp [twoWordOps]; omega)

theorem faithful_rowE (hk : k < 16) (hop : opOf w = 224 + k) : Faithful w u (decodeRowE w u k) := by
  unfold decodeRowE
  split
  case h_1 =>
    exact .guard (both (both (both fun h1 h2 h3 h4 => .two hop rfl (word_a hop h2 h1) (word2_mcfg h4 h3) rfl)))
  case h_2 => exact .guard (both (both fun h1 h2 h3 => .two hop rfl (word_none hop h1) (word2_tile h3 h2) rfl))
  case h_3 =>
    exact .guard (both (both (both fun h1 h2 h3 h4 => .two hop rfl (word_dab hop h1) (word2_gath h4 h3 h2) rfl)))
  case h_4 => exact .guard (both fun h1 h2 => .two hop rfl (word_dab hop h1) (word2_mma h2) rfl)
  case h_5 =>
    exact .ite (both (both fun h1 h2 h3 => .two hop rfl (word_dab hop h1) (word2_mmasS h2 h3) rfl))
      (.guard (both (both (both fun h1 h2 h3 h4 => .two hop rfl (word_dab hop h1) (word2_mmasV h3 h2 h4) rfl))))
  case h_6 =>
    exact .guard (both (both (both fun h1 h2 h3 h4 => .two hop rfl (word_a hop h2 h1) (word2_tile h4 h3) rfl)))
  case h_7 =>
    exact .guard (both (both (both fun h1 h2 h3 h4 => .two hop rfl (word_a hop h2 h1) (word2_mdrn h4 h3) rfl)))
  case h_8 => exact .guard (both (both fun h1 h2 h3 => .two hop rfl (word_d hop h1) (word2_mstat h3 h2) rfl))
  case h_9 =>
    simp only [imp_false] at *
    exact .unassigned (by rw [hop]; simp [twoWordOps]; omega)

theorem faithful_rowF (hk : k < 16) (hop : opOf w = 240 + k) : Faithful w u (decodeRowF w u k) := by
  unfold decodeRowF
  split
  case h_1 => exact .guard (both (both fun h1 h2 h3 => .two hop rfl (word_da hop h1) (word2_cvtb h3 h2) rfl))
  case h_2 => exact .guard (both (both fun h1 h2 h3 => .two hop rfl (word_dab hop h1) (word2_dcor h3 h2) rfl))
  case h_3 | h_4 => exact .guard fun h => .one hop rfl (word_dCtl hop h) rfl
  case h_5 | h_7 => exact .guard fun h => .one hop rfl (word_num hop h) rfl
  case h_6 => exact .guard fun h => .one hop rfl (word_none hop h) rfl
  case h_8 => exact .one hop rfl (word_off hop) rfl
  case h_9 =>
    simp only [imp_false] at *
    exact .unassigned (by rw [hop]; simp [twoWordOps]; omega)

theorem faithful_decode (w u : Word) : Faithful w u (decode w u) := by
  have hlow : opOf w % 16 < 16 := Nat.mod_lt _ (by decide)
  unfold decode
  split
  case h_1 h => exact faithful_row0 hlow (by omega)
  case h_2 h => exact faithful_row1 hlow (by omega)
  case h_3 h => exact faithful_row2 hlow (by omega)
  case h_4 h => exact faithful_row3 hlow (by omega)
  case h_5 h => exact faithful_row4 hlow (by omega)
  case h_6 h => exact faithful_row5 hlow (by omega)
  case h_7 h => exact faithful_row6 hlow (by omega)
  case h_8 h => exact faithful_row7 hlow (by omega)
  case h_9 h => exact faithful_row9 hlow (by omega)
  case h_10 h => exact faithful_rowA hlow (by omega)
  case h_11 h => exact faithful_rowB hlow (by omega)
  case h_12 h => exact faithful_rowC hlow (by omega)
  case h_13 h => exact faithful_rowD hlow (by omega)
  case h_14 h => exact faithful_rowE hlow (by omega)
  case h_15 h => exact faithful_rowF hlow (by omega)
  case h_16 =>
    simp only [imp_false] at *
    exact .unassigned (by simp [twoWordOps]; omega)

end

/-- Settles O58: every row of the opcode map gives back the words that it read. -/
theorem instructionsOfWords : Obligations.InstructionsOfWords := by
  intro w u i hdecode
  have hwords := faithful_decode w u i hdecode
  rw [hwords, wordsUsed, lengthOf]
  split <;> simp

end Sys2Proof.Laws
end

section
/-! SUPPORT. Writes of control registers (R206, R212, R261) and what reset leaves (R115, R260, R316, R363). -/

namespace Sys2Proof.Machine
open Sys2Proof

/-! ### Window registers (R261) -/

section
variable (c : Ctl) (v : Nat) (p : Bool) {n : Nat}

theorem Ctl.put_wbase (hn : n < 8) : c.put (32 + 2 * n) v p =
    { c with wbase := c.wbase.set n ⟨BitVec.ofNat 64 (v / 4 % 2 ^ 21 * 4), p⟩ } := by
  match n, hn with
  | 0, _ | 1, _ | 2, _ | 3, _ | 4, _ | 5, _ | 6, _ | 7, _ => rfl

theorem Ctl.put_wlen (hn : n < 8) : c.put (33 + 2 * n) v p =
    { c with wlen := c.wlen.set n ⟨BitVec.ofNat 64 (v / 4 % 2 ^ 22 * 4), p⟩ } := by
  match n, hn with
  | 0, _ | 1, _ | 2, _ | 3, _ | 4, _ | 5, _ | 6, _ | 7, _ => rfl

end

/-- Settles O25: each register's own arm of the write, and the two window registers of each number. -/
theorem writesOfControlRegisters : Obligations.WritesOfControlRegisters := by
  intro c v p
  refine ⟨rfl, rfl, rfl, rfl, rfl, rfl, rfl, rfl, rfl, rfl, rfl, fun n hn => ⟨?_, ?_⟩⟩
  · exact c.put_wbase v p hn
  · exact c.put_wlen v p hn

/-! ### Reset values (R260, R363) -/

theorem replicate_getD {α : Type} (a d : α) {n i : Nat} (h : i < n) : (List.replicate n a).getD i d = a := by
  rw [List.getD_eq_getElem?_getD, List.getElem?_replicate, if_pos h, Option.getD_some]

/-- A list of copies of the default has the default everywhere, past its end too. -/
theorem replicate_getD_self {α : Type} (a : α) (n i : Nat) : (List.replicate n a).getD i a = a := by
  rw [List.getD_eq_getElem?_getD, List.getElem?_replicate]
  split
  · exact Option.getD_some
  · exact Option.getD_none

theorem Ctl.reset_window {n : Nat} (hn : n < 8) :
    Ctl.reset.wbase.getD n (CReg.of 1) = CReg.of 0 ∧ Ctl.reset.wlen.getD n (CReg.of 1) = CReg.of 0 :=
  ⟨replicate_getD _ _ hn, replicate_getD _ _ hn⟩

/-- No row of a tile is written at reset. -/
theorem Tile.reset_at (r c : Nat) : Tile.reset.at_ r c = 0 := rfl

theorem Tile.reset_rowP (r : Nat) : Tile.reset.rowP.getD r false = false := replicate_getD_self false 64 r

theorem Tile.reset_softmax {r : Nat} (hr : r < 64) :
    Tile.reset.m.getD r 0#32 = 0xFF800000#32 ∧ Tile.reset.l.getD r 1#32 = 0#32 :=
  ⟨replicate_getD _ _ hr, replicate_getD _ _ hr⟩

/-- Settles O55: the reset state, the control registers, the tile, the huddle and the thread at their first values, list by
list. -/
theorem resetState : Obligations.ResetState := by
  refine ⟨?mem, rfl, rfl, rfl, ?parts, rfl, rfl, rfl, rfl, rfl, rfl, rfl, rfl, rfl, rfl, rfl,
    fun n hn => Ctl.reset_window hn, Tile.reset_at, Tile.reset_rowP, rfl, rfl, fun r hr => Tile.reset_softmax hr,
    rfl, rfl, rfl, rfl, rfl, rfl, rfl, fun entry gen => ⟨rfl, rfl, rfl, rfl, rfl, rfl, rfl, rfl⟩⟩
  case mem => rfl
  case parts => decide

end Sys2Proof.Machine
end

section
/-! SUPPORT. Source operands (R121, R134, R138, R251): what a register may give, the address of a window's word, and what each code
reads. -/

namespace Sys2Proof.Machine
open Sys2Proof

/-! ### Registers (R121, R138) -/

section
variable (g : Group) (free t c : Nat)

theorem Group.mayRead_readReg (h : g.isDead t c = false) : g.mayRead t c (g.readReg free t c) := by
  rw [Group.mayRead, if_neg (by simp [h]), Group.readReg]
  cases hp : g.pendOn t c with
  | none => exact .inl rfl
  | some p =>
    cases hfree : Config.pendingRead free t p.code with
    | false => exact .inl (by simp [hfree])
    | true => exact .inr ⟨p, rfl, by simp [hfree]⟩

theorem Group.source_traps (hdead : g.isDead t c = true) (htrapd : g.ctl.trapd = true) : g.source free t c = none := by
  simp [Group.source, hdead, htrapd]

theorem Group.source_gives (h : g.isDead t c = false ∨ g.ctl.trapd = false) :
    ∃ r, g.mayRead t c r ∧ g.source free t c = some r := by
  cases hdead : g.isDead t c with
  | false => exact ⟨_, g.mayRead_readReg free t c hdead, by simp [Group.source, hdead]⟩
  | true =>
    have htrapd : g.ctl.trapd = false := h.resolve_left (by simp [hdead])
    exact ⟨Reg.zero, by simp [Group.mayRead, hdead], by simp [Group.source, hdead, htrapd]⟩

end

/-! ### Windows (R134) -/

section
variable (s : State) (gid t n : Nat)

theorem State.winAddr_dead (hdead : (s.grp gid).isDead t 79 = true) (htrapd : (s.grp gid).ctl.trapd = true) :
    s.winAddr gid t n = .error (0x02, 0) := by
  simp only [State.winAddr, Group.source_traps _ _ _ _ hdead htrapd]

/-- The window word that `x79` points at, or the trap WINDOW where it lies past the window or past the space. -/
theorem State.winAddr_source {r : Reg} (hr : (s.grp gid).source s.free t 79 = some r) :
    s.winAddr gid t n =
      let a := 4 * (s.grp gid).ctl.base n + 4 * r.v.toNat
      if (s.grp gid).ctl.len n ≤ r.v.toNat ∨ 2 ^ 23 < a + 4 then .error (0x11, a)
      else .ok (a, r.p || (s.grp gid).ctl.winP n) := by
  simp only [State.winAddr, hr, Bool.or_eq_true, decide_eq_true_eq]

theorem State.readWin_error {code a : Nat} (h : s.winAddr gid t n = .error (code, a)) :
    s.readWin gid t n = (s, .trap code a) := by
  rw [State.readWin, h]

theorem State.readWin_ok {u : State} {a key attr : Nat} {p : Bool} (h : s.winAddr gid t n = .ok (a, p))
    (hreach : s.reach (s.who gid t) (Acc.read .A a 4) = (u, .ok key attr)) :
    s.readWin gid t n = (u, .ok (BitVec.ofNat 64 (u.mem.num key 4)) (p || u.mem.anyP key 4)) := by
  simp only [State.readWin, h, hreach]

end

/-! ### Operand codes (R251) -/

section
variable (s : State) (gid t : Nat) (o : Operand)

theorem State.readOp_reg {r : Reg} (hc : o.code.toNat < 112) (hform : o.form.isPair = false)
    (hr : (s.grp gid).source s.free t o.code.toNat = some r) :
    s.readOp gid t o = (s, .ok (r.v.setWidth 64) r.p) := by
  simp only [State.readOp, if_pos hc, hr, hform, Bool.false_eq_true, if_false, BitVec.ofNat_toNat]

theorem State.readOp_pair {lo hi : Reg} (hc : o.code.toNat < 112) (hform : o.form.isPair = true)
    (hlo : (s.grp gid).source s.free t o.code.toNat = some lo)
    (hhi : (s.grp gid).source s.free t (o.code.toNat + 1) = some hi) :
    s.readOp gid t o = (s, .ok (Word.pair lo.v hi.v) (lo.p || hi.p)) := by
  simp only [State.readOp, if_pos hc, hlo, hhi, hform, if_true]

theorem State.readOp_dead (hc : o.code.toNat < 112) (htrapd : (s.grp gid).ctl.trapd = true)
    (hdead : (s.grp gid).isDead t o.code.toNat = true
      ∨ (o.form.isPair = true ∧ (s.grp gid).isDead t (o.code.toNat + 1) = true)) :
    s.readOp gid t o = (s, .trap 0x02 0) := by
  simp only [State.readOp, if_pos hc]
  rcases hdead with hdead | ⟨hform, hdead⟩
  · rw [Group.source_traps _ _ _ _ hdead htrapd]
  · cases (s.grp gid).source s.free t o.code.toNat with
    | none => rfl
    | some lo => simp only [hform, if_true, Group.source_traps _ _ _ _ hdead htrapd]

theorem State.readOp_window (hlo : 112 ≤ o.code.toNat) (hhi : o.code.toNat < 120) :
    s.readOp gid t o = s.readWin gid t (o.code.toNat - 112) := by
  simp only [State.readOp, if_neg (Nat.not_lt.2 hlo), if_pos hhi]

theorem State.readOp_z (hc : o.code.toNat = 120) : s.readOp gid t o = (s, .ok 0#64 false) := by
  simp [State.readOp, hc]

theorem State.readOp_lit (hc : o.code.toNat = 121) :
    s.readOp gid t o = (s, .ok (litVal o.form (s.cur.lit o.fld.num)) false) := by
  simp [State.readOp, hc]

theorem State.readOp_tix (hc : o.code.toNat = 122) : s.readOp gid t o = (s, .ok (BitVec.ofNat 64 t) false) := by
  simp [State.readOp, hc]

theorem State.readOp_lix (hc : o.code.toNat = 123) :
    s.readOp gid t o = (s, .ok (BitVec.ofNat 64 (s.grp gid).lix) false) := by
  simp [State.readOp, hc]

/-- R141: a queue's element that an earlier issue of the instruction popped for the thread. -/
theorem State.readOp_popped {r : Reg} (hc : 124 ≤ o.code.toNat)
    (hpop : kfind ((s.grp gid).thr t).popped (o.code.toNat - 124) = some r) :
    s.readOp gid t o = (s, .ok (r.v.setWidth 64) r.p) := by
  simp only [State.readOp, if_neg (show ¬ o.code.toNat < 112 by omega), if_neg (show ¬ o.code.toNat < 120 by omega),
    hpop, BitVec.ofNat_toNat]
  split
  next h => omega
  next h => omega
  next h => omega
  next h => omega
  next => rfl

end

/-! ### The statement -/

/-- Settles O9: a code reads what its range of R251 names, and the address of a window's word is taken from `x79` as any register
is read. -/
theorem sourceCodes : Obligations.SourceCodes := by
  refine ⟨fun s gid t o => ⟨?single, ?pair, ?dead, ?windowTraps, ?window, ?z, ?lit, ?tix, ?lix, ?popped⟩,
    fun s gid t n _ => ⟨?addrDead, ?addr⟩⟩
  case single =>
    intro hc hform hlive
    obtain ⟨r, hread, hsource⟩ := Group.source_gives _ s.free _ _ hlive
    exact ⟨r, hread, s.readOp_reg gid t o hc hform hsource⟩
  case pair =>
    intro hc hform hlive
    obtain ⟨lo, hreadLo, hlo⟩ := Group.source_gives _ s.free _ _ (hlive.imp_left And.left)
    obtain ⟨hi, hreadHi, hhi⟩ := Group.source_gives _ s.free _ _ (hlive.imp_left And.right)
    exact ⟨lo, hi, hreadLo, hreadHi, s.readOp_pair gid t o (Nat.lt_succ_of_lt hc) hform hlo hhi⟩
  case dead => exact s.readOp_dead gid t o
  case windowTraps =>
    intro hlo hhi code a haddr
    rw [s.readOp_window gid t o hlo hhi, s.readWin_error gid t _ haddr]
  case window =>
    intro hlo hhi a p u key attr haddr hreach
    rw [s.readOp_window gid t o hlo hhi, s.readWin_ok gid t _ haddr hreach]
  case z => exact s.readOp_z gid t o
  case lit => exact s.readOp_lit gid t o
  case tix => exact s.readOp_tix gid t o
  case lix => exact s.readOp_lix gid t o
  case popped => exact fun r => s.readOp_popped gid t o
  case addrDead => exact s.winAddr_dead gid t n
  case addr =>
    intro hlive
    obtain ⟨r, hread, hsource⟩ := Group.source_gives _ s.free _ _ hlive
    refine ⟨r, hread, fun hlen hspace => ?_, fun hout => ?_⟩
    · rw [s.winAddr_source gid t n hsource]
      exact if_neg (by omega)
    · rw [s.winAddr_source gid t n hsource]
      exact if_pos hout

end Sys2Proof.Machine
end

section
/-! SUPPORT. The checks before an instruction (R131, R259): every meaning of an instruction with words begins with them. -/

namespace Sys2Proof.Machine
open Sys2Proof

section
variable {s : State} {i : Instr} {g : Group}

/-- An instruction whose meaning begins at the shared checks. -/
theorem exec_refused_of_gate {k : State → State} (hexec : exec i s = .next (s.gate i k))
    (hg : kfind s.groups s.cur.gid = some g) (hbad : roleOk g.role i = false ∨ legal g.regs i = false) :
    exec i s = .next s.illegal := by
  rw [hexec, s.gate_fails i g k hg hbad]

/-- The sign of a matrix operation begins at them too. -/
theorem exec_refused_of_mmaSign {h kind : Nat} (hexec : exec i s = .next (s.mmaSign i h kind))
    (hg : kfind s.groups s.cur.gid = some g) (hbad : roleOk g.role i = false ∨ legal g.regs i = false) :
    exec i s = .next s.illegal := by
  rw [hexec, State.mmaSign]
  exact congrArg _ (s.gate_fails i g _ hg hbad)

/-- A branch, which every role may use, checks its operands itself. -/
theorem exec_refused_of_branch {target : Option Nat} {call : Bool} (hexec : exec i s = .next (s.branch i target call))
    (hrole : roleOk g.role i = true) (hg : kfind s.groups s.cur.gid = some g)
    (hbad : roleOk g.role i = false ∨ legal g.regs i = false) : exec i s = .next s.illegal := by
  have hlegal : legal g.regs i = false := hbad.resolve_left (by simp [hrole])
  rw [hexec, State.branch, s.cg_eq g hg]
  exact congrArg _ (if_pos (by simp [hlegal]))

/-- An instruction without operands, which every role may use, has nothing to fail. -/
theorem not_refused (hrole : roleOk g.role i = true) (hlegal : legal g.regs i = true) :
    ¬ (roleOk g.role i = false ∨ legal g.regs i = false) := by
  simp [hrole, hlegal]

end

/-- Settles O16: every meaning of an instruction with words begins at the shared checks, but the branches, which check their
operands themselves, and five instructions that no group's role or registers can refuse. -/
theorem checksBeforeExecution : Obligations.ChecksBeforeExecution := by
  intro s i g hwords hg hbad
  change exec i s = .next s.illegal
  cases i with
  | illegal | unassignedOpcode => rfl
  | bra | brx | call | callx => exact exec_refused_of_branch rfl rfl hg hbad
  | ret | join | tail | yield | nop => exact absurd hbad (not_refused rfl rfl)
  | powerOn | pcieFundamentalReset | managementPowerCycle | mapRebuild | linkDown | linkRetrainEnd | bridgeReplay
  | thermalThrottle | thermalFence | thermalReenable | pwrhRefresh | undervoltStep | monitorWindowExpiry
  | undervoltOverride | scanStart | scanPatternEnd | scanAbort | pldmSensorRead | pldmPowerLimit | undervoltLockClear
  | pldmUpdate | pldmFileRead | getMeasurements | challenge | doorbell | queueTail | queueEnable | bind | unbind
  | drain | unfreeze | kill | skip | registerWrite | hostAccess | inval | invalall | resize | resizeend | migrate
  | faultRecordMapped | faultRecordRefused | sliceRequest | tableWalk | granuleReopen | sideLogReplay | recordStage
  | discard | restart | blockClaim | watchdogExpiry | binTimerExpiry | binLaunch | activeMessageArrival | groupRetire
  | resultLanding | headerWait | loadReplay | starvationSwitch | turnLimit | cloneReplay | matrixCheck
  | copyTransferCompletion | completionWordWrite | batchWindowExpiry | updateArrival | contributionArrival | collectiveDelivery
  | collectiveBoundExpiry | waitWake | waitTimeout | waitaWake | pwaitReread | huddleRoundComplete | dcorRound
  | barComplete | pitcherStart | pitcherEnd | hardwareEnd | sourceEntryRequest | pldmDiscovery | schedulerCycle
  | clauseHeader => exact absurd rfl hwords
  | mma | mmasS | mmasV => exact exec_refused_of_mmaSign rfl hg hbad
  | _ => exact exec_refused_of_gate rfl hg hbad

end Sys2Proof.Machine
end

section
/-! SUPPORT. Loads (R252, R300, R302): the turn of a thread at a load, by what the checks of its access answer. -/

namespace Sys2Proof.Machine
open Sys2Proof

/-! ### A group's kind after the checks of an access -/

theorem Checked.grp_kind {s u : State} (h : Checked s u) (gid : Nat) : (u.grp gid).kind = (s.grp gid).kind := by
  have hgroup : (u.grp gid).unwatched = (s.grp gid).unwatched := by
    unfold State.grp
    rw [← kget_unwatched, ← kget_unwatched, h.groups]
  have hkind := congrArg Group.kind hgroup
  exact hkind

theorem Checked.cg_kind {s u : State} (h : Checked s u) : u.cg.kind = s.cg.kind := by
  rw [State.cg, h.cur, h.grp_kind, State.cg]

/-! ### Registers that a load fills (R118) -/

theorem State.pendRegs_noReg (s : State) {gid t code kind : Nat} {rs : List Reg} (h : 112 ≤ code) :
    s.pendRegs gid t code rs kind = s :=
  if_pos h

theorem State.pendRegs_home (s : State) {gid t code kind : Nat} {rs : List Reg} (h : code < 112)
    (hhome : (s.grp gid).kind ≠ .pitcher) : s.pendRegs gid t code rs kind =
      s.updGrp gid fun g => { g with pend := g.pend ++ [⟨t, code, rs, kind, none, [], g.replays t⟩] } :=
  (if_neg (Nat.not_le.2 h)).trans (if_neg hhome)

/-! ### One turn (R300, R302) -/

/-- What the answer of its access does to a thread of a home group at a load. -/
def State.loadEnds (s : State) (d f o v t : Nat) (tt : List Nat) (p : Bool) (addr : Nat) : Res → State
  | .ok key attr => s.pendRegs s.cur.gid t d (loadRegs f (unpack f (memCnt o v) (s.mem.read key (memLen f o v)))
      (p || s.mem.anyP key (memLen f o v) || attrBit attr 4)) 0
  | .outside attr => s.pendRegs s.cur.gid t d (loadRegs f (unpack f (memCnt o v) (s.remoteBytes t (memLen f o v)))
      (p || s.remoteP t || attrBit attr 4)) 0
  | .closed => s.holdAll tt true (d < 112)
  | r => s.failRes tt r addr

section
variable {s u : State} {i : Instr} {spc : Spc} {off : Bool} {d f o v t : Nat} {tt : List Nat} {x : Vals}
  (hread : s.readOps s.cur.gid t (operands i) Vals.zero = (u, .ok x))
include hread

theorem State.loadTurn_misaligned (halign : u.memAddr spc off x.a % memLen f o v ≠ 0) :
    s.loadTurn i spc off d f o v (t, tt) = u.trapAll tt 0x08 (u.memAddr spc off x.a) := by
  simp only [State.loadTurn, hread]
  exact if_pos halign

theorem State.loadTurn_aligned (hhome : u.cg.kind ≠ .pitcher) (halign : u.memAddr spc off x.a % memLen f o v = 0)
    {w : State} {r : Res} (hreach : u.reach (u.who u.cur.gid t)
      { Acc.read spc (u.memAddr spc off x.a) (memLen f o v) with sync := o ≠ 0 } = (w, r)) :
    s.loadTurn i spc off d f o v (t, tt) =
      w.loadEnds d f o v t tt (x.p || u.ambient tt) (u.memAddr spc off x.a) r := by
  have hchecked := u.reach_checked (u.who u.cur.gid t)
    { Acc.read spc (u.memAddr spc off x.a) (memLen f o v) with sync := o ≠ 0 }
  rw [hreach] at hchecked
  have hgid : w.cur.gid = s.cur.gid := by rw [hchecked.cur, State.readOps_cur _ _ _ _ _ _ _ hread]
  have hkind : w.cg.kind ≠ .pitcher := by rw [hchecked.cg_kind]; exact hhome
  rw [State.readOps_cur _ _ _ _ _ _ _ hread] at hreach
  simp only [State.loadTurn, hread]
  rw [if_neg (by simp [halign]), if_neg hhome]
  simp only [Acc.read] at hreach ⊢
  rw [hreach]
  cases r with
  | ok => simp only [State.loadEnds, hgid]
  | outside => simp only [State.loadEnds, hgid]
  | closed => exact if_neg hkind
  | trap => rfl
  | viol => rfl
  | waits => rfl
  | lost => rfl

end

/-! ### The whole sweep -/

section
variable {s : State} {i : Instr} {g : Group} {spc : Spc} {off : Bool} {d : Code} {f o v : Nat}

theorem exec_loadForm (h : loadForm i = some (spc, off, d, f, o, v)) :
    exec i s = .next (s.load i spc off d.toNat f o v) := by
  unfold loadForm at h
  split at h
  all_goals cases h
  all_goals rfl

/-- A load whose scope its launch has gives each thread its turn. -/
theorem State.load_turns (hI : s.Issues i g) (hpop : popNames i = []) (hscope : (g.levels s o v).isSome = true) :
    s.load i spc off d.toNat f o v =
      ((s.turns i).foldl (fun s u => s.loadTurn i spc off d.toNat f o v u) s).finish := by
  refine (s.gate_noQueue i g hI hpop _).trans (if_neg ?_)
  rw [s.cg_eq g hI.group]
  rw [Group.levels] at hscope
  by_cases ho : o = 0
  · simp [ho]
  · rw [if_neg ho] at hscope
    simp [Option.isSome_iff_ne_none.1 hscope]

end

/-! ### The statement -/

/-- Settles O28: each thread takes its turn, whose end is the answer of its access's checks. -/
theorem loads : Obligations.Loads := by
  intro i spc off d f o v s g hform hI hpop hscope
  refine ⟨fun s u => s.loadTurn i spc off d.toNat f o v u,
    (exec_loadForm hform).trans (congrArg _ (State.load_turns hI hpop hscope)), ?_⟩
  intro s1 s2 t tt x hread hhome
  refine ⟨State.loadTurn_misaligned hread, fun s3 r halign hreach => ?_⟩
  have hturn := State.loadTurn_aligned (d := d.toNat) (tt := tt) hread hhome halign hreach
  have hchecked := s2.reach_checked (s2.who s2.cur.gid t)
    { Acc.read spc (s2.memAddr spc off x.a) (memLen f o v) with sync := o ≠ 0 }
  rw [hreach] at hchecked
  have hkind : s3.cg.kind ≠ .pitcher := by rw [hchecked.cg_kind]; exact hhome
  refine ⟨?trap, ?viol, ?closed, ?waits, ?lost, ?discarded, ?loaded, ?outside⟩
  case trap => rintro c rfl; exact hturn
  case viol => rintro c rfl; exact hturn
  case closed => rintro rfl; exact hturn
  case waits => rintro rfl; exact hturn
  case lost => rintro rfl; exact hturn
  case discarded => rintro key attr rfl hd; exact hturn.trans (s3.pendRegs_noReg hd)
  case loaded => rintro key attr rfl hd; exact hturn.trans (s3.pendRegs_home hd hkind)
  case outside => rintro attr rfl hd; exact hturn.trans (s3.pendRegs_home hd hkind)

end Sys2Proof.Machine
end

section
/-! SUPPORT. Compares and predicate instructions (R256, R278): each is an ALU instruction whose answer is one bit. -/

namespace Sys2Proof.Machine
open Sys2Proof

/-! ### Conditions (R256) -/

theorem icond_eq_condBits {n : Nat} (c : Nat) (a b : BitVec n) : icond n c a.toNat b.toNat = condBits c a b :=
  match c with
  | 0 => Bool.eq_iff_iff.2 (by simp [icond, condBits, BitVec.toNat_inj])
  | 1 => Bool.eq_iff_iff.2 (by simp [icond, condBits, BitVec.toNat_inj])
  | 2 => by simp [icond, condBits, signOf_toNat, BitVec.slt]
  | 3 => by simp [icond, condBits, signOf_toNat, BitVec.sle]
  | 4 => by simp [icond, condBits, signOf_toNat, BitVec.slt]
  | 5 => by simp [icond, condBits, signOf_toNat, BitVec.sle]
  | 6 => rfl
  | _ + 7 => rfl

theorem u32_eq_lo (x : DWord) : u32 x = x.lo.toNat := by
  simp [u32, DWord.lo]

theorem toNat_mod_two_eq_getLsbD (n : BitVec 2) : (n.toNat % 2 == 1) = n.getLsbD 0 := by
  revert n; decide

theorem toNat_div_two_eq_getLsbD (n : BitVec 2) : (n.toNat / 2 == 1) = n.getLsbD 1 := by
  revert n; decide

theorem lo_ne_zero (v : DWord) : decide (v.toNat % 2 ^ 32 ≠ 0) = (v.lo != 0#32) := by
  refine Bool.eq_iff_iff.2 ?_
  rw [decide_eq_true_iff, bne_iff_ne, ne_eq, ne_eq, ← BitVec.toNat_inj, DWord.lo, BitVec.toNat_ofNat]
  rfl

/-! ### A sweep that writes a predicate -/

/-- The answer of an operation that gives one bit: the bit, no flag, no P of its own, and no draw. -/
theorem Group.answer_bool (g : Group) (ps : List Nat) (f : List Bool → Vals → Bool) (v : Vals) (t : Nat) :
    g.answer ps (fun e v => e.bool (f e.preds v)) v t =
      ⟨BitVec.ofNat 64 (if f ((ps.map (g.readPred t)).map PReg.v) v then 1 else 0), 0, false, (g.thr t).gen⟩ :=
  rfl

theorem ofBool_ne_zero (b : Bool) : decide (BitVec.ofNat 64 (if b then 1 else 0) ≠ 0#64) = b := by
  cases b <;> rfl

theorem raisedBy_zero (ts : List Nat) : raisedBy (fun _ => 0) ts = 0 := by
  induction ts with
  | nil => rfl
  | cons t ts ih => rw [raisedBy, List.foldl_cons, Nat.or_zero]; exact ih

/-- The thread's predicate after its turn; its generator stands. -/
theorem Thread.aluStep_bool (g : Group) (i : Instr) (n : Nat) (ps : List Nat) (f : List Bool → Vals → Bool) (v : Vals)
    (t : Nat) : (g.thr t).aluStep g i none ps (some n) (fun e v => e.bool (f e.preds v)) v t =
      { g.thr t with pr := (g.thr t).pr.set n ⟨f (ps.map fun n => ((g.thr t).pr.getD n PReg.zero).v) v,
        v.p || (ps.any fun n => ((g.thr t).pr.getD n PReg.zero).p) || !(g.thr t).taint.isEmpty || (g.thr t).gp⟩ } := by
  simp only [Thread.aluStep, Group.answerP, Group.answer_bool, ofBool_ne_zero, Group.ambientAny, Group.ambient,
    List.any_cons, List.any_nil, List.any_map, List.map_map, Bool.or_false, Bool.or_assoc]
  rfl

section
variable {s : State} {g : Group} {i : Instr} {n : Nat} {ps : List Nat} {f : List Bool → Vals → Bool} {v : Nat → Vals}

theorem exec_test {F : Env → Vals → Ans} (hexec : exec i s = .next (s.alu i none ps (some n) F))
    (hF : ∀ e v, F e v = e.bool (f e.preds v)) :
    exec i s = .next (s.alu i none ps (some n) fun e v => e.bool (f e.preds v)) := by
  rw [hexec, funext fun e => funext (hF e)]

/-- The instructions of R256 and R278 name D and the predicates that they read as numbers, and are ALU instructions. -/
theorem exec_predRow (h : predRow i = some (n, ps, f)) :
    exec i s = .next (s.alu i none ps (some n) fun e v => e.bool (f e.preds v)) := by
  unfold predRow at h
  split at h
  case h_11 => cases h
  all_goals
    simp only [Option.some.injEq, Prod.mk.injEq] at h
    obtain ⟨rfl, rfl, hf⟩ := h
  case h_1 => exact exec_test rfl fun e v => by rw [← hf, u32_eq_lo, u32_eq_lo, icond_eq_condBits]
  case h_2 => exact exec_test rfl fun e v => by rw [← hf, icond_eq_condBits]
  case h_3 | h_4 | h_8 | h_9 => exact exec_test rfl fun e v => by rw [← hf]
  case h_5 | h_6 | h_7 =>
    exact exec_test rfl fun e v => by rw [← hf, toNat_mod_two_eq_getLsbD, toNat_div_two_eq_getLsbD]
  case h_10 => exact exec_test rfl fun e v => by rw [← hf, lo_ne_zero]

theorem plainDst_of_noDst (h : (operands i).find? (fun o => o.fld = .D) = none) : PlainDst i := by
  intro o ho
  rw [h] at ho
  cases ho

theorem plainDst_of_predRow (h : predRow i = some (n, ps, f)) : PlainDst i := by
  unfold predRow at h
  split at h
  all_goals cases h
  all_goals exact plainDst_of_noDst rfl

theorem State.alu_meets_pred (hexec : exec i s = .next (s.alu i none ps (some n) fun e v => e.bool (f e.preds v)))
    (hI : s.Issues i g) (hplain : PlainSources i) (hdst : PlainDst i) (hread : s.Reads i v) (hu : isUniform i = false) :
    s.AluPred i g v n ps f := by
  obtain ⟨hout, h, hgroup, hkept, hg, hctl, hpend, hthr⟩ :=
    s.alu_result g i none ps (some n) (fun e v => e.bool (f e.preds v)) v hI hplain hdst nofun hu hread
      fun t _ => Nat.zero_and _
  refine ⟨_, h, hexec, hout, hgroup, hkept, ?ctl, ?pend, hg, fun t => ?_⟩
  case ctl => simpa only [Group.answer_bool, raisedBy_zero] using hctl
  case pend => simpa only [pendOf, List.flatMap_eq_nil_iff.2 fun _ _ => rfl] using hpend
  obtain ⟨hthread, hregs⟩ := hthr t
  by_cases ht : t ∈ s.cur.mask
  · simp only [ht, if_true, Thread.aluStep_bool] at hregs ⊢
    refine Thread.agrees (g.thr t) (h.thr t) _ _ hthread ?_ rfl hregs
    rfl
  · simp only [ht, if_false] at hregs ⊢
    exact ⟨hthread, hregs⟩

end

/-- Settles O6: each row of the table is an ALU sweep whose answer for a thread is one bit. -/
theorem predicateResults : Obligations.PredicateResults := by
  intro i n ps f s g v hrow hI hplain hread hu
  exact State.alu_meets_pred (exec_predRow hrow) hI hplain (plainDst_of_predRow hrow) hread hu

end Sys2Proof.Machine
end

section
/-! SUPPORT. Clause headers (R224, R225, R244, R247): the taint pops, and then the header is refused, parks the group or is
entered. -/

namespace Sys2Proof.Machine
open Sys2Proof

/-! ### Taint pops (R224) -/

theorem popTaint_eq_dropWhile (pc depth : Nat) (l : List Taint) :
    popTaint pc depth l = l.dropWhile fun e => e.pc = pc && e.depth = depth := by
  induction l with
  | nil => rfl
  | cons e es ih =>
    rw [popTaint, List.dropWhile_cons, ih]

theorem Group.thr_eq_getElem {g : Group} {t : Nat} (h : t < g.threads.length) : g.thr t = g.threads[t] := by
  rw [Group.thr, List.getD_eq_getElem?_getD, List.getElem?_eq_getElem h, Option.getD_some]

/-- Groups whose threads are all alike have the same threads. -/
theorem Group.threads_eq {g h : Group} (hsize : g.threads.length = h.threads.length) (hthr : ∀ t, g.thr t = h.thr t) :
    g.threads = h.threads := by
  refine List.ext_getElem hsize fun t hg hh => ?_
  rw [← Group.thr_eq_getElem hg, ← Group.thr_eq_getElem hh, hthr t]

section
variable {g h : Group}

/-- Threads of a path, each changed by its own function, and nothing else of the group. -/
theorem Group.fold_eq_of_thr {F : Nat → Thread → Thread} {path : List Nat} (hnodup : path.Nodup)
    (hpath : ∀ t ∈ path, t < g.threads.length) (hgroup : h = { g with threads := h.threads })
    (hsize : h.threads.length = g.threads.length) (hin : ∀ t ∈ path, h.thr t = F t (g.thr t))
    (hout : ∀ t, t ∉ path → h.thr t = g.thr t) : path.foldl (fun g t => g.updThr t (F t)) g = h := by
  obtain ⟨ts, hfold, hlen, hthr⟩ := Group.foldThr F path g hnodup hpath
  have hts : ts = h.threads := by
    refine Group.threads_eq (g := g.withThreads ts) (hlen.trans hsize.symm) fun t => ?_
    rw [hthr]
    split
    next ht => exact (hin t ht).symm
    next ht => exact (hout t ht).symm
  rw [hfold, hts, Group.withThreads, ← hgroup]

end

/-! ### The words of the header (R244) -/

/-- The taint entries of the path's threads pop. -/
def State.popTaints (s : State) : State :=
  s.updGrp s.cur.gid fun g => s.cur.path.foldl (fun g t => g.updThr t fun x =>
    { x with taint := popTaint s.cur.pos.hdr x.depth x.taint }) g

/-- A header of a home group once its words are there: refused as malformed, parked on its wait bits, or taken. -/
def State.headerServed (s : State) (ws : List Word) : State :=
  let h := ws.headD 0#32
  if hdrBad h then (s.trapAll s.cur.path 0x01 0).finish
  else if !s.waitsDone s.cur.gid (hdrWait h) then
    let s := s.updGrp s.cur.gid fun g => { g with gpark := some (.header (hdrWait h)) }
    (s.stayAll s.cur.path).finish
  else
    let s := s.deferredTaken (hdrWait h)
    if s.sweep.traps.isEmpty then s.enterClause ws
    else (s.stayAll (s.cur.path.filter fun t => !s.trapped t)).finish

/-- What the fetch of a header at `hdr` answers is served, by the kind of the group. -/
def headerAnswered (hdr : Nat) : State × Except (Res × Nat) (List Word) → State
  | (s, .error (r, va)) => s.headerFails r va
  | (s, .ok ws) =>
    let s := { s with cur := { s.cur with mask := s.cur.path, iaddr := hdr, sw := 0 } }
    match s.cg.kind, (s.core s.cg.core).run with
    | .pitcher, some p => s.pitchHeader p ws
    | _, _ => s.headerServed ws

theorem State.headerReached_eq (s : State) : s.headerReached = headerAnswered s.cur.pos.hdr
    (s.popTaints.fetchClause (s.popTaints.who s.popTaints.cur.gid (s.cur.path.headD 0)) s.cur.pos.hdr false) := by
  unfold State.headerReached
  rfl

section
variable {s s1 : State} {g : Group} {ws : List Word}

theorem headerAnswered_home {hdr : Nat} (hkind : s.cg.kind ≠ .pitcher) :
    headerAnswered hdr (s, .ok ws) =
      State.headerServed { s with cur := { s.cur with mask := s.cur.path, iaddr := hdr, sw := 0 } } ws := by
  rw [headerAnswered]
  split
  next hpitcher _ => exact absurd hpitcher hkind
  next => rfl

theorem exec_clauseHeader (hg : kfind s.groups s.cur.gid = some g) (hargs : g.argsDue = false) (hpath : s.cur.path ≠ []) :
    exec .clauseHeader s = .next s.headerReached := by
  change execClauseHeader s = _
  have hfetch : s.fetchArgs s.cur.gid = (s, .ok ()) := by
    rw [State.fetchArgs, s.grp_of_kfind _ g hg, hargs]
    rfl
  rw [execClauseHeader, if_neg (by simpa using hpath), hfetch]

theorem State.deferredTaken_none {bits : Nat} (hdue : ∀ d ∈ s.cg.deferred, d.dueAt bits = false) :
    s.deferredTaken bits = s := by
  have hnone : s.cg.deferred.filter (fun d => d.dueAt bits) = [] := by
    simpa using hdue
  simp only [State.deferredTaken, hnone, List.flatMap_nil, List.map_nil, List.min?_nil]

end

/-! ### The clause is entered (R225, R247) -/

theorem Thread.advance_eq (x : Thread) (c : Cur) : ∃ pos loop, x.advance c = { x with pos := pos, loop := loop } := by
  unfold Thread.advance
  split
  · exact ⟨_, _, rfl⟩
  · split
    · split
      · split <;> exact ⟨_, _, rfl⟩
      · exact ⟨_, _, rfl⟩
    · exact ⟨_, _, rfl⟩

/-- A thread of the path at a header: by whether some thread of the path is active there (`live`), whether the clause ends in a
branch (`br`) that depends on a proposal (`dep`), and the outcome of its own guard (`e`). -/
def Thread.headed (x : Thread) (c : Cur) (hdr n : Nat) (live br dep : Bool) (e : Bool × Bool) : Thread :=
  let x := { x with gact := e.1, gp := !br && e.2, gbp := br && e.2 }
  if live then { x with pos := ⟨hdr, 1⟩ }
  else if dep then { x with pos := ⟨hdr, n⟩ }
  else { x.advance { c with pos := ⟨hdr, n⟩ } with gp := false, gbp := false }

/-- Some thread of the path is active in the clause. -/
def Group.someActive (g : Group) (h : Word) (path : List Nat) : Bool := path.any fun t => (g.guard h t).1

/-- The clause ends in a branch, and the guard of some thread of the path is a proposal. -/
def Group.branchProposed (g : Group) (ws : List Word) (path : List Nat) : Bool :=
  endsInBranch ws && path.any fun t => (g.guard (ws.headD 0#32) t).2

/-- The issue context while the path is at the header. -/
def State.headCur (s : State) (ws : List Word) : Cur :=
  { s.cur with nextHdr := clauseEnd s.cur.pos.hdr ws, n := hdrN (ws.headD 0#32), sw := 0 }

/-- The path's threads at the header, and the clause among those that the group holds. -/
def Group.headed (g : Group) (c : Cur) (ws : List Word) : Group :=
  let h := ws.headD 0#32
  let gs := c.path.map fun t => (t, g.guard h t)
  let live := gs.any fun e => e.2.1
  let dep := endsInBranch ws && gs.any fun e => e.2.2
  gs.foldl (fun k e => k.updThr e.1 fun x => x.headed c c.pos.hdr (hdrN h) live (endsInBranch ws) dep e.2)
    { g with clauses := kset g.clauses c.pos.hdr ws }

theorem State.enterClause_eq (s : State) (ws : List Word) : s.enterClause ws =
    let u := State.updGrp { s with cur := s.headCur ws } s.cur.gid fun g => (g.headed (s.headCur ws) ws).pruneClauses
    (u.movedAll u.cur.path).finish := by
  unfold State.enterClause
  rfl

/-! ### One thread at the header -/

section
variable (x : Thread) (c : Cur) {hdr n : Nat} {live br dep : Bool} {e : Bool × Bool}

/-- What the header leaves of a thread. -/
theorem Thread.headed_eq : ∃ pos loop gp gbp, x.headed c hdr n live br dep e =
    { x with pos := pos, loop := loop, gact := e.1, gp := gp, gbp := gbp } := by
  unfold Thread.headed
  cases live with
  | true => exact ⟨_, _, _, _, rfl⟩
  | false =>
    cases dep with
    | true => exact ⟨_, _, _, _, rfl⟩
    | false =>
      obtain ⟨pos, loop, h⟩ := Thread.advance_eq { x with gact := e.1, gp := !br && e.2, gbp := br && e.2 }
        { c with pos := ⟨hdr, n⟩ }
      exact ⟨pos, loop, false, false, by simp [h]⟩

theorem Thread.headed_entered : x.headed c hdr n true br dep e =
    { x with gact := e.1, gp := !br && e.2, gbp := br && e.2, pos := ⟨hdr, 1⟩ } := rfl

theorem Thread.headed_branch : x.headed c hdr n false br true e =
    { x with gact := e.1, gp := !br && e.2, gbp := br && e.2, pos := ⟨hdr, n⟩ } := rfl

/-- Past a skipped clause a thread that is in no loop stands at the next header. -/
theorem Thread.headed_skipped_pos (hloop : x.loop = none) (hn : c.n = n) :
    (x.headed c hdr n false br false e).pos = ⟨c.nextHdr, 0⟩ := by
  simp [Thread.headed, Thread.advance, hn, hloop]

end

/-! ### The group at the header -/

section
variable {g : Group} {c : Cur} {ws : List Word}

theorem Group.headed_fold (g : Group) (c : Cur) (ws : List Word) : g.headed c ws =
    c.path.foldl (fun k t => k.updThr t fun x => x.headed c c.pos.hdr (hdrN (ws.headD 0#32))
      (g.someActive (ws.headD 0#32) c.path) (endsInBranch ws) (g.branchProposed ws c.path) (g.guard (ws.headD 0#32) t))
      { g with clauses := kset g.clauses c.pos.hdr ws } := by
  unfold Group.headed Group.someActive Group.branchProposed
  rw [List.foldl_map]
  simp only [List.any_map]
  rfl

/-- A thread of the path at the header. -/
def Group.headedThr (g : Group) (c : Cur) (ws : List Word) (t : Nat) : Thread :=
  (g.thr t).headed c c.pos.hdr (hdrN (ws.headD 0#32)) (g.someActive (ws.headD 0#32) c.path) (endsInBranch ws)
    (g.branchProposed ws c.path) (g.guard (ws.headD 0#32) t)

/-- What the header leaves of a thread. -/
theorem Group.headedThr_eq (g : Group) (c : Cur) (ws : List Word) (t : Nat) :
    ∃ pos loop gp gbp, g.headedThr c ws t = { g.thr t with
      pos := pos, loop := loop, gact := (g.guard (ws.headD 0#32) t).1, gp := gp, gbp := gbp } :=
  Thread.headed_eq ..

theorem Group.someActive_iff {h : Word} {path : List Nat} :
    g.someActive h path = true ↔ ∃ t ∈ path, (g.guard h t).1 = true :=
  List.any_eq_true

theorem Group.branchProposed_iff {path : List Nat} : g.branchProposed ws path = true ↔
    endsInBranch ws = true ∧ ∃ t ∈ path, (g.guard (ws.headD 0#32) t).2 = true := by
  rw [Group.branchProposed, Bool.and_eq_true, List.any_eq_true]

/-- Where a thread is active, each enters the clause at its first instruction. -/
theorem Group.headedThr_entered (hlive : g.someActive (ws.headD 0#32) c.path = true) (t : Nat) :
    g.headedThr c ws t = { g.thr t with
      gact := (g.guard (ws.headD 0#32) t).1, gp := !endsInBranch ws && (g.guard (ws.headD 0#32) t).2
      gbp := endsInBranch ws && (g.guard (ws.headD 0#32) t).2, pos := ⟨c.pos.hdr, 1⟩ } := by
  rw [Group.headedThr, hlive]
  exact Thread.headed_entered ..

/-- Where none is active, a branch that depends on a proposal is entered. -/
theorem Group.headedThr_branch (hlive : g.someActive (ws.headD 0#32) c.path = false)
    (hdep : g.branchProposed ws c.path = true) (t : Nat) : g.headedThr c ws t = { g.thr t with
      gact := (g.guard (ws.headD 0#32) t).1, gp := !endsInBranch ws && (g.guard (ws.headD 0#32) t).2
      gbp := endsInBranch ws && (g.guard (ws.headD 0#32) t).2, pos := ⟨c.pos.hdr, hdrN (ws.headD 0#32)⟩ } := by
  rw [Group.headedThr, hlive, hdep]
  exact Thread.headed_branch ..

theorem Group.headedThr_skipped_pos (hlive : g.someActive (ws.headD 0#32) c.path = false)
    (hdep : g.branchProposed ws c.path = false) {t : Nat} (hloop : (g.thr t).loop = none)
    (hn : c.n = hdrN (ws.headD 0#32)) : (g.headedThr c ws t).pos = ⟨c.nextHdr, 0⟩ := by
  rw [Group.headedThr, hlive, hdep]
  exact Thread.headed_skipped_pos _ _ hloop hn

theorem Group.headed_threads (hsize : g.threads.length = 16) (hnodup : c.path.Nodup) (hpath : ∀ t ∈ c.path, t < 16) :
    ∃ ts, ts.length = 16 ∧ g.headed c ws = { g with threads := ts, clauses := kset g.clauses c.pos.hdr ws }
      ∧ ∀ t ∈ c.path, (g.headed c ws).thr t = g.headedThr c ws t := by
  obtain ⟨ts, hfold, hlen, hthr⟩ := Group.foldThr (fun t x => x.headed c c.pos.hdr (hdrN (ws.headD 0#32))
      (g.someActive (ws.headD 0#32) c.path) (endsInBranch ws) (g.branchProposed ws c.path) (g.guard (ws.headD 0#32) t))
    c.path { g with clauses := kset g.clauses c.pos.hdr ws } hnodup fun t ht => by rw [hsize]; exact hpath t ht
  rw [Group.headed_fold, hfold]
  refine ⟨ts, hlen.trans hsize, rfl, fun t ht => ?_⟩
  rw [hthr, if_pos ht]
  rfl

theorem Group.pruneClauses_eq (g : Group) : ∃ cs, g.pruneClauses = { g with clauses := cs } := by
  unfold Group.pruneClauses
  split
  · exact ⟨g.clauses, rfl⟩
  · exact ⟨_, rfl⟩

/-- The clause in which a thread stands is kept. -/
theorem Group.pruneClauses_keeps {t : Nat} (ht : t < g.threads.length) :
    kfind g.pruneClauses.clauses (g.thr t).pos.hdr = kfind g.clauses (g.thr t).pos.hdr := by
  unfold Group.pruneClauses
  split
  · rfl
  · refine (kfind_filter (fun a => g.threads.any fun x => x.pos.hdr = a) g.clauses _).trans (if_pos ?_)
    refine List.any_eq_true.2 ⟨g.thr t, ?_, by simp⟩
    rw [Group.thr_eq_getElem ht]
    exact List.getElem_mem ht

end

/-! ### The sweep of a header that is taken -/

/-- The end of a sweep that has moved all of its path's threads itself. -/
theorem State.finish_movedAll {s : State} {g : Group} (hg : kfind s.groups s.cur.gid = some g)
    (hfreeze : g.toFreeze = none) (hsize : g.threads.length = 16) (hnodup : s.cur.path.Nodup)
    (hpath : ∀ t ∈ s.cur.path, t < 16) (hlive : ∃ t, t < 16 ∧ (g.thr t).life = .live) (hfresh : s.sweep = Sweep.reset) :
    ∃ x, kfind (s.movedAll s.cur.path).finish.groups s.cur.gid = some x ∧ (s.movedAll s.cur.path).finish.mem = s.mem
      ∧ x.clauses = g.clauses ∧ ∀ t ∈ s.cur.path, x.thr t = { g.thr t with
        popped := [], replay := false, stays := false, done := false, last := s.now } := by
  have hclean : (s.movedAll s.cur.path).sweep.Clean := by
    rw [State.movedAll, hfresh]
    exact ⟨rfl, rfl, rfl, rfl, rfl⟩
  obtain ⟨out, going, hfinish⟩ :=
    State.finish_clean (s.movedAll s.cur.path) g hg hclean hsize hnodup hpath hlive hfreeze
  obtain ⟨hkept, -, -, -, -, hthr⟩ :=
    g.swept_facts s.cur s.now (s.movedAll s.cur.path).sweep out going hsize hnodup hpath
  have hclauses : (g.swept s.cur s.now (s.movedAll s.cur.path).sweep out going).clauses = g.clauses := by rw [hkept]
  rw [hfinish]
  refine ⟨_, kfind_kset_self .., rfl, hclauses, fun t ht => ?_⟩
  refine (hthr t).trans ?_
  rw [if_pos ht]
  exact if_pos (by simp [State.movedAll, ht])

section
variable {s : State} {g : Group} {ws : List Word}

/-- The state at the end of the sweep of a header that is taken. -/
def State.entered (s : State) (g : Group) (ws : List Word) : State :=
  { s with cur := s.headCur ws, groups := kset s.groups s.cur.gid (g.headed (s.headCur ws) ws).pruneClauses }

theorem State.enterClause_entered (hg : kfind s.groups s.cur.gid = some g) :
    s.enterClause ws = ((s.entered g ws).movedAll s.cur.path).finish := by
  have hupd : (State.updGrp { s with cur := s.headCur ws } s.cur.gid fun g => (g.headed (s.headCur ws) ws).pruneClauses)
      = s.entered g ws := State.updGrp_eq _ _ _ g hg
  rw [State.enterClause_eq, hupd]
  rfl

/-- The end of a header that is taken: the threads stand where it sent them, and the clause is held where one stands in it. -/
theorem State.enterClause_ends (hg : kfind s.groups s.cur.gid = some g) (hfreeze : g.toFreeze = none)
    (hsize : g.threads.length = 16) (hne : s.cur.path ≠ []) (hnodup : s.cur.path.Nodup)
    (hpath : ∀ t ∈ s.cur.path, t < 16 ∧ (g.thr t).life = .live) (hfresh : s.sweep = Sweep.reset) :
    ∃ x, kfind (s.enterClause ws).groups s.cur.gid = some x ∧ (s.enterClause ws).mem = s.mem
      ∧ (∀ t ∈ s.cur.path, (g.headedThr (s.headCur ws) ws t).pos.hdr = s.cur.pos.hdr →
        kfind x.clauses s.cur.pos.hdr = some ws)
      ∧ ∀ t ∈ s.cur.path, x.thr t = { g.headedThr (s.headCur ws) ws t with
        popped := [], replay := false, stays := false, done := false, last := s.now } := by
  have hlt : ∀ t ∈ s.cur.path, t < 16 := fun t ht => (hpath t ht).1
  obtain ⟨ts, hlen, hheaded, hthr⟩ := Group.headed_threads (g := g) (c := s.headCur ws) (ws := ws) hsize hnodup hlt
  obtain ⟨cs, hprune⟩ := (g.headed (s.headCur ws) ws).pruneClauses_eq
  have hprunethr : ∀ t ∈ s.cur.path,
      (g.headed (s.headCur ws) ws).pruneClauses.thr t = g.headedThr (s.headCur ws) ws t := fun t ht => by
    rw [hprune]
    exact hthr t ht
  have hsize' : (g.headed (s.headCur ws) ws).threads.length = 16 := by rw [hheaded]; exact hlen
  have hheld : kfind (g.headed (s.headCur ws) ws).clauses s.cur.pos.hdr = some ws := by
    rw [hheaded]
    exact kfind_kset_self ..
  obtain ⟨t, ht⟩ := List.exists_mem_of_ne_nil _ hne
  obtain ⟨pos, loop, gp, gbp, hx⟩ := g.headedThr_eq (s.headCur ws) ws t
  have hlive : ((g.headed (s.headCur ws) ws).pruneClauses.thr t).life = .live := by
    rw [hprunethr t ht, hx]
    exact (hpath t ht).2
  obtain ⟨x, hfound, hmem, hclauses, hxthr⟩ := State.finish_movedAll (s := s.entered g ws)
    (kfind_kset_self ..) (by rw [hprune, hheaded]; exact hfreeze) (by rw [hprune]; exact hsize') hnodup hlt
    ⟨t, hlt t ht, hlive⟩ hfresh
  rw [State.enterClause_entered hg]
  refine ⟨x, hfound, hmem, fun t ht hpos => ?_, fun t ht => ?_⟩
  · have hkeeps := Group.pruneClauses_keeps (g := g.headed (s.headCur ws) ws) (t := t) (by rw [hsize']; exact hlt t ht)
    rw [hthr t ht, hpos, hheld] at hkeeps
    rw [hclauses]
    exact hkeeps
  · rw [hxthr t ht, hprunethr t ht]
    rfl

/-- Where the path stands after a header that is taken, and what the group and its threads hold there (R225, R247). -/
theorem State.enterClause_guarded (hg : kfind s.groups s.cur.gid = some g) (hfreeze : g.toFreeze = none)
    (hsize : g.threads.length = 16) (hne : s.cur.path ≠ []) (hnodup : s.cur.path.Nodup)
    (hpath : ∀ t ∈ s.cur.path, t < 16 ∧ (g.thr t).life = .live) (hfresh : s.sweep = Sweep.reset) :
    let a := s.cur.pos.hdr
    let h := ws.headD 0#32
    let act := fun t => (g.guard h t).1 = true
    let pred := fun t => (g.guard h t).2 = true
    ∃ x, kfind (s.enterClause ws).groups s.cur.gid = some x ∧ (s.enterClause ws).mem = s.mem
      ∧ (∀ t ∈ s.cur.path,
        (x.thr t).x = (g.thr t).x ∧ (x.thr t).pr = (g.thr t).pr ∧ (x.thr t).taint = (g.thr t).taint)
      ∧ ((∃ t ∈ s.cur.path, act t) → kfind x.clauses a = some ws ∧ ∀ t ∈ s.cur.path, (x.thr t).pos = ⟨a, 1⟩)
      ∧ ((∀ t ∈ s.cur.path, ¬ act t) → endsInBranch ws = true → (∃ t ∈ s.cur.path, pred t) →
        kfind x.clauses a = some ws ∧ ∀ t ∈ s.cur.path, (x.thr t).pos = ⟨a, hdrN h⟩)
      ∧ ((∀ t ∈ s.cur.path, ¬ act t) → (endsInBranch ws = false ∨ ∀ t ∈ s.cur.path, ¬ pred t) →
        ∀ t ∈ s.cur.path, (g.thr t).loop = none → (x.thr t).pos = ⟨clauseEnd a ws, 0⟩)
      ∧ ∀ t ∈ s.cur.path, ((x.thr t).gact = true ↔ act t)
        ∧ (((∃ u ∈ s.cur.path, act u) ∨ (endsInBranch ws = true ∧ ∃ u ∈ s.cur.path, pred u)) →
          ((x.thr t).gp = true ↔ endsInBranch ws = false ∧ pred t)
          ∧ ((x.thr t).gbp = true ↔ endsInBranch ws = true ∧ pred t)) := by
  intro a h act pred
  obtain ⟨x, hx, hmem, hheld, hthr⟩ := State.enterClause_ends (ws := ws) hg hfreeze hsize hne hnodup hpath hfresh
  obtain ⟨t0, ht0⟩ := List.exists_mem_of_ne_nil _ hne
  have hidle : (∀ t ∈ s.cur.path, ¬ act t) → g.someActive h s.cur.path = false := fun hidle => by
    rw [← Bool.not_eq_true, Group.someActive_iff]
    rintro ⟨t, ht, hact⟩
    exact hidle t ht hact
  refine ⟨x, hx, hmem, fun t ht => ?regs, fun hact => ?entered, fun hall hbr hpred => ?branch,
    fun hall hnone t ht hloop => ?skipped, fun t ht => ⟨?gact, fun hin => ?proposals⟩⟩
  case regs =>
    obtain ⟨pos, loop, gp, gbp, hheaded⟩ := g.headedThr_eq (s.headCur ws) ws t
    rw [hthr t ht, hheaded]
    exact ⟨rfl, rfl, rfl⟩
  case entered =>
    have hheaded := Group.headedThr_entered (c := s.headCur ws) (Group.someActive_iff.2 hact)
    exact ⟨hheld t0 ht0 (by rw [hheaded]; rfl), fun t ht => by rw [hthr t ht, hheaded]; rfl⟩
  case branch =>
    have hheaded := Group.headedThr_branch (c := s.headCur ws) (hidle hall) (Group.branchProposed_iff.2 ⟨hbr, hpred⟩)
    exact ⟨hheld t0 ht0 (by rw [hheaded]; rfl), fun t ht => by rw [hthr t ht, hheaded]; rfl⟩
  case skipped =>
    have hdep : g.branchProposed ws s.cur.path = false := by
      rw [← Bool.not_eq_true, Group.branchProposed_iff]
      rintro ⟨hbr, t, ht, hpred⟩
      exact hnone.elim (fun hno => by rw [hno] at hbr; cases hbr) fun hno => hno t ht hpred
    rw [hthr t ht]
    exact Group.headedThr_skipped_pos (c := s.headCur ws) (hidle hall) hdep hloop rfl
  case gact =>
    obtain ⟨pos, loop, gp, gbp, hheaded⟩ := g.headedThr_eq (s.headCur ws) ws t
    rw [hthr t ht, hheaded]
  case proposals =>
    have hguard : (x.thr t).gp = (!endsInBranch ws && (g.guard h t).2)
        ∧ (x.thr t).gbp = (endsInBranch ws && (g.guard h t).2) := by
      rw [hthr t ht]
      cases hlive : g.someActive h s.cur.path with
      | true =>
        rw [Group.headedThr_entered (c := s.headCur ws) hlive]
        exact ⟨rfl, rfl⟩
      | false =>
        have hdep : g.branchProposed ws s.cur.path = true := Group.branchProposed_iff.2
          (hin.resolve_left fun hact => by rw [Group.someActive_iff.2 hact] at hlive; cases hlive)
        rw [Group.headedThr_branch (c := s.headCur ws) hlive hdep]
        exact ⟨rfl, rfl⟩
    rw [hguard.1, hguard.2]
    simp [pred]

end

/-! ### The statement -/

section
variable {s s1 : State} {g g0 : Group} {h : Word} {t : Nat}

theorem Group.guard_active :
    (g.guard h t).1 = true ↔ hdrGen h = false ∨ ((g.readPred t (hdrPred h)).v != hdrNeg h) = true := by
  unfold Group.guard
  cases hdrGen h <;> simp

theorem Group.guard_proposed : (g.guard h t).2 = true ↔ hdrGen h = true ∧ (g.readPred t (hdrPred h)).p = true := by
  unfold Group.guard
  cases hdrGen h <;> simp

theorem kget_of_unlisted {α : Type} (d : α) (m : List (Nat × α)) (n : Nat) (hn : kfind m n = none) : kget d m n = d := by
  induction m with
  | nil => rfl
  | cons e m ih =>
    rw [kfind] at hn
    split at hn
    · cases hn
    next hne => rw [kget, if_neg hne, ih hn]

/-- A group that has threads is listed. -/
theorem State.kfind_of_cg (hcg : s.cg = g) (hthreads : g.threads ≠ []) : kfind s.groups s.cur.gid = some g := by
  cases hfound : kfind s.groups s.cur.gid with
  | some k => rw [← hcg, s.cg_eq k hfound]
  | none =>
    rw [State.cg, State.grp, kget_of_unlisted _ _ _ hfound] at hcg
    exact absurd (congrArg Group.threads hcg.symm) hthreads

theorem State.popTaints_eq (hg : kfind s.groups s.cur.gid = some g) (hsize : g.threads.length = 16)
    (hnodup : s.cur.path.Nodup) (hpath : ∀ t ∈ s.cur.path, t < 16) (hgroup : g0 = { g with threads := g0.threads })
    (hsize0 : g0.threads.length = 16) (hout : ∀ t, t ∉ s.cur.path → g0.thr t = g.thr t)
    (hin : ∀ t ∈ s.cur.path, g0.thr t = { g.thr t with
      taint := (g.thr t).taint.dropWhile fun e => e.pc = s.cur.pos.hdr && e.depth = (g.thr t).depth }) :
    s.popTaints = s.setGrp s.cur.gid g0 := by
  rw [State.popTaints, State.updGrp_eq _ _ _ g hg, State.setGrp]
  rw [Group.fold_eq_of_thr hnodup (fun t ht => by rw [hsize]; exact hpath t ht) hgroup (hsize0.trans hsize.symm)
    (fun t ht => (hin t ht).trans (by rw [popTaint_eq_dropWhile])) hout]

end

/-- Settles O18: after the taint pops a header of a home group is served, and one that is taken sends its path by the guard. -/
theorem clauseHeaders : Obligations.ClauseHeaders := by
  intro s s1 g g0 ws hg hhome hargs hfreeze hsize hne hnodup hpath hfresh a hgroup hsize0 hout hin s0 hfetch hcg hcur
    hfresh1 h c act pred
  have hpop : s.popTaints = s0 := State.popTaints_eq hg hsize hnodup (fun t ht => (hpath t ht).1) hgroup hsize0 hout hin
  have hhome0 : s1.cg.kind ≠ .pitcher := by rw [hcg, hgroup]; exact hhome
  have hserved : exec .clauseHeader s = .next (c.headerServed ws) := by
    rw [exec_clauseHeader hg hargs hne, State.headerReached_eq, hpop]
    have hfetch' : s0.fetchClause (s0.who s0.cur.gid (s.cur.path.headD 0)) s.cur.pos.hdr false = (s1, .ok ws) := hfetch
    rw [hfetch', headerAnswered_home hhome0, hcur]
  have hg0 : kfind c.groups c.cur.gid = some g0 := by
    have hlisted := State.kfind_of_cg hcg (by rw [← List.length_pos_iff, hsize0]; decide)
    rw [hcur] at hlisted
    exact hlisted
  rw [hserved, State.headerServed]
  refine ⟨fun hbad => ?malformed, fun hgood hwait => ?waits, fun hgood hwait hdue => ?taken⟩
  case malformed => rw [if_pos hbad]
  case waits =>
    rw [if_neg (by rw [hgood]; decide), if_pos (by rw [hwait]; rfl)]
    simp only [State.updGrp_cur]
    rfl
  case taken =>
    have hnone : c.deferredTaken (hdrWait h) = c := State.deferredTaken_none (by
      rw [c.cg_eq g0 hg0, hgroup]
      exact hdue)
    rw [if_neg (by rw [hgood]; decide), if_neg (by rw [hwait]; decide), hnone, if_pos (by rw [hfresh1]; rfl)]
    have hlive : ∀ t ∈ c.cur.path, t < 16 ∧ (g0.thr t).life = .live := fun t ht => by
      rw [hin t ht]
      exact hpath t ht
    have hguarded :=
      State.enterClause_guarded (ws := ws) hg0 (by rw [hgroup]; exact hfreeze) hsize0 hne hnodup hlive hfresh1
    simp only [Group.guard_active, Group.guard_proposed] at hguarded
    obtain ⟨x, hx, hmem, hregs, hentered, hbranch, hskipped, hguards⟩ := hguarded
    refine ⟨_, x, rfl, hx, hmem, fun t ht => ?_, hentered, hbranch, fun hall hnone t ht hloop => ?_, hguards⟩
    · obtain ⟨hxs, hprs, htaint⟩ := hregs t ht
      exact ⟨hxs.trans (by rw [hin t ht]), hprs.trans (by rw [hin t ht]), htaint⟩
    · refine hskipped hall hnone t ht ?_
      rw [hin t ht]
      exact hloop

end Sys2Proof.Machine
end

section
/-! SUPPORT. What the integer instructions compute on numbers (R267 to R271), said on words. -/

namespace Sys2Proof.Machine
open Sys2Proof

/-! ### Readings and answers -/

theorem bitsOf_eq_toNat_ofInt (n : Nat) (v : Int) : bitsOf n v = (BitVec.ofInt n v).toNat := by
  rw [bitsOf, BitVec.toNat_ofInt, Int.natCast_pow]
  rfl

theorem i32_eq_lo (x : DWord) : i32 x = x.lo.toInt := by
  rw [i32, ← signOf_toNat, DWord.lo, BitVec.toNat_ofNat, signOf, signOf, Nat.mod_mod]

theorem i64_eq_toInt (x : DWord) : i64 x = x.toInt := signOf_toNat x

theorem clampI_eq_max_min {lo hi : Int} (h : lo ≤ hi) (v : Int) : clampI lo hi v = max lo (min hi v) := by
  unfold clampI
  split
  · omega
  · split <;> omega

theorem toNat_eq_zero_iff (a : Word) : a.toNat = 0 ↔ a = 0#32 := by
  rw [← BitVec.toNat_inj]
  rfl

theorem toNat_eq_one_iff (m : BitVec 3) : m.toNat = 1 ↔ m = 1#3 := by
  rw [← BitVec.toNat_inj]
  rfl

section
variable (e : Env)

theorem Env.nat_word {n : Nat} {w : Word} (h : n = w.toNat) : e.nat n = e.plain (w.setWidth 64) := by
  rw [h, Env.nat, BitVec.ofNat_toNat]

theorem Env.int32_word {n : Int} {w : Word} (h : BitVec.ofInt 32 n = w) : e.int32 n = e.plain (w.setWidth 64) :=
  e.nat_word (by rw [← h, bitsOf_eq_toNat_ofInt])

theorem Env.nat_pair {n : Nat} {d : DWord} (h : n = d.toNat) : e.nat n = e.plain d := by
  rw [h, Env.nat, BitVec.ofNat_toNat, BitVec.setWidth_eq]

end

/-! ### Sums, products and comparisons (R267) -/

theorem satS_eq (n : Int) : BitVec.ofInt 32 (clampI (-2 ^ 31) (2 ^ 31 - 1) n) = satS n := by
  rw [clampI_eq_max_min (by decide)]
  rfl

theorem satU_eq (n : Int) : BitVec.ofInt 32 (clampI 0 (2 ^ 32 - 1) n) = satU n := by
  rw [clampI_eq_max_min (by decide)]
  rfl

section
variable (a b : Word)

theorem ofInt_toNat_add : BitVec.ofInt 32 ((a.toNat : Int) + b.toNat) = a + b := by
  rw [BitVec.ofInt_add, BitVec.ofInt_natCast, BitVec.ofInt_natCast, BitVec.ofNat_toNat, BitVec.ofNat_toNat,
    BitVec.setWidth_eq, BitVec.setWidth_eq]

theorem ofInt_toNat_sub : BitVec.ofInt 32 ((a.toNat : Int) - b.toNat) = a - b := by
  rw [Int.sub_eq_add_neg, BitVec.ofInt_add, BitVec.ofInt_neg, BitVec.ofInt_natCast, BitVec.ofInt_natCast,
    BitVec.ofNat_toNat, BitVec.ofNat_toNat, BitVec.setWidth_eq, BitVec.setWidth_eq, BitVec.sub_eq_add_neg]

/-- The upper half of the signed product, from the product in 64 bits. -/
theorem ofInt_mulHigh : BitVec.ofInt 32 (a.toInt * b.toInt / 2 ^ 32) =
    ((a.signExtend 64 * b.signExtend 64) >>> 32).setWidth 32 := by
  apply BitVec.eq_of_toNat_eq
  have hprod : (a.signExtend 64 * b.signExtend 64) = BitVec.ofInt 64 (a.toInt * b.toInt) := by
    rw [BitVec.signExtend, BitVec.signExtend, ← BitVec.ofInt_mul]
  rw [hprod, BitVec.toNat_setWidth, BitVec.toNat_ushiftRight, Nat.shiftRight_eq_div_pow, BitVec.toNat_ofInt,
    BitVec.toNat_ofInt]
  generalize a.toInt * b.toInt = x
  omega

theorem toNat_mulHigh : a.toNat * b.toNat / 2 ^ 32 =
    (((a.setWidth 64 * b.setWidth 64) >>> 32).setWidth 32 : Word).toNat := by
  have hlt : a.toNat * b.toNat < 2 ^ 32 * 2 ^ 32 := Nat.mul_lt_mul'' a.isLt b.isLt
  rw [BitVec.toNat_setWidth, BitVec.toNat_ushiftRight, Nat.shiftRight_eq_div_pow, BitVec.toNat_mul,
    BitVec.toNat_setWidth, BitVec.toNat_setWidth, Nat.mod_eq_of_lt (Nat.lt_trans a.isLt (by decide)),
    Nat.mod_eq_of_lt (Nat.lt_trans b.isLt (by decide)), Nat.mod_eq_of_lt (a := a.toNat * b.toNat) (by omega),
    Nat.mod_eq_of_lt (by omega)]

end

section
variable {n : Nat} (a b : BitVec n)

theorem min_toNat : min a.toNat b.toNat = (if a.ule b then a else b).toNat := by
  rw [apply_ite BitVec.toNat, Nat.min_def]
  simp [BitVec.ule]

theorem max_toNat : max a.toNat b.toNat = (if a.ule b then b else a).toNat := by
  rw [apply_ite BitVec.toNat, Nat.max_def]
  simp [BitVec.ule]

theorem ofInt_min : BitVec.ofInt n (min a.toInt b.toInt) = if a.sle b then a else b := by
  rw [Int.min_def, apply_ite (BitVec.ofInt n), BitVec.ofInt_toInt, BitVec.ofInt_toInt]
  simp [BitVec.sle]

theorem ofInt_max : BitVec.ofInt n (max a.toInt b.toInt) = if a.sle b then b else a := by
  rw [Int.max_def, apply_ite (BitVec.ofInt n), BitVec.ofInt_toInt, BitVec.ofInt_toInt]
  simp [BitVec.sle]

end

theorem ofInt_neg_toInt (a : Word) : BitVec.ofInt 32 (-a.toInt) = -a := by
  rw [BitVec.ofInt_neg, BitVec.ofInt_toInt]

theorem ofInt_natAbs (a : Word) : BitVec.ofInt 32 a.toInt.natAbs = if a.msb then -a else a := by
  rw [BitVec.msb_eq_toInt]
  by_cases h : a.toInt < 0
  · rw [if_pos (by simpa using h), Int.ofNat_natAbs_of_nonpos (by omega), ofInt_neg_toInt]
  · rw [if_neg (by simpa using h), Int.natAbs_of_nonneg (by omega), BitVec.ofInt_toInt]

/-! ### Logic (R267) -/

theorem toNat_choice {n : Nat} (a b : BitVec n) (c : Bool) : (if c then a.toNat else b.toNat) = (if c then a else b).toNat :=
  (apply_ite BitVec.toNat ..).symm

/-! ### Shifts (R268) -/

section
variable {w : Nat} (a : BitVec w) (c : Nat)

theorem shlN_eq_toNat : shlN w a.toNat c = (a <<< c).toNat := by
  rw [shlN, BitVec.toNat_shiftLeft, Nat.shiftLeft_eq]
  split
  next h => exact (Nat.mod_eq_zero_of_dvd (Nat.dvd_mul_left_of_dvd (Nat.pow_dvd_pow 2 h) _)).symm
  next => rfl

theorem shrN_eq_toNat : shrN w a.toNat c = (a >>> c).toNat := by
  rw [shrN, BitVec.toNat_ushiftRight, Nat.shiftRight_eq_div_pow]
  split
  next h => exact (Nat.div_eq_of_lt (Nat.lt_of_lt_of_le a.isLt (Nat.pow_le_pow_right (by decide) h))).symm
  next => rfl

/-- From the width on a shift leaves the sign alone. -/
theorem toInt_div_pow_min : a.toInt / 2 ^ min c w = a.toInt / 2 ^ c := by
  rcases Nat.le_total c w with h | h
  · rw [Nat.min_eq_left h]
  · rw [Nat.min_eq_right h]
    have hpow : (2 : Int) ^ w ≤ 2 ^ c := by exact_mod_cast Nat.pow_le_pow_right (by decide) h
    have hlt : a.toInt < 2 ^ w :=
      Int.lt_of_lt_of_le a.toInt_lt (by exact_mod_cast Nat.pow_le_pow_right (by decide) (Nat.sub_le w 1))
    have hle : -(2 : Int) ^ w ≤ a.toInt := by
      have := a.le_toInt
      have hp : (2 : Int) ^ (w - 1) ≤ 2 ^ w := by exact_mod_cast Nat.pow_le_pow_right (by decide) (Nat.sub_le w 1)
      omega
    by_cases hneg : a.toInt < 0
    · rw [Int.ediv_eq_neg_one_of_neg_of_le hneg (by omega), Int.ediv_eq_neg_one_of_neg_of_le hneg (by omega)]
    · rw [Int.ediv_eq_zero_of_lt (by omega) hlt, Int.ediv_eq_zero_of_lt (by omega) (by omega)]

theorem sarN_eq_toNat : sarN w a.toNat c = (a.sshiftRight c).toNat := by
  rw [sarN, signOf_toNat, bitsOf_eq_toNat_ofInt, toInt_div_pow_min, BitVec.sshiftRight, Int.shiftRight_eq_div_pow]
  norm_cast

end

theorem rotlN_eq_toNat (a : Word) (c : Nat) : rotlN a.toNat c = (a.rotateLeft (c % 32)).toNat := by
  have hk : c % 32 < 32 := Nat.mod_lt _ (by decide)
  have hlow : a.toNat / 2 ^ (32 - c % 32) < 2 ^ (c % 32) := by
    rw [Nat.div_lt_iff_lt_mul (Nat.two_pow_pos _), ← Nat.pow_add, Nat.add_sub_cancel' (Nat.le_of_lt hk)]
    exact a.isLt
  have hdvd : 2 ^ (c % 32) ∣ a.toNat * 2 ^ (c % 32) % 2 ^ 32 :=
    (Nat.dvd_mod_iff (Nat.pow_dvd_pow 2 (Nat.le_of_lt hk))).2 (Nat.dvd_mul_left ..)
  obtain ⟨q, hq⟩ := hdvd
  have hor := Nat.two_pow_add_eq_or_of_lt hlow q
  have hlt : (a.rotateLeft (c % 32)).toNat < 2 ^ 32 := BitVec.isLt _
  rw [BitVec.toNat_rotateLeft, Nat.mod_mod, Nat.shiftLeft_eq, Nat.shiftRight_eq_div_pow, hq, ← hor, ← hq] at hlt ⊢
  rw [rotlN]
  omega

/-! ### Bit fields (R268) -/

theorem fieldWidth_le (pos w : Word) : min w.toNat (32 - pos.toNat) ≤ 32 := by omega

theorem noField_iff (pos w : Word) : (w.toNat = 0 || 32 ≤ pos.toNat) = true ↔ w = 0#32 ∨ 32 ≤ pos.toNat := by
  rw [Bool.or_eq_true, decide_eq_true_iff, decide_eq_true_iff, ← BitVec.toNat_inj]
  rfl

theorem bfxN_eq_toNat (sgn : Bool) (a pos w : Word) :
    bfxN sgn a.toNat pos.toNat w.toNat = (bfxWord sgn a pos w).toNat := by
  have hfield : a.toNat / 2 ^ pos.toNat % 2 ^ min w.toNat (32 - pos.toNat) =
      (a.extractLsb' pos.toNat (min w.toNat (32 - pos.toNat))).toNat := by
    rw [BitVec.extractLsb'_toNat, Nat.shiftRight_eq_div_pow]
  simp only [bfxN, bfxWord, noField_iff]
  split
  · rfl
  · rw [hfield, signOf_toNat, bitsOf_eq_toNat_ofInt]
    cases sgn with
    | true => rfl
    | false =>
      rw [if_neg (by decide), if_neg (by decide), BitVec.toNat_setWidth_of_le (fieldWidth_le pos w)]

/-- Bit `j` of a number into which `n` bits of `a` are put at `pos`. -/
theorem testBit_insert (d a pos n j : Nat) :
    (d % 2 ^ pos + a % 2 ^ n * 2 ^ pos + d / 2 ^ (pos + n) * 2 ^ (pos + n)).testBit j =
      if pos ≤ j ∧ j < pos + n then a.testBit (j - pos) else d.testBit j := by
  have hsplit : d % 2 ^ pos + a % 2 ^ n * 2 ^ pos + d / 2 ^ (pos + n) * 2 ^ (pos + n) =
      2 ^ pos * (2 ^ n * (d / 2 ^ (pos + n)) + a % 2 ^ n) + d % 2 ^ pos := by
    rw [Nat.pow_add, Nat.mul_add, ← Nat.mul_assoc (2 ^ pos), Nat.mul_comm (2 ^ pos * 2 ^ n),
      Nat.mul_comm (2 ^ pos) (a % 2 ^ n)]
    omega
  rw [hsplit, Nat.testBit_two_pow_mul_add _ (Nat.mod_lt _ (Nat.two_pow_pos _)),
    Nat.testBit_two_pow_mul_add _ (Nat.mod_lt _ (Nat.two_pow_pos _))]
  by_cases hlow : j < pos
  · simp [hlow, Nat.testBit_mod_two_pow, Nat.not_le.2 hlow]
  · by_cases hmid : j - pos < n
    · simp [hlow, hmid, Nat.testBit_mod_two_pow, show pos ≤ j ∧ j < pos + n by omega]
    · simp [hlow, hmid, Nat.testBit_div_two_pow, show ¬ (pos ≤ j ∧ j < pos + n) by omega,
        show j - pos - n + (pos + n) = j by omega]

theorem getLsbD_lowMask (n j : Nat) (hj : j < 32) : (lowMask n).getLsbD j = decide (j < n) := by
  rw [lowMask, BitVec.getLsbD_ofNat, Nat.testBit_two_pow_sub_one]
  simp [hj]

theorem bfiN_eq_toNat (d a pos w : Word) : bfiN d.toNat a.toNat pos.toNat w.toNat = (bfiWord d a pos w).toNat := by
  simp only [bfiN, bfiWord, noField_iff]
  split
  · rfl
  next h =>
    rw [not_or, Nat.not_le] at h
    refine Nat.eq_of_testBit_eq fun j => ?_
    rw [testBit_insert, BitVec.testBit_toNat, BitVec.testBit_toNat, BitVec.testBit_toNat]
    by_cases hj : j < 32
    · simp only [BitVec.getLsbD_or, BitVec.getLsbD_and, BitVec.getLsbD_not, BitVec.getLsbD_shiftLeft, hj, decide_true,
        Bool.true_and]
      by_cases hpos : j < pos.toNat
      · simp [hpos, Nat.not_le.2 hpos]
      · rw [getLsbD_lowMask _ _ (by omega)]
        by_cases hin : j < pos.toNat + min w.toNat (32 - pos.toNat)
        · simp [hpos, Nat.not_lt.1 hpos, hin, show j - pos.toNat < min w.toNat (32 - pos.toNat) by omega]
        · simp [hpos, hin, show ¬ j - pos.toNat < min w.toNat (32 - pos.toNat) by omega]
    · rw [if_neg (by omega), BitVec.getLsbD_of_ge _ _ (by omega), BitVec.getLsbD_of_ge _ _ (by omega)]

theorem toNat_movh (n : BitVec 16) (x : Word) : n.toNat * 2 ^ 16 + x.toNat % 2 ^ 16 =
    (n.setWidth 32 <<< 16 ||| (x &&& 0xFFFF#32)).toNat := by
  have hn : n.toNat < 2 ^ 16 := n.isLt
  rw [BitVec.toNat_or, BitVec.toNat_and, BitVec.toNat_shiftLeft, BitVec.toNat_setWidth, Nat.shiftLeft_eq,
    show (0xFFFF#32).toNat = 2 ^ 16 - 1 from rfl, Nat.and_two_pow_sub_one_eq_mod,
    Nat.mod_eq_of_lt (Nat.lt_trans hn (by decide)), Nat.mod_eq_of_lt (a := n.toNat * 2 ^ 16) (by omega), Nat.mul_comm,
    Nat.two_pow_add_eq_or_of_lt (Nat.mod_lt _ (by decide))]

/-! ### Counts and the reverse of the bits (R267) -/

theorem div_pow_mod_two (n i : Nat) : n / 2 ^ i % 2 = if n.testBit i then 1 else 0 := by
  rw [Nat.testBit_eq_decide_div_mod_eq]
  rcases Nat.mod_two_eq_zero_or_one (n / 2 ^ i) with h | h <;> simp [h]

theorem sum_bits_eq_countP (n : Nat) (l : List Nat) : (l.map fun i => n / 2 ^ i % 2).sum = l.countP n.testBit := by
  induction l with
  | nil => rfl
  | cons i l ih => rw [List.map_cons, List.sum_cons, ih, List.countP_cons, div_pow_mod_two, Nat.add_comm]

theorem popcN_eq_toNat (a : Word) :
    popcN a.toNat = (BitVec.ofNat 32 ((List.range 32).countP fun i => a.getLsbD i)).toNat := by
  have hle : (List.range 32).countP (fun i => a.getLsbD i) ≤ 32 := List.countP_le_length
  rw [BitVec.toNat_ofNat, Nat.mod_eq_of_lt (by omega), popcN, sum_bits_eq_countP]
  rfl

theorem sum_map_const_mul (c : Nat) (f : Nat → Nat) (l : List Nat) : (l.map fun i => c * f i).sum = c * (l.map f).sum := by
  induction l with
  | nil => rfl
  | cons i l ih => rw [List.map_cons, List.map_cons, List.sum_cons, List.sum_cons, ih, Nat.mul_add]

theorem reverseSum_succ (n w : Nat) : ((List.range (w + 1)).map fun i => n / 2 ^ i % 2 * 2 ^ (w - i)).sum =
    2 ^ 1 * ((List.range w).map fun i => n / 2 ^ i % 2 * 2 ^ (w - 1 - i)).sum + n / 2 ^ w % 2 := by
  rw [List.range_succ, List.map_append, List.sum_append, ← sum_map_const_mul]
  have hshift : ∀ i ∈ List.range w, n / 2 ^ i % 2 * 2 ^ (w - i) = 2 ^ 1 * (n / 2 ^ i % 2 * 2 ^ (w - 1 - i)) := by
    intro i hi
    have hw : w - i = w - 1 - i + 1 := by have := List.mem_range.1 hi; omega
    rw [hw, Nat.pow_succ, Nat.pow_one, Nat.mul_comm (2 ^ (w - 1 - i)) 2, Nat.mul_left_comm]
  rw [List.map_congr_left hshift]
  simp

/-- The bits of a number below `w`, summed in the reverse of their places. -/
theorem testBit_reverseSum (n w j : Nat) : ((List.range w).map fun i => n / 2 ^ i % 2 * 2 ^ (w - 1 - i)).sum.testBit j =
    (decide (j < w) && n.testBit (w - 1 - j)) := by
  induction w generalizing j with
  | zero => simp
  | succ w ih =>
    rw [Nat.add_sub_cancel, reverseSum_succ, Nat.testBit_two_pow_mul_add _ (Nat.mod_lt _ (by decide))]
    cases j with
    | zero => cases h : n.testBit w <;> simp [div_pow_mod_two, h]
    | succ j => simp [ih, show w - (j + 1) = w - 1 - j by omega]

theorem brevN_eq_toNat (a : Word) : brevN a.toNat = a.reverse.toNat := by
  refine Nat.eq_of_testBit_eq fun j => ?_
  refine (testBit_reverseSum a.toNat 32 j).trans ?_
  rw [BitVec.testBit_toNat, BitVec.testBit_toNat, BitVec.getLsbD_reverse, BitVec.getMsbD]

theorem length_takeWhile_range {p : Nat → Bool} {k m : Nat} (hall : ∀ i < k, p i = true) (hstop : m ≠ 0 → p k = false) :
    ((List.range (k + m)).takeWhile p).length = k := by
  rw [List.range_add, List.takeWhile_append_of_pos fun i hi => hall i (List.mem_range.1 hi)]
  cases m with
  | zero => simp
  | succ m => simp [List.range_succ_eq_map, hstop]

theorem clzN_eq_toNat (a : Word) :
    clzN a.toNat = (BitVec.ofNat 32 (((List.range 32).takeWhile fun i => !a.getLsbD (31 - i)).length)).toNat := by
  rw [clzN]
  split
  next h =>
    obtain rfl : a = 0#32 := BitVec.eq_of_toNat_eq h
    rfl
  next h =>
    have hlog : a.toNat.log2 < 32 := (Nat.log2_lt h).2 a.isLt
    have hlen := length_takeWhile_range (p := fun i => !a.getLsbD (31 - i)) (k := 31 - a.toNat.log2)
      (m := a.toNat.log2 + 1) (fun i hi => by
        rw [← BitVec.testBit_toNat, Nat.testBit_lt_two_pow ((Nat.log2_lt h).1 (by omega))]
        rfl) (fun _ => by
        rw [← BitVec.testBit_toNat, show 31 - (31 - a.toNat.log2) = a.toNat.log2 by omega, Nat.testBit_log2 h]
        rfl)
    rw [show 31 - a.toNat.log2 + (a.toNat.log2 + 1) = 32 by omega] at hlen
    rw [hlen, BitVec.toNat_ofNat, Nat.mod_eq_of_lt (by omega)]

/-! ### Quotients and remainders (R269) -/

theorem ofInt_natCast_toNat {n : Nat} (a : BitVec n) : BitVec.ofInt n a.toNat = a := by
  rw [BitVec.ofInt_natCast, BitVec.ofNat_toNat, BitVec.setWidth_eq]

/-! ### The modes of the instructions with a mode field -/

section
variable (m : BitVec 3) (a b : DWord)

theorem ofInt_addM (a b : DWord) : (m : Nat) → BitVec.ofInt 32 (addM m a b) = match m with
    | 1 => satS (a.lo.toInt + b.lo.toInt)
    | 2 => satU (a.lo.toNat + b.lo.toNat)
    | _ => a.lo + b.lo
  | 0 => show BitVec.ofInt 32 ((u32 a : Int) + u32 b) = a.lo + b.lo by rw [u32_eq_lo, u32_eq_lo, ofInt_toNat_add]
  | 1 => (satS_eq (i32 a + i32 b)).trans (congrArg satS (by rw [i32_eq_lo, i32_eq_lo]))
  | 2 => (satU_eq ((u32 a : Int) + u32 b)).trans (congrArg satU (by rw [u32_eq_lo, u32_eq_lo]))
  | _ + 3 => show BitVec.ofInt 32 ((u32 a : Int) + u32 b) = a.lo + b.lo by rw [u32_eq_lo, u32_eq_lo, ofInt_toNat_add]

theorem ofInt_subM (a b : DWord) : (m : Nat) → BitVec.ofInt 32 (subM m a b) = match m with
    | 1 => satS (a.lo.toInt - b.lo.toInt)
    | 2 => satU ((a.lo.toNat : Int) - b.lo.toNat)
    | _ => a.lo - b.lo
  | 0 => show BitVec.ofInt 32 ((u32 a : Int) - u32 b) = a.lo - b.lo by rw [u32_eq_lo, u32_eq_lo, ofInt_toNat_sub]
  | 1 => (satS_eq (i32 a - i32 b)).trans (congrArg satS (by rw [i32_eq_lo, i32_eq_lo]))
  | 2 => (satU_eq ((u32 a : Int) - u32 b)).trans (congrArg satU (by rw [u32_eq_lo, u32_eq_lo]))
  | _ + 3 => show BitVec.ofInt 32 ((u32 a : Int) - u32 b) = a.lo - b.lo by rw [u32_eq_lo, u32_eq_lo, ofInt_toNat_sub]

theorem ofInt_divM : BitVec.ofInt 32 (divM m.toNat a b) =
    if b.lo = 0#32 then 0xFFFFFFFF#32 else if m = 1#3 then a.lo / b.lo
    else BitVec.ofInt 32 (a.lo.toInt.tdiv b.lo.toInt) := by
  simp only [divM, u32_eq_lo, i32_eq_lo, toNat_eq_one_iff, toNat_eq_zero_iff]
  rw [apply_ite (BitVec.ofInt 32), apply_ite (BitVec.ofInt 32), ← BitVec.toNat_udiv, ofInt_natCast_toNat]
  rfl

theorem ofInt_remM : BitVec.ofInt 32 (remM m.toNat a b) =
    if b.lo = 0#32 then a.lo else if m = 1#3 then a.lo % b.lo else BitVec.ofInt 32 (a.lo.toInt.tmod b.lo.toInt) := by
  simp only [remM, u32_eq_lo, i32_eq_lo, toNat_eq_one_iff, toNat_eq_zero_iff]
  rw [apply_ite (BitVec.ofInt 32), apply_ite (BitVec.ofInt 32), ← BitVec.toNat_umod, ofInt_natCast_toNat,
    ofInt_natCast_toNat]

theorem ofInt_abs : BitVec.ofInt 32 (if m.toNat = 1 then clampI (-2 ^ 31) (2 ^ 31 - 1) (i32 a).natAbs
    else (i32 a).natAbs) = if m = 1#3 then satS a.lo.toInt.natAbs else if a.lo.msb then -a.lo else a.lo := by
  simp only [i32_eq_lo, toNat_eq_one_iff]
  rw [apply_ite (BitVec.ofInt 32), satS_eq, ofInt_natAbs]

theorem ofInt_negate : BitVec.ofInt 32 (if m.toNat = 1 then clampI (-2 ^ 31) (2 ^ 31 - 1) (-i32 a) else -i32 a) =
    if m = 1#3 then satS (-a.lo.toInt) else -a.lo := by
  simp only [i32_eq_lo, toNat_eq_one_iff]
  rw [apply_ite (BitVec.ofInt 32), satS_eq, ofInt_neg_toInt]

end

section
variable (e : Env) (m : BitVec 3) (a b : DWord)

/-- An instruction whose mode 1 is unsigned answers the word of its mode. -/
theorem Env.unsigned_word {n : Nat} {k : Int} {x y : Word} (hunsigned : n = x.toNat) (hsigned : BitVec.ofInt 32 k = y) :
    (if m.toNat = 1 then e.nat n else e.int32 k) = e.plain ((if m = 1#3 then x else y).setWidth 64) := by
  rw [e.nat_word hunsigned, e.int32_word hsigned]
  simp only [toNat_eq_one_iff]
  split <;> rfl

/-- The same of a pair. -/
theorem Env.unsigned_pair {n : Nat} {k : Int} {x y : DWord} (hunsigned : n = x.toNat) (hsigned : BitVec.ofInt 64 k = y) :
    (if m.toNat = 1 then e.nat n else e.nat (bitsOf 64 k)) = e.plain (if m = 1#3 then x else y) := by
  rw [e.nat_pair hunsigned, e.nat_pair (by rw [bitsOf_eq_toNat_ofInt, hsigned])]
  simp only [toNat_eq_one_iff]
  split <;> rfl

end

/-! ### What the integer instructions answer (R267 to R271) -/

section
variable {s : State} {i : Instr} {r : AluRow}

/-- An ALU instruction whose operation is that of its row. -/
theorem exec_row {f : Env → Vals → Ans} (hexec : exec i s = .next (s.alu i r.kind r.ps none f))
    (hf : ∀ e v, f e v = r.f e v) : exec i s = .next (s.alu i r.kind r.ps none r.f) := by
  rw [hexec, funext fun e => funext (hf e)]

theorem exec_intRow (h : intRow i = some r) : exec i s = .next (s.alu i r.kind r.ps none r.f) := by
  cases i with
  | iadd => cases h; exact exec_row rfl fun e v => e.int32_word (ofInt_addM ..)
  | isub => cases h; exact exec_row rfl fun e v => e.int32_word (ofInt_subM ..)
  | imul => cases h; exact exec_row rfl fun e v => e.nat_word (by rw [u32_eq_lo, u32_eq_lo, BitVec.toNat_mul])
  | imulh =>
    cases h
    exact exec_row rfl fun e v => e.unsigned_word _ (by rw [u32_eq_lo, u32_eq_lo, toNat_mulHigh])
      (by rw [i32_eq_lo, i32_eq_lo, ofInt_mulHigh])
  | imad =>
    cases h
    exact exec_row rfl fun e v => e.nat_word (by
      rw [u32_eq_lo, u32_eq_lo, u32_eq_lo, BitVec.toNat_add, BitVec.toNat_mul, Nat.mod_add_mod])
  | imin =>
    cases h
    exact exec_row rfl fun e v => (e.unsigned_word _ (by rw [u32_eq_lo, u32_eq_lo, min_toNat])
      (by rw [i32_eq_lo, i32_eq_lo, ofInt_min])).trans (by split <;> rfl)
  | imax =>
    cases h
    exact exec_row rfl fun e v => (e.unsigned_word _ (by rw [u32_eq_lo, u32_eq_lo, max_toNat])
      (by rw [i32_eq_lo, i32_eq_lo, ofInt_max])).trans (by split <;> rfl)
  | iabs => cases h; exact exec_row rfl fun e v => e.int32_word (ofInt_abs ..)
  | ineg => cases h; exact exec_row rfl fun e v => e.int32_word (ofInt_negate ..)
  | and => cases h; exact exec_row rfl fun e v => e.nat_word (by rw [u32_eq_lo, u32_eq_lo, BitVec.toNat_and])
  | or => cases h; exact exec_row rfl fun e v => e.nat_word (by rw [u32_eq_lo, u32_eq_lo, BitVec.toNat_or])
  | xor => cases h; exact exec_row rfl fun e v => e.nat_word (by rw [u32_eq_lo, u32_eq_lo, BitVec.toNat_xor])
  | andn =>
    cases h
    exact exec_row rfl fun e v => e.nat_word (by rw [u32_eq_lo, u32_eq_lo, BitVec.toNat_and, BitVec.toNat_not])
  | not => cases h; exact exec_row rfl fun e v => e.nat_word (by rw [u32_eq_lo, BitVec.toNat_not])
  | shl => cases h; exact exec_row rfl fun e v => e.nat_word (by rw [u32_eq_lo, u32_eq_lo, shlN_eq_toNat])
  | shr => cases h; exact exec_row rfl fun e v => e.nat_word (by rw [u32_eq_lo, u32_eq_lo, shrN_eq_toNat])
  | sar => cases h; exact exec_row rfl fun e v => e.nat_word (by rw [u32_eq_lo, u32_eq_lo, sarN_eq_toNat])
  | rotl => cases h; exact exec_row rfl fun e v => e.nat_word (by rw [u32_eq_lo, u32_eq_lo, rotlN_eq_toNat])
  | popc => cases h; exact exec_row rfl fun e v => e.nat_word (by rw [u32_eq_lo, popcN_eq_toNat])
  | clz => cases h; exact exec_row rfl fun e v => e.nat_word (by rw [u32_eq_lo, clzN_eq_toNat])
  | brev => cases h; exact exec_row rfl fun e v => e.nat_word (by rw [u32_eq_lo, brevN_eq_toNat])
  | bfx =>
    cases h
    exact exec_row rfl fun e v => e.nat_word (by
      rw [u32_eq_lo, u32_eq_lo, u32_eq_lo, bfxN_eq_toNat, decide_eq_decide.2 (toNat_eq_one_iff _)])
  | bfi =>
    cases h
    exact exec_row rfl fun e v => e.nat_word (by rw [u32_eq_lo, u32_eq_lo, u32_eq_lo, u32_eq_lo, bfiN_eq_toNat])
  | sel => cases h; exact exec_row rfl fun e v => e.nat_word (by rw [u32_eq_lo, u32_eq_lo, toNat_choice])
  | mov => cases h; exact exec_row rfl fun e v => e.nat_word (u32_eq_lo _)
  | movi => cases h; exact exec_row rfl fun e v => e.int32_word (by rw [signOf_toNat, BitVec.signExtend])
  | movh => cases h; exact exec_row rfl fun e v => e.nat_word (by rw [u32_eq_lo, toNat_movh])
  | idiv => cases h; exact exec_row rfl fun e v => e.int32_word (ofInt_divM ..)
  | irem => cases h; exact exec_row rfl fun e v => e.int32_word (ofInt_remM ..)
  | _ => cases h

end

end Sys2Proof.Machine
end

section
/-! SUPPORT. The register instructions of a table (R265): each is the shared ALU operation on its row's answer, with the row's
destination as its operand D. -/

namespace Sys2Proof.Machine
open Sys2Proof

/-! ### Destinations (R251, R122) -/

/-- The row's destination is the operand D of the instruction, in a position that takes a pair where the row gives one. -/
def AluRow.IsDst (r : AluRow) (i : Instr) : Prop :=
  ∃ form os, operands i = ⟨.D, form, r.d⟩ :: os ∧ form.writes = true ∧ form.isPair = r.pair

theorem Form.eq_pdst {form : Form} (hw : form.writes = true) (hpair : form.isPair = true) : form = .pdst := by
  unfold Form.writes at hw
  split at hw
  · cases hpair
  · rfl
  · cases hpair
  · cases hpair
  · cases hw

/-- A pair of x registers ends below register 80. -/
theorem pairOk_x {rc c : Nat} (h : pairOk rc c = true) (hx : c < 80) : c + 1 < 80 := by
  simp only [pairOk, runOk, isG, Bool.and_eq_true, Bool.or_eq_true, decide_eq_true_eq] at h
  omega

theorem pdst_ok_x {rc : Nat} {d : Code} (h : Form.ok rc .pdst d = true) (hx : d.toNat < 80) : d.toNat + 1 < 80 := by
  simp only [Form.ok, Bool.or_eq_true, decide_eq_true_eq] at h
  exact pairOk_x (h.resolve_right (by omega)) hx

theorem uniform_operands {i : Instr} (h : isUniform i = true) : (operands i).all Operand.uniform = true := by
  cases i with
  | sel | selD | icmp | icmpD | fcmp | dcmp | pand | por | pxor | pnot | pmov | pset | dead | gath | dcorD | trap | sysc
  | illegal | unassignedOpcode | bra | brx | call | callx | ret | join | loop | tail | yield | nop | rgn | eret => cases h
  | _ => exact h

/-- A uniform instruction's destination is no x register. -/
theorem not_x_of_uniform {form : Form} {d : Code} (hw : form.writes = true)
    (h : Operand.uniform ⟨.D, form, d⟩ = true) : ¬ d.toNat < 80 := by
  have hcode : (isG d.toNat || d.toNat = 120 || d.toNat = 121) = true := by
    unfold Operand.uniform at h
    split at h
    next hrun =>
      rw [show form = .xrun 0 from hrun] at hw
      cases hw
    next => exact h
  simp only [isG, Bool.or_eq_true, Bool.and_eq_true, decide_eq_true_eq] at hcode
  omega

section
variable {s : State} {i : Instr} {g : Group} {v : Nat → Vals} {r : AluRow}

theorem AluRow.IsDst.dstOf (h : r.IsDst i) : dstOf i = if r.d.toNat < 112 then .reg r.d.toNat r.pair else .none := by
  obtain ⟨form, os, hops, -, hpair⟩ := h
  rw [Machine.dstOf, hops, ← hpair]
  rfl

theorem AluRow.IsDst.plain (h : r.IsDst i) (hd : r.d.toNat < 112 ∨ r.d.toNat = 120) : PlainDst i := by
  obtain ⟨form, os, hops, -, -⟩ := h
  intro o ho
  rw [hops] at ho
  cases ho
  exact hd.imp_right (fun hz : r.d.toNat = 120 => (Nat.le_of_eq hz.symm))

/-- A register instruction whose sources are plain does what its row says. -/
theorem State.alu_row (hexec : exec i s = .next (s.alu i r.kind r.ps none r.f)) (hdst : r.IsDst i) (hI : s.Issues i g)
    (hplain : PlainSources i) (hread : s.Reads i v) : s.Alu i g v r.d r.pair r.kind r.ps r.f := by
  refine s.alu_meets g i r.kind r.ps r.f v r.d r.pair hexec hI hplain hread hdst.dstOf hdst.plain ?pair ?uniform
  all_goals obtain ⟨form, os, hops, hw, hpair⟩ := hdst
  case pair =>
    intro hr hx
    have hlegal := hI.legal
    rw [legal, hops, Form.eq_pdst hw (hpair.trans hr), List.all_cons, Bool.and_eq_true, Bool.and_eq_true] at hlegal
    exact pdst_ok_x hlegal.2.1 hx
  case uniform =>
    intro hu
    have hall := uniform_operands hu
    rw [hops, List.all_cons, Bool.and_eq_true] at hall
    exact not_x_of_uniform hw hall.1

end

theorem isDst_intRow {i : Instr} {r : AluRow} (h : intRow i = some r) : r.IsDst i := by
  unfold intRow at h
  split at h
  all_goals cases h
  all_goals exact ⟨_, _, rfl, rfl, rfl⟩

/-- Settles O1: each row of the table is an ALU operation whose answer on words is the row's. -/
theorem integerWordResults : Obligations.IntegerWordResults := by
  intro i r s g v hrow hI hplain hread
  exact State.alu_row (exec_intRow hrow) (isDst_intRow hrow) hI hplain hread

end Sys2Proof.Machine
end

section
/-! SUPPORT. The integer instructions on pairs (R270, R271). -/

namespace Sys2Proof.Machine
open Sys2Proof

/-! ### Sums on pairs -/

theorem ofInt_toNat_sub_pair (a b : DWord) : BitVec.ofInt 64 ((a.toNat : Int) - b.toNat) = a - b := by
  rw [Int.sub_eq_add_neg, BitVec.ofInt_add, BitVec.ofInt_neg, ofInt_natCast_toNat, ofInt_natCast_toNat,
    BitVec.sub_eq_add_neg]

/-- A word scaled by a power of two, as `LEA` adds it (R271). -/
theorem ofInt_toInt_mul_pow (b : Word) (k : Nat) : BitVec.ofInt 64 (b.toInt * 2 ^ k) = b.signExtend 64 <<< k := by
  have hpow : BitVec.ofInt 64 (2 ^ k) = BitVec.twoPow 64 k := by
    refine BitVec.eq_of_toNat_eq ?_
    rw [BitVec.toNat_ofInt, BitVec.toNat_twoPow]
    norm_cast
  rw [BitVec.ofInt_mul, hpow, BitVec.shiftLeft_eq_mul_twoPow, BitVec.signExtend]

section
variable {s : State} {i : Instr} {r : AluRow}

theorem exec_pairIntRow (h : pairIntRow i = some r) : exec i s = .next (s.alu i r.kind r.ps none r.f) := by
  cases i with
  | iaddD => cases h; exact exec_row rfl fun e v => e.nat_pair (BitVec.toNat_add ..).symm
  | isubD =>
    cases h
    exact exec_row rfl fun e v => e.nat_pair (by rw [bitsOf_eq_toNat_ofInt, ofInt_toNat_sub_pair])
  | imulD => cases h; exact exec_row rfl fun e v => e.nat_pair (BitVec.toNat_mul ..).symm
  | imadD =>
    cases h
    exact exec_row rfl fun e v => e.nat_pair (by rw [BitVec.toNat_add, BitVec.toNat_mul, Nat.mod_add_mod])
  | iminD =>
    cases h
    exact exec_row rfl fun e v =>
      (e.unsigned_pair _ (min_toNat ..) (by rw [i64_eq_toInt, i64_eq_toInt, ofInt_min])).trans (by split <;> rfl)
  | imaxD =>
    cases h
    exact exec_row rfl fun e v =>
      (e.unsigned_pair _ (max_toNat ..) (by rw [i64_eq_toInt, i64_eq_toInt, ofInt_max])).trans (by split <;> rfl)
  | andD => cases h; exact exec_row rfl fun e v => e.nat_pair (BitVec.toNat_and ..).symm
  | orD => cases h; exact exec_row rfl fun e v => e.nat_pair (BitVec.toNat_or ..).symm
  | xorD => cases h; exact exec_row rfl fun e v => e.nat_pair (BitVec.toNat_xor ..).symm
  | shlD => cases h; exact exec_row rfl fun e v => e.nat_pair (by rw [u32_eq_lo, shlN_eq_toNat])
  | shrD => cases h; exact exec_row rfl fun e v => e.nat_pair (by rw [u32_eq_lo, shrN_eq_toNat])
  | sarD => cases h; exact exec_row rfl fun e v => e.nat_pair (by rw [u32_eq_lo, sarN_eq_toNat])
  | movD => cases h; exact exec_row rfl fun e v => e.nat_pair rfl
  | selD => cases h; exact exec_row rfl fun e v => e.nat_pair (toNat_choice ..)
  | lea =>
    cases h
    exact exec_row rfl fun e v => e.nat_pair (by
      rw [bitsOf_eq_toNat_ofInt, i32_eq_lo, BitVec.ofInt_add, ofInt_natCast_toNat, ofInt_toInt_mul_pow])
  | _ => cases h

theorem isDst_pairIntRow (h : pairIntRow i = some r) : r.IsDst i := by
  unfold pairIntRow at h
  split at h
  all_goals cases h
  all_goals exact ⟨_, _, rfl, rfl, rfl⟩

end

/-- Settles O2: each row of the table is an ALU operation whose answer on pairs is the row's. -/
theorem integerPairResults : Obligations.IntegerPairResults := by
  intro i r s g v hrow hI hplain hread
  exact State.alu_row (exec_pairIntRow hrow) (isDst_pairIntRow hrow) hI hplain hread

end Sys2Proof.Machine
end

section
/-! SUPPORT. The floating instructions (R272 to R277): what they compute on codes, said on words. -/

namespace Sys2Proof.Machine
open Sys2Proof

/-! ### Operands and codes -/

theorem val_fp32 (x : DWord) : val fp32 x = f32 x := by
  rw [f32, DWord.lo, BitVec.toNat_ofNat]
  rfl

theorem val_fp64 (x : DWord) : val fp64 x = f64 x := congrArg fp64.value (Nat.mod_eq_of_lt x.isLt)

theorem toNat_mod_eq_lo (x : DWord) : x.toNat % 2 ^ 32 = x.lo.toNat := u32_eq_lo x

/-- A code below 2^32 as the word that it is. -/
theorem Env.code_word (e : Env) {n : Nat} (h : n < 2 ^ 32) : e.nat n = e.plain ((BitVec.ofNat 32 n).setWidth 64) :=
  e.nat_word (by rw [BitVec.toNat_ofNat, Nat.mod_eq_of_lt h])

/-! ### The least, the greatest, the sign and the class (R273) -/

/-- The least and the greatest of two codes is one of them, or the canonical NaN. -/
theorem fminBits_cases (f : FFmt) (a b : Nat) : fminBits f a b = a ∨ fminBits f a b = b ∨ fminBits f a b = f.nan := by
  simp only [fminBits]
  generalize f.value a = x
  generalize f.value b = y
  repeat' split
  all_goals simp

theorem fmaxBits_cases (f : FFmt) (a b : Nat) : fmaxBits f a b = a ∨ fmaxBits f a b = b ∨ fmaxBits f a b = f.nan := by
  simp only [fmaxBits]
  generalize f.value a = x
  generalize f.value b = y
  repeat' split
  all_goals simp

theorem code_lt {n : Nat} {a b : Word} (h : n = a.toNat ∨ n = b.toNat ∨ n = fp32.nan) : n < 2 ^ 32 := by
  rcases h with rfl | rfl | rfl
  · exact a.isLt
  · exact b.isLt
  · decide

theorem toNat_clearSign (a : Word) : a.toNat % 2 ^ 31 = (a &&& 0x7FFFFFFF#32).toNat := by
  rw [BitVec.toNat_and]
  exact (Nat.and_two_pow_sub_one_eq_mod a.toNat 31).symm

theorem toNat_flipSign (a : Word) : (a.toNat + 2 ^ 31) % 2 ^ 32 = (a ^^^ 0x80000000#32).toNat := by
  have hlt := a.isLt
  have hlow : (a.toNat ^^^ 2 ^ 31) % 2 ^ 31 = a.toNat % 2 ^ 31 := by rw [Nat.xor_mod_two_pow, Nat.mod_self, Nat.xor_zero]
  have hhigh : (a.toNat ^^^ 2 ^ 31) / 2 ^ 31 = a.toNat / 2 ^ 31 ^^^ 1 := Nat.xor_div_two_pow
  rw [BitVec.toNat_xor, show (0x80000000#32).toNat = 2 ^ 31 from rfl]
  rcases (by omega : a.toNat / 2 ^ 31 = 0 ∨ a.toNat / 2 ^ 31 = 1) with h | h
  · rw [h, Nat.zero_xor] at hhigh
    omega
  · rw [h, Nat.xor_self] at hhigh
    omega

theorem signOp_eq_toNat (neg : Bool) (a : Word) : signOp neg a.toNat =
    (noNan a (if neg then a ^^^ 0x80000000#32 else a &&& 0x7FFFFFFF#32)).toNat := by
  rw [signOp, noNan, toNat_clearSign, toNat_flipSign]
  split
  · rfl
  · cases neg <;> rfl

/-- The value of a code by its sign, its exponent and its mantissa (R198). -/
theorem fp32_value (a : Word) : fp32.value a.toNat =
    if a.extractLsb' 23 8 = 0xFF#8 then (if a.extractLsb' 0 23 = 0#23 then .inf a.msb else .nan)
    else if a.extractLsb' 23 8 = 0#8 then .fin a.msb (a.extractLsb' 0 23).toNat (-149)
    else .fin a.msb (2 ^ 23 + (a.extractLsb' 0 23).toNat) ((a.extractLsb' 23 8).toNat - 127 - 23) := by
  have hexp : a.toNat / 2 ^ 23 % 2 ^ 8 = (a.extractLsb' 23 8).toNat := by
    rw [BitVec.extractLsb'_toNat, Nat.shiftRight_eq_div_pow]
  have hman : a.toNat % 2 ^ 23 = (a.extractLsb' 0 23).toNat := by
    rw [BitVec.extractLsb'_toNat, Nat.shiftRight_zero]
  have hsign : a.toNat / 2 ^ (23 + 8) % 2 = 1 ↔ a.msb = true := by
    have hlt := a.isLt
    rw [BitVec.msb_eq_decide, decide_eq_true_iff]
    omega
  simp only [FFmt.value, fp32, FFmt.signW, hexp, hman, hsign, ← BitVec.toNat_inj, beq_iff_eq, decide_true, Bool.true_and,
    decide_eq_true_eq, Bool.decide_eq_true]
  rfl

theorem classBit_eq_classOf (a : Word) : classBit a.toNat = classOf a := by
  simp only [classBit, fp32_value, classOf]
  generalize a.extractLsb' 23 8 = x
  generalize a.extractLsb' 0 23 = m
  have hman : m.toNat = 0 ↔ m = 0#23 := by
    rw [← BitVec.toNat_inj]
    rfl
  have hlt := m.isLt
  by_cases htop : x = 0xFF#8
  · by_cases hzero : m = 0#23 <;> cases a.msb <;> simp [htop, hzero]
  · by_cases hsub : x = 0#8
    · by_cases hzero : m = 0#23 <;> cases a.msb <;> simp [hsub, hzero, hman, hlt]
    · cases a.msb <;> simp [htop, hsub, show ¬ 8388608 + m.toNat < 8388608 by omega]

theorem classOf_lt (a : Word) : classOf a < 32 := by
  simp only [classOf]
  generalize a.extractLsb' 23 8 = x
  generalize a.extractLsb' 0 23 = m
  repeat' split
  all_goals decide

/-! ### What the floating instructions answer -/

/-- The answer of a floating operation is that of a row with the same operation. -/
theorem Env.fp_row (e : Env) {fmt : FFmt} {m : BitVec 3} {d : Code} {pair : Bool} {kind : Option Nat} {v : Vals}
    {op : Nat → FV × Nat} {rowOp : Nat → Vals → FV × Nat} (h : ∀ rm, op rm = rowOp rm v) :
    e.fp fmt m.toNat op = (fpRow d pair kind fmt m rowOp).f e v := by
  obtain rfl : op = fun rm => rowOp rm v := funext h
  rfl

section
variable {s : State} {i : Instr} {r : AluRow}

theorem exec_fltRow (h : fltRow i = some r) : exec i s = .next (s.alu i r.kind r.ps none r.f) := by
  cases i with
  | fadd | fsub | fmul => cases h; exact exec_row rfl fun e v => e.fp_row fun rm => by rw [val_fp32, val_fp32]
  | ffma => cases h; exact exec_row rfl fun e v => e.fp_row fun rm => by rw [val_fp32, val_fp32, val_fp32]
  | fscale =>
    cases h
    exact exec_row rfl fun e v => e.fp_row fun rm => by rw [val_fp32, ← i32_eq_lo]; rfl
  | frnd =>
    cases h
    exact exec_row rfl fun e v => by rw [val_fp32]; rfl
  | fmin =>
    cases h
    exact exec_row rfl fun e v => by
      rw [toNat_mod_eq_lo, toNat_mod_eq_lo]
      exact e.code_word (code_lt (fminBits_cases ..))
  | fmax =>
    cases h
    exact exec_row rfl fun e v => by
      rw [toNat_mod_eq_lo, toNat_mod_eq_lo]
      exact e.code_word (code_lt (fmaxBits_cases ..))
  | fabs | fneg => cases h; exact exec_row rfl fun e v => e.nat_word (by rw [toNat_mod_eq_lo, signOp_eq_toNat]; rfl)
  | fclass =>
    cases h
    exact exec_row rfl fun e v => by
      rw [toNat_mod_eq_lo, classBit_eq_classOf]
      exact e.code_word (Nat.pow_lt_pow_right (by decide) (classOf_lt _))
  | _ => cases h

theorem exec_specialRow (h : specialRow i = some r) : exec i s = .next (s.alu i r.kind r.ps none r.f) := by
  cases i with
  | frcp | fsqrt => cases h; exact exec_row rfl fun e v => e.fp_row fun rm => by rw [val_fp32]
  | frsq | fexp2 | flog2 | fsin | fcos =>
    cases h
    exact exec_row rfl fun e v => e.fp_row (m := 1#3) fun rm => by rw [val_fp32]
  | ddiv => cases h; exact exec_row rfl fun e v => e.fp_row fun rm => by rw [val_fp64, val_fp64]
  | dsqrt => cases h; exact exec_row rfl fun e v => e.fp_row fun rm => by rw [val_fp64]
  | _ => cases h

theorem exec_wideRow (h : wideRow i = some r) : exec i s = .next (s.alu i r.kind r.ps none r.f) := by
  cases i with
  | dadd | dsub | dmul => cases h; exact exec_row rfl fun e v => e.fp_row fun rm => by rw [val_fp64, val_fp64]
  | dfma => cases h; exact exec_row rfl fun e v => e.fp_row fun rm => by rw [val_fp64, val_fp64, val_fp64]
  | dcvt | fcvt | hadd2 | hmul2 | hfma2 => cases h; rfl
  | _ => cases h

theorem isDst_fltRow (h : fltRow i = some r) : r.IsDst i := by
  unfold fltRow at h
  split at h
  all_goals cases h
  all_goals exact ⟨_, _, rfl, rfl, rfl⟩

theorem isDst_specialRow (h : specialRow i = some r) : r.IsDst i := by
  unfold specialRow at h
  split at h
  all_goals cases h
  all_goals exact ⟨_, _, rfl, rfl, rfl⟩

/-- D of `DCVT` is a pair where the conversion gives 64 bits (R276). -/
theorem dcvtD_isPair {c : BitVec 7} (h : c.toNat ≤ 7) :
    (dcvtD c).writes = true ∧ (dcvtD c).isPair = [1, 4, 5, 6, 7].contains c.toNat := by
  unfold dcvtD
  generalize c.toNat = n at h
  revert n
  decide

theorem isDst_wideRow {rc : Nat} (hlegal : legal rc i = true) (h : wideRow i = some r) : r.IsDst i := by
  cases i with
  | dcvt d a c m =>
    cases h
    have hc : c.toNat ≤ 7 := by
      simp only [legal, fieldsOk, Bool.and_eq_true, decide_eq_true_eq] at hlegal
      exact hlegal.1.1
    exact ⟨_, _, rfl, dcvtD_isPair hc⟩
  | dadd | dsub | dmul | dfma | fcvt | hadd2 | hmul2 | hfma2 => cases h; exact ⟨_, _, rfl, rfl, rfl⟩
  | _ => cases h

end

/-! ### The statements -/

/-- Settles O3: each row of the table is an ALU operation that rounds once or answers a code. -/
theorem fp32Results : Obligations.Fp32Results := by
  intro i r s g v hrow hI hplain hread
  exact State.alu_row (exec_fltRow hrow) (isDst_fltRow hrow) hI hplain hread

/-- Settles O4: each row of the table is an ALU operation that rounds once and leaves its result in flight. -/
theorem specialFunctionResults : Obligations.SpecialFunctionResults := by
  intro i r s g v hrow hI hplain hread
  exact State.alu_row (exec_specialRow hrow) (isDst_specialRow hrow) hI hplain hread

/-- Settles O5: each row of the table is an ALU operation; the destination of `DCVT` is as wide as its conversion's result. -/
theorem wideAndConvertResults : Obligations.WideAndConvertResults := by
  intro i r s g v hrow hI hplain hread
  exact State.alu_row (exec_wideRow hrow) (isDst_wideRow hI.legal hrow) hI hplain hread

end Sys2Proof.Machine
end

section
/-! SUPPORT. Returns (R75, R224, R225, R284): the turn of a thread at `RET`, case by case, and the load of its newest spilled
return address. -/

namespace Sys2Proof.Machine
open Sys2Proof

theorem State.updThr_thr_self {s : State} {gid t : Nat} (f : Thread → Thread) (hgrp : s.hasGrp gid = true)
    (ht : t < (s.grp gid).threads.length) : (s.updThr gid t f).thr gid t = f (s.thr gid t) := by
  obtain ⟨g, hg⟩ := Option.isSome_iff_exists.1 hgrp
  have hgroup := s.grp_of_kfind gid g hg
  rw [hgroup] at ht
  rw [State.thr, State.thr, hgroup, State.updThr, s.updGrp_grp gid _ g hg, Group.updThr_thr g t f ht]

section
variable {s u : State} {t : Nat}

/-! ### The load of the newest spilled return address (R284) -/

theorem State.refill_held {e : RetEnt} {es : List RetEnt} (h : (s.thr s.cur.gid t).ret = e :: es) : s.refill t = s :=
  if_pos (by rw [h]; rfl)

theorem State.refill_unspilled (h : (s.thr s.cur.gid t).spilled = 0) : s.refill t = s :=
  if_pos (by rw [h]; simp)

section
variable {r : Res} (hret : (s.thr s.cur.gid t).ret = []) (hspilled : 0 < (s.thr s.cur.gid t).spilled)
  (hreach : s.reach (s.who s.cur.gid t)
    (Acc.read .A ((s.spillAt s.cur.gid t).1 + 8 * ((s.thr s.cur.gid t).spilled - 1)) 8) = (u, r))
include hret hspilled hreach

theorem State.refill_fails (hfail : ∀ key attr, r ≠ .ok key attr) :
    s.refill t = u.failRes [t] r ((s.spillAt s.cur.gid t).1 + 8 * ((s.thr s.cur.gid t).spilled - 1)) := by
  unfold State.refill
  simp only [hret, List.isEmpty_nil, Bool.not_true, Bool.false_or, decide_eq_true_eq, if_neg (Nat.ne_of_gt hspilled), hreach]

theorem State.refill_loads {key attr : Nat} (hok : r = .ok key attr) : s.refill t = u.updThr s.cur.gid t fun x =>
    { x with ret := [⟨u.mem.num key 8, u.mem.anyP key 8⟩], spilled := x.spilled - 1 } := by
  subst hok
  unfold State.refill
  simp only [hret, List.isEmpty_nil, Bool.not_true, Bool.false_or, decide_eq_true_eq, if_neg (Nat.ne_of_gt hspilled), hreach]

end

/-! ### One thread at a return (R224, R225, R284) -/

section
variable (hrefill : s.refill t = u)
include hrefill

theorem State.retThread_stops (hstop : u.stopped t = true) : s.retThread t = u := by
  subst hrefill
  exact if_pos hstop

section
variable (hgoes : u.stopped t = false)
include hgoes

theorem State.retThread_empty (hret : (u.thr u.cur.gid t).ret = []) : s.retThread t = u.trap t 0x12 0 := by
  subst hrefill
  refine (if_neg (mt hgoes.symm.trans (by decide))).trans ?_
  simp only [hret]

section
variable {e : RetEnt} {es : List RetEnt} (hret : (u.thr u.cur.gid t).ret = e :: es)
include hret

/-- A thread that has a return address goes there, unless that depends on a proposal and PCTL.PBRT is set. -/
theorem State.retThread_pops : s.retThread t =
    if (e.p || (u.thr u.cur.gid t).gbp) && u.cg.ctl.pbrt then u.trap t 0x04 0
    else (u.updThr u.cur.gid t fun y => { y with
      ret := es, pos := ⟨e.pc, 0⟩, loop := none
      taint := y.taint.dropWhile fun a => es.length + y.spilled < a.depth }).movedAll [t] := by
  subst hrefill
  refine (if_neg (mt hgoes.symm.trans (by decide))).trans ?_
  simp only [hret]
  rfl

theorem State.retThread_proposal (hdep : (e.p || (u.thr u.cur.gid t).gbp) = true) (hpbrt : u.cg.ctl.pbrt = true) :
    s.retThread t = u.trap t 0x04 0 :=
  (State.retThread_pops hrefill hgoes hret).trans (if_pos (by rw [hdep, hpbrt, Bool.and_self]))

theorem State.retThread_returns (hdep : (e.p || (u.thr u.cur.gid t).gbp) = false ∨ u.cg.ctl.pbrt = false) :
    s.retThread t = (u.updThr u.cur.gid t fun y => { y with
      ret := es, pos := ⟨e.pc, 0⟩, loop := none
      taint := y.taint.dropWhile fun a => es.length + y.spilled < a.depth }).movedAll [t] := by
  refine (State.retThread_pops hrefill hgoes hret).trans (if_neg ?_)
  rw [Bool.and_eq_true]
  rintro ⟨hdep', hpbrt'⟩
  rcases hdep with h | h
  · exact absurd (h.symm.trans hdep') (by decide)
  · exact absurd (h.symm.trans hpbrt') (by decide)

end
end
end

theorem State.retOne_active (h : t ∈ s.cur.mask) : s.retOne t = s.retThread t := if_pos (by simp [h])

theorem State.retOne_inactive (h : t ∉ s.cur.mask) :
    s.retOne t = if (s.thr s.cur.gid t).gbp ∧ s.cg.ctl.pbrt then s.trap t 0x04 0 else s := by
  refine (if_neg (by simp [h])).trans ?_
  simp only [Bool.and_eq_true]

theorem exec_ret {g : Group} (hI : s.Issues .ret g) :
    exec .ret s = .next ((s.cur.path.foldl State.retOne s).splitEnds).finish :=
  if_neg (by rw [s.cg_eq g hI.group]; exact hI.home)

end

/-! ### The statement -/

/-- Settles O20: each thread of the path takes its turn, whose return address is in a hardware entry or is loaded first. -/
theorem returns : Obligations.Returns := by
  intro s g hI
  refine ⟨State.retOne, exec_ret hI, ?_⟩
  intro s1 t hcur htrap hviol hstay hhold
  have hgoes := State.stopped_eq_false htrap hviol hstay hhold
  rw [← hcur]
  refine ⟨State.retOne_inactive, ?empty, ?active⟩
  case empty =>
    intro hmem hret hspilled
    exact (State.retOne_active hmem).trans (State.retThread_empty (State.refill_unspilled hspilled) hgoes hret)
  case active =>
    intro hmem pops
    have hturn := State.retOne_active hmem
    refine ⟨fun e es hret => ?held, fun s2 r hret hspilled hreach => ⟨fun hfail => ?fails, ?loads⟩⟩
    case held =>
      have hrefill := State.refill_held hret
      exact ⟨fun hdep hpbrt => hturn.trans (State.retThread_proposal hrefill hgoes hret hdep hpbrt),
        fun hdep => hturn.trans (State.retThread_returns hrefill hgoes hret hdep)⟩
    case fails =>
      exact hturn.trans (State.retThread_stops (State.refill_fails hret hspilled hreach hfail) (State.failRes_stopped ..))
    case loads =>
      intro key attr hok e u hgrp ht htrap hviol hstay hhold
      have hrefill : s1.refill t = u := State.refill_loads hret hspilled hreach hok
      have hgoes := State.stopped_eq_false htrap hviol hstay hhold
      have hchecked := s1.reach_checked (s1.who s1.cur.gid t)
        (Acc.read .A ((s1.spillAt s1.cur.gid t).1 + 8 * ((s1.thr s1.cur.gid t).spilled - 1)) 8)
      rw [hreach] at hchecked
      have hthr : (u.thr u.cur.gid t).ret = [e] := by
        have hgid : u.cur.gid = s1.cur.gid := by rw [State.updThr_cur, hchecked.cur]
        rw [hgid, State.updThr_thr_self _ hgrp ht]
      exact ⟨fun hdep hpbrt => hturn.trans (State.retThread_proposal hrefill hgoes hthr hdep hpbrt),
        fun hdep => hturn.trans (State.retThread_returns hrefill hgoes hthr hdep)⟩

end Sys2Proof.Machine
end

section
/-! SUPPORT. Loops, and the instructions that trap (R259, R286, R287, R295). -/

namespace Sys2Proof.Machine
open Sys2Proof

/-! ### A thread at a loop (R286) -/

/-- The state of a thread at `LOOP` with a count in D: in the first pass of the body, or past it where the count is 0. -/
def Thread.loopEntry (x : Thread) (next stop : Nat) (steps : List Int) (v : Vals) : Thread :=
  if u32 v.d = 0 then { x with pos := ⟨stop, 0⟩ } else { x with pos := ⟨next, 0⟩, loop := some ⟨next, stop, u32 v.d, 0, steps⟩ }

/-- The turn of a thread at `LOOP`, whose body ends before `stop`. -/
def State.loopTurn (i : Instr) (stop : Nat) (steps : List Int) (s : State) (t : Nat) : State :=
  match s.readOps s.cur.gid t (operands i) Vals.zero with
  | (u, .error r) => u.failRd [t] r
  | (u, .ok v) => (u.updThr u.cur.gid t fun x => x.loopEntry u.cur.nextHdr stop steps v).movedAll [t]

theorem u32_eq_zero_iff {x : DWord} : u32 x = 0 ↔ x.lo = 0#32 := by
  rw [u32_eq_lo, toNat_eq_zero_iff]

section
variable {s u : State} {i : Instr} {stop t : Nat} {steps : List Int} {v : Vals}
  (hread : s.readOps s.cur.gid t (operands i) Vals.zero = (u, .ok v))
include hread

theorem State.loopTurn_skips (hcount : v.d.lo = 0#32) : s.loopTurn i stop steps t =
    (u.updThr u.cur.gid t fun x => { x with pos := ⟨stop, 0⟩ }).movedAll [t] := by
  unfold State.loopTurn
  rw [hread]
  exact State.updThr_movedAll_congr [t] (if_pos (u32_eq_zero_iff.2 hcount))

theorem State.loopTurn_enters (hcount : v.d.lo ≠ 0#32) : s.loopTurn i stop steps t =
    (u.updThr u.cur.gid t fun x => { x with
      pos := ⟨u.cur.nextHdr, 0⟩, loop := some ⟨u.cur.nextHdr, stop, v.d.lo.toNat, 0, steps⟩ }).movedAll [t] := by
  unfold State.loopTurn
  rw [hread, ← u32_eq_lo]
  exact State.updThr_movedAll_congr [t] (if_neg (mt u32_eq_zero_iff.1 hcount))

end

/-! ### The body of a loop (R287) -/

section
variable {s u : State} {g : Group} {cnt : Code} {len : BitVec 5} {id ia ib ic : BitVec 4} {it : BitVec 2} {io : BitVec 14}
  (hI : s.Issues (.loop cnt len id ia ib ic it io) g) (hplain : popNames (.loop cnt len id ia ib ic it io) = [])
include hI hplain

theorem exec_loop_refused (hbody : s.bodyEnd (s.who s.cur.gid (s.cur.mask.headD 0)) s.cur.nextHdr (len.toNat + 1) 33 =
    (u, .ok none)) : exec (.loop cnt len id ia ib ic it io) s = .next u.illegal := by
  refine congrArg Host.Outcome.next ((s.gate_noQueue _ g hI hplain _).trans ?_)
  simp only [hbody]

theorem exec_loop_turns {stop : Nat} (hbody : s.bodyEnd (s.who s.cur.gid (s.cur.mask.headD 0)) s.cur.nextHdr
    (len.toNat + 1) 33 = (u, .ok (some stop))) :
    exec (.loop cnt len id ia ib ic it io) s = .next (u.cur.mask.foldl (State.loopTurn (.loop cnt len id ia ib ic it io) stop
      [id.toInt, ia.toInt, ib.toInt, ic.toInt, it.toInt, io.toInt]) u).splitEnds.finish := by
  refine congrArg Host.Outcome.next ((s.gate_noQueue _ g hI hplain _).trans ?_)
  simp only [hbody, signOf_toNat]
  rfl

end

/-! ### The statements -/

/-- Settles O21: the body is read once, for the first active thread, and then each active thread takes its turn. -/
theorem loops : Obligations.Loops := by
  intro s g cnt len id ia ib ic it io i hI hplain
  refine ⟨fun u hbody => exec_loop_refused hI hplain hbody, fun u stop hbody => ?_⟩
  exact ⟨State.loopTurn i stop _, exec_loop_turns hI hplain hbody,
    fun s2 s3 t v hread => ⟨State.loopTurn_skips hread, State.loopTurn_enters hread⟩⟩

/-- Settles O15: the instructions that trap name no queue, and the words that decode to none are never checked. -/
theorem trapInstructions : Obligations.TrapInstructions := by
  intro s g
  refine ⟨fun n hI => ?trap, fun n hI => ?sysc, fun _ => rfl, fun _ => rfl⟩
  case trap => exact congrArg Host.Outcome.next (s.gate_noQueue (.trap n) g hI rfl _)
  case sysc => exact congrArg Host.Outcome.next (s.gate_noQueue (.sysc n) g hI rfl _)

/-- Settles O60: `decode` evaluates on each word. -/
theorem exampleWords : Obligations.ExampleWords := by
  refine ⟨?_, ?_, ?_, ?_, ?_, ?_, ?_, ?_, ?_, ?_⟩
  all_goals rfl

end Sys2Proof.Machine
end

section
/-! SUPPORT. The end of threads at `TAIL` (R107, R170, R290, R326). -/

namespace Sys2Proof.Machine
open Sys2Proof

/-! ### The group whose threads end (R290) -/

/-- A thread at its end, as `Group.endThread` leaves it. -/
def Thread.over (x : Thread) : Thread :=
  { x with
    life := .ended, taint := [], ret := [], spilled := 0, loop := none, saved := none, watch := none
    held := false, replay := false, ldNo := none, heldReg := false, stays := false, owed := none, done := false }

section
variable (l : List Nat) (g : Group)

theorem Group.foldEnd_threads {h : Group} (hgh : g.threads = h.threads) :
    (l.foldl Group.endThread g).threads = (l.foldl (fun k t => k.updThr t Thread.over) h).threads := by
  induction l generalizing g h with
  | nil => exact hgh
  | cons t l ih => exact ih _ (by simp only [Group.endThread, Group.updThr, Group.setThr, Group.thr, hgh]; rfl)

theorem Group.foldEnd_thr (hn : l.Nodup) (hl : ∀ t ∈ l, t < g.threads.length) (t : Nat) :
    (l.foldl Group.endThread g).thr t = if t ∈ l then (g.thr t).over else g.thr t := by
  obtain ⟨ts, hfold, -, hthr⟩ := Group.foldThr (fun _ => Thread.over) l g hn hl
  have hthreads := Group.foldEnd_threads l g rfl
  rw [hfold] at hthreads
  rw [← hthr t, Group.thr, hthreads]
  rfl

theorem Group.foldEnd_pend :
    (l.foldl Group.endThread g).pend = g.pend.filter fun p => !l.contains p.tix || p.win.isSome := by
  induction l generalizing g with
  | nil => exact (List.filter_eq_self.2 fun _ _ => rfl).symm
  | cons t l ih =>
    rw [List.foldl_cons, ih]
    simp only [Group.endThread, List.filter_filter]
    refine List.filter_congr fun p _ => ?_
    by_cases hwin : p.win.isSome = true
    · simp [hwin]
    · by_cases htix : p.tix = t
      · simp [hwin, htix]
      · simp [hwin, htix]

theorem Group.foldEnd_ctl : (l.foldl Group.endThread g).ctl = g.ctl := by
  induction l generalizing g with
  | nil => rfl
  | cons t l ih => exact (ih _).trans rfl

theorem Group.foldEnd_g : (l.foldl Group.endThread g).g = g.g := by
  induction l generalizing g with
  | nil => rfl
  | cons t l ih => exact (ih _).trans rfl

end

/-! ### Refused writes count (R170) -/

theorem State.updLaunch_launch? (s : State) (lid : Nat) (f : Launch → Launch) (hf : ∀ l, (f l).lid = l.lid) :
    (s.updLaunch lid f).launch? lid = (s.launch? lid).map f := by
  have hkeeps : ∀ l : Launch, (if l.lid = lid then f l else l).lid = l.lid := fun l => by
    split
    · exact hf l
    · rfl
  simp only [State.launch?, State.updLaunch, List.find?_map, Function.comp_def, hkeeps]
  refine Option.map_congr fun l hl => if_pos ?_
  simpa using List.find?_some hl

section
variable {s : State} {gid : Nat} {tids : List Nat}

/-- The threads of a list whose side log refused a write. -/
def State.refusedOf (s : State) (gid : Nat) (tids : List Nat) : List Nat :=
  tids.filter fun t => (s.core (s.grp gid).core).sideRef.any fun e => e.1 = s.agent gid t

theorem State.sideTails_clean (h : s.refusedOf gid tids = []) : s.sideTails gid tids = s :=
  if_pos (List.isEmpty_iff.2 h)

theorem State.sideTails_refused (h : s.refusedOf gid tids ≠ []) : s.sideTails gid tids =
    (s.dropRefs gid (s.refusedOf gid tids)).countTrapped gid (s.refusedOf gid tids).length :=
  if_neg (mt List.isEmpty_iff.1 h)

theorem State.sideTails_groups (s : State) (gid : Nat) (tids : List Nat) : (s.sideTails gid tids).groups = s.groups := by
  by_cases h : s.refusedOf gid tids = []
  · rw [State.sideTails_clean h]
  · rw [State.sideTails_refused h]
    rfl

theorem State.sideTails_mem (s : State) (gid : Nat) (tids : List Nat) : (s.sideTails gid tids).mem = s.mem := by
  by_cases h : s.refusedOf gid tids = []
  · rw [State.sideTails_clean h]
  · rw [State.sideTails_refused h]
    rfl

theorem State.sideTails_launch (h : s.refusedOf gid tids ≠ []) {l : Launch} (hl : s.launch? (s.grp gid).lid = some l) :
    (s.sideTails gid tids).launch? (s.grp gid).lid =
      some { l with fault := true, trapped := l.trapped + (s.refusedOf gid tids).length } := by
  rw [State.sideTails_refused h]
  refine (State.updLaunch_launch? _ _ _ ?_).trans ?_
  · exact fun _ => rfl
  · exact Option.map_eq_some_iff.2 ⟨l, hl, rfl⟩

/-! ### The threads end (R290, R326) -/

/-- Every monitor entry that is left has a watch of a thread of its core and context (R326). -/
theorem State.pruneMons_used (s : State) {k : Nat} {m : Mon} (hm : m ∈ ((s.pruneMons k).core k).mons) :
    ∃ e ∈ s.groups, e.2.core = k ∧ e.2.ctx = m.ctx ∧ ∃ t ∈ e.2.threads, ∃ w,
      t.watch = some w ∧ w.mon = true ∧ w.key / 64 = m.line := by
  rw [State.pruneMons, State.updCore_core] at hm
  have hused := (List.mem_filter.1 hm).2
  simpa [List.any_eq_true, Option.any_eq_true, and_assoc] using hused

section
variable {g : Group} (hg : kfind s.groups gid = some g)
include hg

theorem State.endThreads_groups :
    (s.endThreads gid tids).groups = kset s.groups gid (tids.foldl Group.endThread g) := by
  have hside : kfind (s.sideTails gid tids).groups gid = some g := by rw [State.sideTails_groups, hg]
  refine (State.updGrp_groups _ gid _ g hside).trans ?_
  rw [State.sideTails_groups]

theorem State.endThreads_used {m : Mon} (hm : m ∈ ((s.endThreads gid tids).core g.core).mons) :
    ∃ e ∈ (s.endThreads gid tids).groups, e.2.core = g.core ∧ e.2.ctx = m.ctx ∧ ∃ t ∈ e.2.threads, ∃ w,
      t.watch = some w ∧ w.mon = true ∧ w.key / 64 = m.line := by
  have hcore : ((s.sideTails gid tids).grp gid).core = g.core := by
    rw [State.grp, State.sideTails_groups, ← State.grp, s.grp_of_kfind gid g hg]
  rw [State.endThreads, State.threadsOver, hcore] at hm ⊢
  exact State.pruneMons_used ((s.sideTails gid tids).updGrp gid _) hm

end

theorem State.endThreads_launches (s : State) (gid : Nat) (tids : List Nat) :
    (s.endThreads gid tids).launches = (s.sideTails gid tids).launches := State.updGrp_launches ..

theorem State.endThreads_mem (s : State) (gid : Nat) (tids : List Nat) : (s.endThreads gid tids).mem = s.mem :=
  (State.updGrp_mem ..).trans (State.sideTails_mem ..)

end

/-! ### The statement -/

theorem exec_tail {s : State} {g : Group} (hI : s.Issues .tail g) :
    exec .tail s = .next ((s.endThreads s.cur.gid s.cur.mask).movedAll s.cur.mask).finish :=
  if_neg (by rw [s.cg_eq g hI.group]; exact hI.home)

/-- Settles O22: the active threads end one after another in their group; the launch counts those with a refused write. -/
theorem tails : Obligations.Tails := by
  intro s g hI h u bad
  have hgrp := s.grp_of_kfind s.cur.gid g hI.group
  have hbad : s.refusedOf s.cur.gid s.cur.mask = bad := by rw [State.refusedOf, hgrp]
  have hgroups : u.groups = kset s.groups s.cur.gid h := State.endThreads_groups hI.group
  have hthr := Group.foldEnd_thr s.cur.mask g hI.mask fun t ht => hI.size ▸ hI.tids t (hI.sub t ht)
  refine ⟨exec_tail hI, ?_, State.endThreads_mem .., ?_, ?_, ?_, fun m hm => State.endThreads_used hI.group hm, ?_, ?_,
    Group.foldEnd_pend .., Group.foldEnd_ctl .., Group.foldEnd_g ..⟩
  · rw [hgroups, kfind_kset_self]
  · intro k hk
    rw [hgroups, kfind_kset_ne _ _ _ _ hk]
  · intro hnone
    rw [State.endThreads_launches, State.sideTails_clean (hbad.trans hnone)]
  · intro hsome l hl
    rw [← hbad] at hsome ⊢
    rw [← hgrp] at hl ⊢
    rw [State.launch?, State.endThreads_launches]
    exact State.sideTails_launch hsome hl
  · intro t ht
    rw [hthr t, if_pos ht]
    exact ⟨rfl, rfl, rfl, rfl, rfl⟩
  · exact fun t ht => (hthr t).trans (if_neg ht)

end Sys2Proof.Machine
end

section
/-! SUPPORT. Hints, the turn of a path, regions and dead registers (R285, R291 to R293, R315). -/

namespace Sys2Proof.Machine
open Sys2Proof

/-! ### Hints, and where a path ends its turn (R285, R291, R315) -/

section
variable {s : State} {g : Group}

theorem exec_nop (hI : s.Issues .nop g) : exec .nop s = .next s.finish :=
  if_neg (by rw [s.cg_eq g hI.group]; exact hI.home)

theorem exec_join (hI : s.Issues .join g) :
    exec .join s = .next (if g.otherPath s.cur.path then s.endTurn else s).finish := by
  rw [← s.cg_eq g hI.group]
  exact if_neg (by rw [s.cg_eq g hI.group]; exact hI.home)

theorem exec_yield (hI : s.Issues .yield g) : exec .yield s = .next ((s.endTurn).finish.yields s.cur.gid) :=
  if_neg (by rw [s.cg_eq g hI.group]; exact hI.home)

/-- An address names no queue. -/
theorem popNames_prf (a : BitVec 7) : popNames (.prf a) = [] := by
  have hops : operands (.prf a) = [⟨.A, .ga, a⟩] := rfl
  simp [popNames, hops, Form.isPair]

theorem exec_prf {a : BitVec 7} (hI : s.Issues (.prf a) g) : exec (.prf a) s = .next s.finish :=
  congrArg Host.Outcome.next (s.gate_noQueue _ g hI (popNames_prf a) _)

end

/-! ### A thread at a region's start (R292) -/

/-- The turn of a thread at `RGN`: its region opens at the next clause with the restart word A. -/
def State.rgnTurn (i : Instr) (s : State) (t : Nat) : State :=
  match s.readOps s.cur.gid t (operands i) Vals.zero with
  | (u, .error r) => u.failRd [t] r
  | (u, .ok v) => u.updThr u.cur.gid t fun x => { x with region := ⟨true, u.cur.nextHdr, ⟨v.a.lo, v.p⟩⟩ }

theorem State.rgnTurn_opens {s u : State} {i : Instr} {t : Nat} {v : Vals}
    (hread : s.readOps s.cur.gid t (operands i) Vals.zero = (u, .ok v)) : s.rgnTurn i t =
      u.updThr u.cur.gid t fun x => { x with region := ⟨true, u.cur.nextHdr, ⟨v.a.lo, v.p⟩⟩ } := by
  rw [State.rgnTurn, hread]

/-- Pops change queues and what the sweep holds of them, not the issuing path (R141). -/
theorem State.popAll_cur (s : State) (gid : Nat) (ns : List Nat) : (s.popAll gid ns).cur = s.cur := by
  induction ns generalizing s with
  | nil => rfl
  | cons n ns ih =>
    refine (ih _).trans ?_
    dsimp only
    split
    · rfl
    · rfl

theorem exec_rgn {s : State} {g : Group} {a : BitVec 7} (hI : s.Issues (.rgn a) g)
    (hpop : s.popCheck s.cur.gid (s.popNeeds (.rgn a)) = .ready) : exec (.rgn a) s =
      .next (s.cur.mask.foldl (State.rgnTurn (.rgn a)) (s.popAll s.cur.gid (s.popNeeds (.rgn a)))).finish := by
  refine congrArg Host.Outcome.next ((s.gate_ready _ g hI hpop _).trans ?_)
  rw [State.popAll_cur]
  rfl

/-! ### Dead registers (R138, R293) -/

theorem mem_tidsOf {m k : Nat} : k ∈ tidsOf m ↔ k < 16 ∧ m.testBit k = true := by
  rw [tidsOf, List.mem_filter, List.mem_range, decide_eq_true_eq, Nat.testBit_eq_decide_div_mod_eq, decide_eq_true_eq]

/-- The registers that `DEAD` names: 16 from F on, by the bits of its mask. -/
def deadNames (f : BitVec 7) (m : BitVec 16) : List Nat := (tidsOf m.toNat).map fun k => f.toNat + k

theorem mem_deadNames {f : BitVec 7} {m : BitVec 16} {c : Nat} :
    c ∈ deadNames f m ↔ f.toNat ≤ c ∧ c < f.toNat + 16 ∧ m.getLsbD (c - f.toNat) = true := by
  simp only [deadNames, List.mem_map, mem_tidsOf, BitVec.getLsbD]
  constructor
  · rintro ⟨k, ⟨hk, hbit⟩, rfl⟩
    exact ⟨by omega, by omega, by rwa [Nat.add_sub_cancel_left]⟩
  · rintro ⟨hle, hlt, hbit⟩
    exact ⟨c - f.toNat, ⟨by omega, hbit⟩, by omega⟩

/-- A thread whose registers of a list are dead. -/
def Thread.kill (x : Thread) (ns : List Nat) : Thread := { x with dead := (x.dead ++ ns).eraseDups }

theorem Thread.kill_dead {x : Thread} {ns : List Nat} {c : Nat} :
    (x.kill ns).dead.contains c = true ↔ x.dead.contains c = true ∨ c ∈ ns := by
  simp only [Thread.kill, List.contains_iff_mem, List.mem_eraseDups, List.mem_append]

theorem exec_dead {s : State} {g : Group} {f : BitVec 7} {m : BitVec 16} (hI : s.Issues (.dead f m) g) :
    exec (.dead f m) s = .next (s.setGrp s.cur.gid
      (s.cur.mask.foldl (fun k t => k.updThr t fun x => x.kill (deadNames f m)) g)).finish := by
  refine congrArg Host.Outcome.next ((s.gate_noQueue _ g hI rfl _).trans (congrArg State.finish ?_))
  exact s.updGrp_eq s.cur.gid _ g hI.group

/-! ### The statement -/

/-- Settles O23: the hints only end their sweep, and `RGN` and `DEAD` update each active thread on its own. -/
theorem hintsAndRegions : Obligations.HintsAndRegions := by
  refine ⟨fun s g => ⟨exec_nop, fun a => exec_prf, exec_join, exec_yield⟩, fun s g => ⟨?region, ?dead⟩⟩
  case region =>
    exact fun a hI hpop => ⟨State.rgnTurn (.rgn a), exec_rgn hI hpop, fun _ _ _ _ => State.rgnTurn_opens⟩
  case dead =>
    intro f m hI
    obtain ⟨ts, hfold, -, hthr⟩ := Group.foldThr (fun _ x => x.kill (deadNames f m)) s.cur.mask g hI.mask
      fun t ht => hI.size ▸ hI.tids t (hI.sub t ht)
    refine ⟨g.withThreads ts, hfold ▸ exec_dead hI, fun t ht c => ?_, fun t ht => (hthr t).trans (if_neg ht), rfl⟩
    rw [hthr t, if_pos ht, Thread.kill_dead, mem_deadNames]

end Sys2Proof.Machine
end

section
/-! SUPPORT. Reads and writes of control registers (R24, R98, R108, R206, R208, R212, R260, R261, R294). -/

namespace Sys2Proof.Machine
open Sys2Proof

/-! ### What a control register reads (R24, R98, R108, R260) -/

/-- A sum over a longer range is no less. -/
theorem sum_range_le {f : Nat → Nat} {m n : Nat} (h : m ≤ n) :
    ((List.range m).map f).sum ≤ ((List.range n).map f).sum := by
  obtain ⟨k, rfl⟩ := Nat.exists_eq_add_of_le h
  rw [List.range_add, List.map_append, List.sum_append]
  exact Nat.le_add_right ..

section
variable {s u : State} {k : Nat}

theorem State.cyc_released (h : s.now = (s.core k).released) : s.cyc k = 0 := by
  rw [State.cyc, h, Nat.sub_self]
  rfl

theorem State.cyc_le (hcores : u.cores = s.cores) (hnow : s.now ≤ u.now) : s.cyc k ≤ u.cyc k := by
  have hcore : u.core k = s.core k := by rw [State.core, hcores, State.core]
  rw [State.cyc, State.cyc, hcore]
  exact sum_range_le (Nat.sub_le_sub_right hnow _)

end

theorem pwrhWord_eq (h : BitVec 8) : pwrhWord h = h.toNat * 2 ^ 16 + (if h.toInt < 16 then 0 else min 7 (h.toNat / 16)) * 2 ^ 8
    + if 0 ≤ h.toInt then 0 else if -32 ≤ h.toInt then 1 else 2 := by
  rw [pwrhWord, fitOf, thrOf, hdrmInt, signOf_toNat]

section
variable {s : State} {gid : Nat}

theorem State.readCtl_wbase {n : Nat} (hn : n < 8) :
    s.readCtl gid (32 + 2 * n) = (s.grp gid).ctl.wbase.getD n (CReg.of 0) := by
  match n, hn with
  | 0, _ | 1, _ | 2, _ | 3, _ | 4, _ | 5, _ | 6, _ | 7, _ => rfl

theorem State.readCtl_wlen {n : Nat} (hn : n < 8) :
    s.readCtl gid (33 + 2 * n) = (s.grp gid).ctl.wlen.getD n (CReg.of 0) := by
  match n, hn with
  | 0, _ | 1, _ | 2, _ | 3, _ | 4, _ | 5, _ | 6, _ | 7, _ => rfl

theorem State.readCtl_bint {p : Space} (h : (s.core (s.grp gid).core).space? (s.grp gid).lid = some p) :
    s.readCtl gid 0x010 = p.bint := by
  simp only [State.readCtl, h]

theorem State.readCtl_pwrh : s.readCtl gid 0x011 = CReg.of (pwrhWord (s.hdrm (s.grp gid).core)) := rfl

theorem State.readCtl_coreid {p : Nat} (h : s.phys (s.grp gid).core = some p) :
    s.readCtl gid 0x012 = CReg.of (p % 64 * 2 ^ 10 + p / 64 % 4 * 2 ^ 8 + (s.grp gid).core % 256) := by
  simp only [State.readCtl, State.coreid, h, Option.getD_some]

end

/-! ### `MFSR` (R294) -/

/-- The turn of `MFSR`: the control register with its P, in the destination. -/
def State.mfsrTurn (i : Instr) (n : Nat) (s : State) (u : Nat × List Nat) : State :=
  match s.dstReady s.cur.gid u.1 i with
  | (v, .error r) => v.failRd u.2 r
  | (v, .ok d) => v.writeDst v.cur.gid u.1 d (v.readCtl v.cur.gid n).v ((v.readCtl v.cur.gid n).p || v.ambient u.2) none

theorem State.mfsrTurn_writes {s v : State} {i : Instr} {n t : Nat} {tt : List Nat} {d : Dst}
    (hdst : s.dstReady s.cur.gid t i = (v, .ok d)) : s.mfsrTurn i n (t, tt) =
      v.writeDst v.cur.gid t d (v.readCtl v.cur.gid n).v ((v.readCtl v.cur.gid n).p || v.ambient tt) none := by
  simp only [State.mfsrTurn, hdst]

/-- The one operand is a destination. -/
theorem popNames_mfsr (d : Code) (c : BitVec 12) : popNames (.mfsr d c) = [] := by
  have hops : operands (.mfsr d c) = [⟨.D, if ctlPair c.toNat then .pdst else .dst, d⟩] := rfl
  rw [popNames, hops]
  cases ctlPair c.toNat <;> rfl

theorem exec_mfsr {s : State} {g : Group} {d : Code} {c : BitVec 12} (hI : s.Issues (.mfsr d c) g) :
    exec (.mfsr d c) s = .next ((s.turns (.mfsr d c)).foldl (State.mfsrTurn (.mfsr d c) c.toNat) s).finish :=
  congrArg Host.Outcome.next (s.gate_noQueue _ g hI (popNames_mfsr d c) _)

/-! ### `MTSR` (R206, R208, R212, R294) -/

/-- The values that no write leaves in NBV or RM. -/
theorem ctlForbids_iff {n x : Nat} :
    ctlForbids n x = true ↔ (n = 1 ∧ (x % 4 = 0 ∨ x % 4 = 3)) ∨ (n = 7 ∧ 5 ≤ x % 8) := by
  simp [ctlForbids]

/-- The number that `MTSR` reads: D whole for a register of 64 bits, and else its low word. -/
def Vals.ctlValue (v : Vals) (n : Nat) : Nat := if ctlPair n then v.d.toNat else v.d.lo.toNat

section
variable {s u : State} {i : Instr} {n t : Nat} {tt : List Nat} {v : Vals} {ws : List (Nat × Bool)}
  (hread : s.readOps s.cur.gid t (operands i) Vals.zero = (u, .ok v))
include hread

theorem State.mtsrTurn_reads : State.mtsrTurn i n (s, ws) (t, tt) =
    if ctlForbids n (v.ctlValue n) then (u.trapAll tt 0x01 0, ws)
    else (u, ws ++ [(v.ctlValue n, v.p || u.ambient tt)]) := by
  simp only [State.mtsrTurn, hread, Vals.ctlValue, ← u32_eq_lo, u32]

theorem State.mtsrTurn_refused (hbad : ctlForbids n (v.ctlValue n) = true) :
    State.mtsrTurn i n (s, ws) (t, tt) = (u.trapAll tt 0x01 0, ws) :=
  (State.mtsrTurn_reads hread).trans (if_pos hbad)

theorem State.mtsrTurn_accepted (hgood : ¬ ctlForbids n (v.ctlValue n) = true) :
    State.mtsrTurn i n (s, ws) (t, tt) = (u, ws ++ [(v.ctlValue n, v.p || u.ambient tt)]) :=
  (State.mtsrTurn_reads hread).trans (if_neg hgood)

end

/-- The state once the values of all threads are written. -/
def State.writeCtls (r : State × List (Nat × Bool)) (n : Nat) : State := r.2.foldl (fun v w => v.writeCtl n w.1 w.2) r.1

section
variable {s : State} {g : Group} {a : Code} {c : BitVec 12} (hI : s.Issues (.mtsr a c) g)
  (hplain : popNames (.mtsr a c) = [])
include hI hplain

theorem exec_mtsr : exec (.mtsr a c) s =
    let r := (s.turns (.mtsr a c)).foldl (State.mtsrTurn (.mtsr a c) c.toNat) (s, [])
    let u := State.writeCtls r c.toNat
    .next (if c.toNat = 7 && !r.2.isEmpty then u.updGrp u.cur.gid Group.reseed else u).finish :=
  congrArg Host.Outcome.next (s.gate_noQueue _ g hI hplain _)

end

section
variable (s : State) (x : Nat) (p : Bool)

theorem State.writeCtl_group {n : Nat} (h : n ≠ 0x010) :
    s.writeCtl n x p = s.updGrp s.cur.gid fun k => { k with ctl := k.ctl.put n x p } := if_neg h

theorem State.writeCtl_bint : s.writeCtl 0x010 x p = s.updCore s.cg.core fun k =>
    k.updSpace s.cg.lid fun y => { y with bint := ⟨BitVec.ofNat 64 (x % 2 ^ 16), p⟩ } := rfl

end

/-! ### The statements -/

/-- Settles O24: each register is an arm of the read; the cycles of a longer time are a sum over a longer range. -/
theorem readsOfControlRegisters : Obligations.ReadsOfControlRegisters := by
  intro s g d c hI
  obtain rfl : s.grp s.cur.gid = g := s.grp_of_kfind _ _ hI.group
  refine ⟨⟨State.mfsrTurn (.mfsr d c) c.toNat, exec_mfsr hI, fun _ _ _ _ _ => State.mfsrTurn_writes⟩,
    State.cyc_released, fun u => State.cyc_le, rfl, rfl, rfl, rfl, rfl, rfl, rfl, rfl, rfl, rfl, rfl, rfl, ?_, ?_, ?_, ?_⟩
  · exact fun n hn => ⟨State.readCtl_wbase hn, State.readCtl_wlen hn⟩
  · exact fun p => State.readCtl_bint
  · exact State.readCtl_pwrh.trans (congrArg CReg.of (pwrhWord_eq _))
  · exact fun p => State.readCtl_coreid

/-- Settles O26: every thread's read is a turn, and the writes follow the last of them. -/
theorem writesBySoftware : Obligations.WritesBySoftware := by
  refine ⟨fun s g a c hI hplain => ⟨State.mtsrTurn (.mtsr a c) c.toNat, ?_, ?_, ?_⟩,
    fun s n x p => ⟨s.writeCtl_group x p, s.writeCtl_bint x p⟩⟩
  · intro hstands
    refine (exec_mtsr hI hplain).trans (congrArg (fun u : State => Host.Outcome.next u.finish) (if_neg ?_))
    rw [Bool.and_eq_true, decide_eq_true_eq, Bool.not_eq_true', List.isEmpty_eq_false_iff]
    rcases hstands with hn | hnone
    · exact fun h => hn h.1
    · exact fun h => h.2 hnone
  · intro hn hsome
    refine (exec_mtsr hI hplain).trans (congrArg (fun u : State => Host.Outcome.next u.finish) (if_pos ?_))
    rw [Bool.and_eq_true, decide_eq_true_eq, Bool.not_eq_true', List.isEmpty_eq_false_iff]
    exact ⟨hn, hsome⟩
  · intro s1 s2 ws t tt v hread
    exact ⟨fun hbad => State.mtsrTurn_refused hread (ctlForbids_iff.2 hbad),
      fun hgood => State.mtsrTurn_accepted hread (mt ctlForbids_iff.1 hgood)⟩

end Sys2Proof.Machine
end

section
/-! SUPPORT. Spawns and launches of a home group (R76, R86, R93, R288, R289): the turn of each instruction, case by case. -/

namespace Sys2Proof.Machine
open Sys2Proof

/-! ### One thread at a spawn (R93, R288) -/

/-- An address that no clause starts at. -/
def BadEntry (entry : Nat) : Prop := entry = 0 ∨ entry % 4 ≠ 0

theorem badEntry_iff {entry : Nat} : (entry = 0 || entry % 4 ≠ 0) = true ↔ BadEntry entry := by
  rw [Bool.or_eq_true, decide_eq_true_eq, decide_eq_true_eq, BadEntry]

theorem any_isNone_map_some (rs : List Reg) : (rs.map some).any Option.isNone = false := by simp

theorem filterMap_id_map_some (rs : List Reg) : (rs.map some).filterMap id = rs := by simp

section
variable {s u : State} {i : Instr} {b n t : Nat} {tt : List Nat} {v : Vals} {rs : List Reg}
  (hread : s.readOps s.cur.gid t (operands i) Vals.zero = (u, .ok v))
  (hargs : ((List.range n).map fun k => u.cg.source u.free t (b + k)) = rs.map some)
include hread hargs

theorem State.spawnTurn_refused (hentry : BadEntry v.a.toNat) : s.spawnTurn i b n (t, tt) = u.trapAll tt 0x01 0 := by
  simp only [State.spawnTurn, hread, hargs, any_isNone_map_some, Bool.false_eq_true, if_false, if_pos (badEntry_iff.2 hentry)]

section
variable (hentry : ¬ BadEntry v.a.toNat)
include hentry

theorem State.spawnTurn_noBin (hbin : (u.core u.cg.core).binFor u.cg.lid v.a.toNat = none) :
    s.spawnTurn i b n (t, tt) = u.stayAll tt := by
  simp only [State.spawnTurn, hread, hargs, any_isNone_map_some, Bool.false_eq_true, if_false,
    if_neg (mt badEntry_iff.1 hentry), hbin]

theorem State.spawnTurn_enters {k : Nat} (hbin : (u.core u.cg.core).binFor u.cg.lid v.a.toNat = some k) :
    s.spawnTurn i b n (t, tt) = (u.updCore u.cg.core fun y => y.enterBin k ⟨u.cg.lid, u.cg.ctx, v.a.toNat, [], u.now,
      u.cg.role, u.cg.regs, u.cg.eclass, u.cg.kind = .message, false, false⟩ rs).closeRegions tt := by
  simp only [State.spawnTurn, hread, hargs, any_isNone_map_some, filterMap_id_map_some, Bool.false_eq_true, if_false,
    if_neg (mt badEntry_iff.1 hentry), hbin]

end
end

theorem exec_spawn {s : State} {g : Group} {c a b : BitVec 7} (hI : s.Issues (.spawn c a b) g)
    (hplain : popNames (.spawn c a b) = []) : exec (.spawn c a b) s = .next ((s.turns (.spawn c a b)).foldl (fun u x =>
      if u.sweep.stays.isEmpty then u.spawnTurn (.spawn c a b) b.toNat c.toNat x else u.stayAll x.2) s).finish :=
  congrArg Host.Outcome.next (s.gate_noQueue _ g hI hplain _)

/-! ### One thread at a launch (R76, R86, R289) -/

/-- The queue that started a launch, and 0 where no launch has the number. -/
def State.homeQueue (s : State) (lid : Nat) : Nat := ((s.launch? lid).map Launch.home).getD 0

section
variable {s u : State} {i : Instr} {t : Nat} {tt : List Nat} {v : Vals}
  (hread : s.readOps s.cur.gid t (operands i) Vals.zero = (u, .ok v))
include hread

theorem State.launchTurn_misaligned (hva : v.a.toNat % 256 ≠ 0) :
    s.launchTurn i (t, tt) = u.trapAll tt 0x08 v.a.toNat := by
  simp only [State.launchTurn, hread, if_pos hva]

section
variable (hva : v.a.toNat % 256 = 0)
include hva

theorem State.launchTurn_full (hpool : 32 ≤ (u.pool u.cg.ctx).length) : s.launchTurn i (t, tt) = u.stayAll tt := by
  simp only [State.launchTurn, hread, if_neg (not_not_intro hva), if_pos hpool]

section
variable {w : State} {bs : List Byte} (hpool : (u.pool u.cg.ctx).length < 32)
include hpool

theorem State.launchTurn_closed {a : Nat}
    (hload : u.recordLoad (u.who u.cur.gid t) (chunks v.a.toNat 256) = (w, .error (.closed, a))) :
    s.launchTurn i (t, tt) = w.holdAll tt true false := by
  rw [State.readOps_cur _ _ _ _ _ _ _ hread] at hload
  simp only [State.launchTurn, hread, if_neg (not_not_intro hva), if_neg (Nat.not_le.2 hpool), hload]

section
variable (hload : u.recordLoad (u.who u.cur.gid t) (chunks v.a.toNat 256) = (w, .ok bs))
include hload

theorem State.launchTurn_malformed (hbad : recordOk bs = false) : s.launchTurn i (t, tt) = w.violAll tt 0x20 v.a.toNat := by
  rw [State.readOps_cur _ _ _ _ _ _ _ hread] at hload
  simp only [State.launchTurn, hread, if_neg (not_not_intro hva), if_neg (Nat.not_le.2 hpool), hload, hbad, Bool.not_false, if_true]

theorem State.launchTurn_adds (hgood : recordOk bs = true) : s.launchTurn i (t, tt) =
    (w.addLaunch u.cg.ctx 64 (w.homeQueue u.cg.lid) v.a.toNat bs
      (w.queue u.cg.ctx (w.homeQueue u.cg.lid)).priocap).closeRegions tt := by
  rw [State.readOps_cur _ _ _ _ _ _ _ hread] at hload
  simp only [State.launchTurn, hread, if_neg (not_not_intro hva), if_neg (Nat.not_le.2 hpool), hload, hgood, Bool.not_true,
    Bool.false_eq_true, if_false]
  rfl

end
end
end
end

/-- A well-formed record joins the launches with the next identifier (R85). -/
theorem State.addLaunch_adds (s : State) (ctx queue srcq addr : Nat) {bs : List Byte} (cap : Nat) (hgood : recordOk bs = true) :
    ∃ l : Launch, s.addLaunch ctx queue srcq addr bs cap = { s with launches := s.launches ++ [l], nextId := s.nextId + 1 }
      ∧ l.lid = s.nextId ∧ l.ctx = ctx ∧ l.queue = queue ∧ l.started = false ∧ l.malformed = false
      ∧ l.f = LFields.parse bs ∧ l.addr = addr :=
  ⟨_, rfl, rfl, rfl, rfl, rfl, congrArg Bool.not hgood, rfl, rfl⟩

theorem exec_launch {s : State} {g : Group} {a : BitVec 7} (hI : s.Issues (.launch a) g) (hplain : popNames (.launch a) = []) :
    exec (.launch a) s = .next ((s.turns (.launch a)).foldl (State.launchTurn · (.launch a) ·) s).finish :=
  congrArg Host.Outcome.next (s.gate_noQueue _ g hI hplain _)

/-! ### The statement -/

/-- Settles O48: each turn reads its operands first, and its checks stand in the order of the clauses. -/
theorem spawnsAndLaunches : Obligations.SpawnsAndLaunches := by
  refine ⟨fun s g c a b hI hplain => ?spawn, fun s g a hI hplain => ?launch⟩
  case spawn =>
    refine ⟨fun u x => u.spawnTurn (.spawn c a b) b.toNat c.toNat x, exec_spawn hI hplain, fun s1 s2 t tt v rs hread hargs => ?_⟩
    refine ⟨State.spawnTurn_refused hread hargs, fun hne halign => ?_⟩
    have hentry : ¬ BadEntry v.a.toNat := not_or.2 ⟨hne, not_not_intro halign⟩
    exact ⟨State.spawnTurn_noBin hread hargs hentry, fun k => State.spawnTurn_enters hread hargs hentry⟩
  case launch =>
    refine ⟨fun u x => u.launchTurn (.launch a) x, exec_launch hI hplain, fun s1 s2 t tt v hread => ?_⟩
    refine ⟨State.launchTurn_misaligned hread, State.launchTurn_full hread,
      fun s3 a hva hpool => State.launchTurn_closed hread hva hpool, fun s3 bs hva hpool hload => ⟨?_, fun hgood => ?_⟩⟩
    · exact State.launchTurn_malformed hread hva hpool hload
    · obtain ⟨l, hadd, hl⟩ := s3.addLaunch_adds s2.cg.ctx 64 (s3.homeQueue s2.cg.lid) v.a.toNat
        (s3.queue s2.cg.ctx (s3.homeQueue s2.cg.lid)).priocap hgood
      exact ⟨l, (State.launchTurn_adds hread hva hpool hload hgood).trans (congrArg (State.closeRegions · tt) hadd), hl⟩

end Sys2Proof.Machine
end

section
/-! SUPPORT. The passes of a loop (R252, R286, R287): where a thread moves on to, and the words of an instruction in a pass. -/

namespace Sys2Proof.Machine
open Sys2Proof

/-! ### Where a thread in a loop moves on to (R286) -/

section
variable {x : Thread} {c : Cur} {l : LoopSt}

theorem Thread.advance_inClause (h : c.pos.k < c.n) : x.advance c = { x with pos := ⟨c.pos.hdr, c.pos.k + 1⟩ } := if_pos h

section
variable (hloop : x.loop = some l) (hend : c.n ≤ c.pos.k)
include hloop hend

theorem Thread.advance_inBody (hstop : c.nextHdr ≠ l.stop) : x.advance c = { x with pos := ⟨c.nextHdr, 0⟩ } := by
  simp only [Thread.advance, if_neg (Nat.not_lt.2 hend), hloop, if_neg hstop]

theorem Thread.advance_nextPass (hstop : c.nextHdr = l.stop) (hpass : l.pass + 1 < l.count) :
    x.advance c = { x with pos := ⟨l.body, 0⟩, loop := some { l with pass := l.pass + 1 } } := by
  simp only [Thread.advance, if_neg (Nat.not_lt.2 hend), hloop, if_pos hstop, if_pos hpass]

theorem Thread.advance_leaves (hstop : c.nextHdr = l.stop) (hpass : l.count ≤ l.pass + 1) :
    x.advance c = { x with pos := ⟨c.nextHdr, 0⟩, loop := none } := by
  simp only [Thread.advance, if_neg (Nat.not_lt.2 hend), hloop, if_pos hstop, if_neg (Nat.not_lt.2 hpass)]

end
end

/-! ### The fields of an instruction's two words (R246, R249) -/

/-- The operand field of two words. -/
def fldOf (x : Word × Word) (f : Fld) : Nat := rawField x.1 x.2 f.num

/-- The TILE field of two words. -/
def tileOf (x : Word × Word) : Nat := x.2.toNat / 2 ^ 19 % 4

/-- The words with an operand field set, as `stepFld` sets it. -/
def setFld (x : Word × Word) (v : Nat) : Fld → Word × Word
  | .D => (setField x.1 17 7 v, x.2)
  | .A => (setField x.1 10 7 v, x.2)
  | .B => (setField x.1 3 7 v, x.2)
  | .C => (x.1, setField x.2 25 7 v)

section
variable (x : Word × Word) (v : Nat)

theorem fldOf_D : fldOf x .D = x.1.toNat / 2 ^ 17 % 128 := rfl
theorem fldOf_A : fldOf x .A = x.1.toNat / 2 ^ 10 % 128 := rfl
theorem fldOf_B : fldOf x .B = x.1.toNat / 2 ^ 3 % 128 := rfl
theorem fldOf_C : fldOf x .C = x.2.toNat / 2 ^ 25 := rfl
theorem setFld_D : setFld x v .D = (setField x.1 17 7 v, x.2) := rfl
theorem setFld_A : setFld x v .A = (setField x.1 10 7 v, x.2) := rfl
theorem setFld_B : setFld x v .B = (setField x.1 3 7 v, x.2) := rfl
theorem setFld_C : setFld x v .C = (x.1, setField x.2 25 7 v) := rfl

end

/-- Two word pairs agree but in operand fields. -/
structure SameBeside (x y : Word × Word) : Prop where
  low  : y.1.toNat % 8 = x.1.toNat % 8
  op   : y.1.toNat / 2 ^ 24 = x.1.toNat / 2 ^ 24
  rest : y.2.toNat % 2 ^ 25 = x.2.toNat % 2 ^ 25

theorem fldOf_lt (x : Word × Word) (f : Fld) : fldOf x f < 128 := by
  have hu := x.2.isLt
  cases f with
  | D | A | B => exact Nat.mod_lt _ (by decide)
  | C => exact Nat.div_lt_of_lt_mul hu

section
variable (w : Word) {v : Nat}

theorem setField_D (hv : v < 128) :
    (setField w 17 7 v).toNat = w.toNat / 2 ^ 24 * 2 ^ 24 + v * 2 ^ 17 + w.toNat % 2 ^ 17 := by
  have hw := w.isLt
  rw [setField, BitVec.toNat_ofNat]
  omega

theorem setField_A (hv : v < 128) :
    (setField w 10 7 v).toNat = w.toNat / 2 ^ 17 * 2 ^ 17 + v * 2 ^ 10 + w.toNat % 2 ^ 10 := by
  have hw := w.isLt
  rw [setField, BitVec.toNat_ofNat]
  omega

theorem setField_B (hv : v < 128) :
    (setField w 3 7 v).toNat = w.toNat / 2 ^ 10 * 2 ^ 10 + v * 2 ^ 3 + w.toNat % 2 ^ 3 := by
  have hw := w.isLt
  rw [setField, BitVec.toNat_ofNat]
  omega

theorem setField_C (hv : v < 128) : (setField w 25 7 v).toNat = v * 2 ^ 25 + w.toNat % 2 ^ 25 := by
  have hw := w.isLt
  rw [setField, BitVec.toNat_ofNat]
  omega

theorem setField_TILE (hv : v < 4) :
    (setField w 19 2 v).toNat = w.toNat / 2 ^ 21 * 2 ^ 21 + v * 2 ^ 19 + w.toNat % 2 ^ 19 := by
  have hw := w.isLt
  rw [setField, BitVec.toNat_ofNat]
  omega

end

section
variable (x : Word × Word) {v : Nat} (hv : v < 128)
include hv

theorem fldOf_setFld_same (f : Fld) : fldOf (setFld x v f) f = v := by
  cases f with
  | D => rw [fldOf_D, setFld_D, setField_D _ hv]; omega
  | A => rw [fldOf_A, setFld_A, setField_A _ hv]; omega
  | B => rw [fldOf_B, setFld_B, setField_B _ hv]; omega
  | C => rw [fldOf_C, setFld_C, setField_C _ hv]; omega

theorem fldOf_setFld_ne {f k : Fld} (h : k ≠ f) : fldOf (setFld x v f) k = fldOf x k := by
  cases f with
  | D =>
    cases k with
    | D => exact absurd rfl h
    | A => rw [fldOf_A, fldOf_A, setFld_D, setField_D _ hv]; omega
    | B => rw [fldOf_B, fldOf_B, setFld_D, setField_D _ hv]; omega
    | C => rw [fldOf_C, fldOf_C, setFld_D]
  | A =>
    cases k with
    | D => rw [fldOf_D, fldOf_D, setFld_A, setField_A _ hv]; omega
    | A => exact absurd rfl h
    | B => rw [fldOf_B, fldOf_B, setFld_A, setField_A _ hv]; omega
    | C => rw [fldOf_C, fldOf_C, setFld_A]
  | B =>
    cases k with
    | D => rw [fldOf_D, fldOf_D, setFld_B, setField_B _ hv]; omega
    | A => rw [fldOf_A, fldOf_A, setFld_B, setField_B _ hv]; omega
    | B => exact absurd rfl h
    | C => rw [fldOf_C, fldOf_C, setFld_B]
  | C =>
    cases k with
    | D => rw [fldOf_D, fldOf_D, setFld_C]
    | A => rw [fldOf_A, fldOf_A, setFld_C]
    | B => rw [fldOf_B, fldOf_B, setFld_C]
    | C => exact absurd rfl h

theorem setFld_beside (f : Fld) : SameBeside x (setFld x v f) := by
  cases f with
  | D => rw [setFld_D]; exact ⟨by rw [setField_D _ hv]; omega, by rw [setField_D _ hv]; omega, rfl⟩
  | A => rw [setFld_A]; exact ⟨by rw [setField_A _ hv]; omega, by rw [setField_A _ hv]; omega, rfl⟩
  | B => rw [setFld_B]; exact ⟨by rw [setField_B _ hv]; omega, by rw [setField_B _ hv]; omega, rfl⟩
  | C => rw [setFld_C]; exact ⟨rfl, rfl, by rw [setField_C _ hv]; omega⟩

end

theorem SameBeside.refl (x : Word × Word) : SameBeside x x := ⟨rfl, rfl, rfl⟩

theorem SameBeside.trans {x y z : Word × Word} (a : SameBeside x y) (b : SameBeside y z) : SameBeside x z :=
  ⟨b.low.trans a.low, b.op.trans a.op, b.rest.trans a.rest⟩

theorem SameBeside.tile {x y : Word × Word} (h : SameBeside x y) : tileOf y = tileOf x := by
  have hrest := h.rest
  simp only [tileOf]
  omega

/-! ### The step of a code (R286) -/

theorem ite_ite_eq_ite_and {p q : Prop} [Decidable p] [Decidable q] (x y : Int) :
    (if p then if q then x else y else y) = if p ∧ q then x else y := by
  by_cases hp : p
  · simp only [hp, if_true, true_and]
  · simp only [hp, if_false, false_and]

/-- A code that its step takes out of its file. -/
def CodeLeaves (c : Nat) (d : Int) : Prop :=
  ((c : Int) < 80 ∧ ¬ (0 ≤ c + d ∧ c + d < 80)) ∨ (80 ≤ (c : Int) ∧ (c : Int) < 112 ∧ ¬ (80 ≤ c + d ∧ c + d < 112))

/-- The code of an operand after a step: every other code than a register's stands. -/
def codeStep (c : Nat) (d : Int) : Int := if (c : Int) < 112 then c + d else c

/-- The step of a code either leaves its file or gives the next code. -/
theorem stepCode_cases (c : Nat) (d : Int) (hc : c < 128) :
    (stepCode c d = none ∧ CodeLeaves c d) ∨ ∃ r, stepCode c d = some r ∧ ¬ CodeLeaves c d ∧ (r : Int) = codeStep c d ∧ r < 128 := by
  unfold stepCode CodeLeaves codeStep
  dsimp only
  rcases Nat.lt_or_ge c 80 with hx | hx
  · rw [if_pos hx]
    by_cases hin : 0 ≤ (c : Int) + d ∧ (c : Int) + d < 80
    · exact .inr ⟨_, if_pos (by simpa using hin), by omega, by omega, by omega⟩
    · exact .inl ⟨if_neg (by simpa using hin), by omega⟩
  · rw [if_neg (Nat.not_lt.2 hx)]
    rcases Nat.lt_or_ge c 112 with hg | hg
    · rw [if_pos hg]
      by_cases hin : 80 ≤ (c : Int) + d ∧ (c : Int) + d < 112
      · exact .inr ⟨_, if_pos (by simpa using hin), by omega, by omega, by omega⟩
      · exact .inl ⟨if_neg (by simpa using hin), by omega⟩
    · exact .inr ⟨c, if_neg (Nat.not_lt.2 hg), by omega, by omega, by omega⟩

/-! ### The words of a pass (R286, R287) -/

section
variable (l : LoopSt)

/-- What a pass adds to a field. -/
def LoopSt.delta (n : Nat) : Int := l.pass * l.steps.getD n 0

theorem stepFld_eq (x : Word × Word) (f : Fld) : stepFld l x f = (stepCode (fldOf x f) (l.delta f.num)).map (setFld x · f) := by
  unfold stepFld
  dsimp only
  change (match stepCode (fldOf x f) (l.delta f.num) with | none => none | some c => _) = _
  cases stepCode (fldOf x f) (l.delta f.num) with
  | none => rfl
  | some r => cases f <;> rfl

/-- The fields of a list are stepped in a pass. -/
structure Stepped (fs : List Fld) (x y : Word × Word) : Prop where
  codes  : ∀ f, (fldOf y f : Int) = if f ∈ fs then codeStep (fldOf x f) (l.delta f.num) else fldOf x f
  beside : SameBeside x y

/-- The steps of fields that differ: one of them leaves its file, or each gives its next code. -/
theorem stepFlds_cases {fs : List Fld} (hfs : fs.Nodup) (x : Word × Word) :
    (stepFlds l x fs = none ∧ ∃ f ∈ fs, CodeLeaves (fldOf x f) (l.delta f.num))
      ∨ ∃ y, stepFlds l x fs = some y ∧ (∀ f ∈ fs, ¬ CodeLeaves (fldOf x f) (l.delta f.num)) ∧ Stepped l fs x y := by
  induction fs generalizing x with
  | nil => exact .inr ⟨x, rfl, nofun, fun f => rfl, .refl x⟩
  | cons f fs ih =>
    obtain ⟨hf, hfs⟩ := List.nodup_cons.1 hfs
    rcases stepCode_cases (fldOf x f) (l.delta f.num) (fldOf_lt x f) with ⟨hstep, hleaves⟩ | ⟨r, hstep, hstays, hr, hlt⟩
    · exact .inl ⟨by rw [stepFlds, stepFld_eq, hstep]; rfl, f, List.mem_cons_self .., hleaves⟩
    have hnext : stepFlds l x (f :: fs) = stepFlds l (setFld x r f) fs := by
      rw [stepFlds, stepFld_eq, hstep]
      rfl
    have hothers : ∀ k ∈ fs, fldOf (setFld x r f) k = fldOf x k := fun k hk =>
      fldOf_setFld_ne x hlt (ne_of_mem_of_not_mem hk hf)
    rw [hnext]
    rcases ih hfs (setFld x r f) with ⟨hnone, k, hk, hleaves⟩ | ⟨y, hsome, hstay, hcodes, hbeside⟩
    · exact .inl ⟨hnone, k, List.mem_cons_of_mem _ hk, hothers k hk ▸ hleaves⟩
    refine .inr ⟨y, hsome, ?_, ?_, (setFld_beside x hlt f).trans hbeside⟩
    · intro k hk
      rcases List.mem_cons.1 hk with rfl | hk
      · exact hstays
      · exact hothers k hk ▸ hstay k hk
    · intro k
      rw [hcodes k]
      by_cases hkf : k = f
      · subst hkf
        rw [if_neg hf, if_pos (List.mem_cons_self ..), fldOf_setFld_same x hlt, hr]
      · simp only [List.mem_cons, hkf, false_or, fldOf_setFld_ne x hlt hkf]

/-- TILE after a pass, as a number that may leave its field. -/
def LoopSt.tile (x : Word × Word) : Int := tileOf x + l.delta 4

theorem stepTile_eq (x : Word × Word) : stepTile l x =
    if 0 ≤ l.tile x ∧ l.tile x < 4 then some (x.1, setField x.2 19 2 (l.tile x).toNat) else none := by
  unfold stepTile
  simp only [Bool.and_eq_true, decide_eq_true_eq]
  rfl

/-- The step of TILE: it leaves its field, or it alone changes. -/
theorem stepTile_cases (x : Word × Word) : (stepTile l x = none ∧ ¬ (0 ≤ l.tile x ∧ l.tile x < 4))
    ∨ ∃ y, stepTile l x = some y ∧ (0 ≤ l.tile x ∧ l.tile x < 4) ∧ (tileOf y : Int) = l.tile x
      ∧ (∀ f, fldOf y f = fldOf x f) ∧ y.1 = x.1 ∧ y.2.toNat % 2 ^ 19 = x.2.toNat % 2 ^ 19
      ∧ y.2.toNat / 2 ^ 21 = x.2.toNat / 2 ^ 21 := by
  rw [stepTile_eq]
  by_cases hin : 0 ≤ l.tile x ∧ l.tile x < 4
  · have hset := setField_TILE x.2 (v := (l.tile x).toNat) (by omega)
    refine .inr ⟨_, if_pos hin, hin, ?_, fun f => ?_, rfl, by rw [hset]; omega, by rw [hset]; omega⟩
    · rw [tileOf, hset]
      omega
    · cases f with
      | D => rw [fldOf_D, fldOf_D]
      | A => rw [fldOf_A, fldOf_A]
      | B => rw [fldOf_B, fldOf_B]
      | C => rw [fldOf_C, fldOf_C, hset]; omega
  · exact .inl ⟨if_neg hin, hin⟩

end

/-! ### No field holds two operands (R246) -/

section
variable {p : Prop} [Decidable p] {xs ys : List Operand}

theorem nodup_fld_append_ite (h : ((xs ++ ys).map Operand.fld).Nodup) :
    ((xs ++ if p then ys else []).map Operand.fld).Nodup := by
  split
  · exact h
  · rw [List.append_nil]
    exact ((List.sublist_append_left xs ys).map _).nodup h

theorem nodup_fld_ite_append (h : ((xs ++ ys).map Operand.fld).Nodup) :
    (((if p then xs else []) ++ ys).map Operand.fld).Nodup := by
  split
  · exact h
  · rw [List.nil_append]
    exact ((List.sublist_append_right xs ys).map _).nodup h

theorem nodup_fld_ite (h : (xs.map Operand.fld).Nodup) : ((if p then xs else []).map Operand.fld).Nodup :=
  nodup_fld_append_ite (xs := []) h

end

theorem operands_fld_nodup (i : Instr) : ((operands i).map Operand.fld).Nodup := by
  cases i with
  | mcfg => exact nodup_fld_ite (of_decide_eq_true rfl)
  | gath => exact nodup_fld_ite_append (of_decide_eq_true rfl)
  | mma | mmasS | mmasV => exact nodup_fld_append_ite (of_decide_eq_true rfl)
  | _ => exact of_decide_eq_true rfl

/-! ### The words of an instruction in a pass (R286, R287) -/

section
variable (l : LoopSt) {w u : Word} {i : Instr}

/-- A pass leaves no instruction to perform. -/
def LoopSt.Breaks (x : Word × Word) (i : Instr) : Prop :=
  (∃ f ∈ (operands i).map Operand.fld, CodeLeaves (fldOf x f) (l.delta f.num))
    ∨ (hasTile i = true ∧ ¬ (0 ≤ l.tile x ∧ l.tile x < 4))

/-- The words that a pass makes of an instruction's. -/
structure PassWords (i : Instr) (x y : Word × Word) : Prop where
  codes : ∀ f, (fldOf y f : Int) =
    if f ∈ (operands i).map Operand.fld then codeStep (fldOf x f) (l.delta f.num) else fldOf x f
  tile  : (tileOf y : Int) = if hasTile i then l.tile x else (tileOf x : Int)
  low   : y.1.toNat % 8 = x.1.toNat % 8
  op    : y.1.toNat / 2 ^ 24 = x.1.toNat / 2 ^ 24
  lowC  : y.2.toNat % 2 ^ 19 = x.2.toNat % 2 ^ 19
  mid   : y.2.toNat / 2 ^ 21 % 16 = x.2.toNat / 2 ^ 21 % 16

variable (hdecode : decode w u = .ok i)
include hdecode

theorem stepWords_decoded : stepWords l w u =
    (stepFlds l (w, u) ((operands i).map Operand.fld)).bind fun x => if hasTile i then stepTile l x else some x := by
  rw [stepWords, hdecode]
  dsimp only
  cases stepFlds l (w, u) ((operands i).map Operand.fld) <;> rfl

/-- A pass leaves a file, or gives the words of its instruction. -/
theorem stepWords_cases : (stepWords l w u = none ∧ l.Breaks (w, u) i)
    ∨ ∃ y, stepWords l w u = some y ∧ ¬ l.Breaks (w, u) i ∧ PassWords l i (w, u) y := by
  rw [stepWords_decoded l hdecode]
  rcases stepFlds_cases l (operands_fld_nodup i) (w, u) with ⟨hnone, hleaves⟩ | ⟨x, hsome, hstay, hcodes, hbeside⟩
  · exact .inl ⟨by rw [hnone]; rfl, .inl hleaves⟩
  have hnone : ¬ ∃ f ∈ (operands i).map Operand.fld, CodeLeaves (fldOf (w, u) f) (l.delta f.num) := by
    rintro ⟨f, hf, hleaves⟩
    exact hstay f hf hleaves
  have hrest := hbeside.rest
  have htileOf : l.tile x = l.tile (w, u) := by rw [LoopSt.tile, hbeside.tile, LoopSt.tile]
  rw [hsome, Option.bind_some]
  by_cases htile : hasTile i = true
  · rw [if_pos htile]
    rcases stepTile_cases l x with ⟨hout, hleaves⟩ | ⟨y, hin, hstays, hnext, hfld, hword, hlowC, hmid⟩
    · rw [htileOf] at hleaves
      exact .inl ⟨hout, .inr ⟨htile, hleaves⟩⟩
    rw [htileOf] at hstays hnext
    refine .inr ⟨y, hin, not_or.2 ⟨hnone, fun h => h.2 hstays⟩, fun f => by rw [hfld f, hcodes f], ?_, ?_, ?_, ?_, ?_⟩
    · rw [if_pos htile, hnext]
    · rw [hword, hbeside.low]
    · rw [hword, hbeside.op]
    · rw [hlowC]; omega
    · rw [hmid]; omega
  · rw [if_neg htile]
    refine .inr ⟨x, rfl, not_or.2 ⟨hnone, fun h => htile h.1⟩, hcodes, ?_, hbeside.low, hbeside.op, by omega, by omega⟩
    rw [if_neg htile, hbeside.tile]

end

/-! ### The address of a memory instruction in a pass (R252, R286) -/

theorem State.memAddr_eq (s : State) (spc : Spc) (off : Bool) (a : DWord) : (s.memAddr spc off a : Int) =
    (a.toNat + (if off then signOf 32 (s.cur.lit 4) else 0) + s.cur.ioff) % (if spc = .global then 2 ^ 64 else 2 ^ 32) := by
  have hmod (o m : Int) (hm : m ≠ 0) : (((a.toNat + (o + s.cur.ioff)) % m).toNat : Int) = (a.toNat + o + s.cur.ioff) % m := by
    rw [Int.toNat_of_nonneg (Int.emod_nonneg _ hm), Int.add_assoc]
  cases spc with
  | global => exact hmod _ _ (by decide)
  | A | W => exact hmod _ _ (by decide)

/-! ### The statement -/

/-- Settles O12: the steps of a thread are the cases of `Thread.advance`, and the words of a pass are its fields' steps in turn. -/
theorem loopPasses : Obligations.LoopPasses := by
  refine ⟨fun x c l hloop => ?advances, fun l w u i hdecode => ?words, State.memAddr_eq⟩
  case advances =>
    exact ⟨Thread.advance_inClause, Thread.advance_inBody hloop, Thread.advance_nextPass hloop, Thread.advance_leaves hloop⟩
  case words =>
    rcases stepWords_cases l hdecode with ⟨hnone, hbreaks⟩ | ⟨y, hsome, hstays, hpass⟩
    · exact ⟨iff_of_true hnone hbreaks, fun w2 u2 h => absurd (hnone.symm.trans h) nofun⟩
    refine ⟨iff_of_false (fun h => absurd (hsome.symm.trans h) nofun) hstays, fun w2 u2 h => ?_⟩
    obtain rfl : y = (w2, u2) := Option.some.inj (hsome.symm.trans h)
    refine ⟨fun f => ?_, hpass.tile, hpass.low, hpass.op, hpass.lowC, hpass.mid⟩
    refine (hpass.codes f).trans ?_
    rw [codeStep, ite_ite_eq_ite_and]
    rfl

end Sys2Proof.Machine
end

section
/-! SUPPORT. Snapshots (R316, R319, R335): `HPOLL` and `CPYT` are ALU instructions whose answer is read from the core. -/

namespace Sys2Proof.Machine
open Sys2Proof

/-! ### The operands of an instruction that only writes -/

theorem plainSources_of_noSrc {i : Instr} (h : ∀ o ∈ operands i, o.form.isSrc = false) : PlainSources i := by
  intro o ho hsrc
  rw [h o ho] at hsrc
  cases hsrc

/-- An instruction whose one operand is the destination of its result. -/
theorem plainSources_of_dst {i : Instr} {d : Code} (h : operands i = [⟨.D, .dst, d⟩]) : PlainSources i :=
  plainSources_of_noSrc (by simp [h, Form.isSrc])

theorem isDst_of_dst {i : Instr} {r : AluRow} (h : operands i = [⟨.D, .dst, r.d⟩]) (hpair : r.pair = false) : r.IsDst i :=
  ⟨_, _, h, rfl, hpair.symm⟩

/-! ### What is read -/

/-- The row of an instruction whose answer is one number, the same for each thread. -/
def snapshotRow (d : Code) (kind n : Nat) : AluRow := ⟨d, false, some kind, [], fun e _ => e.nat n⟩

section
variable {s : State} {g : Group}

theorem exec_hpoll (d : Code) (h : BitVec 4) (hg : kfind s.groups s.cur.gid = some g) :
    let r := snapshotRow d 2 (if ((s.core g.core).huddle h.toNat).owner = some g.lid
      then ((s.core g.core).huddle h.toNat).word else 0)
    exec (.hpoll d h) s = .next (s.alu (.hpoll d h) r.kind r.ps none r.f) := by
  rw [← s.cg_eq g hg]
  rfl

theorem exec_cpyt (d : Code) (t : BitVec 3) (hg : kfind s.groups s.cur.gid = some g) :
    let r := snapshotRow d 1 ((g.tag t.toNat).err * 2 ^ 24 + (s.xfersOf s.cur.gid t.toNat).length)
    exec (.cpyt d t) s = .next (s.alu (.cpyt d t) r.kind r.ps none r.f) := by
  rw [← s.cg_eq g hg]
  rfl

theorem State.xfersOf_eq (hg : kfind s.groups s.cur.gid = some g) (n : Nat) : s.xfersOf s.cur.gid n =
    (s.core g.core).xfers.filter fun x => x.gid = s.cur.gid && x.uid = g.uid && x.tag = n := by
  rw [← s.cg_eq g hg]
  rfl

/-- A number where the huddle is the launch's, and 0 where it is another's. -/
theorem Env.nat_ite (e : Env) (p : Prop) [Decidable p] (n : Nat) :
    e.nat (if p then n else 0) = ⟨if p then BitVec.ofNat 64 n else 0#64, 0, false, e.gen⟩ := by
  by_cases hp : p
  · simp only [hp, if_true]; rfl
  · simp only [hp, if_false]; rfl

end

/-! ### The statement -/

/-- Settles O7: each is an ALU sweep whose answer is the snapshot, left in flight. -/
theorem snapshotResults : Obligations.SnapshotResults := by
  intro s g v
  refine ⟨fun d h hI hread => ?hpoll, fun d t hI hread => ?cpyt⟩
  case hpoll =>
    have halu := State.alu_row (exec_hpoll d h hI.group) (isDst_of_dst rfl rfl) hI (plainSources_of_dst rfl) hread
    simp only [snapshotRow, Env.nat_ite] at halu
    exact halu
  case cpyt =>
    have halu := State.alu_row (exec_cpyt d t hI.group) (isDst_of_dst rfl rfl) hI (plainSources_of_dst rfl) hread
    rw [State.xfersOf_eq hI.group] at halu
    exact halu

end Sys2Proof.Machine
end

section
/-! SUPPORT. Huddles (R170, R317, R318): the turn of a thread at `HARM` and at `HSIGN`, and how a signature is received. -/

namespace Sys2Proof.Machine
open Sys2Proof

/-! ### `HARM` (R317) -/

/-- A huddle that `HARM` does not arm: a count outside 1 to 256, or a round that has signatures. -/
def Huddle.RefusesArm (hd : Huddle) (c : Nat) : Prop := c = 0 ∨ 256 < c ∨ hd.signed ≠ 0

theorem Huddle.refusesArm_iff {hd : Huddle} {c : Nat} :
    (c < 1 || 256 < c || hd.signed ≠ 0) = true ↔ hd.RefusesArm c := by
  simp [Huddle.RefusesArm, or_assoc]

/-- One turn of a `HARM`. -/
def State.harmTurn (i : Instr) (h : Nat) (s : State) (u : Nat × List Nat) : State :=
  match s.readOps s.cur.gid u.1 (operands i) Vals.zero with
  | (s, .error r) => s.failRd u.2 r
  | (s, .ok x) =>
    let c := u32 x.a
    let k := s.cg.core
    if c < 1 || 256 < c || ((s.core k).huddle h).signed ≠ 0 then s.trapAll u.2 0x10 0
    else s.updHuddle k h fun _ => Huddle.arm s.cg.lid c

theorem exec_harm {s : State} {g : Group} {a : Code} {h : BitVec 4} (hI : s.Issues (.harm a h) g)
    (hplain : popNames (.harm a h) = []) :
    exec (.harm a h) s = .next ((s.turns (.harm a h)).foldl (State.harmTurn (.harm a h) h.toNat) s).finish :=
  congrArg Host.Outcome.next (s.gate_noQueue _ g hI hplain _)

section
variable {s u : State} {i : Instr} {t : Nat} {x : Vals} (h : Nat) (tt : List Nat)
  (hread : s.readOps s.cur.gid t (operands i) Vals.zero = (u, .ok x))
include hread

theorem State.harmTurn_refused (hbad : ((u.core u.cg.core).huddle h).RefusesArm x.a.lo.toNat) :
    s.harmTurn i h (t, tt) = u.trapAll tt 0x10 0 := by
  simp only [State.harmTurn, hread, u32_eq_lo]
  exact if_pos (Huddle.refusesArm_iff.2 hbad)

theorem State.harmTurn_arms (hgood : ¬ ((u.core u.cg.core).huddle h).RefusesArm x.a.lo.toNat) :
    s.harmTurn i h (t, tt) = u.updHuddle u.cg.core h fun _ => Huddle.arm u.cg.lid x.a.lo.toNat := by
  simp only [State.harmTurn, hread, u32_eq_lo]
  exact if_neg (mt Huddle.refusesArm_iff.1 hgood)

end

/-! ### How a signature is received (R318) -/

section
variable {s : State} {k h lid : Nat} (x : Sig)

theorem State.sign_misuse (hbad : ((s.core k).huddle h).count = 0 ∨ ((s.core k).huddle h).owner ≠ some lid) :
    s.sign k h lid x = (s, .misuse) :=
  if_pos (by simpa using hbad)

section
variable (howner : ((s.core k).huddle h).owner = some lid)
include howner

theorem State.sign_waits (harmed : 0 < ((s.core k).huddle h).count)
    (hfull : ((s.core k).huddle h).count ≤ ((s.core k).huddle h).signed) : s.sign k h lid x = (s, .waits) :=
  (if_neg (by simp [howner, Nat.ne_of_gt harmed])).trans (if_pos hfull)

theorem State.sign_done (hopen : ((s.core k).huddle h).signed < ((s.core k).huddle h).count) : s.sign k h lid x =
    (s.updHuddle k h fun y => { y with signed := y.signed + 1, sigs := y.sigs ++ [x] }, .done) :=
  (if_neg (by simp [howner, Nat.ne_of_gt (Nat.lt_of_le_of_lt (Nat.zero_le _) hopen)])).trans (if_neg (Nat.not_le.2 hopen))

end
end

/-! ### Where a path stays behind a full round (R318) -/

section
variable {s : State} {h : Nat} (k : State → Nat → State)

theorem State.signs_full (hfull : s.roundFull h = true) : s.signs h k = (s.stayAll s.cur.path).finish := if_pos hfull

theorem State.signs_turns (hopen : s.roundFull h = false) : s.signs h k = (s.cur.mask.foldl k s).finish :=
  if_neg (by simp [hopen])

end

/-! ### `HSIGN` (R170, R318) -/

/-- What becomes of a thread at an `HSIGN` whose signature is received so. -/
def State.hsignEnds (s : State) (h t : Nat) : Signed → State
  | .misuse => s.trap t 0x10 0
  | .waits => s.stayAll [t]
  | .done => s.park [t] (.huddle h)

/-- One thread at an `HSIGN`. -/
def State.hsignTurn (h : Nat) (s : State) (t : Nat) : State :=
  match s.owes t with
  | some (s, c, a) => s.trap t c a
  | none => match s.signThread t h 0 [] false with
    | (s, .misuse) => s.trap t 0x10 0
    | (s, .waits) => s.stayAll [t]
    | (s, .done) => s.park [t] (.huddle h)

theorem exec_hsign {s : State} {g : Group} {h : BitVec 4} (hI : s.Issues (.hsign h) g) :
    exec (.hsign h) s = .next (s.signs h.toNat (State.hsignTurn h.toNat)) :=
  congrArg Host.Outcome.next (s.gate_noQueue _ g hI rfl _)

section
variable {s : State} {h t : Nat}

/-- A trap that the thread owes since its round failed. -/
theorem State.hsignTurn_owed {c a : Nat} (howed : (s.thr s.cur.gid t).owed = some (c, a)) : s.hsignTurn h t =
    ((s.updThr s.cur.gid t fun y => { y with owed := none }).firmAll [t]).trap t c a := by
  simp only [State.hsignTurn, State.owes, howed]

section
variable (howed : (s.thr s.cur.gid t).owed = none)
include howed

theorem State.hsignTurn_refused {c a : Nat} (hside : s.sideRefused (s.who s.cur.gid t) = some (a, c)) : s.hsignTurn h t =
    ((s.dropSideRef (s.who s.cur.gid t)).firmAll [t]).trap t c a := by
  simp only [State.hsignTurn, State.owes, howed, hside, Option.map_some]

section
variable (hside : s.sideRefused (s.who s.cur.gid t) = none)
include hside

/-- A thread that owes no trap signs. -/
theorem State.hsignTurn_signs {v : State} {r : Signed} (hsign : s.signThread t h 0 [] false = (v, r)) :
    s.hsignTurn h t = v.hsignEnds h t r := by
  unfold State.hsignTurn
  rw [(s.owes_eq_none_iff t).2 ⟨howed, hside⟩, hsign]
  cases r <;> rfl

end
end
end

/-! ### The statement -/

/-- Settles O34: each instruction gives its threads turns, and a turn is settled by what the huddle is. -/
theorem armingAndSigning : Obligations.ArmingAndSigning := by
  intro s g a h
  refine ⟨fun hI hplain => ⟨_, exec_harm hI hplain, ?arm⟩, fun hI hfull => ?behind, fun hI hopen =>
    ⟨_, (exec_hsign hI).trans (congrArg _ (State.signs_turns _ hopen)), fun s1 t => ⟨?owed, ?refused, fun howed hside => ?signs⟩⟩⟩
  case arm =>
    intro s1 s2 t tt x hread
    exact ⟨State.harmTurn_refused h.toNat tt hread, State.harmTurn_arms h.toNat tt hread⟩
  case behind => exact (exec_hsign hI).trans (congrArg _ (State.signs_full _ hfull))
  case owed => exact fun c x => State.hsignTurn_owed
  case refused => exact fun c x howed => State.hsignTurn_refused howed
  case signs =>
    refine ⟨fun hbad => ?misuse, fun howner harmed hfull => ?waits, fun howner hopen => ?done⟩
    case misuse => exact State.hsignTurn_signs howed hside (State.sign_misuse _ hbad)
    case waits => exact State.hsignTurn_signs howed hside (State.sign_waits _ howner harmed hfull)
    case done => exact State.hsignTurn_signs howed hside (State.sign_done _ howner hopen)

end Sys2Proof.Machine
end

section
/-! SUPPORT. Phase words (R323 to R325): an arrival said on the fields of the word, the turn of a thread at `PARR` and at `PWAIT`,
and the re-read of a parked `PWAIT`. -/

namespace Sys2Proof.Machine
open Sys2Proof

/-! ### The fields of a phase word (R323) -/

/-- A phase word is PHASE, the bits between with EXPECT, and the count. -/
theorem phaseWord_fields (w : BitVec 32) :
    w = w.extractLsb' 31 1 ++ (w.extractLsb' 12 19 ++ w.extractLsb' 0 12) := by
  have hlow : w.extractLsb' 12 19 ++ w.extractLsb' 0 12 = w.extractLsb' 0 31 :=
    BitVec.extractLsb'_append_extractLsb'_eq_extractLsb' rfl
  have hword : w.extractLsb' 31 1 ++ w.extractLsb' 0 31 = w.extractLsb' 0 32 :=
    BitVec.extractLsb'_append_extractLsb'_eq_extractLsb' rfl
  rw [hlow]
  exact (hword.trans w.extractLsb'_eq_self).symm

theorem turned_phaseWord (p : BitVec 1) (m : BitVec 19) (l : BitVec 12) :
    ((p ++ (m ++ l)) ^^^ 0x80000000#32) &&& 0xFFFFF000#32 = (~~~p ++ (m ++ 0#12) : BitVec 32) := by
  have hphase : (0x80000000#32 : BitVec 32) = 1#1 ++ (0#19 ++ 0#12) := rfl
  have hmask : (0xFFFFF000#32 : BitVec 32) = 1#1 ++ (BitVec.allOnes 19 ++ 0#12) := rfl
  have hp : (p ^^^ 1#1) &&& 1#1 = ~~~p := by revert p; decide
  rw [hphase, hmask]
  calc ((p ++ (m ++ l)) ^^^ (1#1 ++ (0#19 ++ 0#12))) &&& (1#1 ++ (BitVec.allOnes 19 ++ 0#12))
      = ((p ^^^ 1#1) &&& 1#1) ++ (((m ^^^ 0#19) &&& BitVec.allOnes 19) ++ ((l ^^^ 0#12) &&& 0#12)) := by
        rw [BitVec.xor_append, BitVec.xor_append, BitVec.and_append, BitVec.and_append]
    _ = ~~~p ++ (m ++ 0#12) := by rw [hp, BitVec.xor_zero, BitVec.and_allOnes, BitVec.and_zero]

theorem toNat_phaseWord (p : BitVec 1) (m : BitVec 19) (l : BitVec 12) :
    (p ++ (m ++ l)).toNat = p.toNat * 2 ^ 31 + m.toNat * 2 ^ 12 + l.toNat := by
  rw [BitVec.toNat_append, ← Nat.shiftLeft_add_eq_or_of_lt (m ++ l).isLt, BitVec.toNat_append,
    ← Nat.shiftLeft_add_eq_or_of_lt l.isLt, Nat.shiftLeft_eq, Nat.shiftLeft_eq, Nat.add_assoc]

/-! ### An arrival on the word (R324) -/

section
variable (w : BitVec 32)

/-- R324: an arrival that is not the last expected one counts up. -/
theorem phaseArrive_counts (h : (w.extractLsb' 0 12).toNat + 1 < max (w.extractLsb' 12 12).toNat 1) :
    phaseArrive w.toNat = w.toNat + 1 := by
  simp only [BitVec.extractLsb'_toNat, Nat.shiftRight_eq_div_pow] at h
  have hw := w.isLt
  simp only [phaseArrive]
  rw [if_neg (by omega)]
  omega

/-- R324: the last expected arrival turns PHASE, empties the count and leaves the bits between. -/
theorem phaseArrive_turns (h : max (w.extractLsb' 12 12).toNat 1 ≤ (w.extractLsb' 0 12).toNat + 1) :
    BitVec.ofNat 32 (phaseArrive w.toNat) = (w ^^^ 0x80000000#32) &&& 0xFFFFF000#32 := by
  have hturned := turned_phaseWord (w.extractLsb' 31 1) (w.extractLsb' 12 19) (w.extractLsb' 0 12)
  rw [← phaseWord_fields] at hturned
  have hw := w.isLt
  rw [hturned]
  refine BitVec.eq_of_toNat_eq ?_
  simp only [BitVec.extractLsb'_toNat, Nat.shiftRight_eq_div_pow] at h
  simp only [toNat_phaseWord, BitVec.toNat_ofNat, BitVec.toNat_not, BitVec.extractLsb'_toNat, Nat.shiftRight_eq_div_pow,
    phaseArrive]
  rw [if_pos (by omega)]
  omega

end

/-! ### A synchronising operation of a thread (R169, R170) -/

/-- Reading the sources leaves the group that issues. -/
theorem State.readOps_gid {s u : State} {gid t : Nat} {os : List Operand} {v : Vals} {r : Except Rd Vals}
    (hread : s.readOps gid t os v = (u, r)) : u.cur.gid = s.cur.gid :=
  congrArg Cur.gid (State.readOps_cur _ _ _ _ _ _ _ hread)

section
variable {s : State} {t : Nat} {tt : List Nat} {k : State → State}

theorem State.whenReady_go (h : s.syncReady (s.who s.cur.gid t) = .go) : s.whenReady t tt k = k s := by
  simp only [State.whenReady, h]

theorem State.whenReady_waits (h : s.syncReady (s.who s.cur.gid t) = .waits) : s.whenReady t tt k = s.stayAll tt := by
  simp only [State.whenReady, h]

theorem State.whenReady_refused {a c : Nat} (h : s.syncReady (s.who s.cur.gid t) = .refused a c) :
    s.whenReady t tt k = ((s.dropSideRef (s.who s.cur.gid t)).firmAll tt).trapAll tt c a := by
  simp only [State.whenReady, h]

end

/-! ### `PARR` and `PWAIT` (R324, R325) -/

section
variable {s : State} {g : Group}

theorem exec_parr {a : Code} (hI : s.Issues (.parr a) g) (hplain : popNames (.parr a) = []) :
    exec (.parr a) s = .next ((s.turns (.parr a)).foldl (fun s u => s.parrTurn (.parr a) u) s).finish :=
  congrArg Host.Outcome.next (s.gate_noQueue _ g hI hplain _)

theorem exec_pwait {d a : Code} (hI : s.Issues (.pwait d a) g) (hplain : popNames (.pwait d a) = []) :
    exec (.pwait d a) s = .next ((s.turns (.pwait d a)).foldl (fun s u => s.pwaitTurn (.pwait d a) u) s).finish :=
  congrArg Host.Outcome.next (s.gate_noQueue _ g hI hplain _)

end

/-- The access of an arrival: one read-modify-write of the word (R324). -/
def Acc.phase (addr : Nat) : Acc := ⟨.A, addr, 4, true, true, false, true, false, 0⟩

section
variable {s u : State} {i : Instr} {t : Nat} {tt : List Nat} {x : Vals}
  (hread : s.readOps s.cur.gid t (operands i) Vals.zero = (u, .ok x))
include hread

theorem State.parrTurn_misaligned (halign : x.a.lo.toNat % 4 ≠ 0) :
    s.parrTurn i (t, tt) = u.trapAll tt 0x08 x.a.lo.toNat := by
  simp only [State.parrTurn, hread, u32_eq_lo]
  exact if_pos halign

theorem State.pwaitTurn_misaligned (halign : x.a.lo.toNat % 4 ≠ 0) :
    s.pwaitTurn i (t, tt) = u.trapAll tt 0x08 x.a.lo.toNat := by
  simp only [State.pwaitTurn, hread, u32_eq_lo]
  exact if_pos halign

section
variable (halign : x.a.lo.toNat % 4 = 0) {w : State} {key attr : Nat}
include halign

/-- R324: the arrival is one step on the word, and a release at core scope. -/
theorem State.parrTurn_arrives (hready : u.syncReady (u.who u.cur.gid t) = .go)
    (hreach : u.reach (u.who u.cur.gid t) (.phase x.a.lo.toNat) = (w, .ok key attr)) :
    s.parrTurn i (t, tt) =
      (w.put (u.who u.cur.gid t) (.phase x.a.lo.toNat) key (leBytes 4 (phaseArrive (w.mem.num key 4)))
        (w.mem.anyP key 4 || x.p || w.ambient tt) false true).closeIv (u.who u.cur.gid t).agent 3 := by
  simp only [State.parrTurn, hread, u32_eq_lo]
  rw [if_neg (not_not.2 halign), State.whenReady_go hready]
  simp only [State.readOps_gid hread, Acc.phase] at hreach ⊢
  rw [hreach]

/-- R325: the thread goes on where it finds the phase, and parks where it does not. -/
theorem State.pwaitTurn_reads
    (hreach : u.reach (u.who u.cur.gid t) (Acc.read .A x.a.lo.toNat 4).synced = (w, .ok key attr)) :
    s.pwaitTurn i (t, tt) = if w.mem.num key 4 / 2 ^ 31 % 2 = x.d.toNat % 2 then w
      else w.park tt (.pwait x.a.lo.toNat (x.d.toNat % 2 = 1)) := by
  rw [State.readOps_gid hread] at hreach
  simp only [State.pwaitTurn, hread, u32_eq_lo]
  rw [if_neg (not_not.2 halign), hreach]

end
end

/-- R325: the re-read of a parked thread's word. -/
theorem exec_pwaitReread {u v : State} {gid idx off key attr : Nat} {mask : List Nat} {ph : Bool}
    (hpark : u.parkAt gid idx = some ⟨mask, .pwait off ph⟩)
    (hreach : u.reach (u.who gid (mask.headD 0)) (Acc.read .A off 4).synced = (v, .ok key attr)) :
    exec (.pwaitReread gid idx) u = .next (if (v.mem.num key 4 / 2 ^ 31 % 2 = 1) = ph then
      v.wake gid idx ⟨mask, .huddle 0⟩ else v).tick := by
  change execPwaitReread gid idx u = _
  unfold execPwaitReread
  rw [hpark]
  simp only [hreach]
  split <;> rfl

/-! ### The statement -/

/-- Settles O37: an arrival by the fields of its word, and the turns of the two instructions by their checks. -/
theorem phaseWords : Obligations.PhaseWords := by
  refine ⟨fun w => ⟨phaseArrive_counts w, phaseArrive_turns w⟩, fun s g a hI hplain => ⟨_, exec_parr hI hplain, ?parr⟩,
    fun s g d a hI hplain => ⟨_, exec_pwait hI hplain, ?pwait⟩, fun u v gid idx off key attr mask ph => exec_pwaitReread⟩
  case parr =>
    intro s1 s2 t tt x hread
    exact ⟨State.parrTurn_misaligned hread, fun s3 key attr halign => State.parrTurn_arrives hread halign⟩
  case pwait =>
    intro s1 s2 t tt x hread
    exact ⟨State.pwaitTurn_misaligned hread, fun s3 key attr halign => State.pwaitTurn_reads hread halign⟩

end Sys2Proof.Machine
end

section
/-! SUPPORT. Monitors (R123, R309 to R314): the turn of a thread at `WATCH`, `WAIT` and `WAITA`, case by case, and the thread's
watch after an arm. -/

namespace Sys2Proof.Machine
open Sys2Proof

/-! ### A group keeps its threads where a monitor is armed (R309, R310) -/

theorem kfind_map {α β : Type} (f : α → β) (m : List (Nat × α)) (n : Nat) :
    kfind (m.map fun e => (e.1, f e.2)) n = (kfind m n).map f := by
  induction m with
  | nil => rfl
  | cons e m ih =>
    simp only [List.map_cons, kfind]
    split
    · rfl
    · exact ih

/-- How many threads a group has; none where it is not there. -/
def State.size? (s : State) (gid : Nat) : Option Nat := (kfind s.groups gid).map fun g => g.threads.length

theorem State.size?_congr {s u : State} (h : u.groups = s.groups) (gid : Nat) : u.size? gid = s.size? gid := by
  rw [State.size?, h, State.size?]

theorem State.size?_eq_some_iff {s : State} {gid n : Nat} :
    s.size? gid = some n ↔ s.hasGrp gid = true ∧ (s.grp gid).threads.length = n := by
  cases hg : kfind s.groups gid with
  | none => simp [State.size?, State.hasGrp, hg]
  | some g => simp [State.size?, State.hasGrp, hg, s.grp_of_kfind gid g hg]

theorem State.size?_updThr (s : State) (gid t : Nat) (f : Thread → Thread) : (s.updThr gid t f).size? gid = s.size? gid := by
  cases hg : kfind s.groups gid with
  | none => rw [State.updThr, State.updGrp, hg]
  | some g =>
    rw [State.size?, State.updThr, s.updGrp_kfind gid _ g hg, State.size?, hg, Option.map_some, Group.updThr_length]
    rfl

theorem State.size?_mapGroups {s u : State} {f : Group → Group} (h : u.groups = s.groups.map fun e => (e.1, f e.2))
    (hf : ∀ g, (f g).threads.length = g.threads.length) (gid : Nat) : u.size? gid = s.size? gid := by
  rw [State.size?, h, kfind_map, State.size?]
  cases kfind s.groups gid with
  | none => rfl
  | some g => exact congrArg some (hf g)

/-- A group after the monitor entry of its core and context for a line was evicted (R310). -/
def Group.evict (g : Group) (k ctx line : Nat) : Group :=
  if g.core = k && g.ctx = ctx then
    { g with threads := g.threads.map fun t => { t with watch := t.watch.map (Watch.evict line) } } else g

theorem Group.evict_length (g : Group) (k ctx line : Nat) : (g.evict k ctx line).threads.length = g.threads.length := by
  unfold Group.evict
  split
  · exact List.length_map _
  · rfl

theorem State.size?_armLine (s : State) (k ctx line gid : Nat) : (s.armLine k ctx line).size? gid = s.size? gid := by
  unfold State.armLine
  dsimp only
  split
  · rfl
  · split
    · rfl
    · split
      · rfl
      next m _ _ => exact State.size?_mapGroups (f := fun g => g.evict k ctx m.line) rfl (fun g => g.evict_length ..) gid

theorem State.armLine_mem (s : State) (k ctx line : Nat) : (s.armLine k ctx line).mem = s.mem := by
  unfold State.armLine
  dsimp only
  split
  · rfl
  · split
    · rfl
    · split <;> rfl

/-! ### `WATCH` (R309) -/

/-- A thread lets its watch go, and the monitor is armed for the line of a key (R309). -/
def State.watchArms (s : State) (gid t key : Nat) : State :=
  let s := (s.updThr gid t fun y => { y with watch := none }).pruneMons s.cg.core
  s.armLine s.cg.core s.cg.ctx (key / 64)

theorem State.size?_watchArms (s : State) (gid t key : Nat) : (s.watchArms gid t key).size? gid = s.size? gid :=
  (State.size?_armLine ..).trans (State.size?_updThr ..)

theorem State.watchArms_mem (s : State) (gid t key : Nat) : (s.watchArms gid t key).mem = s.mem :=
  (State.armLine_mem ..).trans (State.updThr_mem ..)

/-- The thread's watch is then on `n` bytes at the key (R309). -/
def State.watchSets (s : State) (gid t n key : Nat) : State :=
  (s.watchArms gid t key).updThr gid t fun y => { y with watch := some ⟨key, n, none, true⟩ }

theorem State.watchSets_mem (s : State) (gid t n key : Nat) : (s.watchSets gid t n key).mem = s.mem :=
  (State.updThr_mem ..).trans (State.watchArms_mem ..)

theorem State.watchSets_watch {s : State} {gid t : Nat} (n key : Nat) (hgrp : s.hasGrp gid = true)
    (ht : t < (s.grp gid).threads.length) : ((s.watchSets gid t n key).thr gid t).watch = some ⟨key, n, none, true⟩ := by
  have hsize : (s.watchArms gid t key).size? gid = some (s.grp gid).threads.length :=
    (State.size?_watchArms ..).trans (State.size?_eq_some_iff.2 ⟨hgrp, rfl⟩)
  obtain ⟨harmed, hlen⟩ := State.size?_eq_some_iff.1 hsize
  rw [← hlen] at ht
  rw [State.watchSets, State.updThr_thr_self _ harmed ht]

section
variable {s : State} {g : Group}

theorem exec_watch {a : Code} {f : BitVec 4} (hI : s.Issues (.watch a f) g) (hplain : popNames (.watch a f) = []) :
    exec (.watch a f) s = .next ((s.turns (.watch a f)).foldl
      (fun s u => s.watchTurn (.watch a f) (if f.toNat = 5 then 8 else 4) u) s).finish :=
  congrArg Host.Outcome.next (s.gate_noQueue _ g hI hplain _)

theorem exec_wait {d a : Code} (hI : s.Issues (.wait d a) g) (hplain : popNames (.wait d a) = []) :
    exec (.wait d a) s = .next ((s.turns (.wait d a)).foldl (fun s u => s.waitTurn (.wait d a) d.toNat u) s).finish :=
  congrArg Host.Outcome.next (s.gate_noQueue _ g hI hplain _)

theorem exec_waita {d a : Code} (hI : s.Issues (.waita d a) g) (hplain : popNames (.waita d a) = []) :
    exec (.waita d a) s = .next ((s.turns (.waita d a)).foldl (fun s u => s.waitaTurn (.waita d a) d.toNat u) s).finish :=
  congrArg Host.Outcome.next (s.gate_noQueue _ g hI hplain _)

end

section
variable {s u : State} {i : Instr} {n t : Nat} {tt : List Nat} {x : Vals}
  (hread : s.readOps s.cur.gid t (operands i) Vals.zero = (u, .ok x))
include hread

theorem State.watchTurn_misaligned (halign : u.memAddr .global false x.a % n ≠ 0) :
    s.watchTurn i n (t, tt) = u.trapAll tt 0x08 (u.memAddr .global false x.a) := by
  simp only [State.watchTurn, hread]
  exact if_pos halign

section
variable {w : State} {r : Res} (halign : u.memAddr .global false x.a % n = 0)
  (hreach : u.reach (u.who u.cur.gid t) { Acc.read .global (u.memAddr .global false x.a) n with kind := 5 } = (w, r))
include halign hreach

/-- A closed granule holds the thread at the arm (R145). -/
theorem State.watchTurn_closed (hclosed : r = .closed) : s.watchTurn i n (t, tt) = w.holdAll tt true false := by
  subst hclosed
  rw [State.readOps_gid hread] at hreach
  simp only [State.watchTurn, hread]
  rw [if_neg (not_not.2 halign), hreach]

theorem State.watchTurn_sets {key attr : Nat} (hok : r = .ok key attr) :
    s.watchTurn i n (t, tt) = w.watchSets w.cur.gid t n key := by
  subst hok
  have hchecked := u.reach_checked (u.who u.cur.gid t) { Acc.read .global (u.memAddr .global false x.a) n with kind := 5 }
  rw [hreach] at hchecked
  rw [State.readOps_gid hread] at hreach
  simp only [State.watchTurn, hread]
  rw [if_neg (not_not.2 halign), hreach, hchecked.cur, State.readOps_gid hread]
  rfl

end

/-! ### `WAIT` (R311) -/

theorem State.waitTurn_unwatched {d : Nat} (hwatch : (u.thr u.cur.gid t).watch = none) :
    s.waitTurn i d (t, tt) = u.waitResult u.cur.gid tt d 5 := by
  rw [State.readOps_gid hread] at hwatch ⊢
  simp only [State.waitTurn, hread, hwatch]

section
variable {w : Watch} (hwatch : (u.thr u.cur.gid t).watch = some w)
include hwatch

theorem State.waitTurn_latched {d c : Nat} (hlatched : w.latched = some c) :
    s.waitTurn i d (t, tt) = u.waitResult u.cur.gid tt d c := by
  rw [State.readOps_gid hread] at hwatch ⊢
  simp only [State.waitTurn, hread, hwatch, hlatched]

/-- R311: the thread parks, with the bound that it names. -/
theorem State.waitTurn_parks {d : Nat} (hlatched : w.latched = none) : s.waitTurn i d (t, tt) =
    u.park tt (.wait d (if x.a.lo.toNat = 0 then none else some (u.now + x.a.lo.toNat))) := by
  rw [State.readOps_gid hread] at hwatch
  simp only [State.waitTurn, hread, hwatch, hlatched, u32_eq_lo]

end
end

/-! ### `WAITA` (R314) -/

section
variable {s u w : State} {i : Instr} {d t key attr : Nat} {tt : List Nat} {x : Vals} {old : Reg}
  (hsource : (s.grp s.cur.gid).source s.free t d = some old)
  (hread : s.readOps s.cur.gid t (operands i) Vals.zero = (u, .ok x))
  (halign : u.memAddr .A false x.a % 4 = 0)
  (hreach : u.reach (u.who u.cur.gid t) (Acc.read .A (u.memAddr .A false x.a) 4).synced = (w, .ok key attr))
include hsource hread halign hreach

/-- R314: the thread takes the word where it differs from D, and parks where it does not. -/
theorem State.waitaTurn_reads : s.waitaTurn i d (t, tt) =
    if w.mem.num key 4 ≠ old.v.toNat then (w.overtakes w.cur.gid t d).pendRegs w.cur.gid t d
      [⟨BitVec.ofNat 32 (w.mem.num key 4), w.mem.anyP key 4 || x.p || w.ambient tt⟩] 0
    else w.park tt (.waita d (u.memAddr .A false x.a) x.p old.v) := by
  have hchecked := u.reach_checked (u.who u.cur.gid t) (Acc.read .A (u.memAddr .A false x.a) 4).synced
  rw [hreach] at hchecked
  rw [State.readOps_gid hread] at hreach
  rw [hchecked.cur, State.readOps_gid hread]
  simp only [State.waitaTurn, hsource, hread]
  rw [if_neg (not_not.2 halign), hreach]

end

/-! ### The statement -/

/-- Settles O32: the turns of the three instructions, by their watch, their word and the checks of their accesses. -/
theorem monitorsAndWaits : Obligations.MonitorsAndWaits := by
  intro s g
  refine ⟨fun a f hI hplain => ⟨_, exec_watch hI hplain, ?watch⟩, fun d a hI hplain => ⟨_, exec_wait hI hplain, ?wait⟩,
    fun d a hI hplain => ⟨_, exec_waita hI hplain, ?waita⟩⟩
  case watch =>
    intro s1 s2 t tt x hread
    refine ⟨State.watchTurn_misaligned hread, fun s3 halign hreach => State.watchTurn_closed hread halign hreach rfl, ?_⟩
    intro s3 key attr halign hreach hgrp ht
    rw [State.watchTurn_sets hread halign hreach rfl]
    exact ⟨State.watchSets_watch _ key hgrp ht, State.watchSets_mem ..⟩
  case wait =>
    intro s1 s2 t tt x hread
    refine ⟨State.waitTurn_unwatched hread, fun w hwatch => ⟨fun c => State.waitTurn_latched hread hwatch, ?_, ?_⟩⟩
    · intro hlatched hbound
      refine (State.waitTurn_parks hread hwatch hlatched).trans ?_
      rw [hbound]
      rfl
    · intro hlatched hbound
      have hpos : x.a.lo.toNat ≠ (0#32).toNat := mt BitVec.toNat_inj.1 hbound
      refine (State.waitTurn_parks hread hwatch hlatched).trans ?_
      exact congrArg (fun b => s2.park tt (.wait d.toNat b)) (if_neg hpos)
  case waita =>
    intro s1 s2 s3 t tt x old key attr hsource hread off halign hreach
    have hturn := State.waitaTurn_reads (tt := tt) hsource hread halign hreach
    exact ⟨fun hne => hturn.trans (if_pos hne), fun heq => hturn.trans (if_neg (not_not.2 heq))⟩

end Sys2Proof.Machine
end

section
/-! SUPPORT. Fences (R169, R170, R193, R308): the turn of a thread at `FENCE` and at `FENCEX`, and the agents that a parked `FENCEX`
holds. -/

namespace Sys2Proof.Machine
open Sys2Proof

/-! ### `FENCE` (R308) -/

/-- One thread at a `FENCE`: an acquire and a release at its scope. -/
def State.fenceTurn (dom : Nat) (s : State) (t : Nat) : State :=
  s.whenReady t [t] fun s => s.closeIv (s.agent s.cur.gid t) dom

theorem exec_fence {s : State} {g : Group} {o v : BitVec 3} {dom : Nat} (hI : s.Issues (.fence o v) g)
    (hscope : s.scopeDom g.lid (scopeLvl o.toNat v.toNat) = some dom) :
    exec (.fence o v) s = .next (s.cur.mask.foldl (State.fenceTurn dom) s).finish := by
  refine congrArg Host.Outcome.next ((s.gate_noQueue _ g hI rfl _).trans ?_)
  rw [s.cg_eq g hI.group, hscope]
  rfl

/-! ### `FENCEX` between two paths (R193) -/

/-- The park of a thread's own `FENCEX`, from its earlier issue. -/
def State.fencexPark? (s : State) (t : Nat) : Option ParkRec :=
  s.cg.parks.find? fun r => r.mask = [t] && match r.kind with
    | .fencex .. => true
    | _ => false

/-- The agents that the thread's `FENCEX` waits for: those in flight at its first issue. -/
def State.fencexCmds (s : State) (t : Nat) (a : Path) : List Nat :=
  match (s.fencexPark? t).map ParkRec.kind with
  | some (.fencex cs _ _ _ _) => cs
  | _ => s.inFlight s.cur.gid a

/-- The thread's park is gone. -/
def State.fencexFree (s : State) (t : Nat) : State :=
  s.updGrp s.cur.gid fun g => { g with parks := g.parks.filter fun r => some r ≠ s.fencexPark? t }

/-- One thread at a `FENCEX` from a path to another. -/
def State.fencexTurn (a b : Path) (dom : Nat) (s : State) (t : Nat) : State :=
  match s.syncReady (s.who s.cur.gid t) with
  | .refused n c => (((s.fencexFree t).dropSideRef (s.who s.cur.gid t)).firmAll [t]).trap t c n
  | r =>
    if r = .go && s.fencexDone s.cur.gid (s.fencexCmds t a) a then (s.fencexFree t).fencexEnd s.cur.gid t a b dom
    else if (s.fencexPark? t).isSome then s.stayAll [t]
    else { s.park [t] (.fencex (s.fencexCmds t a) a b dom (s.nextId + 1)) with nextId := s.nextId + 1 }

theorem exec_fencex {s : State} {g : Group} {p q : BitVec 7} {o v : BitVec 3} {dom : Nat}
    (hI : s.Issues (.fencex p q o v) g) (hpaths : p ≠ q)
    (hscope : s.scopeDom g.lid (scopeLvl o.toNat v.toNat) = some dom) :
    exec (.fencex p q o v) s =
      .next (s.cur.mask.foldl (State.fencexTurn (pathOf p.toNat) (pathOf q.toNat) dom) s).finish := by
  refine congrArg Host.Outcome.next ((s.gate_noQueue _ g hI rfl _).trans ?_)
  rw [s.cg_eq g hI.group, hscope]
  exact if_neg hpaths

/-! ### The first issue of a `FENCEX` (R193) -/

section
variable {s : State} {t dom : Nat} {a b : Path} (hparks : s.cg.parks = [])
include hparks

theorem State.fencexPark?_none : s.fencexPark? t = none := by rw [State.fencexPark?, hparks, List.find?_nil]

theorem State.fencexCmds_first : s.fencexCmds t a = s.inFlight s.cur.gid a := by
  rw [State.fencexCmds, State.fencexPark?_none hparks, Option.map_none]

end

/-- What a group's parks are is no concern of its agents' (R177). -/
theorem State.agent_updParks (s : State) (gid t : Nat) (f : Group → List ParkRec) :
    (s.updGrp gid fun g => { g with parks := f g }).agent gid t = s.agent gid t := by
  cases hg : kfind s.groups gid with
  | none => rw [State.updGrp, hg]
  | some g => rw [State.agent, State.agent, s.updGrp_grp gid _ g hg, s.grp_of_kfind gid g hg]

theorem State.fencexFree_agent (s : State) (t : Nat) : (s.fencexFree t).agent s.cur.gid t = s.agent s.cur.gid t :=
  s.agent_updParks ..

theorem State.fencexFree_ivs (s : State) (t : Nat) : (s.fencexFree t).ivs = s.ivs := State.updGrp_ivs ..

theorem State.fencexFree_sweep (s : State) (t : Nat) : (s.fencexFree t).sweep = s.sweep := State.updGrp_sweep ..

theorem State.closeIv_ivs_congr {s u : State} (h : u.ivs = s.ivs) (a : Agent) (dom : Nat) :
    (u.closeIv a dom).ivs = (s.closeIv a dom).ivs := congrArg (List.map _) h

theorem State.closeIv_sweep_congr {s u : State} (h : u.sweep = s.sweep) (a : Agent) (dom : Nat) :
    (u.closeIv a dom).sweep = (s.closeIv a dom).sweep := by
  rw [State.closeIv, h, State.closeIv]

section
variable {s : State} {t dom : Nat} {a b : Path}

/-- A `FENCEX` from an engine's path closes the thread's interval at its scope. -/
theorem State.fencexEnd_engine {gid : Nat} (ha : a ≠ .T) : s.fencexEnd gid t a b dom = s.closeIv (s.agent gid t) dom := if_neg ha

/-- One from the threads' path closes it toward the second path too. -/
theorem State.fencexEnd_thread {gid : Nat} : (s.fencexEnd gid t .T b dom).ivs =
    (s.closeIv (s.agent gid t) dom).ivs.map fun iv =>
      if iv.agent = s.agent gid t then { iv with paths := (b :: iv.paths).eraseDups } else iv := rfl

section
variable (hready : s.syncReady (s.who s.cur.gid t) = .go)
include hready

theorem State.fencexTurn_ends (hnone : s.inFlight s.cur.gid a = []) :
    s.fencexTurn a b dom t = (s.fencexFree t).fencexEnd s.cur.gid t a b dom := by
  simp only [State.fencexTurn, hready, State.fencexDone, hnone]
  rfl

theorem State.fencexTurn_parks (hparks : s.cg.parks = []) (hsome : s.inFlight s.cur.gid a ≠ []) : s.fencexTurn a b dom t =
    { s.park [t] (.fencex (s.inFlight s.cur.gid a) a b dom (s.nextId + 1)) with nextId := s.nextId + 1 } := by
  obtain ⟨n, hn⟩ := List.exists_mem_of_ne_nil _ hsome
  have hwaits : s.fencexDone s.cur.gid (s.inFlight s.cur.gid a) a = false := by
    rw [State.fencexDone, List.all_eq_false]
    exact ⟨n, hn, by simpa using hn⟩
  simp only [State.fencexTurn, hready, State.fencexCmds_first hparks, hwaits, State.fencexPark?_none hparks]
  rfl

end
end

/-! ### The agents that it holds (R193) -/

theorem State.fencexHolds_of_park {u : State} {gid core id since d : Nat} {h : Group} {r : ParkRec} {cmds : List Nat} {a b : Path}
    (hg : (gid, h) ∈ u.groups) (hcore : h.core = core) (hr : r ∈ h.parks) (hmask : r.mask ≠ [])
    (hkind : r.kind = .fencex cmds a b d since) (hsince : since ≤ id) : u.fencexHolds core b id = true := by
  refine List.any_eq_true.2 ⟨(gid, h), hg, ?_⟩
  rw [Bool.and_eq_true, decide_eq_true_eq]
  refine ⟨hcore, List.any_eq_true.2 ⟨r, hr, ?_⟩⟩
  simp [hmask, hkind, hsince]

theorem State.engHeld_of_fencexHolds {u : State} {core id : Nat} {b : Path} (ctx : Nat) (h : u.fencexHolds core b id = true) :
    u.engHeld core ctx b id = true := by
  rw [State.engHeld, h, Bool.or_true]

/-- Of the five paths, the code 0 alone is the threads'. -/
theorem pathOf_ne_T {p : BitVec 7} (hp : p.toNat < 5) (hne : p ≠ 0#7) : pathOf p.toNat ≠ .T := by
  revert p
  decide

/-! ### The statement -/

/-- Settles O31: the turns of the two instructions by what is in flight, and a parked `FENCEX` holds what was issued after it. -/
theorem fences : Obligations.Fences := by
  intro s g o v dom hscope
  refine ⟨fun hI => ⟨_, exec_fence hI hscope, fun s1 t => ⟨State.whenReady_go, State.whenReady_waits, fun a c =>
    State.whenReady_refused⟩⟩, fun p q hI hpaths hp _ => ⟨_, exec_fencex hI hpaths hscope, fun s1 t hready hparks =>
    ⟨?engine, State.fencexTurn_parks hready hparks, ?thread, ?holds⟩⟩⟩
  case engine =>
    intro hnone hne
    rw [State.fencexTurn_ends hready hnone, State.fencexEnd_engine (pathOf_ne_T hp hne), State.fencexFree_agent]
    exact ⟨State.closeIv_ivs_congr (s1.fencexFree_ivs t) _ _, State.closeIv_sweep_congr (s1.fencexFree_sweep t) _ _⟩
  case thread =>
    rintro rfl
    rw [State.fencexTurn_ends hready rfl]
    refine State.fencexEnd_thread.trans ?_
    rw [State.fencexFree_agent, State.closeIv_ivs_congr (s1.fencexFree_ivs t)]
  case holds =>
    intro u gid core ctx id since h r cmds a b d hg hcore hr hmask hkind hsince
    exact State.engHeld_of_fencexHolds ctx (State.fencexHolds_of_park hg hcore hr hmask hkind hsince)

end Sys2Proof.Machine
end

section
/-! SUPPORT. Rounds of `HSIGN` (R318): what the event of a full round does, what the release of a signer leaves alone, and how a
round ends. -/

namespace Sys2Proof.Machine
open Sys2Proof

/-! ### What the release of a signer leaves alone -/

/-- What of a group its agents, its launch and its context are told by. -/
def Group.home (g : Group) : GKind × Nat × Nat × Nat × Nat := (g.kind, g.core, g.uid, g.lid, g.ctx)

/-- Signers were let go, or faults recorded against them: nothing outside the groups, the intervals and the sweep changed, and no
group has moved. -/
structure Released (s u : State) : Prop where
  frame : ∃ gs ivs sw, u = { s with groups := gs, ivs := ivs, sweep := sw }
  homes : ∀ gid, (u.grp gid).home = (s.grp gid).home

theorem Released.refl (s : State) : Released s s := ⟨⟨_, _, _, rfl⟩, fun _ => rfl⟩

theorem Released.trans {s u v : State} (a : Released s u) (b : Released u v) : Released s v := by
  obtain ⟨_, _, _, rfl⟩ := a.frame
  obtain ⟨_, _, _, rfl⟩ := b.frame
  exact ⟨⟨_, _, _, rfl⟩, fun gid => (b.homes gid).trans (a.homes gid)⟩

section
variable {s u : State} (h : Released s u)
include h

theorem Released.mem : u.mem = s.mem := by
  obtain ⟨_, _, _, rfl⟩ := h.frame
  rfl

theorem Released.dev : u.dev = s.dev := by
  obtain ⟨_, _, _, rfl⟩ := h.frame
  rfl

theorem Released.launches : u.launches = s.launches := by
  obtain ⟨_, _, _, rfl⟩ := h.frame
  rfl

theorem Released.core (k : Nat) : u.core k = s.core k := by
  obtain ⟨_, _, _, rfl⟩ := h.frame
  rfl

theorem Released.who (gid t : Nat) : u.who gid t = s.who gid t := by
  have hhome := h.homes gid
  simp only [Group.home, Prod.mk.injEq] at hhome
  obtain ⟨hkind, hcore, huid, hlid, hctx⟩ := hhome
  simp only [State.who, State.agent, hkind, hcore, huid, hlid, hctx]

/-- A refused side-logged write is still refused (R170). -/
theorem Released.sideRefused (gid t : Nat) : u.sideRefused (u.who gid t) = s.sideRefused (s.who gid t) := by
  rw [State.sideRefused, h.who, h.core, State.sideRefused]

end

theorem Released.fold {α : Type} {f : State → α → State} (h : ∀ s a, Released s (f s a)) (l : List α) (s : State) :
    Released s (l.foldl f s) :=
  foldl_keeps (Released s) f (fun u a hu => hu.trans (h u a)) l s (.refl s)

theorem State.closeIv_released (s : State) (a : Agent) (dom : Nat) : Released s (s.closeIv a dom) :=
  ⟨⟨_, _, _, rfl⟩, fun _ => rfl⟩

theorem State.updGrp_released (s : State) (gid : Nat) {f : Group → Group} (hf : ∀ g, (f g).home = g.home) :
    Released s (s.updGrp gid f) := by
  refine ⟨?frame, fun k => ?homes⟩
  case frame =>
    unfold State.updGrp
    split
    · exact ⟨_, _, _, rfl⟩
    · exact ⟨_, _, _, rfl⟩
  case homes =>
    by_cases hk : k = gid
    · subst hk
      cases hg : kfind s.groups k with
      | none => rw [State.updGrp, hg]
      | some g => rw [s.updGrp_grp k f g hg, s.grp_of_kfind k g hg, hf]
    · rw [s.updGrp_grp_ne gid k f hk]

theorem Group.foldl_updThr (f : Thread → Thread) (l : List Nat) (g : Group) :
    ∃ ts, l.foldl (fun g t => g.updThr t f) g = g.withThreads ts := by
  induction l generalizing g with
  | nil => exact ⟨g.threads, rfl⟩
  | cons t l ih => exact ih (g.updThr t f)

/-- Threads that go on change of their group the threads, and where it stands among those of its lane (R119). -/
theorem State.resume_eq (s : State) (gid : Nat) (tids : List Nat) : ∃ f : Group → Group, s.resume gid tids = s.updGrp gid f
    ∧ ∀ g, ∃ ts p a, f g = { g with threads := ts, gpark := p, again := a } := by
  refine ⟨_, rfl, fun g => ?_⟩
  obtain ⟨ts, hts⟩ := Group.foldl_updThr (fun x => { x.advance (s.curAt gid x.pos [] []) with stays := false, popped := [] })
    tids g
  dsimp only
  rw [hts]
  split
  · exact ⟨_, _, _, rfl⟩
  · exact ⟨_, _, _, rfl⟩

theorem State.resume_released (s : State) (gid : Nat) (tids : List Nat) : Released s (s.resume gid tids) := by
  obtain ⟨f, hresume, hf⟩ := s.resume_eq gid tids
  rw [hresume]
  refine s.updGrp_released gid fun g => ?_
  obtain ⟨ts, p, a, hfg⟩ := hf g
  rw [hfg]
  rfl

theorem State.updThr_released (s : State) (gid t : Nat) (f : Thread → Thread) : Released s (s.updThr gid t f) :=
  s.updGrp_released gid fun _ => rfl

/-- A park of the round without the signer. -/
def ParkRec.leave (h t : Nat) (p : ParkRec) : ParkRec :=
  if p.kind = .huddle h then { p with mask := p.mask.filter (· ≠ t) } else p

/-- The signer is out of the parks of the round. -/
def State.leaveRound (s : State) (x : Sig) (h : Nat) : State := s.updGrp x.gid fun g =>
  { g with parks := (g.parks.map (ParkRec.leave h x.tix)).filter fun p => !p.mask.isEmpty }

theorem State.leaveRound_released (s : State) (x : Sig) (h : Nat) : Released s (s.leaveRound x h) :=
  s.updGrp_released x.gid fun _ => rfl

section
variable {s : State} {x : Sig} {h : Nat}

theorem State.release_stays {owed : Option (Nat × Nat)} (hwaits : s.waitsAt x h = false) :
    s.release x h owed = s.closeIv (s.agent x.gid x.tix) 3 := by
  simp [State.release, hwaits]

theorem State.release_resumes (hwaits : s.waitsAt x h = true) :
    s.release x h none = ((s.closeIv (s.agent x.gid x.tix) 3).leaveRound x h).resume x.gid [x.tix] := by
  simp only [State.release, hwaits]
  rfl

theorem State.release_owes {c : Nat × Nat} (hwaits : s.waitsAt x h = true) : s.release x h (some c) =
    ((s.closeIv (s.agent x.gid x.tix) 3).leaveRound x h).updThr x.gid x.tix fun y => { y with owed := some c } := by
  simp only [State.release, hwaits]
  rfl

end

theorem State.release_released (s : State) (x : Sig) (h : Nat) (owed : Option (Nat × Nat)) : Released s (s.release x h owed) := by
  have hclosed := s.closeIv_released (s.agent x.gid x.tix) 3
  have hleft := hclosed.trans (State.leaveRound_released _ x h)
  cases hwaits : s.waitsAt x h with
  | false => rw [State.release_stays hwaits]; exact hclosed
  | true => cases owed with
    | none => rw [State.release_resumes hwaits]; exact hleft.trans (State.resume_released ..)
    | some c => rw [State.release_owes hwaits]; exact hleft.trans (State.updThr_released ..)

theorem State.defer_released (s : State) (gid : Nat) (tids : List Nat) (code addr : Nat) :
    Released s (s.defer gid tids code addr) := s.updGrp_released gid fun _ => rfl

/-! ### A signer no longer waits (R318) -/

theorem ParkRec.leave_clear {h t : Nat} {p : ParkRec} (hkind : (p.leave h t).kind = .huddle h) : t ∉ (p.leave h t).mask := by
  unfold ParkRec.leave at hkind ⊢
  split
  · simp
  next hother =>
    rw [if_neg hother] at hkind
    exact absurd hkind hother

theorem State.waitsAt_eq_false_iff {s : State} {x : Sig} {h : Nat} :
    s.waitsAt x h = false ↔ ∀ r ∈ (s.grp x.gid).parks, r.kind = .huddle h → x.tix ∉ r.mask := by
  simp [State.waitsAt]

theorem State.parks_resume {s : State} {gid : Nat} {tids : List Nat} {g : Group} (hg : kfind s.groups gid = some g) :
    ((s.resume gid tids).grp gid).parks = g.parks := by
  obtain ⟨f, hresume, hf⟩ := s.resume_eq gid tids
  obtain ⟨ts, p, a, hfg⟩ := hf g
  rw [hresume, s.updGrp_grp gid f g hg, hfg]

theorem State.kfind_of_waitsAt {s : State} {x : Sig} {h : Nat} (hwaits : s.waitsAt x h = true) :
    ∃ g, kfind s.groups x.gid = some g := by
  cases hg : kfind s.groups x.gid with
  | some g => exact ⟨g, rfl⟩
  | none =>
    rw [State.waitsAt, State.grp, kget_of_unlisted _ _ _ hg] at hwaits
    cases hwaits

theorem State.release_unparks (s : State) (x : Sig) (h : Nat) :
    ∀ r ∈ ((s.release x h none).grp x.gid).parks, r.kind = .huddle h → x.tix ∉ r.mask := by
  cases hwaits : s.waitsAt x h with
  | false =>
    rw [State.release_stays hwaits]
    exact State.waitsAt_eq_false_iff.1 hwaits
  | true =>
    obtain ⟨g, hg⟩ := State.kfind_of_waitsAt hwaits
    have hclosed : kfind (s.closeIv (s.agent x.gid x.tix) 3).groups x.gid = some g := hg
    intro r hr
    rw [State.release_resumes hwaits, State.leaveRound, State.parks_resume (State.updGrp_kfind _ x.gid _ g hclosed)] at hr
    obtain ⟨p, -, rfl⟩ := List.mem_map.1 (List.mem_filter.1 hr).1
    exact ParkRec.leave_clear

/-! ### The event of a full round (R318) -/

/-- What a full round does, by the kind of its first signature `a` and the stream of its last, `z`. -/
def State.roundOver (s : State) (core h : Nat) (a z : Sig) : State :=
  let gs := ((s.core core).huddle h).sigs
  if a.kind = 0 then
    if gs.all fun g => g.kind = 0 then
      let s := s.updHuddle core h fun x => x.next 1
      (s.signers gs).foldl (fun s g => s.releaseReady g h) s
    else s.mismatch core h
  else if s.engHeld core (s.grp z.gid).ctx .G z.id then s
  else if sigsAgree gs then s.matrixRound core h gs z
  else s.mismatch core h

section
variable {s : State} {core h : Nat}

/-- A huddle without signatures, or whose round is not full. -/
theorem exec_round_open (hopen : ((s.core core).huddle h).sigs = []
      ∨ ((s.core core).huddle h).signed ≠ ((s.core core).huddle h).count) :
    exec (.huddleRoundComplete core h) s = .next s.tick := by
  change execHuddleRoundComplete core h s = _
  unfold execHuddleRoundComplete
  dsimp only
  split
  next a z ha hz =>
    have hnot : ((s.core core).huddle h).signed ≠ ((s.core core).huddle h).count := by
      refine hopen.resolve_left fun hnil => ?_
      rw [hnil] at ha
      cases ha
    exact if_pos (by simp [hnot])
  · rfl

section
variable {a z : Sig} (ha : ((s.core core).huddle h).sigs.head? = some a)
  (hz : ((s.core core).huddle h).sigs.getLast? = some z)
  (hfull : ((s.core core).huddle h).signed = ((s.core core).huddle h).count) (harmed : 0 < ((s.core core).huddle h).count)
  (hkind : a.kind ≠ 3) (hdrained : ∀ x ∈ ((s.core core).huddle h).sigs, s.undrained (s.agent x.gid x.tix) = false)
include ha hz hfull harmed hkind hdrained

theorem exec_round_full : exec (.huddleRoundComplete core h) s = .next (s.roundOver core h a z).tick := by
  change execHuddleRoundComplete core h s = _
  have hready : (((s.core core).huddle h).sigs.any fun g =>
      s.undrained (s.agent g.gid g.tix) && (s.grp g.gid).uid = g.uid) = false :=
    List.any_eq_false.2 fun x hx => by simp [hdrained x hx]
  unfold execHuddleRoundComplete State.roundOver
  simp only [ha, hz, hready]
  rw [if_neg (by simp [hfull, hkind, Nat.ne_of_gt harmed])]
  simp only [apply_ite State.tick, apply_ite Host.Outcome.next]

end
end

/-! ### How a round ends (R318) -/

section
variable {s : State} {core h : Nat}

theorem State.huddle_updHuddle (f : Huddle → Huddle) (hh : h < (s.core core).huddles.length) :
    ((s.updHuddle core h f).core core).huddle h = f ((s.core core).huddle h) := by
  simp [State.updHuddle, Core.huddle, hh]

theorem State.updHuddle_sideRefused (f : Huddle → Huddle) (w : Who) : (s.updHuddle core h f).sideRefused w = s.sideRefused w := by
  by_cases hk : w.core = core
  · subst hk
    simp [State.sideRefused, State.updHuddle]
  · rw [State.sideRefused, State.updHuddle, State.updCore_core_ne _ _ _ _ hk, State.sideRefused]

theorem State.signers_of_present {gs : List Sig} (hthere : ∀ x ∈ gs, s.hasGrp x.gid = true ∧ (s.grp x.gid).uid = x.uid) :
    s.signers gs = gs :=
  List.filter_eq_self.2 fun x hx => by
    obtain ⟨hgrp, huid⟩ := hthere x hx
    simp [hgrp, huid]

/-- Signers without a refused write resume (R170, R318). -/
theorem State.releaseAll {gs : List Sig} (u : State) (hs : Released s u)
    (hclean : ∀ x ∈ gs, s.sideRefused (s.who x.gid x.tix) = none) :
    gs.foldl (fun v x => v.releaseReady x h) u = gs.foldl (fun v x => v.release x h none) u := by
  induction gs generalizing u with
  | nil => rfl
  | cons x gs ih =>
    obtain ⟨hx, hgs⟩ := List.forall_mem_cons.1 hclean
    have hready : u.releaseReady x h = u.release x h none := by
      rw [State.releaseReady, hs.sideRefused, hx]
    rw [List.foldl_cons, List.foldl_cons, hready]
    exact ih _ (hs.trans (u.release_released x h none)) hgs

/-- A round that disagrees releases its signers or records the fault against them (R318, R366). -/
theorem State.mismatch_released : Released (s.updHuddle core h fun x => x.next 2) (s.mismatch core h) := by
  unfold State.mismatch
  refine Released.fold (fun u x => ?_) _ _
  split
  · exact u.release_released ..
  · exact u.defer_released ..

end

/-! ### The statement -/

/-- Settles O35: a round that is not full stands, a full one ends with its signers released, and one that disagrees ends in
MISMATCH. -/
theorem signedRounds : Obligations.SignedRounds := by
  intro s core h hh hsize
  rw [← hsize] at hh
  refine ⟨exec_round_open, fun hsome hfull harmed hready => ?complete, fun a ha hfull harmed hkind hother hdrained => ?mismatch,
    fun x v => ?release⟩
  case complete =>
    have ha := List.head?_eq_some_head hsome
    have hz := List.getLast?_eq_some_getLast hsome
    generalize ((s.core core).huddle h).sigs.head hsome = a at ha
    generalize ((s.core core).huddle h).sigs.getLast hsome = z at hz
    have hzero := (hready a (List.mem_of_head? ha)).1
    have hdrained := fun x hx => (hready x hx).2.1
    have hover : s.roundOver core h a z = ((s.core core).huddle h).sigs.foldl (fun v x => v.release x h none)
        (s.updHuddle core h fun y => y.next 1) := by
      have hall : (((s.core core).huddle h).sigs.all fun g => decide (g.kind = 0)) = true :=
        List.all_eq_true.2 fun x hx => decide_eq_true (hready x hx).1
      have hsigners : (s.updHuddle core h fun y => y.next 1).signers ((s.core core).huddle h).sigs =
          ((s.core core).huddle h).sigs := s.signers_of_present fun x hx => (hready x hx).2.2.2
      have hclean : ∀ x ∈ ((s.core core).huddle h).sigs,
          (s.updHuddle core h fun y => y.next 1).sideRefused ((s.updHuddle core h fun y => y.next 1).who x.gid x.tix) = none :=
        fun x hx => (State.updHuddle_sideRefused ..).trans (hready x hx).2.2.1
      rw [State.roundOver, if_pos hzero, if_pos hall]
      dsimp only
      rw [hsigners]
      exact State.releaseAll _ (.refl _) hclean
    have hreleased : Released (s.updHuddle core h fun y => y.next 1) (s.roundOver core h a z) := by
      rw [hover]
      exact .fold (fun v x => v.release_released x h none) _ _
    refine ⟨_, exec_round_full ha hz hfull harmed (by omega) hdrained, hreleased.mem, ?_, congrArg State.tick hover⟩
    exact (congrArg (Core.huddle · h) (hreleased.core core)).trans (State.huddle_updHuddle _ hh)
  case mismatch =>
    have hz := List.getLast?_eq_some_getLast (List.ne_nil_of_mem (List.mem_of_head? ha))
    generalize ((s.core core).huddle h).sigs.getLast _ = z at hz
    have hover : s.roundOver core h a z = s.mismatch core h := by
      obtain ⟨x, hx, hne⟩ := hother
      have hnot : ¬ (((s.core core).huddle h).sigs.all fun g => decide (g.kind = 0)) = true := fun hall =>
        hne (of_decide_eq_true (List.all_eq_true.1 hall x hx))
      rw [State.roundOver, if_pos hkind, if_neg hnot]
    refine ⟨_, exec_round_full ha hz hfull harmed (by omega) hdrained, ?_, ?_⟩
    · rw [hover]
      exact s.mismatch_released.mem
    · rw [hover]
      exact (congrArg (Core.huddle · h) (s.mismatch_released.core core)).trans (State.huddle_updHuddle _ hh)
  case release =>
    have hreleased := v.release_released x h none
    exact ⟨hreleased.mem, hreleased.dev, hreleased.launches, v.release_unparks x h⟩

end Sys2Proof.Machine
end

section
/-! SUPPORT. Rounds of `MMA` and `MMAS` (R318, R365, R371, R375): the turn of a thread that signs, when the signatures are one
instruction, and how a full round runs. -/

namespace Sys2Proof.Machine
open Sys2Proof

/-! ### Signing (R371, R375) -/

/-- What becomes of a thread at an `MMA` whose signature is received so. -/
def State.mmaEnds (s : State) (t : Nat) : Signed → State
  | .misuse => s.trap t 0x10 0
  | .waits => s.stayAll [t]
  | .done => s.closeIv (s.agent s.cur.gid t) 3

/-- One thread at an `MMA` or `MMAS`. -/
def State.mmaTurn (h kind : Nat) (vals : List Nat) (s : State) (t : Nat) : State :=
  s.whenReady t [t] fun s => match s.signThread t h kind vals (s.cg.ambient t) with
    | (s, .misuse) => s.trap t 0x10 0
    | (s, .waits) => s.stayAll [t]
    | (s, .done) => s.closeIv (s.agent s.cur.gid t) 3

section
variable {s : State} {i : Instr} {g : Group} (hI : s.Issues i g) (hplain : popNames i = [])
  (hdue : s.roundDue g.core = false) (hheld : s.engHeld g.core g.ctx .G s.nextId = false)
include hI hplain hdue hheld

/-- R364: no round, drain or `FENCEX` is before the command. -/
theorem State.matrixGate_open (k : State → State) : s.matrixGate i k = k s := by
  refine (s.gate_noQueue i g hI hplain _).trans (if_neg ?_)
  simp [s.cg_eq g hI.group, hdue, hheld]

theorem State.mmaSign_signs {h kind : Nat} {u : State} {v : Vals}
    (hread : s.readOps s.cur.gid (s.cur.mask.headD 0) (operands i) Vals.zero = (u, .ok v)) :
    s.mmaSign i h kind = u.signs h (State.mmaTurn h kind (u.mmaVals v)) := by
  unfold State.mmaSign
  rw [State.matrixGate_open hI hplain hdue hheld, hread]
  rfl

end

theorem State.mmaTurn_signs {s v : State} {h kind t : Nat} {vals : List Nat} {r : Signed}
    (hready : s.syncReady (s.who s.cur.gid t) = .go)
    (hsign : s.signThread t h kind vals (s.cg.ambient t) = (v, r)) : s.mmaTurn h kind vals t = v.mmaEnds t r := by
  unfold State.mmaTurn
  rw [State.whenReady_go hready, hsign]
  cases r <;> rfl

/-! ### When signatures are one instruction (R371) -/

/-- Signatures of one instruction: one kind, the same words and the same literals. -/
def Sig.Same (a x : Sig) : Prop := x.kind = a.kind ∧ x.w = a.w ∧ x.u = a.u ∧ x.lits = a.lits

theorem sigsAgree_iff {gs : List Sig} {a : Sig} (ha : gs.head? = some a) : sigsAgree gs = true ↔ ∀ x ∈ gs, a.Same x := by
  obtain ⟨xs, rfl⟩ := List.head?_eq_some_iff.1 ha
  simp [sigsAgree, Sig.Same, and_assoc]

/-! ### A full round (R318, R371) -/

section
variable {s : State} {core h : Nat} {a z : Sig}

/-- The agent of a round in the place of the signer `z`. -/
def State.roundWho (s : State) (core h : Nat) (z : Sig) : Who :=
  ⟨⟨.G, core, z.gid, s.nextId⟩, core, ((s.core core).huddle h).owner.getD 0, (s.grp z.gid).ctx⟩

/-- What the operation of a round gives, with the values of its last signer `z`. -/
def State.roundResult (s : State) (core h : Nat) (z : Sig) : State × Except MFail Unit :=
  let n := fun (j : Nat) => z.vals.getD j 0
  s.mmaRound (s.roundWho core h z) (mopOf z.w z.u) (n 0) (n 1) (n 2) (n 3) (n 4)
    (n 5 = 1 || ((s.core core).huddle h).sigs.any Sig.p)

section
variable (hkind : a.kind = 1 ∨ a.kind = 2) (hheld : s.engHeld core (s.grp z.gid).ctx .G z.id = false)
  (ha : ((s.core core).huddle h).sigs.head? = some a)
include hkind hheld ha

theorem State.roundOver_disagrees (hother : ∃ x ∈ ((s.core core).huddle h).sigs, ¬ a.Same x) :
    s.roundOver core h a z = s.mismatch core h := by
  have hnot : ¬ sigsAgree ((s.core core).huddle h).sigs = true := fun hagree =>
    let ⟨x, hx, hne⟩ := hother
    hne ((sigsAgree_iff ha).1 hagree x hx)
  rw [State.roundOver, if_neg (by omega), if_neg (by simp [hheld]), if_neg hnot]

theorem State.roundOver_agrees (hsame : ∀ x ∈ ((s.core core).huddle h).sigs, a.Same x) :
    s.roundOver core h a z = s.matrixRound core h ((s.core core).huddle h).sigs z := by
  rw [State.roundOver, if_neg (by omega), if_neg (by simp [hheld]), if_pos ((sigsAgree_iff ha).2 hsame)]

end

section
variable {o : MOp} (ho : mopOf z.w z.u = o) (htile : ((s.core core).tile o.tile).due = false)
  (hdrain : (s.core core).draining = false)
  (hscores : ∀ cs N, ((s.core core).tile o.tile).smx = some (cs, N) → o.form ≠ 0 → ((s.core core).tile cs).due = false)
include ho htile hdrain hscores

/-- R373: nothing is due in the tiles of the round. -/
theorem State.matrixRound_runs : s.matrixRound core h ((s.core core).huddle h).sigs z =
    match s.roundResult core h z with
    | (u, .error .waits) => u.matrixEnd (s.roundWho core h z)
    | (u, .error (.fault code addr)) =>
      let u := (u.matrixEnd (s.roundWho core h z)).updHuddle core h fun x => x.next 2
      (u.signers ((s.core core).huddle h).sigs).foldl (fun v x => v.defer x.gid [x.tix] code addr) u
    | (u, .ok ()) => (u.matrixEnd (s.roundWho core h z)).updHuddle core h fun x => x.next 1 := by
  subst ho
  have hready : ((((s.core core).tile (mopOf z.w z.u).tile).due ||
      match ((s.core core).tile (mopOf z.w z.u).tile).smx with
      | some (cs, _) => (mopOf z.w z.u).form ≠ 0 && ((s.core core).tile cs).due
      | none => false) || (s.core core).draining) = false := by
    rw [htile, hdrain, Bool.or_false, Bool.false_or]
    cases hsmx : ((s.core core).tile (mopOf z.w z.u).tile).smx with
    | none => rfl
    | some m =>
      by_cases hform : (mopOf z.w z.u).form = 0
      · simp [hform]
      · simp [hscores m.1 m.2 hsmx hform]
  exact if_neg (by rw [Bool.not_eq_true]; exact hready)

end
end

/-- R318, R366: in a round that disagrees the signers of `HSIGN` and `DCOR` resume at a trap, and the others have a fault. -/
theorem State.mismatch_eq (s : State) (core h : Nat) (u : State) (hu : s.updHuddle core h (fun x => x.next 2) = u) :
    s.mismatch core h = (u.signers ((s.core core).huddle h).sigs).foldl (fun v x =>
      if x.kind = 0 ∨ x.kind = 3 then v.release x h (some (0x10, 0)) else v.defer x.gid [x.tix] 0x10 0) u := by
  subst hu
  simp only [State.mismatch, Bool.or_eq_true, decide_eq_true_eq]

/-! ### The statement -/

/-- Settles O45: each thread signs by the state of the huddle, and a full round disagrees, runs or faults. -/
theorem matrixRounds : Obligations.MatrixRounds := by
  refine ⟨fun s s1 g i h kind v hform hI hplain hdue hheld hread => ?signing,
    fun s s2 core h a z ha hz harmed hfull hkind hdrained hheld => ?rounds⟩
  case signing =>
    have hexec : exec i s = .next (s1.signs h (State.mmaTurn h kind (s1.mmaVals v))) := by
      rw [← State.mmaSign_signs hI hplain hdue hheld hread]
      obtain ⟨d, a, b, c, hh, tile, lat, fa, fb, mx, m, rfl, rfl, rfl⟩
        | ⟨d, a, b, c, hh, tile, lat, fa, fb, mx, lr, rfl, rfl, rfl⟩
        | ⟨d, a, b, c, hh, tile, fa, fb, mx, lr, rfl, rfl, rfl⟩ := hform
      · rfl
      · rfl
      · rfl
    refine ⟨fun hround => hexec.trans (congrArg _ (State.signs_full _ hround)), fun hround =>
      ⟨_, hexec.trans (congrArg _ (State.signs_turns _ hround)), fun u t hready hnbv => ⟨fun hbad => ?misuse,
        fun howner hopen => ?done⟩⟩⟩
    case misuse => exact State.mmaTurn_signs hready (State.sign_misuse _ hbad)
    case done =>
      have hturn := State.mmaTurn_signs (kind := kind) (vals := s1.mmaVals v) hready (State.sign_done _ howner hopen)
      rw [hturn, State.mmaVals, ← hnbv]
      simp only [u32_eq_lo]
      rfl
  case rounds =>
    have hexec : exec (.huddleRoundComplete core h) s = .next (s.roundOver core h a z).tick :=
      exec_round_full ha hz hfull harmed (by omega) hdrained
    refine ⟨fun hother => ?disagrees, fun hsame htile hdrain hscores => ?runs⟩
    case disagrees =>
      rw [hexec, State.roundOver_disagrees hkind hheld ha hother, s.mismatch_eq core h _ rfl]
      rfl
    case runs =>
      have hruns := State.matrixRound_runs (h := h) rfl htile hdrain hscores
      rw [hexec, State.roundOver_agrees hkind hheld ha hsame, hruns]
      refine ⟨fun hok => ?complete, fun code addr hfault => ?fault⟩
      case complete =>
        have hresult : s.roundResult core h z = (s2, .ok ()) := hok
        rw [hresult]
        rfl
      case fault =>
        have hresult : s.roundResult core h z = (s2, .error (.fault code addr)) := hfault
        rw [hresult]
        rfl

end Sys2Proof.Machine
end

section
/-! SUPPORT. A write to a forwarded region by an instruction (R301, R306, R345): its line is read at once for the subscribers' update,
and that read classifies the code words of the line (R171). Uncorrectable data in the line are then poisoned, so that the memory
after the write is not the store alone, as for a window's word. -/

namespace Sys2Proof.Machine
open Sys2Proof

/-! ### A thread at a write to the forwarded region -/

/-- The group without a pending word. -/
def forwardedWriter : Group := { forwardedGroup with pend := [] }

/-- The sector of the region's line beside that of the word that is written. -/
def forwardedSector : Nat := forwardedKey / 32 + 1

/-- Thread 0 of the group stands at an instruction whose address has moved to the region (R287), and the sector beside the word's
holds uncorrectable data. -/
def forwardedWrite : State :=
  { forwardedState with
    dev := { forwardedState.dev with upsets := [⟨forwardedSector, 3, 0⟩] }
    groups := [(0, forwardedWriter)]
    cur := { Cur.reset with path := [0], mask := [0], pos := ⟨64, 0⟩, n := 1, ioff := 64 } }

theorem forwardedWrite_issues {i : Instr} (hrole : roleOk forwardedWriter.role i = true)
    (hlegal : legal forwardedWriter.regs i = true) : forwardedWrite.Issues i forwardedWriter where
  group := rfl
  home := by decide
  fresh := rfl
  role := hrole
  legal := hlegal
  size := rfl
  act := List.cons_ne_nil _ _
  mask := List.nodup_singleton 0
  path := List.nodup_singleton 0
  sub := fun _ h => h
  tids := by decide
  live := by decide +kernel
  going := rfl

/-! ### The refutation of O30 -/

/-- `ATOMA` of the word at x4, with the block from x8 on: an exchange, since x8 is 0. -/
def forwardedAtom : Instr := .atoma 8#7 4#7 4#4 0#3 0#3

/-- Its access. -/
def forwardedAcc : Acc := ⟨.A, 64, 4, true, true, false, true, false, 0⟩

/-- The state in which its access performs. -/
def forwardedReached : State := (forwardedWrite.reach (forwardedWrite.who 0 0) forwardedAcc).1

theorem forwardedWrite_reach :
    forwardedWrite.reach (forwardedWrite.who 0 0) forwardedAcc = (forwardedReached, .ok forwardedKey 0) :=
  Prod.ext rfl (by decide +kernel)

/-- The atomic's write, and the close of its thread's interval. -/
def forwardedExchanged : State :=
  (forwardedReached.put (forwardedWrite.who 0 0) forwardedAcc forwardedKey (leBytes 4 0) false false true).closeIv
    (forwardedWrite.who 0 0).agent 7

/-- R171, R345: the write poisons the sector beside its own. -/
theorem forwardedExchanged_poisons : (forwardedExchanged.mem.band forwardedSector).poison = true := by
  decide +kernel

/-- Refutes O30: the memory after an atomic is claimed to be that of the store. In `forwardedWrite` the atomic writes a word of a
forwarded region whose line holds uncorrectable data, so its write also poisons their sector, which the store leaves clean. -/
theorem not_atomics : ¬ Obligations.Atomics := by
  intro hatomics
  obtain ⟨T, -, hturn⟩ := hatomics forwardedAtom .A false false 8#7 4 0 0 forwardedWrite forwardedWriter 7 rfl
    (forwardedWrite_issues (by decide) (by decide)) rfl rfl
  obtain ⟨-, -, hstep⟩ := hturn forwardedWrite forwardedWrite 0 [0] Vals.zero ⟨0, 0, 0, false⟩ rfl (by decide +kernel)
  obtain ⟨hwrites, -⟩ := hstep forwardedReached forwardedKey 0 0 (by decide) (by decide +kernel) (by decide +kernel)
    forwardedWrite_reach
  obtain ⟨-, hmem⟩ := hwrites (by decide +kernel) (by decide +kernel) (by decide +kernel)
  have hstored : (forwardedExchanged.mem.band forwardedSector).poison = false := by
    refine (congrArg (fun m => (Memory.band m forwardedSector).poison) hmem).trans ?_
    exact Memory.clean_store (by decide +kernel) _ _ _ _
  exact Bool.false_ne_true (hstored.symm.trans forwardedExchanged_poisons)

end Sys2Proof.Machine
end

section
/-! SUPPORT. The end of a sweep leaves memory alone, unless its group freezes or leaves (R107, R119, R176): only then are pending
window stores performed. So what an instruction has written in a sweep after which its group goes on is what memory holds. -/

namespace Sys2Proof.Machine
open Sys2Proof

/-! ### Operations that end a sweep -/

/-- A group is frozen, or is no longer there. -/
def State.Over (s : State) (gid : Nat) : Prop := ∀ g, kfind s.groups gid = some g → g.frozen = true

/-- Part of the end of a sweep, which changes memory only where the group is over. -/
structure Ends (gid : Nat) (s u : State) : Prop where
  cur   : u.cur = s.cur
  stays : s.Over gid → u.Over gid
  mem   : u.Over gid ∨ u.mem = s.mem

section
variable {gid : Nat}

theorem Ends.refl (s : State) : Ends gid s s := ⟨rfl, id, .inr rfl⟩

theorem Ends.trans {s u v : State} (a : Ends gid s u) (b : Ends gid u v) : Ends gid s v where
  cur := b.cur.trans a.cur
  stays h := b.stays (a.stays h)
  mem := by
    obtain h | hmem := b.mem
    · exact .inl h
    · obtain h | hmem' := a.mem
      · exact .inl (b.stays h)
      · exact .inr (hmem.trans hmem')

/-- An operation that touches neither the groups nor memory. -/
theorem Ends.of_groups {s u : State} (hcur : u.cur = s.cur) (hgroups : u.groups = s.groups) (hmem : u.mem = s.mem) :
    Ends gid s u := ⟨hcur, fun h => by rwa [State.Over, hgroups], .inr hmem⟩

/-- The group freezes or leaves. -/
theorem Ends.of_over {s u : State} (hcur : u.cur = s.cur) (hover : u.Over gid) : Ends gid s u :=
  ⟨hcur, fun _ => hover, .inl hover⟩

theorem State.over_kdel {s : State} {n : Nat} (h : s.Over gid) : ({ s with groups := kdel s.groups n } : State).Over gid := by
  intro g hg
  have hdel : kfind (kdel s.groups n) gid = if gid ≠ n then kfind s.groups gid else none := by
    rw [kdel, kfind_filter fun k => decide (k ≠ n)]
    simp only [decide_eq_true_eq]
  change kfind (kdel s.groups n) gid = some g at hg
  rw [hdel] at hg
  split at hg
  · exact h g hg
  · cases hg

theorem State.over_kdel_self (s : State) : ({ s with groups := kdel s.groups gid } : State).Over gid := by
  intro g hg
  change kfind (kdel s.groups gid) gid = some g at hg
  rw [kdel, kfind_filter fun k => decide (k ≠ gid)] at hg
  simp at hg

/-! ### Groups that stay frozen -/

theorem State.over_updGrp {s : State} {n : Nat} {f : Group → Group} (hf : ∀ g, (f g).frozen = g.frozen) (h : s.Over gid) :
    (s.updGrp n f).Over gid := by
  cases hn : kfind s.groups n with
  | none => rwa [State.updGrp, hn]
  | some g =>
    intro k hk
    by_cases hgid : gid = n
    · subst hgid
      rw [State.updGrp_kfind s gid f g hn, Option.some.injEq] at hk
      rw [← hk, hf]
      exact h g hn
    · rw [State.updGrp_eq s n f g hn] at hk
      rw [kfind_kset_ne _ _ _ _ hgid] at hk
      exact h k hk

theorem State.updGrp_ends (s : State) (n : Nat) {f : Group → Group} (hf : ∀ g, (f g).frozen = g.frozen) :
    Ends gid s (s.updGrp n f) :=
  ⟨s.updGrp_cur n f, State.over_updGrp hf, .inr (s.updGrp_mem n f)⟩

/-- The group itself freezes. -/
theorem State.over_freeze (s : State) {f : Group → Group} (hf : ∀ g, (f g).frozen = true) : (s.updGrp gid f).Over gid := by
  intro k hk
  cases hn : kfind s.groups gid with
  | none =>
    rw [State.updGrp, hn] at hk
    exact absurd (hn.symm.trans hk) (by simp)
  | some g =>
    rw [State.updGrp_kfind s gid f g hn, Option.some.injEq] at hk
    rw [← hk, hf]

theorem Group.foldl_frozen {α : Type} {f : Group → α → Group} (hf : ∀ g a, (f g a).frozen = g.frozen) (l : List α) (g : Group) :
    (l.foldl f g).frozen = g.frozen :=
  foldl_keeps (fun h : Group => h.frozen = g.frozen) f (fun h a hh => (hf h a).trans hh) l g rfl

/-! ### Window stores at the end of a group (R134, R345) -/

theorem State.lineRead_cur (s : State) (core lid line : Nat) : (s.lineRead core lid line).cur = s.cur := by
  unfold State.lineRead
  split
  · exact (State.classify_checked ..).cur
  · rfl

theorem State.forwardLine_cur (s : State) (core lid ent line : Nat) (runs : List Run) (p : Nat × Nat → Bool) :
    (s.forwardLine core lid ent line runs p).cur = s.cur := by
  unfold State.forwardLine
  split
  · rfl
  · refine foldl_keeps (fun u : State => u.cur = s.cur) _ (fun u e hu => ?_) _ _ rfl
    split
    · exact hu
    · dsimp only
      split
      · exact hu
      · exact hu

theorem State.forward_cur (s : State) (core lid off len : Nat) : (s.forward core lid off len).cur = s.cur := by
  refine foldl_keeps (fun u : State => u.cur = s.cur) _ (fun u n hu => ?_) _ _ rfl
  split
  · exact hu
  · split
    · exact hu
    · refine foldl_keeps (fun v : State => v.cur = s.cur) _ (fun v line hv => ?_) _ _ hu
      have hread := (v.lineRead_cur core lid line).trans hv
      dsimp only
      split
      · exact (State.forwardLine_cur ..).trans hread
      · exact hread

theorem State.landWins_cur (s : State) (n : Nat) : (s.landWins n).cur = s.cur := by
  refine foldl_keeps (fun u : State => u.cur = s.cur) _ (fun u p hu => ?_) _ _ rfl
  split
  · exact (State.forward_cur ..).trans hu
  · exact hu

/-! ### The parts of the end of a sweep (R144, R176, R119, R107) -/

theorem State.logFreeze_ends (s : State) (master ctx cause core unit addr : Nat) :
    Ends gid s (s.logFreeze master ctx cause core unit addr) := by
  unfold State.logFreeze
  dsimp only
  split
  · exact .of_groups rfl rfl rfl
  · exact .of_groups rfl rfl rfl

theorem State.unmark_ends (s : State) (n : Nat) : Ends gid s (s.unmark n) := by
  have htidy : Ends gid s (s.updGrp n Group.tidyHold) := s.updGrp_ends n fun _ => rfl
  unfold State.unmark
  dsimp only
  split
  · exact htidy.trans (State.updGrp_ends _ n fun _ => rfl)
  · exact htidy

theorem State.freezeNow_ends (s : State) (cause addr : Nat) : Ends gid s (s.freezeNow gid cause addr) := by
  have hfrozen : Ends gid s ((s.landWins gid).updGrp gid fun g => { g with
      frozen := true, toFreeze := none, pend := g.pend.filter fun p => p.win.isNone }) :=
    .of_over ((State.updGrp_cur ..).trans (s.landWins_cur gid)) (State.over_freeze _ fun _ => rfl)
  have hdrained : ∀ u : State, Ends gid u u.drainFrozen := fun u => .of_groups rfl rfl rfl
  exact ((hfrozen.trans (State.unmark_ends _ gid)).trans (hdrained _)).trans (State.logFreeze_ends ..)

theorem State.freezeStream_ends (s : State) (core ctx cause addr : Nat) : Ends gid s (s.freezeStream core ctx cause addr) :=
  have hdrained : Ends gid s (s.updCore core fun c => { c with engFrozen := (ctx :: c.engFrozen).eraseDups }).drainFrozen :=
    .of_groups rfl rfl rfl
  hdrained.trans (State.logFreeze_ends ..)

theorem State.freezeGroup_ends (s : State) (cause addr : Nat) : Ends gid s (s.freezeGroup gid cause addr) := by
  unfold State.freezeGroup
  dsimp only
  split
  · exact s.freezeStream_ends ..
  · split
    · exact s.updGrp_ends gid fun _ => rfl
    · exact s.freezeNow_ends ..

theorem State.freezeDue_ends (s : State) : Ends gid s (s.freezeDue gid) := by
  unfold State.freezeDue
  dsimp only
  split
  · split
    · exact .refl s
    · exact s.freezeNow_ends ..
  · exact .refl s

theorem State.violsTaken_ends (s : State) : Ends s.cur.gid s s.violsTaken := by
  unfold State.violsTaken
  split
  · exact .refl s
  · exact s.freezeGroup_ends ..

theorem State.trapEnds_ends (s : State) (n : Nat) (tids : List Nat) : Ends gid s (s.trapEnds n tids) := by
  have hrefs : Ends gid s (s.dropRefs n tids) := .of_groups rfl rfl rfl
  have hended : Ends gid (s.dropRefs n tids) ((s.dropRefs n tids).updGrp n fun g => tids.foldl Group.endThread g) :=
    State.updGrp_ends _ n fun g => Group.foldl_frozen (f := Group.endThread) (fun _ _ => rfl) tids g
  exact (hrefs.trans hended).trans (.of_groups rfl rfl rfl)

theorem Group.enterTrap_frozen (g : Group) (tids : List Nat) (code addr epc hdr : Nat) (sysc : Bool) :
    (g.enterTrap tids code addr epc hdr sysc).frozen = g.frozen := by
  refine (Group.foldl_frozen ?_ tids _).trans rfl
  exact fun _ _ => rfl

theorem State.takeTrap_ends (s : State) (n : Nat) (tids : List Nat) (code addr epc hdr : Nat) (sysc : Bool) :
    Ends gid s (s.takeTrap n tids code addr epc hdr sysc) := by
  unfold State.takeTrap
  dsimp only
  split
  · exact s.trapEnds_ends ..
  · exact s.updGrp_ends n fun g => g.enterTrap_frozen ..

theorem State.oweTraps_ends (s : State) (es : List (Nat × Nat × Nat)) : Ends gid s (s.oweTraps es) :=
  s.updGrp_ends _ fun g => by
    refine Group.foldl_frozen ?_ es g
    exact fun _ _ => rfl

theorem State.endProgram_ends (s : State) (core code addr : Nat) : Ends gid s (s.endProgram core code addr) := by
  unfold State.endProgram
  split
  · exact .refl s
  · exact ⟨rfl, fun h => State.over_kdel h, .inr rfl⟩

theorem State.trapsTaken_ends (s : State) : Ends gid s s.trapsTaken := by
  unfold State.trapsTaken
  dsimp only
  split
  · split
    · exact .refl s
    · exact s.oweTraps_ends ..
  · split
    · exact s.endProgram_ends ..
    · exact (s.oweTraps_ends ..).trans (State.takeTrap_ends ..)

theorem State.moveOn_ends (s : State) : Ends gid s s.moveOn :=
  s.updGrp_ends _ fun g => by
    refine Group.foldl_frozen (f := fun g t => g.updThr t (s.moved t)) ?_ s.cur.path g
    exact fun _ _ => rfl

theorem State.settleGroup_ends (s : State) : Ends gid s s.settleGroup := by
  have htidy : Ends gid s (s.updGrp s.cur.gid Group.tidyHold) := s.updGrp_ends _ fun _ => rfl
  refine htidy.trans (State.updGrp_ends _ _ ?_)
  exact fun _ => rfl

theorem State.holdSpace_ends (s : State) (core lid : Nat) : Ends gid s (s.holdSpace core lid) := by
  unfold State.holdSpace
  split
  · exact .of_groups rfl rfl rfl
  · exact .refl s

theorem State.updLaunch_unless_ends (s : State) (c : Prop) [Decidable c] (lid : Nat) (f : Launch → Launch) :
    Ends gid s (if c then s else s.updLaunch lid f) := by
  split
  · exact .refl s
  · exact .of_groups rfl rfl rfl

theorem State.unbind_cur (s : State) (k n : Nat) : (s.unbind k n).cur = s.cur := rfl

/-- A group leaves, with its ghosts and the monitors that nothing uses any more. -/
theorem State.leave_over (s : State) (k uid : Nat) :
    ({ s.ghosts k gid uid with groups := kdel s.groups gid }.pruneMons k).Over gid :=
  fun g hg => s.over_kdel_self g hg

theorem State.leave_cur (s : State) (k n uid : Nat) :
    ({ s.ghosts k n uid with groups := kdel s.groups n }.pruneMons k).cur = s.cur := rfl

theorem State.closeGroup_ends (s : State) : Ends gid s (s.closeGroup gid) := by
  unfold State.closeGroup
  dsimp only
  split
  · exact .refl s
  · split
    · exact .of_groups rfl rfl rfl
    · refine Ends.trans ?_ (State.holdSpace_ends ..)
      refine .of_over ?_ (State.leave_over _ _ _)
      rw [State.leave_cur, State.updCore_cur, State.unbind_cur, (State.updLaunch_unless_ends (gid := gid) ..).cur, s.landWins_cur gid]

end

/-! ### The end of a sweep -/

theorem State.finish_ends (s : State) : Ends s.cur.gid s s.finish := by
  have hjoined : Ends s.cur.gid s s.joinIvs := .of_groups rfl rfl rfl
  have hmoved : Ends s.cur.gid s s.joinIvs.moveOn.trapsTaken :=
    (hjoined.trans (State.moveOn_ends _)).trans (State.trapsTaken_ends _)
  have hviols := State.violsTaken_ends s.joinIvs.moveOn.trapsTaken
  rw [hmoved.cur] at hviols
  have hsettled := ((hmoved.trans hviols).trans (State.freezeDue_ends _)).trans (State.settleGroup_ends _)
  have hlinks : ∀ u : State, Ends s.cur.gid u u.linkOver := fun u => .of_groups rfl rfl rfl
  have hclosed := (hsettled.trans (hlinks _)).trans (State.closeGroup_ends _)
  have hover : ∀ u : State, Ends s.cur.gid u u.sweepOver := fun u => .of_groups rfl rfl rfl
  exact hclosed.trans (hover _)

/-- Where the group of the sweep is there after it and not frozen, its end leaves memory. -/
theorem State.finish_mem {s u : State} {g : Group} (hfinish : s.finish = u) (hg : kfind u.groups u.cur.gid = some g)
    (hgoes : g.frozen = false) : s.mem = u.mem := by
  subst hfinish
  obtain hover | hmem := s.finish_ends.mem
  · rw [s.finish_ends.cur] at hg
    exact absurd (hover g hg) (by simp [hgoes])
  · exact hmem.symm

/-! ### The refutation of O29 -/

/-- `STA` of x8 at x4. -/
def forwardedStore : Instr := .sta 8#7 4#7 4#4 0#3 0#3

/-- The step of the store. -/
def forwardedStored : State := match exec forwardedStore forwardedWrite with
  | .next u => u
  | _ => forwardedWrite

/-- Its access. -/
def forwardedStoreAcc : Acc := { Acc.write .A 64 4 false with sync := false }

/-- The state in which its access performs. -/
def forwardedStoreReached : State := (forwardedWrite.reach (forwardedWrite.who 0 0) forwardedStoreAcc).1

theorem exec_forwardedStore : exec forwardedStore forwardedWrite = .next forwardedStored := rfl

theorem forwardedStoreReached_reach : forwardedWrite.reach (forwardedWrite.who 0 0) forwardedStoreAcc =
    (forwardedStoreReached, .ok forwardedKey 0) :=
  Prod.ext rfl (by decide +kernel)

/-- R171, R345: the store poisons the sector beside its own. -/
theorem forwardedStored_poisons : (forwardedStored.mem.band forwardedSector).poison = true := by
  decide +kernel

/-- The group of the store goes on after it. -/
theorem forwardedStored_goes : ∃ g, kfind forwardedStored.groups forwardedStored.cur.gid = some g ∧ g.frozen = false := by
  have hgoes : (kfind forwardedStored.groups forwardedStored.cur.gid).any (fun g => !g.frozen) = true := by decide +kernel
  simpa [Option.any_eq_true] using hgoes

/-- Refutes O29: the memory after the turn of a store is claimed to be that of the store, and the end of its sweep leaves memory. In
`forwardedWrite` the store writes a word of a forwarded region whose line holds uncorrectable data, so it also poisons their
sector, which the store alone leaves clean. -/
theorem not_stores : ¬ Obligations.Stores := by
  intro hstores
  obtain ⟨T, hexec, hturn⟩ := hstores forwardedStore .A false false 8#7 4 0 0 forwardedWrite forwardedWriter 0 rfl
    (forwardedWrite_issues (by decide) (by decide)) rfl (fun h => absurd rfl h)
  have hfinish : (T forwardedWrite (0, [0])).finish = forwardedStored := by
    rw [exec_forwardedStore] at hexec
    exact (Host.Outcome.next.inj hexec).symm
  obtain ⟨-, -, -, hwrites⟩ := hturn forwardedWrite forwardedWrite 0 [0] Vals.zero [0#64] false rfl rfl
  obtain ⟨-, hok⟩ := hwrites forwardedStoreReached (.ok forwardedKey 0) (by decide +kernel) (by decide +kernel)
    (fun h => absurd rfl h) forwardedStoreReached_reach
  obtain ⟨hmem, -⟩ := hok forwardedKey 0 rfl
  obtain ⟨g, hg, hgoes⟩ := forwardedStored_goes
  have hstored : (forwardedStored.mem.band forwardedSector).poison = false := by
    rw [← State.finish_mem hfinish hg hgoes, hmem]
    exact Memory.clean_store (by decide +kernel) _ _ _ _
  exact Bool.false_ne_true (hstored.symm.trans forwardedStored_poisons)

end Sys2Proof.Machine
end

section
/-! SUPPORT. Defect correction (R227, R388 to R390): the turn of a thread at `DCOR.D`, a full round, and what its end leaves in the
registers of a signer. -/

namespace Sys2Proof.Machine
open Sys2Proof

/-! ### The checks of a signature (R388) -/

section
variable {row st n x y : Nat}

theorem dcorChk_long (hn : 2 ^ 24 < n) : dcorChk row st n x y = some (0x01, 0) := if_pos hn

section
variable (hn : n ≤ 2 ^ 24)
include hn

theorem dcorChk_row (hrow : row % 8 ≠ 0) : dcorChk row st n x y = some (0x08, row) := by
  rw [dcorChk, if_neg (Nat.not_lt.2 hn), if_pos hrow]

section
variable (hrow : row % 8 = 0)
include hrow

theorem dcorChk_stride (hst : st % 8 ≠ 0) : dcorChk row st n x y = some (0x08, st) := by
  rw [dcorChk, if_neg (Nat.not_lt.2 hn), if_neg (not_not_intro hrow), if_pos hst]

section
variable (hst : st % 8 = 0)
include hst

theorem dcorChk_x (hx : x % 8 ≠ 0) : dcorChk row st n x y = some (0x08, x) := by
  rw [dcorChk, if_neg (Nat.not_lt.2 hn), if_neg (not_not_intro hrow), if_neg (not_not_intro hst), if_pos hx]

section
variable (hx : x % 8 = 0)
include hx

theorem dcorChk_b (hy : y % 8 ≠ 0) : dcorChk row st n x y = some (0x08, y) := by
  rw [dcorChk, if_neg (Nat.not_lt.2 hn), if_neg (not_not_intro hrow), if_neg (not_not_intro hst),
    if_neg (not_not_intro hx), if_pos hy]

theorem dcorChk_passes (hy : y % 8 = 0) : dcorChk row st n x y = none := by
  rw [dcorChk, if_neg (Nat.not_lt.2 hn), if_neg (not_not_intro hrow), if_neg (not_not_intro hst),
    if_neg (not_not_intro hx), if_neg (not_not_intro hy)]

end
end
end
end
end

/-! ### One thread at a `DCOR.D` (R388) -/

/-- What the checks of a thread's descriptor from `g b` on give. -/
def State.descCheck (s : State) (t b : Nat) : Option (Nat × Nat) :=
  dcorChk (s.descPair t b 0) (s.descReg t b 2).v.toNat (s.descReg t b 3).v.toNat (s.descPair t b 4) (s.descPair t b 6)

/-- The signature of a thread with the operands `v`. -/
def State.dcorSig (s : State) (t d b : Nat) (v : Vals) : Sig :=
  ⟨s.cur.gid, s.cg.uid, t, 3, s.cur.w, s.cur.u, s.cur.lits,
    [d, v.a.lo.toNat, s.descPair t b 0, (s.descReg t b 2).v.toNat, (s.descReg t b 3).v.toNat, s.descPair t b 4,
      s.descPair t b 6, s.cg.ctl.dctol.n],
    v.p || (List.range 8).any (fun j => (s.descReg t b j).p) || s.cg.ambient t, s.nextId⟩

/-- A huddle of the launch that is not full is no misuse. -/
theorem Huddle.signable_of_open {x : Huddle} {lid : Nat} (howner : x.owner = some lid) (hopen : x.signed < x.count) :
    ¬ (x.count = 0 || x.owner ≠ some lid) = true := by
  simp [howner, Nat.ne_of_gt (Nat.lt_of_le_of_lt (Nat.zero_le _) hopen)]

section
variable {s u : State} {i : Instr} {d b h t : Nat} {v : Vals} (howed : (s.thr s.cur.gid t).owed = none)
  (hside : s.sideRefused (s.who s.cur.gid t) = none)
  (hread : s.readOps s.cur.gid t (operands i) Vals.zero = (u, .ok v))
include howed hside hread

theorem State.dcorSign_faults {c a : Nat} (hcheck : u.descCheck t b = some (c, a)) : s.dcorSign i d b h t = u.trap t c a := by
  unfold State.descCheck at hcheck
  simp only [State.dcorSign, (s.owes_eq_none_iff t).2 ⟨howed, hside⟩, hread, hcheck]

section
variable (hcheck : u.descCheck t b = none)
include hcheck

theorem State.dcorSign_misuse (hbad : ((u.core u.cg.core).huddle h).count = 0 ∨
    ((u.core u.cg.core).huddle h).owner ≠ some u.cg.lid) : s.dcorSign i d b h t = u.trap t 0x10 0 := by
  unfold State.descCheck at hcheck
  have hmisuse : (((u.core u.cg.core).huddle h).count = 0 || ((u.core u.cg.core).huddle h).owner ≠ some u.cg.lid) = true := by
    simpa using hbad
  simp only [State.dcorSign, (s.owes_eq_none_iff t).2 ⟨howed, hside⟩, hread, hcheck, if_pos hmisuse]

section
variable (howner : ((u.core u.cg.core).huddle h).owner = some u.cg.lid)
  (hopen : ((u.core u.cg.core).huddle h).signed < ((u.core u.cg.core).huddle h).count)
include howner hopen

theorem State.dcorSign_limit (hlimit : u.cg.ctl.limit ≤ ((u.core u.cg.core).huddle h).rounds) :
    s.dcorSign i d b h t = u.atLimit t d h := by
  unfold State.descCheck at hcheck
  simp only [State.dcorSign, (s.owes_eq_none_iff t).2 ⟨howed, hside⟩, hread, hcheck,
    if_neg (Huddle.signable_of_open howner hopen), if_neg (Nat.not_le.2 hopen), if_pos hlimit]

theorem State.dcorSign_signs (hrounds : ((u.core u.cg.core).huddle h).rounds < u.cg.ctl.limit) :
    s.dcorSign i d b h t = (u.updHuddle u.cg.core h fun z =>
      { z with signed := z.signed + 1, sigs := z.sigs ++ [u.dcorSig t d b v] }).park [t] (.huddle h) := by
  unfold State.descCheck at hcheck
  have hsign := State.sign_done (u.dcorSig t d b v) howner hopen
  simp only [State.dcorSign, (s.owes_eq_none_iff t).2 ⟨howed, hside⟩, hread, hcheck,
    if_neg (Huddle.signable_of_open howner hopen), if_neg (Nat.not_le.2 hopen), if_neg (Nat.not_le.2 hrounds), State.signThread,
    u32_eq_lo]
  unfold State.dcorSig at hsign
  simp only [hsign]
  rfl

end
end
end

theorem exec_dcorD {s : State} {g : Group} {d a b : Code} {h : BitVec 4} (hI : s.Issues (.dcorD d a b h) g)
    (hplain : popNames (.dcorD d a b h) = []) : exec (.dcorD d a b h) s =
      .next (s.signs h.toNat fun u t => u.dcorSign (.dcorD d a b h) d.toNat b.toNat h.toNat t) :=
  congrArg Host.Outcome.next (s.gate_noQueue _ g hI hplain _)

/-! ### The registers of a signer that goes on (R389) -/

/-- No thread's x registers have changed. -/
def SameX (s u : State) : Prop := ∀ gid t, (u.thr gid t).x = (s.thr gid t).x

theorem SameX.trans {s u v : State} (a : SameX s u) (b : SameX u v) : SameX s v := fun gid t => (b gid t).trans (a gid t)

theorem State.updGrp_sameX (s : State) (gid : Nat) {f : Group → Group} (hf : ∀ g t, ((f g).thr t).x = (g.thr t).x) :
    SameX s (s.updGrp gid f) := by
  intro k t
  by_cases hk : k = gid
  · subst hk
    cases hg : kfind s.groups k with
    | none => rw [State.updGrp, hg]
    | some g => rw [State.thr, s.updGrp_grp k f g hg, hf, State.thr, s.grp_of_kfind k g hg]
  · rw [State.thr, s.updGrp_grp_ne gid k f hk, State.thr]

theorem Group.updThr_x (g : Group) (t k : Nat) {f : Thread → Thread} (hf : ∀ y, (f y).x = y.x) :
    ((g.updThr t f).thr k).x = (g.thr k).x := by
  by_cases hk : k = t
  · subst hk
    by_cases hlt : k < g.threads.length
    · rw [Group.updThr_thr _ _ _ hlt, hf]
    · rw [Group.updThr, Group.setThr, Group.thr, Group.thr, List.set_eq_of_length_le (Nat.not_lt.1 hlt)]
  · rw [Group.updThr_thr_ne _ _ _ _ hk]

theorem Group.foldl_updThr_x {f : Thread → Thread} (hf : ∀ y, (f y).x = y.x) (k : Nat) (tids : List Nat) (g : Group) :
    ((tids.foldl (fun g t => g.updThr t f) g).thr k).x = (g.thr k).x := by
  induction tids generalizing g with
  | nil => rfl
  | cons t tids ih => exact (ih _).trans (g.updThr_x t k hf)

theorem Thread.advance_x (y : Thread) (c : Cur) : (y.advance c).x = y.x := by
  obtain ⟨pos, loop, hadvance⟩ := y.advance_eq c
  rw [hadvance]

theorem State.resume_sameX (s : State) (gid : Nat) (tids : List Nat) : SameX s (s.resume gid tids) := by
  unfold State.resume
  refine s.updGrp_sameX gid fun g k => ?_
  have hfold := Group.foldl_updThr_x (f := fun y => { y.advance (s.curAt gid y.pos [] []) with stays := false, popped := [] })
    (fun y => y.advance_x _) k tids g
  dsimp only
  split
  · exact hfold
  · exact hfold

theorem State.release_sameX (s : State) (x : Sig) (h : Nat) (owed : Option (Nat × Nat)) : SameX s (s.release x h owed) := by
  have hleft : SameX s ((s.closeIv (s.agent x.gid x.tix) 3).leaveRound x h) :=
    State.updGrp_sameX (s.closeIv (s.agent x.gid x.tix) 3) x.gid fun _ _ => rfl
  cases hwaits : s.waitsAt x h with
  | false =>
    rw [State.release_stays hwaits]
    exact fun _ _ => rfl
  | true => cases owed with
    | none =>
      rw [State.release_resumes hwaits]
      exact hleft.trans (State.resume_sameX _ _ _)
    | some c =>
      rw [State.release_owes hwaits]
      exact hleft.trans (State.updGrp_sameX _ _ fun g k => g.updThr_x _ _ fun _ => rfl)

theorem State.releaseReady_sameX (s : State) (x : Sig) (h : Nat) : SameX s (s.releaseReady x h) := by
  have hdropped : SameX s (s.dropSideRef (s.who x.gid x.tix)) := fun _ _ => rfl
  unfold State.releaseReady
  split
  · split
    · exact hdropped.trans (State.release_sameX _ _ _ _)
    · exact s.release_sameX _ _ _
  · exact s.release_sameX _ _ _

/-! ### The registers that a round writes (R389) -/

/-- A thread whose register `c` was written. -/
def Thread.takeX (c : Nat) (r : Reg) (y : Thread) : Thread := { y with x := y.x.set c r, dead := y.dead.filter (· ≠ c) }

theorem Group.writeReg_thr_x (g : Group) {t c : Nat} (r : Reg) (hc : c < 80) (ht : t < g.threads.length) :
    ((g.writeReg t c r).thr t).x = (g.thr t).x.set c r ∧ (g.writeReg t c r).threads.length = g.threads.length := by
  obtain ⟨ps, -, hwrite⟩ := g.writeReg_x t c r hc
  rw [hwrite]
  exact ⟨congrArg Thread.x (Group.updThr_thr g t (Thread.takeX c r) ht), Group.updThr_length g t (Thread.takeX c r)⟩

/-- A signer's register pair takes `v` with the P `p`. -/
def Group.takeResid (x : Sig) (v : DWord) (p : Bool) (g : Group) : Group :=
  (g.writeReg x.tix (x.vals.getD 0 0) ⟨v.lo, p⟩).writeReg x.tix (x.vals.getD 0 0 + 1) ⟨v.hi, p⟩

theorem Group.takeResid_x (g : Group) {x : Sig} (v : DWord) (p : Bool) (ht : x.tix < g.threads.length)
    (hd : x.vals.getD 0 0 + 1 < 80) : ((g.takeResid x v p).thr x.tix).x =
      ((g.thr x.tix).x.set (x.vals.getD 0 0) ⟨v.lo, p⟩).set (x.vals.getD 0 0 + 1) ⟨v.hi, p⟩ := by
  obtain ⟨hlow, hlength⟩ := g.writeReg_thr_x ⟨v.lo, p⟩ (Nat.lt_of_succ_lt hd) ht
  rw [Group.takeResid, (Group.writeReg_thr_x _ _ hd (hlength.symm ▸ ht)).1, hlow]

/-- A pair of registers that is written low and high holds both. -/
theorem pair_getD {rs : List Reg} {d : Nat} (lo hi : Reg) (hd : d + 1 < rs.length) :
    ((rs.set d lo).set (d + 1) hi).getD d Reg.zero = lo ∧ ((rs.set d lo).set (d + 1) hi).getD (d + 1) Reg.zero = hi := by
  have hlow : d < rs.length := Nat.lt_of_succ_lt hd
  simp [List.getD_eq_getElem?_getD, hd, hlow]

/-- The word of a residual. -/
def DRes.word (r : DRes) : DWord := BitVec.ofNat 64 r.res

section
variable {s : State} (ctx h : Nat) (pass : Bool) {x : Sig} (r : DRes)
  (hgrp : s.hasGrp x.gid = true) (huid : (s.grp x.gid).uid = x.uid)
include hgrp huid

theorem State.dcorEnd_ok : s.dcorEnd ctx h pass (x, .ok r) =
    ((s.closeSigner x).updGrp x.gid (Group.takeResid x r.word (r.p && !pass))).releaseReady x h :=
  if_neg (by simp [hgrp, huid])

theorem State.dcorEnd_x (ht : x.tix < (s.grp x.gid).threads.length) (hd : x.vals.getD 0 0 + 1 < 80) :
    ((s.dcorEnd ctx h pass (x, .ok r)).thr x.gid x.tix).x =
      ((s.thr x.gid x.tix).x.set (x.vals.getD 0 0) ⟨r.word.lo, r.p && !pass⟩).set
        (x.vals.getD 0 0 + 1) ⟨r.word.hi, r.p && !pass⟩ := by
  obtain ⟨g, hg⟩ := Option.isSome_iff_exists.1 hgrp
  obtain rfl : s.grp x.gid = g := s.grp_of_kfind _ _ hg
  have hclosed : kfind (s.closeSigner x).groups x.gid = _ := s.updGrp_kfind x.gid _ _ hg
  have hlength := Group.updThr_length (s.grp x.gid) x.tix fun y => { y with region := { y.region with isOpen := false } }
  rw [State.dcorEnd_ok ctx h pass r hgrp huid, State.releaseReady_sameX, State.thr, State.updGrp_grp _ _ _ _ hclosed,
    Group.takeResid_x _ _ _ (hlength.symm ▸ ht) hd, Group.updThr_thr _ _ _ ht]
  rfl

end

/-! ### A full round (R389, R390, R394) -/

section
variable {s u : State} {core h : Nat} {a z : Sig} {rs : List (Sig × Except DFail DRes)}

/-- The agent of a round whose last signer is `z`. -/
def State.dcorWho (s : State) (core h : Nat) (z : Sig) : Who :=
  ⟨⟨.G, core, z.gid, z.uid⟩, core, ((s.core core).huddle h).owner.getD 0, (s.grp z.gid).ctx⟩

theorem exec_dcorRound (ha : ((s.core core).huddle h).sigs.head? = some a)
    (hz : ((s.core core).huddle h).sigs.getLast? = some z) (harmed : 0 < ((s.core core).huddle h).count)
    (hfull : ((s.core core).huddle h).signed = ((s.core core).huddle h).count) (hkind : a.kind = 3)
    (hagree : ∀ x ∈ ((s.core core).huddle h).sigs, x.kind = 3 ∧ x.vals.getD 5 0 = a.vals.getD 5 0 ∧
      x.vals.getD 4 0 = a.vals.getD 4 0 ∧ s.undrained (s.agent x.gid x.tix) = false)
    (hheld : s.fencexHolds core .G z.id = false)
    (hres : s.roundRes (s.dcorWho core h z) ((s.core core).huddle h).sigs = (u, some rs)) :
    exec (.dcorRound core h) s = .next (u.dcorDone (s.dcorWho core h z) core h ((s.core core).huddle h).sigs rs).tick := by
  have hdrained : (((s.core core).huddle h).sigs.any fun x =>
      s.undrained (s.agent x.gid x.tix) && (s.grp x.gid).uid = x.uid) = false := by
    refine List.any_eq_false.2 fun x hx => ?_
    obtain ⟨-, -, -, hdrained⟩ := hagree x hx
    simp [hdrained]
  have hsame : (((s.core core).huddle h).sigs.all fun x =>
      x.kind = 3 && x.vals.getD 5 0 = a.vals.getD 5 0 && x.vals.getD 4 0 = a.vals.getD 4 0) = true := by
    refine List.all_eq_true.2 fun x hx => ?_
    obtain ⟨hkind, hx, hn, -⟩ := hagree x hx
    simp only [hkind, hx, hn, decide_true, Bool.and_self]
  have hruns : ¬ (decide (((s.core core).huddle h).count = 0) ||
      decide (((s.core core).huddle h).signed ≠ ((s.core core).huddle h).count) || decide (a.kind ≠ 3) || false || false) =
      true := by
    simp [hfull, hkind, Nat.ne_of_gt harmed]
  change execDcorRound core h s = _
  unfold State.dcorWho at hres ⊢
  simp only [execDcorRound, ha, hz, hdrained, hheld, if_neg hruns, hsame, hres, Bool.not_true, Bool.false_eq_true, if_false]

end

/-- What a round does once its residuals are there: x is settled where all pass, the huddle is over, and its signers end. -/
theorem State.dcorDone_eq {gs : List Sig} {a : Sig} (ha : gs.head? = some a) (s : State) (w : Who) (core h : Nat)
    (rs : List (Sig × Except DFail DRes)) : s.dcorDone w core h gs rs =
      let pass := rs.all fun e => match e.2 with
        | .ok r => r.pass
        | .error _ => false
      let u := if pass then s.clearX w (a.vals.getD 5 0) (a.vals.getD 4 0) else s
      rs.foldl (fun v e => v.dcorEnd w.ctx h pass e) ((u.roundEnd w gs).updHuddle core h fun x =>
        if pass then x.next 1 else { x.next 3 with rounds := min (x.rounds + 1) 255 }) := by
  obtain ⟨xs, rfl⟩ := List.head?_eq_some_iff.1 ha
  rfl

/-! ### Whether a row passes (R389) -/

theorem dcorPass_iff (res m b tol : Nat) : dcorPass res m b tol = true ↔
    (fvNan (fp64.value (abs64 res)) = false ∧ fvNan (fp64.value (mul64 tol (add64 m (abs64 b)))) = false
      ∧ fvLt (fp64.value (mul64 tol (add64 m (abs64 b)))) (fp64.value (abs64 res)) = false) := by
  simp only [dcorPass, Bool.and_eq_true, Bool.not_eq_true', and_assoc]

/-! ### The statement -/

/-- Settles O38: a thread's turn checks its descriptor and then its huddle, a round that agrees ends as its rows pass, and a signer
that goes on keeps the pair that the round wrote. -/
theorem defectCorrection : Obligations.DefectCorrection := by
  refine ⟨fun s g d a b h hI hplain => ⟨fun hfull => ?behind, fun hopen =>
      ⟨_, (exec_dcorD hI hplain).trans (congrArg _ (State.signs_turns _ hopen)), fun s1 s2 t v howed hside hread => ?signing⟩⟩,
    fun s s2 core h a z rs ha hz harmed hfull hkind hagree hheld hres => ?round,
    fun s ctx h pass x r hgrp huid hsize ht hx hd => ?result, fun _ _ _ _ _ => rfl, dcorPass_iff⟩
  case behind => exact (exec_dcorD hI hplain).trans (congrArg _ (State.signs_full _ hfull))
  case signing =>
    refine ⟨fun hn => ?_, fun hn hrow => ?_, fun hn hrow hst => ?_, fun hn hrow hst hx => ?_, fun hn hrow hst hx hy => ?_,
      fun hn hrow hst hx hy => ?huddle⟩
    · exact State.dcorSign_faults howed hside hread (dcorChk_long hn)
    · exact State.dcorSign_faults howed hside hread (dcorChk_row hn hrow)
    · exact State.dcorSign_faults howed hside hread (dcorChk_stride hn hrow hst)
    · exact State.dcorSign_faults howed hside hread (dcorChk_x hn hrow hst hx)
    · exact State.dcorSign_faults howed hside hread (dcorChk_b hn hrow hst hx hy)
    case huddle =>
      have hcheck : s2.descCheck t b.toNat = none := dcorChk_passes hn hrow hst hx hy
      refine ⟨State.dcorSign_misuse howed hside hread hcheck,
        fun howner hopen hlimit => ⟨fun hdivst => ?_, fun hdivst => ?_⟩,
        fun howner hopen hrounds => ?_⟩
      · rw [State.dcorSign_limit howed hside hread hcheck howner hopen hlimit]
        exact if_pos (by rw [hdivst]; rfl)
      · rw [State.dcorSign_limit howed hside hread hcheck howner hopen hlimit]
        exact if_neg (by rw [hdivst]; decide)
      · exact State.dcorSign_signs howed hside hread hcheck howner hopen hrounds
  case round =>
    intro pass s3 s4
    rw [exec_dcorRound ha hz harmed hfull hkind hagree hheld hres, State.dcorDone_eq ha]
    rfl
  case result =>
    intro y v
    have hlength : x.vals.getD 0 0 + 1 < (s.thr x.gid x.tix).x.length := hx ▸ hd
    have hregs := s.dcorEnd_x ctx h pass r hgrp huid (hsize ▸ ht) hd
    rw [show y.x = _ from hregs]
    exact pair_getD ⟨r.word.lo, r.p && !pass⟩ ⟨r.word.hi, r.p && !pass⟩ hlength

end Sys2Proof.Machine
end

section
/-! SUPPORT. Per-thread copies (R332, R334, R355): the turn of a thread at a `CPY`, the wait of `CPYW`, and a transfer that
completes. -/

namespace Sys2Proof.Machine
open Sys2Proof

/-! ### One thread at a `CPY` (R332) -/

section
variable {s u : State} {i : Instr} {toA : Bool} {n t : Nat} {tt : List Nat} {v : Vals}
  (hread : s.readOps s.cur.gid t (operands i) Vals.zero = (u, .ok v))
include hread

theorem State.cpyTurn_long (hlen : 32 < v.b.lo.toNat) : s.cpyTurn i toA n (t, tt) = u.trapAll tt 0x01 0 := by
  simp only [State.cpyTurn, hread, u32_eq_lo, if_pos hlen]

section
variable (hlen : v.b.lo.toNat ≤ 32)
include hlen

theorem State.cpyTurn_misaligned (hva : v.a.toNat % 32 ≠ 0) : s.cpyTurn i toA n (t, tt) = u.trapAll tt 0x08 v.a.toNat := by
  simp only [State.cpyTurn, hread, u32_eq_lo, if_neg (Nat.not_lt.2 hlen), if_pos hva]

section
variable (hva : v.a.toNat % 32 = 0)
include hva

theorem State.cpyTurn_misplaced (hoff : v.d.lo.toNat % 32 ≠ 0) :
    s.cpyTurn i toA n (t, tt) = u.trapAll tt 0x08 v.d.lo.toNat := by
  simp only [State.cpyTurn, hread, u32_eq_lo, if_neg (Nat.not_lt.2 hlen), if_neg (not_not_intro hva), if_pos hoff]

/-- R355: the transfer takes the next number of its tag. -/
theorem State.cpyTurn_issues (hoff : v.d.lo.toNat % 32 = 0) :
    let seq := ((u.cg.tag n).issued + 1) % 2 ^ 32
    s.cpyTurn i toA n (t, tt) =
      (({ u.updGrp u.cur.gid (fun y => { y with tags := y.tags.set n { y.tag n with issued := seq } })
        with nextId := u.nextId + 1 }).updCore u.cg.core fun c => { c with xfers := c.xfers ++
          [(⟨u.nextId, u.cur.gid, u.cg.uid, t, u.cg.lid, u.cg.ctx, n, seq, toA, v.a.toNat, v.d.lo.toNat, v.b.lo.toNat,
            v.p || u.ambient tt, u.cg.ctl.pstop, tt, false, u.now, 0, none⟩ : Xfer)] }).closeRegions tt := by
  simp only [State.cpyTurn, hread, u32_eq_lo, if_neg (Nat.not_lt.2 hlen), if_neg (not_not_intro hva),
    if_neg (not_not_intro hoff), State.updGrp_nextId, State.readOps_cur _ _ _ _ _ _ _ hread]

end
end
end

section
variable {s : State} {g : Group} {i : Instr} (toA : Bool) (n : Nat) (hI : s.Issues i g) (hplain : popNames i = [])
include hI hplain

/-- R333: the engine has no room for the transfers of the sweep. -/
theorem State.cpy_full (hfull : 1024 < (s.core g.core).xfers.length + (s.turns i).length) :
    s.cpy i toA n = (s.stayAll s.cur.path).finish := by
  refine (s.gate_noQueue _ g hI hplain _).trans (if_pos ?_)
  rwa [s.cg_eq g hI.group]

theorem State.cpy_turns (hroom : (s.core g.core).xfers.length + (s.turns i).length ≤ 1024) :
    s.cpy i toA n = ((s.turns i).foldl (fun u x => u.cpyTurn i toA n x) s).finish := by
  refine (s.gate_noQueue _ g hI hplain _).trans (if_neg ?_)
  rw [s.cg_eq g hI.group]
  exact Nat.not_lt.2 hroom

end

/-! ### `CPYW` (R334, R355) -/

/-- A number that comes no later than another, modulo 2^32. -/
theorem seqAfter_eq_false {x y : Nat} (h : x = y ∨ 2 ^ 31 ≤ (x + 2 ^ 32 - y) % 2 ^ 32) : seqAfter x y = false := by
  rw [seqAfter, Bool.and_eq_false_iff, decide_eq_false_iff_not, decide_eq_false_iff_not]
  exact h.imp not_not_intro Nat.not_lt.2

/-- The group after a `CPYW`, whose threads take the record of the tag away. -/
def Group.clearTag (g : Group) (n : Nat) : Group :=
  { g with
    tags := g.tags.set n { g.tag n with err := 0, addr := 0, errs := 0 }
    deferred := g.deferred.filter fun d => d.tag ≠ some n
    parks := [] }

section
variable {s : State} {g : Group} {t : BitVec 3} (hI : s.Issues (.cpyw t) g) (hparks : g.parks = [])
include hI hparks

theorem exec_cpyw_waits (hdone : s.cpywDone s.cur.gid t.toNat (g.tag t.toNat).issued = false) :
    exec (.cpyw t) s = .next (s.park s.cur.mask (.cpyw t.toNat (g.tag t.toNat).issued)).finish := by
  refine (congrArg Host.Outcome.next (s.gate_noQueue _ g hI rfl _)).trans ?_
  have hmask : s.cur.mask.isEmpty = false := List.isEmpty_eq_false_iff.2 hI.act
  simp [s.cg_eq g hI.group, hparks, hdone, hmask]

theorem exec_cpyw_goes (hdone : s.cpywDone s.cur.gid t.toNat (g.tag t.toNat).issued = true) :
    exec (.cpyw t) s =
      let u := s.updGrp s.cur.gid (Group.clearTag · t.toNat)
      .next (if (g.tag t.toNat).err = 0 then u
        else u.trapAll s.cur.mask (cpywTrap (g.tag t.toNat).err) (g.tag t.toNat).addr).finish := by
  refine (congrArg Host.Outcome.next (s.gate_noQueue _ g hI rfl _)).trans ?_
  have hmask : s.cur.mask.isEmpty = false := List.isEmpty_eq_false_iff.2 hI.act
  simp [s.cg_eq g hI.group, hparks, hdone, hmask, State.updGrp_eq _ _ _ g hI.group, Group.clearTag]

end

/-! ### A transfer completes (R332) -/

section
variable {s : State} {core idx : Nat} {x : Xfer}

theorem exec_transfer (hx : (s.core core).xfers[idx]? = some x) (hheld : s.engHeld core x.ctx .C x.id = false)
    (hbehind : s.xferBehind core x = false) : exec (.copyTransferCompletion core idx) s = .next (s.xferRun core x).tick := by
  have hruns : ¬ (s.cmdHeld core x.ctx .C x.id || s.xferBehind core x) = true := by simp [State.cmdHeld, hheld, hbehind]
  change execCopyTransferCompletion core idx s = _
  simp only [execCopyTransferCompletion, hx, if_neg hruns]

theorem State.xferRead_fetches {u : State} {bs : List Byte} {p : Bool} (hgot : x.got = none) (hlen : 0 < x.len)
    (hsrc : x.src.2 + x.len ≤ spcSize x.src.1)
    (hfetch : s.engFetch (x.who core) 3 x.src.1 x.src.2 x.len = (u, .ok bs p)) :
    s.xferRead core x = (u, .ok (bs, p, false)) := by
  simp only [State.xferRead, hgot, if_neg (Nat.pos_iff_ne_zero.1 hlen), if_neg (Nat.not_lt.2 hsrc), hfetch]

theorem State.xferRun_writes {u : State} {bs : List Byte} {p poison : Bool} (hlogged : x.logged = false)
    (hdst : x.dst.2 + 32 ≤ spcSize x.dst.1) (hread : s.xferRead core x = (u, .ok (bs, p, poison))) : s.xferRun core x =
      (u.updXfer core x.id fun y => { y with got := some (bs, p, poison) }).xferWrite core x bs (x.p || p) poison := by
  simp only [State.xferRun, hlogged, Bool.false_eq_true, if_false, if_neg (Nat.not_lt.2 hdst), hread]

/-- The sector of a transfer whose source is clean is there: nothing more is to come. -/
theorem State.xferWrite_ends {u : State} {bs e : List Byte} {p q : Bool}
    (hwrite : s.engWrite1 (x.who core) x.uid
      ⟨x.dst.1, x.dst.2, (bs ++ List.replicate 32 0#8).take 32, p, false, false⟩ x.pstop = (u, .ok e q)) (hwaits : u.sideWaits (x.who core) = false) :
    s.xferWrite core x bs p false = u.xferEnd core x 0 x.src.2 := by
  simp only [State.xferWrite, hwrite, hwaits, Bool.false_eq_true, if_false]

end

/-! ### The statement -/

/-- Settles O39: a turn's checks stand in the order of the clauses, `CPYW` asks all transfers of its tag at once, and a transfer
reads, writes and ends. -/
theorem copies : Obligations.Copies := by
  refine ⟨fun s g i toA n hI hplain hform => ?issue, fun s g t hI hparks => ?wait,
    fun s s2 s3 core idx x bs e p q hx hheld hbehind hlogged hgot hlen hsrc hdst hfetch hwrite hwaits => ?done⟩
  case issue =>
    have hexec : exec i s = .next (s.cpy i toA n) := by
      rcases hform with ⟨d, a, b, t, rfl, rfl, rfl⟩ | ⟨d, a, b, t, rfl, rfl, rfl⟩
      · rfl
      · rfl
    refine ⟨fun hfull => hexec.trans (congrArg _ (State.cpy_full toA n hI hplain hfull)), fun hroom =>
      ⟨_, hexec.trans (congrArg _ (State.cpy_turns toA n hI hplain hroom)), fun s1 s2 t tt v hread => ?_⟩⟩
    exact ⟨State.cpyTurn_long hread, State.cpyTurn_misaligned hread, State.cpyTurn_misplaced hread,
      State.cpyTurn_issues hread⟩
  case wait =>
    intro n tag u
    have hclear : s.updGrp s.cur.gid (Group.clearTag · n) = u := by
      simp only [u, State.updGrp_eq _ _ _ g hI.group]
      rfl
    refine ⟨fun hnone herr => ?clear, fun hnone herr => ?error, fun ⟨x, hx, hseq⟩ => exec_cpyw_waits hI hparks ?_⟩
    case clear =>
      rw [exec_cpyw_goes hI hparks (by rw [State.cpywDone, hnone]; rfl), hclear]
      exact congrArg (fun v : State => Host.Outcome.next v.finish) (if_pos herr)
    case error =>
      rw [exec_cpyw_goes hI hparks (by rw [State.cpywDone, hnone]; rfl), hclear]
      exact congrArg (fun v : State => Host.Outcome.next v.finish) (if_neg herr)
    exact List.all_eq_false.2 ⟨x, hx, Bool.not_eq_true _ ▸ seqAfter_eq_false hseq⟩
  case done =>
    have hread : s.xferRead core x = (s2, .ok (bs, p, false)) := State.xferRead_fetches hgot hlen hsrc hfetch
    rw [exec_transfer hx hheld hbehind, State.xferRun_writes hlogged hdst hread, State.xferWrite_ends hwrite hwaits]
    rfl

end Sys2Proof.Machine
end

section
/-! SUPPORT. The issue of an engine command (R328, R329): its checks, its destination, and the row of each instruction. -/

namespace Sys2Proof.Machine
open Sys2Proof

/-! ### The checks of a command (R329, R346) -/

/-- What the first value that its alignment does not divide gives. -/
def misaligned (es : List (Nat × Nat)) : Option (Nat × Nat) := (es.find? fun e => e.1 % e.2 ≠ 0).map fun e => (0x08, e.1)

theorem misaligned_cons (a n : Nat) (es : List (Nat × Nat)) :
    misaligned ((a, n) :: es) = (alignChk n a).orElse fun _ => misaligned es := by
  by_cases h : a % n = 0 <;> simp [misaligned, alignChk, h]

theorem misaligned_one (a n : Nat) : misaligned [(a, n)] = alignChk n a := by
  rw [misaligned_cons]
  cases alignChk n a <;> rfl

theorem misaligned_two (a n b m : Nat) : misaligned [(a, n), (b, m)] = (alignChk n a).orElse fun _ => alignChk m b := by
  rw [misaligned_cons, misaligned_one]

theorem misaligned_eq_none {es : List (Nat × Nat)} (h : ∀ e ∈ es, e.1 % e.2 = 0) : misaligned es = none := by
  rw [misaligned, List.find?_eq_none.2 fun e he => by simp [h e he]]
  rfl

/-- What the checks of a command of this row give, with the landing entries as they stand in `s`. -/
def CmdRow.check (r : CmdRow) (s : State) : Option (Nat × Nat) :=
  match r.kind with
  | .subf n => if ((s.core s.cg.core).land? n).map LandEnt.st = some .lapsed then some (0x0B, 0) else misaligned r.algn
  | _ => misaligned r.algn

theorem CmdRow.check_lapsed {r : CmdRow} {s : State} {n : Nat} (hkind : r.kind = .subf n)
    (h : ((s.core s.cg.core).land? n).map LandEnt.st = some .lapsed) : r.check s = some (0x0B, 0) := by
  rw [CmdRow.check, hkind]
  exact if_pos h

theorem CmdRow.check_misaligned {r : CmdRow} {s : State} {a m : Nat} (hkind : ∀ n, r.kind ≠ .subf n)
    (h : (r.algn.find? fun e => e.1 % e.2 ≠ 0) = some (a, m)) : r.check s = some (0x08, a) := by
  unfold CmdRow.check
  split
  next n hsubf => exact absurd hsubf (hkind n)
  next => rw [misaligned, h]; rfl

theorem CmdRow.check_aligned {r : CmdRow} {s : State} (halign : ∀ e ∈ r.algn, e.1 % e.2 = 0)
    (h : ∀ n, r.kind = .subf n → ((s.core s.cg.core).land? n).map LandEnt.st ≠ some .lapsed) : r.check s = none := by
  unfold CmdRow.check
  split
  next n hkind => rw [if_neg (h n hkind), misaligned_eq_none halign]
  next => exact misaligned_eq_none halign

/-- A `SUBF` has no address. -/
theorem algn_of_subf {v : Vals} {i : Instr} {r : CmdRow} (hr : cmdRow v i = some r) {n : Nat} (hkind : r.kind = .subf n) :
    r.algn = [] := by
  cases i with
  | subf d n => cases hr; rfl
  | bcpy | coll | subs | subsSync | subx | subfSrc => cases hr; cases hkind
  | _ => cases hr

/-! ### The turn of a thread at a command (R329) -/

section
variable {s u : State} {i : Instr} {res : Bool} {chk : Vals → Option (Nat × Nat)}
  {mk : State → Nat → Vals → Option CmdDst → Cmd} {t : Nat} {tt : List Nat} {v : Vals} (hread : s.readOps s.cur.gid t (operands i) Vals.zero = (u, .ok v))
include hread

theorem State.cmdTurn_traps {c a : Nat} (hchk : chk v = some (c, a)) :
    s.cmdTurn i res chk mk (t, tt) = u.trapAll tt c a := by
  simp only [State.cmdTurn, hread, hchk]

section
variable (hchk : chk v = none)
include hchk

theorem State.cmdTurn_noResult (hdst : ((operands i).find? fun o => res && o.fld = .D) = none) :
    s.cmdTurn i res chk mk (t, tt) = u.joined tt (mk u t { v with p := v.p || u.ambient tt } none) := by
  simp only [State.cmdTurn, hread, hchk, hdst]
  rfl

/-- A destination that is no window is ready. -/
theorem State.cmdTurn_result {o : Operand} (hdst : ((operands i).find? fun o => res && o.fld = .D) = some o)
    (hplain : o.code.toNat < 112 ∨ 120 ≤ o.code.toNat) :
    s.cmdTurn i res chk mk (t, tt) = u.joined tt (mk u t { v with p := v.p || u.ambient tt }
      (if o.code.toNat < 112 then some ⟨o.code.toNat, none, false⟩ else none)) := by
  simp only [State.cmdTurn, hread, hchk, hdst, u.dstOp_plain _ _ _ hplain]
  split <;> rfl

end
end

/-! ### The row of each instruction (R328, R336, R339, R343, R347, R348) -/

/-- The instruction is the command of its row: with its checks, its destination, and the command that it makes. -/
structure State.IsCommand (s : State) (i : Instr) (res : Bool) (chk : Vals → Option (Nat × Nat))
    (mk : State → Nat → Vals → Option CmdDst → Cmd) : Prop where
  exec : exec i s = .next (s.command i res chk mk)
  check : ∀ v r, cmdRow v i = some r → chk v = r.check s
  dst : ∀ v r, cmdRow v i = some r → ((operands i).find? fun o => res && o.fld = .D) = r.dst.map (Operand.mk .D .dst)
  make : ∀ v r u t d p, cmdRow v i = some r → (r.dst = none → d = none) → mk u t { v with p := p } d = u.cmdOf t r d p

/-- Every instruction with a row is the command of it. -/
theorem State.exists_isCommand (s : State) {i : Instr} (hrow : (cmdRow Vals.zero i).isSome = true) :
    ∃ res chk mk, s.IsCommand i res chk mk := by
  cases i with
  | bcpy =>
    refine ⟨_, _, _, rfl, fun v r h => ?_, fun v r h => ?_, fun v r u t d p h hd => ?_⟩ <;> cases h
    · exact (congrArg (fun x => (alignChk 64 x).orElse _) (u32_eq_lo _)).trans (misaligned_two _ _ _ _).symm
    · rfl
    · rw [hd rfl, u32_eq_lo]; rfl
  | coll =>
    refine ⟨_, _, _, rfl, fun v r h => ?_, fun v r h => ?_, fun v r u t d p h hd => ?_⟩ <;> cases h
    · rw [u32_eq_lo]; exact (misaligned_one _ _).symm
    · rfl
    · rw [u32_eq_lo]; rfl
  | subs | subsSync | subx =>
    refine ⟨_, _, _, rfl, fun v r h => ?_, fun v r h => ?_, fun v r u t d p h hd => ?_⟩ <;> cases h
    · rw [u32_eq_lo]; exact (misaligned_one _ _).symm
    · rfl
    · rw [hd rfl, u32_eq_lo]; rfl
  | subf | subfSrc =>
    refine ⟨_, _, _, rfl, fun v r h => ?_, fun v r h => ?_, fun v r u t d p h hd => ?_⟩ <;> cases h <;> rfl
  | _ => cases hrow

/-! ### The statement -/

/-- Settles O40: each instruction is the command of its row, whose turns trap at a check or issue it. -/
theorem engineCommands : Obligations.EngineCommands := by
  intro s g i hI hplain hrow
  obtain ⟨res, chk, mk, hexec, hcheck, hdst, hmake⟩ := s.exists_isCommand hrow
  refine ⟨fun u x => u.cmdTurn i res chk mk x, hexec.trans (congrArg _ (s.gate_noQueue _ g hI hplain _)),
    fun s1 s2 t tt v r hread hr => ⟨fun a m hbad => ?align, fun n hkind hlapsed => ?lapsed, fun halign hentry => ?issues⟩⟩
  case align =>
    refine State.cmdTurn_traps hread ((hcheck v r hr).trans (CmdRow.check_misaligned (fun n hkind => ?_) hbad))
    rw [algn_of_subf hr hkind] at hbad
    cases hbad
  case lapsed =>
    exact State.cmdTurn_traps hread ((hcheck v r hr).trans (CmdRow.check_lapsed hkind (by rwa [s.cg_eq g hI.group])))
  case issues =>
    have hchk : chk v = none := (hcheck v r hr).trans (CmdRow.check_aligned halign (by rwa [s.cg_eq g hI.group]))
    have hfind := hdst v r hr
    refine ⟨fun d hd hreg => ?register, fun hnone => hnone.elim (fun hd => ?noResult) fun hd => ?discards⟩
    all_goals rw [hd] at hfind
    case register =>
      refine (State.cmdTurn_result hread hchk hfind (.inl hreg)).trans ?_
      rw [if_pos hreg, hmake v r _ _ _ _ hr (by simp [hd])]
    case noResult =>
      refine (State.cmdTurn_noResult hread hchk hfind).trans ?_
      rw [hmake v r _ _ _ _ hr fun _ => rfl]
    case discards =>
      refine (State.cmdTurn_result hread hchk hfind (.inr (by decide))).trans ?_
      rw [if_neg (by decide), hmake v r _ _ _ _ hr fun _ => rfl]

end Sys2Proof.Machine
end

section
/-! SUPPORT. Active messages and the pitcher slot (R139 to R141, R349, R350, R352, R354): the turns of `AMSG` and `PITCH`, the entry
of `QPUSH`, the bindings that `QDRN` ends, and a program's start and end. -/

namespace Sys2Proof.Machine
open Sys2Proof

/-! ### One thread at an `AMSG` (R349) -/

/-- The payload words of a code: none, or a power of two. -/
def payloadWords : Nat → Nat
  | 0 => 0
  | n => 2 ^ (n - 1)

theorem payloadWords_eq {k : BitVec 3} (hk : k.toNat ≤ 5) : payloadWords k.toNat = amsgWords k := by
  revert k
  decide

/-- An entry or a destination word that an active message does not have. -/
def BadMessage (entry w : Nat) : Prop := entry = 0 ∨ entry % 4 ≠ 0 ∨ w / 2 ^ 16 % 2 ^ 15 ≠ 0

theorem badMessage_iff {entry w : Nat} :
    (entry = 0 || entry % 4 ≠ 0 || w / 2 ^ 16 % 2 ^ 15 ≠ 0) = true ↔ BadMessage entry w := by
  simp [BadMessage, or_assoc]

/-- A destination that is no window is ready. -/
theorem State.dstOp_reg (s : State) (gid t : Nat) {d : Code} (hd : d.toNat < 112) :
    s.dstOp gid t ⟨.D, .dst, d⟩ = (s, .ok (.reg d.toNat false)) := by
  rw [State.dstOp_plain _ _ _ _ (.inl hd), if_pos hd]
  rfl

/-- A thread of a group at an `AMSG` whose release is ready: the message leaves with a destination that is ready. -/
def State.amsgSends (gid : Nat) (d : Code) (v : Vals) (rs : List Reg) (t : Nat) (tt : List Nat) (s : State) : State :=
  match (s.closeIv (s.agent gid t) 7).dstOp gid t ⟨.D, .dst, d⟩ with
  | (_, .error r) => (s.dstOp gid t ⟨.D, .dst, d⟩).1.failRd tt r
  | (s, .ok d) => s.issueCmd tt (s.cmd0 t .K (.amsg ⟨s.cg.ctx, v.a.toNat, rs, v.b.lo.toNat / 2 ^ 31 = 1⟩
      (v.b.lo.toNat % 2 ^ 16)) none d.toCmd (v.p || s.ambient tt))

theorem State.amsgSends_reg (s : State) (gid : Nat) {d : Code} (v : Vals) (rs : List Reg) (t : Nat) (tt : List Nat)
    (hd : d.toNat < 112) : s.amsgSends gid d v rs t tt =
      (s.closeIv (s.agent gid t) 7).joined tt ((s.closeIv (s.agent gid t) 7).cmdOf t
        ⟨[], .K, .amsg ⟨(s.closeIv (s.agent gid t) 7).cg.ctx, v.a.toNat, rs, v.b.lo.toNat / 2 ^ 31 = 1⟩
          (v.b.lo.toNat % 2 ^ 16), none, some d⟩
        (some ⟨d.toNat, none, false⟩) (v.p || (s.closeIv (s.agent gid t) 7).ambient tt)) := by
  simp only [State.amsgSends, State.dstOp_reg _ _ _ hd]
  rfl

section
variable {s u : State} {d a b c : Code} {k : BitVec 3} {n t : Nat} {tt : List Nat} {v : Vals} {rs : List Reg}
  (hread : s.readOps s.cur.gid t (operands (.amsg d a b k c)) Vals.zero = (u, .ok v))
  (hload : u.payload t c.toNat n = some rs)
include hread hload

theorem State.amsgTurn_refused (hbad : BadMessage v.a.toNat v.b.lo.toNat) :
    s.amsgTurn (.amsg d a b k c) n c.toNat (t, tt) = u.trapAll tt 0x01 0 := by
  simp only [State.amsgTurn, hread, hload, u32_eq_lo, if_pos (badMessage_iff.2 hbad)]

/-- The message leaves once the release of its thread is ready. -/
theorem State.amsgTurn_sends (hgood : ¬ BadMessage v.a.toNat v.b.lo.toNat) (hd : d.toNat < 112)
    (hready : u.syncReady (u.who u.cur.gid t) = .go) :
    let w := u.closeIv (u.agent u.cur.gid t) 7
    s.amsgTurn (.amsg d a b k c) n c.toNat (t, tt) = w.joined tt (w.cmdOf t
      ⟨[], .K, .amsg ⟨w.cg.ctx, v.a.toNat, rs, v.b.lo.toNat / 2 ^ 31 = 1⟩ (v.b.lo.toNat % 2 ^ 16), none, some d⟩
      (some ⟨d.toNat, none, false⟩) (v.p || w.ambient tt)) := by
  have hfind : ((operands (.amsg d a b k c)).find? fun o => o.fld = .D) = some ⟨.D, .dst, d⟩ := rfl
  have hturn : s.amsgTurn (.amsg d a b k c) n c.toNat (t, tt) =
      u.whenReady t tt (State.amsgSends s.cur.gid d v rs t tt) := by
    simp only [State.amsgTurn, hread, hload, u32_eq_lo, if_neg (mt badMessage_iff.1 hgood), hfind]
    rfl
  rw [hturn, State.whenReady_go hready, State.amsgSends_reg _ _ _ _ _ _ hd, State.readOps_gid hread]

end

/-! ### One thread at a `PITCH` (R350) -/

/-- The program that a thread pitches with the initial registers `init`. -/
def State.progOf (s : State) (t : Nat) (tt : List Nat) (v : Vals) (init : List Reg) : Prog :=
  ⟨s.nextId, s.cur.gid, s.cg.uid, s.cg.lix, s.cg.lid, s.cg.ctx, v.a.toNat, v.d.lo.toNat, init,
    (List.range 32).map (fun k => s.cg.readReg s.free t (80 + k)), s.cg.ctl.fpctl, (bindings v.b.lo.toNat).map Prod.fst,
    s.ambient tt, 0, 0⟩

section
variable {s u : State} {i : Instr} {c t : Nat} {tt : List Nat} {v : Vals} {init : List Reg}
  (hread : s.readOps s.cur.gid t (operands i) Vals.zero = (u, .ok v)) (hload : u.payload t c 8 = some init)
include hread hload

theorem State.pitchTurn_refused (hbad : u.bindOk u.cg.core u.cur.gid v.b.lo.toNat = false) :
    s.pitchTurn i c (t, tt) = u.trapAll tt 0x01 0 := by
  rw [State.readOps_gid hread] at hbad
  simp only [State.pitchTurn, hread, hload, u32_eq_lo, hbad, Bool.not_false, if_true]

theorem State.pitchTurn_starts (hgood : u.bindOk u.cg.core u.cur.gid v.b.lo.toNat = true)
    (hroom : (u.core u.cg.core).starts.length < 8) : s.pitchTurn i c (t, tt) =
      ({ u with nextId := u.nextId + 1 }.updCore u.cg.core fun k =>
        { k.bindQueues u.cg.uid u.cur.gid u.nextId (bindings v.b.lo.toNat) with
          starts := k.starts ++ [u.progOf t tt v init] }).closeRegions tt := by
  rw [State.readOps_gid hread] at hgood
  simp only [State.pitchTurn, hread, hload, u32_eq_lo, hgood, Bool.not_true, Bool.false_eq_true, if_false,
    if_neg (Nat.not_le.2 hroom), State.progOf, State.readOps_gid hread]

end

/-! ### `QPUSH` (R352) -/

theorem operands_qpush (q a : BitVec 7) : operands (.qpush q a) = [⟨.A, .src, a⟩] := rfl

theorem popNames_qpush {q a : BitVec 7} (ha : a.toNat < 112) : popNames (.qpush q a) = [] := by
  have hpop : ¬ 124 ≤ a.toNat := by omega
  rw [popNames, operands_qpush]
  simp [hpop]

theorem pitchOk_qpush {q a : BitVec 7} (ha : a.toNat < 112) : pitchOk (.qpush q a) = true := by
  have hsrcs : pitchSrcs (.qpush q a) = true := by
    have hwindow : ¬ 112 ≤ a.toNat := by omega
    have hpop : a.toNat < 124 := by omega
    rw [pitchSrcs, operands_qpush]
    simp [hwindow, hpop]
  exact congrArg (· && true) hsrcs

/-- What a thread at a `QPUSH` adds to the entry. -/
def State.pushed (q a : BitVec 7) (acc : State × List Reg) (t : Nat) : State × List Reg :=
  match acc.1.readOps acc.1.cur.gid t (operands (.qpush q a)) Vals.zero with
  | (s, .ok v) => (s, acc.2 ++ [⟨v.a.lo, v.p || s.ambient [t]⟩])
  | (s, .error r) => (s.failRd [t] r, acc.2)

/-- The entry joins a queue that is still bound for the program, unless a thread trapped at reading its element. -/
def State.pushEntry (q : BitVec 7) (e : PQ) (id : Nat) (r : State × List Reg) : State :=
  if e.bound.isSome && e.prog = id && r.1.sweep.traps.isEmpty then
    r.1.updCore r.1.cg.core fun c => { c with pqs := c.pqs.set q.toNat { e with entries := e.entries ++ [r.2] } }
  else r.1

section
variable {s : State} {q a : BitVec 7} {v : Nat → Vals}

/-- Threads whose sources are plain add one register each, and change nothing. -/
theorem State.foldl_pushed (ts : List Nat) (acc : List Reg)
    (hread : ∀ t ∈ ts, s.readOps s.cur.gid t (operands (.qpush q a)) Vals.zero = (s, .ok (v t))) :
    ts.foldl (State.pushed q a) (s, acc) = (s, acc ++ ts.map fun t => ⟨(v t).a.lo, (v t).p || s.ambient [t]⟩) := by
  induction ts generalizing acc with
  | nil => simp
  | cons t ts ih =>
    have hstep : State.pushed q a (s, acc) t = (s, acc ++ [⟨(v t).a.lo, (v t).p || s.ambient [t]⟩]) := by
      simp only [State.pushed, hread t (by simp)]
    rw [List.foldl_cons, hstep, ih _ fun x hx => hread x (by simp [hx])]
    simp

section
variable {g : Group} {p : Prog} (hg : kfind s.groups s.cur.gid = some g) (hkind : g.kind = .pitcher) (hmask : s.cur.mask ≠ [])
  (hlegal : legal g.regs (.qpush q a) = true) (ha : a.toNat < 112) (hrun : (s.core g.core).run = some p)
  (hqueue : p.queues.contains q.toNat = true)
include hg hmask hlegal ha

/-- A program may push an x or a g register. -/
theorem State.gate_qpush (k : State → State) : s.gate (.qpush q a) k = k s := by
  have hrole : roleOk g.role (.qpush q a) = true := rfl
  have hmask : s.cur.mask.isEmpty = false := List.isEmpty_eq_false_iff.2 hmask
  unfold State.gate
  simp only [s.cg_eq g hg, hrole, hlegal, pitchOk_qpush ha, hmask, s.popNeeds_nil _ (popNames_qpush ha), Bool.or_true,
    Bool.and_true, Bool.not_true, Bool.false_eq_true, if_false]
  rfl

include hkind hrun hqueue

/-- A full queue holds the program. -/
theorem exec_qpush_full (hfull : 64 ≤ ((s.core g.core).pqs.getD q.toNat PQ.reset).entries.length) :
    exec (.qpush q a) s = .next (s.stayAll s.cur.mask).finish := by
  refine (congrArg Host.Outcome.next (State.gate_qpush hg hmask hlegal ha _)).trans ?_
  simp only [s.cg_eq g hg, hkind, hrun, hqueue, Bool.not_true, Bool.false_eq_true, if_false, if_pos hfull]

theorem exec_qpush_adds (hfresh : s.sweep = Sweep.reset) (hread : s.Reads (.qpush q a) v)
    (hroom : ((s.core g.core).pqs.getD q.toNat PQ.reset).entries.length < 64)
    (hbound : ((s.core g.core).pqs.getD q.toNat PQ.reset).bound.isSome = true)
    (hprog : ((s.core g.core).pqs.getD q.toNat PQ.reset).prog = p.id) :
    let e := (s.core g.core).pqs.getD q.toNat PQ.reset
    exec (.qpush q a) s = .next (s.updCore g.core fun c => { c with pqs := c.pqs.set q.toNat { e with
      entries := e.entries ++ [s.cur.mask.map fun t => ⟨(v t).a.lo, (v t).p || s.ambient [t]⟩] } }).finish := by
  intro e
  have hpush := State.foldl_pushed s.cur.mask [] hread
  have htraps : s.sweep.traps.isEmpty = true := by rw [hfresh]; rfl
  have hexec : exec (.qpush q a) s = .next (State.pushEntry q e p.id (s.cur.mask.foldl (State.pushed q a) (s, []))).finish := by
    refine (congrArg Host.Outcome.next (State.gate_qpush hg hmask hlegal ha _)).trans ?_
    simp only [s.cg_eq g hg, hkind, hrun, hqueue, Bool.not_true, Bool.false_eq_true, if_false, if_neg (Nat.not_le.2 hroom)]
    rfl
  have hopen : (e.bound.isSome && e.prog = p.id && s.sweep.traps.isEmpty) = true := by
    rw [hbound, hprog, htraps, decide_eq_true rfl]
    rfl
  rw [hexec, hpush, State.pushEntry, if_pos hopen, s.cg_eq g hg, List.nil_append]

end
end

/-! ### `QDRN` (R140, R354) -/

/-- No queue of the core is bound to the group any more. -/
theorem State.unbind_bound (s : State) (k gid : Nat) :
    ∀ q ∈ ((s.unbind k gid).core k).pqs, ∀ b, q.bound = some b → b.2.1 ≠ gid := by
  intro q hq b hb
  rw [State.unbind, State.updCore_core, List.mem_map] at hq
  obtain ⟨x, -, rfl⟩ := hq
  split at hb
  next uid h n hbound =>
    split at hb
    next => cases hb
    next hne =>
      rw [hbound] at hb
      cases hb
      exact hne
  next hbound =>
    rw [hbound] at hb
    cases hb

theorem State.unbind_run (s : State) (k gid : Nat) : ((s.unbind k gid).core k).run = (s.core k).run := by
  rw [State.unbind, State.updCore_core]

section
variable {s : State} {g : Group} (hI : s.Issues .qdrn g)
include hI

theorem exec_qdrn_noProgram (hrun : (s.core g.core).run = none) :
    exec .qdrn s = .next ((s.unbind g.core s.cur.gid).closeRegions s.cur.mask).finish := by
  refine (congrArg Host.Outcome.next (s.gate_noQueue _ g hI rfl _)).trans ?_
  simp only [s.cg_eq g hI.group, State.unbind_run, hrun, Bool.false_eq_true, if_false]
  rfl

theorem exec_qdrn_endsProgram {p : Prog} (hrun : (s.core g.core).run = some p) (hgid : p.gid = s.cur.gid) (huid : p.uid = g.uid) :
    exec .qdrn s =
      .next (((s.unbind g.core s.cur.gid).endProgram g.core 0 0).closeRegions s.cur.mask).finish := by
  have hcur : (s.unbind g.core s.cur.gid).cur = s.cur := rfl
  refine (congrArg Host.Outcome.next (s.gate_noQueue _ g hI rfl _)).trans ?_
  simp only [s.cg_eq g hI.group, State.unbind_run, hrun, hcur, hgid, huid, decide_true, Bool.and_true, if_true]

end

/-! ### A program starts and ends (R139, R350, R353) -/

theorem exec_pitcherStart {s : State} {core : Nat} {p : Prog} {ps : List Prog} (hrun : (s.core core).run = none)
    (hstarts : (s.core core).starts = p :: ps) (hheld : s.engHeld core p.ctx .P p.id = false) :
    let u := s.updCore core fun c => { c with run := some p, starts := ps }
    exec (.pitcherStart core) s =
      .next (if p.iters = 0 then u.endProgram core 0 0 else u.setGrp (pitchGid core) (p.group core)).tick := by
  change execPitcherStart core s = _
  simp only [execPitcherStart, hrun, hstarts, hheld, Bool.false_eq_true, if_false]

theorem exec_pitcherEnd {s : State} {core : Nat} {p : Prog} (hrun : (s.core core).run = some p) (hqueues : p.queues ≠ [])
    (hover : ∀ q ∈ p.queues, ((s.core core).pqs.getD q PQ.reset).bound = none ∨
      ((s.core core).pqs.getD q PQ.reset).prog ≠ p.id) :
    exec (.pitcherEnd core) s = .next (s.endProgram core 0 0).tick := by
  refine next_tick (if_pos ?_)
  simpa [Core.pitchOver, hrun, hqueues] using hover

/-! ### The statement -/

/-- Settles O41: the turns of `AMSG` and `PITCH`, the push of an entry, and the events of a program. -/
theorem messagesAndPrograms : Obligations.MessagesAndPrograms := by
  refine ⟨fun s g d a b c k hI hplain => ?message, fun s g d a b c hI hplain => ?pitch,
    fun s g q a p v hg hkind hfresh hmask hread hlegal hrun hqueue ha => ?push, fun s g hI => ?drain,
    fun s core => ⟨fun p ps => exec_pitcherStart, fun p => exec_pitcherEnd⟩⟩
  case message =>
    refine ⟨fun u x => u.amsgTurn (.amsg d a b k c) (amsgWords k) c.toNat x,
      congrArg Host.Outcome.next (s.gate_noQueue _ g hI hplain _), fun s1 s2 t tt v rs hread hload hk => ?_⟩
    have hload : s2.payload t c.toNat (payloadWords k.toNat) = some rs := hload
    rw [payloadWords_eq hk] at hload
    exact ⟨State.amsgTurn_refused hread hload, State.amsgTurn_sends hread hload⟩
  case pitch =>
    exact ⟨fun u x => u.pitchTurn (.pitch d a b c) c.toNat x, congrArg Host.Outcome.next (s.gate_noQueue _ g hI hplain _),
      fun s1 s2 t tt v init hread hload => ⟨State.pitchTurn_refused hread hload, State.pitchTurn_starts hread hload⟩⟩
  case push =>
    exact ⟨exec_qpush_adds hg hkind hmask hlegal ha hrun hqueue hfresh hread,
      exec_qpush_full hg hkind hmask hlegal ha hrun hqueue⟩
  case drain =>
    exact ⟨s.unbind_bound _ _, exec_qdrn_noProgram hI, fun p => exec_qdrn_endsProgram hI⟩

end Sys2Proof.Machine
end

section
/-! SUPPORT. The events that carry a command on (R330, R341, R344, R347, R348): its completion word and result, the destinations that
a collective waits for, and the request that reaches a source entry. -/

namespace Sys2Proof.Machine
open Sys2Proof

/-! ### The end of a command (R123, R330) -/

section
variable {s : State} {core idx : Nat} {c : Cmd}

/-- Its word is written and its interval closed, while its result still waits. -/
def State.resultWaits (s : State) (core : Nat) (c : Cmd) : State :=
  (s.updCmd core c.id fun x => { x with stage := 7, code := c.code, word := none }).dropIvs fun a => a = (c.who core).agent

theorem State.cmdOver_waits (hbehind : s.resultBehind core c = true) : s.cmdOver core c c.code = s.resultWaits core c :=
  if_pos hbehind

theorem State.cmdOver_gives (hfirst : s.resultBehind core c = false) :
    s.cmdOver core c c.code = ((s.cmdGone core c).cmdResult core c (c.code * 2 ^ 24 + min c.count 0xFFFFFF)).unmark c.gid :=
  if_neg (by simp [hfirst])

section
variable (hside : s.sideRefused (c.who core) = none) (hwaits : s.sideWaits (c.who core) = false)
include hside hwaits

theorem State.cmdFinish_wordless (hword : c.word = none) : s.cmdFinish core c = s.cmdOver core c c.code := by
  simp only [State.cmdFinish, hside, hwaits, hword, Option.isSome_none, Bool.false_eq_true, if_false]

theorem State.cmdFinish_writes {spc : Spc} {a : Nat} (hword : c.word = some (spc, a))
    (hline : s.lineBehind core c spc a = false) : s.cmdFinish core c = s.cmdWord core c spc a := by
  simp only [State.cmdFinish, hside, hwaits, hword, hline, Option.isSome_none, Bool.false_eq_true, if_false]

end

section
variable (hheld : s.engHeld core c.ctx c.path c.id = false)
include hheld

/-- A stream that is not frozen makes every access. -/
theorem State.engStops_eq_false (spc : Spc) (a : Nat) : s.engStops (c.who core) spc a = false := by
  have hopen : (s.core core).engFrozen.contains c.ctx = false := (Bool.or_eq_false_iff.1 hheld).1
  simp only [State.engStops, Cmd.who, hopen, Bool.and_false, Bool.false_and]

/-- The word is the command's last write, as a release. -/
theorem State.cmdWord_written {u : State} {spc : Spc} {a key attr : Nat}
    (hreach : s.reach (c.who core) { Acc.write spc a 4 (c.p && c.pstop) with kind := 4, sync := true } = (u, .ok key attr)) :
    s.cmdWord core c spc a =
      (u.put (c.who core) { Acc.write spc a 4 (c.p && c.pstop) with kind := 4, sync := true } key
        (leBytes 4 (c.code * 2 ^ 24 + min c.count 0xFFFFFF)) c.p false true).cmdOver core c c.code := by
  simp only [State.cmdWord, State.engStops_eq_false hheld, hreach, Bool.false_eq_true, if_false]
  rfl

theorem State.cmdHeld_eq_false : s.cmdHeld core c.ctx c.path c.id = false := by
  rw [State.cmdHeld, hheld, Bool.false_and]

/-! ### The event of a command (R397) -/

theorem exec_completionWord (hc : (s.core core).cmds[idx]? = some c) :
    exec (.completionWordWrite core idx) s = .next (s.cmdStep core c).tick := by
  change execCompletionWordWrite core idx s = _
  simp only [execCompletionWordWrite, hc, State.cmdHeld_eq_false hheld, Bool.false_eq_true, if_false]

end

theorem State.cmdStep_finishes (hstage : c.stage = 3) (hchecked : c.unchecked = false) :
    s.cmdStep core c = s.cmdFinish core c := by
  simp only [State.cmdStep, hstage, hchecked, Bool.false_eq_true, if_false]

theorem State.cmdStep_settles (hstage : c.stage = 6) (hside : s.sideRefused (c.who core) = none) :
    s.cmdStep core c = s.collSettled core c := by
  simp only [State.cmdStep, hstage, hside, Option.isSome_none, Bool.false_eq_true, if_false, if_true]
  rfl

/-! ### A collective whose destinations are written or refused (R60, R62) -/

section
variable {x : Coll} {m : Member} (hcoll : s.collOf core c.id = some (x, m))
include hcoll

theorem State.collSettled_waits (hopen : ∃ y ∈ x.members, y.got = false) : s.collSettled core c = s := by
  have hall : x.members.all Member.got = false := by simpa using hopen
  simp only [State.collSettled, hcoll, hall, Bool.not_false, if_true]

section
variable (hgot : ∀ y ∈ x.members, y.got = true)
include hgot

theorem State.collSettled_done (hrefused : x.refused = 0) :
    s.collSettled core c = s.updCmd core c.id fun c => { c with stage := 4, code := 1 } := by
  have hall : x.members.all Member.got = true := List.all_eq_true.2 hgot
  simp only [State.collSettled, hcoll, hall, hrefused, Bool.not_true, Bool.false_eq_true, if_false, if_true]

theorem State.collSettled_partial (hrefused : x.refused ≠ 0) (hsends : m.desc.kind ≠ 3 ∨ m.rank = 0) :
    s.collSettled core c = s.updCmd core c.id fun c => { c with stage := 4, code := 2, count := x.refused } := by
  have hall : x.members.all Member.got = true := List.all_eq_true.2 hgot
  have hsends : (decide (m.desc.kind ≠ 3) || decide (m.rank = 0)) = true := by simpa using hsends
  simp only [State.collSettled, hcoll, hall, hsends, if_neg hrefused, Bool.not_true, Bool.false_eq_true, if_false, if_true]

end
end

/-! ### A request at its source entry (R344, R347, R348) -/

theorem exec_sourceRequest (hc : (s.core core).cmds[idx]? = some c) (hheld : s.engHeld core c.ctx c.path c.id = false)
    (hstage : c.stage = 0) : exec (.sourceEntryRequest core idx) s = .next (s.sourceRequest core c).tick := by
  change execSourceEntryRequest core idx s = _
  simp only [execSourceEntryRequest, hc, hheld, hstage, ne_eq, not_true_eq_false, decide_false, Bool.or_self,
    Bool.false_eq_true, if_false]

/-- The completion word of a request lies in A. -/
def Cmd.WordFits (c : Cmd) : Prop := ∀ a, c.word = some a → a.2 + 4 ≤ 2 ^ 23

theorem Cmd.wordFits_iff : c.WordFits ↔ (c.word.any fun a => decide (2 ^ 23 < a.2 + 4)) = false := by
  cases hword : c.word <;> simp [Cmd.WordFits, hword]

/-- No subscriber is bound under the number. -/
def Core.Unbound (k : Core) (n : Nat) : Prop := k.land? n = none ∨ ∃ l, k.land? n = some l ∧ l.st = .binding

section
variable {n : Nat} (hkind : c.kind = .subx n)
include hkind

theorem State.sourceRequest_subx_misplaced {a : Spc × Nat} (hword : c.word = some a) (hout : 2 ^ 23 < a.2 + 4) :
    s.sourceRequest core c = s.cmdWordless core c 0x13 := by
  simp only [State.sourceRequest, hkind, hword, Option.any_some, decide_eq_true hout, if_true]

section
variable (hfits : c.WordFits)
include hfits

theorem State.sourceRequest_subx_unbound (hland : (s.core core).Unbound n) :
    s.sourceRequest core c = s.cmdEnds core c.id 0x13 0 := by
  rcases hland with hland | ⟨l, hland, hst⟩
  · simp only [State.sourceRequest, hkind, Cmd.wordFits_iff.1 hfits, hland, Bool.false_eq_true, if_false]
  · simp only [State.sourceRequest, hkind, Cmd.wordFits_iff.1 hfits, hland, hst, Bool.false_eq_true, if_false, if_true]

section
variable {l : LandEnt} (hland : (s.core core).land? n = some l)
include hland

theorem State.sourceRequest_subx_lapsed (hst : l.st = .lapsed) :
    s.sourceRequest core c = ((s.lastUpdates (core, n)).freeLand core n).cmdEnds core c.id 1 0 := by
  simp only [State.sourceRequest, hkind, Cmd.wordFits_iff.1 hfits, hland, hst, Bool.false_eq_true, if_false, if_true,
    reduceCtorEq]

theorem State.sourceRequest_subx_drops {ent : Nat} (hlive : l.st ≠ .lapsed) (hbound : l.st ≠ .binding)
    (hsrc : s.srcOf core l = some ent) :
    let u := (s.flushEntry l.b.score ent).dropSub (core, n)
    s.sourceRequest core c = u.cmdWaits core c (u.updsTo core n) 0 := by
  simp only [State.sourceRequest, hkind, Cmd.wordFits_iff.1 hfits, hland, if_neg hlive, if_neg hbound, hsrc,
    Bool.false_eq_true, if_false]

end
end
end

section
variable {n : Nat} (hkind : c.kind = .subf n)
include hkind

theorem State.sourceRequest_subf_unbound (hland : (s.core core).Unbound n) :
    s.sourceRequest core c = s.cmdEnds core c.id 0x13 0 := by
  rcases hland with hland | ⟨l, hland, hst⟩
  · simp only [State.sourceRequest, hkind, hland]
  · simp only [State.sourceRequest, hkind, hland, hst, if_true]

section
variable {l : LandEnt} (hland : (s.core core).land? n = some l)
include hland

theorem State.sourceRequest_subf_lapsed (hst : l.st = .lapsed) :
    s.sourceRequest core c = s.cmdEnds core c.id 0x14 0 := by
  simp only [State.sourceRequest, hkind, hland, hst, if_false, if_true, reduceCtorEq]

theorem State.sourceRequest_subf_flushes {ent : Nat} (hlive : l.st ≠ .lapsed) (hbound : l.st ≠ .binding)
    (hsrc : s.srcOf core l = some ent) :
    let u := s.flushEntry l.b.score ent
    s.sourceRequest core c = u.cmdWaits core c (u.updsTo core n) 0 := by
  simp only [State.sourceRequest, hkind, hland, if_neg hlive, if_neg hbound, hsrc]

end
end

/-- R343, R344: a record that passes every check binds the subscriber at the source entry that it finds. -/
theorem State.subsStart_binds {u : State} {n desc ent : Nat} {bs : List Byte} {p : Bool} {r : SubRec}
    (hread : s.engRead (c.who core) .A desc 32 = (u, .ok bs p)) (halign : recW bs 16 % 4 = 0) (hfits : recW bs 16 + 4 ≤ 2 ^ 23)
    (hrec : SubRec.parse bs = some r) :
    let w := u.updCmd core c.id fun x => { x with word := some (.A, recW bs 16), p := x.p || p }
    w.subsOk core c.lid n false r = true → w.entryFor c.lid r = some ent →
      s.subsStart core c false n desc = (w.bindSub core c false n ent r).cmdEnds core c.id 1 0 := by
  intro w hok hent
  have hword : (recW bs 16 % 4 = 0 && recW bs 16 + 4 ≤ 2 ^ 23) = true := by
    rw [decide_eq_true halign, decide_eq_true hfits]
    rfl
  simp only [State.subsStart, hread, hword, hrec, Bool.not_true, Bool.false_eq_true, if_false]
  rw [show State.subsOk _ core c.lid n false r = true from hok, show State.entryFor _ c.lid r = some ent from hent]
  rfl

end

/-! ### A batch leaves (R345) -/

theorem exec_batchWindow {s : State} {core entry line : Nat} {e : SrcEnt} {runs : List Run}
    (hent : (s.core core).srcs[entry]? = some e) (hopen : kfind e.open_ line = some runs) :
    exec (.batchWindowExpiry core entry line) s = .next ((s.updCore core fun c =>
      { c with srcs := c.srcs.set entry { e with open_ := kdel e.open_ line } }).forwardLine core e.lid entry line runs
        fun _ => true).tick := by
  change execBatchWindowExpiry core entry line s = _
  simp only [execBatchWindowExpiry, hent, hopen]

end Sys2Proof.Machine
end

section
/-! SUPPORT. The events of updates and of collectives (R44, R45, R56, R60, R62, R341, R342, R345, R361): an update at its landing
entry, contributions that arrive, a bound that expires, and the deliveries to a rank. -/

namespace Sys2Proof.Machine
open Sys2Proof

/-! ### Updates (R345, R346, R361) -/

/-- The entry is open to the update. -/
def LandEnt.OpenTo (l : LandEnt) (u : Upd) : Prop :=
  l.lid = u.lid ∧ ((l.st ≠ .lapsed ∧ l.b.bid = u.bid) ∨ (l.sync.map Binding.bid) = some u.bid)

theorem LandEnt.takes_iff {l : LandEnt} {u : Upd} : l.takes u = true ↔ l.OpenTo u := by
  simp [LandEnt.takes, LandEnt.OpenTo]

/-- No update of the pair is before it. -/
theorem updates_before {us : List Upd} {u : Upd} (hfirst : ∀ x ∈ us, ¬ (x.src = u.src ∧ x.n = u.n)) :
    (us.any fun y => y.src = u.src && y.n = u.n) = false :=
  List.any_eq_false.2 fun x hx => by simpa using hfirst x hx

section
variable {s : State} {core idx : Nat} {u : Upd} (flit : Bool) (hu : (s.core core).upds[idx]? = some u)
  (hfirst : ∀ x ∈ (s.core core).upds.take idx, ¬ (x.src = u.src ∧ x.n = u.n))
include hu hfirst

theorem exec_updateArrival_freed (hland : (s.core core).land? u.n = none) :
    exec (.updateArrival core ⟨idx, flit⟩) s = .next (s.updRefused core u false).tick := by
  change execUpdateArrival core ⟨idx, flit⟩ s = _
  simp only [execUpdateArrival, hu, updates_before hfirst, hland, Bool.false_eq_true, if_false]

section
variable {l : LandEnt} (hland : (s.core core).land? u.n = some l)
include hland

theorem exec_updateArrival_refused (hclosed : ¬ l.OpenTo u) :
    exec (.updateArrival core ⟨idx, flit⟩) s = .next (s.updRefused core u false).tick := by
  change execUpdateArrival core ⟨idx, flit⟩ s = _
  simp only [execUpdateArrival, hu, updates_before hfirst, hland, if_neg (mt LandEnt.takes_iff.1 hclosed),
    Bool.false_eq_true, if_false]

theorem exec_updateArrival_lands (hopen : l.OpenTo u) :
    exec (.updateArrival core ⟨idx, flit⟩) s = .next (s.updApply core u flit).tick := by
  change execUpdateArrival core ⟨idx, flit⟩ s = _
  simp only [execUpdateArrival, hu, updates_before hfirst, hland, if_pos (LandEnt.takes_iff.2 hopen),
    Bool.false_eq_true, if_false]

end
end

/-! ### What a refusal leaves in memory (R361) -/

theorem State.subDone_mem (s : State) (core : Nat) (c : Cmd) : (s.subDone core c).mem = s.mem := by
  unfold State.subDone
  split <;> rfl

theorem State.subsSettle_mem (s : State) : s.subsSettle.mem = s.mem :=
  foldl_keeps (fun u : State => u.mem = s.mem) (fun (u : State) (e : Nat × Cmd) => u.subDone e.1 e.2)
    (fun u e h => (u.subDone_mem e.1 e.2).trans h) _ s rfl

theorem State.updsOver_mem (s : State) (ids : List Nat) : (s.updsOver ids).mem = s.mem := State.subsSettle_mem _

theorem State.unsync_mem (s : State) (core n bid : Nat) : (s.unsync core n bid).mem = s.mem := by
  unfold State.unsync
  split
  · rfl
  · split <;> rfl

theorem State.updRefused_mem (s : State) (core : Nat) (u : Upd) (conflict : Bool) :
    (s.updRefused core u conflict).mem = s.mem := by
  unfold State.updRefused
  dsimp only
  split
  · exact State.updsOver_mem _ _
  · exact (State.updsOver_mem _ _).trans (State.unsync_mem _ _ _ _)

/-! ### Members of a collective -/

theorem Coll.rank_of_rank? {c : Coll} {rank : Nat} {m : Member} (hm : c.rank? rank = some m) : m.rank = rank := by
  simpa using List.find?_some hm

/-- The collective once the parts of a fast sum are joined. -/
def Coll.settled (c : Coll) (m : Member) : Coll := if m.desc.mode = 0 && m.desc.op = 0 && m.desc.kind < 2 then c.settle else c

/-! ### Contributions and bounds (R56, R57, R60) -/

section
variable {s : State} {i rank : Nat} {c : Coll} (hc : s.colls[i]? = some c)
include hc

theorem exec_contribution_merges {other : Nat} (hne : rank ≠ other) : exec (.contributionArrival i rank other) s =
    .next { s.tick with colls := s.colls.set i (c.merge rank other) } := by
  change execContributionArrival i rank other s = _
  simp only [execContributionArrival, hc, if_neg hne]

theorem exec_contribution_arrives : exec (.contributionArrival i rank rank) s = .next (s.remoteMember c rank).tick := by
  change execContributionArrival i rank rank s = _
  simp only [execContributionArrival, hc, if_true]

section
variable {m : Member} {id : Nat} (hm : c.rank? rank = some m) (hid : m.cmd = some id)
include hm hid

theorem exec_bound_pending (hbefore : s.now < m.until_) : exec (.collectiveBoundExpiry i rank) s = .next s.tick := by
  change execCollectiveBoundExpiry i rank s = _
  simp only [execCollectiveBoundExpiry, hc, hm, hid, decide_eq_true hbefore, Bool.or_true, if_true]

/-- A bound that has passed completes SHORT with the contributions that have arrived. -/
theorem exec_bound_expires {x : Cmd} {desc : Nat} (hgot : m.got = false) (hshort : c.members.length ≠ m.table.length)
    (hdue : m.until_ ≤ s.now) (hx : s.cmd? m.core id = some x) (hkind : x.kind = .coll desc) :
    exec (.collectiveBoundExpiry i rank) s = .next ((s.updCmd m.core id fun x => { x with
      stage := 4, code := 3, count := c.members.length
      after := [⟨.A, desc + 0x38, leBytes 4 (statWord m.sat m.nan m.uf), x.p, false, false⟩] }).collGot m.core id).tick := by
  have hx : (s.core m.core).cmds.find? (fun y => y.id = id) = some x := hx
  change execCollectiveBoundExpiry i rank s = _
  simp only [execCollectiveBoundExpiry, hc, hm, hid, hgot, decide_eq_false hshort, decide_eq_false (Nat.not_lt.2 hdue),
    Bool.or_self, Bool.false_eq_true, if_false, hx, Option.map_some, hkind, Option.getD_some]
  rfl

end

/-! ### Deliveries (R44, R45, R341) -/

section
variable {m : Member} (hm : c.rank? rank = some m) (hgot : m.got = false) (hfull : c.members.length = m.table.length)
  (flit : Bool)
include hm hgot hfull

theorem exec_delivery_far (hcmd : m.cmd = none) : exec (.collectiveDelivery i ⟨rank, flit⟩) s =
    .next ((({ s with colls := s.colls.set i (c.settled m) } : State).farDeliver i (c.settled m) m).tick) := by
  have hgoes : ¬ (m.got || decide (c.members.length ≠ m.table.length)) = true := by simp [hgot, hfull]
  change execCollectiveDelivery i ⟨rank, flit⟩ s = _
  simp only [execCollectiveDelivery, hc, hm, if_neg hgoes, hcmd]
  rfl

theorem exec_delivery_here {id desc : Nat} {x : Cmd} (hcmd : m.cmd = some id) (hx : s.cmd? m.core id = some x)
    (hkind : x.kind = .coll desc) (hstage : x.stage = 1) (hheld : s.engHeld m.core x.ctx x.path x.id = false) :
    exec (.collectiveDelivery i ⟨rank, flit⟩) s =
      .next ((({ s with colls := s.colls.set i (c.settled m) } : State).collDeliver (c.settled m) m x desc flit).tick) := by
  have hgoes : ¬ (m.got || decide (c.members.length ≠ m.table.length)) = true := by simp [hgot, hfull]
  change execCollectiveDelivery i ⟨rank, flit⟩ s = _
  have hx : ({ s with colls := s.colls.set i (c.settled m) } : State).cmd? m.core id = some x := hx
  have hfree : ({ s with colls := s.colls.set i (c.settled m) } : State).cmdHeld m.core x.ctx x.path x.id = false :=
    State.cmdHeld_eq_false hheld
  unfold Coll.settled at hx hfree ⊢
  simp only [execCollectiveDelivery, hc, hm, if_neg hgoes, hcmd, hx, hkind, hstage, hfree, ne_eq, not_true_eq_false,
    decide_false, Bool.or_self, Bool.false_eq_true, if_false]

end
end

/-! ### What leaves for another device (R44, R45) -/

theorem Coll.merge_ctx (c : Coll) (a b : Nat) : (c.merge a b).ctx = c.ctx := by
  unfold Coll.merge
  split
  · split <;> rfl
  · rfl

theorem Coll.settled_ctx (c : Coll) (m : Member) : (c.settled m).ctx = c.ctx := by
  unfold Coll.settled Coll.settle
  split
  · split
    next p ps _ =>
      exact foldl_keeps (fun d : Coll => d.ctx = c.ctx) (fun d (q : Part1) => d.merge (p.ranks.headD 0) (q.ranks.headD 0))
        (fun d q h => (d.merge_ctx _ _).trans h) ps c rfl
    next => rfl
  · rfl

/-- Messages have left the part. -/
def State.sentOut (s : State) (ms : List OutMsg) : State := { s with dev := { s.dev with outbox := s.dev.outbox ++ ms } }

theorem State.sentOut_sentOut (s : State) (ms ns : List OutMsg) : (s.sentOut ms).sentOut ns = s.sentOut (ms ++ ns) := by
  simp [State.sentOut]

theorem State.emit_leaves {s : State} {x : OutMsg} {n : Nat} (hx : x.link = some n) (hlink : s.link n = .trained) :
    s.emit x = s.sentOut [x] :=
  if_neg (by rw [hx, Option.map_some, hlink]; decide)

/-- Messages leave at once over a link that is trained. -/
theorem State.emitAll {α : Type} {f : α → OutMsg} {n : Nat} (hf : ∀ x, (f x).link = some n) (l : List α) (s : State)
    (hlink : s.link n = .trained) : l.foldl (fun v x => v.emit (f x)) s = s.sentOut (l.map f) := by
  induction l generalizing s with
  | nil => simp [State.sentOut]
  | cons x xs ih =>
    have hlater : (s.sentOut [f x]).link n = .trained := hlink
    rw [List.foldl_cons, State.emit_leaves (hf x) hlink, ih _ hlater, State.sentOut_sentOut, List.map_cons,
      List.singleton_append]

/-- The link of a delivery to a rank on another device. -/
def State.farLink (s : State) (m : Member) : Option Nat :=
  if m.dsp = .A then s.coreLink (m.table.getD m.rank 0) m.daddr else s.linkOf m.daddr

/-- A write of a delivery as it leaves. -/
def Coll.message (c : Coll) (m : Member) (link : Option Nat) (w : CWrite) : OutMsg :=
  ⟨link, c.ctx, w.addr, w.data, w.p, none, if m.dsp = .A then some (m.table.getD m.rank 0) else none⟩

section
variable {s : State} {i : Nat} {c : Coll} {m : Member}

theorem State.farDeliver_linkless (hlink : s.farLink m = none) :
    s.farDeliver i c m = { s with colls := s.colls.set i (c.farGot m.rank true) } := by
  unfold State.farLink at hlink
  simp only [State.farDeliver, hlink]

section
variable {n : Nat} (hlink : s.farLink m = some n)
include hlink

theorem State.farDeliver_stays (hdown : s.link n ≠ .trained) : s.farDeliver i c m = s := by
  unfold State.farLink at hlink
  simp only [State.farDeliver, hlink, if_pos hdown]

theorem State.farDeliver_leaves (hup : s.link n = .trained) : ∃ refused, s.farDeliver i c m =
    { s.sentOut ((m.desc.writes (c.result m.desc) (2 ≤ m.desc.wire)).map (c.message m (some n))) with
      colls := s.colls.set i (c.farGot m.rank refused) } := by
  have hemit := State.emitAll (f := c.message m (some n)) (fun _ => rfl)
    (m.desc.writes (c.result m.desc) (2 ≤ m.desc.wire)) s hup
  unfold State.farLink at hlink
  unfold Coll.message at hemit ⊢
  simp only [State.farDeliver, hlink, if_neg (not_not_intro hup), hemit]
  exact ⟨_, rfl⟩

end
end

theorem Coll.stat_reduces (c : Coll) (m : Member) (hkind : m.desc.kind < 2) : c.stat m = statWord m.sat m.nan m.uf := by
  unfold Coll.stat
  split
  next h => omega
  next h => omega
  next => simp

/-! ### The statement -/

/-- Settles O42: a command goes on by the equation of its stage, a request by that of its kind, an update by what its landing entry
takes, and a collective by where its rank is. -/
theorem commandEvents : Obligations.CommandEvents := by
  refine ⟨fun s core idx c hc hheld hstage hchecked hside hwaits => ?word,
    fun s core idx c x m hc hheld hstage hside hcoll => ?settles, fun s core idx c hc hheld hstage => ?request,
    fun s core entry line e runs => exec_batchWindow, fun s core idx u flit hu hfirst => ?update,
    fun s i rank other c hc => ?collective⟩
  case word =>
    have hexec : exec (.completionWordWrite core idx) s = .next (s.cmdFinish core c).tick := by
      rw [exec_completionWord hheld hc, State.cmdStep_finishes hstage hchecked]
    refine ⟨fun hword hbehind => ?_, fun hword hfirst => ?_, fun s2 spc a key attr hword hline hreach =>
      ⟨fun hfirst => ?_, fun hbehind => ?_⟩⟩
    · rw [hexec, State.cmdFinish_wordless hside hwaits hword, State.cmdOver_waits hbehind]
      rfl
    · rw [hexec, State.cmdFinish_wordless hside hwaits hword, State.cmdOver_gives hfirst]
    · rw [hexec, State.cmdFinish_writes hside hwaits hword hline, State.cmdWord_written hheld hreach, State.cmdOver_gives hfirst]
    · rw [hexec, State.cmdFinish_writes hside hwaits hword hline, State.cmdWord_written hheld hreach, State.cmdOver_waits hbehind]
      rfl
  case settles =>
    have hexec : exec (.completionWordWrite core idx) s = .next (s.collSettled core c).tick := by
      rw [exec_completionWord hheld hc, State.cmdStep_settles hstage hside]
    exact ⟨fun hopen => hexec.trans (next_tick (State.collSettled_waits hcoll hopen)),
      fun hgot hrefused => hexec.trans (next_tick (State.collSettled_done hcoll hgot hrefused)),
      fun hgot hrefused hsends => hexec.trans (next_tick (State.collSettled_partial hcoll hgot hrefused hsends))⟩
  case request =>
    have hexec := exec_sourceRequest hc hheld hstage
    refine ⟨fun n a hkind hword hout => hexec.trans (next_tick (State.sourceRequest_subx_misplaced hkind hword hout)),
      fun n hform hland => hexec.trans (next_tick ?unbound),
      fun n l hkind hland hst => hexec.trans (next_tick (State.sourceRequest_subf_lapsed hkind hland hst)),
      fun n l hkind hfits hland hst => hexec.trans (next_tick (State.sourceRequest_subx_lapsed hkind hfits hland hst)),
      fun n l ent hkind hland hlive hbound hsrc =>
        hexec.trans (next_tick (State.sourceRequest_subf_flushes hkind hland hlive hbound hsrc)),
      fun n l ent hkind hfits hland hlive hbound hsrc =>
        hexec.trans (next_tick (State.sourceRequest_subx_drops hkind hfits hland hlive hbound hsrc)),
      fun n desc s2 bs p r ent hkind hread halign hfits hrec hok hent => hexec.trans (next_tick ?binds)⟩
    case unbound =>
      rcases hform with ⟨hkind, hfits⟩ | hkind
      · exact State.sourceRequest_subx_unbound hkind hfits hland
      · exact State.sourceRequest_subf_unbound hkind hland
    case binds =>
      have hstart := State.subsStart_binds hread halign hfits hrec hok hent
      simp only [State.sourceRequest, hkind, State.cmdRead, hstart]
  case update =>
    exact ⟨exec_updateArrival_freed flit hu hfirst, fun l hland => exec_updateArrival_refused flit hu hfirst hland,
      fun l hland => exec_updateArrival_lands flit hu hfirst hland, s.updRefused_mem core u false⟩
  case collective =>
    refine ⟨exec_contribution_merges hc, exec_contribution_arrives hc, fun m id x desc hm hid hgot hshort =>
        ⟨exec_bound_pending hc hm hid, exec_bound_expires hc hm hid hgot hshort⟩,
      fun m flit hm hgot hfull hcmd => ?far, c.stat_reduces, fun m id x desc flit hm hcmd hx hkind hstage hgot hfull hheld =>
        exec_delivery_here hc hm hgot hfull flit hcmd hx hkind hstage hheld⟩
    case far =>
      obtain rfl := Coll.rank_of_rank? hm
      intro c2 peer link
      let v : State := { s with colls := s.colls.set i c2 }
      have hexec : exec (.collectiveDelivery i ⟨m.rank, flit⟩) s = .next (v.farDeliver i c2 m).tick :=
        exec_delivery_far hc hm hgot hfull flit hcmd
      have hlist : ∀ d, v.colls.set i d = s.colls.set i d := fun d => List.set_set ..
      have hctx : c2.ctx = c.ctx := c.settled_ctx m
      refine ⟨fun hlink => ?linkless, fun n hlink hdown => ?down, fun n hlink hup => ?up⟩
      case linkless =>
        have hgiven : v.farDeliver i c2 m = _ := State.farDeliver_linkless hlink
        rw [hexec, hgiven, hlist]
        rfl
      case down =>
        have hstays : v.farDeliver i c2 m = v := State.farDeliver_stays hlink hdown
        rw [hexec, hstays]
        rfl
      case up =>
        obtain ⟨refused, hleaves⟩ : ∃ refused, v.farDeliver i c2 m = _ := State.farDeliver_leaves hlink hup
        refine ⟨_, refused, hexec.trans (next_tick hleaves), rfl, hlist _, ?_⟩
        rw [← hctx, hlink]
        rfl

end Sys2Proof.Machine
end

section
/-! SUPPORT. The commands of a tile (R363, R364, R372 to R374, R386): where they wait, and what each does to its tile. -/

namespace Sys2Proof.Machine
open Sys2Proof

/-- A column count that the score mode does not have, of an `MCFG` that selects it. -/
def BadColumns (m no : Nat) : Prop := m % 4 = 1 ∧ (no % 16 ≠ 0 ∨ no < 16 ∨ 512 < no)

theorem badColumns_iff {m no : Nat} :
    (decide (m % 4 = 1) && (no % 16 ≠ 0 || no < 16 || 512 < no)) = true ↔ BadColumns m no := by
  simp [BadColumns, or_assoc]

/-! ### One thread at an `MSTAT` (R386) -/

/-- `MSTAT` names no queue: it has no source. -/
theorem popNames_mstat (d : Code) (c : BitVec 2) (r : BitVec 1) : popNames (.mstat d c r) = [] := rfl

/-- One thread at an `MSTAT`: it takes the word `w` of the tile. -/
def State.mstatTurn (d : Code) (w : Nat) (v : State) (x : Nat × List Nat) : State :=
  if d = 120#7 then v
  else v.writeDst v.cur.gid x.1 (.reg d.toNat false) (BitVec.ofNat 64 w) (v.ambient x.2) (some 2)

/-- The tile whose counters `MSTAT.CLR` has cleared. -/
def Tile.uncounted (t : Tile) : Tile := { t with nanblk := 0, ufblk := 0 }

/-- The destination of an `MSTAT` is a register or `z`, which are always ready. -/
theorem State.mstatTurn_eq {d : Code} (hd : d.toNat < 112 ∨ d = 120#7) (w : Nat) (v : State) (x : Nat × List Nat) :
    (match v.dstOp v.cur.gid x.1 ⟨.D, .xgz, d⟩ with
      | (s, .error e) => s.failRd x.2 e
      | (s, .ok dst) => s.writeDst s.cur.gid x.1 dst (BitVec.ofNat 64 w) (s.ambient x.2) (some 2)) =
      State.mstatTurn d w v x := by
  rcases hd with hreg | rfl
  · have hne : d ≠ 120#7 := by rintro rfl; exact absurd hreg (by decide)
    rw [State.dstOp_plain _ _ _ _ (.inl hreg), State.mstatTurn, if_neg hne, if_pos hreg]
    rfl
  · rfl

/-! ### The gate of a matrix command (R364) -/

section
variable {s : State} {i : Instr} {g : Group} (hI : s.Issues i g) (hplain : popNames i = [])
include hI hplain

theorem State.matrixGate_waits (hdue : s.roundDue g.core = true ∨ s.engHeld g.core g.ctx .G s.nextId = true)
    (k : State → State) : s.matrixGate i k = (s.stayAll s.cur.path).finish := by
  refine (s.gate_noQueue _ g hI hplain _).trans (if_pos ?_)
  simpa [s.cg_eq g hI.group] using hdue

end

section
variable {s : State} {g : Group} (hdue : s.roundDue g.core = false) (hheld : s.engHeld g.core g.ctx .G s.nextId = false)
  {c : BitVec 2}
include hdue hheld

/-! ### `MZERO` (R373) -/

/-- The tile that is left by an `MZERO` whose P is `p`. -/
def Tile.zeroed (t : Tile) (p : Bool) : Tile :=
  { t with rows := [], rowP := List.replicate 64 p, poison := false, held := false, outlier := none
           m := if t.smx = none then t.m else List.replicate 64 0xFF800000#32
           l := if t.smx = none then t.l else List.replicate 64 0#32 }

theorem exec_mzero (hI : s.Issues (.mzero c) g) (htile : ((s.core g.core).tile c.toNat).due = false) :
    exec (.mzero c) s = .next (s.updTile g.core c.toNat fun _ =>
      ((s.core g.core).tile c.toNat).zeroed (g.ambientAny s.cur.mask)).finish := by
  refine (congrArg Host.Outcome.next (State.matrixGate_open hI rfl hdue hheld _)).trans ?_
  simp only [s.cg_eq g hI.group, htile, Bool.false_eq_true, if_false, Tile.zeroed]
  cases hsmx : ((s.core g.core).tile c.toNat).smx <;> rfl

/-! ### `MCFG` (R374) -/

/-- The tile that is left by an `MCFG` with the mode `smx`. -/
def Tile.configured (smx : Option (Nat × Nat)) (t : Tile) : Tile :=
  { t with smx := smx, m := List.replicate 64 0xFF800000#32, l := List.replicate 64 0#32
           held := false, nanblk := 0, ufblk := 0 }

section
variable {a : Code} {m : BitVec 4} {u : State} {v : Vals} (hI : s.Issues (.mcfg a c m) g) (hplain : popNames (.mcfg a c m) = [])
  (hread : s.readOps s.cur.gid (s.cur.mask.headD 0) (operands (.mcfg a c m)) Vals.zero = (u, .ok v))
include hI hplain hread

theorem exec_mcfg_refused (hbad : BadColumns m.toNat v.a.lo.toNat) :
    exec (.mcfg a c m) s = .next (u.trapAll u.cur.mask 0x01 0).finish := by
  refine (congrArg Host.Outcome.next (State.matrixGate_open hI hplain hdue hheld _)).trans ?_
  simp only [hread, u32_eq_lo, if_pos (badColumns_iff.2 hbad)]

theorem exec_mcfg_selects (hgood : ¬ BadColumns m.toNat v.a.lo.toNat) (hcg : u.cg = g)
    (hplainTile : ((u.core g.core).tile c.toNat).smx = none) : exec (.mcfg a c m) s =
      .next (u.updTile g.core c.toNat
        (Tile.configured (if m.toNat % 4 = 1 then some (m.toNat / 4, v.a.lo.toNat) else none))).finish := by
  refine (congrArg Host.Outcome.next (State.matrixGate_open hI hplain hdue hheld _)).trans ?_
  simp only [hread, u32_eq_lo, if_neg (mt badColumns_iff.1 hgood), hcg, hplainTile]
  rfl

end

/-! ### `MOL` (R372) -/

theorem exec_mol {a : Code} {u : State} {v : Vals} (hI : s.Issues (.mol a c) g) (hplain : popNames (.mol a c) = [])
    (hread : s.readOps s.cur.gid (s.cur.mask.headD 0) (operands (.mol a c)) Vals.zero = (u, .ok v)) (hcg : u.cg = g) :
    exec (.mol a c) s =
      .next (u.updTile g.core c.toNat fun t => { t with outlier := some v.a.lo.toNat }).finish := by
  refine (congrArg Host.Outcome.next (State.matrixGate_open hI hplain hdue hheld _)).trans ?_
  simp only [hread, hcg, u32_eq_lo]

/-! ### `MSTAT` (R386) -/

theorem exec_mstat {d : Code} {r : BitVec 1} (hI : s.Issues (.mstat d c r) g) (hd : d.toNat < 112 ∨ d = 120#7) :
    exec (.mstat d c r) s =
      let u := (s.turns (.mstat d c r)).foldl (State.mstatTurn d ((s.core g.core).tile c.toNat).stat) s
      .next (if r = 1#1 then u.updTile u.cg.core c.toNat Tile.uncounted else u).finish := by
  refine (congrArg Host.Outcome.next (State.matrixGate_open hI (popNames_mstat d c r) hdue hheld _)).trans ?_
  rw [s.cg_eq g hI.group]
  exact congrArg (fun u : State => Host.Outcome.next (if r = 1#1 then u.updTile u.cg.core c.toNat Tile.uncounted else u).finish)
    (congrArg (List.foldl · s (s.turns (.mstat d c r))) (funext₂ (State.mstatTurn_eq hd _)))

end

/-! ### The statement -/

/-- Settles O43: each command goes through the gate of the engine, and then does what it says to its tile. -/
theorem tileCommands : Obligations.TileCommands := by
  intro s g c _ k t
  refine ⟨fun i hform hI hplain hdue => ?waits, fun hdue hheld => ⟨exec_mzero hdue hheld,
    fun a m u v hI hplain hread hcg => ⟨exec_mcfg_refused hdue hheld hI hplain hread,
      fun hgood => exec_mcfg_selects hdue hheld hI hplain hread hgood hcg⟩,
    fun a u v => exec_mol hdue hheld, fun d r => exec_mstat hdue hheld⟩⟩
  case waits =>
    rcases hform with rfl | ⟨a, m, rfl⟩ | ⟨a, rfl⟩ | ⟨d, r, rfl⟩ <;>
      exact congrArg Host.Outcome.next (State.matrixGate_waits hI hplain hdue _)

end Sys2Proof.Machine
end

section
/-! SUPPORT. Gathers and blocks (R366, R370, R387): the rows that `GATH` reads into a latch, and the turn of a thread at `CVTB`. -/

namespace Sys2Proof.Machine
open Sys2Proof

/-! ### `GATH` (R366, R370) -/

/-- Row `n` of a gather with the base `a`, the pitch `b` and the scale base `d`. -/
def State.gathRow (w : Who) (fa a b d : Nat) (mx : Bool) (m : BitVec 2) :
    State → Nat → State × Except MFail LRow := fun s n =>
  if m.toNat / 2 = 1 then s.tensorRow w (if m.toNat % 2 = 1 then .W else .A) fa a n
  else s.plainRow w (if m.toNat % 2 = 1 then .W else .A) fa a b d mx n

/-- The latch of the rows `rs`, whose indices are `ix` and whose other operands have the P `p`. -/
def State.gathLatch (s : State) (fa : Nat) (mx : BitVec 1) (ix : List Reg) (p : Bool) (rs : List LRow) : Latch :=
  ⟨rs.map LRow.bytes, rs.map LRow.scales, rowBytes fa, mx = 1#1,
    rs.any LRow.p || ix.any Reg.p || p || s.cg.ambientAny s.cur.mask, rs.any LRow.poison⟩

section
variable {s : State} {k : Nat} {ix : List Reg} (hix : (List.range 64).map (s.indexReg k) = ix.map some)
include hix

/-- Every index of the gather can be read. -/
theorem State.indexReg_isSome {r : Nat} (hr : r < 64) : (s.indexReg k r).isNone = false := by
  have hmem : s.indexReg k r ∈ ix.map some := hix ▸ List.mem_map_of_mem (List.mem_range.2 hr)
  obtain ⟨x, -, hx⟩ := List.mem_map.1 hmem
  rw [← hx]
  rfl

theorem State.indexes_read {mask : List Nat} (hmask : ∀ t ∈ mask, t < 16) :
    (mask.filter fun t => (List.range 4).any fun j => (s.indexReg k (4 * t + j)).isNone) = [] := by
  refine List.filter_eq_nil_iff.2 fun t ht => ?_
  rw [Bool.not_eq_true, List.any_eq_false]
  intro j hj
  have ht := hmask t ht
  have hj := List.mem_range.1 hj
  rw [State.indexReg_isSome hix (by omega)]
  exact Bool.false_ne_true

end

theorem map_some_getD (ix : List Reg) : (ix.map some).map (fun r => r.getD Reg.zero) = ix := by
  simp [Function.comp_def]

/-- How a gather ends by what reading its rows gives: it stays, its fault is recorded, or its latch is filled. -/
def State.gathEnds (w : Who) (gid lat fa : Nat) (mx : BitVec 1) (ix : List Reg) (p : Bool) :
    State × Except MFail (List LRow) → State
  | (s, .error .waits) => (s.matrixEnd w).stayAll s.cur.mask
  | (s, .error (.fault code addr)) => (s.matrixEnd w).defer gid s.cur.mask code addr
  | (s, .ok rs) => (s.matrixEnd w).updCore s.cg.core fun k => { k with latches := k.latches.set lat (s.gathLatch fa mx ix p rs) }

theorem exec_gath {s u : State} {g : Group} {d a b c : Code} {lat : BitVec 1} {fa : BitVec 4} {mx : BitVec 1} {m : BitVec 2}
    {v : Vals} {ix : List Reg} (hI : s.Issues (.gath d a b c lat fa mx m) g)
    (hplain : popNames (.gath d a b c lat fa mx m) = []) (hdue : s.roundDue g.core = false)
    (hheld : s.engHeld g.core g.ctx .G s.nextId = false)
    (hix : (List.range 64).map (s.indexReg c.toNat) = ix.map some)
    (hread : s.readOps s.cur.gid (s.cur.mask.headD 0)
      ((operands (.gath d a b c lat fa mx m)).filter fun o => o.fld ≠ .C) Vals.zero = (u, .ok v)) :
    exec (.gath d a b c lat fa mx m) s = .next (State.gathEnds (u.matrixWho s.cur.gid) s.cur.gid lat.toNat fa.toNat mx ix v.p
      (u.latchRows (State.gathRow (u.matrixWho s.cur.gid) fa.toNat v.a.lo.toNat v.b.lo.toNat v.d.lo.toNat (mx = 1#1) m)
        (ix.map fun r => r.v.toNat))).finish := by
  refine (congrArg Host.Outcome.next (State.matrixGate_open hI hplain hdue hheld _)).trans ?_
  have hmask : ∀ t ∈ s.cur.mask, t < 16 := fun t ht => hI.tids t (hI.sub t ht)
  simp only [State.indexes_read hix hmask, hread, hix, map_some_getD, u32_eq_lo, List.isEmpty_nil, Bool.not_true,
    Bool.false_eq_true, if_false]
  unfold State.gathRow
  generalize State.latchRows u _ _ = r
  obtain ⟨y, (code | _) | rs⟩ := r
  · rfl
  · rfl
  · rfl

/-! ### One thread at a `CVTB` (R387) -/

/-- The first byte of the codes of a block is at a multiple of this. -/
def blockAlign (fa : BitVec 4) : Nat := if fa = 10#4 then 32 else 16

theorem blockAlign_eq (fa : BitVec 4) : (if fa.toNat = 0xA then 32 else 16) = blockAlign fa := by
  simp [blockAlign, BitVec.toNat_eq]

/-- Outside of stochastic rounding a conversion draws nothing. -/
theorem storeDraws_none {f rm n : Nat} (g : BitVec 32) (hrm : rm ≠ 4) : storeDraws f rm n g = (List.replicate n 0, g) := by
  simp [storeDraws, hrm]

/-- The flags that a block raises. -/
def MxBlock.raised (b : MxBlock) : Nat := b.flags ||| (if b.isNan then 16 else 0) ||| (if b.isUf then 2 else 0)

/-- The block of a thread that has read the bytes `bs`. -/
def State.blockOf (s : State) (fa : BitVec 4) (bs : List Byte) : MxBlock :=
  mxEncode fa.toNat s.cg.ctl.rm (List.replicate 32 0) (unpack 0x8 32 bs)

/-- Both writes of a block are checked before either is made. -/
theorem State.cvtbWrite_done {s u w : State} {a : Who} {tt : List Nat} {d c x kd kc r1 r2 : Nat} {codes : List Byte}
    (hcodes : s.reach a (Acc.write .A d codes.length false) = (u, .ok kd r1))
    (hscale : u.reach a (Acc.write .A c 1 false) = (w, .ok kc r2)) : s.cvtbWrite a tt d c codes x =
      (w.put a (Acc.write .A d codes.length false) kd codes true false true).put a (Acc.write .A c 1 false) kc
        [BitVec.ofNat 8 x] true false true := by
  simp only [State.cvtbWrite, hcodes, hscale]

section
variable {s u : State} {i : Instr} {fa : BitVec 4} {t : Nat} {tt : List Nat} {v : Vals}
  (hread : s.readOps s.cur.gid t (operands i) Vals.zero = (u, .ok v))
include hread

theorem State.cvtbTurn_misaligned (hsrc : v.a.lo.toNat % 4 ≠ 0) :
    s.cvtbTurn i fa.toNat (t, tt) = u.trapAll tt 0x08 v.a.lo.toNat := by
  simp only [State.cvtbTurn, hread, u32_eq_lo, if_pos hsrc]

section
variable (hsrc : v.a.lo.toNat % 4 = 0)
include hsrc

theorem State.cvtbTurn_misplaced (hdst : v.d.lo.toNat % blockAlign fa ≠ 0) :
    s.cvtbTurn i fa.toNat (t, tt) = u.trapAll tt 0x08 v.d.lo.toNat := by
  simp only [State.cvtbTurn, hread, u32_eq_lo, if_neg (not_not_intro hsrc), blockAlign_eq, if_pos hdst]

section
variable {w : State} {bs : List Byte} (hdst : v.d.lo.toNat % blockAlign fa = 0)
  (hblock : u.threadReads (u.who u.cur.gid t) (chunks v.a.lo.toNat 128) = (w, .ok bs)) (hrm : w.cg.ctl.rm ≠ 4)
include hdst hblock hrm

/-- An enabled flag of the block traps `ARITH`. -/
theorem State.cvtbTurn_arith (hflags : (w.blockOf fa bs).raised &&& w.cg.ctl.ten ≠ 0) :
    s.cvtbTurn i fa.toNat (t, tt) = (w.raiseFlags (w.blockOf fa bs).raised).trapAll tt 0x0F 0 := by
  rw [State.readOps_cur _ _ _ _ _ _ _ hread] at hblock
  unfold State.blockOf MxBlock.raised at hflags ⊢
  simp only [State.cvtbTurn, hread, u32_eq_lo, if_neg (not_not_intro hsrc), blockAlign_eq, if_neg (not_not_intro hdst), hblock,
    storeDraws_none _ hrm, fNV, fUF, if_pos hflags]

/-- The block is written, codes before the scale. -/
theorem State.cvtbTurn_mem {x y : State} {kd kc r1 r2 : Nat} (hflags : (w.blockOf fa bs).raised &&& w.cg.ctl.ten = 0) :
    let b := w.blockOf fa bs
    let codes := pack fa.toNat b.codes
    let f := w.raiseFlags b.raised
    let a := f.who u.cur.gid t
    f.reach a (Acc.write .A v.d.lo.toNat codes.length false) = (x, .ok kd r1) →
    x.reach a (Acc.write .A v.c.lo.toNat 1 false) = (y, .ok kc r2) →
    (s.cvtbTurn i fa.toNat (t, tt)).mem =
      ((y.put a (Acc.write .A v.d.lo.toNat codes.length false) kd codes true false true).put a
        (Acc.write .A v.c.lo.toNat 1 false) kc [BitVec.ofNat 8 b.x] true false true).mem := by
  intro b codes f a hcodes hscale
  have hwrite := State.cvtbWrite_done (tt := tt) (x := b.x) hcodes hscale
  simp only [a, f, codes, b, State.readOps_cur _ _ _ _ _ _ _ hread] at hblock hwrite ⊢
  unfold State.blockOf MxBlock.raised at *
  simp only [State.cvtbTurn, hread, u32_eq_lo, if_neg (not_not_intro hsrc), blockAlign_eq, if_neg (not_not_intro hdst), hblock,
    storeDraws_none _ hrm, fNV, fUF, if_neg (not_not_intro hflags), hwrite]
  rw [apply_ite State.mem, State.updThr_mem, ite_self]

end
end
end

/-! ### The statement -/

/-- Settles O44: the rows of a gather fill its latch or fault, and a block's turn checks, encodes and writes in the order of the
clauses. -/
theorem gathersAndBlocks : Obligations.GathersAndBlocks := by
  refine ⟨fun s s1 g d a b c lat fa mx m v ix hI hplain hdue hheld hix hread => ?gather, fun s g d a c fa hI hplain => ?block⟩
  case gather =>
    have hexec := exec_gath hI hplain hdue hheld hix hread
    refine ⟨fun s2 rs hrows => ?fills, fun s2 code addr hrows => ?faults⟩
    all_goals
      change s1.latchRows (State.gathRow (s1.matrixWho s.cur.gid) fa.toNat v.a.lo.toNat v.b.lo.toNat v.d.lo.toNat
        (mx = 1#1) m) (ix.map fun r => r.v.toNat) = _ at hrows
      rw [hexec, hrows]
      rfl
  case block =>
    refine ⟨fun u x => u.cvtbTurn (.cvtb d a c fa) fa.toNat x, congrArg Host.Outcome.next (s.gate_noQueue _ g hI hplain _),
      fun s1 s2 t tt v hread => ⟨State.cvtbTurn_misaligned hread, State.cvtbTurn_misplaced hread,
        fun s3 s4 s5 bs kd kc r1 r2 hsrc hdst hblock hrm => ⟨State.cvtbTurn_arith hread hsrc hdst hblock hrm,
          State.cvtbTurn_mem hread hsrc hdst hblock hrm⟩⟩⟩

end Sys2Proof.Machine
end

section
/-! SUPPORT. What the accumulation of a matrix operation leaves in its tile (R214, R216, R217, R371). -/

namespace Sys2Proof.Machine
open Sys2Proof

/-! ### Rows of a tile whose first columns are replaced -/

section
variable (t : Tile) (ws : Nat → List Word) {r k : Nat}

theorem Tile.setRow_same (xs : List Word) (hr : r < 64) :
    (t.setRow r xs).rows.getD r [] = xs ++ (t.rows.getD r []).drop xs.length := by
  simp [Tile.setRow, hr]

theorem Tile.setRow_ne (xs : List Word) (hk : k < 64) (hne : r ≠ k) :
    (t.setRow r xs).rows.getD k [] = t.rows.getD k [] := by
  simp [Tile.setRow, hk, hne]

/-- The rows `0` to `n - 1` take the words `ws` in their first columns. -/
def Tile.setRows (n : Nat) : Tile := (List.range n).foldl (fun u r => u.setRow r (ws r)) t

theorem Tile.setRows_succ (n : Nat) : t.setRows ws (n + 1) = (t.setRows ws n).setRow n (ws n) := by
  simp [Tile.setRows, List.range_succ]

/-- Nothing but the rows changes. -/
theorem Tile.setRows_frame (n : Nat) : t.setRows ws n = { t with rows := (t.setRows ws n).rows } := by
  induction n with
  | zero => rfl
  | succ n ih =>
    rw [Tile.setRows_succ, ih]
    rfl

/-- A row that no write has reached stands. -/
theorem Tile.setRows_later (hk : k < 64) {n : Nat} (hn : n ≤ k) :
    (t.setRows ws n).rows.getD k [] = t.rows.getD k [] := by
  induction n with
  | zero => rfl
  | succ n ih => rw [Tile.setRows_succ, Tile.setRow_ne _ _ hk (by omega), ih (by omega)]

/-- A row takes its words once, over what it held before. -/
theorem Tile.setRows_row (hk : k < 64) {n : Nat} (hn : k < n) :
    (t.setRows ws n).rows.getD k [] = ws k ++ (t.rows.getD k []).drop (ws k).length := by
  induction n with
  | zero => omega
  | succ n ih =>
    rw [Tile.setRows_succ]
    by_cases hlast : n = k
    · subst hlast
      rw [Tile.setRow_same _ _ hk, Tile.setRows_later t ws hk (Nat.le_refl n)]
    · rw [Tile.setRow_ne _ _ hk hlast, ih (by omega)]

end

/-! ### The new elements of a tile (R371) -/

section
variable (t : Tile) (nbv fa n : Nat) (z : Bool) (a b : List (List MEl)) (o : Outliers) (aP : Nat → Bool) (p poison : Bool)

/-- Element (r, c) of an operation whose accumulators are FP32 words. -/
def Tile.newElem (r c : Nat) : Nat :=
  dotElem nbv fp32 (fa = 8) (pairsAt (a.getD r []) b o r c) (if z then 0 else t.at_ r c)

/-- The words of row r. -/
def Tile.newRow (r : Nat) : List Word := (List.range n).map fun c => BitVec.ofNat 32 (t.newElem nbv fa z a b o r c)

theorem Tile.newRow_length (r : Nat) : (t.newRow nbv fa n z a b o r).length = n := by simp [Tile.newRow]

variable {t nbv fa n z a b o aP p poison}

theorem Tile.accumulate_rows (hfa : fa ≠ 9) : t.accumulate nbv fa n z a b o aP p poison =
    { t.setRows (t.newRow nbv fa n z a b o) 64 with
      rowP := (List.range 64).map (fun r => aP r || p || (!z && t.rowP.getD r false))
      poison := t.poison || poison, outlier := none, due := true } := by
  simp [Tile.accumulate, Tile.setRows, Tile.newRow, Tile.newElem, Tile.old, rowWords, hfa, Function.comp_def]

variable {r c : Nat} (hfa : fa ≠ 9) (hr : r < 64)
include hfa hr

theorem Tile.accumulate_row : (t.accumulate nbv fa n z a b o aP p poison).rows.getD r [] =
    t.newRow nbv fa n z a b o r ++ (t.rows.getD r []).drop n := by
  rw [Tile.accumulate_rows hfa]
  refine (t.setRows_row _ hr hr).trans ?_
  rw [Tile.newRow_length]

theorem Tile.accumulate_new (hc : c < n) : (t.accumulate nbv fa n z a b o aP p poison).at_ r c =
    t.newElem nbv fa z a b o r c % 2 ^ 32 := by
  rw [Tile.at_, Tile.accumulate_row hfa hr, List.getD_append _ _ _ _ (by simpa [Tile.newRow_length] using hc)]
  simp [Tile.newRow, hc]

theorem Tile.accumulate_old (hc : n ≤ c) : (t.accumulate nbv fa n z a b o aP p poison).at_ r c = t.at_ r c := by
  rw [Tile.at_, Tile.accumulate_row hfa hr,
    List.getD_append_right _ _ _ _ (by simpa [Tile.newRow_length] using hc), Tile.newRow_length]
  simp [Tile.at_, Nat.add_sub_cancel' hc]

theorem Tile.accumulate_rowP : (t.accumulate nbv fa n z a b o aP p poison).rowP.getD r false =
    (aP r || p || (!z && t.rowP.getD r false)) := by
  rw [Tile.accumulate_rows hfa]
  simp [hr]

end

/-! ### The sum of an element (R214, R216) -/

/-- R214: one rounding of an exact sum, where no tree and no chain is asked for. -/
theorem dotElem_exact {nbv : Nat} (h : nbv ≠ 1) (ps : List (MEl × MEl)) (old : Nat) : dotElem nbv fp32 false ps old =
    fp32.ne (exactSum ((ps.map fun q => q.1.mul nbv q.2) ++ [fp32.value old])) := by
  rw [dotElem, if_neg Bool.false_ne_true]
  exact if_neg h

/-- R216: a chain of fused products takes its first step from the old value. -/
theorem dotElem_fused_cons (nbv : Nat) (q : MEl × MEl) (ps : List (MEl × MEl)) (old : Nat) :
    dotElem nbv fp32 true (q :: ps) old =
      dotElem nbv fp32 true ps (fp32.ne (fvFma 0 q.1.value q.2.value (fp32.value old)).1) := rfl

/-- Settles O46: the operation replaces the first columns of its 64 rows, each once, and sets the fields around them. -/
theorem accumulation : Obligations.Accumulation := by
  intro t nbv fa n z a b o aP p poison hfa _ u
  have hframe : u = { t with
      rows := (t.setRows (t.newRow nbv fa n z a b o) 64).rows
      rowP := (List.range 64).map (fun r => aP r || p || (!z && t.rowP.getD r false))
      poison := t.poison || poison, outlier := none, due := true } := by
    refine (Tile.accumulate_rows hfa).trans ?_
    rw [t.setRows_frame]
  refine ⟨fun r c => Tile.accumulate_new hfa, fun r c => Tile.accumulate_old hfa, fun r => Tile.accumulate_rowP hfa,
    rfl, rfl, rfl, ?_, ?_, ?_, ?_, fun ps old h => dotElem_exact h ps old, dotElem_fused_cons nbv⟩
  all_goals rw [hframe]

end Sys2Proof.Machine
end

section
/-! SUPPORT. Drains (R234, R235, R377, R378): the turn of a thread at an `MDRN`, what a drain reads before it writes, and the check
that lets the drains of a tile go on. -/

namespace Sys2Proof.Machine
open Sys2Proof

/-! ### One thread at an `MDRN` (R329, R377) -/

theorem Checked.cg_core {s u : State} (h : Checked s u) : u.cg.core = s.cg.core := by
  have hgroup : u.cg.unwatched = s.cg.unwatched := by
    unfold State.cg State.grp
    rw [← kget_unwatched, ← kget_unwatched, h.groups, h.cur]
  have hcore := congrArg Group.core hgroup
  exact hcore

theorem State.readOps_core {s u : State} {gid t : Nat} {os : List Operand} {v : Vals} {r : Except Rd Vals}
    (h : s.readOps gid t os v = (u, r)) : s.cg.core = u.cg.core := by
  have hcore := (s.readOps_checked gid t os v).cg_core
  rw [h] at hcore
  exact hcore.symm

/-- The drain of a thread at its issue: it waits for the check of its tile. -/
def State.drainCmd (s : State) (t tile : Nat) (v : Vals) (p : Bool) : Cmd :=
  let x := s.cmdOf t ⟨[], .G, .mdrn tile, some (.global, v.c.toNat), none⟩ none p
  { x with waits := if ((s.core s.cg.core).tile tile).due then [x.id] else [] }

section
variable {s u : State} {i : Instr} {tile m t : Nat} {tt : List Nat} {v : Vals}
  (hread : s.readOps s.cur.gid t (operands i) Vals.zero = (u, .ok v))
include hread

theorem State.mdrnTurn_misaligned (hdesc : v.a.lo.toNat % 64 ≠ 0) :
    s.mdrnTurn i tile m (t, tt) = u.trapAll tt 0x08 v.a.lo.toNat := by
  simp only [State.mdrnTurn, hread, u32_eq_lo, if_pos hdesc]

section
variable (hdesc : v.a.lo.toNat % 64 = 0)
include hdesc

theorem State.mdrnTurn_misplaced (hword : v.c.toNat % 4 ≠ 0) :
    s.mdrnTurn i tile m (t, tt) = u.trapAll tt 0x08 v.c.toNat := by
  simp only [State.mdrnTurn, hread, u32_eq_lo, if_neg (not_not_intro hdesc), if_pos hword]

section
variable (hword : v.c.toNat % 4 = 0)
include hword

theorem State.mdrnTurn_waits (hdrain : (u.core u.cg.core).draining = true) :
    s.mdrnTurn i tile m (t, tt) = u.stayAll tt := by
  simp only [State.mdrnTurn, hread, u32_eq_lo, if_neg (not_not_intro hdesc), if_neg (not_not_intro hword),
    State.readOps_core hread, if_pos hdrain]

section
variable {w : State} {dp : Bool} (hdrain : (u.core u.cg.core).draining = false)
include hdrain

/-- A descriptor that cannot be read ends the drain. -/
theorem State.mdrnTurn_unread {n : Nat}
    (hdrained : u.drainDesc ((u.drainCmd t tile v (v.p || u.ambient tt)).who u.cg.core) v.a.lo.toNat = (w, dp, .error (.code n))) :
    s.mdrnTurn i tile m (t, tt) = w.issueCmd tt { u.drainCmd t tile v (v.p || u.ambient tt) with
      p := v.p || u.ambient tt || dp, stage := 3, code := n } := by
  simp only [State.drainCmd, State.cmdOf, Cmd.who] at hdrained ⊢
  simp only [State.mdrnTurn, hread, u32_eq_lo, if_neg (not_not_intro hdesc), if_neg (not_not_intro hword),
    State.readOps_core hread, hdrain, Bool.false_eq_true, if_false, State.cmd0, Cmd.who, hdrained]

section
variable {y : State} {bs : List Byte}
  (hdrained : u.drainDesc ((u.drainCmd t tile v (v.p || u.ambient tt)).who u.cg.core) v.a.lo.toNat = (w, dp, .ok bs))
include hdrained

/-- A drain that has nothing to write ends with a code. -/
theorem State.mdrnTurn_refused {n : Nat}
    (hplan : w.drainPlan ((u.drainCmd t tile v (v.p || u.ambient tt)).who u.cg.core) tile m bs dp (v.p || u.ambient tt) =
      (y, .error (.code n))) :
    s.mdrnTurn i tile m (t, tt) = y.issueCmd tt { u.drainCmd t tile v (v.p || u.ambient tt) with
      p := v.p || u.ambient tt || dp, stage := 3, code := n } := by
  simp only [State.drainCmd, State.cmdOf, Cmd.who] at hdrained hplan ⊢
  simp only [State.mdrnTurn, hread, u32_eq_lo, if_neg (not_not_intro hdesc), if_neg (not_not_intro hword),
    State.readOps_core hread, hdrain, Bool.false_eq_true, if_false, State.cmd0, Cmd.who, hdrained, hplan]

/-- A drain takes its data where it issues. -/
theorem State.mdrnTurn_takes {ws after : List CWrite} {nan uf : Nat}
    (hplan : w.drainPlan ((u.drainCmd t tile v (v.p || u.ambient tt)).who u.cg.core) tile m bs dp (v.p || u.ambient tt) =
      (y, .ok (ws, after, nan, uf))) :
    s.mdrnTurn i tile m (t, tt) = (y.updTile u.cg.core tile fun x =>
      { x with nanblk := min (x.nanblk + nan) 0xFFF, ufblk := min (x.ufblk + uf) 0xFFF }).issueCmd tt
        { u.drainCmd t tile v (v.p || u.ambient tt) with
          p := v.p || u.ambient tt || dp, stage := 2, writes := ws, after := after } := by
  simp only [State.drainCmd, State.cmdOf, Cmd.who] at hdrained hplan ⊢
  simp only [State.mdrnTurn, hread, u32_eq_lo, if_neg (not_not_intro hdesc), if_neg (not_not_intro hword),
    State.readOps_core hread, hdrain, Bool.false_eq_true, if_false, State.cmd0, Cmd.who, hdrained, hplan, satBlk]

end
end
end
end
end

/-! ### What a drain reads (R331, R377, R378) -/

theorem State.drainDesc_ok {s u w : State} {x : Who} {desc : Nat} {b b' : List Byte} {p p' : Bool}
    (hlow : s.engRead x .A desc 32 = (u, .ok b p)) (hhigh : u.engRead x .A (desc + 32) 32 = (w, .ok b' p')) :
    s.drainDesc x desc = (w, p || p', .ok (b ++ b')) := by
  simp only [State.drainDesc, hlow, hhigh]

section
variable {s : State} {w : Who} {tile m : Nat} {bs : List Byte} (dp p : Bool)

theorem State.drainPlan_bad
    (hbad : ((Drain.read m bs).ok bs ((s.core w.core).tile tile).smx.isSome && (Drain.read m bs).fits) = false) :
    s.drainPlan w tile m bs dp p = (s, .error (.code 0x13)) :=
  if_pos (by rw [hbad]; rfl)

theorem State.drainPlan_poisoned
    (hgood : ((Drain.read m bs).ok bs ((s.core w.core).tile tile).smx.isSome && (Drain.read m bs).fits) = true)
    (hpoison : ((s.core w.core).tile tile).poison = true) : s.drainPlan w tile m bs dp p = (s, .error (.code 0x10)) :=
  (if_neg (by simp [hgood])).trans (if_pos hpoison)

end

/-! ### The check of a tile (R234) -/

/-- A drain whose tile's check has passed goes on. -/
def State.drainGoes (s : State) (core : Nat) (c : Cmd) : State := s.updCmd core c.id fun x => { x with waits := [] }

section
variable (s : State) (core : Nat) (cs : List Cmd)

theorem State.drainsGo_mem : (cs.foldl (State.drainGoes · core ·) s).mem = s.mem :=
  foldl_keeps (fun u : State => u.mem = s.mem) (State.drainGoes · core ·) (fun _ _ h => h) cs s rfl

theorem State.drainsGo_groups : (cs.foldl (State.drainGoes · core ·) s).groups = s.groups :=
  foldl_keeps (fun u : State => u.groups = s.groups) (State.drainGoes · core ·) (fun _ _ h => h) cs s rfl

theorem State.drainsGo_tiles : ((cs.foldl (State.drainGoes · core ·) s).core core).tiles = (s.core core).tiles :=
  foldl_keeps (fun u : State => (u.core core).tiles = (s.core core).tiles) (State.drainGoes · core ·)
    (fun u c h => by rw [State.drainGoes, State.updCmd, State.updCore_core]; exact h) cs s rfl

/-- A command that still waits was a command before, and none of those that go on. -/
theorem State.mem_drainsGo {c : Cmd} (hwaits : c.waits ≠ [])
    (hc : c ∈ ((cs.foldl (State.drainGoes · core ·) s).core core).cmds) :
    c ∈ (s.core core).cmds ∧ ∀ x ∈ cs, x.id ≠ c.id := by
  induction cs generalizing s with
  | nil => exact ⟨hc, by simp⟩
  | cons x xs ih =>
    obtain ⟨hmem, hxs⟩ := ih _ hc
    have hcmds : ((s.drainGoes core x).core core).cmds =
        (s.core core).cmds.map fun y => if y.id = x.id then { y with waits := [] } else y := by
      rw [State.drainGoes, State.updCmd, State.updCore_core]
    rw [hcmds, List.mem_map] at hmem
    obtain ⟨y, hy, hyc⟩ := hmem
    by_cases hid : y.id = x.id
    · rw [if_pos hid] at hyc
      exact absurd (congrArg Cmd.waits hyc).symm hwaits
    · rw [if_neg hid] at hyc
      subst hyc
      exact ⟨hy, List.forall_mem_cons.2 ⟨fun h => hid h.symm, hxs⟩⟩

end

theorem drainsBegun_cmds (written : Nat) (cs : List Cmd) : (drainsBegun written cs).map Prod.fst = cs := by
  cases cs <;> simp [drainsBegun, Function.comp_def]

/-- R234: a check that passes lets every drain of its tile go on. -/
theorem exec_matrixCheck_passes {s : State} {core tile : Nat} (written : Nat) (hdue : ((s.core core).tile tile).due = true) :
    exec (.matrixCheck core tile true written) s =
      .next ((((s.core core).cmds.filter fun c => c.drains tile).foldl (State.drainGoes · core ·)
        (s.updTile core tile fun t => { t with due := false })).tick) := by
  change execMatrixCheck core tile true written s = _
  have hcmds : ((s.updTile core tile fun t => { t with due := false }).core core).cmds = (s.core core).cmds := by
    rw [State.updTile, State.updCore_core]
  rw [execMatrixCheck, if_neg (by simp [hdue])]
  simp only [hcmds, Bool.not_true, Bool.false_and, Bool.false_eq_true, if_false]
  conv_rhs => rw [← drainsBegun_cmds written ((s.core core).cmds.filter fun c => c.drains tile), List.foldl_map]
  rfl

theorem exec_mdrn {s : State} {g : Group} {a c : Code} {tile : BitVec 2} {m : BitVec 4} (hI : s.Issues (.mdrn a c tile m) g)
    (hplain : popNames (.mdrn a c tile m) = []) (hdue : s.roundDue g.core = false)
    (hheld : s.engHeld g.core g.ctx .G s.nextId = false) : exec (.mdrn a c tile m) s =
      .next ((s.turns (.mdrn a c tile m)).foldl (fun u x => u.mdrnTurn (.mdrn a c tile m) tile.toNat m.toNat x) s).finish :=
  congrArg Host.Outcome.next (State.matrixGate_open hI hplain hdue hheld _)

/-! ### The statement -/

/-- Settles O47: a turn's checks and reads stand in the order of the clauses, and after a check that passes no command of the tile
waits. -/
theorem drains : Obligations.Drains := by
  refine ⟨fun s g a c tile m hI hplain hdue hheld => ⟨_, exec_mdrn hI hplain hdue hheld, fun s1 s2 t tt v hread => ?issue⟩,
    fun s s2 s3 w desc b b' p p' => State.drainDesc_ok, fun s w tile m bs dp p =>
      ⟨State.drainPlan_bad dp p, State.drainPlan_poisoned dp p⟩, fun s core tile written hdue => ?check⟩
  case issue =>
    refine ⟨State.mdrnTurn_misaligned hread, State.mdrnTurn_misplaced hread, State.mdrnTurn_waits hread,
      fun hdesc hword hdrain s3 dp r hdrained => ⟨?_, ?_⟩⟩
    · rintro n rfl
      exact State.mdrnTurn_unread hread hdesc hword hdrain hdrained
    · rintro bs rfl
      exact ⟨fun s4 n => State.mdrnTurn_refused hread hdesc hword hdrain hdrained,
        fun s4 ws after nan uf => State.mdrnTurn_takes hread hdesc hword hdrain hdrained⟩
  case check =>
    refine ⟨_, exec_matrixCheck_passes written hdue, State.drainsGo_mem .., State.drainsGo_groups .., fun _ htile =>
      ⟨?_, fun c hc hkind _ => ?_⟩⟩
    · rw [State.core, State.tick_cores, ← State.core, Core.tile, State.drainsGo_tiles, State.updTile, State.updCore_core]
      simp [htile]
    · by_contra hwaits
      obtain ⟨hmem, hnone⟩ := State.mem_drainsGo _ core _ hwaits hc
      rw [State.updTile, State.updCore_core] at hmem
      refine hnone c (List.mem_filter.2 ⟨hmem, ?_⟩) rfl
      simp [Cmd.drains, Cmd.unchecked, hkind, hwaits]

end Sys2Proof.Machine
end

section
/-! SUPPORT. A register instruction in every operand form (R122, R134, R141, R265). -/

namespace Sys2Proof.Machine
open Sys2Proof

theorem exec_anyRow {s : State} {i : Instr} {r : AluRow} (h : anyRow i = some r) :
    exec i s = .next (s.alu i r.kind r.ps none r.f) := by
  simp only [anyRow, Option.or_eq_some_iff] at h
  obtain (((hrow | ⟨-, hrow⟩) | ⟨-, hrow⟩) | ⟨-, hrow⟩) | ⟨-, hrow⟩ := h
  · exact exec_intRow hrow
  · exact exec_pairIntRow hrow
  · exact exec_fltRow hrow
  · exact exec_specialRow hrow
  · exact exec_wideRow hrow

/-! ### One turn, by the step at which it ends -/

section
variable {s1 s2 s3 : State} {i : Instr} {kind : Option Nat} {ps : List Nat} {f : Env → Vals → Ans} {t : Nat} {tt : List Nat}
  {v : Vals} {d : Dst} {e : Rd}

theorem State.aluTurn_unread (hread : s1.readOps s1.cur.gid t (operands i) Vals.zero = (s2, .error e)) :
    s1.aluTurn i kind ps none f (t, tt) = s2.failRd tt e := by
  rw [State.aluTurn, hread]

variable (hread : s1.readOps s1.cur.gid t (operands i) Vals.zero = (s2, .ok v))
include hread

theorem State.aluTurn_noDst (hdst : s2.dstReady s2.cur.gid t i = (s3, .error e)) :
    s1.aluTurn i kind ps none f (t, tt) = s3.failRd tt e := by
  rw [State.aluTurn, hread]
  dsimp only
  rw [hdst]

variable (hdst : s2.dstReady s2.cur.gid t i = (s3, .ok d))
include hdst

theorem State.aluTurn_write : s1.aluTurn i kind ps none f (t, tt) = s3.aluWrite kind ps none f (t, tt) v d := by
  rw [State.aluTurn, hread]
  dsimp only
  rw [hdst]

theorem State.aluTurn_arith
    (hflag : ((s3.grp s3.cur.gid).opOf ps f v t).fl &&& (s3.grp s3.cur.gid).ctl.ten ≠ 0) :
    s1.aluTurn i kind ps none f (t, tt) =
      ((s3.raiseFlags ((s3.grp s3.cur.gid).opOf ps f v t).fl).unnote s3.cur.gid t d).trapAll tt 0x0F 0 := by
  rw [State.aluTurn_write hread hdst, State.aluWrite]
  rw [Group.opOf_eq] at hflag ⊢
  exact if_pos hflag

theorem State.aluTurn_writes
    (hflag : ((s3.grp s3.cur.gid).opOf ps f v t).fl &&& (s3.grp s3.cur.gid).ctl.ten = 0) :
    s1.aluTurn i kind ps none f (t, tt) =
      ((s3.raiseFlags ((s3.grp s3.cur.gid).opOf ps f v t).fl).updThr s3.cur.gid t fun x =>
        x.drew ((s3.grp s3.cur.gid).opOf ps f v t).gen).writeDst s3.cur.gid t d
          ((s3.grp s3.cur.gid).opOf ps f v t).v ((s3.grp s3.cur.gid).opP ps f v t tt) kind := by
  rw [State.aluTurn_write hread hdst, State.aluWrite, Group.opP_eq]
  rw [Group.opOf_eq] at hflag ⊢
  exact if_neg (not_not.2 hflag)

end

/-- Settles O8: the instruction is the ALU operation of its row, whose turns end at their first step that does not pass. -/
theorem everyOperandForm : Obligations.EveryOperandForm := by
  intro i r s g hrow hI hready
  refine ⟨fun s u => s.aluTurn i r.kind r.ps none r.f u, ?_, fun s1 s2 s3 t tt v d =>
    ⟨fun e => State.aluTurn_unread, fun hread => ⟨fun e => State.aluTurn_noDst hread, fun hdst => ?_⟩⟩⟩
  · rw [exec_anyRow hrow, State.alu, s.gate_ready i g hI hready]
  · exact ⟨State.aluTurn_arith hread hdst, State.aluTurn_writes hread hdst⟩

end Sys2Proof.Machine
end

section
/-! SUPPORT. The exchange instructions (R124, R279 to R282). -/

namespace Sys2Proof.Machine
open Sys2Proof

/-! ### What they form from the entries -/

theorem voteOf_eq (m : Nat) (es : List Reg) (act : List Nat) : voteOf m es act =
    let yes := act.filter fun k => (es.getD k Reg.zero).v ≠ 0#32
    let p := act.any fun k => (es.getD k Reg.zero).p
    match m with
    | 0 => ⟨if yes = [] then 0 else 1, 0, p⟩
    | 1 => ⟨if yes = act then 1 else 0, 0, p⟩
    | 2 => ⟨maskOf yes, 0, p⟩
    | _ => ⟨yes.length, 0, p⟩ := by
  match m with
  | 0 => simp only [voteOf, List.isEmpty_iff]
  | 1 => simp only [voteOf, List.filter_eq_self, List.length_filter_eq_length_iff]
  | 2 => rfl
  | _ + 3 => rfl

section
variable {s : State} {i : Instr} {f : List Reg → List Nat → Nat → Vals → Form1}

/-- An exchange forms its results by any function that agrees with its own. -/
theorem exec_exchange {f' : List Reg → List Nat → Nat → Vals → Form1} (hexec : exec i s = .next (s.exchange i f'))
    (hf : ∀ es act t v, f' es act t v = f es act t v) : exec i s = .next (s.exchange i f) := by
  obtain rfl : f' = f := by
    funext es act t v
    exact hf es act t v
  exact hexec

theorem exec_exchForm (h : exchForm i = some f) : exec i s = .next (s.exchange i f) := by
  cases i with
  | xchg =>
    cases h
    exact exec_exchange rfl fun es act t v => by rw [u32_eq_lo]; rfl
  | xbcast =>
    cases h
    exact exec_exchange rfl fun es act t v => by rw [u32_eq_lo]; rfl
  | xscan | xred => cases h; rfl
  | vote =>
    cases h
    exact exec_exchange rfl fun es act t v => voteOf_eq ..
  | _ => cases h

end

/-! ### The deposit -/

/-- Every entry set to one value, in a buffer of sixteen. -/
theorem foldl_set_range (es : List Reg) (h : es.length = 16) (r : Reg) :
    (List.range 16).foldl (fun es t => es.set t r) es = List.replicate 16 r := by
  match es, h with
  | [_, _, _, _, _, _, _, _, _, _, _, _, _, _, _, _], _ => rfl

theorem State.deposit_uniform {s u : State} {i : Instr} {o : Operand} {t : Nat} {ts : List Nat} {v : DWord} {p : Bool}
    (huniform : isUniform i = true) (hread : s.readOp s.cur.gid t o = (u, .ok v p)) :
    s.deposit i o (t :: ts) = (u, List.replicate 16 ⟨v.lo, p⟩) := by
  have hturn : turnsOf i (t :: ts) = [(t, t :: ts)] := if_pos huniform
  simp only [State.deposit, hturn, List.foldl_cons, List.foldl_nil, hread, huniform, if_true]
  exact congrArg _ (foldl_set_range _ (by rw [List.length_map, List.length_range]) _)

/-! ### A turn of the read sweep -/

/-- The checks of a destination change nothing that `Checked` names. -/
theorem State.dstOp_checked (s : State) (gid t : Nat) (o : Operand) : Checked s (s.dstOp gid t o).1 := by
  unfold State.dstOp
  dsimp only
  split
  · exact .refl s
  split
  · split
    · exact .refl s
    split
    all_goals next e => exact (congrArg (fun r => Checked s r.1) e).mp (s.reach_checked ..)
  · exact .refl s

theorem State.dstReady_cur {s u : State} {gid t : Nat} {i : Instr} {r : Except Rd Dst} (h : s.dstReady gid t i = (u, r)) :
    u.cur = s.cur := by
  unfold State.dstReady at h
  split at h
  next o _ => exact (congrArg (fun x => x.1.cur) h).symm.trans (s.dstOp_checked gid t o).cur
  next => cases h; rfl

section
variable {s1 s2 s3 : State} {i : Instr} {f : Nat → Vals → Form1} {t : Nat} {tt : List Nat} {v : Vals} {d : Dst}

/-- The turn of threads that have not ended the instruction at the deposit, once B is read and the destination is ready. -/
theorem State.exTurn_ready (hne : tt ≠ []) (hgo : ∀ u ∈ tt, s1.trapped u = false ∧ s1.violated u = false
      ∧ s1.sweep.stays.contains u = false)
    (hread : s1.readOps s1.cur.gid t ((operands i).filter fun o => o.fld = .B) Vals.zero = (s2, .ok v))
    (hdst : s2.dstReady s2.cur.gid t i = (s3, .ok d)) :
    s1.exTurn i ((operands i).filter fun o => o.fld = .B) f (t, tt) =
      if (f t v).fl &&& (s3.grp s3.cur.gid).ctl.ten ≠ 0 then
        ((s3.raiseFlags (f t v).fl).unnote s3.cur.gid t d).trapAll tt 0x0F 0
      else (s3.raiseFlags (f t v).fl).writeDst s3.cur.gid t d (BitVec.ofNat 64 (f t v).v)
        ((f t v).p || v.p || s3.ambient tt) (some 4) := by
  obtain ⟨u, hu⟩ := List.exists_mem_of_ne_nil tt hne
  obtain ⟨htrap, hviol, -⟩ := hgo u hu
  have htrapped : tt.all s1.trapped = false := List.all_eq_false.2 ⟨u, hu, ne_true_of_eq_false htrap⟩
  have hviolated : tt.all s1.violated = false := List.all_eq_false.2 ⟨u, hu, ne_true_of_eq_false hviol⟩
  have hstays : tt.any s1.sweep.stays.contains = false := List.any_eq_false.2 fun w hw => by
    obtain ⟨-, -, hstay⟩ := hgo w hw
    exact ne_true_of_eq_false hstay
  have hgid : s1.cur.gid = s2.cur.gid := (State.readOps_gid hread).symm
  have hgid' : s2.cur.gid = s3.cur.gid := by rw [State.dstReady_cur hdst]
  simp only [State.exTurn, htrapped, hviolated, hstays, hread]
  rw [State.dstReady] at hdst
  rw [hgid, hdst, hgid']
  rfl

end

/-- Settles O10: an instruction of the table is the exchange with its results, whose deposit and turns end as the operands are
read. -/
theorem exchangeResults : Obligations.ExchangeResults := by
  intro i f o s g hform hI hqueue hA
  refine ⟨fun es w u => w.exTurn i ((operands i).filter fun o => o.fld = .B) (f es s.exActive) u, ?_,
    fun es s1 s2 s3 t tt v d hne hgo hread hdst => ?_, fun t ts u v p huniform hact hread => ?_⟩
  · rw [exec_exchForm hform, State.exchange, s.gate_noQueue i g hI hqueue]
    simp only [hA]
  · have hturn := State.exTurn_ready (f := f es s.exActive) hne hgo hread hdst
    exact ⟨fun hflag => hturn.trans (if_pos hflag), fun hflag => hturn.trans (if_neg (not_not.2 hflag))⟩
  · rw [hact]
    exact State.deposit_uniform huniform hread
end Sys2Proof.Machine
end

section
/-! SUPPORT. The end of a sweep without traps (R114, R181, R207, R242). -/

namespace Sys2Proof.Machine
open Sys2Proof

/-! ### What its threads become -/

section
variable {x : Thread} {c : Cur} {moved : List Nat} {now t : Nat}

theorem Thread.after_moved (h : moved.contains t = true) :
    x.after c moved now t = { x with popped := [], replay := false, stays := false, done := false, last := now } := if_pos h

theorem Thread.after_advance (h : moved.contains t = false) :
    x.after c moved now t = { x.advance c with popped := [], replay := false, stays := false, done := false, last := now } :=
  if_neg (ne_true_of_eq_false h)

theorem Thread.advance_noLoop (h : x.loop = none) :
    x.advance c = { x with pos := if c.pos.k < c.n then ⟨c.pos.hdr, c.pos.k + 1⟩ else ⟨c.nextHdr, 0⟩ } := by
  unfold Thread.advance
  rw [h]
  split
  · rfl
  · rfl

end

/-- The state after a sweep that changed nothing outside its group but the passing of time. -/
theorem State.sameOutside_sweepOver (s : State) (h : Group) : SameOutside s { s with
    dev := s.linkOver.dev
    groups := kset s.groups s.cur.gid h
    sweep := Sweep.reset
    now := s.now + 1
    free := s.free + 1 } where
  dev := rfl
  parts := rfl
  queues := rfl
  flog := rfl
  flogSeq := rfl
  logovf := rfl
  launches := rfl
  helds := rfl
  mem := rfl
  tlb := rfl
  ivs := rfl
  groups := fun _ hk => kfind_kset_ne _ _ _ _ hk
  cores := rfl
  colls := rfl
  agenda := rfl
  cur := rfl
  sweep := rfl
  time := ⟨rfl, rfl, rfl⟩

/-- Settles O11: a sweep of which nothing trapped, violated, was held or stays ends clean, which moves the threads of its path
on. -/
theorem sweepEnds : Obligations.SweepEnds := by
  intro s g hg hsize htraps hviols hholds hloads hstays hnodup hpath hlive hfreeze
  have hclean : s.sweep.Clean := ⟨htraps, hviols, hholds, hstays, hloads⟩
  obtain ⟨out, going, hfinish⟩ := s.finish_clean g hg hclean hsize hnodup hpath hlive hfreeze
  obtain ⟨hkept, hgs, hpend, hctl, -, hthr⟩ := g.swept_facts s.cur s.now s.sweep out going hsize hnodup hpath
  rw [hfinish]
  refine ⟨_, kfind_kset_self .., hkept, hctl, hpend, hgs, State.sameOutside_sweepOver { s with ivs := s.sweep.ivs ++ s.ivs } _,
    fun t => ⟨fun hout => ?_, fun hin hmoved => ?_, fun hin hmoved => ?_, Thread.advance_noLoop⟩⟩
  · rw [hthr, if_neg hout]
  · rw [hthr, if_pos hin, Thread.after_moved hmoved]
  · rw [hthr, if_pos hin, Thread.after_advance hmoved]

end Sys2Proof.Machine
end

section
/-! SUPPORT. Traps without a handler (R144, R290). -/

namespace Sys2Proof.Machine
open Sys2Proof

/-! ### The threads end -/

section
variable {l : List Nat} {g : Group} {t : Nat}

theorem Group.endThread_length (g : Group) (t : Nat) : (g.endThread t).threads.length = g.threads.length := by
  simp [Group.endThread, Group.updThr_length]

theorem Group.endThread_thr (ht : t < g.threads.length) : (g.endThread t).thr t = (g.thr t).over :=
  Group.updThr_thr g t Thread.over ht

theorem Group.endThread_thr_ne (g : Group) {t u : Nat} (hu : u ≠ t) : (g.endThread t).thr u = g.thr u :=
  Group.updThr_thr_ne g t u Thread.over hu

/-- A thread at its end is ended again as it stands. -/
theorem Thread.over_over (x : Thread) : x.over.over = x.over := rfl

theorem Group.foldEnd_lid (l : List Nat) (g : Group) : (l.foldl Group.endThread g).lid = g.lid :=
  foldl_keeps (fun h : Group => h.lid = g.lid) Group.endThread (fun _ _ h => h) l g rfl

theorem Group.foldEnd_thr_of_lt (h : ∀ u ∈ l, u < g.threads.length) (u : Nat) :
    (l.foldl Group.endThread g).thr u = if u ∈ l then (g.thr u).over else g.thr u := by
  induction l generalizing g with
  | nil => rfl
  | cons t l ih =>
    rw [List.foldl_cons, ih fun w hw => by rw [Group.endThread_length]; exact h w (List.mem_cons_of_mem _ hw)]
    by_cases hu : u = t
    · subst hu
      rw [Group.endThread_thr (h u List.mem_cons_self), Thread.over_over, ite_self, if_pos List.mem_cons_self]
    · simp only [Group.endThread_thr_ne g hu, List.mem_cons, hu, false_or]

end

/-! ### The group and its launch -/

section
variable {s : State} {gid : Nat} {g : Group} {tids : List Nat}

theorem State.takeTrap_unhandled {code addr epc hdr : Nat} {sysc : Bool} (hg : kfind s.groups gid = some g)
    (h : g.ctl.trapvec.n = 0 ∨ g.ctl.inh = true) : s.takeTrap gid tids code addr epc hdr sysc = s.trapEnds gid tids := by
  rw [State.takeTrap, s.grp_of_kfind gid g hg]
  exact if_pos (by simpa using h)

theorem State.trapEnds_mem (s : State) (gid : Nat) (tids : List Nat) : (s.trapEnds gid tids).mem = s.mem :=
  State.updGrp_mem ..

variable (hg : kfind s.groups gid = some g)
include hg

theorem State.trapEnds_grp : (s.trapEnds gid tids).grp gid = tids.foldl Group.endThread g :=
  (s.dropRefs gid tids).updGrp_grp gid _ g hg

theorem State.trapEnds_launch {l : Launch} (hl : s.launch? g.lid = some l) :
    (s.trapEnds gid tids).launch? g.lid = some { l with fault := true, trapped := l.trapped + tids.length } := by
  have hlid : (((s.dropRefs gid tids).threadsOver gid tids).grp gid).lid = g.lid :=
    (congrArg Group.lid ((s.dropRefs gid tids).updGrp_grp gid _ g hg)).trans (Group.foldEnd_lid tids g)
  have hlaunch : ((s.dropRefs gid tids).threadsOver gid tids).launch? g.lid = some l :=
    (congrArg (List.find? fun l : Launch => l.lid = g.lid) (State.updGrp_launches ..)).trans hl
  rw [State.trapEnds, State.countTrapped, hlid]
  refine (State.updLaunch_launch? _ _ _ ?_).trans ?_
  · exact fun _ => rfl
  · exact Option.map_eq_some_iff.2 ⟨l, hlaunch, rfl⟩

end

/-- Settles O14: without a handler, or inside it, a trap is the end of its threads, whose launch counts each of them. -/
theorem trapsWithoutHandler : Obligations.TrapsWithoutHandler := by
  intro s gid g tids code addr epc hdr sysc hg hsize htids hhandler
  have hthr : ∀ t, (s.trapEnds gid tids).thr gid t = if t ∈ tids then (g.thr t).over else g.thr t := fun t => by
    rw [State.thr, State.trapEnds_grp hg, Group.foldEnd_thr_of_lt fun u hu => hsize ▸ htids u hu]
  rw [State.takeTrap_unhandled hg hhandler]
  refine ⟨fun t ht => ?_, fun t ht => ?_, fun l hl => State.trapEnds_launch hg hl, s.trapEnds_mem gid tids⟩
  · rw [hthr, if_pos ht]
    exact ⟨rfl, rfl, rfl⟩
  · rw [hthr, if_neg ht]

end Sys2Proof.Machine
end

section
/-! SUPPORT. The return from a trap (R144, R287, R296). -/

namespace Sys2Proof.Machine
open Sys2Proof

/-! ### Where ERET resumes -/

section
variable {g : Group} {h : Nat} {ws : List Word}

/-- EPC as a header. -/
def Group.epcHdr (g : Group) : Pos := ⟨g.ctl.epc.n / 4 * 4, 0⟩

theorem Group.epcPos_noClause (hhdr : g.trapHdr = none) : g.epcPos = g.epcHdr := by
  rw [Group.epcPos, hhdr]
  rfl

theorem Group.epcPos_dropped (hhdr : g.trapHdr = some h) (hnone : kfind g.clauses h = none) : g.epcPos = g.epcHdr := by
  simp [Group.epcPos, hhdr, hnone, Group.epcHdr]

theorem Group.epcPos_inClause {k : Nat} (hhdr : g.trapHdr = some h) (hws : kfind g.clauses h = some ws)
    (hk : findInstr ws h (g.ctl.epc.n / 4 * 4) = some k) : g.epcPos = ⟨h, k⟩ := by
  simp [Group.epcPos, hhdr, hws, hk]

theorem Group.epcPos_outside (hhdr : g.trapHdr = some h) (hws : kfind g.clauses h = some ws)
    (hnone : findInstr ws h (g.ctl.epc.n / 4 * 4) = none) : g.epcPos = g.epcHdr := by
  simp [Group.epcPos, hhdr, hws, hnone, Group.epcHdr]

end

/-! ### The thread that it resumes -/

section
variable {x : Thread} {pos : Pos}

theorem Thread.eret_fields (x : Thread) (pos : Pos) : x.eret pos = { x with
    pos := (x.eret pos).pos, loop := (x.eret pos).loop, saved := none, gact := x.savedGact, gp := x.savedGp
    gbp := x.savedGbp, held := false, replay := false, ldNo := none, stays := false, popped := [], owed := none } := rfl

theorem Thread.eret_loop {l : LoopSt} (h : x.saved = some l) :
    (x.eret pos).loop = if l.body ≤ pos.hdr ∧ pos.hdr < l.stop then some l else none := by
  simp [Thread.eret, h]

theorem Thread.eret_noLoop (h : x.saved = none) : (x.eret pos).loop = none := by
  simp [Thread.eret, h]

end

/-! ### The group -/

/-- The threads that ERET resumes: those of TMASK.TRAP that still live. -/
def Group.eretTids (g : Group) : List Nat := (tidsOf (g.ctl.tmask.n % 2 ^ 16)).filter fun t => (g.thr t).life = .live

/-- The group that has returned from its handler, before its threads resume. -/
def Group.returned (g : Group) : Group :=
  { g with
    ctl := { g.ctl with tcause := CReg.of (g.ctl.tcause.n % 2 ^ 31) }, trapHdr := none
    parks := g.parks.map fun r => { r with mask := r.mask.filter fun t => !g.eretTids.contains t } }

theorem Group.eret_eq (g : Group) :
    g.eret = g.eretTids.foldl (fun h t => h.updThr t fun x => x.eret g.epcPos) g.returned := rfl

theorem Group.mem_eretTids {g : Group} {t : Nat} :
    t ∈ g.eretTids ↔ t < 16 ∧ g.ctl.tmask.n / 2 ^ t % 2 = 1 ∧ (g.thr t).life = .live := by
  have hbit (h : t < 16) : (g.ctl.tmask.n % 2 ^ 16).testBit t = true ↔ g.ctl.tmask.n / 2 ^ t % 2 = 1 := by
    rw [Nat.testBit_mod_two_pow, decide_eq_true h, Bool.true_and, Nat.testBit_eq_decide_div_mod_eq, decide_eq_true_eq]
  rw [Group.eretTids, List.mem_filter, mem_tidsOf, decide_eq_true_eq, and_assoc]
  exact and_congr_right fun h => and_congr_left fun _ => hbit h

theorem Group.eretTids_nodup (g : Group) : g.eretTids.Nodup := (List.nodup_range.filter _).filter _

theorem Group.eret_fields (g : Group) (hsize : g.threads.length = 16) :
    ∃ ts, g.eret = g.returned.withThreads ts ∧ ∀ t ∈ g.eretTids, g.eret.thr t = (g.thr t).eret g.epcPos := by
  have hlt : ∀ t ∈ g.eretTids, t < g.returned.threads.length := fun t ht =>
    Nat.lt_of_lt_of_eq (Group.mem_eretTids.1 ht).1 hsize.symm
  obtain ⟨ts, hfold, -, hthr⟩ := Group.foldThr (fun _ x => x.eret g.epcPos) g.eretTids g.returned g.eretTids_nodup hlt
  refine ⟨ts, g.eret_eq.trans hfold, fun t ht => ?_⟩
  rw [g.eret_eq, hfold, hthr, if_pos ht]
  rfl

/-- No park of the group holds a thread that has returned. -/
theorem Group.returned_parks {g : Group} {t : Nat} (ht : t ∈ g.eretTids) : ∀ r ∈ g.returned.parks, t ∉ r.mask := by
  intro r hr hmem
  obtain ⟨q, -, rfl⟩ := List.mem_map.1 hr
  simpa [ht] using (List.mem_filter.1 hmem).2

/-! ### The instruction -/

section
variable {s : State} {g : Group} (hI : s.Issues .eret g)
include hI

theorem exec_eret_outside (h : g.ctl.inh = false) : exec .eret s = .next (s.trapAll s.cur.mask 0x01 0).finish := by
  refine congrArg Host.Outcome.next ((s.gate_noQueue .eret g hI rfl _).trans ?_)
  rw [s.cg_eq g hI.group]
  exact if_pos (by rw [h]; rfl)

theorem exec_eret_returns (h : g.ctl.inh = true) :
    exec .eret s = .next ((s.updGrp s.cur.gid Group.eret).movedAll s.cur.path).endTurn.finish := by
  refine congrArg Host.Outcome.next ((s.gate_noQueue .eret g hI rfl _).trans ?_)
  rw [s.cg_eq g hI.group]
  exact if_neg (by rw [h]; decide)

end

/-- Settles O17: ERET is refused outside a handler, and inside it each thread of TMASK.TRAP that lives resumes at EPC's place. -/
theorem returnFromTrap : Obligations.ReturnFromTrap := by
  intro s g hI
  obtain ⟨ts, hgroup, hthr⟩ := g.eret_fields hI.size
  refine ⟨exec_eret_outside hI, exec_eret_returns hI, congrArg Group.ctl hgroup, fun t hlt hbit hlive => ?_⟩
  have ht : t ∈ g.eretTids := Group.mem_eretTids.2 ⟨hlt, hbit, hlive⟩
  simp only [hthr t ht]
  refine ⟨Thread.eret_fields .., Group.epcPos_noClause, fun h => Group.epcPos_dropped,
    fun h ws hhdr hws => ⟨fun k => Group.epcPos_inClause hhdr hws, Group.epcPos_outside hhdr hws⟩,
    fun l => Thread.eret_loop, Thread.eret_noLoop, ?_⟩
  rw [hgroup]
  exact Group.returned_parks ht

end Sys2Proof.Machine
end

section
/-! SUPPORT. The end of a sweep in which threads trapped (R144, R295). -/

namespace Sys2Proof.Machine
open Sys2Proof

/-! ### Groups whose threads are updated by the entries of a list -/

/-- The updates of the threads that the entries of a list name, each once, by what its entry holds. -/
theorem Group.foldEntries {α : Type} (F : α → Thread → Thread) (es : List (Nat × α)) (g : Group)
    (hn : (es.map Prod.fst).Nodup) (hl : ∀ e ∈ es, e.1 < g.threads.length) :
    ∃ ts, es.foldl (fun g e => g.updThr e.1 (F e.2)) g = g.withThreads ts ∧ ts.length = g.threads.length
      ∧ (∀ e ∈ es, (g.withThreads ts).thr e.1 = F e.2 (g.thr e.1))
      ∧ ∀ u, (∀ e ∈ es, e.1 ≠ u) → (g.withThreads ts).thr u = g.thr u := by
  induction es generalizing g with
  | nil => exact ⟨g.threads, rfl, rfl, fun _ he => (List.not_mem_nil he).elim, fun _ _ => rfl⟩
  | cons e es ih =>
    obtain ⟨hfirst, hrest⟩ := List.nodup_cons.1 hn
    have hne : ∀ d ∈ es, d.1 ≠ e.1 := fun d hd heq => hfirst (heq ▸ List.mem_map_of_mem hd)
    obtain ⟨ts, hfold, hlen, hin, hout⟩ := ih (g.updThr e.1 (F e.2)) hrest fun d hd => by
      rw [Group.updThr_length]
      exact hl d (List.mem_cons_of_mem _ hd)
    refine ⟨ts, hfold, hlen.trans (Group.updThr_length ..), fun d hd => ?_, fun u hu => ?_⟩
    · obtain rfl | hd := List.mem_cons.1 hd
      · exact (hout d.1 hne).trans (Group.updThr_thr g d.1 _ (hl d List.mem_cons_self))
      · exact (hin d hd).trans (by rw [Group.updThr_thr_ne g e.1 d.1 _ (hne d hd)])
    · exact (hout u fun d hd => hu d (List.mem_cons_of_mem _ hd)).trans
        (Group.updThr_thr_ne g e.1 u _ (hu e List.mem_cons_self).symm)

/-! ### The threads of the path -/

/-- A thread that trapped stays at its instruction (R144). -/
def Thread.stopped (x : Thread) (now : Nat) : Thread :=
  { x with popped := [], replay := false, stays := false, last := now }

section
variable {s : State} {t : Nat} {x : Thread} (hholds : s.sweep.holds = []) (hstays : s.sweep.stays = [])
include hholds hstays

theorem State.moved_trapped (htrap : s.trapped t = true) : s.moved t x = x.stopped s.now := by
  simp only [State.moved, hholds, hstays, List.contains_nil, Bool.false_eq_true, if_false, htrap, Bool.true_or, if_true,
    Thread.stopped]

theorem State.moved_goes (htrap : s.trapped t = false) (hviols : s.sweep.viols = []) (hhome : s.cg.kind ≠ .pitcher) :
    s.moved t x = x.after s.cur s.sweep.moved s.now t := by
  simp only [State.moved, hholds, hstays, List.contains_nil, Bool.false_eq_true, if_false, htrap, State.violated, hviols,
    List.any_nil, Bool.or_self, State.stalls, hhome, decide_false, Bool.false_and, Thread.after]

end

theorem State.setGrp_kfind (s : State) (gid : Nat) (g : Group) : kfind (s.setGrp gid g).groups gid = some g := kfind_kset_self ..

theorem State.setGrp_setGrp (s : State) (gid : Nat) (g h : Group) : (s.setGrp gid g).setGrp gid h = s.setGrp gid h :=
  congrArg (fun gs => { s with groups := gs }) (kset_kset ..)

theorem State.updGrp_setGrp {s : State} {gid : Nat} {g : Group} (hg : kfind s.groups gid = some g) (f : Group → Group) :
    s.updGrp gid f = s.setGrp gid (f g) := s.updGrp_eq gid f g hg

/-- A group with other threads, whose sweep has raised flags. -/
def Group.raised (g : Group) (ts : List Thread) (fl : Nat) : Group := { g.withThreads ts with ctl := g.ctl.raise fl }

/-- The threads of the path, as the sweep leaves each, and the flags that it raised. -/
theorem State.moveOn_threads {s : State} {g : Group} (hg : kfind s.groups s.cur.gid = some g) (hsize : g.threads.length = 16)
    (hnodup : s.cur.path.Nodup) (hpath : ∀ t ∈ s.cur.path, t < 16) (hloads : s.sweep.loads = []) :
    ∃ ts, ts.length = 16
      ∧ s.moveOn = s.setGrp s.cur.gid (g.raised ts s.sweep.flags)
      ∧ ∀ t, (g.withThreads ts).thr t = if t ∈ s.cur.path then s.moved t (g.thr t) else g.thr t := by
  obtain ⟨ts, hfold, hlen, hthr⟩ := Group.foldThr s.moved s.cur.path g hnodup fun t ht => hsize ▸ hpath t ht
  refine ⟨ts, hlen.trans hsize, ?_, hthr⟩
  rw [State.moveOn, State.updGrp_setGrp hg]
  simp only [hfold, hloads, List.isEmpty_nil, Bool.true_or, if_true]
  rfl

/-! ### The trap that is taken (R144) -/

/-- The threads that trapped with a code. -/
def Sweep.tookTids (w : Sweep) (code : Nat) : List Nat :=
  (List.range 16).filter fun t => w.traps.any fun e => e.1 = t && e.2.1 = code

/-- The address that the lowest thread of a code reports. -/
def Sweep.trapAddr (w : Sweep) (code : Nat) : Nat :=
  match (w.tookTids code).head? with
  | some t => (((w.traps.filter fun e => e.2.1 = code).find? fun e => e.1 = t).map fun e => e.2.2).getD 0
  | none => 0

/-- The traps of the other codes whose cause is used up (log entry 79). -/
def Sweep.owes (w : Sweep) (code : Nat) : List (Nat × Nat × Nat) :=
  (w.traps.filter fun e => w.firm.contains e.1).filter fun e => !(w.tookTids code).contains e.1

section
variable {w : Sweep} {code : Nat}

theorem Sweep.mem_tookTids {t : Nat} (hlt : t < 16) :
    t ∈ w.tookTids code ↔ (w.traps.any fun e => e.1 = t && e.2.1 = code) = true := by
  rw [Sweep.tookTids, List.mem_filter, List.mem_range]
  exact and_iff_right hlt

/-- A thread of the lowest code is named by an entry with it. -/
theorem Sweep.took_entry {t : Nat} (ht : t ∈ w.tookTids code) : ∃ e ∈ w.traps, e.1 = t ∧ e.2.1 = code := by
  simpa using List.any_eq_true.1 (List.mem_filter.1 ht).2

theorem Sweep.tookTids_eq : w.tookTids code =
    (List.range 16).filter fun t => (w.traps.filter fun e => e.2.1 = code).any fun e => e.1 = t := by
  simp only [Sweep.tookTids, List.any_filter, Bool.and_comm]

/-- Of the entries of a list that name each thread once, the one that names a thread is found. -/
theorem find?_entry {α : Type} {l : List (Nat × α)} (hn : (l.map Prod.fst).Nodup) {e : Nat × α} (he : e ∈ l) :
    l.find? (fun d => d.1 = e.1) = some e := by
  have hsome : (l.find? fun d => d.1 = e.1).isSome = true := List.find?_isSome.2 ⟨e, he, decide_eq_true rfl⟩
  obtain ⟨d, hd⟩ := Option.isSome_iff_exists.1 hsome
  have hfirst : d.1 = e.1 := by simpa using List.find?_some hd
  rw [hd, List.inj_on_of_nodup_map hn (List.mem_of_find?_eq_some hd) he hfirst]

/-- TADDR is that of the lowest thread of the code. -/
theorem Sweep.trapAddr_lowest {t a : Nat} (hmem : (t, code, a) ∈ w.traps) (hn : (w.traps.map Prod.fst).Nodup) (hlt : t < 16)
    (hlow : ∀ u, (w.traps.any fun e => e.1 = u && e.2.1 = code) = true → t ≤ u) : w.trapAddr code = a := by
  have htook : (w.traps.any fun e => e.1 = t && e.2.1 = code) = true := List.any_eq_true.2 ⟨_, hmem, by simp⟩
  have hhead : (w.tookTids code).head? = some t := by
    refine List.head?_filter.trans (List.find?_range_eq_some.2 ⟨htook, List.mem_range.2 hlt, fun u hu => ?_⟩)
    exact Bool.not_eq_true' _ ▸ Bool.eq_false_iff.2 fun h => absurd (hlow u h) (Nat.not_le.2 hu)
  have hcode : (t, code, a) ∈ w.traps.filter fun e => e.2.1 = code := List.mem_filter.2 ⟨hmem, decide_eq_true rfl⟩
  have hfind := find?_entry (hn.sublist (List.filter_sublist.map _)) hcode
  rw [Sweep.trapAddr, hhead]
  simp only [hfind, Option.map_some, Option.getD_some]

/-- Every thread that is owed a trap is owed that of its own entry. -/
theorem Sweep.mem_owes {e : Nat × Nat × Nat} : e ∈ w.owes code ↔
    e ∈ w.traps ∧ w.firm.contains e.1 = true ∧ e.1 ∉ w.tookTids code := by
  simp only [Sweep.owes, List.mem_filter, Bool.not_eq_true', List.contains_eq_mem, decide_eq_false_iff_not, and_assoc]

theorem Sweep.owes_nodup (hn : (w.traps.map Prod.fst).Nodup) : ((w.owes code).map Prod.fst).Nodup :=
  hn.sublist ((List.filter_sublist.trans List.filter_sublist).map _)

end

/-- The lowest code of the sweep is taken, and the used-up traps of the others are owed. -/
theorem State.trapsTaken_home {s : State} {code : Nat} (hhome : s.cg.kind ≠ .pitcher) (hinh : s.cg.ctl.inh = false)
    (hmin : (s.sweep.traps.map fun e => e.2.1).min? = some code) :
    s.trapsTaken = (s.oweTraps (s.sweep.owes code)).takeTrap s.cur.gid (s.sweep.tookTids code) code (s.sweep.trapAddr code)
      s.cur.iaddr s.cur.pos.hdr (s.sweep.sysc && code = 0x0E) := by
  have hnow : s.sweep.traps.filter (fun e => s.cg.mayTrap e.1) = s.sweep.traps :=
    List.filter_eq_self.2 fun e _ => by rw [Group.mayTrap, hinh]; rfl
  simp only [State.trapsTaken, hnow, hmin, hhome, if_false, Sweep.owes, Sweep.trapAddr, Sweep.tookTids_eq]
    <;> rfl

/-! ### The handler is entered -/

/-- A thread that is owed a trap at its next issue (log entry 79). -/
def Thread.owes (x : Thread) (e : Nat × Nat) : Thread := { x with owed := some e }

/-- A thread that enters the handler: its loop and its guard are saved (R144, R287). -/
def Thread.enters (x : Thread) (target : Nat) : Thread :=
  { x with
    pos := ⟨target, 0⟩, saved := x.loop, loop := none, savedGp := x.gp, savedGbp := x.gbp, savedGact := x.gact }

/-- The control registers of a group whose handler is entered. -/
def Ctl.caught (c : Ctl) (tids : List Nat) (code addr epc : Nat) : Ctl :=
  { c with
    epc := CReg.of epc, taddr := CReg.of addr, tcause := CReg.of (2 ^ 31 + code)
    tmask := CReg.of (c.tmask.n / 2 ^ 16 * 2 ^ 16 + maskOf tids) }

/-- A group whose handler is entered, with other threads. -/
def Group.caught (g : Group) (ts : List Thread) (tids : List Nat) (code addr epc hdr : Nat) : Group :=
  { g.withThreads ts with ctl := g.ctl.caught tids code addr epc, trapHdr := some hdr }

/-- Where the handler starts: past TRAPVEC for SYSC's own trap (R295). -/
def Ctl.handler (c : Ctl) (sysc : Bool) : Nat := (c.trapvec.n + if sysc then 64 else 0) % 2 ^ 64

section
variable {g : Group} {tids : List Nat} {code addr epc hdr : Nat} {sysc : Bool}

theorem Group.enterTrap_fields (hn : tids.Nodup) (hl : ∀ t ∈ tids, t < g.threads.length) :
    ∃ ts, ts.length = g.threads.length
      ∧ g.enterTrap tids code addr epc hdr sysc = g.caught ts tids code addr epc hdr
      ∧ ∀ t, (g.withThreads ts).thr t = if t ∈ tids then (g.thr t).enters (g.ctl.handler sysc) else g.thr t := by
  obtain ⟨ts, hfold, hlen, hthr⟩ := Group.foldThr (fun _ x => x.enters (g.ctl.handler sysc)) tids
    { g with ctl := g.ctl.caught tids code addr epc, trapHdr := some hdr } hn hl
  exact ⟨ts, hlen, hfold, hthr⟩

theorem State.takeTrap_handled {s : State} {gid : Nat} (hg : kfind s.groups gid = some g) (hvec : g.ctl.trapvec.n ≠ 0)
    (hinh : g.ctl.inh = false) : s.takeTrap gid tids code addr epc hdr sysc =
      s.setGrp gid (g.enterTrap tids code addr epc hdr sysc) := by
  rw [State.takeTrap, s.grp_of_kfind gid g hg]
  refine (if_neg ?_).trans (State.updGrp_setGrp hg _)
  simp [hvec, hinh]

theorem State.oweTraps_eq {s : State} (hg : kfind s.groups s.cur.gid = some g) (es : List (Nat × Nat × Nat)) :
    s.oweTraps es = s.setGrp s.cur.gid (es.foldl (fun g e => g.updThr e.1 fun x => x.owes e.2) g) := State.updGrp_setGrp hg _

end

/-- What a thread is owed after the sweep, where its own trap is not taken and is used up. -/
def Sweep.owedAfter (w : Sweep) (code t : Nat) (x : Thread) : Thread :=
  match (w.owes code).find? fun e => e.1 = t with
  | some e => x.owes e.2
  | none => x

/-- The group once the traps of its sweep are taken: the threads of the lowest code enter its handler. -/
theorem State.trapsTaken_handled {s : State} {g : Group} {code : Nat} (hg : kfind s.groups s.cur.gid = some g)
    (hhome : g.kind ≠ .pitcher) (hsize : g.threads.length = 16) (hvec : g.ctl.trapvec.n ≠ 0) (hinh : g.ctl.inh = false)
    (hleast : (s.sweep.traps.map fun e => e.2.1).min? = some code) (honce : (s.sweep.traps.map Prod.fst).Nodup)
    (hlt : ∀ e ∈ s.sweep.traps, e.1 < 16) :
    ∃ ts, ts.length = 16
      ∧ s.trapsTaken = s.setGrp s.cur.gid (g.caught ts (s.sweep.tookTids code) code (s.sweep.trapAddr code) s.cur.iaddr
          s.cur.pos.hdr)
      ∧ ∀ t, (g.withThreads ts).thr t =
        let x := s.sweep.owedAfter code t (g.thr t)
        if t ∈ s.sweep.tookTids code then x.enters (g.ctl.handler (s.sweep.sysc && code = 0x0E)) else x := by
  obtain ⟨us, howe, hlen, hin, hout⟩ := Group.foldEntries (fun e x => x.owes e) (s.sweep.owes code) g
    (Sweep.owes_nodup honce) fun e he => hsize.symm ▸ hlt e (Sweep.mem_owes.1 he).1
  obtain ⟨vs, hlenv, henter, hthr⟩ := Group.enterTrap_fields (g := g.withThreads us)
    (tids := s.sweep.tookTids code) (code := code) (addr := s.sweep.trapAddr code) (epc := s.cur.iaddr)
    (hdr := s.cur.pos.hdr) (sysc := s.sweep.sysc && code = 0x0E) (List.nodup_range.filter _)
    fun t ht => (hlen.trans hsize).symm ▸ List.mem_range.1 (List.mem_filter.1 ht).1
  refine ⟨vs, hlenv.trans (hlen.trans hsize), ?_, fun t => ?_⟩
  · have hcg := s.cg_eq g hg
    rw [State.trapsTaken_home (hcg.symm ▸ hhome) (hcg.symm ▸ hinh) hleast, State.oweTraps_eq hg, howe]
    refine (State.takeTrap_handled (g := g.withThreads us) (State.setGrp_kfind ..) hvec hinh).trans ?_
    rw [State.setGrp_setGrp, henter]
    rfl
  · have howed : (g.withThreads us).thr t = s.sweep.owedAfter code t (g.thr t) := by
      unfold Sweep.owedAfter
      split
      next e he =>
        obtain rfl : e.1 = t := by simpa using List.find?_some he
        exact hin e (List.mem_of_find?_eq_some he)
      next hnone => exact hout t fun e he => by simpa using List.find?_eq_none.1 hnone e he
    rw [← howed]
    exact hthr t

/-! ### The sweep as a whole -/

/-- A sweep of a home group with a handler that is not in it, in which threads of the path trapped with `code` and with no lower
one, and in which nothing violated, was held or stays. -/
structure State.TrapsAt (s : State) (g : Group) (code : Nat) : Prop where
  group  : kfind s.groups s.cur.gid = some g
  home   : g.kind ≠ .pitcher
  size   : g.threads.length = 16
  nodup  : s.cur.path.Nodup
  path   : ∀ t ∈ s.cur.path, t < 16
  traps  : ∀ e ∈ s.sweep.traps, e.1 ∈ s.cur.path ∧ (g.thr e.1).life = .live ∧ code ≤ e.2.1
  once   : (s.sweep.traps.map Prod.fst).Nodup
  taken  : ∃ e ∈ s.sweep.traps, e.2.1 = code
  viols  : s.sweep.viols = []
  holds  : s.sweep.holds = []
  loads  : s.sweep.loads = []
  stays  : s.sweep.stays = []
  vec    : g.ctl.trapvec.n ≠ 0
  inh    : g.ctl.inh = false
  freeze : g.toFreeze = none

section
variable {s : State} {g : Group} {code : Nat} (h : s.TrapsAt g code)
include h

theorem State.TrapsAt.least : (s.sweep.traps.map fun e => e.2.1).min? = some code := by
  obtain ⟨e, he, rfl⟩ := h.taken
  refine List.min?_eq_some_iff.2 ⟨List.mem_map_of_mem he, fun c hc => ?_⟩
  obtain ⟨d, hd, rfl⟩ := List.mem_map.1 hc
  obtain ⟨-, -, hle⟩ := h.traps d hd
  exact hle

theorem State.TrapsAt.lt {e : Nat × Nat × Nat} (he : e ∈ s.sweep.traps) : e.1 < 16 := h.path e.1 (h.traps e he).1

/-- The group at the end of such a sweep, before it settles. -/
theorem State.TrapsAt.group_taken : ∃ ts, ts.length = 16
    ∧ s.moveOn.trapsTaken = s.setGrp s.cur.gid ((g.raised g.threads s.sweep.flags).caught ts (s.sweep.tookTids code) code
        (s.sweep.trapAddr code) s.cur.iaddr s.cur.pos.hdr)
    ∧ ∀ t, (g.withThreads ts).thr t =
      let x := s.sweep.owedAfter code t (if t ∈ s.cur.path then s.moved t (g.thr t) else g.thr t)
      if t ∈ s.sweep.tookTids code then x.enters (g.ctl.handler (s.sweep.sysc && code = 0x0E)) else x := by
  obtain ⟨ts, hlen, hmove, hthr⟩ := State.moveOn_threads h.group h.size h.nodup h.path h.loads
  obtain ⟨us, hlenu, htaken, hthru⟩ := State.trapsTaken_handled (s := s.setGrp s.cur.gid (g.raised ts s.sweep.flags))
    (State.setGrp_kfind ..) h.home hlen h.vec h.inh h.least h.once fun e he => h.lt he
  refine ⟨us, hlenu, ?_, fun t => ?_⟩
  · rw [hmove]
    exact htaken.trans (State.setGrp_setGrp ..)
  · rw [← hthr t]
    exact hthru t

end

theorem State.violsTaken_none {s : State} (h : s.sweep.viols = []) : s.violsTaken = s := by
  have hnone : ((List.range 16).findSome? fun t => s.sweep.viols.find? fun e => e.1 = t) = none :=
    List.findSome?_eq_none_iff.2 fun t _ => by rw [h]; rfl
  rw [State.violsTaken, hnone]

/-- The end of a sweep of which nothing violated, by the group that its traps leave, of which some thread is live. -/
theorem State.finish_taken {s : State} {g k : Group} (hg : kfind s.groups s.cur.gid = some g)
    (htaken : s.joinIvs.moveOn.trapsTaken = s.joinIvs.setGrp s.cur.gid k) (hviols : s.sweep.viols = [])
    (hfreeze : k.toFreeze = none) (hcore : k.core = g.core) (hlive : ∃ t, t < 16 ∧ (k.thr t).life = .live) :
    ∃ out going, s.finish = { s with
      dev := s.linkOver.dev
      ivs := s.sweep.ivs ++ s.ivs
      groups := kset s.groups s.cur.gid (k.tidyHold.endSweep s.cur s.sweep.yield s.now out going)
      sweep := Sweep.reset
      now := s.now + 1
      free := s.free + 1 } := by
  obtain ⟨out, going, hsettle⟩ := State.settleGroup_eq (s.joinIvs.setGrp s.cur.gid k) k (State.setGrp_kfind ..)
  refine ⟨out, going, ?_⟩
  have hend := hsettle.trans (State.setGrp_setGrp s.joinIvs s.cur.gid k _)
  have hcg : (s.joinIvs.setGrp s.cur.gid (k.tidyHold.endSweep s.cur s.sweep.yield s.now out going)).cg.core = s.cg.core := by
    rw [s.cg_eq g hg, State.cg_eq _ _ (State.setGrp_kfind ..)]
    exact hcore
  have hlinks := State.linkOver_congr s (s.joinIvs.setGrp s.cur.gid (k.tidyHold.endSweep s.cur s.sweep.yield s.now out going))
    rfl rfl hcg rfl rfl
  rw [State.finish, htaken, State.violsTaken_none (s := s.joinIvs.setGrp s.cur.gid k) hviols,
    State.freezeDue_none _ _ k (State.setGrp_kfind ..) hfreeze, hend, State.closeGroup_live, State.linkOver_eq]
  · exact congrArg (fun d => State.sweepOver { s.joinIvs.setGrp s.cur.gid
      (k.tidyHold.endSweep s.cur s.sweep.yield s.now out going) with dev := d }) hlinks
  · obtain ⟨t, ht, hthr⟩ := hlive
    exact ⟨t, ht, (congrArg (fun x : Group => (x.thr t).life) (kget_kset_self ..)).trans hthr⟩

/-- A mask has 16 bits. -/
theorem maskOf_lt (tids : List Nat) : maskOf tids < 2 ^ 16 := by
  have hle : maskOf tids ≤ ((List.range 16).map fun t => 2 ^ t).sum := List.sum_le_sum fun t _ => by
    split
    · exact Nat.le_refl _
    · exact Nat.zero_le _
  exact Nat.lt_of_le_of_lt hle (by decide)

/-- The group at the end of such a sweep (R144). -/
def Group.trapEnd (g : Group) (s : State) (ts : List Thread) (code : Nat) (out : Bool) (going : List Nat) : Group :=
  ((g.raised g.threads s.sweep.flags).caught ts (s.sweep.tookTids code) code (s.sweep.trapAddr code) s.cur.iaddr
    s.cur.pos.hdr).tidyHold.endSweep s.cur s.sweep.yield s.now out going

section
variable (g : Group) (s : State) (ts : List Thread) (code : Nat) (out : Bool) (going : List Nat)

theorem Group.trapEnd_kept : { g with trapHdr := some s.cur.pos.hdr }.Kept (g.trapEnd s ts code out going) := by
  simp only [Group.Kept, Group.trapEnd, Group.tidyHold, Group.endSweep, Group.caught, Group.raised, Group.withThreads]

theorem Group.trapEnd_pend : (g.trapEnd s ts code out going).pend = g.pend := by
  simp only [Group.trapEnd, Group.tidyHold, Group.endSweep, Group.caught, Group.raised, Group.withThreads]

theorem Group.trapEnd_g : (g.trapEnd s ts code out going).g = g.g := by
  simp only [Group.trapEnd, Group.tidyHold, Group.endSweep, Group.caught, Group.raised, Group.withThreads]

theorem Group.trapEnd_ctl : (g.trapEnd s ts code out going).ctl = { (g.ctl.raise s.sweep.flags) with
    epc := CReg.of s.cur.iaddr, taddr := CReg.of (s.sweep.trapAddr code), tcause := CReg.of (2 ^ 31 + code)
    tmask := (g.trapEnd s ts code out going).ctl.tmask } := by
  simp only [Group.trapEnd, Group.tidyHold, Group.endSweep, Group.caught, Group.raised, Ctl.caught]

theorem Group.endSweep_ctl (c : Cur) (yield : Bool) (now : Nat) : (g.endSweep c yield now out going).ctl = g.ctl := rfl

theorem Group.trapEnd_tmask : (g.trapEnd s ts code out going).ctl.tmask.n % 2 ^ 16 = maskOf (s.sweep.tookTids code) := by
  have hlt := maskOf_lt (s.sweep.tookTids code)
  rw [Group.trapEnd, Group.endSweep_ctl, Group.tidyHold_tmask]
  simp only [Group.caught, Ctl.caught, CReg.of_n]
  omega

theorem Group.trapEnd_thr (t : Nat) : (g.trapEnd s ts code out going).thr t = (g.withThreads ts).thr t := by
  simp only [Group.thr, Group.trapEnd, Group.tidyHold, Group.endSweep, Group.caught, Group.raised, Group.withThreads]

end

/-! ### The threads after such a sweep -/

section
variable {w : Sweep} {code t : Nat} {x : Thread}

theorem Sweep.owedAfter_none (h : ∀ e ∈ w.owes code, e.1 ≠ t) : w.owedAfter code t x = x := by
  have hnone : (w.owes code).find? (fun e => e.1 = t) = none := List.find?_eq_none.2 fun e he => by simpa using h e he
  rw [Sweep.owedAfter, hnone]

theorem Sweep.owedAfter_took (h : t ∈ w.tookTids code) : w.owedAfter code t x = x :=
  Sweep.owedAfter_none fun e he heq => by
    obtain ⟨-, -, hout⟩ := Sweep.mem_owes.1 he
    exact hout (heq.symm ▸ h)

theorem Sweep.owedAfter_other {e : Nat × Nat × Nat} (he : e ∈ w.traps) (honce : (w.traps.map Prod.fst).Nodup)
    (hout : e.1 ∉ w.tookTids code) : w.owedAfter code e.1 x = if w.firm.contains e.1 then x.owes e.2 else x := by
  split
  next hfirm =>
    have hfind := find?_entry (Sweep.owes_nodup (code := code) honce) (Sweep.mem_owes.2 ⟨he, hfirm, hout⟩)
    rw [Sweep.owedAfter, hfind]
  next hfirm =>
    refine Sweep.owedAfter_none fun d hd heq => ?_
    obtain ⟨-, hd, -⟩ := Sweep.mem_owes.1 hd
    exact hfirm (heq ▸ hd)

end

section
variable {s : State} {g : Group} {code t : Nat} (h : s.TrapsAt g code)
include h

/-- What such a sweep leaves of a thread (R144). -/
def State.trapThr (s : State) (g : Group) (code t : Nat) : Thread :=
  let x := s.sweep.owedAfter code t (if t ∈ s.cur.path then s.moved t (g.thr t) else g.thr t)
  if t ∈ s.sweep.tookTids code then x.enters (g.ctl.handler (s.sweep.sysc && code = 0x0E)) else x

omit h in
theorem State.not_trapped (ht : s.trapped t = false) : ∀ e ∈ s.sweep.traps, e.1 ≠ t := by
  simpa using List.any_eq_false.1 ht

omit h in
theorem State.trapped_of_mem {e : Nat × Nat × Nat} (he : e ∈ s.sweep.traps) : s.trapped e.1 = true :=
  List.any_eq_true.2 ⟨e, he, decide_eq_true rfl⟩

omit h in
/-- A thread that did not trap is neither taken nor owed a trap. -/
theorem State.trapThr_untrapped (ht : s.trapped t = false) :
    s.trapThr g code t = if t ∈ s.cur.path then s.moved t (g.thr t) else g.thr t := by
  have hnone := State.not_trapped ht
  have hout : t ∉ s.sweep.tookTids code := fun hin => by
    obtain ⟨e, he, heq, -⟩ := Sweep.took_entry hin
    exact hnone e he heq
  rw [State.trapThr, if_neg hout]
  exact Sweep.owedAfter_none fun e he => hnone e (Sweep.mem_owes.1 he).1

theorem State.TrapsAt.stops {e : Nat × Nat × Nat} (he : e ∈ s.sweep.traps) :
    (if e.1 ∈ s.cur.path then s.moved e.1 (g.thr e.1) else g.thr e.1) = (g.thr e.1).stopped s.now := by
  obtain ⟨hin, -, -⟩ := h.traps e he
  rw [if_pos hin, State.moved_trapped h.holds h.stays (State.trapped_of_mem he)]

theorem State.TrapsAt.thr_took {e : Nat × Nat × Nat} (he : e ∈ s.sweep.traps) (hcode : e.2.1 = code) :
    s.trapThr g code e.1 = ((g.thr e.1).stopped s.now).enters (g.ctl.handler (s.sweep.sysc && code = 0x0E)) := by
  have htook : e.1 ∈ s.sweep.tookTids code :=
    (Sweep.mem_tookTids (h.lt he)).2 (List.any_eq_true.2 ⟨e, he, by simp [hcode]⟩)
  rw [State.trapThr, if_pos htook, Sweep.owedAfter_took htook, h.stops he]

theorem State.TrapsAt.thr_other {e : Nat × Nat × Nat} (he : e ∈ s.sweep.traps) (hcode : e.2.1 ≠ code) :
    s.trapThr g code e.1 = if s.sweep.firm.contains e.1 then ((g.thr e.1).stopped s.now).owes e.2
      else (g.thr e.1).stopped s.now := by
  have hout : e.1 ∉ s.sweep.tookTids code := fun hin => by
    obtain ⟨d, hd, hfirst, hd'⟩ := Sweep.took_entry hin
    exact hcode (List.inj_on_of_nodup_map h.once hd he hfirst ▸ hd')
  rw [State.trapThr, if_neg hout, Sweep.owedAfter_other he h.once hout, h.stops he]

theorem State.TrapsAt.thr_goes (hin : t ∈ s.cur.path) (ht : s.trapped t = false) :
    s.trapThr g code t = (g.thr t).after s.cur s.sweep.moved s.now t := by
  rw [State.trapThr_untrapped ht, if_pos hin]
  exact State.moved_goes h.holds h.stays ht h.viols ((s.cg_eq g h.group).symm ▸ h.home)

theorem State.TrapsAt.thr_outside (hout : t ∉ s.cur.path) : s.trapThr g code t = g.thr t := by
  have ht : s.trapped t = false := List.any_eq_false.2 fun e he => by
    obtain ⟨hin, -, -⟩ := h.traps e he
    exact fun heq => hout (of_decide_eq_true heq ▸ hin)
  rw [State.trapThr_untrapped ht, if_neg hout]

theorem State.TrapsAt.finish : ∃ ts out going, s.finish = { s with
      dev := s.linkOver.dev
      ivs := s.sweep.ivs ++ s.ivs
      groups := kset s.groups s.cur.gid (g.trapEnd s ts code out going)
      sweep := Sweep.reset
      now := s.now + 1
      free := s.free + 1 }
    ∧ ∀ t, (g.withThreads ts).thr t = s.trapThr g code t := by
  have hjoined : s.joinIvs.TrapsAt g code := { h with }
  obtain ⟨ts, -, hgroup, hthr⟩ := hjoined.group_taken
  obtain ⟨e, he, hcode⟩ := h.taken
  have hlive : ((g.withThreads ts).thr e.1).life = .live := by
    obtain ⟨-, hlive, -⟩ := h.traps e he
    rw [hthr e.1]
    exact (congrArg Thread.life (h.thr_took he hcode)).trans hlive
  obtain ⟨out, going, hfinish⟩ := State.finish_taken h.group hgroup h.viols h.freeze rfl ⟨e.1, h.lt he, hlive⟩
  exact ⟨ts, out, going, hfinish, hthr⟩

end

/-- Settles O13: the sweep's traps are those of its lowest code, whose threads enter the handler, and each other thread of the path
stays or goes on. -/
theorem trapsAreTaken : Obligations.TrapsAreTaken := by
  intro s g code hg hhome hsize hnodup hpath htraps honce htaken hviols hholds hloads hstays hvec hinh hfreeze took
  have h : s.TrapsAt g code := ⟨hg, hhome, hsize, hnodup, hpath, htraps, honce, htaken, hviols, hholds, hloads, hstays,
    hvec, hinh, hfreeze⟩
  obtain ⟨ts, out, going, hfinish, hthr⟩ := h.finish
  have hend : ∀ t, (g.trapEnd s ts code out going).thr t = s.trapThr g code t := fun t =>
    (g.trapEnd_thr s ts code out going t).trans (hthr t)
  have hctl := g.trapEnd_ctl s ts code out going
  have hepc := congrArg Ctl.epc hctl
  have htaddr := congrArg Ctl.taddr hctl
  have htcause := congrArg Ctl.tcause hctl
  rw [hfinish]
  refine ⟨_, kfind_kset_self .., g.trapEnd_kept s ts code out going, g.trapEnd_pend s ts code out going,
    g.trapEnd_g s ts code out going, State.sameOutside_sweepOver { s with ivs := s.sweep.ivs ++ s.ivs } _, hepc, htcause,
    fun t a hmem hlow => ?addr, g.trapEnd_tmask s ts code out going, ?ctl,
    fun t => ⟨fun ht => ?took, fun c a hmem hne => ?other, fun hin ht => ?goes, fun hout => ?outside⟩⟩
  case addr =>
    exact htaddr.trans (congrArg CReg.of (Sweep.trapAddr_lowest hmem honce (h.lt hmem) hlow))
  case ctl =>
    rw [hepc, htaddr, htcause]
    exact hctl
  case took =>
    obtain ⟨e, he, hfirst, hcode⟩ : ∃ e ∈ s.sweep.traps, e.1 = t ∧ e.2.1 = code := by
      simpa [took] using ht
    subst hfirst
    rw [hend, h.thr_took he hcode]
    simp [Thread.enters, Thread.stopped, Ctl.handler]
  case other =>
    rw [hend, h.thr_other hmem hne]
    split
    · rfl
    · rfl
  case goes =>
    rw [hend, h.thr_goes hin ht]
    unfold Thread.after
    split
    · rfl
    · rfl
  case outside => rw [hend, h.thr_outside hout]

end Sys2Proof.Machine
end

section
/-! SUPPORT. What a step runs (R126, R144, R242, R245, R247, R286). -/

namespace Sys2Proof.Machine
open Sys2Proof

/-! ### The move of a path, and that of the agenda (log entry 1) -/

section
variable {s : State}

theorem step_path {lane gid : Nat} {chose : Bool} (hagenda : s.agenda = []) (hnow : s.now % 2 = 0)
    (hlane : s.nextLane = some lane) (hnext : s.laneNext lane = some (gid, chose)) :
    step s = exec (s.issue gid chose).1 (s.issue gid chose).2 := by
  have hmove : s.move = s.issue gid chose := by
    simp only [State.move, hagenda, hnow, if_true, State.pathMove, hlane, hnext, Option.bind_some, Option.map_some,
      Option.some_or, Option.getD_some]
  rw [step, hmove]

theorem step_event {e : Instr} {es : List Instr} (hagenda : s.agenda = e :: es) (hwords : encode e = [])
    (hheader : e ≠ .clauseHeader) : step s = exec e { s with agenda := es } := by
  have hmove : s.move = (e, { s with agenda := es }) := by
    simp [State.move, hagenda, isEvent, hwords, hheader]
  rw [step, hmove]

end

/-! ### The words that are fetched (R245, R247, R286) -/

theorem instrAt_decoded {cls k n : Nat} {w u : Word} {i : Instr} (hdecode : decode w u = .ok i)
    (hcls : (opClass (opOf w) = 5 ∧ k = n) ∨ (opClass (opOf w) ≠ 5 ∧ opClass (opOf w) = cls)) :
    instrAt cls k n w u = i := by
  have hplace : ¬ (if opClass (opOf w) = 5 then k ≠ n else opClass (opOf w) ≠ cls) := by
    obtain ⟨h5, hk⟩ | ⟨h5, hc⟩ := hcls
    · rw [if_pos h5]
      exact not_not.2 hk
    · rw [if_neg h5]
      exact not_not.2 hc
  simp only [instrAt, hdecode]
  exact if_neg hplace

section
variable {s : State} {gid : Nat} {pos : Pos} {loop : Option LoopSt} {path mask : List Nat} {d : Cur} {i : Instr}

/-- The words of the pass, as a step finds them, decode to the instruction that is fetched. -/
theorem State.fetched_decoded
    (hd : (loop = none ∧ d = s.curAt gid pos path mask) ∨ ∃ l w v, loop = some l
      ∧ stepWords l (s.curAt gid pos path mask).w (s.curAt gid pos path mask).u = some (w, v)
      ∧ d = { s.curAt gid pos path mask with w := w, u := v, ioff := l.pass * l.steps.getD 5 0 })
    (hdecode : decode d.w d.u = .ok i)
    (hcls : (opClass (opOf d.w) = 5 ∧ pos.k = d.n) ∨ (opClass (opOf d.w) ≠ 5
      ∧ opClass (opOf d.w) = hdrCls (((kfind (s.grp gid).clauses pos.hdr).getD []).headD 0#32))) :
    s.fetched gid pos loop path mask = (i, d) := by
  obtain ⟨rfl, rfl⟩ | ⟨l, w, v, rfl, hwords, rfl⟩ := hd
  · simp only [State.fetched, instrAt_decoded hdecode hcls]
  · simp only [State.fetched, hwords, instrAt_decoded hdecode hcls]

theorem State.fetched_leaves {l : LoopSt}
    (hwords : stepWords l (s.curAt gid pos path mask).w (s.curAt gid pos path mask).u = none) :
    s.fetched gid pos (some l) path mask = (.unassignedOpcode (s.curAt gid pos path mask).w, s.curAt gid pos path mask) := by
  simp only [State.fetched, hwords]

end

/-! ### The instruction that a group issues -/

theorem State.updGrp_threads (s : State) (gid k : Nat) {f : Group → Group} (hf : ∀ g, (f g).threads = g.threads) :
    ((s.updGrp k f).grp gid).threads = (s.grp gid).threads := by
  by_cases hk : gid = k
  · subst hk
    cases hg : kfind s.groups gid with
    | some g => rw [s.updGrp_grp gid f g hg, hf, s.grp_of_kfind gid g hg]
    | none => rw [State.updGrp, hg]
  · rw [s.updGrp_grp_ne k gid f hk]

/-- The choice of a group changes no thread. -/
theorem State.chosen_thr (s : State) (gid : Nat) (goesOn chose : Bool) (t : Nat) :
    (s.chosen gid goesOn chose).thr gid t = (s.grp gid).thr t := by
  have hturn : (((if goesOn then s else s.updGrp gid fun g => { g with turn := 0 }).grp gid).threads) = (s.grp gid).threads := by
    split
    · rfl
    · exact s.updGrp_threads gid gid fun _ => rfl
  have hthreads : ((s.chosen gid goesOn chose).grp gid).threads = (s.grp gid).threads := by
    unfold State.chosen
    dsimp only
    split
    · refine foldl_keeps (fun u : State => (u.grp gid).threads = (s.grp gid).threads) _ (fun u k hu => ?_) _ _ hturn
      refine (u.updGrp_threads gid k fun g => ?_).trans hu
      split
      · rfl
      · rfl
    · exact hturn
  rw [State.thr, Group.thr, hthreads, Group.thr]

section
variable {s : State} {gid : Nat} {chose : Bool} (hhome : (s.grp gid).kind ≠ .pitcher)
  (hturn : (s.nextPath gid).2 = true → (s.grp gid).turn < 256)

/-- The thread that leads the next path of a group. -/
def State.lead (s : State) (gid : Nat) : Thread := (s.grp gid).thr ((s.nextPath gid).1.headD 0)

/-- The threads of the next path that are active for its instruction. -/
def State.nextMask (s : State) (gid : Nat) : List Nat :=
  (s.nextPath gid).1.filter fun t => ((s.grp gid).thr t).gact && !((s.grp gid).thr t).done

include hhome hturn

theorem State.issue_header (hk : (s.lead gid).pos.k = 0) :
    let u := s.chosen gid (s.nextPath gid).2 chose
    s.issue gid chose = (.clauseHeader, { u with cur := u.curAt gid (s.lead gid).pos (s.nextPath gid).1 [] }) := by
  intro u
  have hover : ¬ (decide ((s.grp gid).kind = .pitcher) && (s.core (s.grp gid).core).pitchOver) = true := by simp [hhome]
  have hlimit : ¬ ((s.nextPath gid).2 && decide (256 ≤ (s.grp gid).turn)) = true := by simpa using hturn
  rw [State.issue]
  dsimp only
  rw [if_neg hover, if_neg hlimit]
  exact if_pos hk

theorem State.issue_clause (hk : (s.lead gid).pos.k ≠ 0) {i : Instr} {c : Cur}
    (hfetch : (s.chosen gid (s.nextPath gid).2 chose).fetched gid (s.lead gid).pos (s.lead gid).loop (s.nextPath gid).1
      (s.nextMask gid) = (i, c))
    (hreplays : ((s.chosen gid (s.nextPath gid).2 chose).core (s.grp gid).core).replays = []) :
    s.issue gid chose = (i, State.owedTaken { s.chosen gid (s.nextPath gid).2 chose with cur := c } gid i) := by
  have hover : ¬ (decide ((s.grp gid).kind = .pitcher) && (s.core (s.grp gid).core).pitchOver) = true := by simp [hhome]
  have hlimit : ¬ ((s.nextPath gid).2 && decide (256 ≤ (s.grp gid).turn)) = true := by simpa using hturn
  rw [State.issue]
  dsimp only
  rw [if_neg hover, if_neg hlimit]
  refine (if_neg hk).trans ?_
  unfold State.lead State.nextMask at hfetch
  rw [hfetch]
  have hempty : ((s.chosen gid (s.nextPath gid).2 chose).core (s.grp gid).core).replays.isEmpty = true :=
    List.isEmpty_iff.2 hreplays
  exact congrArg (fun v : State => (i, v.owedTaken gid i)) (if_pos hempty)

end

/-! ### Threads that owe a trap (R144) -/

/-- The traps that the active threads of an issue owe, by a group's threads. -/
def Group.owedBy (g : Group) (mask : List Nat) : List (Nat × Nat × Nat) :=
  mask.filterMap fun t => (g.thr t).owed.map fun e => (t, e)

theorem State.owedTaken_none {v : State} {gid : Nat} {i : Instr}
    (h : (v.grp gid).owedBy v.cur.mask = [] ∨ takesOwed i = true) : v.owedTaken gid i = v := by
  rw [State.owedTaken]
  refine if_pos ?_
  rw [Bool.or_eq_true, List.isEmpty_iff]
  exact h

theorem State.owedTaken_first {v : State} {gid : Nat} {i : Instr} (h : (v.grp gid).owedBy v.cur.mask ≠ [])
    (hi : takesOwed i = false) : v.owedTaken gid i = v.trapFirst ((v.grp gid).owedBy v.cur.mask) := by
  rw [State.owedTaken]
  refine if_neg ?_
  rw [Bool.or_eq_true, List.isEmpty_iff, hi]
  exact not_or.2 ⟨h, Bool.false_ne_true⟩

theorem Group.owedBy_congr {g h : Group} (hthr : ∀ t, h.thr t = g.thr t) (mask : List Nat) : h.owedBy mask = g.owedBy mask := by
  simp only [Group.owedBy, hthr]

theorem Group.owedBy_none {g : Group} {mask : List Nat} (h : ∀ t ∈ mask, (g.thr t).owed = none) : g.owedBy mask = [] :=
  List.filterMap_eq_nil_iff.2 fun t ht => by rw [h t ht]; rfl

/-- The threads of a list that take no trap first. -/
theorem mem_filter_unnamed {ts : List Nat} {es : List (Nat × Nat × Nat)} {t : Nat} :
    t ∈ (ts.filter fun t => es.all fun e => e.1 ≠ t) ↔ t ∈ ts ∧ ∀ e ∈ es, e.1 ≠ t := by
  simp only [List.mem_filter, List.all_eq_true, decide_eq_true_eq]

theorem State.trapFirst_mask (v : State) (es : List (Nat × Nat × Nat)) :
    (v.trapFirst es).cur.mask = v.cur.mask.filter fun t => es.all fun e => e.1 ≠ t :=
  congrArg (fun c : Cur => c.mask.filter fun t => es.all fun e => e.1 ≠ t) (State.updGrp_cur ..)

theorem State.trapFirst_path (v : State) (es : List (Nat × Nat × Nat)) :
    (v.trapFirst es).cur.path = v.cur.path.filter fun t => es.all fun e => e.1 ≠ t :=
  congrArg (fun c : Cur => c.path.filter fun t => es.all fun e => e.1 ≠ t) (State.updGrp_cur ..)

/-- A thread that takes a trap that it owed stands at its instruction and owes none. -/
def Thread.paid (x : Thread) (now : Nat) : Thread :=
  { x with replay := false, stays := false, popped := [], owed := none, last := now }

theorem State.trapFirst_threads {v : State} {g : Group} {es : List (Nat × Nat × Nat)} (hg : kfind v.groups v.cur.gid = some g)
    (hsize : g.threads.length = 16) (hn : (es.map Prod.fst).Nodup) (hlt : ∀ e ∈ es, e.1 < 16) :
    (∀ e ∈ es, (v.trapFirst es).thr v.cur.gid e.1 = (g.thr e.1).paid v.now)
      ∧ ∀ t, (∀ e ∈ es, e.1 ≠ t) → (v.trapFirst es).thr v.cur.gid t = g.thr t := by
  obtain ⟨ts, hfold, -, hin, hout⟩ := Group.foldEntries (fun _ x => x.paid v.now) es g hn fun e he => hsize.symm ▸ hlt e he
  have hgrp : (v.trapFirst es).grp v.cur.gid = g.withThreads ts := (v.updGrp_grp v.cur.gid _ g hg).trans hfold
  simp only [State.thr, hgrp]
  exact ⟨hin, hout⟩

/-! ### Every meaning answers a next state -/

/-- No meaning ends in a fault or a refusal. Those of the first case have branches, each of which goes on; the others are a next
state as they stand. -/
theorem exec_goes (i : Instr) (s : State) : ∃ u, exec i s = .next u := by
  cases i with
  | clauseHeader | ret | join | tail | yield | nop | mapRebuild | linkRetrainEnd | thermalThrottle | thermalFence |
    pwrhRefresh | undervoltOverride | scanPatternEnd | sliceRequest | tableWalk | granuleReopen | sideLogReplay | recordStage
    | discard | restart | blockClaim | binTimerExpiry | binLaunch | groupRetire | resultLanding | headerWait |
    starvationSwitch | cloneReplay | matrixCheck | copyTransferCompletion | completionWordWrite | batchWindowExpiry |
    updateArrival | contributionArrival | collectiveBoundExpiry | collectiveDelivery | waitWake | waitTimeout | waitaWake |
    pwaitReread | huddleRoundComplete | dcorRound | barComplete | pitcherStart | hardwareEnd | sourceEntryRequest =>
    dsimp only [exec, execClauseHeader, execRet, execJoin, execTail, execYield, execNop, execMapRebuild, execLinkRetrainEnd,
      execThermalThrottle, execThermalFence, execPwrhRefresh, execUndervoltOverride, execScanPatternEnd, execSliceRequest,
      execTableWalk, execGranuleReopen, execSideLogReplay, execRecordStage, execDiscard, execRestart, execBlockClaim,
      execBinTimerExpiry, execBinLaunch, execGroupRetire, execResultLanding, execHeaderWait, execStarvationSwitch,
      execCloneReplay, execMatrixCheck, execCopyTransferCompletion, execCompletionWordWrite, execBatchWindowExpiry,
      execUpdateArrival, execContributionArrival, execCollectiveBoundExpiry, execCollectiveDelivery, execWaitWake,
      execWaitTimeout, execWaitaWake, execPwaitReread, execHuddleRoundComplete, execDcorRound, execBarComplete,
      execPitcherStart, execHardwareEnd, execSourceEntryRequest]
    repeat' split
    all_goals exact ⟨_, rfl⟩
  | _ => exact ⟨_, rfl⟩

/-- Settles O59: a step is the issue of the path that the lane chose, whose words are fetched and whose owed traps are taken
first. -/
theorem stepsRunWhatIsDecoded : Obligations.StepsRunWhatIsDecoded := by
  intro s
  refine ⟨fun lane gid chose hagenda hnow hlane hnext => ?path, fun v g es hg hsize hn hlt => ?first,
    fun e es => step_event, exec_goes⟩
  case path =>
    intro g path x u hhome hturn
    have hstep := step_path hagenda hnow hlane hnext
    have howes : ∀ (d : Cur) mask, (State.grp { u with cur := d } gid).owedBy mask = g.owedBy mask := fun d =>
      Group.owedBy_congr (s.chosen_thr gid (s.nextPath gid).2 chose)
    refine ⟨fun hk => ?header, fun hk _ hreplays => ⟨fun i d hd hdecode hcls => ?word, fun l hl hwords howed => ?leaves⟩⟩
    case header => exact hstep.trans (congrArg (fun m => exec m.1 m.2) (State.issue_header hhome hturn hk))
    case word =>
      have hfetch : u.fetched gid x.pos x.loop path (s.nextMask gid) = (i, d) := State.fetched_decoded hd hdecode hcls
      have hissue := State.issue_clause (chose := chose) hhome hturn hk hfetch hreplays
      have hrun : step s = exec i (State.owedTaken { u with cur := d } gid i) :=
        hstep.trans (congrArg (fun m => exec m.1 m.2) hissue)
      refine ⟨fun hnone => hrun.trans (congrArg (exec i) ?_), fun hsome htakes => hrun.trans (congrArg (exec i) ?_)⟩
      · exact State.owedTaken_none (by rwa [howes])
      · exact (State.owedTaken_first (by rwa [howes]) htakes).trans (by rw [howes]; rfl)
    case leaves =>
      have hfetch : u.fetched gid x.pos x.loop path (s.nextMask gid) = _ := hl ▸ State.fetched_leaves hwords
      have hissue := State.issue_clause (chose := chose) hhome hturn hk hfetch hreplays
      refine hstep.trans ((congrArg (fun m => exec m.1 m.2) hissue).trans (congrArg (exec _) ?_))
      exact State.owedTaken_none (.inl ((howes _ _).trans (Group.owedBy_none howed)))
  case first =>
    intro y
    obtain ⟨hin, hout⟩ := State.trapFirst_threads hg hsize hn hlt
    refine ⟨congrArg (fun w : Sweep => es ++ w.traps) (State.updGrp_sweep ..), State.updGrp_mem .., fun t => ?_, fun t => ?_,
      fun e he => ?_, fun t ht => ?_⟩
    · rw [State.trapFirst_mask]
      exact mem_filter_unnamed
    · rw [State.trapFirst_path]
      exact mem_filter_unnamed
    · rw [hin e he]
      rfl
    · rw [hout t ht, State.thr, v.grp_of_kfind _ g hg]

end Sys2Proof.Machine
end
